-- ==== Sys2Proof/Word.lean ====
section
/-! DEFINITION. The words of the machine: the widths the manual uses (R5, R93, R99) and the sparse map
in which every store of the machine is held. -/

namespace Sys2Proof

/-- One byte of memory or scratch. -/
abbrev Byte := BitVec 8
/-- One 32-bit register or instruction word (R93). -/
abbrev Word := BitVec 32
/-- A 64-bit pair, address or lane mask. -/
abbrev DWord := BitVec 64
/-- A set of lanes of one group; bit l is lane l (R16). -/
abbrev LaneMask := BitVec 64

/-- A sparse store: pairs of key and value with strictly rising keys. A key that is not listed holds
the store's default value, and no listed value equals it. -/
abbrev SMap (α : Type) := List (Nat × α)

end Sys2Proof
end

