-- ==== Sys2Proof/Syntax.lean ====
section
/-! DEFINITION. The instructions and the events of the machine: one constructor of `Instr` for every row of
spec/opcode_table.json. An instruction carries the fields of its words (R95, R96, R103, R104, R107, R116); an
event carries which operation, context, core or die it concerns and, where the spec leaves the device a
choice, that choice. -/

namespace Sys2Proof

/-- The members of the family (R1). -/
inductive Variant where
  | wz4 | wz2 | wz1
deriving DecidableEq, Repr

/-- The operand types, in the order of their codes (R99). -/
inductive Ty where
  | b32 | b64 | s32 | n32 | s64 | n64 | f32 | f64 | f16 | bf16 | e4m3 | e5m2 | s8 | n8 | s16 | n16
deriving DecidableEq, Repr

/-- The `RND` codes an instruction may hold (R76); 101 and 110 name none. -/
inductive Rnd where
  | rne | rtz | rdn | rup | rna | dyn
deriving DecidableEq, Repr

/-- The `GUARD` field (R96, R97): [21] negate, [20:18] predicate number. -/
structure Guard where
  neg : Bool
  num : BitVec 3
deriving DecidableEq, Repr

/-- What word 0 and word 1 of an extended instruction hold besides `LEN`, `MAJOR` and `SUBOP` (R95, R96), and
the 64-bit literal of a `LEN` 11 form (R98). -/
structure Hdr where
  dst : BitVec 8
  src1 : BitVec 8
  src2 : BitVec 8
  src3 : BitVec 8
  guard : Guard
  /-- `EMPTYTRAP`: bit 2 is `SRC1`, bit 1 `SRC2`, bit 0 `SRC3` (R96). -/
  empty : BitVec 3
  ty : Ty
  rnd : Rnd
  lit : Option DWord
deriving DecidableEq, Repr

/-- A base form (R107): three register fields and, with `LEN` 01, the literal. -/
structure Base where
  dst : BitVec 8
  src1 : BitVec 8
  src2 : BitVec 8
  lit : Option DWord
deriving DecidableEq, Repr

/-- Class XC: word 2 is the immediate (R103). -/
structure XC where
  h : Hdr
  imm : BitVec 32
deriving DecidableEq, Repr

/-- Class XV: word 2 (R103). In `kind`, `neg` and `abs`, bit 2 is `SRC1`, bit 1 `SRC2` and bit 0 `SRC3`. -/
structure XV where
  h : Hdr
  kind : BitVec 3
  sat : Bool
  neg : BitVec 3
  abs : BitVec 3
  cond : BitVec 4
  src : Ty
deriving DecidableEq, Repr

/-- Class XL: word 2 (R103). -/
structure XL where
  h : Hdr
  kind : BitVec 3
  mode : BitVec 4
  imm : BitVec 25
deriving DecidableEq, Repr

/-- Class XM: the memory operand of word 2 (R104). -/
structure XM where
  h : Hdr
  space : BitVec 3
  xsel : BitVec 2
  scale : BitVec 3
  scalarIndex : Bool
  op : BitVec 3
  rh : Bool
  disp : BitVec 19
deriving DecidableEq, Repr

/-- Class XA: word 2 (R103). -/
structure XA where
  h : Hdr
  kind : BitVec 3
  imm : BitVec 29
deriving DecidableEq, Repr

/-- Class XT: word 2 (R103). -/
structure XT where
  h : Hdr
  kind : BitVec 3
  imm : BitVec 29
deriving DecidableEq, Repr

/-- A shaped copy: word 0 and the shape block (R115, R116). -/
structure Shaped where
  src1 : BitVec 8
  src2 : BitVec 8
  dim0 : BitVec 16
  dim1 : BitVec 16
  stride : BitVec 32
  soff : BitVec 18
  spitch : BitVec 14
  esize : BitVec 3
  sreg : BitVec 6
  subst : BitVec 4
  goff : BitVec 18
deriving DecidableEq, Repr

/-- The steps of the machine: every row of spec/opcode_table.json, in the table's order. -/
inductive Instr where
  /-- R107. Base form of add.b32 on three v registers. -/
  | addB32Base (f : Base)
  /-- R107. Base form of sub.b32 on three v registers. -/
  | subB32Base (f : Base)
  /-- R107. Base form of mul.b32 on three v registers. -/
  | mulB32Base (f : Base)
  /-- R107. Base form of and.b32 on three v registers. -/
  | andB32Base (f : Base)
  /-- R107. Base form of or.b32 on three v registers. -/
  | orB32Base (f : Base)
  /-- R107. Base form of xor.b32 on three v registers. -/
  | xorB32Base (f : Base)
  /-- R107. Base form of shl.b32 on three v registers. -/
  | shlB32Base (f : Base)
  /-- R107. Base form of shr.b32 on three v registers. -/
  | shrB32Base (f : Base)
  /-- R107. Base form of sra.b32 on three v registers. -/
  | sraB32Base (f : Base)
  /-- R107. Base form of min.s32 on three v registers. -/
  | minS32Base (f : Base)
  /-- R107. Base form of max.s32 on three v registers. -/
  | maxS32Base (f : Base)
  /-- R107. Base form of fadd.f32 with RNE on three v registers. -/
  | faddF32Base (f : Base)
  /-- R107. Base form of fsub.f32 with RNE on three v registers. -/
  | fsubF32Base (f : Base)
  /-- R107. Base form of fmul.f32 with RNE on three v registers. -/
  | fmulF32Base (f : Base)
  /-- R107. Base form of fma.f32 with DST as the addend. -/
  | fmaF32Base (f : Base)
  /-- R107. Base form of fmin.f32 on three v registers. -/
  | fminF32Base (f : Base)
  /-- R107. Base form of fmax.f32 on three v registers. -/
  | fmaxF32Base (f : Base)
  /-- R107. Base form of mov.b32 between v registers. -/
  | movB32Base (f : Base)
  /-- R107. Base form of add.b32 with a scalar second source. -/
  | addB32VsBase (f : Base)
  /-- R107. Base form of fmul.f32 with a scalar second source. -/
  | fmulF32VsBase (f : Base)
  /-- R107. Base form of fma.f32 with a scalar multiplier and DST as addend. -/
  | fmaF32VsBase (f : Base)
  /-- R107. Base form of sadd.b32 on three s registers. -/
  | saddB32Base (f : Base)
  /-- R107. Base form of ssub.b32 on three s registers. -/
  | ssubB32Base (f : Base)
  /-- R107. Base form of smul.b32 on three s registers. -/
  | smulB32Base (f : Base)
  /-- R107. Base form of sand.b32 on three s registers. -/
  | sandB32Base (f : Base)
  /-- R107. Base form of sor.b32 on three s registers. -/
  | sorB32Base (f : Base)
  /-- R107. Base form of sxor.b32 on three s registers. -/
  | sxorB32Base (f : Base)
  /-- R107. Base form of sshl.b32 on three s registers. -/
  | sshlB32Base (f : Base)
  /-- R107. Base form of sshr.b32 on three s registers. -/
  | sshrB32Base (f : Base)
  /-- R107. Base form of smov.b32 between s registers. -/
  | smovB32Base (f : Base)
  /-- R107. Base form of ld.b32 through a translation register with index times 4. -/
  | ldB32XBase (f : Base)
  /-- R107. Base form of st.b32 through a translation register with index times 4. -/
  | stB32XBase (f : Base)
  /-- R107. Base form of ld.b32 from own scratch at index plus 4 times an immediate. -/
  | ldB32ScBase (f : Base)
  /-- R107. Base form of st.b32 to own scratch at index plus 4 times an immediate. -/
  | stB32ScBase (f : Base)
  /-- R130. Scalar add modulo 2^w. -/
  | sadd (f : XC)
  /-- R130. Scalar subtract modulo 2^w. -/
  | ssub (f : XC)
  /-- R130. Scalar multiply, low w bits. -/
  | smul (f : XC)
  /-- R130. Scalar multiply, high w bits of the exact product. -/
  | smulh (f : XC)
  /-- R130. Scalar multiply-add, low w bits. -/
  | smad (f : XC)
  /-- R130. Scalar division rounded towards zero, with R73 for the special cases. -/
  | sdiv (f : XC)
  /-- R130. Scalar remainder with the sign of the dividend. -/
  | srem (f : XC)
  /-- R130. Scalar minimum. -/
  | smin (f : XC)
  /-- R130. Scalar maximum. -/
  | smax (f : XC)
  /-- R130. Scalar bitwise and. -/
  | sand (f : XC)
  /-- R130. Scalar bitwise or. -/
  | sor (f : XC)
  /-- R130. Scalar bitwise exclusive or. -/
  | sxor (f : XC)
  /-- R130. Scalar shift left. -/
  | sshl (f : XC)
  /-- R130. Scalar logical shift right. -/
  | sshr (f : XC)
  /-- R130. Scalar arithmetic shift right. -/
  | ssra (f : XC)
  /-- R131. Scalar bit-field extract. -/
  | sbfx (f : XC)
  /-- R131. Scalar bit-field insert into DST. -/
  | sbfi (f : XC)
  /-- R130. Scalar population count. -/
  | spopc (f : XC)
  /-- R130. Scalar count of leading zeros. -/
  | sclz (f : XC)
  /-- R130. Scalar count of trailing zeros. -/
  | sctz (f : XC)
  /-- R132. Scalar compare into a k register. -/
  | scmp (f : XC)
  /-- R132. Scalar select by a k register. -/
  | ssel (f : XC)
  /-- R130. Scalar move. -/
  | smov (f : XC)
  /-- R130. Scalar load of a sign-extended immediate. -/
  | sli (f : XC)
  /-- R133. Scalar predicate logic by a four-entry table. -/
  | kop (f : XC)
  /-- R134. Uniform branch to a target. -/
  | bra (f : XC)
  /-- R134. Uniform branch on an s register being zero or nonzero. -/
  | brk (f : XC)
  /-- R135. Divergent branch by the guard, forking or pushing the reconvergence stack. -/
  | brv (f : XC)
  /-- R134. Uniform jump to the address in a q pair. -/
  | jmp (f : XC)
  /-- R136. Writes the return address to a d pair and branches. -/
  | call (f : XC)
  /-- R136. Returns to the address in a d pair, diverging when lanes differ. -/
  | ret (f : XC)
  /-- R134. Decrements an s register and branches while it is nonzero. -/
  | loop (f : XC)
  /-- R19. Reconvergence point: merges, releases, waits or pops the reconvergence stack. -/
  | join (f : XC)
  /-- R137. Ends each acting lane, with exit.err marking its task in error. -/
  | exitLanes (f : XC)
  /-- R138. No effect. -/
  | nop (f : XC)
  /-- R138. Holds the split back for 16 issue opportunities. -/
  | yieldSplit (f : XC)
  /-- R139. Copies a special register into s or v registers. -/
  | rdsr (f : XC)
  /-- R139. Writes a special register, RO registers taking ILLEGAL. -/
  | wrsr (f : XC)
  /-- R141. Closes the current idempotent region and opens a new one. -/
  | region (f : XC)
  /-- R144. Allocates spawn-form frames and writes their handles. -/
  | fnew (f : XC)
  /-- R144. Allocates promise-form frames and writes their handles. -/
  | fnewP (f : XC)
  /-- R145. Requests the promise-to-done transition of promise frames. -/
  | fdone (f : XC)
  /-- R145. The home frame store performs or refuses an fdone after the write-back, releasing waiters. -/
  | fdonePerform (op : Nat)
  /-- R146. Returns frame status or parks the split on the frame's waiter list. -/
  | fawait (f : XC)
  /-- R147. Reads a frame's state and pending count without parking. -/
  | fpoll (f : XC)
  /-- R149. Builds records reporting to a frame and sends them to a node. -/
  | spawn (f : XC)
  /-- R149. The frame stores raise PENDING for a spawn, or refuse it, after which the records leave. -/
  | spawnFrameRaise (op : Nat)
  /-- R150. Builds records with a null frame and sends them to a node. -/
  | emit (f : XC)
  /-- R150. Sends records through an arm, starting new graphs. -/
  | fire (f : XC)
  /-- R152. Deposits lanes by key into the reorder unit and ends them. -/
  | reord (f : XC)
  /-- R153. Pushes entries to a die's priority queue. -/
  | pqpush (f : XC)
  /-- R330. A push arrives at the priority queue and is inserted in arrival order. -/
  | pqPushPerform (op : Nat)
  /-- R154. Pops entries from the issuing die's priority queue into ten registers. -/
  | pqpop (f : XC)
  /-- R330. A pop arrives at the priority queue and returns an entry within the window, or empty. -/
  | pqPopPerform (op pick : Nat)
  /-- R155. Takes SOFTWARE precisely with the trap number in the cause. -/
  | trap (f : XC)
  /-- R156. Returns from a handler to the saved program counter. -/
  | rfePc (f : XC)
  /-- R156. Returns from a handler to the instruction after the rfe. -/
  | rfeNext (f : XC)
  /-- R156. Returns from a handler by restarting the split's current region. -/
  | rfeRegion (f : XC)
  /-- R157. Binds a translation register by a walk and run extension. -/
  | xbind (f : XC)
  /-- R160. Vector integer add, wrapping or saturating. -/
  | add (f : XV)
  /-- R160. Vector integer subtract. -/
  | sub (f : XV)
  /-- R160. Vector integer multiply. -/
  | mul (f : XV)
  /-- R160. Vector integer multiply, high half. -/
  | mulh (f : XV)
  /-- R160. Vector integer multiply-add. -/
  | mad (f : XV)
  /-- R160. Vector integer minimum. -/
  | min (f : XV)
  /-- R160. Vector integer maximum. -/
  | max (f : XV)
  /-- R160. Vector integer absolute value. -/
  | abs (f : XV)
  /-- R160. Vector bitwise and. -/
  | and (f : XV)
  /-- R160. Vector bitwise or. -/
  | or (f : XV)
  /-- R160. Vector bitwise exclusive or. -/
  | xor (f : XV)
  /-- R160. Vector shift left. -/
  | shl (f : XV)
  /-- R160. Vector logical shift right. -/
  | shr (f : XV)
  /-- R160. Vector arithmetic shift right. -/
  | sra (f : XV)
  /-- R161. Vector bit-field extract with per-lane position and length. -/
  | bfx (f : XV)
  /-- R161. Vector bit-field insert with per-lane position and length. -/
  | bfi (f : XV)
  /-- R160. Vector population count. -/
  | popc (f : XV)
  /-- R160. Vector count of leading zeros. -/
  | clz (f : XV)
  /-- R160. Vector bit reversal. -/
  | brev (f : XV)
  /-- R162. Vector integer compare into a lane predicate. -/
  | cmp (f : XV)
  /-- R162. Vector select by a lane predicate. -/
  | sel (f : XV)
  /-- R160. Vector move. -/
  | mov (f : XV)
  /-- R163. Vector floating-point add. -/
  | fadd (f : XV)
  /-- R163. Vector floating-point subtract. -/
  | fsub (f : XV)
  /-- R163. Vector floating-point multiply. -/
  | fmul (f : XV)
  /-- R163. Vector fused multiply-add. -/
  | fma (f : XV)
  /-- R164. Vector floating-point minimum. -/
  | fmin (f : XV)
  /-- R164. Vector floating-point maximum. -/
  | fmax (f : XV)
  /-- R165. Vector floating-point compare into a lane predicate. -/
  | fcmp (f : XV)
  /-- R166. Vector floating-point class mask. -/
  | fclass (f : XV)
  /-- R163. Vector correctly rounded division. -/
  | fdiv (f : XV)
  /-- R163. Vector correctly rounded square root. -/
  | fsqrt (f : XV)
  /-- R163. Vector reciprocal. -/
  | frcp (f : XV)
  /-- R163. Vector reciprocal square root. -/
  | frsq (f : XV)
  /-- R167. Vector base-2 exponential, correctly rounded. -/
  | fex2 (f : XV)
  /-- R167. Vector base-2 logarithm, correctly rounded. -/
  | flg2 (f : XV)
  /-- R167. Vector sine, correctly rounded. -/
  | fsin (f : XV)
  /-- R167. Vector cosine, correctly rounded. -/
  | fcos (f : XV)
  /-- R167. Vector hyperbolic tangent, correctly rounded. -/
  | ftanh (f : XV)
  /-- R163. Vector rounding to an integral value. -/
  | frint (f : XV)
  /-- R163. Vector scaling by a power of two. -/
  | fscal (f : XV)
  /-- R168. Vector conversion between formats. -/
  | cvt (f : XV)
  /-- R169. Vector conversion of two operands into packed narrow values. -/
  | pack (f : XV)
  /-- R170. Vector exact widening of a selected packed element. -/
  | unpack (f : XV)
  /-- R172. Lane shuffle from an indexed lane. -/
  | shflIdx (f : XL)
  /-- R172. Lane shuffle from a lower lane. -/
  | shflUp (f : XL)
  /-- R172. Lane shuffle from a higher lane. -/
  | shflDown (f : XL)
  /-- R172. Lane shuffle from the lane at an xor distance. -/
  | shflXor (f : XL)
  /-- R173. Gathers participating lanes' predicate bits into a q pair. -/
  | voteBallot (f : XL)
  /-- R173. Sets a k register if any participating predicate is 1. -/
  | voteAny (f : XL)
  /-- R173. Sets a k register if every participating predicate is 1. -/
  | voteAll (f : XL)
  /-- R173. Sets a k register if every participating predicate is equal. -/
  | voteUni (f : XL)
  /-- R174. Gives each lane the mask of lanes with an equal bit pattern and marks leaders. -/
  | matchLanes (f : XL)
  /-- R175. Reduces over participating lanes in a fixed tree. -/
  | redux (f : XL)
  /-- R176. Inclusive or exclusive prefix over participating lanes. -/
  | scan (f : XL)
  /-- R177. Applies the counter-based generator per lane or once. -/
  | rngc (f : XL)
  /-- R182. Issues a vocabulary operation returning the k largest row elements. -/
  | vtopk (f : XL)
  /-- R183. Issues a vocabulary operation normalising a row. -/
  | vsoftmax (f : XL)
  /-- R184. Issues a vocabulary operation drawing one index from a row of weights. -/
  | vsample (f : XL)
  /-- R179. The vocabulary unit completes one 256-element block of an operation, completing it at its last block. -/
  | vocabBlock (op : Nat)
  /-- R188. Loads one element per acting lane. -/
  | ld (f : XM)
  /-- R188. Stores one element per acting lane. -/
  | st (f : XM)
  /-- R189. Scalar load for the split. -/
  | sld (f : XM)
  /-- R189. Scalar store for the split. -/
  | sst (f : XM)
  /-- R191. Atomic add returning the old value. -/
  | aadd (f : XM)
  /-- R191. Atomic minimum returning the old value. -/
  | amin (f : XM)
  /-- R191. Atomic maximum returning the old value. -/
  | amax (f : XM)
  /-- R191. Atomic and returning the old value. -/
  | aand (f : XM)
  /-- R191. Atomic or returning the old value. -/
  | aor (f : XM)
  /-- R191. Atomic exclusive or returning the old value. -/
  | axor (f : XM)
  /-- R191. Atomic swap returning the old value. -/
  | aswap (f : XM)
  /-- R191. Atomic compare-and-swap returning the old value. -/
  | acas (f : XM)
  /-- R191. Atomic bounded increment returning the old value. -/
  | ainc (f : XM)
  /-- R191. Atomic floating-point add returning the old value. -/
  | afadd (f : XM)
  /-- R192. An atomic, red or scatter-add is performed at its point of order and its old value returns. -/
  | atomicPerform (op : Nat)
  /-- R193. No-return atomic reduction per acting lane. -/
  | red (f : XM)
  /-- R195. Parks the split until a word satisfies a comparison. -/
  | swait (f : XM)
  /-- R195. A polling wait re-reads its word at its interval and continues when satisfied. -/
  | swaitPoll (ctx split : Nat)
  /-- R196. Prefetches lines into the home L2 and the L1. -/
  | pf (f : XM)
  /-- R197. Allocates a package residency handle. -/
  | rhnew (f : XM)
  /-- R197. Sets a residency handle's priority and re-arms it. -/
  | rhset (f : XM)
  /-- R197. Frees a residency handle. -/
  | rhdrop (f : XM)
  /-- R198. Discards the core's cached node-table entry. -/
  | cbinvNode (f : XM)
  /-- R198. Discards the core's cached arm entry. -/
  | cbinvArm (f : XM)
  /-- R198. Discards a cached tree descriptor and its leaf-cache entries. -/
  | cbinvTree (f : XM)
  /-- R198. Discards every cached control block on the core. -/
  | cbinvAll (f : XM)
  /-- R198. Issues a translation invalidation from the supervisor handler. -/
  | cbinvTr (f : XM)
  /-- R58. A translation invalidation completes on every core. -/
  | translationInvalidateDone (op : Nat)
  /-- R200. Bulk copy from global memory to own scratch. -/
  | cpaGs (f : XA)
  /-- R200. Bulk copy from own scratch to global memory. -/
  | cpaSg (f : XA)
  /-- R200. Bulk copy from global to global memory. -/
  | cpaGg (f : XA)
  /-- R200. Bulk copy within own scratch. -/
  | cpaSs (f : XA)
  /-- R200. Bulk copy from own scratch to the cluster window. -/
  | cpaSw (f : XA)
  /-- R200. Bulk copy from the cluster window to own scratch. -/
  | cpaWs (f : XA)
  /-- R202. Shaped copy from global memory to own scratch. -/
  | cpasGs (f : Shaped)
  /-- R202. Shaped copy from own scratch to global memory. -/
  | cpasSg (f : Shaped)
  /-- R203. Shaped copy from global memory to a tile. -/
  | cpasGt (f : Shaped)
  /-- R203. Shaped copy from own scratch to a tile. -/
  | cpasSt (f : Shaped)
  /-- R203. Shaped copy from an accumulator block to global memory. -/
  | cpasAg (f : Shaped)
  /-- R207. Bytes of a copy or row gather land and are posted to their bound barrier phase. -/
  | copyLanding (op first count : Nat)
  /-- R305. An engine meets a translation fault, stops at its progress record and writes a fault record. -/
  | engineFault (op part : Nat)
  /-- R305. An engine's requested supervisor entry is taken by a split of its issuing group. -/
  | engineSupervisorEntry (ctx : Nat)
  /-- R205. Team barrier arrival. -/
  | bar (f : XA)
  /-- R41. A boundary pair's completion message arrives and the receiving core releases its groups. -/
  | boundaryBarrierMessage (team side : Nat)
  /-- R209. Initialises a transaction barrier. -/
  | tbinit (f : XA)
  /-- R209. Writes back and requests an arrival with expected bytes at a transaction barrier. -/
  | tbarrive (f : XA)
  /-- R209. The owning port performs or refuses a tbarrive and checks the phase. -/
  | tbarrivePerform (op : Nat)
  /-- R209. Parks while a transaction barrier's phase is unchanged. -/
  | tbwait (f : XA)
  /-- R209. Reads a transaction barrier's progress without parking. -/
  | tbpoll (f : XA)
  /-- R210. Element gather through the gather engine. -/
  | gath (f : XA)
  /-- R210. Row gather into scratch bound to a transaction barrier. -/
  | gathRow (f : XA)
  /-- R211. Scatter-add combining equal addresses then adding at each point of order. -/
  | scatadd (f : XA)
  /-- R244. Writes a tile control register. -/
  | tset (f : XT)
  /-- R244. Reads a tile control register. -/
  | tget (f : XT)
  /-- R245. Loads a tile's 16-entry codebook from lanes. -/
  | tcb (f : XT)
  /-- R246. Moves tile bytes to lanes. -/
  | tld (f : XT)
  /-- R246. Moves lane bytes into a tile. -/
  | tst (f : XT)
  /-- R247. Zeroes a tile's data. -/
  | tzero (f : XT)
  /-- R251. Sets the group's gang mask. -/
  | gang (f : XT)
  /-- R253. Dense matrix operation into an accumulator block. -/
  | mma (f : XT)
  /-- R255. Block-bitmap sparse matrix operation. -/
  | mmaBs (f : XT)
  /-- R255. Vector-wise 2:4 sparse matrix operation. -/
  | mmaVs (f : XT)
  /-- R252. The latch fires when every gang member has arrived, committing or taking GANG_MISMATCH. -/
  | latchFire (ctx : Nat)
  /-- R256. Streaming matrix operation over a ring of scratch stages. -/
  | mmas (f : XT)
  /-- R257. A stage's full-barrier phase is reached and the engine consumes it, arriving on the empty barrier. -/
  | mmasStage (op : Nat)
  /-- R254. The matrix engine completes an operation. -/
  | matrixOpComplete (core : Nat)
  /-- R258. Closes the open batch and returns its number. -/
  | mbatch (f : XT)
  /-- R259. Parks until a batch and earlier ones complete, then posts their flags. -/
  | mwait (f : XT)
  /-- R263. Moves accumulator elements to lanes. -/
  | accld (f : XT)
  /-- R263. Moves lane values into an accumulator block. -/
  | accst (f : XT)
  /-- R264. Converts and packs accumulator words into lanes. -/
  | acccvt (f : XT)
  /-- R265. Zeroes selected accumulator blocks and clears their poison. -/
  | acczero (f : XT)
  /-- R275. Binds a tree slot to a descriptor. -/
  | vtset (f : XT)
  /-- R279. Looks up a voxel value in a tree. -/
  | vlook (f : XT)
  /-- R280. Gathers a 7, 19 or 27 point stencil from a tree. -/
  | vstencil (f : XT)
  /-- R281. Samples a tree trilinearly at a position. -/
  | vsampTri (f : XT)
  /-- R281. Samples a tree at the nearest voxel. -/
  | vsampNear (f : XT)
  /-- R282. Marches a ray to the first active voxel. -/
  | vmarch (f : XT)
  /-- R284. Inserts the leaf of each lane's voxel through the allocator engine. -/
  | vins (f : XT)
  /-- R284. The allocator finishes a lane's insertion and fills its index and status. -/
  | allocatorInsertDone (op : Nat)
  /-- R286. Sets voxel activity and the ACTMASK path. -/
  | vactSet (f : XT)
  /-- R286. Clears voxel activity. -/
  | vactClr (f : XT)
  /-- R286. Clears ACTMASK bits whose child masks are empty. -/
  | vactTrim (f : XT)
  /-- R289. Starts or resumes a pair-walker traversal of two hierarchies. -/
  | dtrav (f : XT)
  /-- R290. The pair walker emits a record for an overlapping leaf pair. -/
  | pairWalkerEmit (die pops : Nat)
  /-- R291. A traversal completes, is refused and saves its stack, or ends on a fault, filling its status. -/
  | pairWalkerEnd (die pops : Nat)
  /-- R294. Copies a leaf to a replica tree and posts to a step frame. -/
  | halo (f : XT)
  /-- R294. Writes back and posts to a step frame only. -/
  | haloPostOnly (f : XT)
  /-- R294. The halo engine finishes its copy and posts to the step frame. -/
  | haloPost (op : Nat)
  /-- R295. Waits until a step frame's STEP differs from t. -/
  | stepb (f : XT)
  /-- R105. A long-latency producer writes its destination and fills it. -/
  | producerFill (op : Nat) (lanes : LaneMask)
  /-- R316. A producer not landed 2^24 cycles after issue is abandoned with WATCHDOG. -/
  | producerWatchdog (op : Nat)
  /-- R48. A cluster-window access is checked and accepted or refused at the target port. -/
  | clusterWindowArrive (op : Nat)
  /-- R224. A plain write or write-back is performed at its point of order. -/
  | memoryWritePerform (index : Nat)
  /-- R236. An L1 writes back a dirty line outside an edge. -/
  | l1EvictWriteback (core line : Nat)
  /-- R70. A fill arrives at an L2 slice, choosing room and serving merged requesters. -/
  | l2Fill (line handle : Nat) (set : List Nat) (full : Bool)
  /-- R26. An exited task's engines, implicit await and write-back are done and it lowers its frame's PENDING. -/
  | taskReport (ctx task : Nat)
  /-- R34. A released continuation resumes in its context, at home or stolen. -/
  | continuationResume (ctx core slot : Nat)
  /-- R301. A split of an ending graph takes CANCELLED at its next issue. -/
  | cancelled (ctx split : Nat)
  /-- R233. The device writes a graph's completion record once all its work is done and performed. -/
  | graphCompletionRecord (graph : Nat)
  /-- R320. A host doorbell write fires an arm with the window's arguments. -/
  | hostDoorbell (die arm bytes : Nat) (value : DWord)
  /-- R321. A tagged message from a device link writes its payload and fires an arm, or is refused. -/
  | linkMessage (port : Nat) (tag : Word) (header : List Word) (payload : List Byte)
  /-- R324. A record enters its node's bin, launching a team when the count is reached. -/
  | binRecordArrive (index : Nat)
  /-- R324. A bin timer expires at an examination and launches a partial team. -/
  | binTimerExpiry (die node graph : Nat)
  /-- R328. A reorder key's timer expires and it launches. -/
  | reorderTimerExpiry (die node key : Nat)
  /-- R327. A record reaching a leaf-sweep node starts the activity scanner. -/
  | scanRequest (index : Nat)
  /-- R327. The scanner reaches an active leaf and launches its team, or ends the scan. -/
  | scanLeaf (scan : Nat)
  /-- R329. The placement queue places a team on a core or pair. -/
  | teamPlace (die offset : Nat)
  /-- R329. The placement head has waited 2^16 cycles and blocks equal or lower priority bypass. -/
  | placementHeadAged (die : Nat)
  /-- R331. A split ready but unchosen for 32 opportunities becomes urgent. -/
  | splitUrgent (ctx split : Nat)
  /-- R309. A higher-priority shadow context is ready and the core decides a bank swap. -/
  | bankSwap (core : Nat)
  /-- R309. No active context ready for 256 cycles while a shadow one is ready: swap decided. -/
  | bankSwapIdleTimeout (core : Nat)
  /-- R309. At cycle 48 the incoming bank issues and stopped engines may resume. -/
  | bankSwapComplete (core : Nat)
  /-- R42. A context out for 2^16 cycles while equal-priority contexts spin evicts the youngest spinner. -/
  | spinEviction (core : Nat)
  /-- R311. The lodging engine begins moving a context out of its slot. -/
  | lodgeStart (ctx : Nat)
  /-- R311. After 2^20 cycles lodging abandons remaining producers and marks the context for restart. -/
  | lodgeProducerTimeout (ctx : Nat)
  /-- R311. A context image has been transferred and its slot freed. -/
  | lodgeTransferDone (ctx : Nat)
  /-- R311. Every 256 cycles a core advertises its free lodging places to its neighbours. -/
  | lodgingAdvertise (core : Nat)
  /-- R312. A lodged context returns to a free slot and restarts if marked. -/
  | contextReturn (ctx slot : Nat)
  /-- R314. A team's scratch, tiles and blocks are evicted to the lodging pool after its copies land. -/
  | teamEvict (team : Nat)
  /-- R314. After 2^22 cycles eviction ends the copies still in flight with WATCHDOG. -/
  | teamEvictTimeout (team : Nat)
  /-- R314. An evicted team returns to its core at the same scratch offset. -/
  | teamReturn (team : Nat)
  /-- R343. A host read or write of device memory through BAR 4, served at home slices. -/
  | hostBarAccess (address length : Nat) (write : Option (List Byte))
  /-- R344. A host write to INVQTAIL submits new invalidation-queue entries. -/
  | invqtailWrite (value : Word)
  /-- R344. An invalidation-queue entry completes on every core and INVQDONE increments. -/
  | invqEntryDone
  /-- R344. A host CANCEL write cancels every graph of the named arm. -/
  | cancelWrite (value : Word)
  /-- R349. A write to SRBASE stops a send ring with 0 or starts it at slot 0. -/
  | srbaseWrite (port : Nat) (value : DWord)
  /-- R344. A host write to a register with no behaviour of its own stores its value. -/
  | hostRegisterWrite (bar offset bytes : Nat) (value : DWord)
  /-- R347. A function-level reset, hot reset or surprise link down cancels every graph and resets the host registers. -/
  | hostLinkReset
  /-- R347. The host link trains and the device accepts doorbells again. -/
  | hostLinkTrained
  /-- R349. A port reads a ready send-ring slot and sends its message. -/
  | sendRingSlot (port : Nat)
  /-- R349. A port re-reads its current send-ring slot every 2,048 cycles. -/
  | sendRingPoll (port : Nat)
  /-- R348. A peer acknowledges or refuses a message and the slot's STATUS is written. -/
  | linkMessageAck (port : Nat) (accepted : Bool)
  /-- R348. A peer silent for 2^24 cycles takes the port down and fails its unacknowledged messages. -/
  | portDown (port : Nat)
  /-- R348. Every 2^24 cycles a down port retrains and sends a restart frame. -/
  | portRestartAttempt (port : Nat)
  /-- R348. The peer answers the restart and the port continues at its slot. -/
  | portUp (port : Nat)
  /-- R340. A Hinge packet arrives, duplicates being discarded and recorded responses resent. -/
  | hingePacketReceive (source target sequence : Nat) (response : DWord)
  /-- R341. A die boundary fails and its traffic is purged and detoured. -/
  | hingeBoundaryFail (boundary : Nat)
  /-- R342. A failing Hinge lane is replaced by its spare or its bundle is switched off. -/
  | hingeLaneFail (boundary direction bundle : Nat)
  /-- R342. Every 2^30 cycles a bundle is recalibrated with its traffic moved to the others. -/
  | hingeRecalibrate (boundary bundle : Nat)
  /-- R350. The patrol scrub reads a line, correcting or poisoning sectors. -/
  | patrolScrub (sector : Nat) (symbols : Nat)
  /-- R351. Firmware starts copying a failing HBM channel to the spare. -/
  | channelRetire (stack channel : Nat)
  /-- R351. The channel copy ends and the logical channel maps to the spare. -/
  | channelCopyDone (stack channel : Nat)
  /-- R352. A core with no ready context for 64 cycles enters C1. -/
  | coreClockGate (core : Nat)
  /-- R352. A core idle for 2^16 cycles begins power gating to C2. -/
  | corePowerGate (core : Nat)
  /-- R353. Gating completes after 200 cycles and held wakes are served. -/
  | gatingEnd (core : Nat)
  /-- R352. A die whose cores are all in C2 and engines idle enters D1. -/
  | dieEnterD1 (die : Nat)
  /-- R352. An event needing a core wakes it, and its die from D1. -/
  | coreWake (core : Nat)
  /-- R354. Firmware sets the arithmetic clock in a 50 MHz step. -/
  | clockStepChange (mhz : Nat)
  /-- R355. Bring-up runs its ordered steps from firmware verification to link training. -/
  | packageReset (variant : Variant) (cxl : Bool) (ilshare : BitVec 7)
  /-- R357. An image is written to the inactive bank and verified. -/
  | firmwareUpdate (version : Nat) (digest : BitVec 256) (signed : Bool)
  /-- R357. A unit switches to the new image at a point with no firmware task in progress. -/
  | firmwareBankSwitch (unit : Nat)
  /-- R356. An SPDM request is answered with signed measurements. -/
  | attestation
  /-- R356. The management controller returns telemetry or error logs. -/
  | managementTelemetry
  /-- R358. A core is retired: its contexts lodged, teams evicted, and a spare takes its place. -/
  | coreRetire (core spare : Nat)
  /-- R358. A core fails without warning, ending its graphs with WATCHDOG. -/
  | coreFailure (core : Nat)
  /-- R118. An instruction word whose pattern encodes no instruction (MAJOR 0x00, 0x23 to 0x37 or 0x3F, an unassigned SUBOP or SHOP, or a LEN not allowed) issues and takes ILLEGAL precisely. -/
  | illegalEncoding
  /-- R93. The fetch at the program counter fails on translation, EXEC permission or canonicity, and the split takes the fetch trap before any decode. -/
  | fetchTrap
  /-- R197. Every die has applied a residency-handle change, and the split waiting at rhnew, rhset or rhdrop continues. -/
  | handleChangeApplied (op : Nat)
  /-- R339. A Hinge flit that fails its CRC is sent again from the replay buffer, and the 16th failure of one flit fails the boundary. -/
  | flitReplay (boundary direction flit : Nat)
  /-- R348. The device-link transport retransmits an unacknowledged message from its window of 256 frames per peer. -/
  | transportRetransmit (port : Nat)
  /-- R345. System software writes AtomicOp Requester Enable in the function's Device Control 2 register, which decides whether host-window atomics use PCIe AtomicOps or take HOST_ATOMIC. -/
  | atomicopRequesterEnable (enable : Bool)
deriving DecidableEq, Repr

end Sys2Proof
end

