-- ==== Sys2Proof/Machine/Forms.lean ====
section
/-! DEFINITION. The form of every encoded instruction: which file each register field names, how it is used,
which types, guard, rounding and literal the instruction admits, and what its word 2 may hold (R97 to R117,
R126 to R128, R159, R171, R197 to R203, R209 to R211, R242, R278). One table serves the encoding checks
(WellFormed), the registers' existence, and the wait on empty registers. -/

namespace Sys2Proof

/-! ## Types -/

/-- The element width of a type in bits (R99). -/
def Ty.width : Ty → Nat
  | .b64 | .s64 | .n64 | .f64 => 64
  | .b32 | .s32 | .n32 | .f32 => 32
  | .f16 | .bf16 | .s16 | .n16 => 16
  | .e4m3 | .e5m2 | .s8 | .n8 => 8

/-- A 64-bit type names pairs (R101). -/
def Ty.wide (t : Ty) : Bool := t.width == 64

/-- The signed integer types (R73). -/
def Ty.signed : Ty → Bool
  | .s32 | .s64 | .s8 | .s16 => true
  | _ => false

/-- The unsigned integer types, the b types not among them (R73). -/
def Ty.unsigned : Ty → Bool
  | .n32 | .n64 | .n8 | .n16 => true
  | _ => false

/-- The floating-point types (R71). -/
def Ty.float : Ty → Bool
  | .f32 | .f64 | .f16 | .bf16 | .e4m3 | .e5m2 => true
  | _ => false

/-- Set B (R108). -/
def Ty.inB (t : Ty) : Bool := t == .b32
/-- Set W (R108). -/
def Ty.inW (t : Ty) : Bool := t == .b32 || t == .b64
/-- Set IS (R108). -/
def Ty.inIS (t : Ty) : Bool := t == .s32 || t == .n32 || t == .s64 || t == .n64
/-- Set I (R108). -/
def Ty.inI (t : Ty) : Bool := t.inW || t.inIS
/-- Set FD (R108). -/
def Ty.inFD (t : Ty) : Bool := t == .f32 || t == .f64
/-- Set FH (R108). -/
def Ty.inFH (t : Ty) : Bool := t == .f32 || t == .f16 || t == .bf16
/-- Set F (R108). -/
def Ty.inF (t : Ty) : Bool := t.inFD || t.inFH
/-- Set IF (R108). -/
def Ty.inIF (t : Ty) : Bool := t.inI || t.inF

/-- How many 32-bit registers a value of the type takes (R101). -/
def Ty.regs (t : Ty) : Nat := if t.wide then 2 else 1

/-! ## Fields of an immediate -/

/-- Bits [hi:lo] of an immediate, as a number. -/
def bitsOf {w : Nat} (x : BitVec w) (hi lo : Nat) : Nat := (x.toNat >>> lo) % 2 ^ (hi + 1 - lo)

/-- Bit n of an immediate. -/
def bitOf {w : Nat} (x : BitVec w) (n : Nat) : Bool := x.getLsbD n

/-! ## Register fields -/

/-- What a register field of an instruction names (R101). -/
inductive Use where
  /-- not used: the field must be 0 (R118) -/
  | zero
  /-- `n` consecutive `v` registers, the first a multiple of `align` -/
  | v (n align : Nat)
  /-- `n` consecutive `s` registers, the first a multiple of `align` -/
  | s (n align : Nat)
  /-- a lane predicate read -/
  | p
  /-- a lane predicate written, 1 to 7 -/
  | pDst
  /-- a scalar predicate read -/
  | k
  /-- a scalar predicate written, 1 to 7 -/
  | kDst
  /-- a translation register -/
  | x
  /-- a tile -/
  | t
  /-- an accumulator block -/
  | acc
  /-- a plain number below the bound -/
  | num (bound : Nat)
deriving DecidableEq, Repr

/-- How the instruction treats the registers of a field (R105, R106). -/
inductive Mode where
  /-- read, with an `EMPTYTRAP` bit -/
  | read
  /-- read in every lane of the split's `MASK`, with an `EMPTYTRAP` bit (R172, R245) -/
  | readAll
  /-- read; always waits: memory-operand registers and registers read through `DST` (R106) -/
  | readWait
  /-- written: waits while empty (R105) -/
  | write
  /-- read through `DST` and written -/
  | readWrite
  /-- neither -/
  | none
deriving DecidableEq, Repr

/-- One register field: its number, what it names and how it is used. -/
structure Field where
  num : Nat
  use : Use
  mode : Mode
deriving DecidableEq, Repr

/-- Which guard the opcode maps mark (R97). -/
inductive GuardRule where
  | p | k | none
deriving DecidableEq, Repr

/-- The form of an instruction. -/
structure Form where
  /-- words 0 and 1 -/
  hdr : Hdr
  /-- `KIND` of word 2, for the classes that hold it (R103) -/
  kind : BitVec 3
  dst : Field
  src1 : Field
  src2 : Field
  src3 : Field
  /-- the `TYPE` code is in the instruction's set (R99) -/
  types : Bool
  guard : GuardRule
  /-- the instruction reads `RND` (R100) -/
  rounds : Bool
  /-- which source a literal replaces, if there is a literal form: 1, 2 or 3 (R98) -/
  litSlot : Option Nat
  /-- the operand width of the literal (R98) -/
  litWidth : Nat
  /-- word 2 holds only what the instruction defines (R103, R118) -/
  word2 : Bool
deriving DecidableEq, Repr

/-- A field that is not used. -/
def Field.unused (n : BitVec 8) : Field := ⟨n.toNat, .zero, .none⟩

/-- A `v` value of a type: one register, or an even pair. -/
def Use.vOf (t : Ty) : Use := .v t.regs t.regs
/-- An `s` value of a type. -/
def Use.sOf (t : Ty) : Use := .s t.regs t.regs
/-- One `v` register. -/
def Use.v1 : Use := .v 1 1
/-- One `s` register. -/
def Use.s1 : Use := .s 1 1
/-- A `q` pair. -/
def Use.q : Use := .s 2 2
/-- A `d` pair. -/
def Use.d : Use := .v 2 2
/-- A register of the file that a kind bit chooses (R103): n registers, aligned to n. -/
def Use.kind (scalar : Bool) (n : Nat) : Use := if scalar then .s n n else .v n n

/-- The parts of a form that the helpers below leave to the defaults: no registers, type set B, a k guard. -/
def Form.base (h : Hdr) : Form :=
  { hdr := h, kind := 0, dst := .unused h.dst, src1 := .unused h.src1, src2 := .unused h.src2, src3 := .unused h.src3
    types := h.ty.inB, guard := .k, rounds := false, litSlot := none, litWidth := 32, word2 := true }

/-- The form with these uses of the destination field. -/
def Form.withDst (f : Form) (u : Use) (m : Mode := .write) : Form := { f with dst := { f.dst with use := u, mode := m } }
/-- The form with this use of `SRC1`. -/
def Form.withSrc1 (f : Form) (u : Use) (m : Mode := .read) : Form := { f with src1 := { f.src1 with use := u, mode := m } }
/-- The form with this use of `SRC2`. -/
def Form.withSrc2 (f : Form) (u : Use) (m : Mode := .read) : Form := { f with src2 := { f.src2 with use := u, mode := m } }
/-- The form with this use of `SRC3`. -/
def Form.withSrc3 (f : Form) (u : Use) (m : Mode := .read) : Form := { f with src3 := { f.src3 with use := u, mode := m } }
/-- The form with a literal in source `n`, of width `w`. -/
def Form.withLit (f : Form) (n w : Nat) : Form := { f with litSlot := some n, litWidth := w }

/-! ## The named parts of immediates -/

/-- `sbfx`, `sbfi`: the field's position, `IMM[6:0]` (R126). -/
def XC.pos (f : XC) : Nat := bitsOf f.imm 6 0
/-- `sbfx`, `sbfi`: the field's length, `IMM[14:8]` (R126). -/
def XC.len (f : XC) : Nat := bitsOf f.imm 14 8
/-- `AK`: the argument block is in `v` (R127). -/
def XC.ak (f : XC) : Bool := bitOf f.imm 31
/-- `HK`: the handle or key is in `v` (R127). -/
def XC.hk (f : XC) : Bool := bitOf f.imm 30
/-- `DIE` (R127). -/
def XC.die (f : XC) : Nat := bitsOf f.imm 21 19
/-- `PRIO` (R127). -/
def XC.prio (f : XC) : Nat := bitsOf f.imm 18 16
/-- `NODE` or the arm index (R127). -/
def XC.node (f : XC) : Nat := bitsOf f.imm 15 0
/-- `K` of the frame instructions (R128). -/
def XC.frameK (f : XC) : Bool := bitOf f.imm 31

/-- `cpa`: `DIR`, `IMM[28:26]` (R200). -/
def XA.dir (f : XA) : Nat := bitsOf f.imm 28 26
/-- `gath.row`: row units (R210). -/
def XA.rowUnits (f : XA) : Nat := bitsOf f.imm 15 0

/-- `mma`: `GANG` (R253). -/
def XT.gang (f : XT) : Bool := bitOf f.imm 28
/-- `mma`, `mmas`: `ZERO` (R253). -/
def XT.zero (f : XT) : Bool := bitOf f.imm 27
/-- `mma`: `AOFF` (R253). -/
def XT.aoff (f : XT) : Nat := bitsOf f.imm 26 19
/-- `mma`: `BOFF` (R253). -/
def XT.boff (f : XT) : Nat := bitsOf f.imm 18 12
/-- `mma`: K, one above `KM1` (R253). -/
def XT.k (f : XT) : Nat := bitsOf f.imm 11 4 + 1
/-- `mmas`: S, the ring's slots (R256). -/
def XT.stages (f : XT) : Nat := bitsOf f.imm 26 23 + 1
/-- `mmas`: `FA` (R256). -/
def XT.fa (f : XT) : Nat := bitsOf f.imm 22 19
/-- `mmas`: `FB` (R256). -/
def XT.fb (f : XT) : Nat := bitsOf f.imm 18 15
/-- `accld`, `accst`: `W64` (R242). -/
def XT.w64 (f : XT) : Bool := bitOf f.imm 13
/-- The accumulator block of `accld`, `accst` and `acccvt` (R242). -/
def XT.block (f : XT) : Nat := bitsOf f.imm 12 8
/-- `acccvt`: `INT` (R242). -/
def XT.int (f : XT) : Bool := bitOf f.imm 19
/-- `acccvt`: `SAT` (R242). -/
def XT.sat (f : XT) : Bool := bitOf f.imm 18
/-- `acccvt`: the format (R242). -/
def XT.fmt (f : XT) : Nat := bitsOf f.imm 17 14
/-- The tree slot (R278). -/
def XT.slot (f : XT) : Nat := bitsOf f.imm 2 0
/-- `APRED` (R278). -/
def XT.apred (f : XT) : Nat := bitsOf f.imm 6 4
/-- `PAT`, `MODE` or the mode of `vact`, `IMM[9:8]` (R278). -/
def XT.sub (f : XT) : Nat := bitsOf f.imm 9 8
/-- `dtrav`: `NODE` (R278). -/
def XT.node (f : XT) : Nat := bitsOf f.imm 15 0
/-- `dtrav`: `PRIO` (R278). -/
def XT.prio (f : XT) : Nat := bitsOf f.imm 18 16
/-- `dtrav`: `SELF` (R278). -/
def XT.self (f : XT) : Bool := bitOf f.imm 19
/-- `dtrav`: `RES` (R278). -/
def XT.res (f : XT) : Bool := bitOf f.imm 20

/-! ## Class XC (R109, R126) -/

/-- A scalar instruction of two sources (R130). -/
def formS2 (f : XC) (types : Bool) : Form :=
  { ((((Form.base f.h).withDst (.sOf f.h.ty)).withSrc1 (.sOf f.h.ty)).withSrc2 (.sOf f.h.ty)).withLit 2 f.h.ty.width with
    types := types, word2 := f.imm == 0 }

/-- A scalar instruction of three sources, `smad`. -/
def formS3 (f : XC) : Form :=
  { ((formS2 f f.h.ty.inI).withSrc3 (.sOf f.h.ty)).withLit 3 f.h.ty.width with types := f.h.ty.inI }

/-- A scalar instruction of one source. -/
def formS1 (f : XC) : Form :=
  { (((Form.base f.h).withDst (.sOf f.h.ty)).withSrc1 (.sOf f.h.ty)).withLit 1 f.h.ty.width with
    types := f.h.ty.inW, word2 := f.imm == 0 }

/-- `sbfx` and `sbfi`: a len of 0, a pos + len above w or a reserved bit is `ILLEGAL` (R131). -/
def formSField (f : XC) (types : Bool) (dst : Mode) : Form :=
  { ((Form.base f.h).withDst (.sOf f.h.ty) dst).withSrc1 (.sOf f.h.ty) with
    types := types
    word2 := bitsOf f.imm 31 15 == 0 && !bitOf f.imm 7 && decide (0 < f.len) && decide (f.pos + f.len ≤ f.h.ty.width) }

/-- `scmp` (R132): codes 0 to 5, of which b types allow 0 and 1. -/
def formScmp (f : XC) : Form :=
  { (formS2 f f.h.ty.inI).withDst .kDst with
    word2 := bitsOf f.imm 31 4 == 0 && decide (bitsOf f.imm 3 0 < if f.h.ty.inW then 2 else 6) }

/-- `ssel` (R132). -/
def formSsel (f : XC) : Form := { formS2 f f.h.ty.inW with word2 := bitsOf f.imm 31 3 == 0 }

/-- `sli` (R130): the immediate is the value. -/
def formSli (f : XC) : Form := { (Form.base f.h).withDst (.sOf f.h.ty) with types := f.h.ty.inW }

/-- `kop` (R133). -/
def formKop (f : XC) : Form :=
  { ((((Form.base f.h).withDst .kDst).withSrc1 .k .none).withSrc2 .k .none) with word2 := bitsOf f.imm 31 4 == 0 }

/-- An instruction with no register field and the whole immediate as its own. -/
def formBare (f : XC) (guard : GuardRule) (word2 : Bool) : Form := { Form.base f.h with guard := guard, word2 := word2 }

/-- `brk` (R126): `SRC2` is the sense, 0 or 1. -/
def formBrk (f : XC) : Form := ((Form.base f.h).withSrc1 .s1).withSrc2 (.num 2) .none

/-- The special registers of 64 bits (R139). -/
def wideSpecial (n : Nat) : Bool := n == 0x0E || (0x18 ≤ n && n ≤ 0x1F)

/-- The numbers that name a special register (R102). -/
def isSpecial (n : Nat) : Bool := n ≤ 0x11 || (0x18 ≤ n && n ≤ 0x1F)

/-- The special registers that `wrsr` may write (R139). -/
def writableSpecial (n : Nat) : Bool := n == 0x09 || n == 0x0A || n == 0x11 || (0x18 ≤ n && n ≤ 0x1F)

/-- `rdsr` (R139): `SRC2` 0 reads into `s`, 1 into `v`; `%lane` only into `v`. -/
def formRdsr (f : XC) : Form :=
  let n := f.imm.toNat
  let c := if wideSpecial n then 2 else 1
  { ((Form.base f.h).withDst (.kind (f.h.src2 == 0) c)).withSrc2 (.num 2) .none with
    word2 := isSpecial n && !(n == 0 && f.h.src2 == 0) }

/-- `wrsr` (R139): a register marked RO takes `ILLEGAL`. -/
def formWrsr (f : XC) : Form :=
  let n := f.imm.toNat
  let c := if wideSpecial n then 2 else 1
  { ((Form.base f.h).withSrc1 (.s c c)).withLit 1 (32 * c) with word2 := writableSpecial n }

/-- The file `K` chooses for handles and status (R128). -/
def XC.frameUse (f : XC) : Use := if f.frameK then .v1 else .s1

/-- `fnew` and `fnew.p` (R128). -/
def formFnew (f : XC) (promise : Bool) : Form :=
  { (Form.base f.h).withDst f.frameUse with word2 := bitsOf f.imm 30 1 == 0 && bitOf f.imm 0 == promise }

/-- `fdone` (R128). -/
def formFdone (f : XC) : Form := { (Form.base f.h).withSrc1 f.frameUse with word2 := bitsOf f.imm 30 0 == 0 }

/-- `fawait` and `fpoll` (R128). -/
def formFawait (f : XC) : Form :=
  { ((Form.base f.h).withDst f.frameUse).withSrc1 f.frameUse with word2 := bitsOf f.imm 30 0 == 0 }

/-- The argument block of a record instruction: eight registers (R125). -/
def XC.argUse (f : XC) : Use := if f.ak then .v 8 1 else .s 8 1
/-- The handle or key register (R127). -/
def XC.keyUse (f : XC) : Use := if f.hk then .v1 else .s1
/-- The die register stands in `DST` when `DIE` = 010 (R127). -/
def XC.dieField (f : XC) : Field :=
  if f.die = 2 then ⟨f.h.dst.toNat, if f.ak then .v1 else .s1, .readWait⟩ else .unused f.h.dst

/-- A record instruction (R127): `key` names a handle or key, `home` allows `DIE` = 001, `anyDie` any die. -/
def formRecord (f : XC) (key home anyDie prio : Bool) : Form :=
  let b := { Form.base f.h with dst := f.dieField, guard := GuardRule.p }
  let b := if key then b.withSrc1 f.keyUse else b
  { b.withSrc2 f.argUse with
    word2 := bitsOf f.imm 29 22 == 0 && (key || !f.hk) && f.die != 3 && (home || f.die != 1)
      && (anyDie || f.die == 0) && (prio || f.prio == 0) }

/-- `pqpop` (R127, R154): ten registers from an even one. -/
def formPqpop (f : XC) : Form :=
  { (Form.base f.h).withDst (if f.ak then .v 10 2 else .s 10 2) with
    guard := .p, word2 := bitsOf f.imm 30 0 == 0 }

/-! ## Class XV (R110, R159) -/

/-- Whether the kind bit of source `n` (1, 2, 3) is set. -/
def kindBit (kind : BitVec 3) (n : Nat) : Bool := kind.getLsbD (3 - n)

/-- The parts common to XV forms: a p guard and a `v` destination. `used` counts the sources whose kind bit is
read, `floats` those on which `NEG` and `ABS` are allowed, as bit masks in the order of the fields. -/
def formXV (f : XV) (types sat : Bool) (used floats : BitVec 3) (cond from_ : Bool) : Form :=
  { (Form.base f.h).withDst (.vOf f.h.ty) with
    kind := f.kind
    guard := .p
    types := types
    word2 := (f.kind &&& ~~~used) == 0 && (sat || !f.sat) && (f.neg &&& ~~~floats) == 0
      && (f.abs &&& ~~~floats) == 0 && (cond || f.cond == 0) && (from_ || f.src == .b32) }

/-- The source masks: `SRC1` alone, the first two, all three. -/
def srcs1 : BitVec 3 := 0b100#3
/-- `SRC1` and `SRC2`. -/
def srcs2 : BitVec 3 := 0b110#3
/-- All three sources. -/
def srcs3 : BitVec 3 := 0b111#3

/-- One source of the instruction's type. -/
def formV1 (f : XV) (types : Bool) (floats : BitVec 3) (rounds : Bool) : Form :=
  { ((formXV f types false srcs1 floats false false).withSrc1 (.kind (kindBit f.kind 1) f.h.ty.regs)).withLit 1 f.h.ty.width with
    rounds := rounds }

/-- Two sources of the instruction's type. -/
def formV2 (f : XV) (types sat : Bool) (floats : BitVec 3) (rounds : Bool) : Form :=
  { (((formXV f types sat srcs2 floats false false).withSrc1 (.kind (kindBit f.kind 1) f.h.ty.regs)).withSrc2
      (.kind (kindBit f.kind 2) f.h.ty.regs)).withLit 2 f.h.ty.width with rounds := rounds }

/-- Three sources of the instruction's type. -/
def formV3 (f : XV) (types sat : Bool) (floats : BitVec 3) (rounds : Bool) : Form :=
  { ((((formXV f types sat srcs3 floats false false).withSrc1 (.kind (kindBit f.kind 1) f.h.ty.regs)).withSrc2
      (.kind (kindBit f.kind 2) f.h.ty.regs)).withSrc3 (.kind (kindBit f.kind 3) f.h.ty.regs)).withLit 3 f.h.ty.width with
    rounds := rounds }

/-- `SAT` is allowed with s and n types (R159). -/
def satAllowed (t : Ty) : Bool := t.signed || t.unsigned

/-- `bfx` and `bfi`: pos and len are single 32-bit registers (R158). -/
def formVField (f : XV) (types : Bool) (dst : Mode) : Form :=
  (((((formXV f types false srcs3 0 false false).withDst (.vOf f.h.ty) dst).withSrc1
    (.kind (kindBit f.kind 1) f.h.ty.regs)).withSrc2 (.kind (kindBit f.kind 2) 1)).withSrc3
    (.kind (kindBit f.kind 3) 1)).withLit 3 32

/-- `cmp` and `fcmp` (R103, R162, R165). -/
def formVCmp (f : XV) (types : Bool) (floats : BitVec 3) (codes : Nat) : Form :=
  let b := (((formXV f types false srcs2 floats true false).withDst .pDst).withSrc1
    (.kind (kindBit f.kind 1) f.h.ty.regs)).withSrc2 (.kind (kindBit f.kind 2) f.h.ty.regs)
  { b.withLit 2 f.h.ty.width with word2 := b.word2 && decide (f.cond.toNat < codes) }

/-- `sel`: `SRC3` names a lane predicate; no literal form (R159). -/
def formSel (f : XV) : Form :=
  (((formXV f f.h.ty.inW false srcs2 0 false false).withSrc1 (.kind (kindBit f.kind 1) f.h.ty.regs)).withSrc2
    (.kind (kindBit f.kind 2) f.h.ty.regs)).withSrc3 .p .none

/-- `fscal`: n is one 32-bit register (R158); `NEG` and `ABS` on `SRC1` only. -/
def formFscal (f : XV) : Form :=
  { (((formXV f f.h.ty.inF false srcs2 srcs1 false false).withSrc1 (.kind (kindBit f.kind 1) f.h.ty.regs)).withSrc2
      (.kind (kindBit f.kind 2) 1)).withLit 2 32 with rounds := true }

/-- `cvt`: the source has the width of `FROM` (R158). -/
def formCvt (f : XV) : Form :=
  { ((formXV f true true srcs1 0 false true).withSrc1 (.kind (kindBit f.kind 1) f.src.regs)).withLit 1 f.src.width with
    rounds := true }

/-- `pack`: `TYPE` of 8 or 16 bits, `FROM` of 32 or 64 (R169). -/
def formPack (f : XV) : Form :=
  { ((((formXV f (decide (f.h.ty.width ≤ 16) && decide (32 ≤ f.src.width)) true srcs2 0 false true).withDst .v1
      (if f.h.ty.width = 8 then .readWrite else .write)).withSrc1 (.kind (kindBit f.kind 1) f.src.regs)).withSrc2
      (.kind (kindBit f.kind 2) f.src.regs)).withLit 2 f.src.width with rounds := true }

/-- `unpack`: `FROM` of 8 or 16 bits, `TYPE` of 32 or 64, both integer or both floating (R170). -/
def formUnpack (f : XV) : Form :=
  ((((formXV f (decide (32 ≤ f.h.ty.width) && decide (f.src.width ≤ 16) && f.h.ty.float == f.src.float) false srcs2 0 false
    true).withSrc1 (.kind (kindBit f.kind 1) 1)).withSrc2 (.kind (kindBit f.kind 2) 1))).withLit 2 32

/-! ## Class XL (R111, R171) -/

/-- `shfl`: the data is `v`, b a `v`, an `s` or a literal. -/
def formShfl (f : XL) (mode : Nat) : Form :=
  { ((((Form.base f.h).withDst (.vOf f.h.ty)).withSrc1 (.vOf f.h.ty) .readAll).withSrc2
      (.kind (kindBit f.kind 2) 1)).withLit 2 32 with
    kind := f.kind, guard := .p, types := f.h.ty.inW, word2 := (f.kind &&& 0b101#3) == 0 && f.mode.toNat == mode && f.imm == 0 }

/-- `vote`. -/
def formVote (f : XL) (mode : Nat) : Form :=
  { ((Form.base f.h).withDst (if mode = 0 then .q else .kDst)).withSrc1 .p .none with
    guard := .p, word2 := f.kind == 0 && f.mode.toNat == mode && f.imm == 0 }

/-- `match`: a `d` mask and, optionally, a leader predicate (R174). -/
def formMatch (f : XL) : Form :=
  { ((Form.base f.h).withDst .d).withSrc1 (.vOf f.h.ty) with
    guard := .p, types := f.h.ty.inW, word2 := f.kind == 0 && f.mode == 0 && bitsOf f.imm 24 3 == 0 }

/-- The pairs of operation and type that `redux` and `scan` accept (R171). -/
def reduxTypes (op : Nat) (t : Ty) : Bool :=
  if op = 0 then t.inI || t.inF else if op ≤ 2 then t.inIS || t.inF else decide (op ≤ 5) && t.inW

/-- `redux`: with `.bc` the result goes to every participating lane. -/
def formRedux (f : XL) : Form :=
  { ((Form.base f.h).withDst (.kind (!bitOf f.imm 0) f.h.ty.regs)).withSrc1 (.vOf f.h.ty) with
    guard := .p, types := reduxTypes f.mode.toNat f.h.ty, rounds := f.h.ty.float
    word2 := f.kind == 0 && bitsOf f.imm 24 1 == 0 }

/-- `scan`: `MODE[3]` is the exclusive form. -/
def formScan (f : XL) : Form :=
  { ((Form.base f.h).withDst (.vOf f.h.ty)).withSrc1 (.vOf f.h.ty) with
    guard := .p, types := reduxTypes (bitsOf f.mode 2 0) f.h.ty, rounds := f.h.ty.float
    word2 := f.kind == 0 && f.imm == 0 }

/-- `rngc` (R177): blocks of four; the scalar form needs both kind bits. -/
def formRngc (f : XL) : Form :=
  let scalar := bitOf f.mode 1
  { (((Form.base f.h).withDst (if scalar then .s 4 4 else .v 4 4)).withSrc1
      (if kindBit f.kind 1 then .s 4 4 else .v 4 4)).withSrc2 (.kind (kindBit f.kind 2) 2) with
    guard := .p
    word2 := bitsOf f.mode 3 2 == 0 && !kindBit f.kind 3 && f.imm == 0
      && (!scalar || (kindBit f.kind 1 && kindBit f.kind 2)) }

/-- The row of a vocabulary instruction (R178): 0 global, 1 `.ln`, 2 `.sc`. -/
def XL.row (f : XL) : Nat := f.mode.toNat

/-- The row register of a vocabulary instruction. -/
def XL.rowUse (f : XL) : Use := if f.row = 0 then .q else if f.row = 1 then .v1 else .s1

/-- A vocabulary instruction (R178): `dst` is its destination. -/
def formVocab (f : XL) (dst : Use) (imm : Bool) : Form :=
  { (((Form.base f.h).withDst dst).withSrc1 f.rowUse (if f.row = 1 then .readAll else .read)).withSrc2 .q with
    types := f.h.ty == .f32, word2 := f.kind == 0 && decide (f.row ≤ 2) && imm }

/-! ## Class XM (R104, R112) -/

/-- The checks of word 2's memory operand (R104): `scalar` forms take no `v` index, `handle` allows `RH`. -/
def XM.operandOk (f : XM) (scalar handle : Bool) : Bool :=
  let sp := f.space.toNat
  let sc := f.scale.toNat
  decide (sp ≤ 5) && (sp == 0 || f.xsel == 0) && decide (sc ≠ 5 ∧ sc ≠ 6)
    && (sc != 7 || (f.h.src1 == 0 && !f.scalarIndex))
    && (sp != 5 || (sc == 0 && !f.scalarIndex && !scalar))
    && (!scalar || f.scalarIndex || sc == 7) && (handle || !f.rh)

/-- The index field: absent with `SCALE` 111, a `d` address for `SPACE` 101. -/
def XM.indexField (f : XM) : Field :=
  let n := f.h.src1
  if f.space.toNat = 5 then ⟨n.toNat, .d, .readWait⟩
  else if f.scale.toNat = 7 then .unused n
  else ⟨n.toNat, if f.scalarIndex then .s1 else .v1, .readWait⟩

/-- The base field: a `q` for `SPACE` 001, an `s` for 011. -/
def XM.baseField (f : XM) : Field :=
  let n := f.h.src2
  if f.space.toNat = 1 then ⟨n.toNat, .q, .readWait⟩
  else if f.space.toNat = 3 then ⟨n.toNat, .s1, .readWait⟩
  else .unused n

/-- The residency-handle field (R104): a source of `SRC3`, so that `EMPTYTRAP` applies to it (R106, log entry 116). -/
def XM.handleField (f : XM) : Field := if f.rh then ⟨f.h.src3.toNat, .s1, .read⟩ else .unused f.h.src3

/-- An instruction with a memory operand. -/
def formMem (f : XM) (scalar handle : Bool) (guard : GuardRule) (types : Bool) : Form :=
  { Form.base f.h with
    src1 := f.indexField, src2 := f.baseField, src3 := f.handleField
    guard := guard, types := types, word2 := f.operandOk scalar handle && f.op == 0 }

/-- `ld` and `sld`. -/
def formLoad (f : XM) (scalar : Bool) : Form :=
  (formMem f scalar true (if scalar then .k else .p) true).withDst (.kind scalar f.h.ty.regs)

/-- `st` and `sst`: the data is read through `DST` (R106). -/
def formStore (f : XM) (scalar : Bool) : Form :=
  (formMem f scalar true (if scalar then .k else .p) true).withDst (.kind scalar f.h.ty.regs) .readWait

/-- An atomic that returns the old value (R191). -/
def formAtomic (f : XM) (types : Bool) (dst : Mode) (rounds : Bool) : Form :=
  { (((formMem f false false .p types).withDst (.vOf f.h.ty) dst).withSrc3 (.vOf f.h.ty)).withLit 3 f.h.ty.width with
    rounds := rounds }

/-- The `OP` codes of `red` and the types each accepts (R104). -/
def redTypes (op : Nat) (t : Ty) : Bool :=
  if op = 0 then t.inIF else if op ≤ 2 then t.inIS else decide (op ≤ 5) && t.inW

/-- `red` (R193). -/
def formRed (f : XM) : Form :=
  { ((formMem f false false .p (redTypes f.op.toNat f.h.ty)).withSrc3 (.vOf f.h.ty)).withLit 3 f.h.ty.width with
    rounds := f.h.ty.float, word2 := f.operandOk false false }

/-- `swait` (R195): b types allow only = and ≠. -/
def formSwait (f : XM) : Form :=
  { ((formMem f true false .k f.h.ty.inI).withSrc3 (.sOf f.h.ty)).withLit 3 f.h.ty.width with
    word2 := f.operandOk true false && decide (f.op.toNat < if f.h.ty.inW then 2 else 6) }

/-- `pf` (R196): global spaces only. -/
def formPf (f : XM) : Form :=
  let b := formMem f false true .p f.h.ty.inB
  { b with word2 := b.word2 && (f.space.toNat ≤ 1 || f.space.toNat == 5) }

/-- No word-2 field is used (R197). -/
def XM.word2Zero (f : XM) : Bool :=
  f.space == 0 && f.xsel == 0 && f.scale == 0 && !f.scalarIndex && f.op == 0 && !f.rh && f.disp == 0

/-- `rhnew`, `rhset` and `rhdrop` (R197). -/
def formRh (f : XM) (dst src2 : Bool) : Form :=
  let b := { (Form.base f.h).withSrc1 .s1 with word2 := f.word2Zero }
  let b := if dst then b.withDst .s1 else b
  if src2 then b.withSrc2 .s1 else b

/-- `cbinv` (R198): `SPACE` 001 with `SCALE` 111; `DST` is the kind. -/
def formCbinv (f : XM) (kind : Nat) : Form :=
  let b := formMem f true false .k f.h.ty.inB
  let b := b.withDst (.num 5) .none
  let b := if kind = 4 then b.withSrc3 .s1 else b
  { b with word2 := b.word2 && f.space.toNat == 1 && f.scale.toNat == 7 && f.h.dst.toNat == kind }

/-! ## Class XA (R113) -/

/-- `cpa` (R200): address registers by direction; `DST` holds an address and is read. -/
def formCpa (f : XA) (dir : Nat) (dst src : Use) : Form :=
  { ((((Form.base f.h).withDst dst .readWait).withSrc1 src).withSrc2 .s1).withSrc3 .s1 with
    word2 := f.kind == 0 && f.dir == dir && bitsOf f.imm 25 0 == 0 }

/-- `bar` (R205): every other bit is 0. -/
def formBar (f : XA) : Form := { Form.base f.h with guard := .none, word2 := f.kind == 0 && f.imm == 0 }

/-- The transaction-barrier instructions (R209). -/
def formTb (f : XA) (dst src2 : Bool) : Form :=
  let b := { (Form.base f.h).withSrc1 .s1 with word2 := f.kind == 0 && f.imm == 0 }
  let b := if dst then b.withDst .s1 else b
  if src2 then (b.withSrc2 .s1).withLit 2 32 else b

/-- `gath`, element form (R210). -/
def formGath (f : XA) : Form :=
  { (((Form.base f.h).withDst (.vOf f.h.ty)).withSrc1 .q).withSrc2 .v1 with
    guard := .p, types := f.h.ty.inW, word2 := f.kind == 0 && f.imm == 0 }

/-- `gath.row` (R210). -/
def formGathRow (f : XA) : Form :=
  { ((((Form.base f.h).withDst .s1 .readWait).withSrc1 .q).withSrc2 .v1).withSrc3 .s1 with
    guard := .p
    word2 := f.kind == 0 && bitOf f.imm 28 && bitsOf f.imm 27 16 == 0 && decide (1 ≤ f.rowUnits ∧ f.rowUnits ≤ 4096) }

/-- `scatadd` (R211). -/
def formScatadd (f : XA) : Form :=
  { (((Form.base f.h).withSrc1 .q).withSrc2 .v1).withSrc3 (.vOf f.h.ty) with
    guard := .p, types := f.h.ty.inIF, rounds := f.h.ty.float, word2 := f.kind == 0 && f.imm == 0 }

/-! ## Class XT (R114, R242, R278) -/

/-- The parts common to XT: `KIND` 0 and only the named immediate bits. -/
def formXT (f : XT) (guard : GuardRule) (imm : Bool) : Form :=
  { Form.base f.h with guard := guard, word2 := f.kind == 0 && imm }

/-- `tset`. -/
def formTset (f : XT) : Form := ((formXT f .k (f.imm == 0)).withDst .t).withSrc1 .s1
/-- `tget`. -/
def formTget (f : XT) : Form := ((formXT f .k (f.imm == 0)).withDst .s1).withSrc1 .t
/-- `tcb`: the empty check covers the first sixteen lanes (R245). -/
def formTcb (f : XT) : Form := ((formXT f .k (f.imm == 0)).withDst .t).withSrc1 .v1 .readAll
/-- `tld`. -/
def formTld (f : XT) : Form := (((formXT f .k (f.imm == 0)).withDst .v1).withSrc1 .t).withSrc2 .s1
/-- `tst`. -/
def formTst (f : XT) : Form := (((formXT f .k (f.imm == 0)).withDst .t).withSrc1 .s1).withSrc2 .v1
/-- `tzero`. -/
def formTzero (f : XT) : Form := (formXT f .k (f.imm == 0)).withDst .t
/-- `gang`, `mwait` and `acczero`: one `s` source. -/
def formSrcS (f : XT) : Form := (formXT f .k (f.imm == 0)).withSrc1 .s1
/-- `mma`, `mma.bs` and `mma.vs` (R253). -/
def formMma (f : XT) (sparse : Bool) : Form :=
  let b := (((formXT f .k (bitsOf f.imm 3 0 == 0)).withDst .acc .none).withSrc1 .t).withSrc2 .t
  if sparse then b.withSrc3 .t else b
/-- `mmas` (R256): cb4 and meta take `ILLEGAL`. -/
def formMmas (f : XT) : Form :=
  ((((formXT f .k (!f.gang && bitsOf f.imm 14 0 == 0 && f.fa != 8 && f.fa != 9 && f.fb != 8 && f.fb != 9)).withDst .acc
    .none).withSrc1 .s1).withSrc2 .s1).withSrc3 .s1
/-- `mbatch`. -/
def formMbatch (f : XT) : Form := (formXT f .k (f.imm == 0)).withDst .s1
/-- Only `W64` and the block are held, and a 64-bit move names an even block (R263). -/
def XT.accImm (f : XT) : Bool := bitsOf f.imm 28 14 == 0 && bitsOf f.imm 7 0 == 0 && (!f.w64 || f.block % 2 == 0)
/-- `accld`. -/
def formAccld (f : XT) : Form := ((formXT f .k f.accImm).withDst (if f.w64 then .d else .v1)).withSrc1 .s1
/-- `accst`. -/
def formAccst (f : XT) : Form := ((formXT f .k f.accImm).withSrc1 .s1).withSrc2 (if f.w64 then .d else .v1)
/-- `acccvt` (R264): bf16, f16, e4m3, e5m2 or s8. -/
def formAcccvt (f : XT) : Form :=
  ((formXT f .k (bitsOf f.imm 28 20 == 0 && !bitOf f.imm 13 && bitsOf f.imm 7 0 == 0 && decide (3 ≤ f.fmt ∧ f.fmt ≤ 7))).withDst
    .v1).withSrc1 .s1

/-- `vtset`. -/
def formVtset (f : XT) : Form := ((formXT f .k (f.imm == 0)).withDst (.num 8) .none).withSrc1 .q
/-- A walker instruction (R278): `n` destinations, `c` coordinate registers. -/
def formWalk (f : XT) (n c : Nat) (imm : Bool) : Form := ((formXT f .p imm).withDst (.v n 1)).withSrc1 (.v c 1)
/-- Only the slot and `APRED` are held. -/
def XT.immSlotPred (f : XT) : Bool := bitsOf f.imm 28 7 == 0 && !bitOf f.imm 3
/-- Only the slot, `APRED` and bits [9:8] are held. -/
def XT.immSlotPredSub (f : XT) : Bool := bitsOf f.imm 28 10 == 0 && !bitOf f.imm 7 && !bitOf f.imm 3
/-- Only the slot is held. -/
def XT.immSlot (f : XT) : Bool := bitsOf f.imm 28 3 == 0
/-- The registers that a stencil pattern writes (R280). -/
def stencilSize (pat : Nat) : Nat := if pat = 0 then 7 else if pat = 1 then 19 else 27
/-- `vstencil`. -/
def formVstencil (f : XT) : Form := formWalk f (stencilSize f.sub) 3 (f.immSlotPredSub && decide (f.sub ≤ 2))
/-- `vsamp`: only the slot and the mode. -/
def formVsamp (f : XT) (mode : Nat) : Form := formWalk f 1 3 (f.immSlotPredSub && f.apred == 0 && f.sub == mode)
/-- `vact`. -/
def formVact (f : XT) (mode : Nat) : Form :=
  (formXT f .p (f.immSlotPredSub && f.sub == mode)).withSrc1 (.v 3 1)
/-- `dtrav` (R289): ten parameters from an even register, three status registers. -/
def formDtrav (f : XT) : Form :=
  let b := (((formXT f .k (bitsOf f.imm 28 21 == 0)).withDst (.s 3 1)).withSrc1 .q).withSrc3 (.s 10 2)
  if f.self then b else b.withSrc2 .q
/-- `halo` (R294): `POST` is 0. -/
def formHalo (f : XT) : Form :=
  (((formXT f .k (bitsOf f.imm 28 3 == 0)).withSrc1 (.s 3 1)).withSrc2 .q).withSrc3 .q
/-- `halo.post`: `POST` is 1 and the slot 0. -/
def formHaloPost (f : XT) : Form := (formXT f .k (f.imm == 8)).withSrc3 .q
/-- `stepb`. -/
def formStepb (f : XT) : Form := ((formXT f .k (f.imm == 0)).withSrc1 .q).withSrc2 .s1

/-! ## The form of each instruction -/

/-- The extended header that a base form stands for: guard p0 or k0, every `EMPTYTRAP` bit 0, RNE (R107). -/
def Base.hdr (f : Base) (ty : Ty) (src2 src3 : BitVec 8) : Hdr :=
  { dst := f.dst, src1 := f.src1, src2 := src2, src3 := src3, guard := ⟨false, 0⟩, empty := 0, ty := ty, rnd := .rne
    lit := f.lit }

/-- The vector instruction that a base form stands for; `scalar` says that `SRC2` is an `s` register. -/
def Base.xv (f : Base) (ty : Ty) (scalar : Bool) : XV :=
  { h := f.hdr ty f.src2 0, kind := if scalar && f.lit.isNone then 0b010#3 else 0, sat := false, neg := 0, abs := 0
    cond := 0, src := .b32 }

/-- The base `fma` reads `DST` as its addend (R107). -/
def Base.xvFma (f : Base) (scalar : Bool) : XV :=
  { f.xv .f32 scalar with h := f.hdr .f32 f.src2 f.dst }

/-- The scalar instruction that a base form stands for. -/
def Base.xc (f : Base) : XC := { h := f.hdr .b32 f.src2 0, imm := 0 }

/-- `[xn + v*4]` (R107). -/
def Base.xmX (f : Base) : XM :=
  { h := f.hdr .b32 0 0, space := 0, xsel := f.src2.setWidth 2, scale := 2, scalarIndex := false, op := 0, rh := false
    disp := 0 }

/-- `[sc: v + 4*i]` (R107). -/
def Base.xmSc (f : Base) : XM :=
  { h := f.hdr .b32 0 0, space := 2, xsel := 0, scale := 0, scalarIndex := false, op := 0, rh := false
    disp := BitVec.ofNat 19 (4 * f.src2.toNat) }

/-- A base form of two sources. -/
def formBase2 (f : Base) (ty : Ty) (scalar : Bool) : Form :=
  formV2 (f.xv ty scalar) true false 0 true

/-- The base `fma`: the literal stands in `SRC2`, the addend waits (R106, R107). -/
def formBaseFma (f : Base) (scalar : Bool) : Form :=
  { (formV3 (f.xvFma scalar) true false 0 true).withSrc3 .v1 .readWait with litSlot := some 2 }

/-- A base load or store through a translation register: `SRC2[7:2]` = 0 (R107). -/
def Base.smallX (f : Base) (b : Form) : Form := { b with word2 := b.word2 && decide (f.src2.toNat < 4) }

/-- The form of a base form, which is that of the instruction it stands for (R107), and of an extended
instruction; none for a shaped copy and an event. -/
def Instr.form : Instr → Option Form
  | .addB32Base f | .subB32Base f | .mulB32Base f | .andB32Base f | .orB32Base f | .xorB32Base f | .shlB32Base f
  | .shrB32Base f | .sraB32Base f => some (formBase2 f .b32 false)
  | .minS32Base f | .maxS32Base f => some (formBase2 f .s32 false)
  | .faddF32Base f | .fsubF32Base f | .fmulF32Base f | .fminF32Base f | .fmaxF32Base f => some (formBase2 f .f32 false)
  | .fmaF32Base f => some (formBaseFma f false)
  | .movB32Base f => some (formV1 (f.xv .b32 false) true 0 false)
  | .addB32VsBase f => some (formBase2 f .b32 true)
  | .fmulF32VsBase f => some (formBase2 f .f32 true)
  | .fmaF32VsBase f => some (formBaseFma f true)
  | .saddB32Base f | .ssubB32Base f | .smulB32Base f | .sandB32Base f | .sorB32Base f | .sxorB32Base f
  | .sshlB32Base f | .sshrB32Base f => some (formS2 f.xc true)
  | .smovB32Base f => some (formS1 f.xc)
  | .ldB32XBase f => some (f.smallX (formLoad f.xmX false))
  | .stB32XBase f => some (f.smallX (formStore f.xmX false))
  | .ldB32ScBase f => some (formLoad f.xmSc false)
  | .stB32ScBase f => some (formStore f.xmSc false)
  | .sadd f | .ssub f | .smul f => some (formS2 f f.h.ty.inI)
  | .smulh f | .sdiv f | .srem f | .smin f | .smax f => some (formS2 f f.h.ty.inIS)
  | .smad f => some (formS3 f)
  | .sand f | .sor f | .sxor f | .sshl f | .sshr f | .ssra f => some (formS2 f f.h.ty.inW)
  | .sbfx f => some (formSField f f.h.ty.inIS .write)
  | .sbfi f => some (formSField f f.h.ty.inW .readWrite)
  | .spopc f | .sclz f | .sctz f | .smov f => some (formS1 f)
  | .scmp f => some (formScmp f)
  | .ssel f => some (formSsel f)
  | .sli f => some (formSli f)
  | .kop f => some (formKop f)
  | .bra f => some (formBare f .k true)
  | .brk f => some (formBrk f)
  | .brv f => some (formBare f .p true)
  | .jmp f => some { (Form.base f.h).withSrc1 .q with word2 := f.imm == 0 }
  | .call f => some ((Form.base f.h).withDst .d)
  | .ret f => some { (Form.base f.h).withSrc1 .d with word2 := f.imm == 0 }
  | .loop f => some ((Form.base f.h).withDst .s1 .readWrite)
  | .join f => some (formBare f .none (f.imm == 0))
  | .exitLanes f => some (formBare f .p (bitsOf f.imm 31 1 == 0))
  | .nop f | .yieldSplit f | .region f => some (formBare f .k (f.imm == 0))
  | .rdsr f => some (formRdsr f)
  | .wrsr f => some (formWrsr f)
  | .fnew f => some (formFnew f false)
  | .fnewP f => some (formFnew f true)
  | .fdone f => some (formFdone f)
  | .fawait f | .fpoll f => some (formFawait f)
  | .spawn f => some (formRecord f true true true true)
  | .emit f => some (formRecord f false false true true)
  | .fire f => some (formRecord f false false true false)
  | .reord f => some (formRecord f true false false true)
  | .pqpush f => some (formRecord f true false true true)
  | .pqpop f => some (formPqpop f)
  | .trap f => some (formBare f .k (bitsOf f.imm 31 16 == 0))
  | .rfePc f => some (formBare f .k (f.imm == 0))
  | .rfeNext f => some (formBare f .k (f.imm == 1))
  | .rfeRegion f => some (formBare f .k (f.imm == 2))
  | .xbind f => some { ((Form.base f.h).withDst .x .none).withSrc1 .q with word2 := f.imm == 0 }
  | .add f | .sub f | .mul f => some (formV2 f f.h.ty.inI (satAllowed f.h.ty) 0 false)
  | .mulh f | .min f | .max f => some (formV2 f f.h.ty.inIS false 0 false)
  | .mad f => some (formV3 f f.h.ty.inI (satAllowed f.h.ty) 0 false)
  | .abs f => some (formV1 f (f.h.ty == .s32 || f.h.ty == .s64) 0 false)
  | .and f | .or f | .xor f | .shl f | .shr f | .sra f => some (formV2 f f.h.ty.inW false 0 false)
  | .bfx f => some (formVField f f.h.ty.inIS .write)
  | .bfi f => some (formVField f f.h.ty.inW .readWrite)
  | .popc f | .clz f | .brev f | .mov f => some (formV1 f f.h.ty.inW 0 false)
  | .cmp f => some (formVCmp f f.h.ty.inI 0 (if f.h.ty.inW then 2 else 6))
  | .sel f => some (formSel f)
  | .fadd f | .fsub f | .fmul f => some (formV2 f f.h.ty.inF false srcs2 true)
  | .fma f => some (formV3 f f.h.ty.inF false srcs3 true)
  | .fmin f | .fmax f => some (formV2 f f.h.ty.inF false srcs2 false)
  | .fcmp f => some (formVCmp f f.h.ty.inF srcs2 8)
  | .fclass f => some (formV1 f f.h.ty.inF srcs1 false)
  | .fdiv f => some (formV2 f f.h.ty.inFD false srcs2 true)
  | .fsqrt f => some (formV1 f f.h.ty.inFD srcs1 true)
  | .frcp f | .frsq f => some (formV1 f f.h.ty.inFD srcs1 false)
  | .fex2 f | .flg2 f | .fsin f | .fcos f | .ftanh f => some (formV1 f f.h.ty.inFH srcs1 false)
  | .frint f => some (formV1 f f.h.ty.inF srcs1 true)
  | .fscal f => some (formFscal f)
  | .cvt f => some (formCvt f)
  | .pack f => some (formPack f)
  | .unpack f => some (formUnpack f)
  | .shflIdx f => some (formShfl f 0)
  | .shflUp f => some (formShfl f 1)
  | .shflDown f => some (formShfl f 2)
  | .shflXor f => some (formShfl f 3)
  | .voteBallot f => some (formVote f 0)
  | .voteAny f => some (formVote f 1)
  | .voteAll f => some (formVote f 2)
  | .voteUni f => some (formVote f 3)
  | .matchLanes f => some (formMatch f)
  | .redux f => some (formRedux f)
  | .scan f => some (formScan f)
  | .rngc f => some (formRngc f)
  | .vtopk f => some (formVocab f (.v 2 1) (bitsOf f.imm 24 7 == 0))
  | .vsoftmax f => some (formVocab f (if f.row = 1 then .v1 else .q) (f.imm == 0))
  | .vsample f => some (formVocab f .s1 (f.imm == 0))
  | .ld f => some (formLoad f false)
  | .st f => some (formStore f false)
  | .sld f => some (formLoad f true)
  | .sst f => some (formStore f true)
  | .aadd f => some (formAtomic f f.h.ty.inI .write false)
  | .amin f | .amax f => some (formAtomic f f.h.ty.inIS .write false)
  | .aand f | .aor f | .axor f | .aswap f => some (formAtomic f f.h.ty.inW .write false)
  | .acas f => some (formAtomic f f.h.ty.inW .readWrite false)
  | .ainc f => some (formAtomic f (f.h.ty == .n32 || f.h.ty == .n64) .write false)
  | .afadd f => some (formAtomic f f.h.ty.inF .write true)
  | .red f => some (formRed f)
  | .swait f => some (formSwait f)
  | .pf f => some (formPf f)
  | .rhnew f => some (formRh f true false)
  | .rhset f => some (formRh f false true)
  | .rhdrop f => some (formRh f false false)
  | .cbinvNode f => some (formCbinv f 0)
  | .cbinvArm f => some (formCbinv f 1)
  | .cbinvTree f => some (formCbinv f 2)
  | .cbinvAll f => some (formCbinv f 3)
  | .cbinvTr f => some (formCbinv f 4)
  | .cpaGs f => some (formCpa f 0 .s1 .q)
  | .cpaSg f => some (formCpa f 1 .q .s1)
  | .cpaGg f => some (formCpa f 2 .q .q)
  | .cpaSs f => some (formCpa f 3 .s1 .s1)
  | .cpaSw f => some (formCpa f 4 .q .s1)
  | .cpaWs f => some (formCpa f 5 .s1 .q)
  | .bar f => some (formBar f)
  | .tbinit f | .tbarrive f => some (formTb f false true)
  | .tbwait f => some (formTb f false false)
  | .tbpoll f => some (formTb f true false)
  | .gath f => some (formGath f)
  | .gathRow f => some (formGathRow f)
  | .scatadd f => some (formScatadd f)
  | .tset f => some (formTset f)
  | .tget f => some (formTget f)
  | .tcb f => some (formTcb f)
  | .tld f => some (formTld f)
  | .tst f => some (formTst f)
  | .tzero f => some (formTzero f)
  | .gang f | .mwait f | .acczero f => some (formSrcS f)
  | .mma f => some (formMma f false)
  | .mmaBs f | .mmaVs f => some (formMma f true)
  | .mmas f => some (formMmas f)
  | .mbatch f => some (formMbatch f)
  | .accld f => some (formAccld f)
  | .accst f => some (formAccst f)
  | .acccvt f => some (formAcccvt f)
  | .vtset f => some (formVtset f)
  | .vlook f => some (formWalk f 1 3 f.immSlotPred)
  | .vstencil f => some (formVstencil f)
  | .vsampTri f => some (formVsamp f 0)
  | .vsampNear f => some (formVsamp f 1)
  | .vmarch f => some (formWalk f 6 8 f.immSlot)
  | .vins f => some (formWalk f 2 3 f.immSlot)
  | .vactSet f => some (formVact f 0)
  | .vactClr f => some (formVact f 1)
  | .vactTrim f => some (formVact f 2)
  | .dtrav f => some (formDtrav f)
  | .halo f => some (formHalo f)
  | .haloPostOnly f => some (formHaloPost f)
  | .stepb f => some (formStepb f)
  | _ => none

/-! ## The static checks of R118 -/

/-- The register numbers that a use allows, whatever the group's `.regs` and the node's tile count (R101). -/
def Use.ok (u : Use) (n : Nat) : Bool :=
  match u with
  | .zero => n == 0
  | .v c a => n % a == 0 && decide (n + c ≤ 256)
  | .s c a => n % a == 0 && decide (n + c ≤ 64)
  | .p | .k => decide (n < 8)
  | .pDst | .kDst => decide (0 < n ∧ n < 8)
  | .x => decide (n < 4)
  | .t => decide (n < 16)
  | .acc => decide (n < 32)
  | .num b => decide (n < b)

/-- The field's number is one that its file has. -/
def Field.ok (f : Field) : Bool := f.use.ok f.num

/-- The field has an `EMPTYTRAP` bit (R106). -/
def Field.trappable (f : Field) : Bool := f.mode == .read || f.mode == .readAll

/-- Source field `n` of a form. -/
def Form.src (f : Form) (n : Nat) : Field := if n = 1 then f.src1 else if n = 2 then f.src2 else f.src3

/-- Source `n` is the literal. -/
def Form.isLit (f : Form) (n : Nat) : Bool := f.hdr.lit.isSome && f.litSlot == some n

/-- `EMPTYTRAP` of source `n` is 0, or the source is a register that can be empty and no literal (R106). -/
def Form.emptyOk (f : Form) (n : Nat) : Bool := !kindBit f.hdr.empty n || ((f.src n).trappable && !f.isLit n)

/-- The literal stands where a literal may, the field and the kind bit it replaces are 0, and its bits above the
operand width are 0 (R98). -/
def Form.litOk (f : Form) : Bool :=
  match f.hdr.lit with
  | none => true
  | some w =>
    match f.litSlot with
    | none => false
    | some n => (f.src n).num == 0 && !kindBit f.kind n && decide (w.toNat < 2 ^ f.litWidth)

/-- `GUARD` (R97): 0b1000 names nothing, and an instruction marked "—" holds 0. -/
def Form.guardOk (f : Form) : Bool :=
  if f.guard == .none then !f.hdr.guard.neg && f.hdr.guard.num == 0
  else !(f.hdr.guard.neg && f.hdr.guard.num == 0)

/-- Every static check of R118 on a base or extended instruction. -/
def Form.ok (f : Form) : Bool :=
  f.dst.ok && f.src1.ok && f.src2.ok && f.src3.ok && f.types && f.guardOk && (f.rounds || f.hdr.rnd == .rne)
    && f.emptyOk 1 && f.emptyOk 2 && f.emptyOk 3 && f.litOk && f.word2

/-! ## Shaped copies (R115 to R117) -/

/-- Field i of the shape block is substituted (R117): 0 `DIM0`, 1 `DIM1`, 2 `STRIDE`, 3 `SOFF`. -/
def Shaped.substitutes (f : Shaped) (i : Nat) : Bool := f.subst.getLsbD (3 - i)

/-- A substituted field holds its marker and its register exists (R117). -/
def Shaped.markerOk (f : Shaped) (i : Nat) (marker : Bool) : Bool :=
  !f.substitutes i || (marker && decide (f.sreg.toNat + i ≤ 63))

/-- The static checks of R116 and R117. -/
def Shaped.ok (f : Shaped) (src1 : Use) (goff : Bool) : Bool :=
  src1.ok f.src1.toNat && Use.s1.ok f.src2.toNat && decide (f.esize.toNat ≤ 3)
    && f.markerOk 0 (f.dim0 == .allOnes 16) && f.markerOk 1 (f.dim1 == .allOnes 16)
    && f.markerOk 2 (f.stride == .allOnes 32) && f.markerOk 3 (f.soff == .allOnes 18)
    && f.dim0 != 0 && f.dim1 != 0 && (f.subst != 0 || f.sreg == 0) && (goff || f.goff == 0)

/-- Every static check of R118 (and `ESIZE` 2 of `cpas.ag`, R203): of an event, which has no words, there is none. -/
def Instr.staticOk (i : Instr) : Bool :=
  match i with
  | .cpasGs f | .cpasSg f | .cpasGt f => f.ok .q true
  | .cpasSt f => f.ok .s1 false
  | .cpasAg f => f.ok .q true && f.esize == 2
  | _ => i.form.all Form.ok

end Sys2Proof
end

