-- ==== Sys2Proof/Machine/Maps.lean ====
section
/-! DEFINITION. The operations on sparse maps (`SMap`): keys rise strictly, and a store with a default lists no
entry equal to it. -/

namespace Sys2Proof

/-- The value at a key, if listed. -/
def SMap.look {α : Type} : SMap α → Nat → Option α
  | [], _ => none
  | (j, a) :: m, k => if j = k then some a else SMap.look m k

/-- The value at a key of a store with a default. -/
def SMap.at {α : Type} (m : SMap α) (d : α) (k : Nat) : α := (m.look k).getD d

/-- Lists a value at a key. -/
def SMap.ins {α : Type} : SMap α → Nat → α → SMap α
  | [], k, a => [(k, a)]
  | (j, b) :: m, k, a =>
    if k < j then (k, a) :: (j, b) :: m
    else if j = k then (k, a) :: m
    else (j, b) :: SMap.ins m k a

/-- Lists nothing at a key. -/
def SMap.del {α : Type} (m : SMap α) (k : Nat) : SMap α := m.filter fun e => e.1 != k

/-- Writes a value into a store with a default, keeping the canonical form. -/
def SMap.put {α : Type} [DecidableEq α] (m : SMap α) (d : α) (k : Nat) (a : α) : SMap α :=
  if a = d then m.del k else m.ins k a

/-- Changes the value at a key, where one is listed. -/
def SMap.modify {α : Type} (m : SMap α) (k : Nat) (f : α → α) : SMap α :=
  match m.look k with
  | some a => m.ins k (f a)
  | none => m

/-- Strictly rising keys. -/
def SMap.rising {α : Type} : SMap α → Bool
  | [] => true
  | [_] => true
  | (j, _) :: (k, b) :: m => decide (j < k) && SMap.rising ((k, b) :: m)

/-- The canonical form of a store with a default. -/
def SMap.canonical {α : Type} [DecidableEq α] (m : SMap α) (d : α) : Bool := m.rising && m.all fun e => e.2 != d

/-- The keys listed. -/
def SMap.keys {α : Type} (m : SMap α) : List Nat := m.map Prod.fst

/-- Adds a member to a rising list of members. -/
def insertNat : List Nat → Nat → List Nat
  | [], k => [k]
  | j :: m, k => if k < j then k :: j :: m else if j = k then j :: m else j :: insertNat m k

/-- The first member of a list that a test accepts, with its place. -/
def findAt {α : Type} (l : List α) (p : α → Bool) : Option (Nat × α) :=
  match l with
  | [] => none
  | a :: l => if p a then some (0, a) else (findAt l p).map fun r => (r.1 + 1, r.2)

/-- The list without the member at a place. -/
def dropAt {α : Type} : List α → Nat → List α
  | [], _ => []
  | _ :: l, 0 => l
  | a :: l, n + 1 => a :: dropAt l n

/-- The list with the member at a place changed. -/
def changeAt {α : Type} : List α → Nat → (α → α) → List α
  | [], _, _ => []
  | a :: l, 0, f => f a :: l
  | a :: l, n + 1, f => a :: changeAt l n f

/-- The member for which a key is least, the earliest on a tie. -/
def leastBy {α : Type} (key : α → Nat) : List α → Option α
  | [] => none
  | a :: l =>
    match leastBy key l with
    | none => some a
    | some b => if key b < key a then some b else some a

/-- The numbers of the set bits below 64, in rising order. -/
def lanesOf (m : BitVec 64) : List Nat := (List.range 64).filter fun l => m.getLsbD l

/-- The lowest set bit, or 0. -/
def lowestLane (m : BitVec 64) : Nat := ((lanesOf m).head?).getD 0

/-- The set of one lane. -/
def laneBit (l : Nat) : BitVec 64 := 1#64 <<< l

/-- The set of the lanes listed. -/
def laneSet (ls : List Nat) : BitVec 64 := ls.foldl (fun m l => m ||| laneBit l) 0

/-- A little-endian number of bytes (R5). -/
def natOfBytes : List (BitVec 8) → Nat
  | [] => 0
  | b :: bs => b.toNat + 256 * natOfBytes bs

/-- The list of 0 to n − 1, each through a function. -/
def tabulate {α : Type} (n : Nat) (f : Nat → α) : List α := (List.range n).map f

/-- Runs an action over a list, threading a state. -/
def foldState {α σ : Type} (l : List α) (s : σ) (f : σ → α → σ) : σ := l.foldl f s

end Sys2Proof
end

