-- ==== Sys2Proof/Machine/State.lean ====
section
/-! DEFINITION. The state of the machine: every register, store, table and queue the spec names, as plain data.
A sparse map (`SMap`) lists its keys in rising order and lists no default; the default of each is said at its field.
What the model adds of its own stands at the end of `State` under its own heading. -/

namespace Sys2Proof.Machine

/-! ## Causes -/

/-- The causes of R298. -/
inductive Cause where
  | illegal | unitAbsent | emptyRead | misaligned | pageFault | protection | rangeLock | scratchBounds
  | barrierOverrun | frameError | poison | gangMismatch | tileShape | software | fpTrap | traversalStack
  | linkLost | cancelled | watchdog | controlBlock | mapError | hostAtomic
deriving DecidableEq, Repr

/-- A cause on its way to a handler: what `%cause` and the entry registers are written from (R299, R300). -/
structure Trap where
  cause : Cause
  detail : Nat
  /-- taken from a poison-empty register or delivered from an engine -/
  deferred : Bool
  lane : Nat
  /-- the failing lanes; for a split-wide cause the split's `MASK` -/
  lanes : LaneMask
  /-- faulting virtual address or scratch offset, 0 if none -/
  va : DWord
  /-- `KIND` of the fault record (R303): 0 read, 1 write, 2 atomic, 3 fetch -/
  kind : Nat
  /-- `SOURCE` of the fault record (R303) -/
  source : Nat
deriving DecidableEq, Repr

/-! ## A group's context -/

/-- What one location is when it is not full (R105, R304). -/
inductive Fill where
  | empty | poisoned
deriving DecidableEq, Repr

/-- The cause a poison-empty register carries (R304). -/
structure Carried where
  cause : Cause
  detail : Nat
deriving DecidableEq, Repr

/-- A translation register (R62). -/
structure XReg where
  vbase : BitVec 52
  pbase : BitVec 48
  limit : BitVec 22
  coh : Bool
  write : Bool
  read : Bool
  stale : Bool
  valid : Bool
deriving DecidableEq, Repr

/-- An entry of a reconvergence stack (R20). -/
inductive JoinAddr where
  | unset
  | at (pc : DWord)
  /-- the marker "any" of R360 -/
  | any
deriving DecidableEq, Repr

/-- An entry of a reconvergence stack (R20). -/
structure StackEntry where
  fall : DWord
  notTaken : LaneMask
  full : LaneMask
  join : JoinAddr
deriving DecidableEq, Repr

/-- Why a split does not issue (R16: `STATE` ready, waiting, parked, at `join`). -/
inductive Wait where
  /-- ready -/
  | ready
  /-- waiting for these locations to be full or poison-empty (R106) -/
  | fill (locs : List Nat)
  /-- waiting for an operation to be performed or refused (R149, R145, R186, R192, R197, R198, R209) -/
  | op (id : Nat)
  /-- waiting without an issue slot for room (R199, R152, R326); the instruction issues again -/
  | retry
  /-- waiting until the group's handler has returned (R300) -/
  | handler
  /-- the same, with a cause that an instruction already left behind has deferred to the split (R286) -/
  | due (t : Trap)
  /-- at the `join` where it stands (R19) -/
  | join
  /-- parked at the team barrier (R40) -/
  | bar
  /-- parked on a frame (R146) -/
  | frame (handle : Word)
  /-- parked with a watch entry (R195, R295) -/
  | watch
  /-- parked and polling (R333) -/
  | poll
  /-- parked while the transaction barrier at this offset of the core's scratch stays in the phase (R209) -/
  | phase (core offset phase : Nat)
  /-- parked for a batch, with the address of the next instruction (R259) -/
  | batch (n : Nat) (next : DWord)
  /-- parked at the latch (R252) -/
  | latch
  /-- a released continuation (R33) -/
  | released
deriving DecidableEq, Repr

/-- An entry of a split table (R16) with its reconvergence stack (R20), its region (R307, R143) and its place in the
issue order (R331, R138). -/
structure Split where
  mask : LaneMask
  pc : DWord
  parent : BitVec 24
  /-- the top of the stack first -/
  stack : List StackEntry
  wait : Wait
  /-- the address at which the current region opened (R307) -/
  region : DWord
  /-- which opening of a region this is; producers of the region carry it (R308) -/
  regionNo : Nat
  /-- the frames `fnew` allocated in the region (R143) -/
  frames : List Word
  /-- when it last issued (R331) -/
  lastIssue : Nat
  /-- issue opportunities passed over while ready (R331) -/
  missed : Nat
  /-- urgent (R331) -/
  urgent : Bool
  /-- issue opportunities for which `yield` still holds the split back (R138) -/
  hold : Nat
  /-- its region is restarted before it issues again (R312) -/
  restart : Bool
deriving DecidableEq, Repr

/-- A counter's configuration (R140). -/
structure PerfConfig where
  enable : Bool
  handle : BitVec 12
  event : BitVec 16
deriving DecidableEq, Repr

/-- The special registers that the group holds (R139); the identity registers are other fields of its context (R11). -/
structure Specials where
  /-- `%rec` -/
  regions : Word
  cause : Word
  fpst : Word
  fpctl : Word
  mprog : Word
  vprog : Word
  gang : Word
  frame : Word
  /-- keys 0 to 7; a counter not listed is disabled and counts nothing -/
  perfConfig : SMap PerfConfig
  /-- the counter named by the last write of `%perfsel` -/
  perfLast : Nat
  /-- `%perf0` to `%perf7`; default 0 -/
  perf : SMap DWord
deriving DecidableEq, Repr

/-- A tile (R240, R241, R74): its bytes (default 0), its control register and its codebook (default 0); the rows, and
whether the codebook, hold an uncorrectable error (R266, R315). -/
structure Tile where
  data : SMap Byte
  control : Word
  codebook : SMap (BitVec 16)
  badRows : List Nat
  badCodebook : Bool
deriving DecidableEq, Repr

/-- An accumulator block (R249): 1,024 words (default 0) and a poison bit for each row. -/
structure AccBlock where
  data : SMap Word
  poison : BitVec 32
deriving DecidableEq, Repr

/-- A register as a handler's entry saves it (R300): its word, its full/empty state, and the cause that it carries where it is
poison-empty (R304). -/
structure Saved where
  word : Word
  fill : Option Fill
  cause : Option Carried
deriving DecidableEq, Repr

/-- The handler that a split of the group runs (R300). -/
structure Handler where
  split : Nat
  savedPc : DWord
  cause : Word
  /-- `s48` to `s57` at entry -/
  saved : List Saved
  /-- a supervisor entry, and so `cbinv.tr` is allowed (R198) -/
  supervisor : Bool
  /-- the physical address of the fault record, if one was written -/
  record : Option Nat
  /-- the operation whose engine asked for the entry (R305) -/
  engine : Option Nat
  /-- the wait to which the split returns: one for an operation of its own that an engine entry interrupted (R305) -/
  wait : Wait
  /-- the name of the next operation at entry: earlier ones aim at the saved `s48` to `s57` (R300, R301) -/
  mark : Nat
deriving DecidableEq, Repr

/-- The node kinds (R24). -/
inductive NodeKind where
  | uniform | lanes | sweep | reorder
deriving DecidableEq, Repr

/-- A node-table entry, parsed (R322). -/
structure Node where
  entry : DWord
  kind : NodeKind
  width : Nat
  pair : Bool
  steal : Bool
  team : Nat
  regs : Nat
  tiles : Nat
  accs : Nat
  scratch : Nat
  count : Nat
  timer : Nat
  cap : Nat
  traph : DWord
deriving DecidableEq, Repr

/-- Where a context is (R13, R15, R311). -/
inductive Loc where
  | active (core slot : Nat)
  | shadow (core slot : Nat)
  /-- being moved out of its slot by the lodging engine, from the active or the shadow bank -/
  | leaving (core slot : Nat) (shadow : Bool)
  /-- in a lodging place of this core -/
  | lodged (core : Nat)
  /-- in the die's lodging pool -/
  | pool (die : Nat)
deriving DecidableEq, Repr

/-- A frame that a task created (R26, R30). -/
structure Owned where
  task : Nat
  handle : Word
  /-- promise form: not awaited -/
  promise : Bool
deriving DecidableEq, Repr

/-- A tree descriptor as it was read (R272), with its address. -/
structure Tree where
  addr : DWord
  root : DWord
  rootLog2 : Nat
  /-- 0 FP32, 1 BF16, 2 FP16 -/
  fmt : Nat
  bg : Word
  nodePool : DWord
  nodeCap : Nat
  leafPool : DWord
  leafCap : Nat
deriving DecidableEq, Repr

/-- A hierarchy descriptor as it was read (R288): an octet tree, or a BH4 node array. -/
structure Hierarchy where
  addr : DWord
  tree : Option Tree
  base : DWord
  rootRef : Word
  count : Nat
deriving DecidableEq, Repr

/-- A batch of matrix operations (R258, R259): its number and the flags its operations raised. -/
structure Batch where
  number : Nat
  flags : BitVec 5
deriving DecidableEq, Repr

/-- A group's context: everything it owns (R10, R13, R25, R313). -/
structure Ctx where
  graph : Nat
  team : Nat
  die : Nat
  nodeIndex : Nat
  node : Node
  group : Nat
  /-- `%team` (R11) -/
  teamNo : Word
  /-- the core it was placed on, which `%core` and `%cluster` name (R11, R36) -/
  launchCore : Nat
  /-- the core to which it returns: that core, or the one that took it last (R34) -/
  home : Nat
  loc : Loc
  /-- R324 -/
  prio : Nat
  /-- when it was placed, and since when it has been out of the active bank (R42, R309) -/
  placed : Nat
  outSince : Nat
  /-- `v`, at key 64·n + lane; default 0 -/
  v : SMap Word
  /-- `s`; default 0 -/
  sreg : SMap Word
  /-- `p1` to `p7`; default 0 -/
  p : SMap LaneMask
  /-- `k1` to `k7` -/
  k : BitVec 8
  /-- `x0` to `x3`; default all zero -/
  x : SMap XReg
  /-- locations that are not full: v lane 64·n + l, s 16384 + n, t 16448 + n -/
  fills : SMap Fill
  /-- the cause a poison-empty register carries: v n, s 256 + n, t 320 + n -/
  carried : SMap Carried
  /-- registers whose file holds an uncorrectable error, numbered so too (R315) -/
  badRegs : List Nat
  special : Specials
  /-- the valid entries of the split table, keys 0 to 3 -/
  splits : SMap Split
  /-- the 8-bit fork counter (R17) -/
  fork : Nat
  /-- how many openings of regions there have been: names for `Split.regionNo` (R308) -/
  opened : Nat
  /-- exited lanes, lanes without a record among them (R24) -/
  exited : LaneMask
  /-- tasks marked in error, by lane, or bit 0 for a group task (R137) -/
  errTasks : LaneMask
  /-- tasks that have reported, or that `reord` carried away (R26, R152) -/
  reported : LaneMask
  /-- lanes that `reord` deposited: their tasks go on elsewhere (R152) -/
  deposited : LaneMask
  owned : List Owned
  /-- the lanes' task frames (R361); default null -/
  taskFrames : SMap Word
  /-- how many of its frames the implicit await of each task has passed (R30); default 0 -/
  awaits : SMap Nat
  /-- tree slots bound to descriptors (R274, R275) -/
  slots : SMap Tree
  /-- keys 0 to 15; default a tile after placement (R51) -/
  tiles : SMap Tile
  /-- keys 0 to 31; default zero -/
  accs : SMap AccBlock
  /-- the number that the open batch will have, less one (R258) -/
  batchNo : Nat
  /-- flags of closed batches that `mwait` has not posted (R259), and those of the open one; numbers count without end, and
  programs see them modulo 2^16 (R258) -/
  batches : List Batch
  handler : Option Handler
  /-- the names of the operations issued while a handler ran that has returned, each as the first name and the name behind the last:
  they fill none of the registers that the return restored (R301) -/
  shut : List (Nat × Nat)
  /-- engines waiting for a supervisor entry in this group (R305) -/
  entries : List Nat
  /-- marked for restart (R311) -/
  restart : Bool
  /-- when the lodging engine began to wait for producers (R311) -/
  leavingSince : Nat
  /-- the spinning test (R42): the cycle after the last `yield` or backward branch, store, and atomic; 0 none -/
  lastSpin : Nat
  lastStore : Nat
  lastAtomic : Nat
  /-- the group was ended by a supervisor handler's exit (R306) -/
  killed : Bool
deriving DecidableEq, Repr

/-! ## Records, frames, teams and graphs -/

/-- Whose continuation a continuation record is: a split of a context, or the implicit await of one of its tasks (R30, R33). -/
inductive Resumes where
  | split (ctx split : Nat)
  | task (ctx task : Nat)
deriving DecidableEq, Repr

/-- A record (R22) of a graph. -/
structure Record where
  node : Nat
  frame : Word
  flags : BitVec 16
  args : List Word
  graph : Nat
  /-- of a continuation record (R33) -/
  resumes : Option Resumes
deriving DecidableEq, Repr

/-- An entry of a frame's waiter list (R27, R29): a continuation record, the index of the next entry, 0 at the end, and the
frame's key. -/
structure Waiter where
  record : Record
  next : BitVec 28
  frame : Nat
deriving DecidableEq, Repr

/-- A record on its way to a bin of a die (R148, R324). -/
structure Sent where
  /-- its packet's number (R340) -/
  number : Nat
  /-- the die it goes to, and the one it comes from (R341) -/
  die : Nat
  source : Nat
  /-- the graph that issued it, which for a fired arm is not the record's (R341) -/
  issuer : Nat
  record : Record
  /-- the arm whose firing made it, as 8192·die + arm (R321) -/
  arm : Option Nat
deriving DecidableEq, Repr

/-- One graph's waiting records in one bin, in arrival order, with the timer's start (R324). -/
structure Bin where
  die : Nat
  node : Nat
  graph : Nat
  records : List Record
  /-- when the timer started -/
  timer : Nat
deriving DecidableEq, Repr

/-- A deposit of the reorder unit (R328). -/
structure Deposit where
  die : Nat
  node : Nat
  key : Word
  record : Record
  born : Nat
deriving DecidableEq, Repr

/-- A launched team that waits for placement (R329). -/
structure Waiting where
  die : Nat
  nodeIndex : Nat
  node : Node
  graph : Nat
  prio : Nat
  teamNo : Word
  records : List Record
  /-- leaf sweep: the leaf's registers `s0` to `s7` and the swept tree (R24, R327) -/
  sweep : Option (List Word × Tree)
  since : Nat
  /-- it blocks bypass by equal or lower priority (R329) -/
  aged : Bool
deriving DecidableEq, Repr

/-- An entry of a priority queue (R153, R330). -/
structure PqEntry where
  graph : Nat
  key : Nat
  node : Nat
  prio : Nat
  args : List Word
deriving DecidableEq, Repr

/-- The states of a frame (R27); codes 5 to 15 are not produced, and are refused where one stands (R28). -/
inductive FrameState where
  | free | open | promise | done | error
  | reserved (code : Nat)
deriving DecidableEq, Repr

/-- A frame (R27): `GEN`, `WAITERS`, `STATE`, `OWNER` and `PENDING`. -/
structure Frame where
  gen : Word
  waiters : BitVec 28
  state : FrameState
  owner : Word
  pending : Word
deriving DecidableEq, Repr

/-- A placed team (R37, R38). -/
structure Team where
  graph : Nat
  die : Nat
  /-- the core, the even one of a pair -/
  core : Nat
  pair : Bool
  groups : Nat
  /-- physical scratch offset on the core or on both (R47) -/
  offset : Nat
  /-- `.scratch` rounded up to 1 KiB (R46), and with the spill areas (R37) -/
  scratch : Nat
  allocated : Nat
  prio : Nat
  /-- boundary pair (R41): the sides, 0 even and 1 odd, that have completed their local phase -/
  phased : List Nat
  /-- the sides whose completion message is on its way, and those whose message has arrived at the other side -/
  crossing : List Nat
  crossed : List Nat
  /-- the packet numbers of those on their way, by side (R340) -/
  messages : List (Nat × Nat)
  /-- evicted (R314): the number under which the lodging pool holds the scratch of its (even) core, as that of a core -/
  evicted : Option Nat
  /-- since when an eviction waits for copies (R314) -/
  evicting : Option Nat
deriving DecidableEq, Repr

/-- What the completion record says of a cause (R301). -/
structure Blame where
  cause : Nat
  detail : Nat
  core : Word
  lane : Nat
  pc : DWord
deriving DecidableEq, Repr

/-- A graph (R10, R319). -/
structure Graph where
  die : Nat
  arm : Nat
  asroot : Nat
  super : DWord
  compl : DWord
  /-- 0, 1 error, 2 cancelled by the host (R301) -/
  status : Nat
  blame : Option Blame
  /-- its splits take `CANCELLED` (R301) -/
  ending : Bool
  /-- a host address gets no completion record (R347) -/
  hostLost : Bool
  /-- the payload slot its message uses (R321) -/
  linkSlot : Option (Nat × Nat)
deriving DecidableEq, Repr

/-! ## Operations in flight -/

/-- Where one lane's element lies: at a physical address, or at an offset of a core's scratch. -/
inductive Place where
  | mem (pa : Nat)
  | scratch (core offset : Nat)
deriving DecidableEq, Repr

/-- A leaf that a TLB holds (R58). -/
structure TlbEntry where
  asroot : Nat
  level : Nat
  /-- the virtual page number at the level's page size -/
  page : Nat
  leaf : DWord
  /-- the entry's physical address, for `DIRTY` (R57) -/
  home : Nat
deriving DecidableEq, Repr

/-- One lane of an access. -/
structure LaneAt where
  lane : Nat
  place : Place
  /-- the virtual address or window offset it was formed from -/
  va : DWord
  /-- the TLB entry through which it was translated, which notes the first write of its page (R57); none where it took another
  path -/
  tlb : Option TlbEntry
deriving DecidableEq, Repr

/-- What an atomic computes (R191, R193). -/
inductive AtomicOp where
  | add | min | max | and | or | xor | swap | cas | inc
deriving DecidableEq, Repr

/-- One lane of an atomic: its element, its operand and, for `acas`, the comparand. -/
structure AtomicLane where
  at_ : LaneAt
  operand : DWord
  compare : DWord
deriving DecidableEq, Repr

/-- A transfer of a copy: n bytes from one place to another. -/
inductive Side where
  /-- a virtual address of the graph -/
  | global (va : DWord)
  /-- an address that has been translated: virtual, and physical of the bytes of its page -/
  | phys (va : DWord) (pa : Nat)
  /-- a row that was translated at issue (R210): its virtual address, its physical one, and that of the page which follows its first -/
  | pages (va : DWord) (pa next : Nat)
  | scratch (core offset : Nat)
  /-- cluster window: named core within the cluster and physical offset -/
  | window (core offset : Nat)
  | tile (n offset : Nat)
  | acc (block offset : Nat)
deriving DecidableEq, Repr

/-- One row of a copy: the byte intervals it moves. -/
structure Row where
  src : Side
  dst : Side
  bytes : Nat
deriving DecidableEq, Repr

/-- The transaction barrier an operation is bound to: its core, physical scratch offset and phase (R207). -/
structure Binding where
  core : Nat
  offset : Nat
  phase : Nat
deriving DecidableEq, Repr

/-- The state of a vocabulary operation (R179 to R184). -/
structure Vocab where
  /-- 1 `vtopk`, 2 `vsoftmax`, 3 `vsample`: `OP` of `%vprog` -/
  kind : Nat
  dst : Nat
  /-- the row: a virtual address, the values captured of a lane row, or a scratch offset of a core -/
  row : DWord
  captured : Option (List Word)
  scratchRow : Option (Nat × Nat)
  n : Nat
  /-- k of `vtopk` -/
  k : Nat
  /-- the parameter word: T or u -/
  param : Word
  pass : Nat
  /-- blocks done in this pass -/
  blocks : Nat
  /-- the elements consumed so far with their indices, best first (`vtopk`) -/
  best : List (Word × Nat)
  /-- running values: the maximum (`vsoftmax`), then the sum; the sum and the running sum (`vsample`) -/
  top : Option Word
  total : Option Word
  acc : Word
  /-- the smallest index of +∞, the last index of a positive weight, and the index chosen (`vsample`) -/
  firstInf : Option Nat
  lastPos : Option Nat
  chosen : Option Nat
  flags : BitVec 5
deriving DecidableEq, Repr

/-- One member of a matrix operation (R252, R253): its context, the tasks whose lanes its split held, its batch's number
(R258) and `%fpctl` at issue (R81). -/
structure MatMember where
  ctx : Nat
  lanes : LaneMask
  batch : Nat
  fpctl : Word
  /-- the format of its A tile, which gives its own k-groups (R253) -/
  fa : Nat
deriving DecidableEq, Repr

/-- The state of a matrix operation (R253 to R257). -/
structure MatOp where
  /-- 1 `mma`, 2 `mma.bs`, 3 `mma.vs`, 4 `mmas`: `OP` of `%mprog` -/
  kind : Nat
  acc : Nat
  tileA : Nat
  tileB : Nat
  tileM : Nat
  zero : Bool
  aoff : Nat
  boff : Nat
  k : Nat
  /-- the context of the group that holds the B tile (R251) -/
  leader : Nat
  members : List MatMember
  /-- the formats at issue, and for `mmas` the ring's and the barriers' physical scratch offsets, stages and slots -/
  fa : Nat
  fb : Nat
  ring : Nat
  bars : Nat
  stages : Nat
  slots : Nat
  /-- t_i of each full barrier (R257) -/
  phases : List Nat
  /-- stages consumed, and k-groups added of the present stretch of k (R260) -/
  done : Nat
  kstep : Nat
  /-- the full barrier of the stage being read had its `POISON` when the engine began to read it (R257) -/
  spoiled : Bool
  /-- flags gathered so far, by output row -/
  flags : SMap (BitVec 5)
deriving DecidableEq, Repr

/-- An arrival at the latch (R252): the instruction, which stands for its words, the operation it asks for, the address of
the next instruction, `%gang`, and `%fpctl` at issue (R81). -/
structure Arrival where
  ctx : Nat
  split : Nat
  words : Instr
  op : MatOp
  next : DWord
  gang : Word
  fpctl : Word
deriving DecidableEq, Repr

/-- A walker operation (R279 to R282): the lanes still to write, each with its coordinate block. -/
structure Walk where
  /-- 0 `vlook`, 1 `vstencil`, 2 `vsamp.tri`, 3 `vsamp.near`, 4 `vmarch` -/
  kind : Nat
  /-- the pattern of `vstencil` -/
  pat : Nat
  dst : Nat
  apred : Nat
  tree : Tree
  fpctl : Word
  lanes : List (Nat × List Word)
deriving DecidableEq, Repr

/-- A pair of references on the pair walker's stack (R291): the references, each with the words of its place. -/
structure RefPair where
  a : Word
  b : Word
  placeA : List Word
  placeB : List Word
deriving DecidableEq, Repr

/-- The state of a traversal (R289 to R292). -/
structure Dtrav where
  dst : Nat
  hierA : Hierarchy
  hierB : Hierarchy
  /-- the resume block -/
  block : DWord
  frame : Word
  args : List Word
  node : Nat
  prio : Nat
  self : Bool
  /-- the top first -/
  stack : List RefPair
  /-- `.res`: the entries of the saved stack, which is still to be loaded -/
  reload : Option Nat
  emitted : Nat
  /-- the order of commit -/
  order : Nat
deriving DecidableEq, Repr

/-- A slot that an insertion has taken and built, and has still to make child of a node: the child's level, the node, the slot
(R284). -/
structure Held where
  level : Nat
  node : Nat
  slot : Nat
deriving DecidableEq, Repr

/-- The kinds of operations in flight. -/
inductive OpKind where
  /-- a global load into `v` or `s` registers from `reg` (R187): the lanes still to read, the residency handle, and what has
  been read and is still to land: location and value, or none for poison -/
  | load (scalar : Bool) (reg : Nat) (ty : Ty) (lanes : List LaneAt) (handle : Nat)
      (got : List (Nat × Option Word × BitVec 5))
  /-- results computed at issue that land later: pairs of location (v lane or s) and value, or none for poison -/
  | result (values : List (Nat × Option Word × BitVec 5))
  /-- an element gather (R210): first register, type, the lanes still to read, the bytes moved -/
  | gather (reg : Nat) (ty : Ty) (lanes : List LaneAt) (moved : Nat)
  /-- a walker operation (R276) -/
  | walk (w : Walk)
  /-- a `vact` (R286): mode, predicate, tree, the lanes still to perform, and the causes of the lanes that failed -/
  | activity (mode apred : Nat) (tree : Tree) (lanes : List (Nat × List Word)) (failed : List Trap)
  /-- lanes of an atomic still to perform; `ret` is the destination, none for `red` and `scatadd` (R191, R193, R211); `engine`
  tells a scatter-add, which the gather engine performs, from the lanes' own -/
  | atomic (op : AtomicOp) (ty : Ty) (rnd : Rnd) (fpctl : Word) (lanes : List AtomicLane) (ret : Option Nat)
      (flags : BitVec 5) (engine : Bool)
  /-- a cluster-window access (R48, R186): 0 load, 1 store, 2 atomic; scalar form; register; `%fpctl` at issue; data by lane -/
  | window (kind : Nat) (scalar : Bool) (reg : Nat) (ty : Ty) (op : AtomicOp) (rnd : Rnd) (fpctl : Word)
      (lanes : List AtomicLane) (ret : Bool)
  /-- `spawn` at the frame stores (R149): the records that leave, each with its lane (64: the whole split) -/
  | spawn (records : List (Nat × Sent))
  /-- `fdone` at the frame stores (R145): handles with their lanes (64: the whole split) -/
  | fdone (handles : List (Nat × Word))
  /-- a frame poll (R147): registers and handles -/
  | fpoll (polls : List (Nat × Word))
  /-- a push and a pop at a priority queue (R330) -/
  | push (die : Nat) (entries : List PqEntry)
  | pop (die : Nat) (regs : List (List Nat))
  /-- `tbarrive` (R209): barrier, given phase, expected bytes -/
  | tbarrive (core offset : Nat) (phase : Option Nat) (expected : Nat)
  /-- a copy or a row gather (R200 to R204, R210): rows, landed intervals of first byte and count, barrier -/
  | copy (rows : List Row) (landed : List (Nat × Nat)) (binding : Binding) (gather : Bool) (tile : Option Nat)
  | vocab (op : Vocab)
  | matrix (op : MatOp)
  | dtrav (op : Dtrav)
  /-- the lanes of `vins` still to insert: register (none once abandoned), tree, lane, coordinates, and the slot that the first
  of them holds (R284) -/
  | insert (reg : Option Nat) (tree : Tree) (lanes : List (Nat × List Word)) (held : Option Held)
  /-- a halo (R294): source and replica trees (none for `halo.post`), the leaf's origin, the step frame's physical
  address, the slot that its insertion holds, the bytes moved, and whether the copied mask has a bit -/
  | halo (trees : Option (Tree × Tree)) (origin : List Word) (step : Nat) (held : Option Held) (moved : Nat) (active : Bool)
  /-- a residency-handle change on its way to every die (R197): handle, its new priority (none drops it), register -/
  | handle (number : Nat) (prio : Option Nat) (reg : Option Nat)
  /-- a translation invalidation (R58) -/
  | invalidate (asroot : Nat) (va : DWord) (length : Nat) (all : Bool)
deriving DecidableEq, Repr

/-- An operation in flight. -/
structure Op where
  ctx : Nat
  split : Nat
  graph : Nat
  core : Nat
  die : Nat
  /-- the tasks whose lanes the issuing split held (R137) -/
  lanes : LaneMask
  /-- the region in which it was issued (R308) -/
  regionNo : Nat
  born : Nat
  pc : DWord
  /-- the address of the next instruction -/
  next : DWord
  /-- stopped by a translation fault: what its supervisor entry will say (R305) -/
  fault : Option Trap
  /-- the fault record written for it, by virtual and physical address -/
  record : Option (DWord × Nat)
  kind : OpKind
  /-- bytes of a copy's source, by their place in the copy, that were read with the granule of an earlier landing and have still to
  land (R220); none for a byte of a sector with an uncorrectable error -/
  ahead : List (Nat × Option Byte) := []
  /-- the numbers of its next packets (R340), by 4·source + target; default its name -/
  seqs : SMap Nat := []
deriving DecidableEq, Repr

/-- A write-back on its way to its home (R236): bytes by physical address, and the residency handle it carries (R69). -/
structure Write where
  /-- its packet's number (R340) -/
  number : Nat
  core : Nat
  bytes : List Host.Cell
  handle : Nat
  /-- the graphs whose groups marked them (R341) -/
  graphs : List Nat
deriving DecidableEq, Repr

/-- A range-lock entry (R199). -/
structure Range where
  core : Nat
  op : Nat
  /-- the virtual addresses of an address space (its asroot), or the scratch of a core -/
  scratch : Bool
  owner : Nat
  lo : Nat
  hi : Nat
  write : Bool
deriving DecidableEq, Repr

/-- What a watch entry tests (R332). -/
inductive WatchTest where
  /-- condition code of R103, type and comparand -/
  | compare (cond : Nat) (ty : Ty) (operand : DWord)
  /-- of a step frame's 16 bytes: `STEP` differs from t, or `POISON` is set (R295) -/
  | step (t : Word)
deriving DecidableEq, Repr

/-- An entry of a watch table (R332). -/
structure Watch where
  die : Nat
  place : Place
  bytes : Nat
  test : WatchTest
  ctx : Nat
  split : Nat
  /-- the team whose allocation the window check found (R195) -/
  team : Option Nat
  /-- where the released split continues, and whether its release is an edge target (R216) -/
  next : DWord
  edge : Bool
  /-- a wait that polls instead of holding an entry (R333) -/
  poll : Bool
  /-- an entry that has left its table for a context of another die: the number of the packet that carries its release (R339) -/
  sent : Option Nat := none
deriving DecidableEq, Repr

/-- The report of a task on its way to a frame of another die (R26, R32, R339): its packet's number, the die it comes from, its graph,
the frame, and whether the task ended in error. -/
structure Report where
  number : Nat
  source : Nat
  graph : Nat
  frame : Word
  err : Bool
deriving DecidableEq, Repr

/-- An activity-scanner request (R327). -/
structure Scan where
  die : Nat
  record : Record
  /-- the tree, once its descriptor has been read -/
  tree : Option Tree
  /-- where the search goes on: root entry, and child number at levels 3, 2 and 1 -/
  place : List Nat
  /-- the leaves already swept -/
  swept : List Nat
deriving DecidableEq, Repr

/-! ## Cores -/

/-- A line of an L1 (R65, R237): its bytes, the marked ones, the slots whose contexts marked it (the active bank's in bits 0
to 15, the shadow bank's in bits 16 to 31), and the residency handle of the last store into it (R69). -/
structure Line where
  data : SMap Byte
  /-- the bytes that are present -/
  valid : BitVec 128
  marked : BitVec 128
  marks : BitVec 32
  handle : Nat
deriving DecidableEq, Repr

/-- A read request at an L2 slice (R67): the core that the reply goes to, the handle, and the load that sent it; none for a
prefetch, which asks for sectors of the core's L1. -/
structure Request where
  core : Nat
  handle : Nat
  op : Option Nat
  sectors : List Nat
deriving DecidableEq, Repr

/-- A miss-merge register of the L2 (R67): its line, by physical address div 128, and its requests in order of arrival. -/
structure Merge where
  line : Nat
  requests : List Request
deriving DecidableEq, Repr

/-- An entry of the leaf cache (R277): its set and way, the address space and the descriptor's address, the leaf's origin, its
index. -/
structure LeafEntry where
  set : Nat
  way : Nat
  asroot : Nat
  addr : DWord
  origin : List Word
  leaf : Nat
deriving DecidableEq, Repr

/-- The power state of a core (R352, R353). -/
inductive Power where
  | c0 | c1
  | gating (since : Nat) (wake : Bool)
  | c2
deriving DecidableEq, Repr

/-- A bank swap in progress (R309). -/
structure Swap where
  since : Nat
deriving DecidableEq, Repr

/-- A core; the lodging pool holds an evicted team's scratch as that of a core of a number of its own (R314). -/
structure Core where
  /-- bytes of scratch by physical offset; default 0 -/
  scratch : SMap Byte
  /-- 32-byte sectors of scratch that hold an uncorrectable error (R315) -/
  scratchPoison : List Nat
  /-- lines by physical address div 128 -/
  l1 : SMap Line
  /-- code lines by physical address div 128 (R231) -/
  icache : SMap (List Byte)
  tlb : List TlbEntry
  /-- control-block copies by physical address (R230) -/
  blocks : SMap (List Byte)
  /-- the leaf cache (R277), and the pseudo-LRU bits of its sets; default 0 -/
  leafCache : List LeafEntry
  leafOrder : SMap (BitVec 3)
  /-- arrivals at the latch (R252) -/
  latch : List Arrival
  swap : Option Swap
  /-- when a context of the active bank was last ready (R309) -/
  lastReady : Nat
  /-- when a resident context was last ready, and when one was last resident or lodged here (R352) -/
  lastAwake : Nat
  lastHeld : Nat
  power : Power
  powerSince : Nat
  /-- free lodging places advertised by the lower and the higher neighbour (R311) -/
  adverts : List Nat
  retired : Bool
  failed : Bool
deriving DecidableEq, Repr

/-! ## The package -/

/-- A residency handle (R68): its priority and the dies where it is demoted. -/
structure Handle where
  prio : Nat
  demoted : List Nat
deriving DecidableEq, Repr

/-- A message on its way to a peer (R349): the slot it was read from, as a physical address, and what it carries. -/
structure Message where
  slot : Nat
  tag : Word
  header : List Word
  mac : List Byte
  payload : List Byte
deriving DecidableEq, Repr

/-- A device-link port (R348, R349). -/
structure Port where
  srbase : DWord
  srsize : Word
  srnext : Word
  up : Bool
  /-- when it went down, or when the peer last acknowledged -/
  since : Nat
  /-- the messages sent and not acknowledged, oldest first -/
  unacked : List Message
  /-- the ring was stopped while a slot is being sent -/
  stopping : Bool
  /-- messages that wait for a payload slot (R321): tag, header, payload -/
  held : List (Word × List Word × List Byte)
  /-- restart frames sent since the port went down -/
  restarts : Nat
  /-- retransmissions -/
  resent : Nat
deriving DecidableEq, Repr

/-- What a destination answered to a packet of a read or an atomic (R340): words, none for one with an uncorrectable error. -/
abbrev Response := List (Option Word)

/-- A flit in its port's replay buffer, until it is acknowledged (R339): its direction, its number, which names its packet
(16·number + 4·source + target), and how often it has failed its CRC. -/
structure Flit where
  direction : Nat
  number : Nat
  failures : Nat
deriving DecidableEq, Repr

/-- A direction of a die boundary (R339, R341, R342). -/
structure Boundary where
  failed : Bool
  /-- bundles whose spare is used, and bundles switched off, as (direction, bundle) -/
  spared : List (Nat × Nat)
  off : List (Nat × Nat)
  /-- the replay buffers of its two ports, at most 4,096 flits each -/
  replays : List Flit
  /-- the bundle recalibrated last -/
  recalibrating : Option Nat
deriving DecidableEq, Repr

/-- Firmware (R356, R357). -/
structure Firmware where
  /-- version and digest of banks 0 and 1 -/
  versions : List Nat
  digests : List (BitVec 256)
  verified : List Bool
  active : Nat
  /-- the fuses' monotonic counter -/
  fuses : Nat
  /-- units that run the new bank -/
  switched : List Nat
  /-- the private part of the device's SM2 identity key (R356) -/
  identity : BitVec 256
deriving DecidableEq, Repr

/-- The host registers of BAR 0 that hold a value of their own (R344). -/
structure HostRegs where
  invqbase : DWord
  invqsize : Word
  invqtail : Word
  invqdone : Word
deriving DecidableEq, Repr

/-- Who moves next: the model's own schedule. -/
inductive Turn where
  /-- an issue opportunity of a scheduler of a core (R331) -/
  | issue (core sched : Nat)
  /-- an event of the opcode table -/
  | event (i : Instr)
  /-- one cycle of the clock -/
  | tick
deriving DecidableEq, Repr

/-- The state of the machine. -/
structure State where
  variant : Variant
  /-- `%caps.CXL` (R2) -/
  cxl : Bool
  /-- cycles of the arithmetic clock -/
  clock : Nat
  /-- `%clock`: the constant 1.9 GHz reference (R139, R354), and the part of its next count, in units of one count divided by
  `clockMhz` -/
  ref : Nat
  refPart : Nat
  /-- the arithmetic clock in MHz (R354) -/
  clockMhz : Nat
  /-- `MEMMAP.ILSHARE` (R59) and whether it has been written -/
  ilshare : Nat
  memmapWritten : Bool
  /-- device memory and host windows (bit 47 of the address): unlisted bytes read 0 (log entry 3) -/
  mem : List Host.Cell
  /-- poisoned 32-byte sectors, rising -/
  poison : List Nat
  /-- residency handles by number -/
  handles : SMap Handle
  /-- the lines that the L2s hold, by physical address div 128, each with the handle that owns it, or 0 (R66, R69) -/
  l2 : SMap Nat
  /-- the open miss-merge registers of the L2 slices (R67) -/
  merges : List Merge
  /-- the frames that the dies' frame stores hold, by 2^22·die + index; the others stand in their pools in memory (R32) -/
  frames : SMap Frame
  /-- the entries of waiter lists by 2^28·die + index, the die that of their frame (R27, R29) -/
  waiters : SMap Waiter
  /-- promise frames whose owners have exited while continuations waited (R30) -/
  orphans : List Nat
  /-- continuation records in their bins, in the order in which they entered (R29, R33), each with its die -/
  released : List (Nat × Record)
  /-- continuation records of the splits that are parked elsewhere than on a frame, in the order in which they parked (R33) -/
  conts : List Record
  sent : List Sent
  reports : List Report
  bins : List Bin
  /-- launch counters by 4096·die + node; default 0 (R11) -/
  launches : SMap Nat
  deposits : List Deposit
  placeQ : List Waiting
  pqueues : List (Nat × PqEntry)
  scans : SMap Scan
  /-- one more than the name of the vocabulary operation that each die's unit served last (R179); default 0 -/
  vocabLast : SMap Nat
  watch : List Watch
  graphs : SMap Graph
  teams : SMap Team
  ctxs : SMap Ctx
  cores : SMap Core
  ops : SMap Op
  writes : List Write
  ranges : List Range
  /-- `ERRHEAD` by die (R344), default 0, and the counts by 4000·die + 10·KIND + UNIT (R355) -/
  errHead : SMap Nat
  errCount : SMap Nat
  host : HostRegs
  /-- arm message windows: 8·(8192·die + arm) + word; default 0 (R320) -/
  armWin : SMap Word
  /-- the host link has trained and is not being reset (R347) -/
  linkUp : Bool
  /-- AtomicOp Requester Enable (R345) -/
  reqEnable : Bool
  ports : SMap Port
  boundaries : SMap Boundary
  /-- Hinge packets seen and the responses recorded, newest first: (4·source + target, number, response) (R340) -/
  hinge : List (Nat × Nat × Response)
  /-- responses that a destination has sent and whose operation is not over, newest first, in the same form (R340) -/
  replies : List (Nat × Nat × Response)
  /-- channels retired to the spare, as 32·stack + channel, and copies in progress (R351) -/
  channels : List Nat
  copying : List Nat
  /-- spare cores that have taken a core's place, as 16·die + spare (R358) -/
  spares : List Nat
  /-- dies in D1 (R352) -/
  sleeping : List Nat
  firmware : Firmware
  /-- what the host, or the management port, last read (R343, R356) -/
  hostRead : List Byte
  /-- the model's own: what moves next -/
  agenda : List Turn
  /-- the model's own: the split that issues -/
  cur : Option (Nat × Nat)
  /-- the model's own: how many free values have been taken -/
  free : Nat
  /-- the model's own: the next name for a context, team, graph or operation -/
  nextId : Nat
deriving DecidableEq, Repr

/-- Why the machine stops with a fault. -/
inductive Fault where
  /-- Raised by an instruction when no split issues it: the model's own, since on the device an instruction is always
  issued by a split. Safe: the model stops where the device has no behaviour. -/
  | noIssuer
  /-- Raised by an access to a physical address that the package does not have, below bit 47 and beyond the installed
  memory (R59). Safe: translation refuses such pages (R56), so no program meets it. -/
  | noSuchMemory (address : Nat)
deriving DecidableEq, Repr

/-- Why the machine refuses an instruction. -/
inductive Refusal where
  /-- Raised by an arm of `exec` whose instruction has no meaning in the model yet. Safe: the model stops. -/
  | notModelled (mnemonic : String)
deriving DecidableEq, Repr

/-- The machine right after package reset (R355), with nothing placed: log entries 1 to 8 name the values that the
spec does not give. -/
def State.reset : State where
  variant := .wz4
  cxl := false
  clock := 0
  ref := 0
  refPart := 0
  clockMhz := 1900
  ilshare := 48
  memmapWritten := false
  mem := []
  poison := []
  handles := []
  l2 := []
  merges := []
  frames := []
  waiters := []
  orphans := []
  released := []
  conts := []
  sent := []
  reports := []
  bins := []
  launches := []
  deposits := []
  placeQ := []
  pqueues := []
  scans := []
  vocabLast := []
  watch := []
  graphs := []
  teams := []
  ctxs := []
  cores := []
  ops := []
  writes := []
  ranges := []
  errHead := []
  errCount := []
  host := { invqbase := 0, invqsize := 0, invqtail := 0, invqdone := 0 }
  armWin := []
  linkUp := true
  reqEnable := false
  ports := []
  boundaries := []
  hinge := []
  replies := []
  channels := []
  copying := []
  spares := []
  sleeping := []
  firmware := { versions := [0, 0], digests := [0, 0], verified := [true, true], active := 0, fuses := 0, switched := []
                identity := 0 }
  hostRead := []
  agenda := []
  cur := none
  free := 0
  nextId := 0

end Sys2Proof.Machine
end

