-- ==== Sys2Proof/Machine/Access.lean ====
section
/-! DEFINITION. Reading and writing the parts of the state: contexts and their registers, splits, cores, teams and
graphs, and what the package reports of itself (R1, R2, R11, R12). -/

namespace Sys2Proof.Machine

/-! ## The package -/

/-- The number of compute dies (R1). -/
def State.dies (s : State) : Nat :=
  match s.variant with
  | .wz4 => 4 | .wz2 => 2 | .wz1 => 1

/-- The number of device links (R1). -/
def State.links (s : State) : Nat := 2 * s.dies

/-- `%caps` (R2). -/
def State.caps (s : State) : Word :=
  BitVec.ofNat 32 (s.dies * 2 ^ 16 + s.links * 2 ^ 12
    + (match s.variant with | .wz4 => 0b1011 * 2 ^ 8 | .wz2 => 0b0111 * 2 ^ 8 | .wz1 => 0b0100 * 2 ^ 8)
    + (if s.cxl then 2 ^ 7 else 0))

/-- The pair walker is present (R1). -/
def State.hasPairWalker (s : State) : Bool := s.variant != .wz1
/-- The vocabulary unit is present (R1). -/
def State.hasVocab (s : State) : Bool := s.variant != .wz1
/-- Vector-wise 2:4 sparsity; otherwise block bitmap (R1). -/
def State.vectorSparse (s : State) : Bool := s.variant == .wz4

/-- The die of a core (R11). -/
def dieOfCore (core : Nat) : Nat := core / 288
/-- The index of a core in its die. -/
def coreIndex (core : Nat) : Nat := core % 288
/-- The cluster of a core (R12). -/
def clusterOfCore (core : Nat) : Nat := 3 * dieOfCore core + coreIndex core / 96

/-! ## Parts of the state -/

/-- A core as it leaves reset (R355; the power state is log entry 7's). -/
def Core.fresh : Core where
  scratch := []
  scratchPoison := []
  l1 := []
  icache := []
  tlb := []
  blocks := []
  leafCache := []
  leafOrder := []
  latch := []
  swap := none
  lastReady := 0
  lastAwake := 0
  lastHeld := 0
  power := .c0
  powerSince := 0
  adverts := [0, 0]
  retired := false
  failed := false

/-- A core. -/
def State.core (s : State) (c : Nat) : Core := s.cores.at Core.fresh c
/-- Writes a core. -/
def State.setCore (s : State) (c : Nat) (k : Core) : State := { s with cores := s.cores.put Core.fresh c k }
/-- Changes a core. -/
def State.modCore (s : State) (c : Nat) (f : Core → Core) : State := s.setCore c (f (s.core c))
/-- Writes a context. -/
def State.setCtx (s : State) (id : Nat) (c : Ctx) : State := { s with ctxs := s.ctxs.ins id c }
/-- Changes a context. -/
def State.modCtx (s : State) (id : Nat) (f : Ctx → Ctx) : State := { s with ctxs := s.ctxs.modify id f }
/-- Changes a split of a context. -/
def State.modSplit (s : State) (id i : Nat) (f : Split → Split) : State :=
  s.modCtx id fun c => { c with splits := c.splits.modify i f }
/-- Changes a team. -/
def State.modTeam (s : State) (id : Nat) (f : Team → Team) : State := { s with teams := s.teams.modify id f }
/-- Changes a graph. -/
def State.modGraph (s : State) (id : Nat) (f : Graph → Graph) : State := { s with graphs := s.graphs.modify id f }
/-- Lists an operation under a fresh name. -/
def State.addOp (s : State) (o : Op) : State := { s with ops := s.ops.ins s.nextId o, nextId := s.nextId + 1 }
/-- Changes an operation. -/
def State.modOp (s : State) (id : Nat) (f : Op → Op) : State := { s with ops := s.ops.modify id f }

/-- The core where a context runs, or whose stores it owns. -/
def Ctx.core (c : Ctx) : Nat :=
  match c.loc with
  | .active k _ => k
  | .shadow k _ => k
  | .leaving k _ _ => k
  | .lodged _ => c.home
  | .pool _ => c.home

/-- The context is in a slot of the active bank. -/
def Ctx.isActive (c : Ctx) : Bool :=
  match c.loc with
  | .active _ _ => true
  | _ => false

/-- The context is in a slot of either bank of a core. -/
def Ctx.residentOn (c : Ctx) (core : Nat) : Bool :=
  match c.loc with
  | .active k _ => k == core
  | .shadow k _ => k == core
  | .leaving k _ _ => k == core
  | _ => false

/-- The bit of a line's mark mask that a context in a slot has (R237). -/
def Ctx.markBit (c : Ctx) : BitVec 32 :=
  match c.loc with
  | .active _ i => 1#32 <<< i
  | .shadow _ i => 1#32 <<< (16 + i)
  | .leaving _ i sh => 1#32 <<< (if sh then 16 + i else i)
  | _ => 0

/-- The task unit is the lane (R24). -/
def Ctx.perLane (c : Ctx) : Bool := c.node.kind == .lanes || c.node.kind == .reorder

/-! ## Registers (R13, R24, R97) -/

/-- Register `v`n in a lane. -/
def Ctx.vreg (c : Ctx) (n l : Nat) : Word := c.v.at 0 (64 * n + l)
/-- Writes `v`n in a lane. -/
def Ctx.setVreg (c : Ctx) (n l : Nat) (w : Word) : Ctx := { c with v := c.v.put 0 (64 * n + l) w }
/-- Register `s`n. -/
def Ctx.s (c : Ctx) (n : Nat) : Word := c.sreg.at 0 n
/-- Writes `s`n. -/
def Ctx.setS (c : Ctx) (n : Nat) (w : Word) : Ctx := { c with sreg := c.sreg.put 0 n w }
/-- Pair `q`(n/2). -/
def Ctx.q (c : Ctx) (n : Nat) : DWord := c.s (n + 1) ++ c.s n
/-- Writes pair `q`(n/2). -/
def Ctx.setQ (c : Ctx) (n : Nat) (x : DWord) : Ctx := (c.setS n (x.extractLsb' 0 32)).setS (n + 1) (x.extractLsb' 32 32)
/-- Pair `d`(n/2) in a lane. -/
def Ctx.d (c : Ctx) (n l : Nat) : DWord := c.vreg (n + 1) l ++ c.vreg n l
/-- Writes pair `d`(n/2) in a lane. -/
def Ctx.setD (c : Ctx) (n l : Nat) (x : DWord) : Ctx :=
  (c.setVreg n l (x.extractLsb' 0 32)).setVreg (n + 1) l (x.extractLsb' 32 32)
/-- Predicate `p`n; `p0` is always true (R97). -/
def Ctx.pred (c : Ctx) (n : Nat) : LaneMask := if n = 0 then BitVec.allOnes 64 else c.p.at 0 n
/-- Writes predicate `p`n in the lanes of a mask. -/
def Ctx.setPred (c : Ctx) (n : Nat) (mask bits : LaneMask) : Ctx :=
  { c with p := c.p.put 0 n ((c.p.at 0 n &&& ~~~mask) ||| (bits &&& mask)) }
/-- Scalar predicate `k`n; `k0` is always true (R97). -/
def Ctx.kpred (c : Ctx) (n : Nat) : Bool := n == 0 || c.k.getLsbD n
/-- Writes scalar predicate `k`n. -/
def Ctx.setK (c : Ctx) (n : Nat) (b : Bool) : Ctx :=
  { c with k := if b then c.k ||| (1#8 <<< n) else c.k &&& ~~~(1#8 <<< n) }
/-- A translation register; unbound at dispatch (R25). -/
def XReg.unbound : XReg :=
  { vbase := 0, pbase := 0, limit := 0, coh := false, write := false, read := false, stale := false, valid := false }
/-- Register `x`n. -/
def Ctx.xreg (c : Ctx) (n : Nat) : XReg := c.x.at XReg.unbound n
/-- Writes `x`n. -/
def Ctx.setXreg (c : Ctx) (n : Nat) (r : XReg) : Ctx := { c with x := c.x.put XReg.unbound n r }
/-- Every bound translation register becomes stale (R64). -/
def Ctx.staleRegs (c : Ctx) : Ctx :=
  { c with x := c.x.map fun r => (r.1, if r.2.valid then { r.2 with stale := true } else r.2) }
/-- A tile after placement (R51, R241). -/
def Tile.fresh : Tile :=
  { data := [], control := 0x08000000#32, codebook := [], badRows := [], badCodebook := false }
/-- Tile n. -/
def Ctx.tile (c : Ctx) (n : Nat) : Tile := c.tiles.at Tile.fresh n
/-- Bytes of a tile are written; a row that is written whole holds no error any more (R315). -/
def Tile.write (t : Tile) (cells : List (Nat × Byte)) : Tile :=
  let whole := fun r : Nat => (List.range 64).all fun i => cells.any fun e => e.1 == 64 * r + i
  { t with data := cells.foldl (fun m e => m.put 0 e.1 e.2) t.data, badRows := t.badRows.filter fun r => !whole r }
/-- Writes tile n. -/
def Ctx.setTile (c : Ctx) (n : Nat) (t : Tile) : Ctx := { c with tiles := c.tiles.put Tile.fresh n t }
/-- An accumulator block after placement (R51). -/
def AccBlock.fresh : AccBlock := { data := [], poison := 0 }
/-- Accumulator block n. -/
def Ctx.acc (c : Ctx) (n : Nat) : AccBlock := c.accs.at AccBlock.fresh n
/-- Writes accumulator block n. -/
def Ctx.setAcc (c : Ctx) (n : Nat) (b : AccBlock) : Ctx := { c with accs := c.accs.put AccBlock.fresh n b }

/-! ## Full/empty and poison (R105, R304) -/

/-- The location of `v`n in a lane. -/
def locV (n l : Nat) : Nat := 64 * n + l
/-- The location of `s`n. -/
def locS (n : Nat) : Nat := 16384 + n
/-- The location of tile n. -/
def locT (n : Nat) : Nat := 16448 + n
/-- The register of a location, under which its carried cause stands. -/
def regOfLoc (k : Nat) : Nat := if k < 16384 then k / 64 else k - 16384 + 256

/-- The location is empty. -/
def Ctx.isEmpty (c : Ctx) (k : Nat) : Bool := c.fills.look k == some .empty
/-- The location is poison-empty. -/
def Ctx.isPoisoned (c : Ctx) (k : Nat) : Bool := c.fills.look k == some .poisoned
/-- Empties locations. -/
def Ctx.emptyLocs (c : Ctx) (ks : List Nat) : Ctx := { c with fills := ks.foldl (fun m k => m.ins k .empty) c.fills }
/-- Makes locations full. -/
def Ctx.fillLocs (c : Ctx) (ks : List Nat) : Ctx := { c with fills := ks.foldl (fun m k => m.del k) c.fills }
/-- Makes locations poison-empty with a cause; a newer cause replaces the register's older one (R304). -/
def Ctx.poisonLocs (c : Ctx) (ks : List Nat) (cause : Cause) (detail : Nat) : Ctx :=
  { c with
    fills := ks.foldl (fun m k => m.ins k .poisoned) c.fills
    carried := ks.foldl (fun m k => m.ins (regOfLoc k) ⟨cause, detail⟩) c.carried }
/-- The cause that a location's register carries. -/
def Ctx.carriedAt (c : Ctx) (k : Nat) : Carried := c.carried.at ⟨.poison, 0⟩ (regOfLoc k)

/-- The locations of `count` registers from `n`, in `s` or in the lanes of a mask of `v`. -/
def locsOf (scalar : Bool) (n count : Nat) (mask : LaneMask) : List Nat :=
  if scalar then tabulate count fun i => locS (n + i)
  else (List.range count).flatMap fun i => (lanesOf mask).map fun l => locV (n + i) l

/-- The location of register n+i of a destination, in `s` or in a lane of `v`. -/
def locAt (scalar : Bool) (n l : Nat) : Nat := if scalar then locS n else locV n l

/-- Writes a word at a location of `v` or `s` and makes it full (R304). -/
def Ctx.writeLoc (c : Ctx) (k : Nat) (w : Word) : Ctx :=
  let c := if k < 16384 then { c with v := c.v.put 0 k w } else c.setS (k - 16384) w
  { c with fills := c.fills.del k }

/-- A register `s`n as a handler's entry saves it (R300, R304). -/
def Ctx.saveS (c : Ctx) (n : Nat) : Saved := ⟨c.s n, c.fills.look (locS n), c.carried.look (regOfLoc (locS n))⟩

/-- Register `s`n is as it was saved: its word, its full/empty state and the cause that it carries (R301). -/
def Ctx.restoreS (c : Ctx) (n : Nat) (r : Saved) : Ctx :=
  { c.setS n r.word with
    fills := match r.fill with
      | none => c.fills.del (locS n)
      | some f => c.fills.ins (locS n) f
    carried := match r.cause with
      | none => c.carried.del (regOfLoc (locS n))
      | some x => c.carried.ins (regOfLoc (locS n)) x }

/-- `s48` to `s57` as they stand, in the order of their numbers. -/
def Ctx.entryRegs (c : Ctx) : List Saved := tabulate 10 fun j => c.saveS (48 + j)

/-- `s48` to `s57` are as they were saved. -/
def Ctx.putEntryRegs (c : Ctx) (rs : List Saved) : Ctx :=
  rs.zipIdx.foldl (fun c e => c.restoreS (48 + e.2) e.1) c

/-- The group's `s48` to `s57` change places with those that its handler's entry saved (R300). -/
def Ctx.exchange (c : Ctx) : Ctx :=
  match c.handler with
  | none => c
  | some h => { c.putEntryRegs h.saved with handler := some { h with saved := c.entryRegs } }

/-- Operation n was issued while a handler ran that has returned. -/
def Ctx.isShut (c : Ctx) (n : Nat) : Bool := c.shut.any fun e => decide (e.1 ≤ n) && decide (n < e.2)

/-- What operation n does to registers of its group: where it was issued before the group's handler was entered, its
destinations among `s48` to `s57` are the saved ones, and where it was issued while a handler ran that has returned, those
registers stay as the return restored them (R300, R301, R308). -/
def Ctx.behind (c : Ctx) (n : Nat) (f : Ctx → Ctx) : Ctx :=
  let g := fun c : Ctx => if c.isShut n then (f c).putEntryRegs c.entryRegs else f c
  match c.handler with
  | some h => if n < h.mark then (g c.exchange).exchange else g c
  | none => g c

/-- Flags are ORed into `%fpst` (R79). -/
def Ctx.postFlags (c : Ctx) (fl : BitVec 5) : Ctx :=
  { c with special := { c.special with fpst := c.special.fpst ||| fl.setWidth 32 } }

/-! ## Event counters (R140) -/

/-- The events that count memory requests, to which `RHF` applies. -/
def perfUsesHandle (ev : Nat) : Bool := 0x10 ≤ ev && ev ≤ 0x20

/-- Counts n occurrences of an event in every counter configured for it. -/
def Ctx.count (c : Ctx) (ev handle n : Nat) : Ctx :=
  let perf := c.special.perfConfig.foldl (fun m e =>
    if e.2.enable && e.2.event.toNat == ev && (!perfUsesHandle ev || e.2.handle == 0 || e.2.handle.toNat == handle) then
      m.put 0 e.1 (m.at 0 e.1 + BitVec.ofNat 64 n)
    else m) c.special.perf
  { c with special := { c.special with perf := perf } }

/-- Counts an event of a context. -/
def State.countEvent (s : State) (id ev handle n : Nat) : State := s.modCtx id fun c => c.count ev handle n

/-! ## Who is where -/

/-- The contexts in a slot of a core, of either bank. -/
def State.residents (s : State) (core : Nat) : List (Nat × Ctx) := s.ctxs.filter fun e => e.2.residentOn core

/-- The address space of a context's graph: the physical address of its root table (R319). -/
def State.asroot (s : State) (g : Nat) : Nat := ((s.graphs.look g).map (·.asroot)).getD 0

/-- The core number by logical index in a cluster of the issuing core (R48). -/
def clusterCore (core index : Nat) : Nat := dieOfCore core * 288 + coreIndex core / 96 * 96 + index

end Sys2Proof.Machine
end

