-- ==== Sys2Proof/Machine/Flags.lean ====
section
/-! DEFINITION. Numbers: the floating-point formats (R71, R72), rounding (R76, R77), the flags (R80, R81), NaN results
(R83, R84), the operations of R92 and R163 to R166, and conversions (R85). Every result comes with its flags in the order
of `%fpst` (R79). -/

namespace Sys2Proof

/-! ## Flags (R79) -/

/-- The five flags of `%fpst`. -/
abbrev Flags := BitVec 5

/-- Invalid. -/
def flagIV : Flags := 0b10000#5
/-- Divide-by-zero. -/
def flagDZ : Flags := 0b01000#5
/-- Overflow. -/
def flagOF : Flags := 0b00100#5
/-- Underflow. -/
def flagUF : Flags := 0b00010#5
/-- Inexact. -/
def flagNX : Flags := 0b00001#5

/-- A flag, or none. -/
def flagIf (b : Bool) (f : Flags) : Flags := if b then f else 0

/-! ## Formats (R71, R72) -/

/-- A floating-point format: exponent and fraction bits; E4M3 has no infinity. -/
structure Fmt where
  ebits : Nat
  fbits : Nat
  inf : Bool
deriving DecidableEq, Repr

/-- The format of a floating-point type. -/
def Ty.fmt (t : Ty) : Fmt :=
  match t with
  | .f64 => ⟨11, 52, true⟩
  | .f16 => ⟨5, 10, true⟩
  | .bf16 => ⟨8, 7, true⟩
  | .e4m3 => ⟨4, 3, false⟩
  | .e5m2 => ⟨5, 2, true⟩
  | _ => ⟨8, 23, true⟩

/-- The bits of a pattern. -/
def Fmt.width (f : Fmt) : Nat := 1 + f.ebits + f.fbits
/-- The exponent bias. -/
def Fmt.bias (f : Fmt) : Nat := 2 ^ (f.ebits - 1) - 1
/-- The exponent of the smallest normal. -/
def Fmt.emin (f : Fmt) : Int := 1 - (f.bias : Int)
/-- The sign bit as a number. -/
def Fmt.signBit (f : Fmt) : Nat := 2 ^ (f.ebits + f.fbits)
/-- The exponent field all ones. -/
def Fmt.topExp (f : Fmt) : Nat := 2 ^ f.ebits - 1
/-- The magnitude pattern of infinity, and of the only NaN less one in E4M3. -/
def Fmt.infPattern (f : Fmt) : Nat := f.topExp * 2 ^ f.fbits
/-- The magnitude pattern of the largest finite value. -/
def Fmt.maxPattern (f : Fmt) : Nat := if f.inf then f.infPattern - 1 else f.infPattern + 2 ^ f.fbits - 2
/-- The canonical quiet NaN (R72). -/
def Fmt.nan (f : Fmt) : Nat := if f.inf then f.infPattern + 2 ^ (f.fbits - 1) else f.infPattern + 2 ^ f.fbits - 1

/-- What a pattern stands for (R71). A finite value is `mag`·2^`exp`. -/
inductive FVal where
  | nan (neg quiet : Bool)
  | inf (neg : Bool)
  | fin (neg : Bool) (mag : Nat) (exp : Int)
deriving DecidableEq, Repr

/-- The value of a pattern; with `ftz` a subnormal reads as a zero of its sign (R81). -/
def Fmt.value (f : Fmt) (ftz : Bool) (x : Nat) : FVal :=
  let neg := x / f.signBit % 2 == 1
  let e := x / 2 ^ f.fbits % 2 ^ f.ebits
  let frac := x % 2 ^ f.fbits
  if e = f.topExp && f.inf then
    if frac = 0 then .inf neg else .nan neg (frac / 2 ^ (f.fbits - 1) == 1)
  else if e = f.topExp && frac = 2 ^ f.fbits - 1 then .nan neg true
  else if e = 0 then .fin neg (if ftz then 0 else frac) (f.emin - f.fbits)
  else .fin neg (2 ^ f.fbits + frac) ((e : Int) - f.bias - f.fbits)

/-- The pattern of a sign and a magnitude pattern. -/
def Fmt.signed (f : Fmt) (neg : Bool) (x : Nat) : Nat := if neg then f.signBit + x else x

/-- The pattern is a NaN. -/
def Fmt.isNan (f : Fmt) (x : Nat) : Bool :=
  match f.value false x with
  | .nan _ _ => true
  | _ => false

/-- The pattern is a signalling NaN (R72). -/
def Fmt.isSignalling (f : Fmt) (x : Nat) : Bool :=
  match f.value false x with
  | .nan _ quiet => !quiet
  | _ => false

/-- A NaN with its quiet bit set (R83); both E4M3 NaNs are quiet. -/
def Fmt.quieten (f : Fmt) (x : Nat) : Nat := if f.inf then x ||| 2 ^ (f.fbits - 1) else x

/-! ## Rounding (R76, R77, R81) -/

/-- The number of bits of a number. -/
def bitLength (n : Nat) : Nat := if n = 0 then 0 else Nat.log2 n + 1

/-- An exact magnitude m·2^e, or, with `more`, one strictly between m·2^e and (m + 1)·2^e. -/
structure Exact where
  neg : Bool
  mag : Nat
  exp : Int
  more : Bool
deriving DecidableEq, Repr

/-- The magnitude rounded to a multiple of 2^(`exp` + `shift`), in those units, and whether that is inexact. -/
def Exact.atShift (x : Exact) (shift : Int) (mode : Rnd) : Nat × Bool :=
  if shift ≤ 0 then (x.mag * 2 ^ (-shift).toNat, x.more)
  else
    let n := shift.toNat
    let q := x.mag / 2 ^ n
    let r := x.mag % 2 ^ n
    let half := 2 ^ (n - 1)
    let inexact := r != 0 || x.more
    let up := match mode with
      | .rtz => false
      | .rdn => x.neg && inexact
      | .rup => !x.neg && inexact
      | .rna => decide (half ≤ r)
      | _ => decide (half < r) || (r == half && (x.more || q % 2 == 1))
    (if up then q + 1 else q, inexact)

/-- The result of an overflow (R77); E4M3 has a NaN for an infinity (R85). -/
def Fmt.overflow (f : Fmt) (neg : Bool) (mode : Rnd) : Nat :=
  let toInf := match mode with
    | .rtz => false
    | .rdn => neg
    | .rup => !neg
    | _ => true
  f.signed neg (if toInf then (if f.inf then f.infPattern else f.nan) else f.maxPattern)

/-- Rounds a nonzero exact value into a format (R77, R80, R81): first as if the exponent were unbounded, then the rules
for overflow, flushing and underflow. -/
def Fmt.round (f : Fmt) (mode : Rnd) (ftz : Bool) (x : Exact) : Nat × Flags :=
  let lead := x.exp + bitLength x.mag - 1
  let (q, inexact) := x.atShift (lead - f.fbits - x.exp) mode
  let lead' := if q = 2 ^ (f.fbits + 1) then lead + 1 else lead
  let q' := if q = 2 ^ (f.fbits + 1) then 2 ^ f.fbits else q
  if lead' < f.emin then
    if ftz then (f.signed x.neg 0, flagUF ||| flagNX)
    else
      let (d, inexact) := x.atShift (f.emin - f.fbits - x.exp) mode
      (f.signed x.neg d, flagIf inexact (flagUF ||| flagNX))
  else
    let pattern := (lead' + f.bias).toNat * 2 ^ f.fbits + (q' - 2 ^ f.fbits)
    if f.maxPattern < pattern then (f.overflow x.neg mode, flagOF ||| flagNX)
    else (f.signed x.neg pattern, flagIf inexact flagNX)

/-- How an operation rounds: its mode and `%fpctl.FTZ`. -/
structure FpEnv where
  mode : Rnd
  ftz : Bool
deriving DecidableEq, Repr

/-- Rounds a signed exact value n·2^e; an exact zero takes the sign given. -/
def Fmt.roundInt (f : Fmt) (env : FpEnv) (n : Int) (e : Int) (zeroNeg : Bool) : Nat × Flags :=
  if n = 0 then (f.signed zeroNeg 0, 0)
  else f.round env.mode env.ftz ⟨decide (n < 0), n.natAbs, e, false⟩

/-! ## NaN results (R83) -/

/-- The first NaN of some operands, quietened, with `IV` for a signalling one among them. -/
def Fmt.nanOf (f : Fmt) (xs : List Nat) : Option (Nat × Flags) :=
  (xs.find? f.isNan).map fun x => (f.quieten x, flagIf (xs.any f.isSignalling) flagIV)

/-- An invalid operation without a NaN operand. -/
def Fmt.invalid (f : Fmt) : Nat × Flags := (f.nan, flagIV)

/-- The operation on operands of which none is a NaN, or their NaN. -/
def Fmt.orNan (f : Fmt) (xs : List Nat) (r : Nat × Flags) : Nat × Flags := (f.nanOf xs).getD r

/-- A signed mantissa at a common exponent. -/
def scaled (neg : Bool) (mag : Nat) (exp low : Int) : Int :=
  let n : Int := (mag * 2 ^ (exp - low).toNat : Nat)
  if neg then -n else n

/-! ## The operations (R92, R163) -/

/-- The sum of two values that are no NaNs. -/
def Fmt.sum (f : Fmt) (env : FpEnv) (a b : FVal) : Nat × Flags :=
  match a, b with
  | .inf n, .inf m => if n = m then (f.signed n f.infPattern, 0) else f.invalid
  | .inf n, _ => (f.signed n f.infPattern, 0)
  | _, .inf n => (f.signed n f.infPattern, 0)
  | .fin n m e, .fin n' m' e' =>
    let low := min e e'
    let zeroNeg := if n = n' then n else env.mode == .rdn
    f.roundInt env (scaled n m e low + scaled n' m' e' low) low zeroNeg
  | _, _ => f.invalid

/-- `fadd_T(a, b, m)`. -/
def Fmt.add (f : Fmt) (env : FpEnv) (a b : Nat) : Nat × Flags :=
  f.orNan [a, b] (f.sum env (f.value env.ftz a) (f.value env.ftz b))

/-- A value with its sign inverted. -/
def FVal.negated : FVal → FVal
  | .nan n q => .nan n q
  | .inf n => .inf !n
  | .fin n m e => .fin (!n) m e

/-- `fsub_T(a, b, m)`. -/
def Fmt.sub (f : Fmt) (env : FpEnv) (a b : Nat) : Nat × Flags :=
  f.orNan [a, b] (f.sum env (f.value env.ftz a) (f.value env.ftz b).negated)

/-- The exact product of two values; none for 0 × ∞ or a NaN. -/
def FVal.times (a b : FVal) : Option FVal :=
  match a, b with
  | .fin n m e, .fin n' m' e' => some (.fin (n != n') (m * m') (e + e'))
  | .inf n, .inf n' => some (.inf (n != n'))
  | .inf n, .fin n' m _ => if m = 0 then none else some (.inf (n != n'))
  | .fin n m _, .inf n' => if m = 0 then none else some (.inf (n != n'))
  | _, _ => none

/-- `fmul_T(a, b, m)`. -/
def Fmt.mul (f : Fmt) (env : FpEnv) (a b : Nat) : Nat × Flags :=
  f.orNan [a, b] (match (f.value env.ftz a).times (f.value env.ftz b) with
    | none => f.invalid
    | some (.fin n m e) => f.roundInt env (scaled n m 0 0) e n
    | some (.inf n) => (f.signed n f.infPattern, 0)
    | some (.nan _ _) => f.invalid)

/-- `fma_T(a, b, c, m)`: one rounding; 0 × ∞ raises `IV` even when c is a NaN (R83). -/
def Fmt.fma (f : Fmt) (env : FpEnv) (a b c : Nat) : Nat × Flags :=
  let product := (f.value env.ftz a).times (f.value env.ftz b)
  match f.nanOf [a, b, c] with
  | some (x, fl) => (x, fl ||| flagIf (product.isNone && !f.isNan a && !f.isNan b) flagIV)
  | none =>
    match product with
    | none => f.invalid
    | some p => f.sum env p (f.value env.ftz c)

/-- The integer square root of n, built from bit `k` down. -/
def isqrtFrom (n : Nat) : Nat → Nat → Nat
  | 0, r => if (r + 1) * (r + 1) ≤ n then r + 1 else r
  | k + 1, r => isqrtFrom n k (if (r + 2 ^ (k + 1)) * (r + 2 ^ (k + 1)) ≤ n then r + 2 ^ (k + 1) else r)

/-- The integer square root. -/
def isqrt (n : Nat) : Nat := isqrtFrom n (bitLength n / 2 + 1) 0

/-- The quotient of two nonzero finite values, to more bits than any format holds. -/
def quotient (neg : Bool) (m : Nat) (e : Int) (m' : Nat) (e' : Int) : Exact :=
  let n := m * 2 ^ 128
  ⟨neg, n / m', e - 128 - e', n % m' != 0⟩

/-- `fdiv` (R163). -/
def Fmt.div (f : Fmt) (env : FpEnv) (a b : Nat) : Nat × Flags :=
  f.orNan [a, b] (match f.value env.ftz a, f.value env.ftz b with
    | .inf _, .inf _ => f.invalid
    | .inf n, .fin n' _ _ => (f.signed (n != n') f.infPattern, 0)
    | .fin n _ _, .inf n' => (f.signed (n != n') 0, 0)
    | .fin n m e, .fin n' m' e' =>
      if m' = 0 then (if m = 0 then f.invalid else (f.signed (n != n') f.infPattern, flagDZ))
      else if m = 0 then (f.signed (n != n') 0, 0)
      else f.round env.mode env.ftz (quotient (n != n') m e m' e')
    | _, _ => f.invalid)

/-- The square root of a positive value, to more bits than any format holds. -/
def rootOf (m : Nat) (e : Int) : Exact :=
  let (m, e) := if e % 2 = 0 then (m, e) else (2 * m, e - 1)
  let n := m * 2 ^ 256
  let r := isqrt n
  ⟨false, r, e / 2 - 128, r * r != n⟩

/-- `fsqrt` (R163). -/
def Fmt.sqrt (f : Fmt) (env : FpEnv) (a : Nat) : Nat × Flags :=
  f.orNan [a] (match f.value env.ftz a with
    | .inf n => if n then f.invalid else (f.infPattern, 0)
    | .fin n m e =>
      if m = 0 then (f.signed n 0, 0)
      else if n then f.invalid
      else f.round env.mode env.ftz (rootOf m e)
    | .nan _ _ => f.invalid)

/-- `frcp` (R163): RNE. -/
def Fmt.rcp (f : Fmt) (ftz : Bool) (a : Nat) : Nat × Flags :=
  f.orNan [a] (match f.value ftz a with
    | .inf n => (f.signed n 0, 0)
    | .fin n m e =>
      if m = 0 then (f.signed n f.infPattern, flagDZ)
      else f.round .rne ftz (quotient n 1 0 m e)
    | .nan _ _ => f.invalid)

/-- `frsq` (R163): RNE. The root of the reciprocal, m^-1·2^-e, is taken to 256 bits. -/
def Fmt.rsq (f : Fmt) (ftz : Bool) (a : Nat) : Nat × Flags :=
  f.orNan [a] (match f.value ftz a with
    | .inf n => if n then f.invalid else (0, 0)
    | .fin n m e =>
      if m = 0 then (f.signed n f.infPattern, flagDZ)
      else if n then f.invalid
      else
        let (m, e) := if e % 2 = 0 then (m, e) else (2 * m, e - 1)
        let q := 2 ^ 512 / m
        let r := isqrt q
        f.round .rne ftz ⟨false, r, -(e / 2) - 256, r * r * m != 2 ^ 512⟩
    | .nan _ _ => f.invalid)

/-- `frint` (R163): an integral value; no `NX`. -/
def Fmt.rint (f : Fmt) (env : FpEnv) (a : Nat) : Nat × Flags :=
  f.orNan [a] (match f.value env.ftz a with
    | .inf n => (f.signed n f.infPattern, 0)
    | .fin n m e =>
      if m = 0 then (f.signed n 0, 0)
      else if 0 ≤ e then (a, 0)
      else
        let (q, _) := Exact.atShift ⟨n, m, e, false⟩ (-e) env.mode
        ((f.roundInt ⟨.rne, false⟩ (scaled n q 0 0) 0 n).1, 0)
    | .nan _ _ => f.invalid)

/-- `fscal` (R163): a·2^n, with n clamped to where every format over- or underflows alike. -/
def Fmt.scal (f : Fmt) (env : FpEnv) (a : Nat) (n : Int) : Nat × Flags :=
  let k : Int := if n < -8192 then -8192 else if 8192 < n then 8192 else n
  f.orNan [a] (match f.value env.ftz a with
    | .inf s => (f.signed s f.infPattern, 0)
    | .fin s m e => f.roundInt env (scaled s m 0 0) (e + k) s
    | .nan _ _ => f.invalid)

/-! ## Comparison (R164 to R166) -/

/-- The order of two values that are no NaNs, zeros equal: -1, 0 or 1. -/
def FVal.order (a b : FVal) : Int :=
  let cmp := fun x y : Int => if x < y then (-1 : Int) else if y < x then 1 else 0
  match a, b with
  | .inf n, .inf m => cmp (if n then 0 else 1) (if m then 0 else 1)
  | .inf n, _ => if n then -1 else 1
  | _, .inf n => if n then 1 else -1
  | .fin n m e, .fin n' m' e' => let low := min e e'; cmp (scaled n m e low) (scaled n' m' e' low)
  | _, _ => 0

/-- The sign of a value. -/
def FVal.neg : FVal → Bool
  | .nan n _ => n
  | .inf n => n
  | .fin n _ _ => n

/-- The pattern an operand reads as: with `ftz` a subnormal is a zero of its sign. -/
def Fmt.flushed (f : Fmt) (ftz : Bool) (x : Nat) : Nat :=
  match f.value ftz x with
  | .fin n 0 _ => f.signed n 0
  | _ => x

/-- `fmin` and `fmax` (R164). -/
def Fmt.minMax (f : Fmt) (ftz greater : Bool) (a b : Nat) : Nat × Flags :=
  let iv := flagIf (f.isSignalling a || f.isSignalling b) flagIV
  let a' := f.flushed ftz a
  let b' := f.flushed ftz b
  if f.isNan a && f.isNan b then (f.quieten a, iv)
  else if f.isNan a then (b', iv)
  else if f.isNan b then (a', iv)
  else
    let va := f.value ftz a
    let vb := f.value ftz b
    let o := va.order vb
    let aLess := decide (o < 0) || (o == 0 && va.neg && !vb.neg)
    (if aLess != greater then a' else b', 0)

/-- `fcmp` (R103, R165): the truth of a condition and `IV`. -/
def Fmt.compare (f : Fmt) (ftz : Bool) (cond a b : Nat) : Bool × Flags :=
  let nan := f.isNan a || f.isNan b
  let sig := f.isSignalling a || f.isSignalling b
  let o := (f.value ftz a).order (f.value ftz b)
  match cond with
  | 0 => (!nan && o == 0, flagIf sig flagIV)
  | 1 => (nan || o != 0, flagIf sig flagIV)
  | 2 => (!nan && decide (o < 0), flagIf nan flagIV)
  | 3 => (!nan && decide (o ≤ 0), flagIf nan flagIV)
  | 4 => (!nan && decide (0 < o), flagIf nan flagIV)
  | 5 => (!nan && decide (0 ≤ o), flagIf nan flagIV)
  | 6 => (!nan, flagIf sig flagIV)
  | _ => (nan, flagIf sig flagIV)

/-- `fclass` (R166). -/
def Fmt.classOf (f : Fmt) (x : Nat) : Nat :=
  match f.value false x with
  | .nan _ q => if q then 2 else 1
  | .inf n => if n then 4 else 512
  | .fin n m _ =>
    if m = 0 then (if n then 32 else 64)
    else if m < 2 ^ f.fbits then (if n then 16 else 128)
    else (if n then 8 else 256)

/-! ## Conversions (R85) -/

/-- The integer that a pattern of an integer type stands for; b types read as unsigned (R85). -/
def Ty.intValue (t : Ty) (x : Nat) : Int :=
  let y := x % 2 ^ t.width
  if t.signed && decide (2 ^ (t.width - 1) ≤ y) then (y : Int) - 2 ^ t.width else y

/-- The pattern of an integer, low bits kept. -/
def Ty.wrap (t : Ty) (n : Int) : Nat := (n % 2 ^ t.width).toNat

/-- `sat_int` (R92): clamped to the range of the type. -/
def Ty.clamp (t : Ty) (n : Int) : Nat :=
  let lo : Int := if t.signed then -(2 ^ (t.width - 1)) else 0
  let hi : Int := if t.signed then 2 ^ (t.width - 1) - 1 else 2 ^ t.width - 1
  t.wrap (if n < lo then lo else if hi < n then hi else n)

/-- The integer is in the range of the type. -/
def Ty.inRange (t : Ty) (n : Int) : Bool := t.intValue (t.wrap n) == n

/-- A NaN of one format in another (R83). -/
def convertNan (src dst : Fmt) (x : Nat) : Nat :=
  let neg := x / src.signBit % 2 == 1
  if !dst.inf then dst.signed neg dst.nan
  else
    let frac := x % 2 ^ src.fbits
    let moved := if src.fbits ≤ dst.fbits then frac * 2 ^ (dst.fbits - src.fbits) else frac / 2 ^ (src.fbits - dst.fbits)
    dst.quieten (dst.signed neg (dst.infPattern + moved))

/-- A conversion that `SAT` clamps: one to another format that is no wider (R85, R168). -/
def clampsInto (src dst : Fmt) : Bool := decide (dst.signBit ≤ src.signBit) && src != dst

/-- Float to float (R85). -/
def convertFloat (src dst : Fmt) (env : FpEnv) (sat : Bool) (x : Nat) : Nat × Flags :=
  match src.value env.ftz x with
  | .nan _ q => (convertNan src dst x, flagIf (!q) flagIV)
  | .inf n =>
    if sat && clampsInto src dst then (dst.signed n dst.maxPattern, 0)
    else if dst.inf then (dst.signed n dst.infPattern, 0)
    else (dst.signed n dst.nan, flagIV)
  | .fin n m e =>
    let r := dst.roundInt env (scaled n m 0 0) e n
    if sat && r.2 &&& flagOF != 0 then (dst.signed n dst.maxPattern, r.2) else r

/-- Float to integer (R85). -/
def convertToInt (src : Fmt) (dst : Ty) (env : FpEnv) (x : Nat) : Nat × Flags :=
  match src.value env.ftz x with
  | .nan _ _ => (0, flagIV)
  | .inf n => (dst.clamp (if n then -(2 ^ 64) else 2 ^ 64), flagIV)
  | .fin n m e =>
    let (q, inexact) := Exact.atShift ⟨n, m, e, false⟩ (-e) env.mode
    let v := scaled n q 0 0
    if dst.inRange v then (dst.wrap v, flagIf inexact flagNX) else (dst.clamp v, flagIV)

/-- Integer to float (R85). -/
def convertFromInt (src : Ty) (dst : Fmt) (env : FpEnv) (sat : Bool) (x : Nat) : Nat × Flags :=
  let v := src.intValue x
  let r := dst.roundInt env v 0 false
  if sat && r.2 &&& flagOF != 0 then (dst.signed (decide (v < 0)) dst.maxPattern, r.2) else r

/-- `cvt(x, from, to, mode, sat)` (R85): the pattern in the destination's width and the flags. -/
def convert (src dst : Ty) (env : FpEnv) (sat : Bool) (x : Nat) : Nat × Flags :=
  let x := x % 2 ^ src.width
  if src.float && dst.float then convertFloat src.fmt dst.fmt env sat x
  else if src.float then convertToInt src.fmt dst env x
  else if dst.float then convertFromInt src dst.fmt env sat x
  else if sat && decide (dst.width ≤ src.width) then (dst.clamp (src.intValue x), 0)
  else (dst.wrap (src.intValue x), 0)

/-! ## `%fpctl` (R78) and `%fpst` (R79) -/

/-- The rounding mode of `%fpctl.RM`; its three codes that name no mode are never held. -/
def dynamicMode (fpctl : Word) : Rnd :=
  match bitsOf fpctl 2 0 with
  | 1 => .rtz | 2 => .rdn | 3 => .rup | 4 => .rna | _ => .rne

/-- How an instruction of rounding code `r` rounds (R76, R81). -/
def fpEnv (fpctl : Word) (r : Rnd) : FpEnv :=
  { mode := match r with | .dyn => dynamicMode fpctl | _ => r, ftz := bitOf fpctl 3 }

/-- The flags whose trap enable is set (R82). -/
def enabledFlags (fpctl : Word) (f : Flags) : Flags := f &&& fpctl.extractLsb' 4 5

/-- A write of `%fpctl` (R78): reserved bits stay 0, and a rounding mode that names none leaves `RM` unchanged. -/
def writeFpctl (old new : Word) : Word :=
  let rm := if bitsOf new 2 0 ≤ 4 then bitsOf new 2 0 else bitsOf old 2 0
  BitVec.ofNat 32 (bitsOf new 8 3 * 8 + rm)

/-- A write of `%fpst` clears each bit written as 1 (R79). -/
def writeFpst (old new : Word) : Word := old &&& ~~~new &&& 0x1F#32

/-! ## Sums over a group: results and flags of a list -/

/-- The flags of a list of results together. -/
def allFlags (rs : List (Nat × Flags)) : Flags := rs.foldl (fun m r => m ||| r.2) 0

end Sys2Proof
end

