-- ==== Sys2Proof/Machine/Products.lean ====
section
/-! DEFINITION. The arithmetic of the matrix engine: operand elements (R74, R75, R240), the pairs of formats (R253), sparse
elements (R255) and the k-group sums (R84, R86, R87). -/

namespace Sys2Proof

open Machine

/-! ## Formats of tiles (R240) -/

/-- `FMT` of a tile's control register (R241). -/
def Machine.Tile.fmt (t : Tile) : Nat := bitsOf t.control 31 28
/-- `ROWS` of a tile's control register (R241). -/
def Machine.Tile.rows (t : Tile) : Nat := bitsOf t.control 27 22

/-- KT: the elements of a row (R240); none for a code that no matrix operand has. -/
def tileLength (fmt : Nat) : Nat :=
  match fmt with
  | 1 => 8 | 2 => 16 | 3 => 32 | 4 => 32 | 5 => 64 | 6 => 64 | 7 => 64 | 8 => 128 | _ => 0

/-- The floating-point type of a format code; a CB4 code stands for a BF16 value (R74). -/
def tileType (fmt : Nat) : Ty :=
  match fmt with
  | 1 => .f64 | 2 => .f32 | 4 => .f16 | 5 => .e4m3 | 6 => .e5m2 | _ => .bf16

/-- A narrow format that accumulates in FP32 (R253). -/
def narrowFmt (fmt : Nat) : Bool := fmt == 8 || decide (3 ≤ fmt ∧ fmt ≤ 6)

/-- The accumulator formats (R249). -/
inductive AccFmt where
  | fp32 | s32 | fp64
deriving DecidableEq, Repr

/-- The accumulator format and G of a pair of formats, none where it is no pair (R253, R86). -/
def pairOf (fa fb : Nat) : Option (AccFmt × Nat) :=
  if narrowFmt fa && narrowFmt fb then some (.fp32, if fa = 3 || fa = 4 || fb = 3 || fb = 4 then 8 else 16)
  else if fa = 7 && fb = 7 then some (.s32, 16)
  else if fa = 2 && fb = 2 then some (.fp32, 4)
  else if fa = 1 && fb = 1 then some (.fp64, 1)
  else none

/-! ## Elements (R240) -/

/-- `cb4_code` (R75): code i of the segment that starts at a byte. -/
def cb4Code (data : SMap Byte) (segment i : Nat) : Nat :=
  let b := (data.at 0 (segment + i % 64)).toNat
  if i < 64 then b % 16 else b / 16

/-- The pattern of element k of row r of a tile image; that of a CB4 element is its codebook entry (R74). -/
def elementBits (fmt : Nat) (data : SMap Byte) (book : SMap (BitVec 16)) (r k : Nat) : Nat :=
  if fmt = 8 then (book.at 0 (cb4Code data (64 * r) k)).toNat
  else
    let size := 64 / tileLength fmt
    natOfBytes (tabulate size fun i => data.at 0 (64 * r + k * size + i))

/-- The signed value of an S8 pattern. -/
def s8Value (x : Nat) : Int := if x < 128 then x else (x : Int) - 256

/-! ## Sparse operands (R255) -/

/-- Bit i of a metadata tile. -/
def metaBit (meta_ : SMap Byte) (i : Nat) : Bool := (meta_.at 0 (i / 8)).getLsbD (i % 8)

/-- The metadata of a vector (R255): a bitmap has KT ÷ 4 bits, of which at most KT ÷ 8 are set; a 2:4 group has two rising
numbers. -/
def metaOk (kind kt : Nat) (meta_ : SMap Byte) (v : Nat) : Bool :=
  if kind = 2 then
    decide (((List.range (kt / 4)).filter fun j => metaBit meta_ (kt / 4 * v + j)).length ≤ kt / 8)
  else
    (List.range (kt / 2)).all fun g =>
      let b := 4 * (v * (kt / 2) + g)
      let n := fun i : Nat => (if metaBit meta_ (b + i) then 1 else 0) + (if metaBit meta_ (b + i + 1) then 2 else 0)
      decide (n 0 < n 2)

/-- The place in row m of the stored element that stands for dense element k, none where it is pruned (R255); kind 1 and 4
are dense. -/
def storedAt (kind kt : Nat) (meta_ : SMap Byte) (m k : Nat) : Option Nat :=
  let v := m / 4
  match kind with
  | 2 =>
    let bit := fun j : Nat => metaBit meta_ (kt / 4 * v + j)
    if bit (k / 8) then some (8 * ((List.range (k / 8)).filter bit).length + k % 8) else none
  | 3 =>
    let b := 4 * (v * (kt / 2) + k / 4)
    let n := fun i : Nat => (if metaBit meta_ (b + i) then 1 else 0) + (if metaBit meta_ (b + i + 1) then 2 else 0)
    if k % 4 = n 0 then some (2 * (k / 4)) else if k % 4 = n 2 then some (2 * (k / 4) + 1) else none
  | _ => some k

/-! ## k-group sums (R86, R84) -/

/-- The exact product of two values; a NaN for a NaN operand and for 0 × ∞. -/
def exactProduct (a b : FVal) : FVal × Flags :=
  let quiet := fun x : FVal => match x with
    | .nan _ q => q
    | _ => true
  match a.times b with
  | some p => (p, 0)
  | none =>
    let nan := match a, b with
      | .nan _ _, _ => true
      | _, .nan _ _ => true
      | _, _ => false
    (.nan false true, flagIf (!nan || !quiet a || !quiet b) flagIV)

/-- The exact sum of finite values from a common exponent up. -/
def exactSum (ps : List FVal) : FVal :=
  let low := ps.foldl (fun m p => match p with
    | .fin _ _ e => min m e
    | _ => m) 0
  let n := ps.foldl (fun (n : Int) p => match p with
    | .fin s m e => n + scaled s m e low
    | _ => n) 0
  .fin (decide (n < 0)) n.natAbs low

/-- The sum of a group of products: a NaN for a NaN or infinities of both signs among them. -/
def groupSum (ps : List FVal) : FVal × Flags :=
  let has := fun f : FVal → Bool => ps.any f
  let nan := has fun | .nan _ _ => true | _ => false
  let up := has fun | .inf n => !n | _ => false
  let down := has fun | .inf n => n | _ => false
  let fl := flagIf (up && down) flagIV
  if nan || (up && down) then (.nan false true, fl)
  else if up then (.inf false, fl)
  else if down then (.inf true, fl)
  else (exactSum ps, fl)

/-- A group's sum is added to an accumulator with one rounding, RNE. -/
def addGroup (f : Fmt) (ftz : Bool) (acc : Nat) (s : FVal) : Nat × Flags :=
  match f.value ftz acc, s with
  | .nan _ q, _ => (f.nan, flagIf (!q) flagIV)
  | _, .nan _ _ => (f.nan, 0)
  | a, s => f.sum ⟨.rne, ftz⟩ a s

/-- The lists of G consecutive members, the last one as long as it may be. -/
def inGroups {α : Type} (g : Nat) : Nat → List α → List (List α)
  | 0, _ => []
  | fuel + 1, l => if l.isEmpty then [] else l.take g :: inGroups g fuel (l.drop g)

/-- `ksum` (R86, R87) in a floating-point format: the pairs of values by rising k, none where pruned. -/
def ksum (f : Fmt) (ftz : Bool) (g acc : Nat) (pairs : List (Option (FVal × FVal))) : Nat × Flags :=
  (inGroups g pairs.length pairs).foldl (fun (r : Nat × Flags) (group : List (Option (FVal × FVal))) =>
    let ps := (group.filterMap id).map fun p : FVal × FVal => exactProduct p.1 p.2
    let s := groupSum (ps.map Prod.fst)
    let x := addGroup f ftz r.1 s.1
    (x.1, ps.foldl (fun m (p : FVal × Flags) => m ||| p.2) (r.2 ||| s.2 ||| x.2))) (acc, 0)

/-- `ksum` for S8 operands: modulo 2^32, without flags. -/
def ksumInt (acc : Nat) (pairs : List (Option (Int × Int))) : Nat :=
  ((pairs.filterMap id).foldl (fun (n : Int) (p : Int × Int) => n + p.1 * p.2) (acc : Int) % 2 ^ 32).toNat

/-! ## One element of an operation -/

/-- The operands of an operation in one member: the images, codebooks and formats of A and B, the metadata, the offsets,
the number of k and `FTZ`. -/
structure Operands where
  kind : Nat
  fa : Nat
  fb : Nat
  dataA : SMap Byte
  dataB : SMap Byte
  bookA : SMap (BitVec 16)
  bookB : SMap (BitVec 16)
  meta_ : SMap Byte
  aoff : Nat
  boff : Nat
  k : Nat
  ftz : Bool
deriving DecidableEq, Repr

/-- The patterns of A and B that meet at k in element (m, n), none where A's is pruned. -/
def Operands.pair (a : Operands) (m n k : Nat) : Option (Nat × Nat) :=
  (storedAt a.kind (tileLength a.fa) a.meta_ m (a.aoff + k)).map fun i =>
    (elementBits a.fa a.dataA a.bookA m i, elementBits a.fb a.dataB a.bookB n (a.boff + k))

/-- The new value of element (m, n) of the accumulator and its flags (R253). -/
def Operands.element (a : Operands) (f : AccFmt) (g m n acc : Nat) : Nat × Flags :=
  let pairs := tabulate a.k fun k => a.pair m n k
  match f with
  | .s32 => (ksumInt acc (pairs.map fun p => p.map fun p => (s8Value p.1, s8Value p.2)), 0)
  | _ =>
    let value := fun (fmt x : Nat) => (tileType fmt).fmt.value a.ftz x
    ksum (if f == .fp64 then Ty.f64.fmt else Ty.f32.fmt) a.ftz g acc
      (pairs.map fun p => p.map fun p => (value a.fa p.1, value a.fb p.2))

end Sys2Proof
end

