-- ==== Sys2Proof/Config.lean ====
section
/-! DEFINITION. What an implementation fixes, and the values that the spec leaves open. -/

namespace Sys2Proof.Config

/-- DESIGN CHOICE (log entry 11). The free value behind a choice that the spec leaves open: which free frame `fnew`
allocates (R144), which free handle `rhnew` allocates (R197), and which entry a full store gives up (log entry 129). It has no body, so nothing can be proved of the choice. -/
opaque freeChoice : Nat → Nat

/-- DESIGN CHOICE (log entry 129). The set of a line, by physical address div 128, in its home die's L2; the spec gives the sets no
address function. It has no body. -/
opaque l2Set : Nat → Nat

/-- DESIGN CHOICE (log entry 129). The ways of an L2 set beyond the first sixteen. It has no body. -/
opaque l2MoreWays : Nat

/-- DESIGN CHOICE (log entry 78). The set of the leaf cache that R277 leaves open, of a descriptor's address and a leaf's
origin. It has no body. -/
opaque leafSet : BitVec 64 → List (BitVec 32) → Nat

/-- DESIGN CHOICE (log entry 26). Byte n of the SM2 signature of a message under an identity key, with the signer's random number
(R356). It has no body. -/
opaque signature : BitVec 256 → List (BitVec 8) → Nat → Nat → BitVec 8

/-! ## The reserved area of a die (R355): DESIGN CHOICE, log entry 12

R355 puts these tables into the highest 2 GiB of each die-local region and leaves their places to firmware. The
offsets are counted from the start of the area. -/

/-- The size of the area, 2 GiB. -/
def reservedBytes : Nat := 2147483648
/-- The arm table: 8,192 entries of 64 bytes (R318). -/
def armTable : Nat := 0
/-- The node table: 4,096 entries of 64 bytes (R322). -/
def nodeTable : Nat := 524288
/-- The error-log ring (R355). -/
def errorRing : Nat := 1048576
/-- Entries of the error-log ring, a power of two. -/
def errorEntries : Nat := 4096

/-- The overflow area of 256 MiB for waiting records (R326). -/
def overflowArea : Nat := 268435456
/-- The frame pool: 4,194,304 frames of 16 bytes (R27). -/
def frameTable : Nat := 67108864

/-! ## Sizes of stores -/

/-- Frames of a die's pool (R4). -/
def framePool : Nat := 4194304
/-- Frames that a die's frame store holds (R32). -/
def frameStore : Nat := 65536
/-- Lines of 128 bytes in the 384 MiB L2 of a die (R4). -/
def l2Lines : Nat := 3145728
/-- Lines of a die's L2 that priority-7 handles may own: 256 MiB (R69). -/
def topRoom : Nat := 2097152
/-- Memory requests that a core may have outstanding (R4). -/
def requestRoom : Nat := 2048
/-- Waiting records that a die holds on chip (R326). -/
def recordsOnChip : Nat := 131072
/-- Waiting records a die holds before an instruction that makes records waits: on chip (R326) and in the 256 MiB
overflow area of 40-byte records (R355, R22). -/
def recordRoom : Nat := recordsOnChip + 6710886
/-- Deposits of a reorder unit (R328). -/
def depositRoom : Nat := 65536
/-- Open keys of a die's reorder unit (R328). -/
def openKeys : Nat := 4096
/-- Entries of a watch table (R332). -/
def watchRoom : Nat := 16384

end Sys2Proof.Config
end

