-- ==== Sys2Proof/Machine/Memory.lean ====
section
/-! DEFINITION. Global memory: the physical map (R59 to R61), the points of order and what a write releases (R224,
R332), the L1 (R65, R236), the page walk and the TLB (R52 to R58), and translation registers (R62 to R64). -/

namespace Sys2Proof.Machine

/-! ## The physical map (R59 to R61) -/

/-- 2^30. -/
def gib : Nat := 1073741824

/-- The installed capacity. -/
def State.capacity (s : State) : Nat := s.dies * 96 * gib
/-- The end of the interleaved region. -/
def State.interleaved (s : State) : Nat := s.dies * s.ilshare * gib
/-- The start of a die's local region. -/
def State.localStart (s : State) (die : Nat) : Nat := s.interleaved + die * (96 - s.ilshare) * gib

/-- A physical address lies in a host window (R59). -/
def inHost (pa : Nat) : Bool := decide (2 ^ 47 ≤ pa)
/-- A physical address lies in device memory. -/
def State.inDevice (s : State) (pa : Nat) : Bool := decide (pa < s.capacity)

/-- The exclusive-or of n-bit fields of an address, from bit `lo` upwards, `count` of them. -/
def xorFields (pa width lo : Nat) : Nat → Nat
  | 0 => 0
  | count + 1 => (pa >>> lo) % 2 ^ width ^^^ xorFields pa width (lo + width) count

/-- The home die of a device address and its address within the die (R60). -/
def State.homeOf (s : State) (pa : Nat) : Nat × Nat :=
  if pa < s.interleaved then
    match s.variant with
    | .wz4 => (xorFields pa 2 12 18, pa / 2 ^ 14 * 2 ^ 12 + pa % 2 ^ 12)
    | .wz2 => (xorFields pa 1 12 36, pa / 2 ^ 13 * 2 ^ 12 + pa % 2 ^ 12)
    | .wz1 => (0, pa)
  else
    let size := (96 - s.ilshare) * gib
    let d := (pa - s.interleaved) / size
    (d, s.ilshare * gib + (pa - s.localStart d))

/-- The logical HBM stack and channel of a device address (R61). -/
def State.channelOf (s : State) (pa : Nat) : Nat × Nat :=
  let h := s.homeOf pa
  (2 * h.1 + h.2 / 2 ^ 12 % 2, (h.2 / 2 ^ 7 % 32) ^^^ (h.2 / 2 ^ 13 % 32))

/-- A boundary of the Hinge has failed (R341): boundary i lies between die i and the next; on a WZ2 both boundaries
lie between its two dies. -/
def State.boundaryFailed (s : State) (i : Nat) : Bool := ((s.boundaries.look i).map (·.failed)).getD false

/-- No path between dies survives only if both ways round the ring cross a failed boundary (R341). -/
def State.reachable (s : State) (a b : Nat) : Bool :=
  if a = b then true
  else
    match s.variant with
    | .wz1 => true
    | .wz2 => !(s.boundaryFailed 0 && s.boundaryFailed 1)
    | .wz4 =>
      let up := (List.range 4).all fun i => !(decide ((i + 4 - a) % 4 < (b + 4 - a) % 4) && s.boundaryFailed i)
      let down := (List.range 4).all fun i => !(decide ((b + 4 - a) % 4 ≤ (i + 4 - a) % 4) && s.boundaryFailed i)
      up || down

/-- A die reaches the home of a physical address: the host link is up, or a path to the home die survives. -/
def State.reaches (s : State) (die pa : Nat) : Bool :=
  if inHost pa then s.linkUp else s.reachable die (s.homeOf pa).1

/-! ## Traps as values -/

/-- A precise split-wide cause with no address. -/
def Trap.of (c : Cause) : Trap :=
  { cause := c, detail := 0, deferred := false, lane := 0, lanes := 0, va := 0, kind := 0, source := 0 }

/-- A precise cause at an address, met by an access of a kind; translation causes carry the kind (R299). -/
def Trap.atAddr (c : Cause) (va : DWord) (kind : Nat) : Trap :=
  { Trap.of c with
    va := va, kind := kind
    detail := if c == .pageFault || c == .protection || c == .mapError then kind else 0 }

/-! ## The points of order -/

/-- A byte as its home holds it: an unlisted byte reads 0 (log entry 3). -/
def State.byteAt (s : State) (pa : Nat) : Byte := SMap.at s.mem 0 pa

/-- n bytes from an address, as a number. -/
def State.readHome (s : State) (pa n : Nat) : Nat := natOfBytes (tabulate n fun i => s.byteAt (pa + i))

/-- The bytes of one scratch offset on. -/
def State.readScratch (s : State) (core off n : Nat) : Nat :=
  natOfBytes (tabulate n fun i => (s.core core).scratch.at 0 (off + i))

/-- A 32-byte sector of memory holds an uncorrectable error (R315). -/
def State.poisonedAt (s : State) (pa : Nat) : Bool := s.poison.contains (pa / 32)

/-- The first poisoned byte of n bytes of memory. -/
def State.poisonIn (s : State) (pa n : Nat) : Option Nat := ((List.range n).find? fun i => s.poisonedAt (pa + i)).map (pa + ·)

/-- An integer comparison by its code (R103). -/
def compareCode (cond : Nat) (signed : Bool) (width : Nat) (a b : Nat) : Bool :=
  let v := fun x : Nat => if signed && decide (2 ^ (width - 1) ≤ x) then (x : Int) - 2 ^ width else (x : Int)
  match cond with
  | 0 => a == b
  | 1 => a != b
  | 2 => decide (v a < v b)
  | 3 => decide (v a ≤ v b)
  | 4 => decide (v b < v a)
  | _ => decide (v b ≤ v a)

/-- The value a place holds at its point of order. -/
def State.readPlace (s : State) (p : Place) (n : Nat) : Nat :=
  match p with
  | .mem pa => s.readHome pa n
  | .scratch core off => s.readScratch core off n

/-- A watch entry's condition holds of a value (R195, R295). -/
def WatchTest.holds (t : WatchTest) (value : Nat) : Bool :=
  match t with
  | .compare cond ty b => compareCode cond ty.signed ty.width value (b.toNat % 2 ^ ty.width)
  | .step t => value / 2 ^ 64 % 65536 != t.toNat % 65536 || value / 2 ^ 80 % 2 == 1

/-- Drops a core's clean L1 copies: clean bytes go, marked bytes stay. -/
def Core.dropCopies (k : Core) : Core :=
  { k with l1 := k.l1.filterMap fun e => if e.2.marked = 0 then none else some (e.1, { e.2 with valid := e.2.marked }) }

/-- Invalidates a core's L1, instruction cache and control-block copies (R236). -/
def Core.invalidate (k : Core) : Core :=
  { k.dropCopies with
    icache := []
    blocks := []
    leafCache := [] }

/-- A context crosses an edge target (R236). -/
def State.crossEdge (s : State) (id : Nat) : State :=
  match s.ctxs.look id with
  | some c => s.modCore c.core Core.invalidate
  | none => s

/-- A watch entry's release reaches its split, which continues after its instruction (R195, R332). -/
def State.freeWatch (s : State) (w : Watch) : State :=
  let s := s.modSplit w.ctx w.split fun sp => if sp.wait == .watch then { sp with wait := .ready, pc := w.next } else sp
  if w.edge then s.crossEdge w.ctx else s

/-- The die to which the release of a watch entry goes: that of its context, or the table's own. -/
def State.watchTarget (s : State) (w : Watch) : Nat := ((s.ctxs.look w.ctx).map (·.die)).getD w.die

/-- A watch entry that has left its table releases its split, at once on its own die, and with a packet on another (R332, R339). -/
def State.release (s : State) (w : Watch) : State :=
  if s.watchTarget w = w.die then s.freeWatch w
  else { s with watch := s.watch ++ [{ w with sent := some s.nextId }], nextId := s.nextId + 1 }

/-- Tests the watch entries on which bytes were written, and releases those whose condition holds (R332). -/
def State.testWatches (s : State) (touched : Watch → Bool) : State :=
  let hit := fun w : Watch => w.sent.isNone && !w.poll && touched w && w.test.holds (s.readPlace w.place w.bytes)
  let freed := s.watch.filter hit
  foldState freed { s with watch := s.watch.filter fun w => !hit w } State.release

/-- Writes bytes at their homes: memory holds them, a poisoned sector written whole is cured (R315), and watch entries on
them are tested (R332). -/
def State.writeCells (s : State) (cells : List Host.Cell) : State :=
  let mem := cells.foldl (fun m (e : Host.Cell) => SMap.put m 0 e.1 e.2) s.mem
  let cured := fun sec : Nat => (List.range 32).all fun i => cells.any fun e => e.1 == 32 * sec + i
  let s := { s with mem := mem, poison := s.poison.filter fun sec => !cured sec }
  if s.watch.isEmpty then s
  else s.testWatches fun w =>
    match w.place with
    | .mem pa => cells.any fun e => decide (pa ≤ e.1 ∧ e.1 < pa + w.bytes)
    | .scratch _ _ => false

/-- The cells of n bytes of a number from an address. -/
def cellsOf (pa n value : Nat) : List Host.Cell := tabulate n fun i => (pa + i, BitVec.ofNat 8 (value / 256 ^ i))

/-- `PHASE` of the transaction barrier at an offset of a core's scratch (R206). -/
def State.barrierPhase (s : State) (core off : Nat) : Nat := s.readScratch core off 1 % 16

/-- A split of a core's barrier that is parked for a phase which has completed (R209). -/
def State.phaseOver (s : State) (core : Nat) (sp : Split) : Bool :=
  match sp.wait with
  | .phase k off t => k == core && s.barrierPhase k off != t
  | _ => false

/-- A parked split's phase has completed: it continues after its `tbwait`, whose return is an edge target (R209, R216). -/
def State.releasePhase (s : State) (id i : Nat) : State :=
  (s.modSplit id i fun sp => { sp with wait := .ready, pc := sp.pc + 12 }).crossEdge id

/-- The splits that are parked for phases of barriers in a core's scratch which have completed are released, whatever becomes of
the barriers later (R209). -/
def State.releasePhases (s : State) (core : Nat) : State :=
  let ended := s.ctxs.flatMap fun e => (e.2.splits.filter fun p => s.phaseOver core p.2).map fun p => (e.1, p.1)
  foldState ended s fun s e => s.releasePhase e.1 e.2

/-- Performs a write at a scratch port: bytes by physical offset (R44, R209, R332). -/
def State.writeScratch (s : State) (core : Nat) (cells : List (Nat × Byte)) : State :=
  let cured := fun sec : Nat => (List.range 32).all fun i => cells.any fun e => e.1 == 32 * sec + i
  let s := s.modCore core fun k =>
    { k with
      scratch := cells.foldl (fun m (e : Nat × Byte) => m.put 0 e.1 e.2) k.scratch
      scratchPoison := k.scratchPoison.filter fun sec => !cured sec }
  let s := s.releasePhases core
  if s.watch.isEmpty then s
  else s.testWatches fun w =>
    match w.place with
    | .mem _ => false
    | .scratch k off => k == core && cells.any fun e => decide (off ≤ e.1 ∧ e.1 < off + w.bytes)

/-- A place holds an uncorrectable error (R315). -/
def State.poisonedPlace (s : State) (p : Place) : Bool :=
  match p with
  | .mem pa => s.poisonedAt pa
  | .scratch core off => (s.core core).scratchPoison.contains (off / 32)

/-! ## The reserved area and the error log (R355, log entry 12) -/

/-- The start of a die's reserved area. -/
def State.reserved (s : State) (die : Nat) : Nat := s.localStart (die + 1) - Config.reservedBytes

/-- The 64 bytes of an error-log entry (R355). -/
def errorEntry (kind unit index addr clock count : Nat) (detail : List Byte) : List Byte :=
  bytesLe 1 kind ++ bytesLe 1 unit ++ bytesLe 2 index ++ bytesLe 4 0 ++ bytesLe 8 addr ++ bytesLe 8 clock
    ++ bytesLe 4 count ++ (detail ++ List.replicate 36 0).take 36
where
  /-- The low n bytes of a number, the lowest first. -/
  bytesLe : Nat → Nat → List Byte
    | 0, _ => []
    | n + 1, w => BitVec.ofNat 8 w :: bytesLe n (w / 256)

/-- Memory cells of bytes from an address. -/
def cellsAt (pa : Nat) (bs : List Byte) : List Host.Cell :=
  match bs with
  | [] => []
  | b :: bs => (pa, b) :: cellsAt (pa + 1) bs

/-- Writes an entry to a die's error log (R355). -/
def State.logError (s : State) (die kind unit index addr : Nat) (detail : List Byte) : State :=
  let head := s.errHead.at 0 die
  let key := 4000 * die + 10 * kind + unit
  let count := s.errCount.at 0 key + 1
  let at_ := s.reserved die + Config.errorRing + 64 * (head % Config.errorEntries)
  let s := s.writeCells (cellsAt at_ (errorEntry kind unit index addr s.ref (count % 2 ^ 32) detail))
  { s with errHead := s.errHead.put 0 die ((head + 1) % 2 ^ 32), errCount := s.errCount.put 0 key count }

/-- A power state changes: of a core, by its index within the die, or of the die (R355, log entry 101). -/
def State.logPower (s : State) (die unit index : Nat) : State := s.logError die 6 unit index 0 []

/-- A die leaves D1 (R352). -/
def State.wakeDie (s : State) (die : Nat) : State :=
  if s.sleeping.contains die then { s with sleeping := s.sleeping.filter fun d => d != die }.logPower die 6 die else s

/-- Reports an uncorrectable error of memory in its home die's error log (R315); how `INDEX` packs the stack and the channel is the
model's choice (log entry 149). -/
def State.logUncorrectable (s : State) (pa : Nat) : State :=
  let c := s.channelOf pa
  if inHost pa then s else s.logError (s.homeOf pa).1 1 0 (32 * c.1 + c.2) pa []

/-- Reports an uncorrectable error of a core's scratch. -/
def State.logScratchError (s : State) (core : Nat) : State := s.logError (dieOfCore core) 1 2 (coreIndex core) 0 []

/-- Reports the uncorrectable error of a place. -/
def State.logPlace (s : State) (p : Place) : State :=
  match p with
  | .mem pa => s.logUncorrectable pa
  | .scratch core _ => s.logScratchError core

/-! ## Residency handles (R68 to R70) -/

/-- The handle that a request at an address carries: none where the number is not allocated, or in a host window (R190). -/
def State.handleAt (s : State) (pa h : Nat) : Nat := if inHost pa || (s.handles.look h).isNone then 0 else h

/-- The lines that priority-7 handles own on a die; at most 256 MiB of them (R69). -/
def State.topLines (s : State) (die : Nat) : Nat :=
  (s.l2.filter fun e => (s.homeOf (128 * e.1)).1 == die
    && ((s.handles.look e.2).map (·.prio)).getD 0 == 7).length

/-- A global request with a handle fills or hits a line that the L2 holds (R69). Once priority-7 handles own 256 MiB of the die, a
line that another request of theirs fills or hits is left with no handle; of a hit the spec does not say so (log entry 144). -/
def State.claimLine (s : State) (pa h : Nat) : State :=
  let line := pa / 128
  match s.l2.look line, s.handles.look (s.handleAt pa h) with
  | some o, some e =>
    let die := (s.homeOf pa).1
    let takes := match s.handles.look o with
      | none => true
      | some oe => decide (oe.prio < e.prio) || oe.demoted.contains die
    if h = 0 || e.demoted.contains die || !takes then s
    else if e.prio = 7 && decide (Config.topRoom ≤ s.topLines die) then { s with l2 := s.l2.ins line 0 }
    else { s with l2 := s.l2.ins line h }
  | _, _ => s

/-- The lines of the L2s, those chosen belonging to no handle (R70). -/
def State.disown (s : State) (gone : Nat × Nat → Bool) : SMap Nat := s.l2.map fun e => if gone e then (e.1, 0) else e

/-- The handle that owns a line on its die, one that has not been demoted there, with its priority. -/
def State.lineOwner (s : State) (line : Nat) : Option (Nat × Nat) :=
  (s.l2.look line).bind fun h => (s.handles.look h).bind fun e =>
    if e.demoted.contains (s.homeOf (128 * line)).1 then none else some (h, e.prio)

/-- A line of a handle on a die. -/
def State.ownedOn (s : State) (die h : Nat) (e : Nat × Nat) : Bool := e.2 == h && (s.homeOf (128 * e.1)).1 == die

/-- On a die every line of a handle belongs to no handle, and the handle takes none until it is armed again (R70). -/
def State.demote (s : State) (die h : Nat) : State :=
  { s with
    l2 := s.disown (s.ownedOn die h)
    handles := s.handles.modify h fun e => { e with demoted := insertNat e.demoted die } }

/-- A handle of a new priority 7 keeps of its lines on a die those that bring priority-7 handles to 256 MiB there; the others belong
to no handle (R69, log entry 150). -/
def State.capTop (s : State) (h die : Nat) : State :=
  let mine := (s.l2.filter (s.ownedOn die h)).map Prod.fst
  let gone := mine.drop (mine.length - (s.topLines die - Config.topRoom))
  { s with l2 := s.disown fun e => gone.contains e.1 }

/-- The handle on which a full set acts: the lowest priority, the highest number on a tie. -/
def weakest (owners : List (Nat × Nat)) : Option (Nat × Nat) := leastBy (fun e => (e.2 + 1) * 4096 - e.1) owners

/-- One of the lines of a set that belong to no handle is replaced: a free value's choice (log entry 129). -/
def State.replaceLine (s : State) (set : List Nat) : State :=
  let spare := set.filter fun n => (s.lineOwner n).isNone
  match spare[Config.freeChoice s.free % spare.length]? with
  | none => s
  | some n => { s with l2 := s.l2.del n, free := s.free + 1 }

/-- Room is made in a full set (R70); none where only lines of priority-7 handles remain, or no line at all, and the line is not
allocated. -/
def State.makeWay (s : State) (die : Nat) (set : List Nat) : Option State :=
  let owners := set.map s.lineOwner
  if owners.any Option.isNone then some (s.replaceLine set)
  else
    match weakest (owners.filterMap id) with
    | none => none
    | some (h, p) =>
      if 7 ≤ p then none
      else if p = 0 then some { s with l2 := s.l2.filter fun e => !s.ownedOn die h e }
      else some ((s.demote die h).replaceLine set)

/-- The lines that a die's L2 holds. -/
def State.l2On (s : State) (die : Nat) : List Nat :=
  (s.l2.filter fun e => (s.homeOf (128 * e.1)).1 == die).map Prod.fst

/-- The lines that an L2 holds of a line's set (log entry 129). -/
def State.setOf (s : State) (line : Nat) : List Nat :=
  (s.l2On (s.homeOf (128 * line)).1).filter fun n => Config.l2Set n == Config.l2Set line

/-- No way is free for a line: those of its set are all used, sixteen at least (log entry 129), or the L2 of its home die holds its
384 MiB (R4). -/
def State.setFull (s : State) (line : Nat) : Bool :=
  decide (16 ≤ s.l2.length) && (decide (16 + Config.l2MoreWays ≤ (s.setOf line).length)
    || decide (Config.l2Lines ≤ (s.l2On (s.homeOf (128 * line)).1).length))

/-- The L2 takes a line of device memory, of no handle if it is new, with room made in a full set. Where none can be made the line is
not allocated: a fill's data goes to its requesters, and a write is sent on to HBM (R70). -/
def State.allocLine (s : State) (line : Nat) : State :=
  if inHost (128 * line) || (s.l2.look line).isSome then s
  else if !s.setFull line then { s with l2 := s.l2.ins line 0 }
  else
    match s.makeWay (s.homeOf (128 * line)).1 (s.setOf line) with
    | none => s
    | some t => { t with l2 := t.l2.ins line 0 }

/-- Counts line requests of a context at the L2 (R140): `ev` for a slice on its die, `ev` + 1 for another; a host window's
line counts as local. -/
def State.countLine (s : State) (id ev line h : Nat) : State :=
  match s.ctxs.look id with
  | none => s
  | some c =>
    let pa := 128 * line
    s.countEvent id (if inHost pa || (s.homeOf pa).1 == c.die then ev else ev + 1) (s.handleAt pa h) 1

/-! ## The L1 (R65, R236, R237) -/

/-- A line with nothing in it. -/
def Line.none : Line := { data := [], valid := 0, marked := 0, marks := 0, handle := 0 }

/-- The bytes of a mask of a line. -/
def lineBytes (m : BitVec 128) : List Nat := (List.range 128).filter fun i => m.getLsbD i

/-- The mask of n bytes from an offset in a line. -/
def byteMask (off n : Nat) : BitVec 128 := BitVec.ofNat 128 ((2 ^ n - 1) * 2 ^ off)

/-- A byte as a core's miss finds it: its home, with the core's own write-backs in flight before it (R188). -/
def State.missByte (s : State) (core pa : Nat) : Byte :=
  s.writes.foldl (fun b w => if w.core = core then ((w.bytes.find? fun e => e.1 == pa).map Prod.snd).getD b else b)
    (s.byteAt pa)

/-- The marked bytes of a line as memory cells. -/
def Line.cells (l : Line) (n : Nat) : List Host.Cell :=
  (lineBytes l.marked).map fun i => (128 * n + i, l.data.at 0 i)

/-- The line after its marked bytes have been sent to memory (R237). -/
def Line.cleaned (l : Line) : Line := { l with marked := 0, marks := 0, handle := 0 }

/-- The contexts of a core that a mark mask names. -/
def State.markers (s : State) (core : Nat) (marks : BitVec 32) : List (Nat × Ctx) :=
  (s.residents core).filter fun e => e.2.markBit &&& marks != 0

/-- Sends the marked bytes of a line of a core on their way, as a request of context `who`, or else of the contexts that marked
it (R236, R237, R140). -/
def State.sendLine (s : State) (core : Nat) (who : Option Nat) (line : Nat) : State :=
  match (s.core core).l1.look line with
  | none => s
  | some l =>
    let marked := s.markers core l.marks
    let w : Write := ⟨s.nextId, core, l.cells line, l.handle, (marked.map fun e => e.2.graph).eraseDups⟩
    let s := { s with writes := s.writes ++ [w], nextId := s.nextId + 1 }.modCore core fun k => { k with l1 := k.l1.ins line l.cleaned }
    foldState (match who with
      | some id => [id]
      | none => marked.map Prod.fst) s fun s id => s.countLine id 0x12 line l.handle

/-- Evicts a line of a core: its marked bytes are on their way to memory (R236). -/
def State.evictLine (s : State) (core line : Nat) : State :=
  match (s.core core).l1.look line with
  | none => s
  | some l =>
    (if l.marked = 0 then s else s.sendLine core none line).modCore core fun k => { k with l1 := k.l1.del line }

/-- The L1 has a place for a line: of its 1,024 lines (R4) it holds that one, or one is evicted, a free value's choice (log
entry 129). -/
def State.makeRoom (s : State) (core line : Nat) : State :=
  let l1 := (s.core core).l1
  if (l1.look line).isSome || decide (l1.length < 1024) then s
  else
    match l1[Config.freeChoice s.free % l1.length]? with
    | none => s
    | some e => { s with free := s.free + 1 }.evictLine core e.1

/-- A core's L1 holds n bytes at an address. -/
def State.hitsL1 (s : State) (core pa n : Nat) : Bool :=
  byteMask (pa % 128) n &&& ~~~((s.core core).l1.at Line.none (pa / 128)).valid == 0

/-- What a core's load of n bytes finds: the value, or none where a sector that must be fetched has an uncorrectable error;
it is then not allocated. The state holds the fetched sector, whose bytes are all new but for the marked ones (R65, R220).
The flag says that a sector was missed. -/
def State.loadL1 (s : State) (core pa n : Nat) : State × Option Nat × Bool :=
  let off := pa % 128
  let value := fun l : Line => natOfBytes (tabulate n fun i => l.data.at 0 (off + i))
  if s.hitsL1 core pa n then (s, some (value ((s.core core).l1.at Line.none (pa / 128))), false)
  else if s.poisonedAt pa then (s, none, true)
  else
    let s := s.makeRoom core (pa / 128)
    let k := s.core core
    let line := k.l1.at Line.none (pa / 128)
    let first := off / 32 * 32
    let data := (List.range 32).foldl (fun m i =>
      if line.marked.getLsbD (first + i) then m
      else m.ins (first + i) (s.missByte core (pa / 32 * 32 + i))) line.data
    let line := { line with data := data, valid := line.valid ||| byteMask first 32 }
    (s.setCore core { k with l1 := k.l1.ins (pa / 128) line }, some (value line), true)

/-- A plain store of n bytes into a core's L1: it marks the bytes for the context (R65, R237), and the line keeps its
residency handle for its write-back (R69, log entry 114). -/
def State.storeL1 (s : State) (core id pa n value handle : Nat) : State :=
  let bit := ((s.ctxs.look id).map Ctx.markBit).getD 0
  (s.makeRoom core (pa / 128)).modCore core fun k =>
    let line := k.l1.at Line.none (pa / 128)
    let off := pa % 128
    let m := byteMask off n
    let data := (cellsOf off n value).foldl (fun d (e : Nat × Byte) => d.ins e.1 e.2) line.data
    let line : Line :=
      { data := data, valid := line.valid ||| m, marked := line.marked ||| m, marks := line.marks ||| bit
        handle := if handle = 0 then line.handle else handle }
    { k with l1 := k.l1.ins (pa / 128) line }

/-! ## Loads and the miss-merge registers (R67, R187) -/

/-- A value as a load writes it (R158, R188): s8 and s16 sign-extended to 32 bits, every other type zero-extended. -/
def loadValue (ty : Ty) (x : Nat) : DWord :=
  if ty == .s8 || ty == .s16 then BitVec.ofNat 64 (x + (if 2 ^ (ty.width - 1) ≤ x then 2 ^ 32 - 2 ^ ty.width else 0))
  else BitVec.ofNat 64 x

/-- The words that a value of a type takes in a location and the one above it; none for poison. -/
def loadWords (scalar : Bool) (reg : Nat) (ty : Ty) (l : Nat) (x : Option Nat) : List (Nat × Option Word × BitVec 5) :=
  let word := fun i : Nat => x.map fun n => (loadValue ty n).extractLsb' (32 * i) 32
  tabulate ty.regs fun i => (locAt scalar (reg + i) l, word i, 0)

/-- The line of an element of global memory. -/
def LaneAt.line (a : LaneAt) : Option Nat :=
  match a.place with
  | .mem pa => some (pa / 128)
  | .scratch _ _ => none

/-- One lane of a global load reads through its core's L1: a missed line may come to belong to the handle (R69), and an
uncorrectable error is reported (R315). -/
def State.readLane (s : State) (core handle : Nat) (ty : Ty) (a : LaneAt) : State × Option Nat :=
  match a.place with
  | .mem pa =>
    match s.loadL1 core pa (ty.width / 8) with
    | (s, x, missed) =>
      let s := if missed then s.claimLine pa handle else s
      (if x.isNone then s.logUncorrectable pa else s, x)
  | .scratch k off => (s, some (s.readScratch k off (ty.width / 8)))

/-- Lanes of a global load read: what their registers will hold. -/
def State.readLanes (s : State) (core : Nat) (scalar : Bool) (reg : Nat) (ty : Ty) (handle : Nat) (lanes : List LaneAt) :
    State × List (Nat × Option Word × BitVec 5) :=
  lanes.foldl (fun (acc : State × List (Nat × Option Word × BitVec 5)) a =>
    match acc.1.readLane core handle ty a with
    | (s, x) => (s, acc.2 ++ loadWords scalar reg ty a.lane x)) (s, [])

/-- The lane of a location, or lane 0 for `s`. -/
def locLane (k : Nat) : Nat := if k < 16384 then k % 64 else 0

/-! ## Packets of the Hinge (R338 to R340, log entry 139) -/

/-- The die a handle names (R28). -/
def handleDie (h : Word) : Nat := bitsOf h 31 30

/-- The die beside which the odd core of a die's boundary pairs stands (R338). -/
def State.beside (s : State) (die : Nat) : Nat := (die + 1) % s.dies

/-- The die on which a core stands: its own, but for the odd core of a boundary pair (R338). -/
def State.standsOn (s : State) (core : Nat) : Nat :=
  let die := dieOfCore core
  if 1 < s.dies ∧ 240 ≤ coreIndex core ∧ coreIndex core % 2 = 1 then s.beside die else die

/-- The dies, source and target, between which an access of a place passes: a global one from the die of the access to the home, but
for a host window, and one of scratch between the dies on which the two cores stand. -/
def State.placeLink (s : State) (own core : Nat) (p : Place) : Nat × Nat :=
  match p with
  | .mem pa => (own, if inHost pa then own else (s.homeOf pa).1)
  | .scratch k _ => (s.standsOn core, s.standsOn k)

/-- The key of a link. -/
def linkKey (e : Nat × Nat) : Nat := 4 * e.1 + e.2

/-- The numbers that the destinations keep, with one more and what was answered to it: the last 65,536 of each source die (R340). -/
def keepNumber (seen : List (Nat × Nat × Response)) (key n : Nat) (words : Response) : List (Nat × Nat × Response) :=
  let mine := fun e : Nat × Nat × Response => e.1 == key
  if seen.countP mine < 65536 then (key, n, words) :: seen
  else (key, n, words) :: ((seen.filter mine).take 65535 ++ seen.filter fun e => !mine e)

/-- A packet's work is performed at another die, with these words of its response: the destination keeps its number (R340). -/
def State.noteHinge (s : State) (source target n : Nat) (words : Response) : State :=
  { s with hinge := if source = target then s.hinge else keepNumber s.hinge (4 * source + target) n words }

/-- What is performed at another die with the step that sends it: its packet takes a number, which the destination keeps. -/
def State.noteNow (s : State) (link : Nat × Nat) (words : Response) : State :=
  if link.1 = link.2 then s
  else { s with hinge := keepNumber s.hinge (linkKey link) s.nextId words, nextId := s.nextId + 1 }

/-- Accesses of scratch lanes that a core performs as they issue (R338): on every link a packet, with the words of its lanes. -/
def State.noteScratch (s : State) (core : Nat) (lanes : List LaneAt) (words : LaneAt → Response) : State :=
  let at_ := fun a : LaneAt => s.placeLink 0 core a.place
  let lanes := lanes.filter fun a => match a.place with
    | .mem _ => false
    | .scratch _ _ => true
  foldState (lanes.map at_).eraseDups s fun s e => s.noteNow e ((lanes.filter fun a => at_ a == e).flatMap words)

/-- The number of an operation's next packet on a link. -/
def Op.seq (o : Op) (n : Nat) (link : Nat × Nat) : Nat := o.seqs.at n (linkKey link)

/-- A part of operation n is performed over a link, with these words of its response: the number of its packet is kept, and what is
left of it goes with a new one. -/
def State.notePart (s : State) (n : Nat) (link : Nat × Nat) (words : Response) : State :=
  match s.ops.look n with
  | none => s
  | some o =>
    if link.1 = link.2 then s
    else
      { s with
        hinge := keepNumber s.hinge (linkKey link) (o.seq n link) words
        ops := s.ops.modify n fun o => { o with seqs := o.seqs.put n (linkKey link) s.nextId }
        nextId := s.nextId + 1 }

/-- Lanes of operation n are performed: on every link one packet, with the words of its lanes. -/
def State.noteLanes (s : State) (n : Nat) (o : Op) (lanes : List LaneAt) (words : LaneAt → Response) : State :=
  let at_ := fun a : LaneAt => s.placeLink o.die o.core a.place
  foldState (lanes.map at_).eraseDups s fun s e => s.notePart n e ((lanes.filter fun a => at_ a == e).flatMap words)

/-- An operation whose parts are noted lane by lane, as they are performed. -/
def OpKind.byLane : OpKind → Bool
  | .load _ _ _ _ _ _ => true
  | .gather _ _ _ _ => true
  | .atomic _ _ _ _ _ _ _ _ => true
  | .window _ _ _ _ _ _ _ _ _ => true
  | .fpoll _ => true
  | _ => false

/-- The core whose scratch a side of a copy lies in. -/
def Side.core : Side → Option Nat
  | .scratch core _ => some core
  | .window core _ => some core
  | _ => none

/-- The links over which an operation has packets to send: those that its operands name, and for the engines, whose addresses are
translated as they work, those to every die. -/
def State.opLinks (s : State) (o : Op) : List (Nat × Nat) :=
  let at_ := fun a : LaneAt => s.placeLink o.die o.core a.place
  let every := (List.range s.dies).map fun d => (o.die, d)
  let links : List (Nat × Nat) := match o.kind with
    | .load _ _ _ lanes _ _ => lanes.map at_
    | .gather _ _ lanes _ => lanes.map at_
    | .atomic _ _ _ _ lanes _ _ _ => lanes.map fun a => at_ a.at_
    | .window _ _ _ _ _ _ _ lanes _ => lanes.map fun a => at_ a.at_
    | .copy rows _ _ _ _ =>
      every ++ ((rows.take 1).flatMap fun r => [r.src.core, r.dst.core].filterMap id).map fun k => (s.standsOn o.core, s.standsOn k)
    | .walk _ => every
    | .activity _ _ _ _ _ => every
    | .insert _ _ _ _ => every
    | .dtrav _ => every
    | .halo _ _ _ _ _ _ => every
    | .vocab _ => every
    | .spawn rs => (rs.filter fun e => e.2.record.frame != 0).map fun e => (o.die, handleDie e.2.record.frame)
    | .fdone hs => hs.map fun e => (o.die, handleDie e.2)
    | .fpoll polls => polls.map fun e => (o.die, handleDie e.2)
    | .push die _ => [(o.die, die)]
    | .tbarrive core _ _ _ => [(s.standsOn o.core, s.standsOn core)]
    | .handle _ _ _ => every
    | .invalidate _ _ _ _ => every
    | _ => []
  (links.filter fun e => e.1 != e.2 && decide (e.2 < s.dies)).eraseDups

/-- The numbers that are kept once an operation has done a part of its work, on every link that it has. -/
def State.hingeAfter (s : State) (n : Nat) : List (Nat × Nat × Response) :=
  match s.ops.look n with
  | none => s.hinge
  | some o =>
    if o.kind.byLane then s.hinge
    else (s.opLinks o).foldl (fun seen e => keepNumber seen (linkKey e) (o.seq n e) []) s.hinge

/-- An operation goes on with what is left of its work. -/
def State.goOn (s : State) (n : Nat) (kind : OpKind) : State :=
  let links := ((s.ops.look n).map fun o => if o.kind.byLane then [] else s.opLinks o).getD []
  { s with
    hinge := s.hingeAfter n
    ops := s.ops.modify n fun o =>
      { o with kind := kind, seqs := links.foldl (fun m e => m.put n (linkKey e) s.nextId) o.seqs }
    nextId := if links.isEmpty then s.nextId else s.nextId + 1 }

/-- An operation is done. Its range-lock entries are released (R199), and the numbers of its packets are kept. -/
def State.endOp (s : State) (id : Nat) : State :=
  { s with ops := s.ops.del id, ranges := s.ranges.filter fun r => r.op != id, hinge := s.hingeAfter id }

/-- An operation goes on with what is left of its work, or is done. -/
def State.keepOp (s : State) (n : Nat) (done : Bool) (kind : OpKind) : State := if done then s.endOp n else s.goOn n kind

/-- The lanes of a load that its core's L1 misses, at other dies. -/
def State.farLanes (s : State) (o : Op) (ty : Ty) (lanes : List LaneAt) : List LaneAt :=
  lanes.filter fun a => match a.place with
    | .mem pa => (s.placeLink o.die o.core a.place).2 != o.die && !s.hitsL1 o.core pa (ty.width / 8)
    | .scratch _ _ => false

/-- Some of the lanes that a load has still to read do so; their words then wait to land. -/
def State.readOp (s : State) (n : Nat) (chosen : LaneAt → Bool) : State :=
  match s.ops.look n with
  | none => s
  | some o =>
    match o.kind with
    | .load scalar reg ty lanes handle got =>
      let far := s.farLanes o ty (lanes.filter chosen)
      match s.readLanes o.core scalar reg ty handle (lanes.filter chosen) with
      | (s, words) =>
        let s := s.noteLanes n o far fun a => (words.filter fun w => scalar || locLane w.1 == a.lane).map fun w => w.2.1
        s.modOp n fun o => { o with kind := .load scalar reg ty (lanes.filter fun a => !chosen a) handle (got ++ words) }
    | _ => s

/-- A request is still held at an open register of a line for a load. -/
def State.merging (s : State) (n line : Nat) : Bool :=
  s.merges.any fun m => m.line == line && m.requests.any fun r => r.op == some n

/-- A read miss arrives at its slice: it joins the line's open register, or opens one, a second one where 64 requests stand
in those before it. -/
def State.joinMerge (s : State) (line : Nat) (r : Request) : State :=
  match findAt s.merges fun m => m.line == line && decide (m.requests.length < 64) with
  | some (i, _) => { s with merges := changeAt s.merges i fun m => { m with requests := m.requests ++ [r] } }
  | none => { s with merges := s.merges ++ [⟨line, [r]⟩] }

/-- A request is served: the load's lanes in the line read, or the prefetched sectors enter the core's L1; the line may come
to belong to its handle. -/
def State.serveRequest (s : State) (line : Nat) (r : Request) : State :=
  let s := s.claimLine (128 * line) r.handle
  match r.op with
  | some n => s.readOp n fun a => a.line == some line
  | none => foldState r.sectors s fun s x => (s.loadL1 r.core (32 * x) 32).1

/-- The fill of a line serves every request of its registers, in order of arrival, and closes them. -/
def State.serveLine (s : State) (line : Nat) : State :=
  let rs := (s.merges.filter fun m => m.line == line).flatMap (·.requests)
  foldState rs { s with merges := s.merges.filter fun m => m.line != line } fun s r => s.serveRequest line r

/-- The requests of an instruction for sectors that its core's L1 misses: one for each line, counted at its slice (R140);
one for a device line that the L2 does not hold waits there for the fill. -/
def State.requestSectors (s : State) (id core handle : Nat) (op : Option Nat) (sectors : List Nat) : State :=
  let lines := (sectors.map fun x => x / 4).eraseDups
  foldState lines s fun s line =>
    let mine := sectors.filter fun x => x / 4 == line
    let lacking := mine.filter fun x => !s.hitsL1 core (32 * x) 32
    let s := (s.countLine id 0x10 line handle).countEvent id 0x20 (s.handleAt (128 * line) handle) lacking.length
    if inHost (128 * line) || (s.l2.look line).isSome then s
    else s.joinMerge line ⟨core, handle, op, mine⟩

/-- A load that has been issued: the lanes whose bytes the L1 holds read, and the others' lines are requested. -/
def State.startLoad (s : State) (n : Nat) : State :=
  match s.ops.look n with
  | none => s
  | some o =>
    match o.kind with
    | .load _ _ ty lanes handle _ =>
      let missed := lanes.filterMap fun a => match a.place with
        | .mem pa => if s.hitsL1 o.core pa (ty.width / 8) then none else some (pa / 32)
        | .scratch _ _ => none
      (s.requestSectors o.ctx o.core handle (some n) missed.eraseDups).readOp n fun a => match a.place with
        | .mem pa => !missed.contains (pa / 32)
        | .scratch _ _ => true
    | _ => s

/-- The lines of the elements of global memory among some lanes. -/
def lanesLines (lanes : List LaneAt) : List Nat := (lanes.filterMap LaneAt.line).eraseDups

/-- The memory requests of an operation that have no reply yet (log entry 140): one for each line that its lanes have still to
read, and one for each lane of an atomic. -/
def OpKind.requests : OpKind → Nat
  | .load _ _ _ lanes _ _ => (lanesLines lanes).length
  | .gather _ _ lanes _ => (lanesLines lanes).length
  | .atomic _ _ _ _ lanes _ _ _ => (lanes.filterMap fun a => a.at_.line).length
  | _ => 0

/-- The memory requests of a core that have no reply yet (R4): those of its loads, gathers and atomics, its prefetches, and its
write-backs on their way. Which requests count, and that an instruction waits for room without an issue slot, is the model's
choice (log entry 140). -/
def State.outstanding (s : State) (core : Nat) : Nat :=
  (s.ops.filter fun e => e.2.core == core).foldl (fun n e => n + e.2.kind.requests) 0
  + s.merges.foldl (fun n m => n + (m.requests.filter fun r => r.core == core && r.op.isNone).length) 0
  + (s.writes.filter fun w => w.core == core).length

/-- So many further requests of a core have room (R4, log entry 140). -/
def State.requestsFit (s : State) (core n : Nat) : Bool := decide (s.outstanding core + n ≤ Config.requestRoom)

/-- A read miss of an engine, a fetch or a walk at a line's home: one of device memory that the L2 does not hold joins an open
register of the line or opens one, and the fill, which serves every request that joined, comes before the read (R67, R70). -/
def State.fetchLine (s : State) (core handle : Nat) (op : Option Nat) (line : Nat) : State :=
  if inHost (128 * line) || (s.l2.look line).isSome then s
  else ((s.joinMerge line ⟨core, handle, op, []⟩).allocLine line).serveLine line

/-- The lines of n bytes at an address. -/
def linesOf (pa n : Nat) : List Nat := tabulate ((pa + n - 1) / 128 + 1 - pa / 128) fun i => pa / 128 + i

/-- A read of n bytes at an address by an engine, a fetch or a walk reaches the home slices of its lines (R67). -/
def State.fetchLines (s : State) (core : Nat) (op : Option Nat) (pa n : Nat) : State :=
  foldState (linesOf pa n) s fun s line => s.fetchLine core 0 op line

/-- An instruction reads n bytes at their homes: its line requests arrive at the slices (R67, R140). -/
def State.askHome (s : State) (core id pa n : Nat) : State :=
  foldState (linesOf pa n) (s.fetchLines core none pa n) fun s line => s.countLine id 0x10 line 0

/-! ## Writes at their homes -/

/-- Performs a write at its home. The fills of its lines that are open come before it (R67); it takes no line of the L2 by itself: which
accesses take one is the model's choice (log entry 153). -/
def State.writeHome (s : State) (cells : List Host.Cell) : State :=
  let lines := ((s.merges.map (·.line)).filter fun line => cells.any fun e => e.1 / 128 == line).eraseDups
  (foldState lines s fun s line => (s.allocLine line).serveLine line).writeCells cells

/-- Writes n bytes of a number at home. -/
def State.writeNat (s : State) (pa n value : Nat) : State := s.writeHome (cellsOf pa n value)

/-- Writes n bytes of a number at a place. -/
def State.writePlace (s : State) (p : Place) (n value : Nat) : State :=
  match p with
  | .mem pa => s.writeNat pa n value
  | .scratch core off => s.writeScratch core (cellsOf off n value)

/-- Performs a write-back at its home, with a line of the L2 where room can be made for one (R70, log entry 153); the line may come to
belong to its handle (R69). -/
def State.performWrite (s : State) (w : Write) : State :=
  match w.bytes.head? with
  | some e =>
    let own := dieOfCore w.core
    (((s.allocLine (e.1 / 128)).writeHome w.bytes).claimLine e.1 w.handle).noteHinge own (s.placeLink own w.core (.mem e.1)).2 w.number []
  | none => s

/-- Two writes have a byte in common. -/
def Write.meets (a b : Write) : Bool := a.bytes.any fun x => b.bytes.any fun y => x.1 == y.1

/-- A write-back comes to its home only behind the earlier ones, `before`, of its core that have a byte of it (R219, R221). -/
def Write.behind (w : Write) (before : List Write) : Bool := before.any fun e => e.core == w.core && e.meets w

/-- A write-back is performed, by its place among those on their way, unless it stands behind another. -/
def State.performNth (s : State) (index : Nat) (w : Write) : State :=
  if w.behind (s.writes.take index) then s
  else
    let s := s.performWrite w
    { s with writes := dropAt s.writes index }

/-- Performs a core's write-backs in flight, the oldest first. -/
def State.drainWrites (s : State) (core : Nat) : State :=
  foldState (s.writes.filter fun w => w.core == core) s fun s w =>
    let s := s.performWrite w
    { s with writes := s.writes.erase w }

/-- Writes back, and has performed at their homes, the lines that a test chooses of a core's L1, with the write-backs already
on their way. -/
def State.writeBackLines (s : State) (core : Nat) (who : Option Nat) (chosen : Nat → Line → Bool) : State :=
  let dirty := (s.core core).l1.filter fun e => e.2.marked != 0 && chosen e.1 e.2
  (foldState dirty s fun s e => s.sendLine core who e.1).drainWrites core

/-- A core's own plain stores to a sector are performed, and its clean copies dropped, before an atomic there (R225). -/
def State.settleSector (s : State) (core : Nat) (who : Option Nat) (pa : Nat) : State :=
  let s := s.writeBackLines core who fun n _ => n == pa / 128
  let m := byteMask (pa % 128 / 32 * 32) 32
  s.modCore core fun k => { k with l1 := k.l1.modify (pa / 128) fun l => { l with valid := l.valid &&& ~~~m } }

/-- Drops a core's clean copies of the bytes of an interval of memory (R227). -/
def State.dropClean (s : State) (core lo n : Nat) : State :=
  s.modCore core fun k =>
    { k with l1 := k.l1.map fun e =>
        if 128 * e.1 < lo + n && lo < 128 * e.1 + 128 then
          let gone := (List.range 4).foldl (fun m i =>
            if decide (128 * e.1 + 32 * i < lo + n) && decide (lo < 128 * e.1 + 32 * i + 32) then m ||| byteMask (32 * i) 32
            else m) (0 : BitVec 128)
          (e.1, { e.2 with valid := e.2.valid &&& (~~~gone ||| e.2.marked) })
        else e }

/-! ## Page tables (R52 to R58) -/

/-- Bits [63:52] all equal bit 51 (R52). -/
def canonical (va : DWord) : Bool := va.sshiftRight 51 == 0 || va.sshiftRight 51 == BitVec.allOnes 64

/-- The low bit of an index at a level (R53). -/
def levelShift (lvl : Nat) : Nat :=
  match lvl with
  | 0 => 39 | 1 => 30 | 2 => 21 | _ => 16

/-- The index of an address at a level (R53). -/
def levelIndex (va : DWord) (lvl : Nat) : Nat :=
  va.toNat / 2 ^ levelShift lvl % (match lvl with | 0 => 8192 | 1 => 512 | 2 => 512 | _ => 32)

/-- The level at which a leaf of this `SIZE` stands; 3 names a pointer (R55). -/
def leafLevel (size : Nat) : Nat :=
  match size with
  | 0 => 3 | 1 => 2 | _ => 1

/-- `SIZE` of an entry. -/
def entrySize (e : DWord) : Nat := bitsOf e 5 4
/-- `PA` of a leaf, as an address. -/
def leafPa (e : DWord) : Nat := bitsOf e 47 16 * 65536
/-- `PLACE` of a leaf. -/
def leafPlace (e : DWord) : Nat := bitsOf e 10 9
/-- `DIE` of a leaf. -/
def leafDie (e : DWord) : Nat := bitsOf e 12 11
/-- `COH` of a leaf. -/
def leafCoh (e : DWord) : Bool := bitOf e 8

/-- The region that `PLACE` and `DIE` name holds the whole page (R56, R59). -/
def State.pageInRegion (s : State) (place die pa size : Nat) : Bool :=
  match place with
  | 0 => decide (pa + size ≤ s.interleaved)
  | 1 => decide (die < s.dies) && decide (s.localStart die ≤ pa) && decide (pa + size ≤ s.localStart (die + 1))
  | 2 => inHost pa
  | _ => false

/-- `check_leaf` (R56): the leaf is well formed. -/
def State.leafOk (s : State) (e : DWord) (lvl : Nat) : Bool :=
  let size := 2 ^ levelShift lvl
  bitsOf e 62 48 == 0 && bitsOf e 15 13 == 0 && leafPlace e != 3 && (!leafCoh e || leafPlace e == 2)
    && leafPa e % size == 0 && (leafPlace e == 1 || leafDie e == 0)
    && s.pageInRegion (leafPlace e) (leafDie e) (leafPa e) size

/-- The leaf permits an access: 0 read, 1 write, 2 atomic, 3 fetch (R55, R56). -/
def permits (e : DWord) (kind : Nat) : Bool :=
  match kind with
  | 0 => bitOf e 2
  | 1 => bitOf e 1
  | 2 => bitOf e 2 && bitOf e 1
  | _ => bitOf e 3

/-- What a walk found: the leaf, the physical address of its entry, and its level. -/
structure Found where
  leaf : DWord
  home : Nat
  level : Nat
deriving DecidableEq, Repr

/-- The levels of a walk from a table on, before the permission check (R56); an entry that cannot be read is named too. -/
def State.descend (s : State) (va : DWord) (kind : Nat) : Nat → List Nat → Except (Trap × Option Nat) Found
  | _, [] => .error (Trap.atAddr .mapError va kind, none)
  | t, lvl :: lower =>
    let at_ := t + 8 * levelIndex va lvl
    let e := BitVec.ofNat 64 (s.readHome at_ 8)
    let fail := fun c : Cause => (Trap.atAddr c va kind, (none : Option Nat))
    if s.poisonedAt at_ then .error ({ Trap.atAddr .poison va kind with kind := 4 }, some at_)
    else if !bitOf e 0 then .error (fail .pageFault)
    else if entrySize e = 3 then
      let next := bitsOf e 47 8 * 256
      if lvl = 3 || bitsOf e 63 48 != 0 || bitsOf e 7 6 != 0 || bitsOf e 3 1 != 0
          || (decide (lvl < 2) && next % 4096 != 0) || !s.inDevice next then
        .error (fail .mapError)
      else s.descend va kind next lower
    else if leafLevel (entrySize e) != lvl || !s.leafOk e lvl then .error (fail .mapError)
    else if bitOf e 63 then .error (fail .poison)
    else .ok ⟨e, at_, lvl⟩

/-- The addresses of the entries that a walk from a table on reads. -/
def State.entriesOf (s : State) (va : DWord) : Nat → List Nat → List Nat
  | _, [] => []
  | t, lvl :: lower =>
    let at_ := t + 8 * levelIndex va lvl
    let e := BitVec.ofNat 64 (s.readHome at_ 8)
    let next := bitsOf e 47 8 * 256
    at_ :: (if !s.poisonedAt at_ && bitOf e 0 && entrySize e == 3 && s.inDevice next then s.entriesOf va next lower else [])

/-- The entries of a walk are read at their home slices (R56, R67). -/
def State.readEntries (s : State) (core asroot : Nat) (va : DWord) : State :=
  foldState (s.entriesOf va asroot [0, 1, 2, 3]) s fun s at_ => s.fetchLines core none at_ 8

/-- Sets bits of a page-table entry at its home (R57). -/
def State.setEntryBits (s : State) (home bits : Nat) : State := s.writeNat home 8 (s.readHome home 8 ||| bits)

/-- A page walk for a core (R56). An asroot outside device memory is a table that R53 does not allow, and one that is not aligned to
64 KiB is walked as it stands (log entry 10). -/
def State.walk (s : State) (core asroot : Nat) (va : DWord) (kind : Nat) : State × Except Trap Found :=
  if !canonical va then (s, .error (Trap.atAddr .protection va kind))
  else if !s.inDevice asroot then (s, .error (Trap.atAddr .mapError va kind))
  else
    let s := s.readEntries core asroot va
    match s.descend va kind asroot [0, 1, 2, 3] with
    | .error (t, bad) => (match bad with
      | some pa => s.logUncorrectable pa
      | none => s, .error t)
    | .ok f =>
      if !permits f.leaf kind then (s, .error (Trap.atAddr .protection va kind))
      else
        let s := s.setEntryBits f.home 64
        (s, .ok { f with leaf := f.leaf ||| 64#64 })

/-- The virtual page number of an address at a level. -/
def pageOf (va : DWord) (lvl : Nat) : Nat := va.toNat % 2 ^ 52 / 2 ^ levelShift lvl

/-- A TLB entry covers an address. -/
def TlbEntry.covers (t : TlbEntry) (asroot : Nat) (va : DWord) : Bool :=
  t.asroot == asroot && t.page == pageOf va t.level

/-- The physical address that a leaf gives. -/
def leafAddress (leaf : DWord) (lvl : Nat) (va : DWord) : Nat := leafPa leaf + va.toNat % 2 ^ levelShift lvl

/-- A translated address: physical, with the window's `COH`, and the TLB entry through which it came, if it took that path (R57). -/
structure Mapped where
  pa : Nat
  coh : Bool
  tlb : Option TlbEntry
deriving DecidableEq, Repr

/-- A store or atomic through a core's TLB is performed: the page is marked dirty at its home and in the TLB, the first time
it is written through the entry (R57). -/
def State.touchPage (s : State) (core asroot : Nat) (va : DWord) : State :=
  match (s.core core).tlb.find? fun t => t.covers asroot va && permits t.leaf 1 && !bitOf t.leaf 7 with
  | none => s
  | some t =>
    (s.setEntryBits t.home 128).modCore core fun k =>
      { k with tlb := k.tlb.map fun u => if u == t then { u with leaf := u.leaf ||| 128#64 } else u }

/-- Two TLB entries are copies of one page-table entry for one page. -/
def TlbEntry.same (t u : TlbEntry) : Bool := u.asroot == t.asroot && u.level == t.level && u.page == t.page && u.home == t.home

/-- The copy that a core's TLB holds of an entry, or the entry itself where it holds it no more. -/
def State.heldEntry (s : State) (core : Nat) (t : TlbEntry) : TlbEntry := ((s.core core).tlb.find? t.same).getD t

/-- A store or atomic is performed through a TLB entry under which it was translated (R57): where the copy that the core holds, or
the one of that time if the core holds it no more, shows `DIRTY` 0, the page is marked dirty at the entry's home, and in the TLB. -/
def State.touchEntry (s : State) (core : Nat) (t : TlbEntry) : State :=
  if bitOf (s.heldEntry core t).leaf 7 then s
  else
    (s.setEntryBits t.home 128).modCore core fun k =>
      { k with tlb := k.tlb.map fun u => if t.same u then { u with leaf := u.leaf ||| 128#64 } else u }

/-- The TLB path (R52, R56 to R58): a leaf the core's TLB holds and that permits the access, or a walk, whose leaf the
TLB then holds. -/
def State.tlbOrWalk (s : State) (core id asroot : Nat) (va : DWord) (kind : Nat) : State × Except Trap Mapped :=
  if !canonical va then (s, .error (Trap.atAddr .protection va kind))
  else
    match (s.core core).tlb.find? fun t => t.covers asroot va && permits t.leaf kind with
    | some t => (s, .ok ⟨leafAddress t.leaf t.level va, leafCoh t.leaf, some t⟩)
    | none =>
      let s := s.countEvent id 0x30 0 1
      match s.walk core asroot va kind with
      | (s, .error t) => (s, .error t)
      | (s, .ok f) =>
        let t : TlbEntry := { asroot := asroot, level := f.level, page := pageOf va f.level, leaf := f.leaf, home := f.home }
        let s := s.modCore core fun k => { k with tlb := t :: k.tlb.filter fun u => !u.covers asroot va }
        (s, .ok ⟨leafAddress t.leaf t.level va, leafCoh t.leaf, some t⟩)

/-- Translates for a context on its core (R52); an unreachable home is `LINK_LOST` (R341). -/
def State.translate (s : State) (id : Nat) (c : Ctx) (va : DWord) (kind : Nat) : State × Except Trap Mapped :=
  match s.tlbOrWalk c.core id (s.asroot c.graph) va kind with
  | (s, .ok m) => if s.reaches c.die m.pa then (s, .ok m) else (s, .error (Trap.atAddr .linkLost va kind))
  | r => r

/-- A translation invalidation completes (R58): overlapping TLB entries go, and overlapping translation registers
of the address space become stale, on every core. -/
def State.invalidateRange (s : State) (asroot lo len : Nat) (all : Bool) : State :=
  let hits := fun a n : Nat => all || (decide (a < lo + len) && decide (lo < a + n))
  let cores := s.cores.map fun e =>
    (e.1, { e.2 with tlb := e.2.tlb.filter fun t =>
      !(t.asroot == asroot && hits (t.page * 2 ^ levelShift t.level) (2 ^ levelShift t.level)) })
  let ctxs := s.ctxs.map fun e =>
    if s.asroot e.2.graph == asroot then
      (e.1, { e.2 with x := e.2.x.map fun r =>
        let base := r.2.vbase.toNat / 65536 * 65536
        if r.2.valid && hits base (r.2.limit.toNat * 65536) then (r.1, { r.2 with stale := true }) else r })
    else e
  { s with cores := cores, ctxs := ctxs }

/-! ## Translation registers (R62 to R64) -/

/-- The bits of a leaf that a run keeps equal: `READ`, `WRITE`, `PLACE`, `DIE` and `COH`. -/
def runKey (e : DWord) : Nat × Nat := (bitsOf e 2 1, bitsOf e 12 8)

/-- Sets `ACCESSED`, and `DIRTY` where the leaf may be written (R57). -/
def State.bindBits (s : State) (f : Found) : State := s.setEntryBits f.home (if bitOf f.leaf 1 then 192 else 64)

/-- Extends a run from the page that ends at virtual `va` and physical `pa`: at most `fuel` further leaves. The run
holds `units` 64 KiB units so far, and ends where the canonical addresses do (R52), and at an entry that cannot be read, which
is reported (R315, log entry 115). -/
def State.extendRun (s : State) (core asroot : Nat) (key : Nat × Nat) : Nat → Nat → Nat → Nat → State × Nat
  | 0, _, _, units => (s, units)
  | fuel + 1, va, pa, units =>
    let s := s.readEntries core asroot (BitVec.ofNat 64 va)
    match s.descend (BitVec.ofNat 64 va) 0 asroot [0, 1, 2, 3] with
    | .error (_, some bad) => (s.logUncorrectable bad, units)
    | .error (_, none) => (s, units)
    | .ok f =>
      let size := 2 ^ levelShift f.level
      let units' := units + size / 65536
      if va % 2 ^ 51 = 0 || va % size != 0 || leafPa f.leaf != pa || runKey f.leaf != key || decide (2 ^ 22 ≤ units') then (s, units)
      else (s.bindBits f).extendRun core asroot key fuel (va + size) (pa + size) units'

/-- The walk and run extension of `xbind` (R62): the register, or the trap. -/
def State.bindRun (s : State) (id core asroot : Nat) (va : DWord) : State × Except Trap XReg :=
  let s := s.countEvent id 0x30 0 1
  match s.walk core asroot va 0 with
  | (s, .error t) => (s, .error t)
  | (s, .ok f) =>
    let s := s.bindBits f
    let size := 2 ^ levelShift f.level
    let u := va.toNat % 2 ^ 52
    let end_ := (u / size + 1) * size
    let (s, units) := s.extendRun core asroot (runKey f.leaf) 64 end_ (leafPa f.leaf + size) (end_ / 65536 - u / 65536)
    (s, .ok
      { vbase := BitVec.ofNat 52 u, pbase := BitVec.ofNat 48 (leafAddress f.leaf f.level va)
        limit := BitVec.ofNat 22 units, coh := leafCoh f.leaf, write := bitOf f.leaf 1, read := bitOf f.leaf 2
        stale := false, valid := true })

/-- The virtual address of a translation register, sign-extended from 52 bits. -/
def XReg.va (r : XReg) : DWord := r.vbase.signExtend 64

/-- The register permits an access (R63). -/
def XReg.permits (r : XReg) (kind : Nat) : Bool :=
  match kind with
  | 0 => r.read
  | 1 => r.write
  | _ => r.read && r.write

/-- Re-binds a stale register at its use (R64). -/
def State.rebind (s : State) (id n : Nat) : State × Except Trap Unit :=
  match s.ctxs.look id with
  | none => (s, .ok ())
  | some c =>
    let r := c.xreg n
    if r.valid && r.stale then
      match s.bindRun id c.core (s.asroot c.graph) r.va with
      | (s, .error t) => (s, .error t)
      | (s, .ok r') => (s.modCtx id fun c => c.setXreg n r', .ok ())
    else (s, .ok ())

/-- An access through a translation register with byte offset o (R63). -/
def State.throughX (s : State) (id n : Nat) (o : Int) (kind : Nat) : State × Except Trap Mapped :=
  match s.rebind id n with
  | (s, .error t) => (s, .error t)
  | (s, .ok ()) =>
    match s.ctxs.look id with
    | none => (s, .error (Trap.of .illegal))
    | some c =>
      let r := c.xreg n
      let span : Int := (r.limit.toNat * 65536 : Nat) - (r.vbase.toNat % 65536 : Nat)
      let va := r.va + BitVec.ofInt 64 o
      if r.valid && decide (0 ≤ o) && decide (o < span) then
        if !r.permits kind then (s, .error (Trap.atAddr .protection va kind))
        else
          let m : Mapped := ⟨r.pbase.toNat + o.toNat, r.coh, none⟩
          if s.reaches c.die m.pa then (s, .ok m) else (s, .error (Trap.atAddr .linkLost va kind))
      else s.translate id c va kind

/-! ## Range locks (R199) -/

/-- A lane access issued on a core overlaps a global range-lock entry: a write overlaps any, a read a write entry. -/
def State.lockedGlobal (s : State) (core space lo n : Nat) (write : Bool) : Bool :=
  s.ranges.any fun r => r.core == core && !r.scratch && r.owner == space && (write || r.write)
    && decide (r.lo < lo + n) && decide (lo < r.hi)

/-- An access that arrives at a core's scratch port overlaps an entry for that scratch. -/
def State.lockedScratch (s : State) (core lo n : Nat) (write : Bool) : Bool :=
  s.ranges.any fun r => r.scratch && r.owner == core && (write || r.write)
    && decide (r.lo < lo + n) && decide (lo < r.hi)

/-- The free entries of a core's range-lock table. -/
def State.freeRanges (s : State) (core : Nat) : Nat := 64 - (s.ranges.filter fun r => r.core == core).length

/-- An interval that an engine would access is covered by another engine's entry (R199). -/
def State.rangeMet (s : State) (core : Nat) (n : Range) : Bool :=
  s.ranges.any fun r => r.scratch == n.scratch && r.owner == n.owner
    && (n.scratch || r.core == core) && (n.write || r.write) && decide (r.lo < n.hi) && decide (n.lo < r.hi)

/-- An engine issue waits: too few free entries, or an interval covered by another engine's entry (R199). -/
def State.rangesBlocked (s : State) (core : Nat) (new : List Range) : Bool :=
  decide (s.freeRanges core < new.length) || new.any (s.rangeMet core)

/-! ## Control blocks (R230) -/

/-- A control block through the reader's core: its copy, or the bytes at home, which the copy then holds. The core's own
stores to the block are performed first, since they happen before the read (R219). None where it cannot be read, which is reported
(R315). -/
def State.controlBlock (s : State) (core pa n : Nat) : State × Option (List Byte) :=
  match (s.core core).blocks.look pa with
  | some bs => (s, some bs)
  | none =>
    let s := s.writeBackLines core none fun line _ => line == pa / 128
    let s := s.fetchLines core none pa n
    match s.poisonIn pa n with
    | some bad => (s.logUncorrectable bad, none)
    | none =>
      let bs := tabulate n fun i => s.missByte core (pa + i)
      (s.modCore core fun k => { k with blocks := k.blocks.ins pa bs }, some bs)

/-- A field of n bytes at an offset of a block. -/
def blockField (bs : List Byte) (off n : Nat) : Nat := natOfBytes ((bs.drop off).take n)

end Sys2Proof.Machine
end

