-- ==== Sys2Proof/Machine/Ops.lean ====
section
/-! DEFINITION. The operations that instructions and events share: regions (R141, R307), splits (R16 to R20, R360),
frames (R27 to R32), the error log and fault records (R303, R355), the end of a graph (R301), taking a trap (R299,
R300) and returning from one (R156). -/

namespace Sys2Proof.Machine

/-! ## Causes (R298) -/

/-- The code of a cause. -/
def Cause.code : Cause → Nat
  | .illegal => 0x01 | .unitAbsent => 0x02 | .emptyRead => 0x03 | .misaligned => 0x04 | .pageFault => 0x05
  | .protection => 0x06 | .rangeLock => 0x07 | .scratchBounds => 0x08 | .barrierOverrun => 0x09 | .frameError => 0x0A
  | .poison => 0x0B | .gangMismatch => 0x0C | .tileShape => 0x0D | .software => 0x0E | .fpTrap => 0x0F
  | .traversalStack => 0x10 | .linkLost => 0x11 | .cancelled => 0x12 | .watchdog => 0x13 | .controlBlock => 0x14
  | .mapError => 0x15 | .hostAtomic => 0x16

/-- The cause goes to the supervisor handler first (R298). -/
def Cause.supervisor (c : Cause) : Bool := c == .pageFault || c == .mapError

/-- `%cause` at handler entry (R299). -/
def Trap.word (t : Trap) : Word :=
  BitVec.ofNat 32 (t.detail % 65536 * 65536 + (if t.deferred then 32768 else 0) + t.lane % 64 * 256 + t.cause.code)

/-! ## Regions (R141, R143, R307) -/

/-- The split runs a handler, in which no region opens and `%rec` stays (R301). -/
def Ctx.inHandler (c : Ctx) (i : Nat) : Bool := (c.handler.map (·.split)) == some i

/-- Opens a region for a split at its present address, with an empty frame log (R143). -/
def Ctx.openAt (c : Ctx) (i : Nat) : Ctx :=
  let n := c.opened + 1
  { c with opened := n, splits := c.splits.modify i fun sp => { sp with region := sp.pc, regionNo := n, frames := [] } }

/-- `%rec` increments (R139). -/
def Ctx.bumpRec (c : Ctx) : Ctx := { c with special := { c.special with regions := c.special.regions + 1 } }

/-- Closes the split's region and opens one at its present address (R141, R307); in a handler nothing happens (R301). -/
def Ctx.newRegion (c : Ctx) (i : Nat) : Ctx := if c.inHandler i then c else c.bumpRec.openAt i

/-! ## Splits (R16 to R20) -/

/-- The bytes of a `join` (R94, R109). -/
def joinBytes : DWord := 12

/-- Writes an entry of the split table. -/
def Ctx.putSplit (c : Ctx) (i : Nat) (sp : Split) : Ctx := { c with splits := c.splits.ins i sp }

/-- `DEPTH` is 0. -/
def Split.flat (sp : Split) : Bool := sp.stack.isEmpty

/-- In state ready or at `join` (R18). -/
def Split.mergeable (sp : Split) : Bool := sp.flat && (sp.wait == .ready || sp.wait == .join)

/-- A valid split that merges with split i (R18). -/
def Ctx.partner (c : Ctx) (i : Nat) (sp : Split) : Option (Nat × Split) :=
  if !sp.mergeable then none
  else c.splits.find? fun e => e.1 != i && e.2.pc == sp.pc && e.2.parent == sp.parent && e.2.mergeable

/-- Merges splits i and j into the lower-numbered entry, at an address (R18); a merge opens a region (R307). -/
def Ctx.mergeInto (c : Ctx) (i j : Nat) (a b : Split) (pc : DWord) : Ctx :=
  let keep := if i < j then i else j
  let gone := if i < j then j else i
  let m := { a with mask := a.mask ||| b.mask, parent := a.parent >>> 8, pc := pc, wait := .ready }
  let handler := c.handler.map fun h => if h.split = gone then { h with split := keep } else h
  ({ c with splits := (c.splits.del gone).ins keep m, handler := handler }).newRegion keep

/-- The merge check after a split's `PC` was set to a target (R18). The merged split stands at that target, and executes the
`join` that stands there (log entry 16). -/
def Ctx.mergeCheck (c : Ctx) (i : Nat) : Ctx :=
  match c.splits.look i with
  | none => c
  | some sp =>
    match c.partner i sp with
    | none => c
    | some (j, b) => c.mergeInto i j sp b sp.pc

/-- A split continues behind its `join` without merging, and a region opens for it (R19, R307). -/
def Ctx.passJoin (c : Ctx) (i : Nat) : Ctx :=
  ({ c with splits := c.splits.modify i fun sp =>
      { sp with parent := sp.parent >>> 8, pc := sp.pc + joinBytes, wait := .ready } }).openAt i

/-- Releases one split from its `join` without merging (R19, R307). -/
def Ctx.releaseJoin (c : Ctx) (i : Nat) : Ctx := c.bumpRec.passJoin i

/-- The splits with a split's `PARENT`. -/
def Ctx.siblings (c : Ctx) (parent : BitVec 24) : List (Nat × Split) := c.splits.filter fun e => e.2.parent == parent

/-- A valid split comes from a fork of a split with a `PARENT`. -/
def Ctx.hasForks (c : Ctx) (parent : BitVec 24) : Bool :=
  c.splits.any fun e => e.2.parent != parent && (e.2.parent >>> 8 == parent || e.2.parent >>> 16 == parent)

/-- The splits with a `PARENT` that wait at a `join` continue (R19): every one of them is at a `join`, and either there are
several, which then stand at different ones, or the sibling is gone and no split of a fork of it is left (log entry 16). -/
def Ctx.joinOver (c : Ctx) (parent : BitVec 24) : Bool :=
  let all := c.siblings parent
  all.all (fun o => o.2.wait == .join) && (decide (1 < all.length) || !c.hasForks parent)

/-- Releases, once, the splits at `join` that continue together (R19): one event, which `%rec` counts once (log entry 34). -/
def Ctx.settleOnce (c : Ctx) : Ctx :=
  match c.splits.find? fun e => e.2.wait == .join && c.joinOver e.2.parent with
  | none => c
  | some e => foldState (c.siblings e.2.parent) c.bumpRec fun c o => c.passJoin o.1

/-- Applies R19's releases until none is left. -/
def Ctx.settleJoins : Nat → Ctx → Ctx
  | 0, c => c
  | n + 1, c => Ctx.settleJoins n c.settleOnce

/-- R19 after any change of the split table: four splits with three fork levels release at most twelve times. -/
def Ctx.settle (c : Ctx) : Ctx := c.settleJoins 12

/-- The next fork number: neither 0 nor a byte of a valid entry's `PARENT` (R17). -/
def Ctx.forkNumber (c : Ctx) : Nat :=
  let used := 0 :: c.splits.flatMap fun e =>
    [e.2.parent.toNat % 256, e.2.parent.toNat / 256 % 256, e.2.parent.toNat / 65536]
  ((tabulate 256 fun i => (c.fork + 1 + i) % 256).find? fun f => !used.contains f).getD 1

/-- The free entry of the split table that takes the true lanes of a branch (R17): the lowest-numbered, on which later merges and
R305's lowest-numbered split turn; the spec says no more than a free entry (log entry 142). -/
def Ctx.freeEntry (c : Ctx) : Option Nat := (List.range 4).find? fun i => (c.splits.look i).isNone

/-- The fifth-split fallback (R20); a push opens a region (R307). None where the stack would hold a 33rd entry. -/
def Ctx.pushStack (c : Ctx) (i : Nat) (sp : Split) (taken : LaneMask) (target fall : DWord) : Option Ctx :=
  if 32 ≤ sp.stack.length then none
  else
    let e : StackEntry := ⟨fall, sp.mask &&& ~~~taken, sp.mask, .unset⟩
    let sp := { sp with mask := sp.mask &&& taken, pc := target, stack := e :: sp.stack }
    some ((c.putSplit i sp).newRegion i)

/-- A divergent branch: the lanes of `taken` go to `target`, the others to `fall` (R17, R20, R135). None where the
reconvergence stack would hold a 33rd entry. -/
def Ctx.diverge (c : Ctx) (i : Nat) (taken : LaneMask) (target fall : DWord) : Option Ctx :=
  match c.splits.look i with
  | none => some c
  | some sp =>
    let at_ := fun pc : DWord => { c with splits := c.splits.ins i { sp with pc := pc } }
    if sp.mask &&& ~~~taken = 0 then some ((at_ target).mergeCheck i).settle
    else if sp.mask &&& taken = 0 then some (at_ fall)
    else
      match c.freeEntry with
      | some j =>
        if sp.parent.toNat / 65536 = 0 && sp.flat then
          let f := c.forkNumber
          let parent := sp.parent <<< 8 ||| BitVec.ofNat 24 f
          let stay := { sp with mask := sp.mask &&& ~~~taken, pc := fall, parent := parent, wait := .ready }
          let go := { sp with mask := sp.mask &&& taken, pc := target, parent := parent, wait := .ready }
          let c := { c with splits := (c.splits.ins i stay).ins j go, fork := f }
          some (((c.bumpRec.openAt i).openAt j).mergeCheck j).settle
        else c.pushStack i sp taken target fall
      | none => c.pushStack i sp taken target fall

/-- `join` with `DEPTH` above 0 (R20). -/
def Ctx.joinStack (c : Ctx) (i : Nat) (sp : Split) (e : StackEntry) (rest : List StackEntry) : Ctx :=
  let after := sp.pc + joinBytes
  let pop := ({ c with splits := c.splits.ins i { sp with stack := rest, mask := e.full, pc := after } }).newRegion i
  match e.join with
  | .unset =>
    if e.notTaken = 0 then pop
    else
      let sp := { sp with stack := { e with join := .at sp.pc } :: rest, mask := e.notTaken, pc := e.fall }
      (c.putSplit i sp).newRegion i
  | .at pc => if pc = sp.pc then pop else { c with splits := c.splits.ins i { sp with pc := after } }
  | .any => pop

/-- `join` (R19, R20). -/
def Ctx.join (c : Ctx) (i : Nat) : Ctx :=
  match c.splits.look i with
  | none => c
  | some sp =>
    match sp.stack with
    | e :: rest => c.joinStack i sp e rest
    | [] =>
      match c.partner i sp with
      | some (j, b) => (c.mergeInto i j sp b (sp.pc + joinBytes)).settle
      | none =>
        if (c.siblings sp.parent).all fun o => o.1 == i then (c.releaseJoin i).settle
        else ({ c with splits := c.splits.ins i { sp with wait := .join } }).settle

/-- The split of an emptied `MASK` goes on with the lanes of its stack, entry by entry (R360). -/
def Ctx.unwind (c : Ctx) (i : Nat) : Nat → Ctx
  | 0 => c
  | n + 1 =>
    match c.splits.look i with
    | none => c
    | some sp =>
      if sp.mask != 0 then c
      else
        match sp.stack with
        | [] => c
        | e :: rest =>
          match e.join with
          | .unset =>
            let sp :=
              { sp with mask := e.notTaken, pc := e.fall, stack := { e with join := .any } :: rest, wait := .ready }
            ((c.putSplit i sp).newRegion i).unwind i n
          | .at pc =>
            let sp := { sp with mask := e.full, pc := pc + joinBytes, stack := rest, wait := .ready }
            ((c.putSplit i sp).newRegion i).unwind i n
          | .any =>
            ((c.putSplit i { sp with mask := e.full, stack := rest, wait := .ready }).newRegion i).unwind i n

/-- Lanes leave a split's `MASK` and every mask of its stack (R137); a split with none left becomes invalid, and its
siblings are released as R19 says. -/
def Ctx.dropLanes (c : Ctx) (i : Nat) (lanes : LaneMask) : Ctx :=
  let less := fun e : StackEntry => { e with notTaken := e.notTaken &&& ~~~lanes, full := e.full &&& ~~~lanes }
  let strip := fun sp : Split => { sp with mask := sp.mask &&& ~~~lanes, stack := sp.stack.map less }
  let c := { c with exited := c.exited ||| lanes, splits := c.splits.modify i strip }
  let c := c.unwind i 70
  match c.splits.look i with
  | some sp => if sp.mask = 0 then ({ c with splits := c.splits.del i }).settle else c
  | none => c

/-- Sets a split's `PC` to a target and makes the merge check (R134). -/
def Ctx.branch (c : Ctx) (i : Nat) (target : DWord) : Ctx :=
  (({ c with splits := c.splits.modify i fun sp => { sp with pc := target } }).mergeCheck i).settle

/-! ## Records (R22) -/

/-- `FLAGS.PRIO`. -/
def Record.prio (r : Record) : Nat := bitsOf r.flags 6 4
/-- `FLAGS.HOST`. -/
def Record.host (r : Record) : Bool := r.flags.getLsbD 7
/-- `FLAGS.LINK`. -/
def Record.link (r : Record) : Bool := r.flags.getLsbD 3
/-- `FLAGS.CONT`. -/
def Record.cont (r : Record) : Bool := r.flags.getLsbD 2
/-- A reserved bit of `FLAGS` is set, which dispatch refuses. -/
def Record.badFlags (r : Record) : Bool := bitsOf r.flags 15 8 != 0 || bitsOf r.flags 1 0 != 0

/-- `FLAGS` of a record. -/
def recordFlags (prio : Nat) (host link cont : Bool) : BitVec 16 :=
  BitVec.ofNat 16 (prio % 8 * 16 + (if host then 128 else 0) + (if link then 8 else 0) + (if cont then 4 else 0))

/-- The 40 bytes of a record. -/
def Record.bytes (r : Record) : List Byte :=
  let f := errorEntry.bytesLe
  f 2 r.node ++ f 4 r.frame.toNat ++ f 2 r.flags.toNat ++ (List.range 8).flatMap fun i => f 4 (r.args.getD i 0).toNat

/-- The continuation record of a split or task of a context (R33, R324). -/
def Ctx.contRecord (c : Ctx) (r : Resumes) : Record :=
  { node := c.nodeIndex, frame := c.special.frame, flags := recordFlags c.prio false false true
    args := List.replicate 8 0, graph := c.graph, resumes := some r }

/-- The record continues something of a context. -/
def Record.continues (r : Record) (id : Nat) : Bool :=
  match r.resumes with
  | some (.split ctx _) => ctx == id
  | some (.task ctx _) => ctx == id
  | none => false

/-! ## Frames (R27 to R32) -/

/-- `STATE` of a frame (R27). -/
def FrameState.code : FrameState → Nat
  | .free => 0 | .open => 1 | .promise => 2 | .done => 3 | .error => 4 | .reserved n => n

/-- The state of a code. -/
def FrameState.ofCode (n : Nat) : FrameState :=
  match n with
  | 0 => .free | 1 => .open | 2 => .promise | 3 => .done | 4 => .error | n => .reserved n

/-- The 16 bytes of a frame, as a number. -/
def Frame.toNat (f : Frame) : Nat :=
  f.pending.toNat + f.owner.toNat * 2 ^ 32 + f.state.code % 16 * 2 ^ 64 + f.waiters.toNat * 2 ^ 68 + f.gen.toNat * 2 ^ 96

/-- The frame that 16 bytes hold. -/
def Frame.ofNat (n : Nat) : Frame :=
  { gen := BitVec.ofNat 32 (n / 2 ^ 96), waiters := BitVec.ofNat 28 (n / 2 ^ 68), state := .ofCode (n / 2 ^ 64 % 16)
    owner := BitVec.ofNat 32 (n / 2 ^ 32), pending := BitVec.ofNat 32 n }

/-- A free frame (R27): generation 0 and no waiter. -/
def Frame.initial : Frame := { gen := 0, waiters := 0, state := .free, owner := 0, pending := 0 }

/-- The key of the frame a handle names. -/
def handleKey (h : Word) : Nat := handleDie h * Config.framePool + bitsOf h 29 8
/-- The die of a frame. -/
def frameDie (k : Nat) : Nat := k / Config.framePool
/-- The address of a frame in its die's pool (R27, log entry 12). -/
def State.framePa (s : State) (k : Nat) : Nat := s.reserved (frameDie k) + Config.frameTable + 16 * (k % Config.framePool)

/-- The frame of a key: as its die's store holds it, or as it stands in the pool (R32). -/
def State.frame (s : State) (k : Nat) : Frame :=
  match s.frames.look k with
  | some f => f
  | none => Frame.ofNat (s.readHome (s.framePa k) 16)

/-- A store that holds 65,536 frames writes one back to the pool before it takes another, a free value's choice (R32, log
entry 129). -/
def State.frameRoom (s : State) (k : Nat) : State :=
  let held := s.frames.filter fun e => frameDie e.1 == frameDie k
  if (s.frames.look k).isSome || decide (held.length < Config.frameStore) then s
  else
    match held[Config.freeChoice s.free % held.length]? with
    | none => s
    | some e =>
      { s with frames := s.frames.del e.1, free := s.free + 1 }.writeHome (cellsOf (s.framePa e.1) 16 e.2.toNat)

/-- Writes the frame of a key at its die's store. -/
def State.setFrame (s : State) (k : Nat) (f : Frame) : State :=
  let s := s.frameRoom k
  { s with frames := s.frames.ins k f }

/-- A frame that its store does not hold stands in a sector with an uncorrectable error (R315). -/
def State.frameBad (s : State) (k : Nat) : Bool := (s.frames.look k).isNone && s.poisonedAt (s.framePa k)

/-- The frame is free, or its state is one that R28 refuses. -/
def FrameState.unused (f : FrameState) : Bool :=
  match f with
  | .free => true
  | .reserved _ => true
  | _ => false

/-- The handle names a frame that is in use (R28, R32): none is `FRAME_ERROR`, or `POISON` where the frame cannot be read. -/
def State.checkHandle (s : State) (h : Word) : Option Frame :=
  let f := s.frame (handleKey h)
  if handleDie h < s.dies && !f.state.unused && f.gen.toNat % 256 == bitsOf h 7 0 && !s.frameBad (handleKey h) then some f
  else none

/-- The cause of an instruction that uses a handle (R28, R315). -/
def State.handleCause (s : State) (h : Word) : Cause :=
  if decide (handleDie h < s.dies) && s.frameBad (handleKey h) then .poison else .frameError

/-! ## Waiter lists (R27, R29) -/

/-- The entries of a list from an index on, at most `fuel` of them. -/
def State.waitersFrom (s : State) (die : Nat) : Nat → BitVec 28 → List Record
  | 0, _ => []
  | fuel + 1, i =>
    if i = 0 then []
    else
      match s.waiters.look (2 ^ 28 * die + i.toNat) with
      | none => []
      | some w => w.record :: s.waitersFrom die fuel w.next

/-- The continuations on a frame's waiter list, in the order in which they parked. -/
def State.waiting (s : State) (k : Nat) : List Record := s.waitersFrom (frameDie k) s.waiters.length (s.frame k).waiters

/-- The list of these entries: the first index and the entries, the last first, at free indexes of the frame's die. -/
def State.linkWaiters (s : State) (k : Nat) : List Record → State × BitVec 28
  | [] => (s, 0)
  | r :: rs =>
    match s.linkWaiters k rs with
    | (s, next) =>
      let base := 2 ^ 28 * frameDie k
      let i := ((List.range (s.waiters.length + 1)).find? fun i => (s.waiters.look (base + i + 1)).isNone).getD 0 + 1
      ({ s with waiters := s.waiters.ins (base + i) ⟨r, next, k⟩ }, BitVec.ofNat 28 i)

/-- Writes a frame's waiter list. -/
def State.setWaiting (s : State) (k : Nat) (rs : List Record) : State :=
  match { s with waiters := s.waiters.filter fun e => e.2.frame != k }.linkWaiters k rs with
  | (s, i) => s.setFrame k { s.frame k with waiters := i }

/-- Continuations leave the waiter lists and bins in which they stand. -/
def State.dropWaiting (s : State) (gone : Record → Bool) : State :=
  let keys := ((s.waiters.filter fun e => gone e.2.record).map fun e => e.2.frame).eraseDups
  foldState keys { s with released := s.released.filter fun e => !gone e.2 } fun s k =>
    s.setWaiting k ((s.waiting k).filter fun r => !gone r)

/-- A released continuation enters its node's bin (R29, R33), and its die leaves D1 (R352). -/
def State.releaseRecord (s : State) (r : Record) : State :=
  let enter := fun (s : State) (id : Nat) => match s.ctxs.look id with
    | some c => { s with released := s.released ++ [(c.die, r)] }.wakeDie c.die
    | none => s
  match r.resumes with
  | some (.split id i) =>
    enter (s.modSplit id i fun sp => match sp.wait with
      | .frame _ => { sp with wait := .released }
      | _ => sp) id
  | some (.task id _) => enter s id
  | none => s

/-- Releases every continuation on a frame's waiter list, in order (R29): each enters its node's bin. -/
def State.releaseFrame (s : State) (k : Nat) : State :=
  let rs := s.waiting k
  if rs.isEmpty then s else foldState rs (s.setWaiting k []) State.releaseRecord

/-- Frees a frame: `GEN` increments (R27, R29). -/
def State.freeFrame (s : State) (k : Nat) : State :=
  s.setFrame k { Frame.initial with gen := (s.frame k).gen + 1 }

/-- A child exits, or ends in error (R29). A null handle lowers nothing (R26). -/
def State.childExit (s : State) (h : Word) (err : Bool) : State :=
  if h = 0 then s
  else
    let k := handleKey h
    let f := s.frame k
    let left := f.pending - 1
    let f' := { f with pending := left }
    match f.state with
    | .open =>
      if err then (s.setFrame k { f' with state := .error }).releaseFrame k
      else if left = 0 then (s.setFrame k f').releaseFrame k
      else s.setFrame k f'
    | .error => if left = 0 then (s.setFrame k f').releaseFrame k else s.setFrame k f'
    | _ => s.setFrame k f'

/-- A child reports from a die (R26): to a frame of that die at once, and to one of another with a packet (R32, R339). -/
def State.reportExit (s : State) (die graph : Nat) (h : Word) (err : Bool) : State :=
  if h = 0 ∨ handleDie h = die then s.childExit h err
  else { s with reports := s.reports ++ [⟨s.nextId, die, graph, h, err⟩], nextId := s.nextId + 1 }

/-- The owner's exit frees a frame it made (R29, R30): a promise frame with waiters stays for its `fdone`. One that a `spawn` has
reopened is freed with its children outstanding, for R30 awaits no promise frame (log entry 141). -/
def State.ownerExit (s : State) (o : Owned) : State :=
  let k := handleKey o.handle
  let f := s.frame k
  if f.state.unused || f.gen.toNat % 256 != bitsOf o.handle 7 0 then s
  else if o.promise && f.waiters != 0 then { s with orphans := insertNat s.orphans k }
  else s.freeFrame k

/-! ## The end of a graph (R301) -/

/-- A record is discarded: the task it would have started is cancelled, so its frame loses a child in error (R29). -/
def State.discard (s : State) (r : Record) : State := s.childExit r.frame true

/-- A waiting split of an ending graph is released to take `CANCELLED`; one whose operation is still being performed
takes it when that is over. -/
def Split.cancel (sp : Split) : Split :=
  match sp.wait with
  | .op _ => sp
  | _ => { sp with wait := .ready }

/-- Every split of a graph is released, and its waits are forgotten (R301, R332). -/
def State.releaseGraph (s : State) (g : Nat) : State :=
  let mine := fun id : Nat => ((s.ctxs.look id).map (·.graph)) == some g
  let s := s.dropWaiting fun r => r.graph == g
  { s with
    ctxs := s.ctxs.map fun e =>
      if e.2.graph == g then (e.1, { e.2 with splits := e.2.splits.map fun p => (p.1, p.2.cancel) }) else e
    watch := s.watch.filter fun w => !mine w.ctx }

/-- Discards a graph's waiting records, deposits, entries, launches and scans (R301, R324, R330). -/
def State.discardGraph (s : State) (g : Nat) : State :=
  let lost := (s.sent.filter fun r => r.record.graph == g).map (·.record)
    ++ (s.bins.filter fun b => b.graph == g).flatMap (·.records)
    ++ (s.deposits.filter fun d => d.record.graph == g).map (·.record)
    ++ (s.placeQ.filter fun w => w.graph == g).flatMap (·.records)
    ++ (s.scans.filter fun e => e.2.record.graph == g).map (·.2.record)
  let s := { s with
    sent := s.sent.filter fun r => r.record.graph != g
    bins := s.bins.filter fun b => b.graph != g
    deposits := s.deposits.filter fun d => d.record.graph != g
    placeQ := s.placeQ.filter fun w => w.graph != g
    scans := s.scans.filter fun e => e.2.record.graph != g
    pqueues := s.pqueues.filter fun e => e.2.graph != g }
  foldState lost s State.discard

/-- Ends a graph with a status and, unless a cause came before, this blame (R301). A graph that ends already keeps its
status; a task's error without a cause is none that ends it. -/
def State.endGraph (s : State) (g status : Nat) (blame : Option Blame) : State :=
  match s.graphs.look g with
  | none => s
  | some gr =>
    let gr' := { gr with
      status := if gr.ending then gr.status else status
      blame := if gr.blame.isSome then gr.blame else blame }
    if gr.ending then { s with graphs := s.graphs.ins g gr' }
    else
      (({ s with graphs := s.graphs.ins g { gr' with ending := true } }).releaseGraph g).discardGraph g

/-- What the completion record says of a cause that a context's split took; `CORE` is the group's `%core` (R301, log entry 108). -/
def Trap.blame (t : Trap) (c : Ctx) (pc : DWord) : Blame :=
  { cause := t.cause.code, detail := t.detail, core := BitVec.ofNat 32 c.launchCore, lane := t.lane, pc := pc }

/-! ## The supervisor block and fault records (R302, R303) -/

/-- What the hardware reads of a supervisor block (R302), with its physical address. -/
structure Super where
  handler : DWord
  fring : DWord
  frcap : Nat
  pa : Nat
deriving DecidableEq, Repr

/-- Reads the supervisor block through a context's core (R230, R302); a block that breaks the limits is
`CONTROL_BLOCK`. -/
def State.superBlock (s : State) (id : Nat) (c : Ctx) (va : DWord) : State × Except Trap Super :=
  if va.toNat % 64 != 0 then (s, .error (Trap.of .controlBlock))
  else
    match s.translate id c va 0 with
    | (s, .error t) => (s, .error t)
    | (s, .ok m) =>
      match s.controlBlock c.core m.pa 64 with
      | (s, none) => (s, .error (Trap.of .poison))
      | (s, some bs) =>
        let b : Super := ⟨BitVec.ofNat 64 (blockField bs 0 8), BitVec.ofNat 64 (blockField bs 8 8), blockField bs 16 4, m.pa⟩
        let cap := (List.range 17).any fun i => b.frcap == 2 ^ (i + 4)
        if b.handler.toNat % 4 != 0 || b.fring.toNat % 64 != 0 || !cap || blockField bs 36 28 != 0 then (s, .error (Trap.of .controlBlock))
        else (s, .ok b)

/-- The supervisor block at an entry (R302): a handler that stands on no executable page breaks its limits too. -/
def State.superEntry (s : State) (id : Nat) (c : Ctx) (va : DWord) : State × Except Trap Super :=
  match s.superBlock id c va with
  | (s, .error t) => (s, .error t)
  | (s, .ok b) =>
    if b.handler = 0 then (s, .ok b)
    else
      match s.translate id c b.handler 3 with
      | (s, .error _) => (s, .error (Trap.of .controlBlock))
      | (s, .ok _) => (s, .ok b)

/-- The 64 bytes of a fault record (R303), with the group's `%core` (log entry 108). -/
def faultBytes (t : Trap) (state : Nat) (c : Ctx) (pc : DWord) (frame : Word) (progress clock : Nat) : List Byte :=
  let f := errorEntry.bytesLe
  f 1 t.cause.code ++ f 1 t.kind ++ f 1 t.source ++ f 1 state ++ f 4 c.launchCore ++ f 1 c.group ++ f 1 t.lane ++ f 2 0
    ++ f 4 c.special.regions.toNat ++ f 8 t.va.toNat ++ f 8 pc.toNat ++ f 4 frame.toNat ++ f 4 progress ++ f 8 clock
    ++ f 16 0

/-- Writes a fault record into the ring of a supervisor block (R303): `FRHEAD` advances by an atomic add at its home;
the record's addresses, virtual and physical, or none where it is lost, which the error log tells. -/
def State.writeFault (s : State) (id : Nat) (c : Ctx) (b : Super) (t : Trap) (state : Nat) (pc : DWord) (progress : Nat) :
    State × Option (DWord × Nat) :=
  let head := s.readHome (b.pa + 20) 4
  let s := s.writeNat (b.pa + 20) 4 ((head + 1) % 2 ^ 32)
  let va := b.fring + BitVec.ofNat 64 (64 * (head % b.frcap))
  let lost := fun s : State => (s.logError c.die 7 2 (coreIndex c.core) 0 (errorEntry.bytesLe 8 va.toNat), none)
  match s.translate id c va 1 with
  | (s, .error _) => lost s
  | (s, .ok m) =>
    if s.poisonedAt m.pa || s.poisonedAt (m.pa + 32) then lost s
    else
      let s := s.touchPage c.core (s.asroot c.graph) va
      let frame := if c.perLane then c.taskFrames.at 0 t.lane else c.special.frame
      (s.writeHome (cellsAt m.pa (faultBytes t state c pc frame progress s.ref)), some (va, m.pa))

/-- Writes the fault record of an engine that ended or stopped; an address space without a supervisor block has no ring
(R303). -/
def State.engineRecord (s : State) (id : Nat) (t : Trap) (state : Nat) (pc : DWord) (progress : Nat) : State × Option (DWord × Nat) :=
  match s.ctxs.look id with
  | none => (s, none)
  | some c =>
    match s.graphs.look c.graph with
    | none => (s, none)
    | some g =>
      if g.super = 0 then (s, none)
      else
        match s.superBlock id c g.super with
        | (s, .error _) => (s, none)
        | (s, .ok b) => s.writeFault id c b t state pc progress

/-- An instruction meets a frame or control block with an uncorrectable error: the fault record of its lanes (R303, R315). -/
def State.laneRecord (s : State) (id : Nat) (t : Trap) : State :=
  let pc := ((s.cur.bind fun e => (s.ctxs.look id).bind fun c => c.splits.look e.2).map (·.pc)).getD 0
  (s.engineRecord id { t with source := 0 } 3 pc 0).1

/-! ## Taking a trap (R299, R300) -/

/-- The registers that a handler entry writes, `s48` to `s57`: `q24` to `q28` (R300). -/
def entryValues (pc : DWord) (t : Trap) (record super : DWord) (mask : LaneMask) : List Word :=
  [pc, t.va, record, super, if t.lanes = 0 then mask else t.lanes].flatMap fun x =>
    [x.extractLsb' 0 32, x.extractLsb' 32 32]

/-- The handler state of an entry (R300). -/
def Ctx.handlerOf (c : Ctx) (i : Nat) (pc : DWord) (t : Trap) (supervisor : Bool) (record : Option Nat)
    (engine : Option Nat) (mark : Nat) : Handler :=
  { split := i, savedPc := pc, cause := t.word, saved := c.entryRegs
    supervisor := supervisor, record := record, engine := engine
    wait := .ready, mark := mark }

/-- The split enters a handler at `target` (R300): the entry registers, which become full, and `%cause` are written, the
handler state holds what they replaced, and every other register stays. -/
def Ctx.enter (c : Ctx) (i : Nat) (h : Handler) (t : Trap) (record super target : DWord) : Ctx :=
  match c.splits.look i with
  | none => c
  | some sp =>
    let values := entryValues h.savedPc t record super sp.mask
    let c := (List.range 10).foldl (fun c j => c.writeLoc (locS (48 + j)) (values.getD j 0)) c
    { c with
      handler := some h
      special := { c.special with cause := t.word }
      splits := c.splits.ins i { sp with pc := target, wait := .ready } }

/-- A split takes a cause (R298 to R302). With another split in a handler it waits; in a handler itself, or without a
handler for the cause, the graph ends. `engine` names the operation whose engine asked for the entry (R305). -/
def State.takeTrap (s : State) (id i : Nat) (t : Trap) (engine : Option Nat) : State :=
  match s.ctxs.look id with
  | none => s
  | some c =>
    match c.splits.look i with
    | none => s
    | some sp =>
      let blame := some (t.blame c sp.pc)
      match c.handler with
      | some h =>
        if h.split = i then s.endGraph c.graph 1 blame
        else s.modSplit id i fun sp => { sp with wait := .handler }
      | none =>
        if t.cause.supervisor then
          let super := ((s.graphs.look c.graph).map (·.super)).getD 0
          if super = 0 then s.endGraph c.graph 1 blame
          else
            match s.superEntry id c super with
            | (s, .error u) => s.endGraph c.graph 1 (some { u.blame c sp.pc with detail := 0 })
            | (s, .ok b) =>
              if b.handler = 0 then s.endGraph c.graph 1 blame
              else
                let old := engine.bind fun e => (s.ops.look e).bind (·.record)
                let (s, r) := match engine with
                  | none => s.writeFault id c b t 0 sp.pc 0
                  | some _ => (s, old)
                let h := c.handlerOf i sp.pc t true (r.map Prod.snd) engine s.nextId
                s.modCtx id fun c => c.enter i h t ((r.map Prod.fst).getD 0) super b.handler
        else if c.node.traph = 0 then s.endGraph c.graph 1 blame
        else s.modCtx id fun c => c.enter i (c.handlerOf i sp.pc t false none engine s.nextId) t 0 0 c.node.traph

/-! ## Returning from a handler (R156, R301) -/

/-- The handler's return restores `s48` to `s57` with their full/empty state and the causes they carry, and splits that waited for
it issue again (R300, R301). `next` is the name of the next operation: those that were issued while the handler ran fill none of
these registers any more. -/
def Ctx.leaveHandler (c : Ctx) (h : Handler) (next : Nat) : Ctx :=
  { c.putEntryRegs h.saved with
    handler := none
    shut := if h.mark < next then c.shut ++ [(h.mark, next)] else c.shut
    splits := c.splits.map fun e => if e.2.wait == .handler then (e.1, { e.2 with wait := .ready }) else e }

/-- The hardware updates `STATE` of the entry's fault record (R303). -/
def State.closeRecord (s : State) (h : Handler) (state : Nat) : State :=
  match h.record with
  | some pa => s.writeNat (pa + 3) 1 state
  | none => s

end Sys2Proof.Machine
end

