-- ==== Sys2Proof/Machine/Operands.lean ====
section
/-! DEFINITION. Issuing an instruction: the checks of R118 in their order (dynamic `ILLEGAL`, `UNIT_ABSENT`, the guard,
empty and poison-empty sources, the destination), the operands in each lane, and what an instruction answers. -/

namespace Sys2Proof

open Machine

/-- An instruction at issue: its split, the lanes in which it acts, and the next instruction's address. -/
structure Issue where
  id : Nat
  i : Nat
  c : Ctx
  sp : Split
  acting : LaneMask
  next : DWord
deriving DecidableEq, Repr

/-- What an instruction's own part answers. -/
inductive Res where
  /-- it has taken effect; the program counter advances -/
  | done (s : State)
  /-- it has taken effect and commits: the program counter advances and the region closes (R141) -/
  | commit (s : State)
  /-- it has taken effect and has set the program counter itself -/
  | set (s : State)
  /-- it takes a cause precisely; the state holds what its translations set (R57) -/
  | trap (s : State) (t : Trap)
  /-- it waits at the instruction -/
  | wait (s : State) (w : Wait)
  /-- it has committed, the program counter advances, and the split waits for what it asked (R192) -/
  | commitWait (s : State) (w : Wait)
  /-- the program counter advances and the split waits for what it asked, closing no region (R276, R286) -/
  | doneWait (s : State) (w : Wait)
deriving DecidableEq, Repr

/-- The state of an answer. -/
def Res.state : Res → State
  | .done s => s
  | .commit s => s
  | .set s => s
  | .trap s _ => s
  | .wait s _ => s
  | .commitWait s _ => s
  | .doneWait s _ => s

/-! ## Registers of a form -/

/-- The register exists for the group (R14, R51, R101). -/
def Field.existsFor (f : Field) (c : Ctx) : Bool :=
  match f.use with
  | .v n _ => decide (f.num + n ≤ c.node.regs)
  | .t => decide (f.num < c.node.tiles)
  | .acc => decide (f.num < c.node.accs)
  | _ => true

/-- The locations that a field reads or writes in some lanes. -/
def Field.locs (f : Field) (lanes : LaneMask) : List Nat :=
  match f.use with
  | .v n _ => locsOf false f.num n lanes
  | .s n _ => locsOf true f.num n lanes
  | .t => [locT f.num]
  | _ => []

/-- The field is read (R106). -/
def Mode.reads (m : Mode) : Bool := m == .read || m == .readAll || m == .readWait || m == .readWrite
/-- The field is written (R105). -/
def Mode.writes (m : Mode) : Bool := m == .write || m == .readWrite

/-- The lanes in which a field is read. -/
def Field.lanes (f : Field) (acting mask : LaneMask) : LaneMask := if f.mode == .readAll then mask else acting

/-- The lanes of `v` locations; none for `s` and tiles. -/
def laneMaskOf (ks : List Nat) : LaneMask := laneSet ((ks.filter fun k => k < 16384).map fun k => k % 64)

/-- A cause met at locations, in the lanes concerned. -/
def Machine.Trap.atLocs (c : Cause) (detail : Nat) (deferred : Bool) (ks : List Nat) : Trap :=
  let m := laneMaskOf ks
  { Trap.of c with detail := detail, deferred := deferred, lanes := m, lane := lowestLane m }

/-- What one source makes the instruction do (R106, R304): a deferred cause, `EMPTY_READ`, or a wait. -/
inductive SourceState where
  | full
  | poisoned (t : Trap)
  | emptyTrap (t : Trap)
  | emptyWait (ks : List Nat)
deriving DecidableEq, Repr

/-- The state of the locations of one source. -/
def Machine.Ctx.sourceState (c : Ctx) (trapping : Bool) (ks : List Nat) : SourceState :=
  match ks.find? c.isPoisoned with
  | some k =>
    let e := c.carriedAt k
    .poisoned (Trap.atLocs e.cause e.detail true (ks.filter fun j => c.isPoisoned j && regOfLoc j == regOfLoc k))
  | none =>
    match ks.filter c.isEmpty with
    | [] => .full
    | es => if trapping then .emptyTrap (Trap.atLocs .emptyRead 0 false es) else .emptyWait es

/-- The sources of a form, each with its `EMPTYTRAP` bit and its locations; a literal is none (R98). -/
def Form.sources (f : Form) (more : List Field) (acting mask : LaneMask) : List (Bool × List Nat) :=
  let src := fun n : Nat =>
    let d := f.src n
    if d.mode.reads && !f.isLit n then [(kindBit f.hdr.empty n && d.trappable, d.locs (d.lanes acting mask))] else []
  src 1 ++ src 2 ++ src 3
    ++ (if f.dst.mode.reads then [(false, f.dst.locs (f.dst.lanes acting mask))] else [])
    ++ more.map fun d => (false, d.locs acting)

/-- What the sources together make the instruction do: poison first, then `EMPTY_READ`, then the wait
(log entry 13). -/
def Machine.Ctx.sourcesState (c : Ctx) (srcs : List (Bool × List Nat)) : SourceState :=
  let states := srcs.map fun e => c.sourceState e.1 e.2
  let pick := fun p : SourceState → Bool => states.find? p
  match pick fun | .poisoned _ => true | _ => false with
  | some r => r
  | none =>
    match pick fun | .emptyTrap _ => true | _ => false with
    | some r => r
    | none =>
      match srcs.flatMap fun e => e.2.filter c.isEmpty with
      | [] => .full
      | ks => .emptyWait ks

/-- The lanes in which the instruction acts (R97). -/
def Form.acting (f : Form) (c : Ctx) (sp : Split) : LaneMask :=
  match f.guard with
  | .none => sp.mask
  | .k => if c.kpred f.hdr.guard.num.toNat != f.hdr.guard.neg then sp.mask else 0
  | .p =>
    let p := c.pred f.hdr.guard.num.toNat
    sp.mask &&& (if f.hdr.guard.neg then ~~~p else p)

/-! ## Operands -/

/-- The value of source `n` in a lane, zero-extended to 64 bits; a literal is the same in every lane (R98). -/
def Form.arg (f : Form) (c : Ctx) (n l : Nat) : DWord :=
  if f.isLit n then f.hdr.lit.getD 0
  else
    let d := f.src n
    match d.use with
    | .v 2 _ => c.d d.num l
    | .v _ _ => (c.vreg d.num l).setWidth 64
    | .s 2 _ => c.q d.num
    | .s _ _ => (c.s d.num).setWidth 64
    | _ => 0

/-- The value of the destination field in a lane, for an instruction that reads it (R106). -/
def Form.dstArg (f : Form) (c : Ctx) (l : Nat) : DWord :=
  match f.dst.use with
  | .v 2 _ => c.d f.dst.num l
  | .v _ _ => (c.vreg f.dst.num l).setWidth 64
  | .s 2 _ => c.q f.dst.num
  | .s _ _ => (c.s f.dst.num).setWidth 64
  | _ => 0

/-- Writes a location that a writer makes full, poison-empty before or not (R304). -/
def Machine.Ctx.writeAt (c : Ctx) (scalar wide : Bool) (n l : Nat) (x : DWord) : Ctx :=
  let c := c.writeLoc (locAt scalar n l) (x.extractLsb' 0 32)
  if wide then c.writeLoc (locAt scalar (n + 1) l) (x.extractLsb' 32 32) else c

/-- Writes the destination field in a lane. -/
def Form.writeDst (f : Form) (c : Ctx) (l : Nat) (x : DWord) : Ctx :=
  match f.dst.use with
  | .v n _ => c.writeAt false (n == 2) f.dst.num l x
  | .s n _ => c.writeAt true (n == 2) f.dst.num l x
  | .kDst => c.setK f.dst.num (x != 0)
  | .pDst => c.setPred f.dst.num (laneBit l) (if x != 0 then laneBit l else 0)
  | _ => c

/-- Writes the destination in every lane of a mask. -/
def Form.writeLanes (f : Form) (c : Ctx) (lanes : LaneMask) (value : Nat → DWord) : Ctx :=
  (lanesOf lanes).foldl (fun c l => f.writeDst c l (value l)) c

/-! ## Issuing -/

/-- The split that issues, and its context. -/
def Machine.State.issuer (s : State) : Option (Nat × Nat × Ctx × Split) :=
  s.cur.bind fun e => (s.ctxs.look e.1).bind fun c => (c.splits.look e.2).map fun sp => (e.1, e.2, c, sp)

/-- The program counter advances (R93). -/
def Machine.State.advance (s : State) (id i : Nat) (next : DWord) : State := s.modSplit id i fun sp => { sp with pc := next }

/-- The instruction has been issued: event 2 of R140. -/
def Machine.State.issued (s : State) (id : Nat) : State := s.countEvent id 2 0 1

/-- Carries out an answer. -/
def Res.finish (id i : Nat) (next : DWord) : Res → State
  | .done s => (s.advance id i next).issued id
  | .commit s => ((s.advance id i next).modCtx id fun c => c.newRegion i).issued id
  | .set s => s.issued id
  | .trap s t => s.takeTrap id i t none
  | .wait s w => s.modSplit id i fun sp => { sp with wait := w }
  | .commitWait s w =>
    (((s.advance id i next).modCtx id fun c => c.newRegion i).issued id).modSplit id i fun sp => { sp with wait := w }
  | .doneWait s w => ((s.advance id i next).issued id).modSplit id i fun sp => { sp with wait := w }

/-- Issues an instruction of a form that takes `bytes` bytes (R118). `more` lists further registers that it reads;
`illegal` holds its checks that depend on the group, `absent` its unit's presence; `written` names the lanes of its destination that
it writes, in which it waits (R105); `act` is its own part, the waits for an engine among it, so that the causes of the sources come
before the wait for the group's vocabulary operation (R179; the model's choice, log entry 157). -/
def issueOn (f : Form) (bytes : Nat) (more : List Field) (illegal absent : Issue → State → Bool) (written : Issue → LaneMask)
    (act : Issue → State → Res) (s : State) : Host.Outcome State Fault Refusal :=
  match s.issuer with
  | none => .fault .noIssuer
  | some (id, i, c, sp) =>
    let is : Issue := ⟨id, i, c, sp, f.acting c sp, sp.pc + BitVec.ofNat 64 bytes⟩
    let fields := f.dst.existsFor c && f.src1.existsFor c && f.src2.existsFor c && f.src3.existsFor c
    .next (Res.finish id i is.next (
      if !fields || illegal is s then .trap s (Trap.of .illegal)
      else if absent is s then .trap s (Trap.of .unitAbsent)
      else if is.acting = 0 then .done s
      else
        match c.sourcesState (f.sources more is.acting sp.mask) with
        | .poisoned t => .trap s t
        | .emptyTrap t => .trap s t
        | .emptyWait ks => .wait s (.fill ks)
        | .full =>
          match if f.dst.mode.writes then (f.dst.locs (written is)).filter c.isEmpty else [] with
          | [] => act is s
          | ks => .wait s (.fill ks)))

/-- Issues an instruction that writes its destination in every lane in which it acts. -/
def issueWith (f : Form) (bytes : Nat) (more : List Field) (illegal absent : Issue → State → Bool)
    (act : Issue → State → Res) (s : State) : Host.Outcome State Fault Refusal :=
  issueOn f bytes more illegal absent (fun is => is.acting) act s

/-- No check of its own. -/
def never (_is : Issue) (_s : State) : Bool := false

/-- Issues an instruction with no check of its own. -/
def issue (f : Form) (bytes : Nat) (act : Issue → State → Res) (s : State) : Host.Outcome State Fault Refusal :=
  issueWith f bytes [] never never act s

/-- The bytes of an extended instruction (R94). -/
def Hdr.bytes (h : Hdr) : Nat := if h.lit.isSome then 20 else 12
/-- The bytes of a base form (R94). -/
def Base.bytes (f : Base) : Nat := if f.lit.isSome then 12 else 4

/-- The split is in a handler, where some instructions take `ILLEGAL` with the effect of a cause taken there (R301). -/
def Issue.inHandler (is : Issue) : Bool := is.c.inHandler is.i

/-- An instruction whose whole effect is on its own context. -/
def Issue.onCtx (is : Issue) (s : State) (f : Ctx → Ctx) : State := s.setCtx is.id (f is.c)

end Sys2Proof
end

