-- ==== Sys2Proof/Machine/Barriers.lean ====
section
/-! DEFINITION. The team's scratch windows (R46, R47, R49), transaction barriers (R206 to R208) and the team barrier (R40,
R41). -/

namespace Sys2Proof.Machine

/-! ## Scratch windows -/

/-- The core on which a group of a team runs, and whose half is its own scratch (R38, R49). -/
def Team.coreOf (t : Team) (group : Nat) : Nat := if t.pair then t.core + group % 2 else t.core

/-- `SCRATCH_BOUNDS` at an offset (R300). -/
def boundsTrap (off : Int) : Trap := { Trap.of .scratchBounds with va := BitVec.ofInt 64 off }

/-- The physical offset of an own-scratch access of n bytes (R46). -/
def State.ownScratch (s : State) (c : Ctx) (off : Int) (n : Nat) : Except Trap Nat :=
  match s.teams.look c.team with
  | none => .error (boundsTrap off)
  | some t =>
    if 0 ≤ off && decide (off < 262144) && decide (off.toNat + n ≤ t.scratch) then .ok (t.offset + off.toNat)
    else .error (boundsTrap off)

/-- The core and physical offset of a pair-window access of n bytes (R49). -/
def State.pairScratch (s : State) (c : Ctx) (off : Int) (n : Nat) : Except Trap (Nat × Nat) :=
  match s.teams.look c.team with
  | none => .error (boundsTrap off)
  | some t =>
    let low := off.toNat % 262144
    if 0 ≤ off && decide (off < 524288) && decide (low + n ≤ t.scratch) then
      .ok (t.core + off.toNat / 262144, t.offset + low)
    else .error (boundsTrap off)

/-- The core whose scratch a context's own window names. -/
def State.ownCore (s : State) (c : Ctx) : Nat := ((s.teams.look c.team).map fun t => t.coreOf c.group).getD c.home

/-! ## Transaction barriers (R206) -/

/-- The 128 bits of a transaction barrier. -/
structure TBar where
  phase : Nat
  pendArr : Nat
  arrCnt : Nat
  overrun : Bool
  poison : Bool
  bytes : Int
  next : Int
deriving DecidableEq, Repr

/-- A field of w bits read as signed. -/
def signedField (w n : Nat) : Int := if 2 ^ (w - 1) ≤ n % 2 ^ w then (n % 2 ^ w : Nat) - (2 ^ w : Nat) else (n % 2 ^ w : Nat)

/-- A signed value as a field of w bits. -/
def fieldOf (w : Nat) (x : Int) : Nat := (x % (2 ^ w : Nat)).toNat

/-- The barrier that 16 bytes hold. -/
def TBar.ofNat (n : Nat) : TBar where
  phase := n % 16
  pendArr := n / 2 ^ 4 % 2 ^ 20
  arrCnt := n / 2 ^ 24 % 2 ^ 20
  overrun := n / 2 ^ 44 % 2 == 1
  poison := n / 2 ^ 45 % 2 == 1
  bytes := signedField 48 (n / 2 ^ 48)
  next := signedField 32 (n / 2 ^ 96)

/-- The 16 bytes of a barrier; its reserved bits are 0 (R6). -/
def TBar.toNat (b : TBar) : Nat :=
  b.phase + b.pendArr * 2 ^ 4 + b.arrCnt * 2 ^ 24 + (if b.overrun then 2 ^ 44 else 0) + (if b.poison then 2 ^ 45 else 0)
    + fieldOf 48 b.bytes * 2 ^ 48 + fieldOf 32 b.next * 2 ^ 96

/-- The barrier at a core's scratch offset. -/
def State.tbar (s : State) (core off : Nat) : TBar := TBar.ofNat (s.readScratch core off 16)

/-- Writes the barrier at a core's scratch offset. -/
def State.setTbar (s : State) (core off : Nat) (b : TBar) : State := s.writeScratch core (cellsOf off 16 b.toNat)

/-- `check_phase` (R208). -/
def TBar.check (b : TBar) : TBar :=
  if b.overrun || b.pendArr != 0 then b
  else if b.bytes < 0 then { b with overrun := true }
  else if b.bytes = 0 then { b with phase := (b.phase + 1) % 16, bytes := b.next, next := 0, pendArr := b.arrCnt }
  else b

/-- A landing of n bytes bound to a phase (R207). -/
def TBar.land (b : TBar) (bound n : Nat) : TBar :=
  let b :=
    if bound = b.phase then { b with bytes := b.bytes - n }
    else if bound = (b.phase + 1) % 16 then { b with next := b.next - n }
    else { b with overrun := true }
  let b := if b.next < -(2 ^ 31) || decide (b.bytes < -(2 ^ 47)) then { b with overrun := true } else b
  b.check

/-- An arrival with expected bytes (R209). -/
def TBar.arrive (b : TBar) (expected : Nat) : TBar :=
  { b with bytes := b.bytes + expected, pendArr := b.pendArr - 1 }.check

/-- n bytes of an operation land and are posted to its binding (R207). -/
def State.landBytes (s : State) (b : Binding) (n : Nat) : State :=
  if n = 0 then s else s.setTbar b.core b.offset ((s.tbar b.core b.offset).land b.phase n)

/-- The barrier's `POISON` is set (R204). -/
def State.poisonBarrier (s : State) (b : Binding) : State :=
  s.setTbar b.core b.offset { s.tbar b.core b.offset with poison := true }

/-- A barrier operand (R206). -/
structure BarArg where
  core : Nat
  off : Nat
  ph : Nat
  given : Bool
deriving DecidableEq, Repr

/-- Reads a barrier operand (R206). -/
def State.barArg (s : State) (c : Ctx) (w : Word) : Except Trap BarArg :=
  let off := bitsOf w 17 0
  if off % 16 != 0 then .error { Trap.of .misaligned with va := BitVec.ofNat 64 off }
  else if bitsOf w 31 23 != 0 then .error (boundsTrap off)
  else
    match s.ownScratch c off 16 with
    | .error t => .error t
    | .ok o => .ok ⟨s.ownCore c, o, bitsOf w 21 18, bitOf w 22⟩

/-- The phase to which an operation binds at issue (R207). -/
def State.bindPhase (s : State) (a : BarArg) : Except Trap Binding :=
  let p := (s.tbar a.core a.off).phase
  if !a.given then .ok ⟨a.core, a.off, p⟩
  else if a.ph = p || a.ph = (p + 1) % 16 then .ok ⟨a.core, a.off, a.ph⟩
  else .error (Trap.of .barrierOverrun)

/-! ## The team barrier (R40, R41) -/

/-- The groups of a team that have not ended. -/
def State.members (s : State) (tid : Nat) : List (Nat × Ctx) := s.ctxs.filter fun e => e.2.team == tid

/-- Every valid split of the group has executed a `bar`; a group that is ending has none (R40). -/
def Ctx.arrived (c : Ctx) : Bool := c.splits.all fun e => e.2.wait == .bar

/-- A split of the group waits at a `bar`. -/
def Ctx.atBarrier (c : Ctx) : Bool := c.splits.any fun e => e.2.wait == .bar

/-- Every split that waits at its `bar` continues after it, and a region opens for it; the completion is one event, which `%rec`
counts once (R205, R307, log entry 34). No split of the group is in a handler, which would be no arrival (R40). -/
def Ctx.leaveBarrier (c : Ctx) : Ctx :=
  let here := c.splits.filter fun e => e.2.wait == .bar
  if here.isEmpty then c
  else
    here.foldl (fun c e =>
      ({ c with splits := c.splits.modify e.1 fun sp => { sp with pc := sp.pc + 12, wait := .ready } }).openAt e.1) c.bumpRec

/-- Releases a group from the team barrier; on a pair it crosses an edge target (R236). -/
def State.releaseBarrier (s : State) (pair : Bool) (id : Nat) : State :=
  let s := s.modCtx id Ctx.leaveBarrier
  if pair then s.crossEdge id else s

/-- The pair's cores stand on two dies (R39, R338). -/
def State.boundaryPair (s : State) (t : Team) : Bool := t.pair && decide (240 ≤ coreIndex t.core) && decide (1 < s.dies)

/-- The groups of one side of a pair: 0 even, 1 odd (R38). -/
def State.sideOf (s : State) (tid side : Nat) : List (Nat × Ctx) :=
  (s.members tid).filter fun e => e.2.group % 2 == side

/-- A side of a boundary pair completes its local phase and sends its message (R41). -/
def State.phaseSide (s : State) (tid side : Nat) : State :=
  match s.teams.look tid with
  | none => s
  | some t =>
    if t.phased.contains side || !(s.sideOf tid side).all (fun e => e.2.arrived) then s
    else
      { s with nextId := s.nextId + 1 }.modTeam tid fun t =>
        { t with phased := t.phased ++ [side], crossing := t.crossing ++ [side], messages := t.messages ++ [(side, s.nextId)] }

/-- A side that has its own completion and its partner's message releases its groups (R41). -/
def State.releaseSide (s : State) (tid side : Nat) : State :=
  match s.teams.look tid with
  | none => s
  | some t =>
    if t.phased.contains side && t.crossed.contains (1 - side) then
      let s := s.modTeam tid fun t => { t with phased := t.phased.erase side, crossed := t.crossed.erase (1 - side) }
      foldState (s.sideOf tid side) s fun s e => s.releaseBarrier true e.1
    else s

/-- A barrier whose groups stand on one core writes nothing back (R236), and what one of them stored comes before what any of
them does next (R217): what one has marked, all have marked, and their later edge sources perform it. Where one of them is in no
slot, the lines are performed now (log entry 130). -/
def State.shareMarks (s : State) (core : Nat) (ms : List (Nat × Ctx)) : State :=
  let bits := ms.foldl (fun b e => b ||| e.2.markBit) 0
  if ms.all fun e => e.2.markBit != 0 then
    s.modCore core fun k =>
      { k with l1 := k.l1.map fun e =>
          if e.2.marks &&& bits = 0 then e else (e.1, { e.2 with marks := e.2.marks ||| bits }) }
  else s.writeBackLines core none fun _ l => l.marks &&& bits != 0

/-- Completes a team's barrier where its condition holds (R40), after any change of its groups' splits. -/
def State.settleBarrier (s : State) (tid : Nat) : State :=
  match s.teams.look tid with
  | none => s
  | some t =>
    if !(s.members tid).any (fun e => e.2.atBarrier) then s
    else if s.boundaryPair t then (((s.phaseSide tid 0).phaseSide tid 1).releaseSide tid 0).releaseSide tid 1
    else if (s.members tid).all (fun e => e.2.arrived) then
      let s := if t.pair then s else s.shareMarks t.core (s.members tid)
      foldState (s.members tid) s fun s e => s.releaseBarrier t.pair e.1
    else s

/-- Every split that waits at the team's barrier takes `LINK_LOST` (R41). -/
def State.loseBarrier (s : State) (tid : Nat) : State :=
  let s := s.modTeam tid fun t => { t with phased := [], crossing := [], crossed := [], messages := [] }
  foldState (s.members tid) s fun s e =>
    foldState (e.2.splits.filter fun p => p.2.wait == .bar) s fun s p => s.takeTrap e.1 p.1 (Trap.of .linkLost) none

end Sys2Proof.Machine
end

