-- ==== Sys2Proof/Machine/Integer.lean ====
section
/-! DEFINITION. Integer operations on the width of a type (R73, R130, R131, R160, R161): operands are read as signed for s
types and as unsigned for n and b types. -/

namespace Sys2Proof

/-- The low bits of an operand in the width of a type. -/
def Ty.low (t : Ty) (x : DWord) : Nat := x.toNat % 2 ^ t.width

/-- An operand read as the type reads it. -/
def Ty.int (t : Ty) (x : DWord) : Int := t.intValue x.toNat

/-- A result of the type as a 64-bit value, zero above its width. -/
def Ty.word (t : Ty) (n : Int) : DWord := BitVec.ofNat 64 (t.wrap n)

/-- Addition modulo 2^w, or clamped. -/
def intResult (t : Ty) (sat : Bool) (n : Int) : DWord := BitVec.ofNat 64 (if sat then t.clamp n else t.wrap n)

/-- Bits [2w−1:w] of the exact product. -/
def intMulHigh (t : Ty) (a b : DWord) : DWord := t.word (t.int a * t.int b / 2 ^ t.width)

/-- The quotient rounded towards zero; all ones for a division by zero (R73). -/
def intDiv (t : Ty) (a b : DWord) : DWord := if t.low b = 0 then t.word (-1) else t.word ((t.int a).tdiv (t.int b))

/-- The remainder with the sign of the dividend; the dividend for a division by zero (R73). -/
def intRem (t : Ty) (a b : DWord) : DWord := if t.low b = 0 then t.word (t.int a) else t.word ((t.int a).tmod (t.int b))

/-- The lesser operand. -/
def intMin (t : Ty) (a b : DWord) : DWord := t.word (if t.int a ≤ t.int b then t.int a else t.int b)

/-- The greater operand. -/
def intMax (t : Ty) (a b : DWord) : DWord := t.word (if t.int b ≤ t.int a then t.int a else t.int b)

/-- Bitwise operations on the width of the type. -/
def bitAnd (t : Ty) (a b : DWord) : DWord := BitVec.ofNat 64 (t.low (a &&& b))
/-- Bitwise or. -/
def bitOr (t : Ty) (a b : DWord) : DWord := BitVec.ofNat 64 (t.low (a ||| b))
/-- Bitwise exclusive or. -/
def bitXor (t : Ty) (a b : DWord) : DWord := BitVec.ofNat 64 (t.low (a ^^^ b))

/-- Shift left by b read unsigned; 0 from w on. -/
def shiftLeft (t : Ty) (a b : DWord) : DWord :=
  if t.width ≤ t.low b then 0 else BitVec.ofNat 64 (t.low (a <<< t.low b))

/-- Logical shift right; 0 from w on. -/
def shiftRight (t : Ty) (a b : DWord) : DWord :=
  if t.width ≤ t.low b then 0 else BitVec.ofNat 64 (t.low a >>> t.low b)

/-- The value read as signed whatever the type: for arithmetic shifts. -/
def Ty.signedInt (t : Ty) (x : DWord) : Int :=
  let y := t.low x
  if 2 ^ (t.width - 1) ≤ y then (y : Int) - 2 ^ t.width else y

/-- Arithmetic shift right; copies of the sign bit from w on. -/
def shiftArith (t : Ty) (a b : DWord) : DWord :=
  t.word (t.signedInt a / 2 ^ (if t.width ≤ t.low b then t.width else t.low b))

/-- The number of set bits. -/
def popCount (t : Ty) (a : DWord) : DWord :=
  BitVec.ofNat 64 ((List.range t.width).filter fun i => a.getLsbD i).length

/-- The number of leading zeros; w for 0. -/
def leadingZeros (t : Ty) (a : DWord) : DWord := BitVec.ofNat 64 (t.width - bitLength (t.low a))

/-- The number of trailing zeros; w for 0. -/
def trailingZeros (t : Ty) (a : DWord) : DWord :=
  BitVec.ofNat 64 (((List.range t.width).find? fun i => a.getLsbD i).getD t.width)

/-- Bit i moved to bit w − 1 − i. -/
def bitReverse (t : Ty) (a : DWord) : DWord :=
  BitVec.ofNat 64 ((List.range t.width).foldl (fun m i => if a.getLsbD i then m + 2 ^ (t.width - 1 - i) else m) 0)

/-- A field of n bits at a position, sign-extended for s types (R131, R161); 0 for n = 0. -/
def fieldExtract (t : Ty) (a : DWord) (pos n : Nat) : DWord :=
  let f := t.low a / 2 ^ pos % 2 ^ n
  if n = 0 then 0
  else if t.signed && decide (2 ^ (n - 1) ≤ f) then t.word ((f : Int) - 2 ^ n) else BitVec.ofNat 64 f

/-- A field of n bits at a position of `d` replaced by the low bits of `a`. -/
def fieldInsert (t : Ty) (d a : DWord) (pos n : Nat) : DWord :=
  let m := (2 ^ n - 1) * 2 ^ pos
  BitVec.ofNat 64 (t.low ((d &&& ~~~(BitVec.ofNat 64 m)) ||| BitVec.ofNat 64 (t.low a % 2 ^ n * 2 ^ pos)))

/-- An integer comparison by its `COND` code (R103). -/
def intCompare (t : Ty) (cond : Nat) (a b : DWord) : Bool :=
  Machine.compareCode cond t.signed t.width (t.low a) (t.low b)

/-- What a truth value writes into a predicate. -/
def truth (b : Bool) : DWord := if b then 1 else 0

end Sys2Proof
end

