-- ==== Sys2Proof/Machine/Settle.lean ====
section
/-! DEFINITION. What an atomic computes and does at its point of order (R191 to R193, R225), and what an instruction performs
of its context's earlier accesses before it goes on: loads still in flight and reductions (R219, R221, R225), and, at an edge,
stores (R236). -/

namespace Sys2Proof

open Machine

/-! ## What an atomic computes (R191) -/

/-- The new value of an element. -/
def atomicNew (op : AtomicOp) (ty : Ty) (env : FpEnv) (old b compare : Nat) : Nat × Flags :=
  let x := BitVec.ofNat 64 old
  let y := BitVec.ofNat 64 b
  match op with
  | .add => if ty.float then ty.fmt.add env old b else (ty.wrap (old + b), 0)
  | .min => ((intMin ty x y).toNat, 0)
  | .max => ((intMax ty x y).toNat, 0)
  | .and => ((bitAnd ty x y).toNat, 0)
  | .or => ((bitOr ty x y).toNat, 0)
  | .xor => ((bitXor ty x y).toNat, 0)
  | .swap => (b, 0)
  | .cas => (if old = compare then b else old, 0)
  | .inc => (if b ≤ old then 0 else old + 1, 0)

/-- The atomics that PCIe carries (R194). -/
def pcieAtomic (op : AtomicOp) (ty : Ty) : Bool :=
  match op with
  | .add => !ty.float
  | .swap => true
  | .cas => true
  | _ => false

/-- One lane of an atomic at its point of order: the old value, none where the element has an uncorrectable error and the
lane is not performed, and the flags (R192). The core's own stores to the sector come first (R225). One that changes memory
counts for the spinning test (R42), and its page is marked dirty through the TLB entry
of its issue (R57). -/
def Machine.State.atomicAt (s : State) (o : Op) (op : AtomicOp) (ty : Ty) (env : FpEnv) (a : AtomicLane) :
    State × Option Nat × Flags :=
  let s := match a.at_.place with
    | .mem pa => s.settleSector o.core (some o.ctx) pa
    | .scratch _ _ => s
  if s.poisonedPlace a.at_.place then (s.logPlace a.at_.place, none, 0)
  else
    let s := match a.at_.tlb with
      | some t => s.touchEntry o.core t
      | none => s
    let old := s.readPlace a.at_.place (ty.width / 8)
    let r := atomicNew op ty env old a.operand.toNat a.compare.toNat
    let s := s.writePlace a.at_.place (ty.width / 8) r.1
    (if r.1 = old then s else s.modCtx o.ctx fun c => { c with lastAtomic := s.clock + 1 }, some old, r.2)

namespace Machine

/-- An old value that returns; poison where the lane was not performed (R192). -/
def Ctx.atomicResult (c : Ctx) (reg : Nat) (ty : Ty) (l : Nat) (old : Option Nat) : Ctx :=
  match old with
  | some x => c.writeAt false ty.wide reg l (BitVec.ofNat 64 x)
  | none => c.poisonLocs (locsOf false reg ty.regs (laneBit l)) .poison 0

/-- A `red` or scatter-add lane that is not performed is reported (R193, R315). -/
def State.reportLane (s : State) (o : Op) (a : LaneAt) : State :=
  let t := { Trap.atAddr .poison a.va 2 with lane := a.lane, lanes := laneBit a.lane }
  (s.engineRecord o.ctx t 3 o.pc 0).1

/-- An old value as the words of a response. -/
def oldWords (ty : Ty) (old : Option Nat) : Response :=
  tabulate ty.regs fun i => old.map fun x => BitVec.ofNat 32 (x / 2 ^ (32 * i))

/-- The lanes of a reduction are performed (R193, R340). -/
def State.performRed (s : State) (n : Nat) (o : Op) (op : AtomicOp) (ty : Ty) (env : FpEnv) (lanes : List AtomicLane) : State :=
  foldState lanes s fun s a =>
    match s.atomicAt o op ty env a with
    | (s, old, _) =>
      (if old.isNone then s.reportLane o a.at_ else s).notePart n (s.placeLink o.die o.core a.at_.place) []

/-! ## Earlier accesses of a context -/

/-- The loads of a context that are still in flight read now, and its reductions are performed, in the order of their issue,
before a later access or an edge of the same lanes (R219, R221, R225, log entry 50). The loads' registers fill later. -/
def State.settleReads (s : State) (id : Nat) : State :=
  foldState (s.ops.filter fun e => e.2.ctx == id) s fun s e =>
    match e.2.kind with
    | .load _ _ _ _ _ _ => s.readOp e.1 fun _ => true
    | .atomic op ty rnd fpctl lanes none _ false => (s.performRed e.1 e.2 op ty (fpEnv fpctl rnd) lanes).endOp e.1
    | _ => s

/-- The reductions of a context that are still in flight are performed, before a later load of the same lanes (R221, R225). -/
def State.settleReds (s : State) (id : Nat) : State :=
  foldState (s.ops.filter fun e => e.2.ctx == id) s fun s e =>
    match e.2.kind with
    | .atomic op ty rnd fpctl lanes none _ false => (s.performRed e.1 e.2 op ty (fpEnv fpctl rnd) lanes).endOp e.1
    | _ => s

/-- The write-back of an edge source: the context's earlier reads and reductions are performed, and every line that it marked is
performed at its home (R236). -/
def State.writeBack (s : State) (id : Nat) : State :=
  let s := s.settleReads id
  match s.ctxs.look id with
  | some c => s.writeBackLines c.core (some id) fun _ l => l.marks &&& c.markBit != 0
  | none => s

end Machine

end Sys2Proof
end

