-- ==== Sys2Proof/Machine/Engine.lean ====
section
/-! DEFINITION. What engines and exits share: the destinations of operations in flight and their abandonment (R308, R311,
R316), step-frame postings (R293), the end of an engine operation on a cause (R204, R181, R276, R292, R294), region
restart (R308), and lanes that end (R137, R301, R306). -/

namespace Sys2Proof.Machine

/-! ## Destinations of operations in flight -/

/-- The registers that a walker operation writes in a lane (R279 to R282). -/
def Walk.size (w : Walk) : Nat :=
  match w.kind with
  | 1 => stencilSize w.pat
  | 4 => 6
  | _ => 1

/-- The locations a vocabulary operation fills (R182 to R184). -/
def Vocab.dests (v : Vocab) : List Nat :=
  match v.kind with
  | 1 => locsOf false v.dst 2 (laneSet (List.range v.k))
  | 2 => if v.captured.isSome then locsOf false v.dst 1 (laneSet (List.range v.n)) else [locS v.dst, locS (v.dst + 1)]
  | _ => [locS v.dst]

/-- The locations that an operation is still to fill. -/
def OpKind.dests : OpKind → List Nat
  | .load scalar reg ty lanes _ got =>
    (if !scalar then locsOf false reg ty.regs (laneSet (lanes.map (·.lane)))
      else if lanes.isEmpty then [] else locsOf true reg ty.regs 0) ++ got.map Prod.fst
  | .result values => values.map Prod.fst
  | .gather reg ty lanes _ => locsOf false reg ty.regs (laneSet (lanes.map (·.lane)))
  | .walk w => locsOf false w.dst w.size (laneSet (w.lanes.map Prod.fst))
  | .fpoll polls => polls.map Prod.fst
  | .pop _ regs => regs.flatten
  | .vocab v => v.dests
  | .dtrav d => locsOf true d.dst 3 0
  | .insert (some reg) _ lanes _ => locsOf false reg 2 (laneSet (lanes.map Prod.fst))
  | _ => []

/-- The operation without its destinations, where it goes on although its results are discarded. -/
def OpKind.withoutDests : OpKind → Option OpKind
  | .pop die regs => some (.pop die (regs.map fun _ => []))
  | .insert (some _) tree lanes held => some (.insert none tree lanes held)
  | _ => none

/-- The writes of `APRED` of lanes that have none to report (R279). -/
def Ctx.clearApred (c : Ctx) (apred : Nat) (lanes : LaneMask) : Ctx := if apred = 0 then c else c.setPred apred lanes 0

/-- What an operation leaves when it is over before its time: the bits of `APRED` that it was still to write are clear (R279),
and with no vocabulary operation in flight `%vprog` is 0 (R180). -/
def OpKind.cease (k : OpKind) (c : Ctx) : Ctx :=
  match k with
  | .walk w => c.clearApred w.apred (laneSet (w.lanes.map Prod.fst))
  | .activity _ apred _ lanes _ => c.clearApred apred (laneSet (lanes.map Prod.fst))
  | .vocab _ => { c with special := { c.special with vprog := 0 } }
  | _ => c

/-- The destinations that an operation has still to fill become poison-empty. -/
def State.poisonDests (s : State) (n : Nat) (o : Op) (cause : Cause) (detail : Nat) : State :=
  s.modCtx o.ctx fun c => c.behind n fun c => c.poisonLocs (o.kind.dests.filter c.isEmpty) cause detail

/-- Abandons a producer: its destinations become poison-empty, and the late value is discarded (R308, R311, R316). -/
def State.abandon (s : State) (n : Nat) (cause : Cause) (detail : Nat) : State :=
  match s.ops.look n with
  | none => s
  | some o =>
    let s := (s.poisonDests n o cause detail).modCtx o.ctx o.kind.cease
    match o.kind.withoutDests with
    | some k => s.modOp n fun o => { o with kind := k }
    | none => s.endOp n

/-! ## Operations that a split waits for -/

/-- The split waits for an operation (R149, R145, R186, R192, R197, R198, R209). -/
def State.waitsFor (s : State) (n : Nat) (o : Op) : Bool :=
  (((s.ctxs.look o.ctx).bind fun c => c.splits.look o.split).map (·.wait)) == some (.op n)

/-- An engine's entry interrupted the split while it waited for an operation (R305, log entry 17). -/
def Ctx.interrupted (c : Ctx) (n : Nat) (o : Op) : Bool :=
  c.handler.any fun h => h.split == o.split && h.wait == .op n

/-- What the wait of a split that an engine's entry interrupted has become. -/
def State.modHandler (s : State) (n : Nat) (o : Op) (f : Handler → Handler) : State :=
  s.modCtx o.ctx fun c => if c.interrupted n o then { c with handler := c.handler.map f } else c

/-- The region that a commit opens for a split which runs a handler meanwhile (R141). -/
def Ctx.openBehind (c : Ctx) (i : Nat) (pc : DWord) : Ctx :=
  let n := c.opened + 1
  { c.bumpRec with
    opened := n, splits := c.splits.modify i fun sp => { sp with region := pc, regionNo := n, frames := [] } }

/-- The operation that its instruction awaited is performed: the instruction commits (R141). -/
def State.commitOp (s : State) (n : Nat) (o : Op) : State :=
  let waits := s.waitsFor n o
  let behind := ((s.ctxs.look o.ctx).map fun c => c.interrupted n o).getD false
  let s := (s.endOp n).modHandler n o fun h => { h with savedPc := o.next, wait := .ready }
  if behind then (s.modCtx o.ctx fun c => c.openBehind o.split o.next).issued o.ctx
  else if !waits then s
  else
    let s := s.modSplit o.ctx o.split fun sp => { sp with wait := .ready, pc := o.next }
    (s.modCtx o.ctx fun c => c.newRegion o.split).issued o.ctx

/-- The operation that its instruction awaited is refused: the split takes the cause precisely, once a handler that it runs has
returned; one whose region is to be restarted issues its instruction anew (R312). -/
def State.refuseOp (s : State) (n : Nat) (o : Op) (t : Trap) : State :=
  let waits := s.waitsFor n o
  let again := (((s.ctxs.look o.ctx).bind fun c => c.splits.look o.split).map (·.restart)).getD false
  let s := (s.endOp n).modHandler n o fun h => { h with wait := .due t }
  if !waits then s
  else
    let s := s.modSplit o.ctx o.split fun sp => { sp with wait := .ready }
    if again then s else s.takeTrap o.ctx o.split t none

/-- The split that waited for an operation, which committed before, goes on. -/
def State.wakeOp (s : State) (n : Nat) (o : Op) : State :=
  let waits := s.waitsFor n o
  let s := (s.endOp n).modHandler n o fun h => { h with wait := .ready }
  if waits then s.modSplit o.ctx o.split fun sp => { sp with wait := .ready } else s

/-- A producer's results land: a location that is still empty becomes full; one of a lane that has exited keeps nothing
(R105, R137). -/
def Ctx.land (c : Ctx) (values : List (Nat × Word)) : Ctx :=
  values.foldl (fun c e =>
    if !c.isEmpty e.1 then c
    else if e.1 < 16384 && c.exited.getLsbD (e.1 % 64) then c.fillLocs [e.1]
    else c.writeLoc e.1 e.2) c

/-- The results of operation n land in its context (R105, R301). -/
def State.landAt (s : State) (id n : Nat) (values : List (Nat × Word)) : State :=
  s.modCtx id fun c => c.behind n fun c => c.land values

/-! ## Step frames (R293) -/

/-- The 16 bytes of a step frame after a posting; `poison` sets `POISON` too. -/
def stepPosted (frame : Nat) (poison : Bool) : Nat :=
  let count := frame % 2 ^ 32
  let left := frame / 2 ^ 32 % 2 ^ 32
  let step := frame / 2 ^ 64 % 2 ^ 16
  let bad := frame / 2 ^ 80 % 2 == 1 || poison || left == 0
  let last := left == 1
  let left' := if left = 0 then 0 else if last then count else left - 1
  let step' := if last then (step + 1) % 2 ^ 16 else step
  count + left' * 2 ^ 32 + step' * 2 ^ 64 + (if bad then 2 ^ 80 else 0) + frame / 2 ^ 81 * 2 ^ 81

/-- A context's posting: one atomic at the frame's home slice (R140, R293); on an uncorrectable error it is not performed (R315). -/
def State.postStep (s : State) (id pa : Nat) (poison : Bool) : State :=
  let s := s.countLine id 0x12 (pa / 128) 0
  if s.poisonedAt pa then s.logUncorrectable pa else s.writeNat pa 16 (stepPosted (s.readHome pa 16) poison)

/-! ## The end of an engine operation on a cause -/

/-- The bytes of a copy. -/
def rowBytes (rows : List Row) : Nat := rows.foldl (fun n r => n + r.bytes) 0

/-- The bytes that have landed, as intervals of first byte and count. -/
def landedBytes (l : List (Nat × Nat)) : Nat := l.foldl (fun n e => n + e.2) 0

/-- Ends an operation on a cause that cannot be serviced: a copy's undelivered bytes are posted as landed and the
barrier's `POISON` is set (R204); results become poison-empty (R181, R276, R292); a halo posts with `POISON` (R294). -/
def State.endEngine (s : State) (n : Nat) (t : Trap) : State :=
  match s.ops.look n with
  | none => s
  | some o =>
    let ended := fun s : State => (s.poisonDests n o t.cause t.detail).modCtx o.ctx o.kind.cease
    match o.kind with
    | .copy rows landed b _ tile =>
      let s := (s.landBytes b (rowBytes rows - landedBytes landed)).poisonBarrier b
      (match tile with
        | some k => s.modCtx o.ctx fun c => c.fillLocs [locT k]
        | none => s).endOp n
    | .halo _ _ step _ _ _ => (s.postStep o.ctx step true).endOp n
    | _ => (ended s).endOp n

/-- The `SOURCE` of a fault record by the kind of operation (R303). -/
def OpKind.source : OpKind → Nat
  | .copy _ _ _ rows _ => if rows then 2 else 1
  | .gather _ _ _ _ => 3
  | .walk _ => 4
  | .activity _ _ _ _ _ => 4
  | .dtrav _ => 5
  | .halo _ _ _ _ _ _ => 6
  | .insert _ _ _ _ => 7
  | .vocab _ => 8
  | .matrix _ => 9
  | _ => 0

/-- The k-groups of an operation that have been added, for `mmas` those of every stage (R260). -/
def MatOp.steps (m : MatOp) : Nat :=
  match pairOf m.fa m.fb with
  | some p => m.done * (Nat.min (tileLength m.fa) (tileLength m.fb) / p.2) + m.kstep
  | none => 0

/-- `PROGRESS` of a fault record (R303). -/
def OpKind.progress : OpKind → Nat
  | .copy _ landed _ _ _ => landedBytes landed
  | .gather _ _ _ moved => moved
  | .halo _ _ _ _ moved _ => moved
  | .vocab v => v.blocks
  | .matrix m => m.steps
  | _ => 0

/-- An operation ends on a cause, and its fault record is written (R303, R204), with the address of the issuing instruction (log
entry 123). -/
def State.failEngine (s : State) (n : Nat) (t : Trap) : State :=
  match s.ops.look n with
  | none => s
  | some o =>
    let t := { t with source := o.kind.source }
    ((s.engineRecord o.ctx t 3 o.pc o.kind.progress).1).endEngine n t

/-! ## Region restart (R308, R143) -/

/-- A producer that a restart of its region abandons: one of an instruction that did not commit. -/
def OpKind.restartable : OpKind → Bool
  | .load _ _ _ _ _ _ => true
  | .result _ => true
  | .walk _ => true
  | .fpoll _ => true
  | .activity _ _ _ _ _ => true
  | _ => false

/-- Restarts a split's current region. What its lanes stored is performed first, so that no store of the repetition merges with
one of them (R226). -/
def State.restart (s : State) (id i : Nat) : State :=
  match (s.ctxs.look id).bind fun c => c.splits.look i with
  | none => s
  | some sp =>
    let s := s.writeBack id
    let mine := s.ops.filter fun e =>
      e.2.ctx == id && e.2.split == i && e.2.regionNo == sp.regionNo && e.2.kind.restartable
    let s := foldState mine s fun s e => s.abandon e.1 .poison 2
    let s := foldState sp.frames s fun s h => s.freeFrame (handleKey h)
    let s := s.modCtx id fun c =>
      { c with
        owned := c.owned.filter fun o => !sp.frames.contains o.handle
        splits := c.splits.modify i fun sp => { sp with pc := sp.region, frames := [] } }
    s.countEvent id 3 0 1

/-! ## Lanes that end (R137) -/

/-- A group is cancelled (R306): its parked splits are released to take `CANCELLED`, and every task of the group that has still to
report ends in error, one whose lanes have all exited too. -/
def State.killGroup (s : State) (id : Nat) : State :=
  let s := s.modCtx id fun c => { c with killed := true, errTasks := BitVec.allOnes 64, splits := c.splits.map fun p => (p.1, p.2.cancel) }
  let s := s.dropWaiting fun r => r.continues id
  { s with
    watch := s.watch.filter fun w => w.ctx != id
    cores := s.cores.map fun e => (e.1, { e.2 with latch := e.2.latch.filter fun a => a.ctx != id }) }

/-- The handler ends without restoring anything, and the splits that waited for it issue again (R300, R301). -/
def Ctx.dropHandler (c : Ctx) : Ctx :=
  { c with
    handler := none
    splits := c.splits.map fun e => if e.2.wait == .handler then (e.1, { e.2 with wait := .ready }) else e }

/-- The frame of the task that a lane belongs to (R361). -/
def Ctx.taskFrame (c : Ctx) (lane : Nat) : Word := if c.perLane then c.taskFrames.at 0 lane else c.special.frame

/-- A supervisor handler returns by `exit` (R303, R305, R306): its fault record closes, the engine that asked for it ends,
its group is cancelled, and a group whose task frame is null ends its graph with the fault's cause. -/
def State.exitSupervisor (s : State) (id : Nat) (c : Ctx) (h : Handler) : State :=
  let s := s.closeRecord h 2
  let s := match h.engine with
    | some n => s.endEngine n (((s.ops.look n).bind (·.fault)).getD (Trap.of .pageFault))
    | none => s
  let s := (s.modCtx id Ctx.dropHandler).killGroup id
  let lane := bitsOf h.cause 13 8
  if c.taskFrame lane = 0 then
    s.endGraph c.graph 1 (some
      { cause := bitsOf h.cause 7 0, detail := bitsOf h.cause 31 16, core := BitVec.ofNat 32 c.launchCore, lane := lane
        pc := h.savedPc })
  else s

/-- What an exit of lanes does to the handler that the split runs (R301): a supervisor handler ends the group; a kernel
handler is over when the split's `MASK` holds no lane any more (log entry 18). -/
def State.exitHandler (s : State) (id i : Nat) (lanes : LaneMask) : State :=
  match s.ctxs.look id with
  | none => s
  | some c =>
    match c.handler, c.splits.look i with
    | some h, some sp =>
      if h.split != i then s
      else if h.supervisor then s.exitSupervisor id c h
      else if sp.mask &&& ~~~lanes = 0 then s.modCtx id Ctx.dropHandler
      else s
    | _, _ => s

/-- Lanes of a split end, their tasks in error or not (R137); an exit in a supervisor handler cancels its group, and ends in
error (R306). -/
def State.exitLanes (s : State) (id i : Nat) (lanes : LaneMask) (err : Bool) : State :=
  let super := ((s.ctxs.look id).bind (·.handler)).any fun h => h.split == i && h.supervisor
  let err := err || super
  let s := s.exitHandler id i lanes
  match s.ctxs.look id with
  | none => s
  | some c =>
    let marks := if err then (if c.perLane then lanes else 1#64) else 0
    let s := s.modCtx id fun c => { c.dropLanes i lanes with errTasks := c.errTasks ||| marks }
    s.settleBarrier c.team

end Sys2Proof.Machine

namespace Sys2Proof

open Machine

/-- The operation that an instruction starts. -/
def Issue.op (is : Issue) (s : State) (kind : OpKind) : Op :=
  { ctx := is.id, split := is.i, graph := is.c.graph, core := is.c.core, die := is.c.die
    lanes := if is.c.perLane then is.sp.mask else 1
    regionNo := is.sp.regionNo, born := s.clock, pc := is.sp.pc, next := is.next, fault := none, record := none, kind := kind }

/-- A cause of some lanes; of the whole split where none is named (R299, R300). -/
def Machine.Trap.inLanes (t : Trap) (ls : List Nat) : Trap :=
  let m := laneSet (ls.filter fun l => l < 64)
  { t with lanes := m, lane := lowestLane m }

end Sys2Proof
end

