-- ==== Sys2Proof/Machine/Launch.lean ====
section
/-! DEFINITION. Node tables and arms (R318, R319, R322, R323), records on their way (R148, R326), the launch of a team from a
bin (R324, R325) and the reorder unit (R328). -/

namespace Sys2Proof.Machine

/-! ## Node-table entries (R322, R323) -/

/-- Bytes of a block that must be 0. -/
def zeroBytes (bs : List Byte) (off n : Nat) : Bool := ((bs.drop off).take n).all fun b => b == 0

/-- The limits of R323, with those of R35, R37, R38 and R51 on one entry. R35 says that a stealable group holds no tile and no block;
that an entry which gives it some breaks the limits is read from that (log entry 148). -/
def Node.valid (d : Node) : Bool :=
  let teams := if d.pair then decide (2 ≤ d.team ∧ d.team ≤ 32) else decide (1 ≤ d.team ∧ d.team ≤ 16)
  let most := match d.kind with
    | .uniform => d.team
    | .lanes => d.width * d.team
    | .sweep => 1
    | .reorder => d.width
  teams && ((d.kind != .sweep && d.kind != .reorder) || d.team == 1)
    && decide (1 ≤ d.count ∧ d.count ≤ most)
    && (d.timer == 0 || decide (16 ≤ d.timer ∧ d.timer ≤ 2 ^ 24))
    && decide (d.count ≤ d.cap ∧ d.cap ≤ 2 ^ 20)
    && canonical d.traph && d.traph.toNat % 4 == 0 && canonical d.entry && d.entry.toNat % 4 == 0
    && decide (8 ≤ d.regs ∧ d.regs ≤ 256) && decide (d.tiles ≤ 16) && decide (d.accs ≤ 32)
    && decide (d.scratch ≤ 262144)
    && (!d.steal || (d.team == 1 && d.scratch == 0 && !d.pair && d.tiles == 0 && d.accs == 0))

/-- `KIND` of a node-table entry (R322). -/
def nodeKind (bs : List Byte) : NodeKind :=
  match blockField bs 8 1 % 4 with
  | 0 => .uniform
  | 1 => .lanes
  | 2 => .sweep
  | _ => .reorder

/-- Parses a node-table entry; none where it breaks R323. -/
def Node.ofBytes (bs : List Byte) : Option Node :=
  let f := fun off n => blockField bs off n
  let ctl := f 8 1
  let d : Node :=
    { entry := BitVec.ofNat 64 (f 0 8)
      kind := nodeKind bs
      width := match ctl / 4 % 4 with | 0 => 16 | 1 => 32 | _ => 64
      pair := ctl / 16 % 2 == 1, steal := ctl / 32 % 2 == 1
      team := f 9 1, regs := 8 * f 10 1, tiles := f 11 1, accs := f 12 1
      scratch := f 16 4, count := f 20 4, timer := f 24 4, cap := f 28 4, traph := BitVec.ofNat 64 (f 32 8) }
  if ctl / 4 % 4 = 3 || ctl / 64 != 0 || !zeroBytes bs 13 3 || !zeroBytes bs 40 24 || !d.valid then none else some d

/-- The physical address of a die's node-table entry. -/
def State.nodePa (s : State) (die n : Nat) : Nat := s.reserved die + Config.nodeTable + 64 * n

/-- Reads a node-table entry through a core's control-block cache (R230); an uncorrectable error is reported (R315). -/
def State.nodeVia (s : State) (core die n : Nat) : State × Except Trap Node :=
  if 4096 ≤ n then (s, .error (Trap.of .controlBlock))
  else
    let pa := s.nodePa die n
    match s.controlBlock core pa 64 with
    | (s, none) => (s, .error (Trap.of .poison))
    | (s, some bs) =>
      match Node.ofBytes bs with
      | none => (s, .error (Trap.of .controlBlock))
      | some d => (s, .ok d)

/-- The entry as the die's own scheduling hardware reads it, at its home. -/
def State.nodeHome (s : State) (die n : Nat) : Except Cause Node :=
  if 4096 ≤ n then .error .controlBlock
  else
    let pa := s.nodePa die n
    if s.poisonedAt pa || s.poisonedAt (pa + 32) then .error .poison
    else
      match Node.ofBytes (tabulate 64 fun i => s.byteAt (pa + i)) with
      | none => .error .controlBlock
      | some d => .ok d

/-- The kind of node that an entry names, whatever else it holds, as the die's own hardware reads it (R319). -/
def State.kindHome (s : State) (die n : Nat) : Except Cause NodeKind :=
  if 4096 ≤ n then .error .controlBlock
  else
    let pa := s.nodePa die n
    if s.poisonedAt pa || s.poisonedAt (pa + 32) then .error .poison
    else .ok (nodeKind (tabulate 64 fun i => s.byteAt (pa + i)))

/-- The kind of node that an entry names, through a core's control-block cache (R230, R319). -/
def State.kindVia (s : State) (core die n : Nat) : State × Except Trap NodeKind :=
  if 4096 ≤ n then (s, .error (Trap.of .controlBlock))
  else
    let pa := s.nodePa die n
    match s.controlBlock core pa 64 with
    | (s, none) => (s, .error (Trap.of .poison))
    | (s, some bs) => (s, .ok (nodeKind bs))

/-- An entry of a table that cannot be read is reported in the die's error log (R315). -/
def State.reportEntry (s : State) (pa : Nat) : State :=
  match s.poisonIn pa 64 with
  | some bad => s.logUncorrectable bad
  | none => s

/-! ## Arms (R318, R319) -/

/-- An arm entry. -/
structure Arm where
  node : Nat
  valid : Bool
  source : Nat
  prio : Nat
  tag : Nat
  asroot : Nat
  super : DWord
  compl : DWord
  lbuf : DWord
  lbufn : Nat
  lhead : Nat
  /-- every reserved field is 0 -/
  clean : Bool
deriving DecidableEq, Repr

/-- Parses an arm entry. -/
def Arm.ofBytes (bs : List Byte) : Arm :=
  let f := fun off n => blockField bs off n
  let ctl := f 2 1
  { node := f 0 2, valid := ctl % 2 == 1, source := ctl / 2 % 4, prio := ctl / 16 % 8, tag := f 4 4
    asroot := f 8 8, super := BitVec.ofNat 64 (f 16 8), compl := BitVec.ofNat 64 (f 24 8)
    lbuf := BitVec.ofNat 64 (f 32 8), lbufn := f 40 4, lhead := f 44 4
    clean := ctl / 8 % 2 == 0 && ctl / 128 == 0 && zeroBytes bs 3 1 && zeroBytes bs 48 16 }

/-- The physical address of an arm entry. -/
def State.armPa (s : State) (die arm : Nat) : Nat := s.reserved die + Config.armTable + 64 * arm

/-- A kind that an arm may fire (R319). -/
def NodeKind.armable (k : NodeKind) : Bool := k == .uniform || k == .lanes || k == .sweep

/-- A kind that `spawn`, `emit` and `dtrav` may target (R149, R289). -/
def NodeKind.spawnable (k : NodeKind) : Bool := k == .uniform || k == .lanes || k == .reorder

/-- The checks of R319 on an entry, with the kind of the node that it names. -/
def Arm.fires (a : Arm) (source : Nat) (node : Except Cause NodeKind) : Bool :=
  a.valid && a.clean && a.source == source && (match node with
    | .ok k => k.armable
    | .error _ => false)

/-! ## Records on their way -/

/-- A die's waiting records (R326). -/
def State.waitingRecords (s : State) (die : Nat) : Nat :=
  (s.sent.filter fun r => r.die == die).length
    + (s.bins.filter fun b => b.die == die).foldl (fun n b => n + b.records.length) 0

/-- The die has room for n more records (R326). -/
def State.recordsFit (s : State) (die n : Nat) : Bool := decide (s.waitingRecords die + n ≤ Config.recordRoom)

/-- A graph takes no more work. -/
def State.graphEnding (s : State) (g : Nat) : Bool := ((s.graphs.look g).map (·.ending)).getD true

/-- A record leaves for its bin; one of an ending graph is discarded (R301). -/
def State.send (s : State) (r : Sent) : State :=
  if s.graphEnding r.record.graph then s.discard r.record
  else { s with sent := s.sent ++ [{ r with number := s.nextId }], nextId := s.nextId + 1 }

/-- Starts a new graph from an arm and sends its record (R319), which comes from a die and, for `fire`, was issued by a graph (R341);
the die leaves D1 (R352). -/
def State.fireArm (s : State) (source : Nat) (issuer : Option Nat) (die arm : Nat) (a : Arm) (args : List Word) (host link : Bool) (compl : DWord)
    (slot : Option (Nat × Nat)) : State :=
  let g : Graph :=
    { die := die, arm := arm, asroot := a.asroot, super := a.super, compl := compl, status := 0, blame := none
      ending := false, hostLost := false, linkSlot := slot }
  let n := s.nextId
  let r : Record :=
    { node := a.node, frame := 0, flags := recordFlags a.prio host link false, args := args, graph := n, resumes := none }
  ({ s with graphs := s.graphs.ins n g, nextId := n + 1 }.wakeDie die).send
    { number := 0, die := die, source := source, issuer := issuer.getD n, record := r, arm := some (8192 * die + arm) }

/-! ## Launching (R324, R325) -/

/-- A cause that no group took (R301). -/
def Cause.blame (c : Cause) : Blame := { cause := c.code, detail := 0, core := 0xFFFFFFFF#32, lane := 0, pc := 0 }

/-- The scratch allocation of a team on each of its cores (R37). -/
def Node.allocation (d : Node) (groups : Nat) : Nat :=
  let on := if d.pair then (groups + 1) / 2 else groups
  (d.scratch + 1023) / 1024 * 1024 + 768 * on

/-- A team of so many groups fits on an empty core, or on an empty pair (R323). -/
def Node.fits (d : Node) (groups : Nat) : Bool :=
  let on := if d.pair then (groups + 1) / 2 else groups
  decide (on ≤ 16) && decide (on * d.width * d.regs * 4 ≤ 262144) && decide (on * d.tiles ≤ 16)
    && decide (on * d.accs ≤ 32) && decide (d.allocation groups ≤ 262144)

/-- The groups of a launch of n records (R325, R327, R328). -/
def Node.groupsFor (d : Node) (n : Nat) : Nat :=
  match d.kind with
  | .uniform => n
  | .lanes => (n + d.width - 1) / d.width
  | _ => 1

/-- A launch from an entry that breaks the rules, or cannot be read, ends its graph; its records are lost (R323, R315). -/
def State.failLaunch (s : State) (g : Nat) (c : Cause) (records : List Record) : State :=
  foldState records (s.endGraph g 1 (some c.blame)) State.discard

/-- Launches a team of records of one graph (R324); a reserved bit of `FLAGS` is `CONTROL_BLOCK` at the dispatch (R22). -/
def State.launchTeam (s : State) (die node g : Nat) (records : List Record) (sweep : Option (List Word × Tree)) : State :=
  match s.nodeHome die node with
  | .error c => (s.reportEntry (s.nodePa die node)).failLaunch g c records
  | .ok d =>
    if records.any Record.badFlags || !d.fits (d.groupsFor records.length) then s.failLaunch g .controlBlock records
    else
      let key := 4096 * die + node
      let n := s.launches.at 0 key
      let w : Waiting :=
        { die := die, nodeIndex := node, node := d, graph := g
          prio := records.foldl (fun p r => max p r.prio) 0
          teamNo := BitVec.ofNat 32 n, records := records, sweep := sweep, since := s.clock, aged := false }
      { s with placeQ := s.placeQ ++ [w], launches := s.launches.put 0 key ((n + 1) % 2 ^ 32) }

/-! ## The reorder unit (R328) -/

/-- The deposits filed under a key of a graph. -/
def Deposit.under (d : Deposit) (die node : Nat) (key : Word) (g : Nat) : Bool :=
  d.die == die && d.node == node && d.key == key && d.record.graph == g

/-- Launches the deposits of a key as one group, at most `most` of them. -/
def State.launchKey (s : State) (die node : Nat) (key : Word) (g most : Nat) : State :=
  let ds := (s.deposits.filter fun d => d.under die node key g).take most
  if ds.isEmpty then s
  else
    let rest := s.deposits.foldl (fun (acc : List Deposit × Nat) d =>
      if d.under die node key g && decide (acc.2 < most) then (acc.1, acc.2 + 1) else (acc.1 ++ [d], acc.2)) ([], 0)
    ({ s with deposits := rest.1 }).launchTeam die node g (ds.map fun d : Deposit => d.record) none

/-- `COUNT` of a node; 64, the widest group, where its entry cannot be read. -/
def State.countOf (s : State) (die node : Nat) : Nat :=
  match s.nodeHome die node with
  | .ok d => d.count
  | .error _ => 64

/-- The open keys of a die. -/
def State.openKeys (s : State) (die : Nat) : List (Nat × Word × Nat) :=
  (s.deposits.filter fun d => d.die == die).foldl (fun ks d =>
    if ks.contains (d.node, d.key, d.record.graph) then ks else ks ++ [(d.node, d.key, d.record.graph)]) []

/-- Launches the open key with the oldest deposit of a die. -/
def State.launchOldest (s : State) (die : Nat) : State :=
  match s.deposits.find? fun d => d.die == die with
  | none => s
  | some d => s.launchKey die d.node d.key d.record.graph (s.countOf die d.node)

/-- The deposits that a die's unit holds. -/
def State.depositCount (s : State) (die : Nat) : Nat := (s.deposits.filter fun d => d.die == die).length

/-- A unit that is full launches its oldest key (R328). -/
def State.launchFull (s : State) : State :=
  foldState (List.range s.dies) s fun s die => if s.depositCount die < Config.depositRoom then s else s.launchOldest die

/-- Files a record under a key; the key launches when it holds `COUNT`, and the oldest key launches first where a 4,097th
would be open. -/
def State.deposit (s : State) (die node : Nat) (key : Word) (r : Record) : State :=
  if s.graphEnding r.graph then s.discard r
  else
    let open_ := s.openKeys die
    let s := if !open_.contains (node, key, r.graph) && decide (Config.openKeys ≤ open_.length) then s.launchOldest die else s
    let s := if Config.depositRoom ≤ s.depositCount die then s.launchOldest die else s
    let s := { s with deposits := s.deposits ++ [⟨die, node, key, r, s.clock⟩] }
    let count := s.countOf die node
    if (s.deposits.filter fun d => d.under die node key r.graph).length < count then s
    else s.launchKey die node key r.graph count

/-! ## Bins (R324) -/

/-- The waiting records of a graph in a bin. -/
def State.binOf (s : State) (die node g : Nat) : Option Bin :=
  s.bins.find? fun b => b.die == die && b.node == node && b.graph == g

/-- The bins without the records of a graph in one of them. -/
def State.dropBin (s : State) (die node g : Nat) : State :=
  { s with bins := s.bins.filter fun b => !(b.die == die && b.node == node && b.graph == g) }

/-- The places of the records that a launch takes: the highest priority first, the oldest first within one. -/
def Bin.order (b : Bin) : List Nat :=
  (List.range 8).flatMap fun i => (b.records.zipIdx.filter fun e => e.1.prio == 7 - i).map Prod.snd

/-- A waiting record at a place of a die's bins has spilled to the overflow area and stands in a sector with an uncorrectable error
there (R315, R326): those behind the 131,072 on chip spill, in the order of the bins (log entry 151). The address of the error. -/
def State.spillError (s : State) (die place : Nat) : Option Nat :=
  if place < Config.recordsOnChip then none
  else s.poisonIn (s.reserved die + Config.overflowArea + 40 * (place - Config.recordsOnChip)) 40

/-- The place of a bin's first record among those of its die's bins. -/
def State.binPlace (s : State) (b : Bin) : Nat :=
  ((s.bins.takeWhile fun x => !(x.die == b.die && x.node == b.node && x.graph == b.graph)).filter fun x => x.die == b.die).foldl (fun n x => n + x.records.length) 0

/-- Launches a team with up to `most` of a bin's records; the timer restarts where records stay. A record that cannot be read ends
its graph (R315). -/
def State.launchBin (s : State) (b : Bin) (most : Nat) : State :=
  let taken := b.order.take most
  let left := (b.records.zipIdx.filter fun e => !taken.contains e.2).map Prod.fst
  let lost := taken.findSome? fun i => s.spillError b.die (s.binPlace b + i)
  let s := s.dropBin b.die b.node b.graph
  let s := if left.isEmpty then s else { s with bins := s.bins ++ [{ b with records := left, timer := s.clock }] }
  let records := taken.filterMap fun i => b.records[i]?
  match lost with
  | some pa => (s.logUncorrectable pa).failLaunch b.graph .poison records
  | none => s.launchTeam b.die b.node b.graph records none

/-- A record enters a bin that coalesces; with `launch` the bin launches at once when it holds `COUNT` of the graph. -/
def State.coalesce (s : State) (die count : Nat) (launch : Bool) (r : Record) : State :=
  let b := (s.binOf die r.node r.graph).getD
    { die := die, node := r.node, graph := r.graph, records := [], timer := s.clock }
  let b := { b with records := b.records ++ [r] }
  if launch && decide (count ≤ b.records.length) then s.launchBin b count
  else { s.dropBin die r.node r.graph with bins := (s.dropBin die r.node r.graph).bins ++ [b] }

/-- A scan request reaches the activity scanner (R327). -/
def State.startScan (s : State) (die : Nat) (r : Record) : State :=
  { s with scans := s.scans.ins s.nextId { die := die, record := r, tree := none, place := [], swept := [] }, nextId := s.nextId + 1 }

/-- A bin whose timer has run 511 cycles past `TIMER` has launched: timers are examined every 512 cycles (R324). -/
def State.launchOverdue (s : State) : State :=
  foldState s.bins s fun s b =>
    match s.nodeHome b.die b.node with
    | .error _ => s
    | .ok d =>
      if d.timer != 0 && decide (b.timer + d.timer + 511 ≤ s.clock) && s.bins.contains b then s.launchBin b d.count else s

/-- The reorder keys whose timers have run so far have launched (R328). -/
def State.launchOverdueKeys (s : State) : State :=
  foldState s.deposits s fun s d =>
    match s.nodeHome d.die d.node with
    | .error _ => s
    | .ok n =>
      if n.timer != 0 && decide (d.born + n.timer + 511 ≤ s.clock) && s.deposits.contains d then
        s.launchKey d.die d.node d.key d.record.graph n.count
      else s

/-- A record enters its node's bin (R324), the reorder unit under key 0 (R328), or the activity scanner (R327). Behind a
pair-walker record a full bin launches in an event of its own (log entry 20). A record at an entry that breaks its limits ends
its graph on its arrival (R323, log entry 125). The die leaves D1 (R352). -/
def State.enterBin (s : State) (die : Nat) (launch : Bool) (r : Record) : State :=
  let s := s.wakeDie die
  if s.graphEnding r.graph then s.discard r
  else
    match s.nodeHome die r.node with
    | .error c => (s.reportEntry (s.nodePa die r.node)).failLaunch r.graph c [r]
    | .ok d =>
      match d.kind with
      | .sweep => if r.badFlags then s.failLaunch r.graph .controlBlock [r] else s.startScan die r
      | .reorder => s.deposit die r.node 0 r
      | _ => s.coalesce die d.count launch r

end Sys2Proof.Machine
end

