-- ==== Sys2Proof/Machine/Tasks.lean ====
section
/-! DEFINITION. Frames (R143 to R147), records (R148 to R152), the priority queue (R153, R154, R330) and the report of a task
(R26, R30). -/

namespace Sys2Proof.Machine

/-! ## fnew (R143, R144) -/

/-- A free frame of a die from an index on; index 0 is never allocated (R23). -/
def State.freeFrameFrom (s : State) (die : Nat) : Nat → Nat → Option Nat
  | 0, _ => none
  | n + 1, i =>
    let j := i % Config.framePool
    let k := die * Config.framePool + j
    if j != 0 && (s.frame k).state == .free && !s.frameBad k then some j else s.freeFrameFrom die n (j + 1)

/-- The free frame that the hardware chooses (log entry 11). -/
def State.chooseFrame (s : State) (die : Nat) : Option Nat :=
  s.freeFrameFrom die Config.framePool (Config.freeChoice s.free)

/-- The handle of frame j of a die (R28). -/
def handleOf (die j : Nat) (gen : Word) : Word := BitVec.ofNat 32 (die % 4 * 2 ^ 30 + j * 2 ^ 8 + gen.toNat % 256)

/-- Allocates one frame for a task: its handle, or none where the pool has no free frame. -/
def State.allocFrame (s : State) (c : Ctx) (lane : Nat) (promise : Bool) : State × Option Word :=
  match s.chooseFrame c.die with
  | none => (s, none)
  | some j =>
    let k := c.die * Config.framePool + j
    let f := s.frame k
    let f' : Frame :=
      { gen := f.gen, waiters := 0, state := if promise then .promise else .open, owner := c.taskFrame lane, pending := 0 }
    ({ s.setFrame k f' with free := s.free + 1 }, some (handleOf c.die j f.gen))

/-- Allocates a frame for each of the lanes, or none at all. -/
def State.allocFrames (s : State) (c : Ctx) (promise : Bool) : List Nat → State × Option (List (Nat × Word))
  | [] => (s, some [])
  | l :: ls =>
    match s.allocFrame c l promise with
    | (s, none) => (s, none)
    | (s, some h) =>
      match s.allocFrames c promise ls with
      | (s, none) => (s, none)
      | (s, some hs) => (s, some ((l, h) :: hs))

/-- `fnew` (R143, R144). The log of the region holds 8 frames; more are allocated in a committed instruction. In a handler, where no region
opens (R301), the frames join the log whatever it holds (the model's choice, log entry 155). -/
def newFrames (f : XC) (promise : Bool) (s : State) : Host.Outcome State Fault Refusal :=
  let form := formFnew f promise
  issueWith form f.h.bytes [] (fun is _ => f.frameK != is.c.perLane) never (fun is s =>
    match s.allocFrames is.c promise (if f.frameK then lanesOf is.acting else [0]) with
    | (_, none) => .trap s (Trap.of .frameError)
    | (s', some hs) =>
      let s := s'
      let n := hs.length
      let log := is.sp.frames
      let closes := if n ≤ 8 then decide (8 < log.length + n) else !log.isEmpty
      let s := if closes then s.modCtx is.id fun c => c.newRegion is.i else s
      let s := s.modCtx is.id fun c =>
        hs.foldl (fun c e => form.writeDst c e.1 (e.2.setWidth 64))
          { c with owned := c.owned ++ hs.map fun e => { task := e.1, handle := e.2, promise := promise } }
      if 8 < n then .commit s
      else .done (s.modSplit is.id is.i fun sp => { sp with frames := sp.frames ++ hs.map Prod.snd })) s

/-- R144, spawn form. -/
def execFnew (f : XC) (s : State) : Host.Outcome State Fault Refusal := newFrames f false s
/-- R144, promise form. -/
def execFnewP (f : XC) (s : State) : Host.Outcome State Fault Refusal := newFrames f true s

/-! ## fdone, fawait and fpoll (R145 to R147) -/

/-- The handles that a frame instruction names, each with its lane; 64 stands for the whole split. -/
def frameHandles (f : XC) (form : Form) (is : Issue) : List (Nat × Word) :=
  if f.frameK then (lanesOf is.acting).map fun l => (l, (form.arg is.c 1 l).setWidth 32)
  else [(64, (form.arg is.c 1 0).setWidth 32)]

/-- The cause where handles fail a check: that of the first of them (R28, R315). -/
def State.frameTrap (s : State) (hs : List (Nat × Word)) (bad : Word → Bool) : Option Trap :=
  match hs.filter fun e => bad e.2 with
  | [] => none
  | e :: es =>
    let c := s.handleCause e.2
    some ((Trap.of c).inLanes (((e :: es).filter fun e => s.handleCause e.2 == c).map Prod.fst))

/-- Frames that handles name and that cannot be read are reported (R315). -/
def State.reportFrames (s : State) (hs : List Word) : State :=
  foldState hs s fun s h => if s.handleCause h == .poison then s.logUncorrectable (s.framePa (handleKey h)) else s

/-- A cause met in a frame or control block: an uncorrectable error there writes the fault record of the lanes (R315). -/
def State.poisonRecord (s : State) (id : Nat) (t : Trap) : State := if t.cause == .poison then s.laneRecord id t else s

/-- A frame instruction is refused: the frames that cannot be read are reported. -/
def State.refuseFrames (s : State) (id : Nat) (hs : List Word) (t : Trap) : State := (s.reportFrames hs).poisonRecord id t

/-- `LINK_LOST` where no path to the frame stores of handles survives (R32, R341). -/
def State.pathTrap (s : State) (is : Issue) (hs : List (Nat × Word)) : Option Trap :=
  match hs.filter fun e => !s.reachable is.c.die (handleDie e.2) with
  | [] => none
  | es => some ((Trap.of .linkLost).inLanes (es.map Prod.fst))

/-- The traps of a frame instruction at issue: of handles that fail a check, then of frame stores out of reach. -/
def State.handleTrap (s : State) (is : Issue) (hs : List (Nat × Word)) (bad : Word → Bool) : Option Trap :=
  (s.frameTrap hs bad).orElse fun _ => s.pathTrap is hs

/-- The handle names a promise frame. -/
def State.isPromise (s : State) (h : Word) : Bool := ((s.checkHandle h).map (·.state)) == some .promise

/-- R145: checked at issue; the frame stores act after the write-back. -/
def execFdone (f : XC) (s : State) : Host.Outcome State Fault Refusal :=
  let form := formFdone f
  issue form f.h.bytes (fun is s =>
    let hs := frameHandles f form is
    match s.handleTrap is hs fun h => !s.isPromise h with
    | some t => .trap (s.refuseFrames is.id (hs.map Prod.snd) t) t
    | none =>
      let s := s.writeBack is.id
      .wait (s.addOp (is.op s (.fdone hs))) (.op s.nextId)) s

/-- One promise-to-done event (R29): it releases the waiters, and a frame whose owner has exited is freed (R30). -/
def State.promiseDone (s : State) (h : Word) : State :=
  let k := handleKey h
  let s := (s.setFrame k { s.frame k with state := .done }).releaseFrame k
  if s.orphans.contains k then { s with orphans := s.orphans.erase k }.freeFrame k else s

/-- The acts of an `fdone`, together or not at all: the lane at which the frame refuses. -/
def State.promisesDone (s : State) : List (Nat × Word) → Except Nat State
  | [] => .ok s
  | (l, h) :: hs => if s.isPromise h then (s.promiseDone h).promisesDone hs else .error l

/-- R145: the frame stores perform or refuse an `fdone`. -/
def execFdonePerform (op : Nat) (s : State) : Host.Outcome State Fault Refusal :=
  match s.ops.look op with
  | none => .next s
  | some o =>
    match o.kind with
    | .fdone hs =>
      match s.promisesDone hs with
      | .error l => .next (s.refuseOp op o ((Trap.of .frameError).inLanes [l]))
      | .ok s => .next (s.commitOp op o)
    | _ => .next s

/-- What `fawait` finds of one frame (R29): it returns at once with a status, or the split parks. -/
def State.awaitFrame (s : State) (h : Word) : State × Option Word :=
  let k := handleKey h
  let f := s.frame k
  match f.state with
  | .done => (s, some 0)
  | .error => (s, some 1)
  | .open => if f.pending = 0 then (s.setFrame k { f with state := .done }, some 0) else (s, none)
  | _ => (s, none)

/-- The frames of an `fawait` in lane order: the statuses, or the handle on which the split parks. -/
def State.awaitFrames (s : State) : List (Nat × Word) → State × Except Word (List (Nat × Word))
  | [] => (s, .ok [])
  | (l, h) :: hs =>
    match s.awaitFrame h with
    | (s, none) => (s, .error h)
    | (s, some w) =>
      match s.awaitFrames hs with
      | (s, .error h) => (s, .error h)
      | (s, .ok ws) => (s, .ok ((l, w) :: ws))

/-- A split, or the implicit await of a task, parks on a frame: its group's lines are written back first (R236), and its
continuation record joins the waiter list (R29, R33). -/
def State.parkOn (s : State) (id : Nat) (c : Ctx) (r : Resumes) (h : Word) : State :=
  let s := s.writeBack id
  let rs := s.waiting (handleKey h)
  if rs.any fun w => w.resumes == some r then s else s.setWaiting (handleKey h) (rs ++ [c.contRecord r])

/-- R146. A return is an edge target (R216). -/
def execFawait (f : XC) (s : State) : Host.Outcome State Fault Refusal :=
  let form := formFawait f
  issue form f.h.bytes (fun is s =>
    let hs := frameHandles f form is
    match s.handleTrap is hs fun h => (s.checkHandle h).isNone with
    | some t => .trap (s.refuseFrames is.id (hs.map Prod.snd) t) t
    | none =>
      match s.awaitFrames hs with
      | (s, .error h) => .wait (s.parkOn is.id is.c (.split is.id is.i) h) (.frame h)
      | (s, .ok ws) =>
        .done ((s.modCtx is.id fun c => ws.foldl (fun c e => form.writeDst c e.1 (e.2.setWidth 64)) c).crossEdge is.id)) s

/-- R147: the state and count are read when the producer's result is formed at the frame store. -/
def execFpoll (f : XC) (s : State) : Host.Outcome State Fault Refusal :=
  let form := formFawait f
  issue form f.h.bytes (fun is s =>
    let hs := frameHandles f form is
    match s.handleTrap is hs fun h => (s.checkHandle h).isNone with
    | some t => .trap (s.refuseFrames is.id (hs.map Prod.snd) t) t
    | none =>
      let polls := hs.map fun e => (locAt (!f.frameK) f.h.dst.toNat e.1, e.2)
      .done ((s.modCtx is.id fun c => c.emptyLocs (polls.map Prod.fst)).addOp (is.op s (.fpoll polls)))) s

/-- What `fpoll` reads of a frame (R147). -/
def State.pollWord (s : State) (h : Word) : Word :=
  let f := s.frame (handleKey h)
  BitVec.ofNat 32 (f.state.code + Nat.min f.pending.toNat 0x0FFFFFFF * 16)

/-! ## Records (R148 to R151) -/

/-- A record in the making: its lane (64: the whole split), its handle or key, its die and its arguments. -/
structure Made where
  lane : Nat
  key : Word
  die : Nat
  args : List Word
deriving DecidableEq, Repr

/-- The handle or key of a lane (R127). -/
def recordKey (form : Form) (is : Issue) (l : Nat) : Word := (form.arg is.c 1 l).setWidth 32

/-- The arguments of a lane (R125). -/
def recordArgs (f : XC) (is : Issue) (l : Nat) : List Word :=
  tabulate 8 fun i => if f.ak then is.c.vreg (f.h.src2.toNat + i) l else is.c.s (f.h.src2.toNat + i)

/-- The target die (R127). -/
def recordDie (f : XC) (is : Issue) (key : Word) (l : Nat) : Nat :=
  match f.die with
  | 0 => is.c.die
  | 1 => handleDie key
  | 2 => bitsOf (if f.ak then is.c.vreg f.h.dst.toNat l else is.c.s f.h.dst.toNat) 1 0
  | n => n - 4

/-- The records that an instruction builds (R148). -/
def makeRecords (f : XC) (form : Form) (is : Issue) (keyed : Bool) : List Made :=
  let one := fun lane l : Nat =>
    let key := if keyed then recordKey form is l else 0
    { lane := lane, key := key, die := recordDie f is key l, args := recordArgs f is l : Made }
  if f.ak then (lanesOf is.acting).map fun l => one l l else [one 64 (lowestLane is.acting)]

/-- The cause of the records that fail a check (R148). -/
def madeTrap (ms : List Made) (c : Cause) (bad : Made → Bool) : Option Trap :=
  match ms.filter bad with
  | [] => none
  | bs => some ((Trap.of c).inLanes (bs.map (·.lane)))

/-- A handle that refuses `spawn` (R28, R29); the null handle is allowed (R149). -/
def State.refusesSpawn (s : State) (h : Word) : Bool :=
  h != 0 && (match s.checkHandle h with
    | none => true
    | some f => f.state == .promise || f.state == .error)

/-- The cause of the records whose handles refuse `spawn`; a frame that cannot be read is `POISON` (R315). -/
def State.handlesTrap (s : State) (ms : List Made) : Option Trap :=
  (madeTrap ms .poison fun m => m.key != 0 && s.handleCause m.key == .poison).orElse fun _ =>
    madeTrap ms .frameError fun m => s.refusesSpawn m.key

/-- An arm entry through a core's control-block cache (R230), checked with its node for `fire` (R319). -/
def State.armVia (s : State) (core die n : Nat) : State × Except Trap Arm :=
  if 8192 ≤ n then (s, .error (Trap.of .controlBlock))
  else
    let pa := s.armPa die n
    match s.controlBlock core pa 64 with
    | (s, none) => (s, .error (Trap.of .poison))
    | (s, some bs) =>
      let a := Arm.ofBytes bs
      match s.kindVia core die a.node with
      | (s, .error t) => (s, .error t)
      | (s, .ok d) => if a.fires 2 (.ok d) then (s, .ok a) else (s, .error (Trap.of .controlBlock))

/-- The check of a target's table (R148): an arm for `fire`, otherwise a node of a kind that may be targeted. -/
def State.checkTarget (s : State) (core : Nat) (fire : Bool) (n die : Nat) : State × Option Trap :=
  if fire then
    match s.armVia core die n with
    | (s, .error t) => (s, some t)
    | (s, .ok _) => (s, none)
  else
    match s.nodeVia core die n with
    | (s, .error t) => (s, some t)
    | (s, .ok d) => (s, if d.kind.spawnable then none else some (Trap.of .controlBlock))

/-- The checks of the tables of every record's die, in lane order. -/
def State.checkTargets (s : State) (core : Nat) (fire : Bool) (n : Nat) (ms : List Made) : List Made → State × Option Trap
  | [] => (s, none)
  | m :: rest =>
    match s.checkTarget core fire n m.die with
    | (s, some t) => (s, some (t.inLanes ((ms.filter fun o => o.die == m.die).map (·.lane))))
    | (s, none) => s.checkTargets core fire n ms rest

/-- The checks of R148 in their order, with what they leave in the control-block cache. -/
def State.checkRecords (s : State) (is : Issue) (fire table : Bool) (n : Nat) (handles : Bool) (ms : List Made) :
    State × Option Trap :=
  match madeTrap ms .controlBlock fun m => decide (s.dies ≤ m.die) with
  | some t => (s, some t)
  | none =>
    match if handles then s.handlesTrap ms else none with
    | some t => (s.refuseFrames is.id (ms.map (·.key)) t, some t)
    | none =>
      match if table then (s.settleReads is.id).checkTargets is.c.core fire n ms ms else (s, none) with
      | (s, some t) => (s.poisonRecord is.id t, some t)
      | (s, none) => (s, madeTrap ms .linkLost fun m => !s.reachable is.c.die m.die
          || (handles && m.key != 0 && !s.reachable is.c.die (handleDie m.key)))

/-- Every die has room for the records aimed at it (R326). -/
def State.roomFor (s : State) (ms : List Made) : Bool :=
  ms.all fun m => s.recordsFit m.die (ms.filter fun o => o.die == m.die).length

/-- The record that leaves. -/
def Made.sent (m : Made) (f : XC) (is : Issue) (frame : Word) : Sent :=
  { number := 0
    die := m.die
    source := is.c.die
    issuer := is.c.graph
    record := { node := f.node, frame := frame, flags := recordFlags f.prio false false false, args := m.args
                graph := is.c.graph, resumes := none }
    arm := none }

/-- R149: records without a handle leave at once; a handle's frame is raised at its store first. -/
def execSpawn (f : XC) (s : State) : Host.Outcome State Fault Refusal :=
  let form := formRecord f true true true true
  issue form f.h.bytes (fun is s =>
    let ms := makeRecords f form is true
    match s.checkRecords is false true f.node true ms with
    | (s, some t) => .trap s t
    | (s, none) =>
      if !s.roomFor ms then .wait s .retry
      else
        let s := s.writeBack is.id
        let rs := ms.map fun m => (m.lane, m.sent f is m.key)
        if ms.all fun m => m.key == 0 then .commit (foldState rs s fun s r => s.send r.2)
        else .wait (s.addOp (is.op s (.spawn rs))) (.op s.nextId)) s

/-- The raise of `PENDING` for one record (R29, R31): none where the frame refuses it. -/
def State.raiseFrame (s : State) (h : Word) : Option State :=
  if h = 0 then some s
  else
    match s.checkHandle h with
    | none => none
    | some f =>
      if f.state == .promise || f.state == .error || decide (2 ^ 32 - 1 ≤ f.pending.toNat) then none
      else
        let n := if f.state == .done then 1 else f.pending + 1
        some (s.setFrame (handleKey h) { f with state := .open, pending := n })

/-- The raises of a `spawn`, together or not at all: the lane whose frame refuses. -/
def State.raiseFrames (s : State) : List (Nat × Sent) → Except Nat State
  | [] => .ok s
  | (l, r) :: rs =>
    match s.raiseFrame r.record.frame with
    | none => .error l
    | some s => s.raiseFrames rs

/-- R149: the frame stores raise `PENDING`, after which the `spawn` commits and its records leave, or refuse it. -/
def execSpawnFrameRaise (op : Nat) (s : State) : Host.Outcome State Fault Refusal :=
  match s.ops.look op with
  | none => .next s
  | some o =>
    match o.kind with
    | .spawn rs =>
      match s.raiseFrames rs with
      | .error l => .next (s.refuseOp op o ((Trap.of .frameError).inLanes [l]))
      | .ok s => .next (foldState rs (s.commitOp op o) fun s r => s.send r.2)
    | _ => .next s

/-- R150. -/
def execEmit (f : XC) (s : State) : Host.Outcome State Fault Refusal :=
  let form := formRecord f false false true true
  issue form f.h.bytes (fun is s =>
    let ms := makeRecords f form is false
    match s.checkRecords is false true f.node false ms with
    | (s, some t) => .trap s t
    | (s, none) =>
      if !s.roomFor ms then .wait s .retry
      else .commit (foldState ms (s.writeBack is.id) fun s m => s.send (m.sent f is 0))) s

/-- R150, R319: each record starts a new graph. -/
def execFire (f : XC) (s : State) : Host.Outcome State Fault Refusal :=
  let form := formRecord f false false true false
  issue form f.h.bytes (fun is s =>
    let ms := makeRecords f form is false
    match s.checkRecords is true true f.node false ms with
    | (s, some t) => .trap s t
    | (s, none) =>
      if !s.roomFor ms then .wait s .retry
      else .commit (foldState ms (s.writeBack is.id) fun s m =>
        match s.armVia is.c.core m.die f.node with
        | (s, .error _) => s
        | (s, .ok a) => s.fireArm is.c.die (some is.c.graph) m.die f.node a m.args false false a.compl none)) s

/-! ## The implicit await and reord (R30, R152) -/

/-- The frames that the implicit await of a task is still to pass, in the order of their `fnew` (R30). -/
def Ctx.awaiting (c : Ctx) (task : Nat) : List Word :=
  ((c.owned.filter fun o => o.task == task && !o.promise).map (·.handle)).drop (c.awaits.at 0 task)

/-- What the implicit await of a task finds of one frame (R29, R30): it passes one that is free, done, or counts no child, of
which an open one becomes done; otherwise it waits. -/
def State.passFrame (s : State) (h : Word) : Option State :=
  let k := handleKey h
  match s.checkHandle h with
  | none => some s
  | some f =>
    match f.state with
    | .open => if f.pending = 0 then some (s.setFrame k { f with state := .done }) else none
    | .error => if f.pending = 0 then some s else none
    | _ => some s

/-- A frame that cannot be read ends the implicit await of a task there: the error is reported, and its fault record written (R315, log
entry 161). -/
def State.reportAwaited (s : State) (id task : Nat) (h : Word) : State :=
  (s.reportFrames [h]).poisonRecord id ((Trap.of (s.handleCause h)).inLanes [task])

/-- The implicit await of a task goes on over these frames (R30): it has returned, or its continuation stands on the waiter
list of the frame for which it waits. -/
def State.awaitTask (s : State) (id task : Nat) : List Word → State × Bool
  | [] => (s, true)
  | h :: hs =>
    match (s.reportAwaited id task h).passFrame h with
    | some s =>
      (s.modCtx id fun c => { c with awaits := c.awaits.put 0 task (c.awaits.at 0 task + 1) }).awaitTask id task hs
    | none =>
      match s.ctxs.look id with
      | some c => (s.parkOn id c (.task id task) h, false)
      | none => (s, false)

/-- The continuation of a task's implicit await stands on a waiter list or in a bin. -/
def State.taskParked (s : State) (id task : Nat) : Bool :=
  (s.waiters.any fun e => e.2.record.resumes == some (.task id task))
    || s.released.any fun e => e.2.resumes == some (.task id task)

/-- The implicit await of a task (R30): whether it has returned. -/
def State.awaitOwned (s : State) (id task : Nat) : State × Bool :=
  match s.ctxs.look id with
  | none => (s, true)
  | some c => if s.taskParked id task then (s, false) else s.awaitTask id task (c.awaiting task)

/-- The implicit awaits of several tasks. -/
def State.awaitTasks (s : State) (id : Nat) : List Nat → State × Bool
  | [] => (s, true)
  | t :: ts =>
    match s.awaitOwned id t with
    | (s, a) =>
      match s.awaitTasks id ts with
      | (s, b) => (s, a && b)

/-- R152. -/
def execReord (f : XC) (s : State) : Host.Outcome State Fault Refusal :=
  let form := formRecord f true false false true
  issue form f.h.bytes (fun is s =>
    match (s.settleReads is.id).nodeVia is.c.core is.c.die f.node with
    | (s, .error t) => .trap (s.poisonRecord is.id t) t
    | (s, .ok d) =>
      let lanes := lanesOf is.acting
      if d.kind != .reorder then .trap s (Trap.of .controlBlock)
      else
      match if is.c.perLane then s.awaitTasks is.id lanes else (s, true) with
      | (s, false) => .wait s .retry
      | (s, true) =>
      if Config.depositRoom < s.depositCount is.c.die + lanes.length then .wait (s.launchOldest is.c.die) .retry
      else
        let s := s.writeBack is.id
        let s := foldState lanes s fun s l =>
          let frame := if is.c.perLane then is.c.taskFrame l else 0
          let r : Record :=
            { node := f.node, frame := frame, flags := recordFlags f.prio false false false, args := recordArgs f is l
              graph := is.c.graph, resumes := none }
          s.deposit is.c.die f.node (recordKey form is l) r
        let s := (s.advance is.id is.i is.next).modCtx is.id fun c =>
          { c.newRegion is.i with deposited := if is.c.perLane then c.deposited ||| is.acting else c.deposited }
        .set (s.exitLanes is.id is.i is.acting false)) s

/-! ## The priority queue (R153, R154, R330) -/

/-- R153. -/
def execPqpush (f : XC) (s : State) : Host.Outcome State Fault Refusal :=
  let form := formRecord f true false true true
  issue form f.h.bytes (fun is s =>
    let ms := makeRecords f form is true
    match s.checkRecords is false false f.node false ms with
    | (s, some t) => .trap s t
    | (s, none) =>
      .commit (foldState ms (s.writeBack is.id) fun s m =>
        let e : PqEntry :=
          { graph := is.c.graph, key := m.key.toNat % 2 ^ 31, node := f.node, prio := f.prio, args := m.args }
        s.addOp (is.op s (.push m.die [e])))) s

/-- R330: a push arrives; pushes by one split to one die arrive in program order. -/
def execPqPushPerform (op : Nat) (s : State) : Host.Outcome State Fault Refusal :=
  match s.ops.look op with
  | none => .next s
  | some o =>
    match o.kind with
    | .push die es =>
      let s := s.endOp op
      .next (if s.graphEnding o.graph then s else { s with pqueues := s.pqueues ++ es.map fun e => (die, e) })
    | _ => .next s

/-- R154: the pop empties its registers. -/
def execPqpop (f : XC) (s : State) : Host.Outcome State Fault Refusal :=
  let form := formPqpop f
  issue form f.h.bytes (fun is s =>
    let n := f.h.dst.toNat
    let regs := if f.ak then (lanesOf is.acting).map fun l => tabulate 10 fun i => locV (n + i) l
      else [tabulate 10 fun i => locS (n + i)]
    .commit ((s.modCtx is.id fun c => c.emptyLocs regs.flatten).addOp (is.op s (.pop is.c.die regs)))) s

/-- What a pop returns of an entry; none where the queue is empty (R154). -/
def popWords (e : Option PqEntry) : List Word :=
  match e with
  | none => 0x80000000#32 :: List.replicate 9 0
  | some e => BitVec.ofNat 32 e.key :: BitVec.ofNat 32 (e.node + e.prio * 2 ^ 16) :: tabulate 8 fun i => e.args.getD i 0

/-- The pop returns an entry of a die's queue that fewer than 64 smaller keys precede (R330). -/
def inWindow (queue : List PqEntry) (e : PqEntry) : Bool := decide ((queue.filter fun x => x.key < e.key).length < 64)

/-- The pop of one lane lands, which is an edge target (R216). -/
def State.popped (s : State) (op : Nat) (o : Op) (die : Nat) (regs : List (List Nat)) (e : Option PqEntry) : State :=
  let s := (s.landAt o.ctx op ((regs.headD []).zip (popWords e))).crossEdge o.ctx
  s.keepOp op (decide (regs.length ≤ 1)) (.pop die regs.tail)

/-- R330: one pop is performed, in the order of arrival. `pick` counts the entries of the die's queue. -/
def execPqPopPerform (op pick : Nat) (s : State) : Host.Outcome State Fault Refusal :=
  match s.ops.look op with
  | none => .next s
  | some o =>
    match o.kind with
    | .pop die regs =>
      let pushes := s.ops.any fun e => decide (e.1 < op) && e.2.ctx == o.ctx && (match e.2.kind with
        | .push d _ => d == die
        | _ => false)
      let mine := (s.pqueues.zipIdx.filter fun e => e.1.1 == die).map fun e => (e.2, e.1.2)
      if pushes then .next s
      else if mine.isEmpty then .next (s.popped op o die regs none)
      else
        match mine[pick]? with
        | none => .next s
        | some (at_, e) =>
          if inWindow (mine.map Prod.snd) e then
            .next (({ s with pqueues := dropAt s.pqueues at_ }).popped op o die regs (some e))
          else .next s
    | _ => .next s

/-! ## The report of a task (R26, R30, R137) -/

/-- An operation for which a task's exit waits (R137). -/
def OpKind.holdsTask : OpKind → Bool
  | .copy _ _ _ _ _ => true
  | .gather _ _ _ _ => true
  | .atomic _ _ _ _ _ none _ _ => true
  | .vocab _ => true
  | .walk _ => true
  | .activity _ _ _ _ _ => true
  | .dtrav _ => true
  | .insert _ _ _ _ => true
  | .halo _ _ _ _ _ _ => true
  | _ => false

/-- An operation for which the exit of a task of a group waits; a matrix operation holds the tasks of every member (R262). -/
def Op.holds (o : Op) (id task : Nat) : Bool :=
  match o.kind with
  | .matrix m => m.members.any fun b => b.ctx == id && b.lanes.getLsbD task
  | k => o.ctx == id && k.holdsTask && o.lanes.getLsbD task

/-- The tasks of a group: its lanes, or one. -/
def Ctx.tasks (c : Ctx) : List Nat := if c.perLane then List.range c.node.width else [0]

/-- The lanes of a task. -/
def Ctx.taskLanes (c : Ctx) (task : Nat) : LaneMask :=
  if c.perLane then laneBit task else laneSet (List.range c.node.width)

/-- The task has exited: none of its lanes remains. -/
def Ctx.taskExited (c : Ctx) (task : Nat) : Bool := c.taskLanes task &&& ~~~c.exited == 0

/-- A team's allocation is freed: a `swait` that watched it through the cluster window is executed again (R195). -/
def State.dropTeam (s : State) (tid : Nat) : State :=
  let gone := s.watch.filter fun w => w.team == some tid
  let s := { s with teams := s.teams.del tid, watch := s.watch.filter fun w => w.team != some tid }
  foldState gone s fun s w =>
    s.modSplit w.ctx w.split fun sp => if sp.wait == .watch || sp.wait == .poll then { sp with wait := .ready } else sp

/-- A group ends: the members of its gangs that are present at their core's latch take `GANG_MISMATCH` (R252). -/
def State.breakGangs (s : State) (c : Ctx) : State :=
  let named := fun a : Arrival => a.gang.getLsbD c.group && (match s.ctxs.look a.ctx with
    | some m => m.team == c.team && ((m.splits.look a.split).map (·.wait)) == some .latch
    | none => false)
  let gone := (s.core c.core).latch.filter named
  if gone.isEmpty then s
  else
    let s := s.modCore c.core fun k => { k with latch := k.latch.filter fun a => !gone.contains a }
    foldState gone s fun s a =>
      (s.modSplit a.ctx a.split fun sp => { sp with wait := .ready }).takeTrap a.ctx a.split (Trap.of .gangMismatch) none

/-- A context leaves the machine with its group: nothing names it any more. -/
def State.dropCtx (s : State) (id : Nat) (c : Ctx) : State :=
  let s := { s with ctxs := s.ctxs.del id, watch := s.watch.filter fun w => w.ctx != id }
  let s := s.dropWaiting fun r => r.continues id
  let s := s.breakGangs c
  if (s.members c.team).isEmpty then s.dropTeam c.team else s.settleBarrier c.team

/-- Ends the group when every task has reported (R26). -/
def State.settleGroup (s : State) (id : Nat) : State :=
  match s.ctxs.look id with
  | none => s
  | some c => if c.tasks.all fun t => c.reported.getLsbD t then s.dropCtx id c else s

/-- A task that reorders its lane away reports nothing itself (R152). -/
def Ctx.carriedAway (c : Ctx) (task : Nat) : Bool := c.deposited.getLsbD task

/-- Reports a task: its frames are freed (R29), its writes are written back (R236), and its own frame loses a child; a task
in error without a frame puts the graph in error (R301). -/
def State.report (s : State) (id : Nat) (c : Ctx) (task : Nat) : State :=
  let s := foldState (c.owned.filter fun o => o.task == task) s State.ownerExit
  let s := s.writeBack id
  let err := c.errTasks.getLsbD task
  let frame := c.taskFrame task
  let s := if c.carriedAway task then s
    else if frame = 0 && err then s.modGraph c.graph fun g => { g with status := if g.status = 0 then 1 else g.status }
    else s.reportExit c.die c.graph frame err
  s.modCtx id fun c => { c with reported := c.reported ||| laneBit task }

/-- R26: an exited task whose engine operations and implicit await are over reports. -/
def execTaskReport (ctx task : Nat) (s : State) : Host.Outcome State Fault Refusal :=
  match s.ctxs.look ctx with
  | none => .next s
  | some c =>
    let busy := s.ops.any fun e => e.2.holds ctx task
    if !c.tasks.contains task || c.reported.getLsbD task || !c.taskExited task || busy then .next s
    else
      match s.awaitOwned ctx task with
      | (s, false) => .next s
      | (s, true) => .next ((s.report ctx c task).settleGroup ctx)

end Sys2Proof.Machine
end

