-- ==== Sys2Proof/Machine/Loads.lean ====
section
/-! DEFINITION. Memory operands and the access path (R104, R185, R186), loads and stores (R187 to R190), prefetch (R196),
and the completion of long-latency producers (R105, R316). -/

namespace Sys2Proof

open Machine

/-! ## Memory operands (R104) -/

/-- The bytes of an element (R99). -/
def Ty.bytes (t : Ty) : Nat := t.width / 8

/-- idx × S in a lane, 0 without an index. -/
def XM.index (f : XM) (c : Ctx) (l : Nat) : Int :=
  if f.scale.toNat = 7 then 0
  else (if f.scalarIndex then c.s f.h.src1.toNat else c.vreg f.h.src1.toNat l).toInt * 2 ^ f.scale.toNat

/-- idx × S + disp in a lane. -/
def XM.offset (f : XM) (c : Ctx) (l : Nat) : Int := f.index c l + f.disp.toInt

/-- The virtual address of a lane's access (R185). -/
def XM.address (f : XM) (c : Ctx) (l : Nat) : DWord :=
  match f.space.toNat with
  | 0 => (c.xreg f.xsel.toNat).va + BitVec.ofInt 64 (f.offset c l)
  | 5 => c.d f.h.src1.toNat l + BitVec.ofInt 64 f.disp.toInt
  | _ => c.q f.h.src2.toNat + BitVec.ofInt 64 (f.offset c l)

/-- The place that a cluster-window operand names, which its target port checks on arrival (R48); a core index of 96 or more
names no core. -/
def XM.window (f : XM) (c : Ctx) (l : Nat) : LaneAt :=
  let i := (c.s f.h.src2.toNat).toNat
  let off := BitVec.ofInt 64 (f.offset c l)
  { lane := l, place := .scratch (if i < 96 then clusterCore c.launchCore i else 2 ^ 20) off.toNat, va := off, tlb := none }

/-- `SPACE` 100 in a team that is no pair (R49). -/
def XM.badWindow (f : XM) (is : Issue) : Bool := f.space.toNat == 4 && !is.c.node.pair

/-! ## The checks at issue (R186) -/

/-- A global access of n bytes: alignment (R50), translation and permission (R63, R56), the path to its home (R341), range
locks (R199), and the atomics that a host window admits (R194). -/
def checkGlobal (is : Issue) (va : DWord) (n kind : Nat) (pcie : Bool) (translate : State → State × Except Trap Mapped)
    (l : Nat) (s : State) : State × Except Trap LaneAt :=
  if va.toNat % n != 0 then (s, .error { Trap.atAddr .misaligned va kind with kind := kind })
  else
    match translate s with
    | (s, .error t) => (s, .error t)
    | (s, .ok m) =>
      if s.lockedGlobal is.c.core (s.asroot is.c.graph) (va.toNat % 2 ^ 52) n (kind != 0) then
        (s, .error (Trap.atAddr .rangeLock va kind))
      else if kind == 2 && inHost m.pa && !m.coh && !(pcie && s.reqEnable) then
        (s, .error (Trap.atAddr .hostAtomic va kind))
      else (s, .ok { lane := l, place := .mem m.pa, va := va, tlb := m.tlb })

/-- A scratch access of n bytes through the own or the pair window: alignment, bounds (R46, R49), the path to the partner
die, range locks. -/
def checkScratch (is : Issue) (pair : Bool) (off : Int) (n kind : Nat) (l : Nat) (s : State) : Except Trap LaneAt :=
  let va := BitVec.ofInt 64 off
  if off % n != 0 then .error (Trap.atAddr .misaligned va kind)
  else
    match if pair then s.pairScratch is.c off n else (s.ownScratch is.c off n).map fun o => (s.ownCore is.c, o) with
    | .error t => .error t
    | .ok (core, o) =>
      if s.lockedScratch core o n (kind != 0) then .error (Trap.atAddr .rangeLock va kind)
      else .ok { lane := l, place := .scratch core o, va := va, tlb := none }

/-- The pair window crosses a die boundary that has no surviving path (R341). -/
def pairLost (is : Issue) (off : Int) (s : State) : Bool :=
  match s.teams.look is.c.team with
  | some t => s.boundaryPair t && !s.reachable is.c.die (s.beside is.c.die)
      && (decide (off.toNat / 262144 = 1) != (is.c.group % 2 == 1))
  | none => false

/-- The checks of one lane. -/
def XM.locate (f : XM) (is : Issue) (n kind : Nat) (pcie : Bool) (l : Nat) (s : State) : State × Except Trap LaneAt :=
  let off := f.offset is.c l
  match f.space.toNat with
  | 0 =>
    checkGlobal is (f.address is.c l) n kind pcie (fun s => s.throughX is.id f.xsel.toNat off kind) l s
  | 2 => (s, checkScratch is false off n kind l s)
  | 3 =>
    (s, if off % n != 0 then .error (Trap.atAddr .misaligned (BitVec.ofInt 64 off) kind) else .ok (f.window is.c l))
  | 4 =>
    if pairLost is off s then (s, .error (Trap.atAddr .linkLost (BitVec.ofInt 64 off) kind))
    else (s, checkScratch is true off n kind l s)
  | _ => checkGlobal is (f.address is.c l) n kind pcie (fun s => s.translate is.id is.c (f.address is.c l) kind) l s

/-- The checks of some lanes in ascending order: those that pass, and those that fail with their causes. -/
def locateLanes (check : Nat → State → State × Except Trap LaneAt) :
    List Nat → State → State × List LaneAt × List (Nat × Trap)
  | [], s => (s, [], [])
  | l :: ls, s =>
    match check l s with
    | (s, r) =>
      match locateLanes check ls s with
      | (s, ok, bad) =>
        match r with
        | .ok a => (s, a :: ok, bad)
        | .error t => (s, ok, (l, t) :: bad)

/-- Every lane passes, or the instruction takes the cause of the lowest-numbered failing lane (R186); `split` says that the
access is the whole split's. -/
def locateAll (check : Nat → State → State × Except Trap LaneAt) (split : Bool) (ls : List Nat) (s : State) :
    State × Except Trap (List LaneAt) :=
  match locateLanes check ls s with
  | (s, ok, []) => (s, .ok ok)
  | (s, _, (l, t) :: rest) => (s, .error (if split then t else t.inLanes (l :: rest.map Prod.fst)))

/-- The lanes of an access: the acting lanes, or one for a scalar form. -/
def accessLanes (is : Issue) (scalar : Bool) : List Nat := if scalar then [0] else lanesOf is.acting

/-- The checks of an XM access. -/
def XM.access (f : XM) (is : Issue) (kind : Nat) (pcie scalar : Bool) (s : State) : State × Except Trap (List LaneAt) :=
  locateAll (f.locate is f.h.ty.bytes kind pcie) scalar (accessLanes is scalar) s

/-- The residency handle of a request (R190): none where its upper bits are not 0. -/
def XM.handle (f : XM) (c : Ctx) : Option Nat :=
  if !f.rh then some 0
  else
    let w := c.s f.h.src3.toNat
    if bitsOf w 31 12 != 0 then none else some (bitsOf w 11 0)

/-- The operand holds a global address. -/
def XM.isGlobal (f : XM) : Bool := f.space.toNat == 0 || f.space.toNat == 1 || f.space.toNat == 5

/-! ## Loads (R187 to R189) -/

/-- Writes words that a load found; a location without one becomes poison-empty (R187, R315). -/
def Machine.Ctx.deliverWords (c : Ctx) (values : List (Nat × Option Word × BitVec 5)) : Ctx :=
  values.foldl (fun c e => match e.2.1 with
    | some w => c.writeLoc e.1 w
    | none => c.poisonLocs [e.1] .poison 0) c

/-- Scratch lanes read at their ports, in ascending order. -/
def readScratchLanes (s : State) (scalar : Bool) (reg : Nat) (ty : Ty) (lanes : List LaneAt) :
    State × List (Nat × Option Word × BitVec 5) :=
  lanes.foldl (fun acc a =>
    if acc.1.poisonedPlace a.place then (acc.1.logPlace a.place, acc.2 ++ loadWords scalar reg ty a.lane none)
    else (acc.1, acc.2 ++ loadWords scalar reg ty a.lane (some (acc.1.readPlace a.place ty.bytes)))) (s, [])

/-- An atomic lane without an operand. -/
def plainLane (a : LaneAt) : AtomicLane := { at_ := a, operand := 0, compare := 0 }

/-- A load: a global one is a long-latency producer, which waits for room among its core's outstanding requests (R4); a scratch
one is performed while the split waits (R187). The lanes' earlier reductions come first (R223, R225). -/
def loadMem (f : XM) (form : Form) (bytes : Nat) (scalar : Bool) (s : State) : Host.Outcome State Fault Refusal :=
  issueWith form bytes [] (fun is _ => f.badWindow is) never (fun is s =>
    match f.handle is.c with
    | none => .trap s (Trap.of .illegal)
    | some h =>
      match f.access is 0 false scalar s with
      | (s, .error t) => .trap s t
      | (s, .ok lanes) =>
        let reg := f.h.dst.toNat
        let s := s.settleReds is.id
        if f.isGlobal then
          if !s.requestsFit is.c.core (lanesLines lanes).length then .wait s .retry
          else
            let s := s.modCtx is.id fun c => c.emptyLocs (form.dst.locs is.acting)
            .done ((s.addOp (is.op s (.load scalar reg f.h.ty lanes h []))).startLoad s.nextId)
        else if f.space.toNat = 3 then
          let k : OpKind := .window 0 scalar reg f.h.ty .add .rne 0 (lanes.map plainLane) false
          .wait (s.addOp (is.op s k)) (.op s.nextId)
        else
          match readScratchLanes s scalar reg f.h.ty lanes with
          | (s, values) =>
            let words := fun a : LaneAt => (values.filter fun w => scalar || locLane w.1 == a.lane).map fun w => w.2.1
            .done ((s.noteScratch is.c.core lanes words).modCtx is.id fun c => c.deliverWords values)) s

/-- R188. -/
def Machine.execLd (f : XM) (s : State) : Host.Outcome State Fault Refusal := loadMem f (formLoad f false) f.h.bytes false s
/-- R189. The scalar pipe reaches scratch here (log entry 132). -/
def Machine.execSld (f : XM) (s : State) : Host.Outcome State Fault Refusal := loadMem f (formLoad f true) f.h.bytes true s
/-- R107. -/
def Machine.execLdB32XBase (f : Base) (s : State) : Host.Outcome State Fault Refusal :=
  loadMem f.xmX (f.smallX (formLoad f.xmX false)) f.bytes false s
/-- R107. -/
def Machine.execLdB32ScBase (f : Base) (s : State) : Host.Outcome State Fault Refusal :=
  loadMem f.xmSc (formLoad f.xmSc false) f.bytes false s

/-! ## Stores (R188, R189) -/

/-- The low bits of a lane's data register. -/
def storeData (form : Form) (ty : Ty) (c : Ctx) (l : Nat) : Nat := (form.dstArg c l).toNat % 2 ^ ty.width

/-- A lane's plain store: into the core's L1, with its residency handle (R69, log entry 114), or at the
scratch port (R65, R223). The first one through a TLB entry marks its page dirty (R57). -/
def Machine.State.storeLane (s : State) (core id handle n : Nat) (a : LaneAt) (value : Nat) : State :=
  match a.place with
  | .mem pa =>
    (match a.tlb with
      | some t => s.touchEntry core t
      | none => s).storeL1 core id pa n value (s.handleAt pa handle)
  | .scratch k off => s.writeScratch k (cellsOf off n value)

/-- A store: lanes in ascending order. -/
def storeMem (f : XM) (form : Form) (bytes : Nat) (scalar : Bool) (s : State) : Host.Outcome State Fault Refusal :=
  issueWith form bytes [] (fun is _ => f.badWindow is) never (fun is s =>
    match f.handle is.c with
    | none => .trap s (Trap.of .illegal)
    | some h =>
      match f.access is 1 false scalar s with
      | (s, .error t) => .trap s t
      | (s, .ok lanes) =>
        let n := f.h.ty.bytes
        let data := storeData form f.h.ty is.c
        let s := (s.settleReads is.id).modCtx is.id fun c => { c with lastStore := s.clock + 1 }
        if f.space.toNat = 3 then
          let held := lanes.map fun a => { plainLane a with operand := BitVec.ofNat 64 (data a.lane) }
          let k : OpKind := .window 1 scalar f.h.dst.toNat f.h.ty .add .rne 0 held false
          .wait (s.addOp (is.op s k)) (.op s.nextId)
        else
          let s := foldState lanes s fun s a => s.storeLane is.c.core is.id h n a (data a.lane)
          .done (s.noteScratch is.c.core lanes fun _ => [])) s

/-- R188. -/
def Machine.execSt (f : XM) (s : State) : Host.Outcome State Fault Refusal := storeMem f (formStore f false) f.h.bytes false s
/-- R189. The scalar pipe reaches scratch here (log entry 132). -/
def Machine.execSst (f : XM) (s : State) : Host.Outcome State Fault Refusal := storeMem f (formStore f true) f.h.bytes true s
/-- R107. -/
def Machine.execStB32XBase (f : Base) (s : State) : Host.Outcome State Fault Refusal :=
  storeMem f.xmX (f.smallX (formStore f.xmX false)) f.bytes false s
/-- R107. -/
def Machine.execStB32ScBase (f : Base) (s : State) : Host.Outcome State Fault Refusal :=
  storeMem f.xmSc (formStore f.xmSc false) f.bytes false s

/-! ## Prefetch (R196) -/

/-- The translations of a prefetch: the lanes that have one, each with its address; a lane without is dropped. -/
def XM.prefetched (f : XM) (is : Issue) : List Nat → State → State × List (Nat × Nat)
  | [], s => (s, [])
  | l :: ls, s =>
    let r := if f.space.toNat = 0 then s.throughX is.id f.xsel.toNat (f.offset is.c l) 0
      else s.translate is.id is.c (f.address is.c l) 0
    match r with
    | (s, .error _) => f.prefetched is ls s
    | (s, .ok m) =>
      match f.prefetched is ls s with
      | (s, rest) => (s, (l, m.pa) :: rest)

/-- The address of a lane that has a translation lies in an interval that an engine writes (R199, log entry 131). -/
def XM.prefetchLocked (f : XM) (is : Issue) (s : State) (l : Nat) : Bool :=
  s.lockedGlobal is.c.core (s.asroot is.c.graph) ((f.address is.c l).toNat % 2 ^ 52) 1 false

/-- R196, R199: every lane's line is requested of its home L2; one that the L2 holds, or a host window, enters the L1's sector at
once, and another when its fill returns. What the L1 holds of the sector stays. -/
def Machine.execPf (f : XM) (s : State) : Host.Outcome State Fault Refusal :=
  let form := formPf f
  issue form f.h.bytes (fun is s =>
    match f.handle is.c with
    | none => .trap s (Trap.of .illegal)
    | some h =>
      match f.prefetched is (lanesOf is.acting) s with
      | (s, pas) =>
        match (pas.map Prod.fst).filter (f.prefetchLocked is s) with
        | l :: ls => .trap s ((Trap.atAddr .rangeLock (f.address is.c l) 0).inLanes (l :: ls))
        | [] =>
          let core := is.c.core
          let sectors := (pas.map fun e => e.2 / 32).eraseDups
          if !s.requestsFit core sectors.length then .wait s .retry
          else
            let s := s.requestSectors is.id core h none sectors
            let ready := sectors.filter fun x => !s.merges.any fun m => m.line == x / 4
            .done (foldState ready s fun s x => (s.claimLine (32 * x) h).loadL1 core (32 * x) 32 |>.1)) s

/-! ## Producers that land (R105, R147, R316) -/

namespace Machine

/-- Values land: words in locations that are still empty, poison in the others without one, and their flags in `%fpst`. -/
def Ctx.landValues (c : Ctx) (values : List (Nat × Option Word × BitVec 5)) : Ctx :=
  let c := c.land (values.filterMap fun e => e.2.1.map fun w => (e.1, w))
  let bad := (values.filter fun e => e.2.1.isNone).map Prod.fst
  let c := c.poisonLocs (bad.filter c.isEmpty) .poison 0
  c.postFlags (values.foldl (fun m e => m ||| e.2.2) (0 : BitVec 5))

/-- The lanes of an element gather that read in one event: those chosen and those with equal addresses (R210). -/
def gatherChosen (lanes : LaneMask) (all : List LaneAt) : List LaneAt × List LaneAt :=
  let first := all.filter fun a => lanes.getLsbD a.lane
  all.partition fun a => first.any fun b => b.place == a.place

/-- The lanes of a load whose lines have come are read, and those chosen land. -/
def State.fillLoad (s : State) (n : Nat) (lanes : LaneMask) : State :=
  let s := s.readOp n fun a => lanes.getLsbD a.lane && !a.line.any fun line => s.merging n line
  match s.ops.look n with
  | none => s
  | some o =>
    match o.kind with
    | .load scalar reg ty later h got =>
      let (now, rest) := got.partition fun e => lanes.getLsbD (locLane e.1)
      (s.modCtx o.ctx fun c => c.behind n fun c => c.landValues now).keepOp n (later.isEmpty && rest.isEmpty)
        (.load scalar reg ty later h rest)
    | _ => s

/-- An element gather reads at the home slices, where its read misses join those of others (R67, R210, R227). -/
def State.gatherLanes (s : State) (n : Nat) (o : Op) (reg : Nat) (ty : Ty) (lanes : List LaneAt) : State :=
  let s := foldState (lanesLines lanes) s fun s line => s.fetchLine o.core 0 (some n) line
  let r := lanes.foldl (fun (acc : State × List (Nat × Option Word × BitVec 5)) a =>
    if acc.1.poisonedPlace a.place then (acc.1.logPlace a.place, acc.2 ++ loadWords false reg ty a.lane none)
    else (acc.1, acc.2 ++ loadWords false reg ty a.lane (some (acc.1.readPlace a.place ty.bytes)))) (s, [])
  let s := r.1.noteLanes n o lanes fun a => (r.2.filter fun w => locLane w.1 == a.lane).map fun w => w.2.1
  s.modCtx o.ctx fun c => c.landValues r.2

/-- A producer other than a walker operation lands in some lanes (R105). -/
def State.fillLanes (s : State) (n : Nat) (o : Op) (lanes : LaneMask) : State :=
  match o.kind with
  | .load _ _ _ _ _ _ => s.fillLoad n lanes
  | .result values =>
    let (now, later) := values.partition fun e => lanes.getLsbD (locLane e.1)
    (s.modCtx o.ctx fun c => c.behind n fun c => c.landValues now).keepOp n later.isEmpty (.result later)
  | .gather reg ty all moved =>
    let (now, later) := gatherChosen lanes all
    (s.gatherLanes n o reg ty now).keepOp n later.isEmpty (.gather reg ty later (moved + ty.bytes * now.length))
  | .fpoll polls =>
    let (now, later) := polls.partition fun e => lanes.getLsbD (locLane e.1)
    let s := (now.map fun e => handleDie e.2).eraseDups.foldl (fun s d =>
      s.notePart n (o.die, d) ((now.filter fun e => handleDie e.2 == d).map fun e => some (s.pollWord e.2))) s
    (s.landAt o.ctx n (now.map fun e => (e.1, s.pollWord e.2))).keepOp n later.isEmpty (.fpoll later)
  | _ => s

/-- R316: a producer that has not landed 2^24 cycles after its issue is abandoned when that cycle is over, so that one which lands
in that cycle lands. -/
def execProducerWatchdog (op : Nat) (s : State) : Host.Outcome State Fault Refusal :=
  match s.ops.look op with
  | none => .next s
  | some o => .next (if decide (o.born + 2 ^ 24 < s.clock) && !o.kind.dests.isEmpty then s.abandon op .watchdog 0 else s)

end Machine

end Sys2Proof
end

