-- ==== Sys2Proof/Machine/Atomics.lean ====
section
/-! DEFINITION. Atomics (R191, R192), reductions without return (R193), scatter-add (R211), the cluster window's port (R48,
R186), waiting on a word (R195) and residency handles (R197). -/

namespace Sys2Proof

open Machine

/-! ## Issue (R192, R193) -/

/-- The line requests that an atomic sends to the L2 (R140). -/
def Machine.State.countWrites (s : State) (id : Nat) (lanes : List LaneAt) : State :=
  foldState (lanesLines lanes) s fun s line => s.countLine id 0x12 line 0

/-- The lane's operand and comparand: for `acas` the new value comes from `DST` (R191). -/
def atomicOperand (form : Form) (op : AtomicOp) (ty : Ty) (c : Ctx) (a : LaneAt) : AtomicLane :=
  let b := BitVec.ofNat 64 (ty.low (form.arg c 3 a.lane))
  if op = .cas then { at_ := a, operand := BitVec.ofNat 64 (ty.low (form.dstArg c a.lane)), compare := b }
  else { at_ := a, operand := b, compare := 0 }

/-- An atomic or `red`: it commits when every lane's checks have passed. With a result the split waits for it. -/
def atomicMem (f : XM) (form : Form) (op : AtomicOp) (ret : Bool) (s : State) : Host.Outcome State Fault Refusal :=
  issueWith form f.h.bytes [] (fun is _ => f.badWindow is) never (fun is s =>
    match f.access is 2 (pcieAtomic op f.h.ty) false s with
    | (s, .error t) => .trap s t
    | (s, .ok lanes) =>
      let s := s.settleReads is.id
      let room := f.space.toNat == 3 || s.requestsFit is.c.core (lanes.filterMap LaneAt.line).length
      let held := lanes.map (atomicOperand form op f.h.ty is.c)
      let reg := f.h.dst.toNat
      if !room then .wait s .retry
      else if f.space.toNat = 3 then
        .wait (s.addOp (is.op s (.window 2 false reg f.h.ty op f.h.rnd is.c.special.fpctl held ret))) (.op s.nextId)
      else
        let k : OpKind := .atomic op f.h.ty f.h.rnd is.c.special.fpctl held (if ret then some reg else none) 0 false
        let s := s.countWrites is.id lanes
        if ret then .commitWait (s.addOp (is.op s k)) (.op s.nextId) else .commit (s.addOp (is.op s k))) s

namespace Machine

/-- R191. -/
def execAadd (f : XM) (s : State) : Host.Outcome State Fault Refusal :=
  atomicMem f (formAtomic f f.h.ty.inI .write false) .add true s
/-- R191. -/
def execAmin (f : XM) (s : State) : Host.Outcome State Fault Refusal :=
  atomicMem f (formAtomic f f.h.ty.inIS .write false) .min true s
/-- R191. -/
def execAmax (f : XM) (s : State) : Host.Outcome State Fault Refusal :=
  atomicMem f (formAtomic f f.h.ty.inIS .write false) .max true s
/-- R191. -/
def execAand (f : XM) (s : State) : Host.Outcome State Fault Refusal :=
  atomicMem f (formAtomic f f.h.ty.inW .write false) .and true s
/-- R191. -/
def execAor (f : XM) (s : State) : Host.Outcome State Fault Refusal :=
  atomicMem f (formAtomic f f.h.ty.inW .write false) .or true s
/-- R191. -/
def execAxor (f : XM) (s : State) : Host.Outcome State Fault Refusal :=
  atomicMem f (formAtomic f f.h.ty.inW .write false) .xor true s
/-- R191. -/
def execAswap (f : XM) (s : State) : Host.Outcome State Fault Refusal :=
  atomicMem f (formAtomic f f.h.ty.inW .write false) .swap true s
/-- R191. -/
def execAcas (f : XM) (s : State) : Host.Outcome State Fault Refusal :=
  atomicMem f (formAtomic f f.h.ty.inW .readWrite false) .cas true s
/-- R191. -/
def execAinc (f : XM) (s : State) : Host.Outcome State Fault Refusal :=
  atomicMem f (formAtomic f (f.h.ty == .n32 || f.h.ty == .n64) .write false) .inc true s
/-- R191. -/
def execAfadd (f : XM) (s : State) : Host.Outcome State Fault Refusal :=
  atomicMem f (formAtomic f f.h.ty.inF .write true) .add true s

/-- The operation of `red` (R104). -/
def redOp (n : Nat) : AtomicOp :=
  match n with
  | 0 => .add | 1 => .min | 2 => .max | 3 => .and | 4 => .or | _ => .xor

/-- R193. -/
def execRed (f : XM) (s : State) : Host.Outcome State Fault Refusal :=
  atomicMem f (formRed f) (redOp f.op.toNat) false s

/-! ## Performing (R192, R193) -/

/-- R192: the next lane of an atomic, `red` or scatter-add is performed; `afadd` posts its flags when every old value has
returned. -/
def State.atomicStep (s : State) (n : Nat) (o : Op) (op : AtomicOp) (ty : Ty) (rnd : Rnd) (fpctl : Word) (ret : Option Nat)
    (flags : Flags) (engine : Bool) : List AtomicLane → State
  | [] => s.wakeOp n o
  | a :: rest =>
    match s.atomicAt o op ty (fpEnv fpctl rnd) a with
    | (s, old, fl) =>
      let s := match ret with
        | some reg => s.modCtx o.ctx fun c => c.atomicResult reg ty a.at_.lane old
        | none => if old.isNone then s.reportLane o a.at_ else s
      let s := s.notePart n (s.placeLink o.die o.core a.at_.place) (if ret.isSome then oldWords ty old else [])
      if rest.isEmpty then
        let s := if ret.isSome then s.modCtx o.ctx fun c => c.postFlags (flags ||| fl) else s
        s.wakeOp n o
      else s.modOp n fun o => { o with kind := .atomic op ty rnd fpctl rest ret (flags ||| fl) engine }

/-! ## The cluster window (R48, R186) -/

/-- The access lies inside the addressable part of one live allocation of a team of the graph. -/
def State.windowOpen (s : State) (graph core off n : Nat) : Bool :=
  s.teams.any fun e => e.2.graph == graph && e.2.evicted.isNone && (e.2.core == core || (e.2.pair && e.2.core + 1 == core))
    && decide (e.2.offset ≤ off) && decide (off + n ≤ e.2.offset + e.2.scratch)

/-- The check of one lane at its target port. -/
def State.windowLane (s : State) (graph n kind : Nat) (a : LaneAt) : Option Trap :=
  match a.place with
  | .mem _ => none
  | .scratch core off =>
    if !s.windowOpen graph core off n then some (Trap.atAddr .scratchBounds a.va kind)
    else if s.lockedScratch core off n (kind != 0) then some (Trap.atAddr .rangeLock a.va kind)
    else none

/-- The cause that refuses the whole access: that of the lowest-numbered failing lane. -/
def State.windowTrap (s : State) (graph n kind : Nat) (scalar : Bool) (lanes : List LaneAt) : Option Trap :=
  match lanes.filterMap fun a => (s.windowLane graph n kind a).map fun t => (a.lane, t) with
  | [] => none
  | (l, t) :: rest => some (if scalar then t else t.inLanes (l :: rest.map Prod.fst))

/-- The accesses of an accepted instruction are performed, in ascending lane order. -/
def State.windowPerform (s : State) (n : Nat) (o : Op) (kind : Nat) (scalar : Bool) (reg : Nat) (ty : Ty) (op : AtomicOp) (rnd : Rnd)
    (fpctl : Word) (ret : Bool) (lanes : List AtomicLane) : State :=
  match kind with
  | 0 =>
    match readScratchLanes s scalar reg ty (lanes.map (·.at_)) with
    | (s, values) =>
      let s := s.noteLanes n o (lanes.map (·.at_)) fun a =>
        (values.filter fun w => scalar || locLane w.1 == a.lane).map fun w => w.2.1
      s.modCtx o.ctx fun c => c.behind n fun c => c.deliverWords values
  | 1 =>
    (foldState lanes s fun s a => s.writePlace a.at_.place ty.bytes a.operand.toNat).noteLanes n o (lanes.map (·.at_)) fun _ => []
  | _ =>
    let r := lanes.foldl (fun (acc : State × Flags) a =>
      match acc.1.atomicAt o op ty (fpEnv fpctl rnd) a with
      | (s, old, fl) =>
        let s := s.notePart n (s.placeLink o.die o.core a.at_.place) (if ret then oldWords ty old else [])
        (if ret then s.modCtx o.ctx fun c => c.atomicResult reg ty a.at_.lane old
          else if old.isNone then s.reportLane o a.at_ else s, acc.2 ||| fl)) (s, 0)
    if ret then r.1.modCtx o.ctx fun c => c.postFlags r.2 else r.1

/-- The instruction that waited for the ports continues after it, closing no region; where its split runs an engine's entry
meanwhile, that returns behind it (R305). -/
def State.passOp (s : State) (n : Nat) (o : Op) : State :=
  let waits := s.waitsFor n o
  let behind := ((s.ctxs.look o.ctx).map fun c => c.interrupted n o).getD false
  let s := (s.endOp n).modHandler n o fun h => { h with savedPc := o.next, wait := .ready }
  if waits then (s.modSplit o.ctx o.split fun sp => { sp with wait := .ready, pc := o.next }).issued o.ctx
  else if behind then s.issued o.ctx
  else s

/-- R48, R186: the ports accept every lane and the access is performed, or they refuse all of it. -/
def execClusterWindowArrive (op : Nat) (s : State) : Host.Outcome State Fault Refusal :=
  match s.ops.look op with
  | none => .next s
  | some o =>
    match o.kind with
    | .window kind scalar reg ty aop rnd fpctl lanes ret =>
      match s.windowTrap o.graph ty.bytes kind scalar (lanes.map (·.at_)) with
      | some t => .next (s.refuseOp op o t)
      | none =>
        let s := s.windowPerform op o kind scalar reg ty aop rnd fpctl ret lanes
        .next (if kind = 2 then s.commitOp op o else s.passOp op o)
    | _ => .next s

/-! ## Scatter-add (R211) -/

/-- Lanes with equal addresses are combined in ascending lane order. -/
def combineAdds (ty : Ty) (env : FpEnv) : List AtomicLane → List AtomicLane
  | [] => []
  | a :: rest =>
    let same := rest.filter fun b => b.at_.place == a.at_.place
    let sum := same.foldl (fun x b => (atomicNew .add ty env x b.operand.toNat 0).1) a.operand.toNat
    { a with operand := BitVec.ofNat 64 sum } :: (combineAdds ty env rest).filter fun b => b.at_.place != a.at_.place

/-- The element address of a gather or scatter-add (R210, R211). -/
def elementAddress (form : Form) (is : Issue) (size l : Nat) : DWord :=
  form.arg is.c 1 0 + BitVec.ofInt 64 (((form.arg is.c 2 l).setWidth 32).toInt * size)

/-- The element checks of `gath` and `scatadd` (R186, R199). -/
def elementAccess (form : Form) (is : Issue) (size kind : Nat) (pcie : Bool) (s : State) : State × Except Trap (List LaneAt) :=
  locateAll (fun l s =>
    let va := elementAddress form is size l
    checkGlobal is va size kind pcie (fun s => s.translate is.id is.c va kind) l s) false (lanesOf is.acting) s

/-- R211: the engine combines equal addresses, then performs one atomic add for each. -/
def execScatadd (f : XA) (s : State) : Host.Outcome State Fault Refusal :=
  let form := formScatadd f
  issue form f.h.bytes (fun is s =>
    let ty := f.h.ty
    match elementAccess form is ty.bytes 2 (pcieAtomic .add ty) s with
    | (s, .error t) => .trap s t
    | (s, .ok lanes) =>
      let env := fpEnv is.c.special.fpctl f.h.rnd
      let adds := combineAdds ty env (lanes.map (atomicOperand form .add ty is.c))
      let s := s.writeBack is.id
      if !s.requestsFit is.c.core adds.length then .wait s .retry
      else
        let s := s.countWrites is.id (adds.map (·.at_))
        .commit (s.addOp (is.op s (.atomic .add ty f.h.rnd is.c.special.fpctl adds none 0 true)))) s

/-! ## Waiting on a word (R195, R332, R333) -/

/-- The die beside whose slices and ports a place's watch entries stand. -/
def State.watchDie (s : State) (p : Place) : Nat :=
  match p with
  | .mem pa => (s.homeOf pa).1
  | .scratch core _ => dieOfCore core

/-- Parks a split on a place: with an entry of the die's watch table, or polling where none is free or the place lies in a
host window. -/
def State.watchPlace (s : State) (w : Watch) : State × Wait :=
  let host := match w.place with
    | .mem pa => inHost pa
    | .scratch _ _ => false
  let used := (s.watch.filter fun e => e.die == w.die && !e.poll && e.sent.isNone).length
  let poll := host || decide (Config.watchRoom ≤ used)
  ({ s with watch := s.watch ++ [{ w with poll := poll }] }, if poll then .poll else .watch)

/-- The team whose allocation a cluster-window check found. -/
def State.windowTeam (s : State) (graph core off n : Nat) : Option Nat :=
  (s.teams.find? fun e => e.2.graph == graph && e.2.evicted.isNone && (e.2.core == core || (e.2.pair && e.2.core + 1 == core))
    && decide (e.2.offset ≤ off) && decide (off + n ≤ e.2.offset + e.2.scratch)).map Prod.fst

/-- A context's read of n bytes at a place's point of order arrives at the slices of its lines (R140). -/
def State.askPlace (s : State) (core id : Nat) (p : Place) (n : Nat) : State :=
  match p with
  | .mem pa => s.askHome core id pa n
  | .scratch _ _ => s

/-- Performs a core's own plain stores to the line of a place, which happen before a read there (R219). -/
def State.performLine (s : State) (core who : Nat) (p : Place) : State :=
  match p with
  | .mem pa => s.writeBackLines core (some who) fun n _ => n == pa / 128
  | .scratch _ _ => s

/-- R195: the read at the point of order and the registration are one operation there; the write-back of a park (R36) comes
between a first read that fails and that operation. -/
def execSwait (f : XM) (s : State) : Host.Outcome State Fault Refusal :=
  let form := formSwait f
  issueWith form f.h.bytes [] (fun is _ => f.badWindow is) never (fun is s =>
    match f.access is 0 false true s with
    | (s, .error t) => .trap s t
    | (s, .ok lanes) =>
      match lanes with
      | [] => .done s
      | a :: _ =>
        let n := f.h.ty.bytes
        match if f.space.toNat = 3 then s.windowLane is.c.graph n 0 a else none with
        | some t => .trap s t
        | none =>
          let s := ((s.settleReads is.id).performLine is.c.core is.id a.place).askPlace is.c.core is.id a.place n
          let test : WatchTest := .compare f.op.toNat f.h.ty (form.arg is.c 3 0)
          let parked := s.writeBack is.id
          if s.poisonedPlace a.place then .trap (s.logPlace a.place) { Trap.of .poison with va := a.va }
          else if test.holds (s.readPlace a.place n) then .done s
          else if test.holds (parked.readPlace a.place n) then .done parked
          else
            let team := match f.space.toNat, a.place with
              | 3, .scratch core off => s.windowTeam is.c.graph core off n
              | _, _ => none
            let w : Watch :=
              { die := s.watchDie a.place, place := a.place, bytes := n, test := test, ctx := is.id, split := is.i, team := team
                next := is.next, edge := false, poll := false }
            match parked.watchPlace w with
            | (s, wait) => .wait s wait) s

/-- R195, R333: a polling split reads its word again. -/
def execSwaitPoll (ctx split : Nat) (s : State) : Host.Outcome State Fault Refusal :=
  match s.watch.find? fun w => w.poll && w.ctx == ctx && w.split == split with
  | none => .next s
  | some w =>
    let s := s.askPlace (((s.ctxs.look ctx).map (·.core)).getD 0) ctx w.place w.bytes
    if !w.test.holds (s.readPlace w.place w.bytes) then .next s
    else
      let s := { s with watch := s.watch.filter fun e => !(e.poll && e.ctx == ctx && e.split == split) }
      let s := s.modSplit ctx split fun sp => if sp.wait == .poll then { sp with wait := .ready, pc := w.next } else sp
      .next (if w.edge then s.crossEdge ctx else s)

/-! ## Residency handles (R197) -/

/-- A free handle number, from a place on. -/
def State.freeHandleFrom (s : State) : Nat → Nat → Option Nat
  | 0, _ => none
  | n + 1, i =>
    let j := i % 4096
    if j != 0 && (s.handles.look j).isNone && s.ops.all (fun e => match e.2.kind with
        | .handle k _ _ => k != j
        | _ => true) then some j
    else s.freeHandleFrom n (j + 1)

/-- R197: a free number is taken (log entry 11), and the change goes to every die. -/
def execRhnew (f : XM) (s : State) : Host.Outcome State Fault Refusal :=
  let form := formRh f true false
  issue form f.h.bytes (fun is s =>
    let p := form.arg is.c 1 0
    if 8 ≤ p.toNat then .trap s (Trap.of .illegal)
    else
      match s.freeHandleFrom 4096 (Config.freeChoice s.free) with
      | none => .done (s.modCtx is.id fun c => form.writeDst c 0 0)
      | some h =>
        let s := { s with free := s.free + 1 }
        .wait (s.addOp (is.op s (.handle h (some p.toNat) (some f.h.dst.toNat)))) (.op s.nextId)) s

/-- The checks of `rhset` and `rhdrop` on their registers. -/
def changeHandle (f : XM) (form : Form) (set : Bool) (s : State) : Host.Outcome State Fault Refusal :=
  issue form f.h.bytes (fun is s =>
    let h := (form.arg is.c 1 0).toNat
    let p := (form.arg is.c 2 0).toNat
    if 4096 ≤ h || (set && decide (8 ≤ p)) then .trap s (Trap.of .illegal)
    else if h = 0 || (s.handles.look h).isNone then .trap s (Trap.of .controlBlock)
    else .wait (s.addOp (is.op s (.handle h (if set then some p else none) none))) (.op s.nextId)) s

/-- R197. -/
def execRhset (f : XM) (s : State) : Host.Outcome State Fault Refusal := changeHandle f (formRh f false true) true s
/-- R197. -/
def execRhdrop (f : XM) (s : State) : Host.Outcome State Fault Refusal := changeHandle f (formRh f false false) false s

/-- R197: every die has applied the change, and the split continues; priority-7 lines stay within their bound (R69). -/
def execHandleChangeApplied (op : Nat) (s : State) : Host.Outcome State Fault Refusal :=
  match s.ops.look op with
  | none => .next s
  | some o =>
    match o.kind with
    | .handle h prio reg =>
      let s := match prio with
        | some p =>
          foldState (if p = 7 then List.range s.dies else []) { s with handles := s.handles.ins h ⟨p, []⟩ } fun s d => s.capTop h d
        | none => { s with handles := s.handles.del h, l2 := s.disown (fun e => e.2 == h) }
      let s := match reg with
        | some r => s.modCtx o.ctx fun c => c.behind op fun c => c.writeLoc (locS r) (BitVec.ofNat 32 h)
        | none => s
      .next (s.passOp op o)
    | _ => .next s

end Machine

end Sys2Proof
end

