-- ==== Sys2Proof/WellFormed.lean ====
section
/-! DEFINITION. Well-formed instructions: those that pass every static check of R118. What depends on the group
(`.regs`, the node's tiles and blocks, a register's value) is checked at issue. -/

namespace Sys2Proof

/-- The instruction passes every static check of R118. -/
def Instr.wf (i : Instr) : Bool := i.staticOk

end Sys2Proof
end

