-- ==== Sys2Proof/Decode.lean ====
section
/-! DEFINITION. Decoding and encoding (R93 to R118): words to fields, fields to an instruction by major opcode,
sub-operation and the immediate that chooses a variant, and the static checks; an encoding that is no instruction is
rejected with the reason. The encoder is written from the same tables. -/

namespace Sys2Proof

/-- Why words encode no instruction (the rows of R118's table). -/
inductive Reject where
  /-- fewer bytes than `LEN` asks for -/
  | truncated
  /-- a `LEN` that the major opcode does not allow, or an unassigned `MAJOR` -/
  | badMajor
  /-- an unassigned `SUBOP` or `SHOP` -/
  | badSubop
  /-- a code or a reserved bit that no field allows (`RND` 101 and 110, reserved bits of word 2 or of the shape) -/
  | badField
  /-- a static check of R118 that `Instr.wf` makes -/
  | illFormed
deriving DecidableEq, Repr

/-! ## Codes -/

/-- The type of a `TYPE` or `FROM` code (R99). -/
def Ty.ofCode (n : Nat) : Ty :=
  match n with
  | 0 => .b32 | 1 => .b64 | 2 => .s32 | 3 => .n32 | 4 => .s64 | 5 => .n64 | 6 => .f32 | 7 => .f64
  | 8 => .f16 | 9 => .bf16 | 10 => .e4m3 | 11 => .e5m2 | 12 => .s8 | 13 => .n8 | 14 => .s16 | _ => .n16

/-- The `TYPE` code of a type (R99). -/
def Ty.code (t : Ty) : Nat :=
  match t with
  | .b32 => 0 | .b64 => 1 | .s32 => 2 | .n32 => 3 | .s64 => 4 | .n64 => 5 | .f32 => 6 | .f64 => 7
  | .f16 => 8 | .bf16 => 9 | .e4m3 => 10 | .e5m2 => 11 | .s8 => 12 | .n8 => 13 | .s16 => 14 | .n16 => 15

/-- The rounding mode of a `RND` code (R76); 101 and 110 name none (R100). -/
def Rnd.ofCode (n : Nat) : Option Rnd :=
  match n with
  | 0 => some .rne | 1 => some .rtz | 2 => some .rdn | 3 => some .rup | 4 => some .rna | 7 => some .dyn | _ => none

/-- The `RND` code of a rounding mode. -/
def Rnd.code (r : Rnd) : Nat :=
  match r with
  | .rne => 0 | .rtz => 1 | .rdn => 2 | .rup => 3 | .rna => 4 | .dyn => 7

/-! ## Words and fields -/

/-- Bits [hi:lo] of a word, as a value of their width. -/
def Word.field (w : Word) (lo n : Nat) : BitVec n := w.extractLsb' lo n

/-- The literal of two words, the low word first (R98). -/
def literal (lo hi : Word) : DWord := hi ++ lo

/-- The two words of a literal. -/
def literalWords (l : DWord) : List Word := [l.extractLsb' 0 32, l.extractLsb' 32 32]

/-- Words 0 and 1 of an extended instruction (R95, R96). -/
def Hdr.ofWords (w0 w1 : Word) (lit : Option DWord) : Option Hdr :=
  (Rnd.ofCode (w1.field 8 3).toNat).map fun r =>
    { dst := w0.field 16 8, src1 := w0.field 8 8, src2 := w0.field 0 8, src3 := w1.field 0 8
      guard := ⟨w1.getLsbD 21, w1.field 18 3⟩, empty := w1.field 15 3, ty := Ty.ofCode (w1.field 11 4).toNat, rnd := r
      lit := lit }

/-- Word 0 of an extended instruction of this major. -/
def Hdr.word0 (h : Hdr) (major : BitVec 6) : Word :=
  (if h.lit.isSome then 3#2 else 2#2) ++ major ++ h.dst ++ h.src1 ++ h.src2

/-- Word 1 of an extended instruction of this sub-operation. -/
def Hdr.word1 (h : Hdr) (subop : BitVec 10) : Word :=
  subop ++ BitVec.ofBool h.guard.neg ++ h.guard.num ++ h.empty ++ BitVec.ofNat 4 h.ty.code ++ BitVec.ofNat 3 h.rnd.code
    ++ h.src3

/-- The words of an extended instruction. -/
def Hdr.words (h : Hdr) (major : BitVec 6) (subop : BitVec 10) (w2 : Word) : List Word :=
  h.word0 major :: h.word1 subop :: w2 :: (h.lit.map literalWords).getD []

/-- Word 2 of class XV (R103); its bits [13:0] are reserved. -/
def XV.ofWord (h : Hdr) (w : Word) : Option XV :=
  if w.field 0 14 = 0 then
    some { h := h, kind := w.field 29 3, sat := w.getLsbD 28, neg := w.field 25 3, abs := w.field 22 3
           cond := w.field 18 4, src := Ty.ofCode (w.field 14 4).toNat }
  else none

/-- Word 2 of class XV. -/
def XV.word (f : XV) : Word :=
  f.kind ++ BitVec.ofBool f.sat ++ f.neg ++ f.abs ++ f.cond ++ BitVec.ofNat 4 f.src.code ++ 0#14

/-- Word 2 of class XL (R103). -/
def XL.ofWord (h : Hdr) (w : Word) : XL := { h := h, kind := w.field 29 3, mode := w.field 25 4, imm := w.field 0 25 }
/-- Word 2 of class XL. -/
def XL.word (f : XL) : Word := f.kind ++ f.mode ++ f.imm

/-- Word 2 of class XM (R104). -/
def XM.ofWord (h : Hdr) (w : Word) : XM :=
  { h := h, space := w.field 29 3, xsel := w.field 27 2, scale := w.field 24 3, scalarIndex := w.getLsbD 23
    op := w.field 20 3, rh := w.getLsbD 19, disp := w.field 0 19 }
/-- Word 2 of class XM. -/
def XM.word (f : XM) : Word :=
  f.space ++ f.xsel ++ f.scale ++ BitVec.ofBool f.scalarIndex ++ f.op ++ BitVec.ofBool f.rh ++ f.disp

/-- Word 2 of class XA (R103). -/
def XA.ofWord (h : Hdr) (w : Word) : XA := { h := h, kind := w.field 29 3, imm := w.field 0 29 }
/-- Word 2 of class XA. -/
def XA.word (f : XA) : Word := f.kind ++ f.imm

/-- Word 2 of class XT (R103). -/
def XT.ofWord (h : Hdr) (w : Word) : XT := { h := h, kind := w.field 29 3, imm := w.field 0 29 }
/-- Word 2 of class XT. -/
def XT.word (f : XT) : Word := f.kind ++ f.imm

/-- A base form of word 0 and an optional literal (R95, R107). -/
def Base.ofWord (w0 : Word) (lit : Option DWord) : Base :=
  { dst := w0.field 16 8, src1 := w0.field 8 8, src2 := w0.field 0 8, lit := lit }

/-- The words of a base form of this major. -/
def Base.words (f : Base) (major : BitVec 6) : List Word :=
  ((if f.lit.isSome then 1#2 else 0#2) ++ major ++ f.dst ++ f.src1 ++ f.src2) :: (f.lit.map literalWords).getD []

/-- A shaped copy (R115, R116); bit 28 of block word D is reserved. -/
def Shaped.ofWords (w0 a b c d : Word) : Option Shaped :=
  if d.getLsbD 28 then none
  else some
    { src1 := w0.field 8 8, src2 := w0.field 0 8, dim0 := a.field 16 16, dim1 := a.field 0 16, stride := b
      soff := c.field 14 18, spitch := c.field 0 14, esize := d.field 29 3, sreg := d.field 22 6
      subst := d.field 18 4, goff := d.field 0 18 }

/-- The words of a shaped copy of this `SHOP`. -/
def Shaped.words (f : Shaped) (shop : BitVec 8) : List Word :=
  [3#2 ++ 0x3E#6 ++ shop ++ f.src1 ++ f.src2, f.dim0 ++ f.dim1, f.stride, f.soff ++ f.spitch,
   f.esize ++ 0#1 ++ f.sreg ++ f.subst ++ f.goff]

/-! ## The opcode maps -/

/-- The base majors (R107). -/
def Instr.ofBase (n : Nat) (f : Base) : Option Instr :=
  match n with
  | 0x01 => some (.addB32Base f)
  | 0x02 => some (.subB32Base f)
  | 0x03 => some (.mulB32Base f)
  | 0x04 => some (.andB32Base f)
  | 0x05 => some (.orB32Base f)
  | 0x06 => some (.xorB32Base f)
  | 0x07 => some (.shlB32Base f)
  | 0x08 => some (.shrB32Base f)
  | 0x09 => some (.sraB32Base f)
  | 0x0A => some (.minS32Base f)
  | 0x0B => some (.maxS32Base f)
  | 0x0C => some (.faddF32Base f)
  | 0x0D => some (.fsubF32Base f)
  | 0x0E => some (.fmulF32Base f)
  | 0x0F => some (.fmaF32Base f)
  | 0x10 => some (.fminF32Base f)
  | 0x11 => some (.fmaxF32Base f)
  | 0x12 => some (.movB32Base f)
  | 0x13 => some (.addB32VsBase f)
  | 0x14 => some (.fmulF32VsBase f)
  | 0x15 => some (.fmaF32VsBase f)
  | 0x16 => some (.saddB32Base f)
  | 0x17 => some (.ssubB32Base f)
  | 0x18 => some (.smulB32Base f)
  | 0x19 => some (.sandB32Base f)
  | 0x1A => some (.sorB32Base f)
  | 0x1B => some (.sxorB32Base f)
  | 0x1C => some (.sshlB32Base f)
  | 0x1D => some (.sshrB32Base f)
  | 0x1E => some (.smovB32Base f)
  | 0x1F => some (.ldB32XBase f)
  | 0x20 => some (.stB32XBase f)
  | 0x21 => some (.ldB32ScBase f)
  | 0x22 => some (.stB32ScBase f)
  | _ => none

/-- Class XC (R109). -/
def Instr.ofXC (n : Nat) (f : XC) : Option Instr :=
  match n with
  | 0x000 => some (.sadd f)
  | 0x001 => some (.ssub f)
  | 0x002 => some (.smul f)
  | 0x003 => some (.smulh f)
  | 0x004 => some (.smad f)
  | 0x005 => some (.sdiv f)
  | 0x006 => some (.srem f)
  | 0x007 => some (.smin f)
  | 0x008 => some (.smax f)
  | 0x009 => some (.sand f)
  | 0x00A => some (.sor f)
  | 0x00B => some (.sxor f)
  | 0x00C => some (.sshl f)
  | 0x00D => some (.sshr f)
  | 0x00E => some (.ssra f)
  | 0x00F => some (.sbfx f)
  | 0x010 => some (.sbfi f)
  | 0x011 => some (.spopc f)
  | 0x012 => some (.sclz f)
  | 0x013 => some (.sctz f)
  | 0x014 => some (.scmp f)
  | 0x015 => some (.ssel f)
  | 0x016 => some (.smov f)
  | 0x017 => some (.sli f)
  | 0x018 => some (.kop f)
  | 0x019 => some (.bra f)
  | 0x01A => some (.brk f)
  | 0x01B => some (.brv f)
  | 0x01C => some (.jmp f)
  | 0x01D => some (.call f)
  | 0x01E => some (.ret f)
  | 0x01F => some (.loop f)
  | 0x020 => some (.join f)
  | 0x021 => some (.exitLanes f)
  | 0x022 => some (.nop f)
  | 0x023 => some (.yieldSplit f)
  | 0x024 => some (.rdsr f)
  | 0x025 => some (.wrsr f)
  | 0x026 => some (.region f)
  | 0x027 => if !bitOf f.imm 0 then some (.fnew f) else some (.fnewP f)
  | 0x028 => some (.fdone f)
  | 0x029 => some (.fawait f)
  | 0x02A => some (.fpoll f)
  | 0x02B => some (.spawn f)
  | 0x02C => some (.emit f)
  | 0x02D => some (.fire f)
  | 0x02E => some (.reord f)
  | 0x02F => some (.pqpush f)
  | 0x030 => some (.pqpop f)
  | 0x031 => some (.trap f)
  | 0x032 => if f.imm == 0 then some (.rfePc f) else if f.imm == 1 then some (.rfeNext f) else some (.rfeRegion f)
  | 0x033 => some (.xbind f)
  | _ => none

/-- Class XV (R110). -/
def Instr.ofXV (n : Nat) (f : XV) : Option Instr :=
  match n with
  | 0x000 => some (.add f)
  | 0x001 => some (.sub f)
  | 0x002 => some (.mul f)
  | 0x003 => some (.mulh f)
  | 0x004 => some (.mad f)
  | 0x005 => some (.min f)
  | 0x006 => some (.max f)
  | 0x007 => some (.abs f)
  | 0x008 => some (.and f)
  | 0x009 => some (.or f)
  | 0x00A => some (.xor f)
  | 0x00B => some (.shl f)
  | 0x00C => some (.shr f)
  | 0x00D => some (.sra f)
  | 0x00E => some (.bfx f)
  | 0x00F => some (.bfi f)
  | 0x010 => some (.popc f)
  | 0x011 => some (.clz f)
  | 0x012 => some (.brev f)
  | 0x013 => some (.cmp f)
  | 0x014 => some (.sel f)
  | 0x015 => some (.mov f)
  | 0x016 => some (.fadd f)
  | 0x017 => some (.fsub f)
  | 0x018 => some (.fmul f)
  | 0x019 => some (.fma f)
  | 0x01A => some (.fmin f)
  | 0x01B => some (.fmax f)
  | 0x01C => some (.fcmp f)
  | 0x01D => some (.fclass f)
  | 0x01E => some (.fdiv f)
  | 0x01F => some (.fsqrt f)
  | 0x020 => some (.frcp f)
  | 0x021 => some (.frsq f)
  | 0x022 => some (.fex2 f)
  | 0x023 => some (.flg2 f)
  | 0x024 => some (.fsin f)
  | 0x025 => some (.fcos f)
  | 0x026 => some (.ftanh f)
  | 0x027 => some (.frint f)
  | 0x028 => some (.fscal f)
  | 0x029 => some (.cvt f)
  | 0x02A => some (.pack f)
  | 0x02B => some (.unpack f)
  | _ => none

/-- Class XL (R111). -/
def Instr.ofXL (n : Nat) (f : XL) : Option Instr :=
  match n with
  | 0x000 => if f.mode == 0 then some (.shflIdx f) else if f.mode == 1 then some (.shflUp f) else if f.mode == 2 then some (.shflDown f) else some (.shflXor f)
  | 0x001 => if f.mode == 0 then some (.voteBallot f) else if f.mode == 1 then some (.voteAny f) else if f.mode == 2 then some (.voteAll f) else some (.voteUni f)
  | 0x002 => some (.matchLanes f)
  | 0x003 => some (.redux f)
  | 0x004 => some (.scan f)
  | 0x005 => some (.rngc f)
  | 0x006 => some (.vtopk f)
  | 0x007 => some (.vsoftmax f)
  | 0x008 => some (.vsample f)
  | _ => none

/-- Class XM (R112). -/
def Instr.ofXM (n : Nat) (f : XM) : Option Instr :=
  match n with
  | 0x000 => some (.ld f)
  | 0x001 => some (.st f)
  | 0x002 => some (.sld f)
  | 0x003 => some (.sst f)
  | 0x004 => some (.aadd f)
  | 0x005 => some (.amin f)
  | 0x006 => some (.amax f)
  | 0x007 => some (.aand f)
  | 0x008 => some (.aor f)
  | 0x009 => some (.axor f)
  | 0x00A => some (.aswap f)
  | 0x00B => some (.acas f)
  | 0x00C => some (.ainc f)
  | 0x00D => some (.afadd f)
  | 0x00E => some (.red f)
  | 0x00F => some (.swait f)
  | 0x010 => some (.pf f)
  | 0x011 => some (.rhnew f)
  | 0x012 => some (.rhset f)
  | 0x013 => some (.rhdrop f)
  | 0x014 => if f.h.dst == 0 then some (.cbinvNode f) else if f.h.dst == 1 then some (.cbinvArm f) else if f.h.dst == 2 then some (.cbinvTree f) else if f.h.dst == 3 then some (.cbinvAll f) else some (.cbinvTr f)
  | _ => none

/-- Class XA (R113). -/
def Instr.ofXA (n : Nat) (f : XA) : Option Instr :=
  match n with
  | 0x000 => if f.dir == 0 then some (.cpaGs f) else if f.dir == 1 then some (.cpaSg f) else if f.dir == 2 then some (.cpaGg f) else if f.dir == 3 then some (.cpaSs f) else if f.dir == 4 then some (.cpaSw f) else some (.cpaWs f)
  | 0x001 => some (.bar f)
  | 0x002 => some (.tbinit f)
  | 0x003 => some (.tbarrive f)
  | 0x004 => some (.tbwait f)
  | 0x005 => some (.tbpoll f)
  | 0x006 => if !bitOf f.imm 28 then some (.gath f) else some (.gathRow f)
  | 0x007 => some (.scatadd f)
  | _ => none

/-- Class XT (R114). -/
def Instr.ofXT (n : Nat) (f : XT) : Option Instr :=
  match n with
  | 0x000 => some (.tset f)
  | 0x001 => some (.tget f)
  | 0x002 => some (.tcb f)
  | 0x003 => some (.tld f)
  | 0x004 => some (.tst f)
  | 0x005 => some (.tzero f)
  | 0x006 => some (.gang f)
  | 0x007 => some (.mma f)
  | 0x008 => some (.mmaBs f)
  | 0x009 => some (.mmaVs f)
  | 0x00A => some (.mmas f)
  | 0x00B => some (.mbatch f)
  | 0x00C => some (.mwait f)
  | 0x00D => some (.accld f)
  | 0x00E => some (.accst f)
  | 0x00F => some (.acccvt f)
  | 0x010 => some (.acczero f)
  | 0x011 => some (.vtset f)
  | 0x012 => some (.vlook f)
  | 0x013 => some (.vstencil f)
  | 0x014 => if f.sub == 0 then some (.vsampTri f) else some (.vsampNear f)
  | 0x015 => some (.vmarch f)
  | 0x016 => some (.vins f)
  | 0x017 => if f.sub == 0 then some (.vactSet f) else if f.sub == 1 then some (.vactClr f) else some (.vactTrim f)
  | 0x018 => some (.dtrav f)
  | 0x019 => if !bitOf f.imm 3 then some (.halo f) else some (.haloPostOnly f)
  | 0x01A => some (.stepb f)
  | _ => none

/-- The shaped opcodes (R115). -/
def Instr.ofShop (n : Nat) (f : Shaped) : Option Instr :=
  match n with
  | 0x01 => some (.cpasGs f)
  | 0x02 => some (.cpasSg f)
  | 0x03 => some (.cpasGt f)
  | 0x04 => some (.cpasSt f)
  | 0x05 => some (.cpasAg f)
  | _ => none

/-! ## Decoding -/

/-- The number of words that `LEN` gives (R94). -/
def lengthOf (w0 : Word) : Nat :=
  match (w0.field 30 2).toNat with
  | 0 => 1
  | 3 => 5
  | _ => 3

/-- A reason where there is no value. -/
def orReject {α : Type} (x : Option α) (r : Reject) : Except Reject α :=
  match x with
  | some a => .ok a
  | none => .error r

/-- An extended instruction of words 0 to 2 and an optional literal, by major. -/
def decodeExtended (w0 w1 w2 : Word) (lit : Option DWord) : Except Reject Instr :=
  let n := (w1.field 22 10).toNat
  match Hdr.ofWords w0 w1 lit with
  | none => .error .badField
  | some h =>
    match (w0.field 24 6).toNat with
    | 0x38 => orReject (Instr.ofXC n ⟨h, w2⟩) .badSubop
    | 0x39 => match XV.ofWord h w2 with
      | some f => orReject (Instr.ofXV n f) .badSubop
      | none => .error .badField
    | 0x3A => orReject (Instr.ofXL n (XL.ofWord h w2)) .badSubop
    | 0x3B => orReject (Instr.ofXM n (XM.ofWord h w2)) .badSubop
    | 0x3C => orReject (Instr.ofXA n (XA.ofWord h w2)) .badSubop
    | 0x3D => orReject (Instr.ofXT n (XT.ofWord h w2)) .badSubop
    | _ => .error .badMajor

/-- The instruction that words name, before the static checks: `LEN` and `MAJOR` must agree (R94). -/
def parseWords (ws : List Word) : Except Reject Instr :=
  match ws with
  | [] => .error .truncated
  | w0 :: rest =>
    let len := (w0.field 30 2).toNat
    let major := (w0.field 24 6).toNat
    match len, rest with
    | 0, [] => orReject (Instr.ofBase major (Base.ofWord w0 none)) .badMajor
    | 1, [l, h] => orReject (Instr.ofBase major (Base.ofWord w0 (some (literal l h)))) .badMajor
    | 2, [w1, w2] => decodeExtended w0 w1 w2 none
    | 3, [w1, w2, w3, w4] =>
      if major = 0x3E then
        match Shaped.ofWords w0 w1 w2 w3 w4 with
        | some f => orReject (Instr.ofShop (w0.field 16 8).toNat f) .badSubop
        | none => .error .badField
      else decodeExtended w0 w1 w2 (some (literal w3 w4))
    | _, _ => .error .truncated

/-- The instruction that exactly these words encode (R118). -/
def decodeWords (ws : List Word) : Except Reject Instr :=
  match parseWords ws with
  | .error e => .error e
  | .ok i => if i.wf then .ok i else .error .illFormed

/-- A little-endian word of four bytes (R93). -/
def wordOfBytes (a b c d : Byte) : Word := d ++ c ++ b ++ a

/-- The four bytes of a word, the lowest first (R93). -/
def bytesOfWord (w : Word) : List Byte :=
  [w.extractLsb' 0 8, w.extractLsb' 8 8, w.extractLsb' 16 8, w.extractLsb' 24 8]

/-- The first n words of a list of bytes and the bytes after them. -/
def takeWords : Nat → List Byte → Option (List Word × List Byte)
  | 0, bs => some ([], bs)
  | n + 1, a :: b :: c :: d :: bs => (takeWords n bs).map fun r => (wordOfBytes a b c d :: r.1, r.2)
  | _ + 1, _ => none

/-- Decodes one instruction from the front of any list of bytes; the bytes left follow it. -/
def decode (bs : List Byte) : Except Reject (Instr × List Byte) :=
  match bs with
  | a :: b :: c :: d :: _ =>
    match takeWords (lengthOf (wordOfBytes a b c d)) bs with
    | none => .error .truncated
    | some (ws, rest) =>
      match decodeWords ws with
      | .error e => .error e
      | .ok i => .ok (i, rest)
  | _ => .error .truncated

/-- The bytes of a number, the lowest first. -/
def bytesOfNat : Nat → Nat → List Byte
  | 0, _ => []
  | n + 1, w => BitVec.ofNat 8 w :: bytesOfNat n (w / 256)

/-- The longest instruction in bytes: five words (R94). -/
def longest : Nat := 20

/-- The instruction that the decoder reads from words numbered from the least significant bit of the first; bits
above `nbits` are zero. -/
def decodeTableWord (nbits w : Nat) : Option Instr :=
  match decode (bytesOfNat longest (w % 2 ^ nbits)) with
  | .ok (i, _) => some i
  | .error _ => none

/-! ## Encoding -/

/-- The words of an instruction; none for an event, which has no encoding. -/
def encode : Instr → Option (List Word)
  | .addB32Base f => some (f.words 0x01)
  | .subB32Base f => some (f.words 0x02)
  | .mulB32Base f => some (f.words 0x03)
  | .andB32Base f => some (f.words 0x04)
  | .orB32Base f => some (f.words 0x05)
  | .xorB32Base f => some (f.words 0x06)
  | .shlB32Base f => some (f.words 0x07)
  | .shrB32Base f => some (f.words 0x08)
  | .sraB32Base f => some (f.words 0x09)
  | .minS32Base f => some (f.words 0x0A)
  | .maxS32Base f => some (f.words 0x0B)
  | .faddF32Base f => some (f.words 0x0C)
  | .fsubF32Base f => some (f.words 0x0D)
  | .fmulF32Base f => some (f.words 0x0E)
  | .fmaF32Base f => some (f.words 0x0F)
  | .fminF32Base f => some (f.words 0x10)
  | .fmaxF32Base f => some (f.words 0x11)
  | .movB32Base f => some (f.words 0x12)
  | .addB32VsBase f => some (f.words 0x13)
  | .fmulF32VsBase f => some (f.words 0x14)
  | .fmaF32VsBase f => some (f.words 0x15)
  | .saddB32Base f => some (f.words 0x16)
  | .ssubB32Base f => some (f.words 0x17)
  | .smulB32Base f => some (f.words 0x18)
  | .sandB32Base f => some (f.words 0x19)
  | .sorB32Base f => some (f.words 0x1A)
  | .sxorB32Base f => some (f.words 0x1B)
  | .sshlB32Base f => some (f.words 0x1C)
  | .sshrB32Base f => some (f.words 0x1D)
  | .smovB32Base f => some (f.words 0x1E)
  | .ldB32XBase f => some (f.words 0x1F)
  | .stB32XBase f => some (f.words 0x20)
  | .ldB32ScBase f => some (f.words 0x21)
  | .stB32ScBase f => some (f.words 0x22)
  | .sadd f => some (f.h.words 0x38 0x000 f.imm)
  | .ssub f => some (f.h.words 0x38 0x001 f.imm)
  | .smul f => some (f.h.words 0x38 0x002 f.imm)
  | .smulh f => some (f.h.words 0x38 0x003 f.imm)
  | .smad f => some (f.h.words 0x38 0x004 f.imm)
  | .sdiv f => some (f.h.words 0x38 0x005 f.imm)
  | .srem f => some (f.h.words 0x38 0x006 f.imm)
  | .smin f => some (f.h.words 0x38 0x007 f.imm)
  | .smax f => some (f.h.words 0x38 0x008 f.imm)
  | .sand f => some (f.h.words 0x38 0x009 f.imm)
  | .sor f => some (f.h.words 0x38 0x00A f.imm)
  | .sxor f => some (f.h.words 0x38 0x00B f.imm)
  | .sshl f => some (f.h.words 0x38 0x00C f.imm)
  | .sshr f => some (f.h.words 0x38 0x00D f.imm)
  | .ssra f => some (f.h.words 0x38 0x00E f.imm)
  | .sbfx f => some (f.h.words 0x38 0x00F f.imm)
  | .sbfi f => some (f.h.words 0x38 0x010 f.imm)
  | .spopc f => some (f.h.words 0x38 0x011 f.imm)
  | .sclz f => some (f.h.words 0x38 0x012 f.imm)
  | .sctz f => some (f.h.words 0x38 0x013 f.imm)
  | .scmp f => some (f.h.words 0x38 0x014 f.imm)
  | .ssel f => some (f.h.words 0x38 0x015 f.imm)
  | .smov f => some (f.h.words 0x38 0x016 f.imm)
  | .sli f => some (f.h.words 0x38 0x017 f.imm)
  | .kop f => some (f.h.words 0x38 0x018 f.imm)
  | .bra f => some (f.h.words 0x38 0x019 f.imm)
  | .brk f => some (f.h.words 0x38 0x01A f.imm)
  | .brv f => some (f.h.words 0x38 0x01B f.imm)
  | .jmp f => some (f.h.words 0x38 0x01C f.imm)
  | .call f => some (f.h.words 0x38 0x01D f.imm)
  | .ret f => some (f.h.words 0x38 0x01E f.imm)
  | .loop f => some (f.h.words 0x38 0x01F f.imm)
  | .join f => some (f.h.words 0x38 0x020 f.imm)
  | .exitLanes f => some (f.h.words 0x38 0x021 f.imm)
  | .nop f => some (f.h.words 0x38 0x022 f.imm)
  | .yieldSplit f => some (f.h.words 0x38 0x023 f.imm)
  | .rdsr f => some (f.h.words 0x38 0x024 f.imm)
  | .wrsr f => some (f.h.words 0x38 0x025 f.imm)
  | .region f => some (f.h.words 0x38 0x026 f.imm)
  | .fnew f => some (f.h.words 0x38 0x027 f.imm)
  | .fnewP f => some (f.h.words 0x38 0x027 f.imm)
  | .fdone f => some (f.h.words 0x38 0x028 f.imm)
  | .fawait f => some (f.h.words 0x38 0x029 f.imm)
  | .fpoll f => some (f.h.words 0x38 0x02A f.imm)
  | .spawn f => some (f.h.words 0x38 0x02B f.imm)
  | .emit f => some (f.h.words 0x38 0x02C f.imm)
  | .fire f => some (f.h.words 0x38 0x02D f.imm)
  | .reord f => some (f.h.words 0x38 0x02E f.imm)
  | .pqpush f => some (f.h.words 0x38 0x02F f.imm)
  | .pqpop f => some (f.h.words 0x38 0x030 f.imm)
  | .trap f => some (f.h.words 0x38 0x031 f.imm)
  | .rfePc f => some (f.h.words 0x38 0x032 f.imm)
  | .rfeNext f => some (f.h.words 0x38 0x032 f.imm)
  | .rfeRegion f => some (f.h.words 0x38 0x032 f.imm)
  | .xbind f => some (f.h.words 0x38 0x033 f.imm)
  | .add f => some (f.h.words 0x39 0x000 f.word)
  | .sub f => some (f.h.words 0x39 0x001 f.word)
  | .mul f => some (f.h.words 0x39 0x002 f.word)
  | .mulh f => some (f.h.words 0x39 0x003 f.word)
  | .mad f => some (f.h.words 0x39 0x004 f.word)
  | .min f => some (f.h.words 0x39 0x005 f.word)
  | .max f => some (f.h.words 0x39 0x006 f.word)
  | .abs f => some (f.h.words 0x39 0x007 f.word)
  | .and f => some (f.h.words 0x39 0x008 f.word)
  | .or f => some (f.h.words 0x39 0x009 f.word)
  | .xor f => some (f.h.words 0x39 0x00A f.word)
  | .shl f => some (f.h.words 0x39 0x00B f.word)
  | .shr f => some (f.h.words 0x39 0x00C f.word)
  | .sra f => some (f.h.words 0x39 0x00D f.word)
  | .bfx f => some (f.h.words 0x39 0x00E f.word)
  | .bfi f => some (f.h.words 0x39 0x00F f.word)
  | .popc f => some (f.h.words 0x39 0x010 f.word)
  | .clz f => some (f.h.words 0x39 0x011 f.word)
  | .brev f => some (f.h.words 0x39 0x012 f.word)
  | .cmp f => some (f.h.words 0x39 0x013 f.word)
  | .sel f => some (f.h.words 0x39 0x014 f.word)
  | .mov f => some (f.h.words 0x39 0x015 f.word)
  | .fadd f => some (f.h.words 0x39 0x016 f.word)
  | .fsub f => some (f.h.words 0x39 0x017 f.word)
  | .fmul f => some (f.h.words 0x39 0x018 f.word)
  | .fma f => some (f.h.words 0x39 0x019 f.word)
  | .fmin f => some (f.h.words 0x39 0x01A f.word)
  | .fmax f => some (f.h.words 0x39 0x01B f.word)
  | .fcmp f => some (f.h.words 0x39 0x01C f.word)
  | .fclass f => some (f.h.words 0x39 0x01D f.word)
  | .fdiv f => some (f.h.words 0x39 0x01E f.word)
  | .fsqrt f => some (f.h.words 0x39 0x01F f.word)
  | .frcp f => some (f.h.words 0x39 0x020 f.word)
  | .frsq f => some (f.h.words 0x39 0x021 f.word)
  | .fex2 f => some (f.h.words 0x39 0x022 f.word)
  | .flg2 f => some (f.h.words 0x39 0x023 f.word)
  | .fsin f => some (f.h.words 0x39 0x024 f.word)
  | .fcos f => some (f.h.words 0x39 0x025 f.word)
  | .ftanh f => some (f.h.words 0x39 0x026 f.word)
  | .frint f => some (f.h.words 0x39 0x027 f.word)
  | .fscal f => some (f.h.words 0x39 0x028 f.word)
  | .cvt f => some (f.h.words 0x39 0x029 f.word)
  | .pack f => some (f.h.words 0x39 0x02A f.word)
  | .unpack f => some (f.h.words 0x39 0x02B f.word)
  | .shflIdx f => some (f.h.words 0x3A 0x000 f.word)
  | .shflUp f => some (f.h.words 0x3A 0x000 f.word)
  | .shflDown f => some (f.h.words 0x3A 0x000 f.word)
  | .shflXor f => some (f.h.words 0x3A 0x000 f.word)
  | .voteBallot f => some (f.h.words 0x3A 0x001 f.word)
  | .voteAny f => some (f.h.words 0x3A 0x001 f.word)
  | .voteAll f => some (f.h.words 0x3A 0x001 f.word)
  | .voteUni f => some (f.h.words 0x3A 0x001 f.word)
  | .matchLanes f => some (f.h.words 0x3A 0x002 f.word)
  | .redux f => some (f.h.words 0x3A 0x003 f.word)
  | .scan f => some (f.h.words 0x3A 0x004 f.word)
  | .rngc f => some (f.h.words 0x3A 0x005 f.word)
  | .vtopk f => some (f.h.words 0x3A 0x006 f.word)
  | .vsoftmax f => some (f.h.words 0x3A 0x007 f.word)
  | .vsample f => some (f.h.words 0x3A 0x008 f.word)
  | .ld f => some (f.h.words 0x3B 0x000 f.word)
  | .st f => some (f.h.words 0x3B 0x001 f.word)
  | .sld f => some (f.h.words 0x3B 0x002 f.word)
  | .sst f => some (f.h.words 0x3B 0x003 f.word)
  | .aadd f => some (f.h.words 0x3B 0x004 f.word)
  | .amin f => some (f.h.words 0x3B 0x005 f.word)
  | .amax f => some (f.h.words 0x3B 0x006 f.word)
  | .aand f => some (f.h.words 0x3B 0x007 f.word)
  | .aor f => some (f.h.words 0x3B 0x008 f.word)
  | .axor f => some (f.h.words 0x3B 0x009 f.word)
  | .aswap f => some (f.h.words 0x3B 0x00A f.word)
  | .acas f => some (f.h.words 0x3B 0x00B f.word)
  | .ainc f => some (f.h.words 0x3B 0x00C f.word)
  | .afadd f => some (f.h.words 0x3B 0x00D f.word)
  | .red f => some (f.h.words 0x3B 0x00E f.word)
  | .swait f => some (f.h.words 0x3B 0x00F f.word)
  | .pf f => some (f.h.words 0x3B 0x010 f.word)
  | .rhnew f => some (f.h.words 0x3B 0x011 f.word)
  | .rhset f => some (f.h.words 0x3B 0x012 f.word)
  | .rhdrop f => some (f.h.words 0x3B 0x013 f.word)
  | .cbinvNode f => some (f.h.words 0x3B 0x014 f.word)
  | .cbinvArm f => some (f.h.words 0x3B 0x014 f.word)
  | .cbinvTree f => some (f.h.words 0x3B 0x014 f.word)
  | .cbinvAll f => some (f.h.words 0x3B 0x014 f.word)
  | .cbinvTr f => some (f.h.words 0x3B 0x014 f.word)
  | .cpaGs f => some (f.h.words 0x3C 0x000 f.word)
  | .cpaSg f => some (f.h.words 0x3C 0x000 f.word)
  | .cpaGg f => some (f.h.words 0x3C 0x000 f.word)
  | .cpaSs f => some (f.h.words 0x3C 0x000 f.word)
  | .cpaSw f => some (f.h.words 0x3C 0x000 f.word)
  | .cpaWs f => some (f.h.words 0x3C 0x000 f.word)
  | .bar f => some (f.h.words 0x3C 0x001 f.word)
  | .tbinit f => some (f.h.words 0x3C 0x002 f.word)
  | .tbarrive f => some (f.h.words 0x3C 0x003 f.word)
  | .tbwait f => some (f.h.words 0x3C 0x004 f.word)
  | .tbpoll f => some (f.h.words 0x3C 0x005 f.word)
  | .gath f => some (f.h.words 0x3C 0x006 f.word)
  | .gathRow f => some (f.h.words 0x3C 0x006 f.word)
  | .scatadd f => some (f.h.words 0x3C 0x007 f.word)
  | .tset f => some (f.h.words 0x3D 0x000 f.word)
  | .tget f => some (f.h.words 0x3D 0x001 f.word)
  | .tcb f => some (f.h.words 0x3D 0x002 f.word)
  | .tld f => some (f.h.words 0x3D 0x003 f.word)
  | .tst f => some (f.h.words 0x3D 0x004 f.word)
  | .tzero f => some (f.h.words 0x3D 0x005 f.word)
  | .gang f => some (f.h.words 0x3D 0x006 f.word)
  | .mma f => some (f.h.words 0x3D 0x007 f.word)
  | .mmaBs f => some (f.h.words 0x3D 0x008 f.word)
  | .mmaVs f => some (f.h.words 0x3D 0x009 f.word)
  | .mmas f => some (f.h.words 0x3D 0x00A f.word)
  | .mbatch f => some (f.h.words 0x3D 0x00B f.word)
  | .mwait f => some (f.h.words 0x3D 0x00C f.word)
  | .accld f => some (f.h.words 0x3D 0x00D f.word)
  | .accst f => some (f.h.words 0x3D 0x00E f.word)
  | .acccvt f => some (f.h.words 0x3D 0x00F f.word)
  | .acczero f => some (f.h.words 0x3D 0x010 f.word)
  | .vtset f => some (f.h.words 0x3D 0x011 f.word)
  | .vlook f => some (f.h.words 0x3D 0x012 f.word)
  | .vstencil f => some (f.h.words 0x3D 0x013 f.word)
  | .vsampTri f => some (f.h.words 0x3D 0x014 f.word)
  | .vsampNear f => some (f.h.words 0x3D 0x014 f.word)
  | .vmarch f => some (f.h.words 0x3D 0x015 f.word)
  | .vins f => some (f.h.words 0x3D 0x016 f.word)
  | .vactSet f => some (f.h.words 0x3D 0x017 f.word)
  | .vactClr f => some (f.h.words 0x3D 0x017 f.word)
  | .vactTrim f => some (f.h.words 0x3D 0x017 f.word)
  | .dtrav f => some (f.h.words 0x3D 0x018 f.word)
  | .halo f => some (f.h.words 0x3D 0x019 f.word)
  | .haloPostOnly f => some (f.h.words 0x3D 0x019 f.word)
  | .stepb f => some (f.h.words 0x3D 0x01A f.word)
  | .cpasGs f => some (f.words 0x01)
  | .cpasSg f => some (f.words 0x02)
  | .cpasGt f => some (f.words 0x03)
  | .cpasSt f => some (f.words 0x04)
  | .cpasAg f => some (f.words 0x05)
  | _ => none

end Sys2Proof
end

