-- ==== Sys2Proof/Machine/Schedule.lean ====
section
/-! DEFINITION. Choosing a split to issue (R331, R138), waking it (R106), fetching its instruction (R93, R231), and
the clock. -/

namespace Sys2Proof.Machine

/-! ## Which splits can issue -/

/-- The matrix operations of a context's batch n and of earlier ones have completed (R259). -/
def State.batchDone (s : State) (id n : Nat) : Bool :=
  s.ops.all fun e => match e.2.kind with
    | .matrix m => m.members.all fun b => b.ctx != id || decide (n < b.batch)
    | _ => true

/-- The split is in state ready or waiting (R16): neither parked nor at `join`. -/
def Split.awake (sp : Split) : Bool :=
  match sp.wait with
  | .ready => true
  | .fill _ => true
  | .op _ => true
  | .retry => true
  | .handler => true
  | .due _ => true
  | _ => false

/-- The split that takes an engine's supervisor entry at an issue opportunity: the lowest-numbered that is ready or
waiting (R305). -/
def Ctx.entrySplit (c : Ctx) : Option Nat := (c.splits.find? fun e => e.2.awake).map Prod.fst

/-- The graph of a context is ending, or its group was ended by a supervisor handler (R301, R306). -/
def State.ending (s : State) (c : Ctx) : Bool := c.killed || ((s.graphs.look c.graph).map (·.ending)).getD false

/-- A supervisor entry stands open for split i of a context (R305). -/
def State.entryFor (s : State) (c : Ctx) (i : Nat) : Bool :=
  !c.entries.isEmpty && c.handler.isNone && !s.ending c && c.entrySplit == some i

/-- The wait of a split is over as far as a choice finds. A wait for room, and a park, end as the machine settles it: where there is
room (`State.settleWaits`), at the release of a phase (`State.releasePhases`), when a batch has completed. -/
def State.waitOver (s : State) (c : Ctx) (sp : Split) : Bool :=
  match sp.wait with
  | .ready => true
  | .retry => false
  | .fill ks => ks.all fun k => !c.isEmpty k
  | .op n => (s.ops.look n).isNone
  | .phase _ _ _ => false
  | .batch _ _ => false
  | .handler => false
  | .due _ => c.handler.isNone
  | .join => false
  | .bar => false
  | .frame _ => false
  | .watch => false
  | .poll => false
  | .latch => false
  | .released => false

/-- The split issues, continues, or takes a supervisor entry when it is chosen. -/
def State.runnable (s : State) (c : Ctx) (i : Nat) (sp : Split) : Bool :=
  s.waitOver c sp || s.entryFor c i

/-- A context of a core's active bank has a ready split. -/
def State.ctxReady (s : State) (c : Ctx) : Bool := c.splits.any fun e => s.runnable c e.1 e.2

/-- The runnable splits of a scheduler's slots: context, split, its data, its priority (R331). -/
def State.candidates (s : State) (core sched : Nat) : List (Nat × Nat × Split × Nat) :=
  if (s.core core).swap.isSome || (s.core core).failed || (s.core core).power != .c0 then []
  else
    s.ctxs.flatMap fun e =>
      match e.2.loc with
      | .active k slot =>
        if k == core && slot % 4 == sched % 4 then
          (e.2.splits.filter fun p => s.runnable e.2 p.1 p.2).map fun p => (e.1, p.1, p.2, e.2.prio)
        else []
      | _ => []

/-- The split is urgent (R331); one that `yield` holds back never is. -/
def Split.isUrgent (sp : Split) : Bool := sp.hold == 0 && (sp.urgent || decide (32 ≤ sp.missed))

/-- The order of R331: urgent first, then the higher priority, then the least recently issued. -/
def issueKey (e : Nat × Nat × Split × Nat) : Nat :=
  (if e.2.2.1.isUrgent then 0 else (8 - e.2.2.2) * 2 ^ 80) + e.2.2.1.lastIssue

/-- The split a scheduler chooses (R331, R138): one that `yield` holds back only when no other can issue. -/
def State.choose (s : State) (core sched : Nat) : Option (Nat × Nat) :=
  let all := s.candidates core sched
  let free := all.filter fun e => e.2.2.1.hold == 0
  (leastBy issueKey (if free.isEmpty then all else free)).map fun e => (e.1, e.2.1)

/-- The stamp of the next issue: above that of every context of the machine, for one may come to another core, or back to its own,
with the stamps that it had (R313, R331). -/
def State.issueStamp (s : State) : Nat :=
  s.ctxs.foldl (fun m e => e.2.splits.foldl (fun m p => max m p.2.lastIssue) m) 0 + 1

/-- The splits of a scheduler's slots, whether they can issue or not. -/
def State.slotSplits (s : State) (core sched : Nat) : List (Nat × Nat) :=
  s.ctxs.flatMap fun e => match e.2.loc with
    | .active k slot => if k == core && slot % 4 == sched % 4 then e.2.splits.map fun p => (e.1, p.1) else []
    | _ => []

/-- The books of an issue opportunity of a split (R331, R138): the chosen one has issued, one that can issue was passed over, and one
that `yield` holds back, chosen or not, is held one opportunity less. -/
def Split.passed (sp : Split) (stamp : Nat) (chosen able : Bool) : Split :=
  if chosen then { sp with lastIssue := stamp, missed := 0, urgent := false, hold := sp.hold - 1 }
  else if sp.hold ≠ 0 then { sp with hold := sp.hold - 1 }
  else if able then { sp with missed := sp.missed + 1 }
  else sp

/-- The books of an issue opportunity, for every split of the scheduler's slots. -/
def State.passOver (s : State) (core sched : Nat) (id i : Nat) : State :=
  let stamp := s.issueStamp
  let able := (s.candidates core sched).map fun e => (e.1, e.2.1)
  foldState (s.slotSplits core sched) s fun s e =>
    s.modSplit e.1 e.2 fun sp => sp.passed stamp (e == (id, i)) (able.contains e)

/-- Registers whose file holds an uncorrectable error become poison-empty, which the error log tells (R315, log entry 134). -/
def State.meetBadRegs (s : State) (id : Nat) (c : Ctx) : State :=
  let lanes := laneSet (List.range c.node.width)
  let locs := fun r : Nat =>
    if r < 256 then locsOf false r 1 lanes else if r < 320 then [locS (r - 256)] else [locT (r - 320)]
  foldState c.badRegs (s.modCtx id fun c => { c with badRegs := [] }) fun s r =>
    (s.modCtx id fun c => c.poisonLocs (locs r) .poison 0).logError (dieOfCore c.core) 1 2 (coreIndex c.core) 0 []

/-- The chosen split leaves its wait. -/
def State.wake (s : State) (id i : Nat) : State :=
  let s := match s.ctxs.look id with
    | some c => if c.badRegs.isEmpty then s else s.meetBadRegs id c
    | none => s
  s.modSplit id i fun sp => { sp with wait := .ready }

/-! ## Fetch (R52, R55, R93, R231) -/

/-- One code word: the translation of its address and the core's copy of its line, read whole at its home slice (R67); an uncorrectable
error is reported (R315). -/
def State.fetchWord (s : State) (id : Nat) (c : Ctx) (pc : DWord) : State × Except Trap Word :=
  match s.translate id c pc 3 with
  | (s, .error t) => (s, .error t)
  | (s, .ok m) =>
    if s.poisonedAt m.pa then (s.logUncorrectable m.pa, .error (Trap.atAddr .poison pc 3))
    else
      let held := (s.core c.core).icache.look (m.pa / 128)
      let s := if held.isSome then s else s.fetchLines c.core none m.pa 4
      let line := held.getD (tabulate 128 fun i => s.byteAt (m.pa / 128 * 128 + i))
      let s := s.modCore c.core fun k => { k with icache := k.icache.ins (m.pa / 128) line }
      (s, .ok (BitVec.ofNat 32 (natOfBytes ((line.drop (m.pa % 128)).take 4))))

/-- n consecutive code words; the first trap in address order is taken. -/
def State.fetchWords (s : State) (id : Nat) (c : Ctx) (pc : DWord) : Nat → State × Except Trap (List Word)
  | 0 => (s, .ok [])
  | n + 1 =>
    match s.fetchWord id c pc with
    | (s, .error t) => (s, .error t)
    | (s, .ok w) =>
      match s.fetchWords id c (pc + 4) n with
      | (s, .error t) => (s, .error t)
      | (s, .ok ws) => (s, .ok (w :: ws))

/-- Fetches the instruction at a split's program counter: word 0 says how many words there are (R93, R94). -/
def State.fetch (s : State) (id : Nat) (c : Ctx) (sp : Split) : State × Except Trap (List Word) :=
  match s.fetchWord id c sp.pc with
  | (s, .error t) => (s, .error t)
  | (s, .ok w) => s.fetchWords id c sp.pc (lengthOf w)

/-- What a chosen split does next. -/
inductive Fetched where
  /-- its graph is ending (R301) -/
  | cancelled
  /-- the fetch traps (R93) -/
  | trap
  /-- the words encode no instruction (R118) -/
  | illegal
  | instr (i : Instr)
deriving DecidableEq, Repr

/-- What the chosen split does next, with what its fetch has left in the caches. -/
def State.fetched (s : State) (id i : Nat) : State × Fetched :=
  match s.ctxs.look id with
  | none => (s, .trap)
  | some c =>
    match c.splits.look i with
    | none => (s, .trap)
    | some sp =>
      if s.ending c then (s, .cancelled)
      else
        match s.fetch id c sp with
        | (s, .error _) => (s, .trap)
        | (s, .ok ws) =>
          match decodeWords ws with
          | .ok i => (s, .instr i)
          | .error _ => (s, .illegal)

/-- What a core notes of a context in a cycle: that it is here, and whether it is ready (R309, R352). -/
def State.noteCtx (s : State) (clock : Nat) (e : Nat × Ctx) : State :=
  let ready := s.ctxReady e.2
  match e.2.loc with
  | .pool _ => s
  | .lodged k => s.modCore k fun k => { k with lastHeld := clock }
  | _ =>
    s.modCore e.2.core fun k =>
      { k with
        lastHeld := clock
        lastAwake := if ready then clock else k.lastAwake
        lastReady := if ready && e.2.isActive then clock else k.lastReady }

/-- The group holds a slot of the active bank, until its image has left it (R311). -/
def Ctx.holdsActive (c : Ctx) : Bool :=
  match c.loc with
  | .leaving _ _ shadow => !shadow
  | _ => c.isActive

/-- One cycle: the clocks count (R354), event 1 of R140 counts in the groups of active slots, and each core notes which of its
contexts are ready. -/
def State.tick (s : State) : State :=
  let clock := s.clock + 1
  let part := s.refPart + 1900
  let s := foldState s.ctxs s fun s e => s.noteCtx clock e
  { s with
    clock := clock
    ref := s.ref + part / s.clockMhz
    refPart := part % s.clockMhz
    ctxs := s.ctxs.map fun e => if e.2.holdsActive then (e.1, e.2.count 1 0 1) else e }

/-! ## The word placed for the next fetch -/

/-- The context into which `withFetchWord` puts its word: a uniform group of 16 lanes with 256 registers, 16 tiles and
32 blocks, on core 0 (log entry 14). -/
def placedCtx : Ctx where
  graph := 0
  team := 0
  die := 0
  nodeIndex := 0
  node :=
    { entry := 0x40000, kind := .uniform, width := 16, pair := false, steal := false, team := 1, regs := 256, tiles := 16
      accs := 32, scratch := 4096, count := 1, timer := 0, cap := 1, traph := 0 }
  group := 0
  teamNo := 0
  launchCore := 0
  home := 0
  loc := .active 0 0
  prio := 0
  placed := 0
  outSince := 0
  v := []
  sreg := []
  p := []
  k := 0
  x := []
  fills := []
  carried := []
  badRegs := []
  special :=
    { regions := 0, cause := 0, fpst := 0, fpctl := 0, mprog := 0, vprog := 0, gang := 0, frame := 0, perfConfig := []
      perfLast := 0, perf := [] }
  splits :=
    [(0, { mask := 0xFFFF, pc := 0x40000, parent := 0, stack := [], wait := .ready, region := 0x40000, regionNo := 0
           frames := [], lastIssue := 0, missed := 0, urgent := false, hold := 0
           restart := false })]
  fork := 0
  opened := 0
  exited := 0
  errTasks := 0
  reported := 0
  deposited := 0
  owned := []
  taskFrames := []
  awaits := []
  slots := []
  tiles := []
  accs := []
  batchNo := 0
  batches := []
  handler := none
  shut := []
  entries := []
  restart := false
  leavingSince := 0
  lastSpin := 0
  lastStore := 0
  lastAtomic := 0
  killed := false

/-- The team of that context. -/
def placedTeam : Team where
  graph := 0
  die := 0
  core := 0
  pair := false
  groups := 1
  offset := 0
  scratch := 4096
  allocated := 5120
  prio := 0
  phased := []
  crossing := []
  crossed := []
  messages := []
  evicted := none
  evicting := none

/-- Its graph: the root table at 0x10000, no supervisor block, no completion record. -/
def placedGraph : Graph where
  die := 0
  arm := 0
  asroot := 0x10000
  super := 0
  compl := 0
  status := 0
  blame := none
  ending := false
  hostLost := false
  linkSlot := none

/-- The page tables under which address 0x40000 is itself, and the bytes of the words there. -/
def placedCells (bytes : List Byte) : List Host.Cell :=
  cellsOf 0x10000 8 0x20031 ++ cellsOf 0x20000 8 0x2F ++ cellsAt 0x40000 bytes

/-- The state in which the next step fetches and runs exactly the instruction of these bytes (log entry 14): one group
placed on core 0, with the words at its program counter, and an issue opportunity of its scheduler. -/
def State.place (s : State) (bytes : List Byte) : State :=
  { s with
    mem := (placedCells bytes).foldl (fun m (e : Host.Cell) => SMap.put m 0 e.1 e.2) s.mem
    graphs := [(0, placedGraph)]
    teams := [(0, placedTeam)]
    ctxs := [(0, placedCtx)]
    cores := s.cores.del 0
    poison := []
    agenda := [.issue 0 0]
    nextId := 1 }

end Sys2Proof.Machine
end

