-- ==== Sys2Proof/Machine/Control.lean ====
section
/-! DEFINITION. Branches, calls, joins and the end of a lane (R134 to R138), special registers (R139, R140), `region` (R141),
traps and returns (R155, R156), `xbind` (R157), and the traps that precede an instruction (R93, R118). -/

namespace Sys2Proof.Machine

/-! ## Branches (R134 to R136) -/

/-- The branch target: the address of word 0 + 4 × `IMM`. -/
def branchTarget (is : Issue) (imm : BitVec 32) : DWord := is.sp.pc + (imm.signExtend 64 <<< 2)

/-- A taken branch whose target is not above its own address counts for the spinning test (R42, R134). -/
def State.noteBranch (s : State) (is : Issue) (target : DWord) : State :=
  if target ≤ is.sp.pc then s.modCtx is.id fun c => { c with lastSpin := s.clock + 1 } else s

/-- The whole split goes to a target, in the state that the branch leaves; one with bit 0 or 1 set takes `MISALIGNED`, and the branch
has done nothing (R93). -/
def goTo (is : Issue) (s after : State) (target : DWord) : Res :=
  if target.toNat % 4 != 0 then .trap s { Trap.of .misaligned with va := target }
  else .set ((after.noteBranch is target).modCtx is.id fun c => c.branch is.i target)

/-- R134. -/
def execBra (f : XC) (s : State) : Host.Outcome State Fault Refusal :=
  issue (formBare f .k true) f.h.bytes (fun is s => goTo is s s (branchTarget is f.imm)) s

/-- R134: `SRC2` is the sense. -/
def execBrk (f : XC) (s : State) : Host.Outcome State Fault Refusal :=
  let form := formBrk f
  issue form f.h.bytes (fun is s =>
    if (form.arg is.c 1 0 != 0) == (f.h.src2 == 1) then goTo is s s (branchTarget is f.imm) else .done s) s

/-- R134. -/
def execJmp (f : XC) (s : State) : Host.Outcome State Fault Refusal :=
  let form := { (Form.base f.h).withSrc1 .q with word2 := f.imm == 0 }
  issue form f.h.bytes (fun is s => goTo is s s (form.arg is.c 1 0)) s

/-- R134. -/
def execLoop (f : XC) (s : State) : Host.Outcome State Fault Refusal :=
  let form := (Form.base f.h).withDst .s1 .readWrite
  issue form f.h.bytes (fun is s =>
    let n := is.c.s f.h.dst.toNat - 1
    let counted := is.onCtx s fun c => form.writeDst c 0 (n.setWidth 64)
    if n = 0 then .done counted else goTo is s counted (branchTarget is f.imm)) s

/-- R136: the return address is the next instruction's, sign-extended from 52 bits. -/
def execCall (f : XC) (s : State) : Host.Outcome State Fault Refusal :=
  let form := (Form.base f.h).withDst .d
  issue form f.h.bytes (fun is s =>
    let back := (is.next.setWidth 52).signExtend 64
    goTo is s (is.onCtx s fun c => form.writeLanes c is.acting fun _ => back) (branchTarget is f.imm)) s

/-- A divergent branch (R17, R20, R135): a 33rd stack entry takes `SCRATCH_BOUNDS`. -/
def divergeTo (is : Issue) (s : State) (taken : LaneMask) (target fall : DWord) : Res :=
  if is.inHandler && taken != is.sp.mask then .trap s (Trap.of .illegal)
  else
    match is.c.diverge is.i taken target fall with
    | none => .trap s (Trap.of .scratchBounds)
    | some c => .set ((s.noteBranch is target).modCtx is.id fun d => { c with lastSpin := d.lastSpin })

/-- R135: its condition is its guard. -/
def execBrv (f : XC) (s : State) : Host.Outcome State Fault Refusal :=
  issue (formBare f .p true) f.h.bytes (fun is s => divergeTo is s is.acting (branchTarget is f.imm) is.next) s

/-- R136: the lanes that hold the lowest lane's address leave; the others execute the `ret` again. -/
def execRet (f : XC) (s : State) : Host.Outcome State Fault Refusal :=
  let form := { (Form.base f.h).withSrc1 .d with word2 := f.imm == 0 }
  issue form f.h.bytes (fun is s =>
    let t := form.arg is.c 1 (lowestLane is.acting)
    let same := laneSet ((lanesOf is.acting).filter fun l => form.arg is.c 1 l == t)
    if t.toNat % 4 != 0 then .trap s { Trap.of .misaligned with va := t, lanes := same, lane := lowestLane same }
    else divergeTo is s same t is.sp.pc) s

/-- R19, R20. -/
def execJoin (f : XC) (s : State) : Host.Outcome State Fault Refusal :=
  issue (formBare f .none (f.imm == 0)) f.h.bytes (fun is s =>
    if is.inHandler then .trap s (Trap.of .illegal) else .set (s.modCtx is.id fun c => c.join is.i)) s

/-- R137, R301. -/
def execExitLanes (f : XC) (s : State) : Host.Outcome State Fault Refusal :=
  issue (formBare f .p (bitsOf f.imm 31 1 == 0)) f.h.bytes (fun is s =>
    .set ((s.advance is.id is.i is.next).exitLanes is.id is.i is.acting (bitOf f.imm 0))) s

/-- R138. -/
def execNop (f : XC) (s : State) : Host.Outcome State Fault Refusal :=
  issue (formBare f .k (f.imm == 0)) f.h.bytes (fun _ s => .done s) s

/-- R138, R42. -/
def execYieldSplit (f : XC) (s : State) : Host.Outcome State Fault Refusal :=
  issue (formBare f .k (f.imm == 0)) f.h.bytes (fun is s =>
    .done ((s.modSplit is.id is.i fun sp => { sp with hold := 16 }).modCtx is.id fun c => { c with lastSpin := s.clock + 1 })) s

/-! ## Special registers (R139, R140) -/

/-- A counter without a configuration. -/
def PerfConfig.none : PerfConfig := { enable := false, handle := 0, event := 0 }

/-- `%perfsel`: the configuration of the counter that the last write named (R140). -/
def Specials.perfsel (p : Specials) : Word :=
  let e := p.perfConfig.at PerfConfig.none p.perfLast
  BitVec.ofNat 32 ((if e.enable then 2 ^ 31 else 0) + p.perfLast * 2 ^ 28 + e.handle.toNat * 2 ^ 16 + e.event.toNat)

/-- The events that R140 defines. -/
def perfEvents : List Nat := [0, 1, 2, 3, 0x10, 0x11, 0x12, 0x13, 0x20, 0x30]

/-- A write of `%perfsel`: an undefined event leaves the configuration, but it is the last write (R140). -/
def Specials.writePerfsel (p : Specials) (w : Word) : Specials :=
  let k := bitsOf w 30 28
  let e : PerfConfig := { enable := bitOf w 31, handle := BitVec.ofNat 12 (bitsOf w 27 16), event := w.setWidth 16 }
  { p with
    perfConfig := if perfEvents.contains (bitsOf w 15 0) then p.perfConfig.put PerfConfig.none k e else p.perfConfig
    perfLast := k }

/-- What `rdsr` reads in a lane (R11, R102, R139). -/
def State.special (s : State) (c : Ctx) (n l : Nat) : DWord :=
  let w := fun x : Nat => BitVec.ofNat 64 (x % 2 ^ 32)
  match n with
  | 0x00 => w l
  | 0x01 => w c.group
  | 0x02 => c.teamNo.setWidth 64
  | 0x03 => w c.launchCore
  | 0x04 => w (clusterOfCore c.launchCore)
  | 0x05 => w c.die
  | 0x06 => w c.node.width
  | 0x07 => c.special.regions.setWidth 64
  | 0x08 => c.special.cause.setWidth 64
  | 0x09 => c.special.fpst.setWidth 64
  | 0x0A => c.special.fpctl.setWidth 64
  | 0x0B => c.special.mprog.setWidth 64
  | 0x0C => c.special.vprog.setWidth 64
  | 0x0D => c.special.gang.setWidth 64
  | 0x0E => BitVec.ofNat 64 s.ref
  | 0x0F => c.special.frame.setWidth 64
  | 0x10 => s.caps.setWidth 64
  | 0x11 => c.special.perfsel.setWidth 64
  | n => c.special.perf.at 0 (n - 0x18)

/-- R139: into `s` once, or into `v` in every active lane. -/
def execRdsr (f : XC) (s : State) : Host.Outcome State Fault Refusal :=
  let form := formRdsr f
  issue form f.h.bytes (fun is s => .done (is.onCtx s fun c =>
    if f.h.src2 = 0 then form.writeDst c 0 (s.special is.c f.imm.toNat 0)
    else form.writeLanes c is.acting (s.special is.c f.imm.toNat))) s

/-- What `wrsr` writes (R78, R79, R139, R140). -/
def Specials.write (p : Specials) (n : Nat) (x : DWord) : Specials :=
  match n with
  | 0x09 => { p with fpst := writeFpst p.fpst (x.setWidth 32) }
  | 0x0A => { p with fpctl := writeFpctl p.fpctl (x.setWidth 32) }
  | 0x11 => p.writePerfsel (x.setWidth 32)
  | n => { p with perf := p.perf.put 0 (n - 0x18) x }

/-- R139. -/
def execWrsr (f : XC) (s : State) : Host.Outcome State Fault Refusal :=
  let form := formWrsr f
  issue form f.h.bytes (fun is s => .done (is.onCtx s fun c =>
    { c with special := c.special.write f.imm.toNat (form.arg c 1 0) })) s

/-- R141. -/
def execRegion (f : XC) (s : State) : Host.Outcome State Fault Refusal :=
  issue (formBare f .k (f.imm == 0)) f.h.bytes (fun _ s => .commit s) s

/-! ## Traps, return and binding -/

/-- R155; a nested `trap` is `ILLEGAL` (R301). -/
def execTrap (f : XC) (s : State) : Host.Outcome State Fault Refusal :=
  issue (formBare f .k (bitsOf f.imm 31 16 == 0)) f.h.bytes (fun is s =>
    if is.inHandler then .trap s (Trap.of .illegal)
    else .trap s { Trap.of .software with detail := bitsOf f.imm 15 0 }) s

/-- A supervisor handler's return: its page-table writes are performed (R58), its fault record closes (R303), and the engine
that asked for the entry goes on (R305). -/
def State.serviced (s : State) (id : Nat) (h : Handler) : State :=
  if !h.supervisor then s
  else
    let s := (s.writeBack id).closeRecord h 1
    match h.engine with
    | some n => s.modOp n fun o => { o with fault := none, record := none }
    | none => s

/-- The wait to which a handler's split returns: that of an operation of its own which the entry interrupted, and which is not over
yet, or the cause that it left behind, unless the region is restarted (R305, log entry 17). -/
def State.waitAfter (s : State) (h : Handler) (mode : Nat) : Wait :=
  match h.wait with
  | .op n => if (s.ops.look n).isSome then .op n else .ready
  | .due t => if mode = 2 then .ready else .due t
  | _ => .ready

/-- `rfe` (R156, R301) with the place where the split resumes. -/
def returnFrom (f : XC) (mode : Nat) (resume : Issue → Handler → State → State × Except Trap DWord) (s : State) :
    Host.Outcome State Fault Refusal :=
  issueWith (formBare f .k (f.imm.toNat == mode)) f.h.bytes [] (fun is _ => !is.inHandler) never (fun is s =>
    match is.c.handler with
    | none => .trap s (Trap.of .illegal)
    | some h =>
      match resume is h s with
      | (s, .error t) => .trap s t
      | (s, .ok pc) =>
        let s := (s.serviced is.id h).modCtx is.id fun c => c.leaveHandler h s.nextId
        .set (s.modSplit is.id is.i fun sp => { sp with pc := pc, wait := s.waitAfter h mode })) s

/-- R156: at the saved program counter. -/
def execRfePc (f : XC) (s : State) : Host.Outcome State Fault Refusal :=
  returnFrom f 0 (fun _ h s => (s, .ok h.savedPc)) s

/-- R156: at the instruction after the one at the saved program counter, whose word 0 gives its length. -/
def execRfeNext (f : XC) (s : State) : Host.Outcome State Fault Refusal :=
  returnFrom f 1 (fun is h s =>
    match s.fetchWord is.id is.c h.savedPc with
    | (s, .error t) => (s, .error t)
    | (s, .ok w) => (s, .ok (h.savedPc + BitVec.ofNat 64 (4 * lengthOf w)))) s

/-- R156, R308: at the start of the split's current region, as a region restart; while an operation of the split that the entry
interrupted is being performed, its end comes first (log entry 17). -/
def execRfeRegion (f : XC) (s : State) : Host.Outcome State Fault Refusal :=
  returnFrom f 2 (fun is h s => match s.waitAfter h 2 with
    | .op _ => (s.modSplit is.id is.i fun sp => { sp with restart := true }, .ok h.savedPc)
    | _ => (s.restart is.id is.i, .ok is.sp.region)) s

/-- R157, R62. -/
def execXbind (f : XC) (s : State) : Host.Outcome State Fault Refusal :=
  let form := { ((Form.base f.h).withDst .x .none).withSrc1 .q with word2 := f.imm == 0 }
  issue form f.h.bytes (fun is s =>
    match s.bindRun is.id is.c.core (s.asroot is.c.graph) (form.arg is.c 1 0) with
    | (s, .error t) => .trap s t
    | (s, .ok r) => .done (s.modCtx is.id fun c => c.setXreg f.h.dst.toNat r)) s

/-! ## What comes before an instruction -/

/-- R93: the fetch at the program counter fails, and the split takes its trap before any decode. -/
def execFetchTrap (s : State) : Host.Outcome State Fault Refusal :=
  match s.issuer with
  | none => .fault .noIssuer
  | some (id, i, c, sp) =>
    match s.fetch id c sp with
    | (s, .error t) => .next (s.takeTrap id i t none)
    | (_, .ok _) => .next s

/-- R118: the words encode no instruction. -/
def execIllegalEncoding (s : State) : Host.Outcome State Fault Refusal :=
  match s.issuer with
  | none => .fault .noIssuer
  | some (id, i, _, _) => .next (s.takeTrap id i (Trap.of .illegal) none)

/-- The lanes of a split, those on its stack among them. -/
def Split.allLanes (sp : Split) : LaneMask := sp.stack.foldl (fun m e => m ||| e.notTaken ||| e.full) sp.mask

/-- R301, R306: a split of an ending graph or a cancelled group takes `CANCELLED`: its tasks end in error. A split whose
operation is still being performed takes it afterwards. -/
def execCancelled (id i : Nat) (s : State) : Host.Outcome State Fault Refusal :=
  match s.ctxs.look id with
  | none => .next s
  | some c =>
    match c.splits.look i with
    | none => .next s
    | some sp =>
      let busy := match sp.wait with
        | .op n => (s.ops.look n).isSome
        | _ => false
      if !s.ending c || busy then .next s
      else .next (s.exitLanes id i (sp.allLanes &&& ~~~c.exited) true)

/-! ## Supervisor entries of engines (R305) -/

/-- A split leaves whatever it was parked on. -/
def State.unpark (s : State) (id i : Nat) : State :=
  let s := s.dropWaiting fun r => r.resumes == some (.split id i)
  { s with
    watch := s.watch.filter fun w => !(w.ctx == id && w.split == i)
    cores := s.cores.map fun e => (e.1, { e.2 with latch := e.2.latch.filter fun a => !(a.ctx == id && a.split == i) }) }

/-- A split enters the supervisor handler for an operation that stopped; the record's `PC` is the saved one (R303). -/
def State.enterFor (s : State) (id i n : Nat) (o : Op) (t : Trap) : State :=
  match (s.ctxs.look id).bind fun c => c.splits.look i with
  | none => s
  | some sp =>
    let s := match o.record with
      | some (_, pa) => s.writeNat (pa + 24) 8 sp.pc.toNat
      | none => s
    let s := (s.unpark id i).modSplit id i fun sp => { sp with wait := .ready }
    let s := s.takeTrap id i { t with deferred := true } (some n)
    let entered := (((s.ctxs.look id).bind (·.handler)).bind (·.engine)) == some n
    if entered then
      s.modCtx id fun c => { c with handler := c.handler.map fun h => { h with wait := sp.wait } }
    else s.endEngine n t

/-- R305: the entry that an engine asked for is taken by a split of its group; with no split to take it, or in a graph that
is ending, the engine ends. -/
def execEngineSupervisorEntry (id : Nat) (s : State) : Host.Outcome State Fault Refusal :=
  match s.ctxs.look id with
  | none => .next s
  | some c =>
    match c.entries with
    | [] => .next s
    | n :: rest =>
      let s' := s.modCtx id fun c => { c with entries := rest }
      match s.ops.look n with
      | none => .next s'
      | some o =>
        match o.fault with
        | none => .next s'
        | some t =>
          match c.entrySplit.orElse fun _ => (c.splits.head?).map Prod.fst with
          | none => .next (s'.endEngine n t)
          | some i =>
            if s.ending c then .next (s'.endEngine n t)
            else if c.handler.isSome || !c.isActive then .next s
            else .next (s'.enterFor id i n o t)

end Sys2Proof.Machine
end

