-- ==== Sys2Proof/Machine/Engines.lean ====
section
/-! DEFINITION. Control-block and translation invalidation (R198, R58), the team barrier and transaction barriers (R205, R209,
R41), gathers (R210), and copies (R200 to R204, R207) with their faults (R305). -/

namespace Sys2Proof.Machine

/-! ## cbinv (R198) -/

/-- Discards one control-block copy of a core, and the leaf-cache entries filled through it. -/
def Core.forget (k : Core) (pa asroot : Nat) (va : DWord) (tree : Bool) : Core :=
  { k with
    blocks := k.blocks.del pa
    leafCache := if tree then k.leafCache.filter fun e => !(e.asroot == asroot && e.addr == va) else k.leafCache }

/-- `cbinv` of one control block: the copy of the block at the address. -/
def forgetBlock (f : XM) (kind : Nat) (s : State) : Host.Outcome State Fault Refusal :=
  issue (formCbinv f kind) f.h.bytes (fun is s =>
    let va := f.address is.c 0
    match s.translate is.id is.c va 0 with
    | (s, .error t) => .trap s t
    | (s, .ok m) => .done (s.modCore is.c.core fun k => k.forget m.pa (s.asroot is.c.graph) va (kind == 2))) s

/-- R198. -/
def execCbinvNode (f : XM) (s : State) : Host.Outcome State Fault Refusal := forgetBlock f 0 s
/-- R198. -/
def execCbinvArm (f : XM) (s : State) : Host.Outcome State Fault Refusal := forgetBlock f 1 s
/-- R198. -/
def execCbinvTree (f : XM) (s : State) : Host.Outcome State Fault Refusal := forgetBlock f 2 s
/-- R198: the address is ignored. -/
def execCbinvAll (f : XM) (s : State) : Host.Outcome State Fault Refusal :=
  issue (formCbinv f 3) f.h.bytes (fun is s =>
    .done (s.modCore is.c.core fun k => { k with blocks := [], leafCache := [] })) s

/-- R198: a translation invalidation from the supervisor handler; the split waits until every core has done it. -/
def execCbinvTr (f : XM) (s : State) : Host.Outcome State Fault Refusal :=
  let form := formCbinv f 4
  issue form f.h.bytes (fun is s =>
    let va := f.address is.c 0
    if !(is.inHandler && (is.c.handler.map (·.supervisor)).getD false) then .trap s (Trap.atAddr .protection va 0)
    else
      let n := (form.arg is.c 3 0).toNat
      .wait (s.addOp (is.op s (.invalidate (s.asroot is.c.graph) va n false))) (.op s.nextId)) s

/-- R58. -/
def execTranslationInvalidateDone (op : Nat) (s : State) : Host.Outcome State Fault Refusal :=
  match s.ops.look op with
  | none => .next s
  | some o =>
    match o.kind with
    | .invalidate asroot va n all => .next ((s.invalidateRange asroot (va.toNat % 2 ^ 52) n all).passOp op o)
    | _ => .next s

/-! ## Barriers -/

/-- R205, R40: with an entry on the reconvergence stack, or in a handler, `bar` is `ILLEGAL`; a pair team's writes go back
before the arrival counts (R236). -/
def execBar (f : XA) (s : State) : Host.Outcome State Fault Refusal :=
  issue (formBar f) f.h.bytes (fun is s =>
    if is.inHandler || !is.sp.flat then .trap s (Trap.of .illegal)
    else
      let s := if is.c.node.pair then s.writeBack is.id else s.settleReads is.id
      .set ((s.modSplit is.id is.i fun sp => { sp with wait := .bar }).settleBarrier is.c.team)) s

/-- A side's completion message reaches the other side, or is lost with the last path (R41). -/
def State.passMessage (s : State) (team side : Nat) : State :=
  match s.teams.look team with
  | none => s
  | some t =>
    if !t.crossing.contains side then s
    else if !s.reachable t.die (s.beside t.die) then s.loseBarrier team
    else
      let s := s.modTeam team fun t => { t with
        crossing := t.crossing.erase side, crossed := t.crossed ++ [side], messages := t.messages.filter fun e => e.1 != side }
      let (source, target) := if side = 0 then (t.die, s.beside t.die) else (s.beside t.die, t.die)
      let numbers := (t.messages.filter fun e => e.1 == side).map Prod.snd
      (foldState numbers s fun s n => s.noteHinge source target n []).releaseSide team (1 - side)

/-- R41. -/
def execBoundaryBarrierMessage (team side : Nat) (s : State) : Host.Outcome State Fault Refusal := .next (s.passMessage team side)

/-- An instruction on a transaction barrier: its operand (R206), no other engine's entry on it (R199), and the lanes' earlier
accesses, which come before it (R215, R223). -/
def withBarrier (form : Form) (write : Bool) (act : Issue → State → BarArg → Res) (is : Issue) (s : State) : Res :=
  match s.barArg is.c ((form.arg is.c 1 0).setWidth 32) with
  | .error t => .trap s t
  | .ok b =>
    if s.lockedScratch b.core b.off 16 write then .trap s (Trap.atAddr .rangeLock (BitVec.ofNat 64 b.off) 1)
    else act is (s.settleReads is.id) b

/-- R209. -/
def execTbinit (f : XA) (s : State) : Host.Outcome State Fault Refusal :=
  let form := formTb f false true
  issue form f.h.bytes (fun is s =>
    let n := (form.arg is.c 2 0).toNat
    if n = 0 || decide (2 ^ 20 ≤ n) then .trap s (Trap.of .illegal)
    else withBarrier form true (fun _ s b =>
      let t : TBar := { phase := 0, pendArr := n, arrCnt := n, overrun := false, poison := false, bytes := 0, next := 0 }
      .commit (s.setTbar b.core b.off t)) is s) s

/-- R209: the arrival is asked after the write-back, and the split waits for the port. -/
def execTbarrive (f : XA) (s : State) : Host.Outcome State Fault Refusal :=
  let form := formTb f false true
  issue form f.h.bytes (withBarrier form true fun is s b =>
    let s := s.writeBack is.id
    let k : OpKind := .tbarrive b.core b.off (if b.given then some b.ph else none) (form.arg is.c 2 0).toNat
    .wait (s.addOp (is.op s k)) (.op s.nextId)) s

/-- R209: the port performs the arrival, or refuses it as the barrier then stands. -/
def execTbarrivePerform (op : Nat) (s : State) : Host.Outcome State Fault Refusal :=
  match s.ops.look op with
  | none => .next s
  | some o =>
    match o.kind with
    | .tbarrive core off phase expected =>
      let b := s.tbar core off
      if b.pendArr = 0 || (phase.any fun p => p != b.phase) then .next (s.refuseOp op o (Trap.of .barrierOverrun))
      else .next ((s.setTbar core off (b.arrive expected)).commitOp op o)
    | _ => .next s

/-- The phase that a wait or poll names (R209). -/
def BarArg.target (a : BarArg) (b : TBar) : Nat := if a.given then a.ph else b.phase

/-- R209: the split parks while the phase lasts; a return is an edge target (R216). -/
def execTbwait (f : XA) (s : State) : Host.Outcome State Fault Refusal :=
  let form := formTb f false false
  issue form f.h.bytes (withBarrier form false fun is s a =>
    let b := s.tbar a.core a.off
    if b.overrun then .trap s (Trap.of .barrierOverrun)
    else if b.poison then .trap s (Trap.of .poison)
    else if b.phase != a.target b then .done (s.crossEdge is.id)
    else .set ((s.writeBack is.id).modSplit is.id is.i fun sp => { sp with wait := .phase a.core a.off (a.target b) })) s

/-- R209. -/
def execTbpoll (f : XA) (s : State) : Host.Outcome State Fault Refusal :=
  let form := formTb f true false
  issue form f.h.bytes (withBarrier form false fun is s a =>
    let b := s.tbar a.core a.off
    if b.overrun then .trap s (Trap.of .barrierOverrun)
    else if b.poison then .trap s (Trap.of .poison)
    else
      let w := (if b.phase != a.target b then 1 else 0) + b.phase * 16 + b.pendArr * 256
      .done (s.modCtx is.id fun c => form.writeDst c 0 (BitVec.ofNat 64 w))) s

/-! ## Copies at issue (R201 to R203) -/

/-- The interval of a global side: its range-lock entry (R199), which takes its operation's name as that is listed. Of a side that
runs past the last address it covers what lies before that (log entry 158). -/
def State.globalRange (s : State) (is : Issue) (lo n : Nat) (write : Bool) : Range :=
  { core := is.c.core, op := 0, scratch := false, owner := s.asroot is.c.graph, lo := lo % 2 ^ 52
    hi := lo % 2 ^ 52 + n, write := write }

/-- The entry of a scratch side. -/
def scratchRange (is : Issue) (core lo n : Nat) (write : Bool) : Range :=
  { core := is.c.core, op := 0, scratch := true, owner := core, lo := lo, hi := lo + n, write := write }

/-- The range-lock entries of the operation that is listed next (R199). -/
def State.holdRanges (s : State) (rs : List Range) : State :=
  { s with ranges := s.ranges ++ rs.map fun r => { r with op := s.nextId } }

/-- The physical address of a page as its tables stand, without any effect. -/
def State.quietPa (s : State) (asroot : Nat) (va : DWord) : Option Nat :=
  if !canonical va || !s.inDevice asroot then none
  else
    match s.descend va 0 asroot [0, 1, 2, 3] with
    | .ok f => some (leafAddress f.leaf f.level va)
    | .error _ => none

/-- Drops the issuing core's clean copies of a global destination, page by page (R227). -/
def State.dropGlobal (s : State) (core asroot : Nat) : Nat → DWord → Nat → State
  | 0, _, _ => s
  | fuel + 1, va, n =>
    if n = 0 then s
    else
      let k := Nat.min n (65536 - va.toNat % 65536)
      let s := match s.quietPa asroot va with
        | some pa => s.dropClean core pa k
        | none => s
      s.dropGlobal core asroot fuel (va + BitVec.ofNat 64 k) (n - k)

/-- What a copy issues with: its rows, its range-lock entries, its binding and its tile. -/
structure CopyPlan where
  rows : List Row
  ranges : List Range
  binding : Binding
  gather : Bool
  tile : Option Nat
  /-- intervals that it accesses without an entry of its own: those in the cluster window -/
  probes : List Range := []
deriving DecidableEq, Repr

/-- A side that is global. -/
def Side.isGlobal (d : Side) : Bool :=
  match d with
  | .global _ => true
  | .phys _ _ => true
  | .pages _ _ _ => true
  | _ => false

/-- A checked copy waits for its range-lock entries, and while another engine's entry covers an interval of it in the cluster window,
and commits (R199, R201, R227). One of no bytes is over at once. A copy that has waited makes all of its checks again, and its phase
binding with them, when it goes on: the rules do not say whether it is bound before the wait (log entry 145). The group's earlier
stores come before what the copy reads and writes in global memory. -/
def commitCopy (is : Issue) (s : State) (p : CopyPlan) : Res :=
  let ranges := p.ranges.filter fun r => r.lo < r.hi
  if s.rangesBlocked is.c.core ranges || p.probes.any (s.rangeMet is.c.core) then .wait s .retry
  else
    let rows := p.rows.filter fun r => 0 < r.bytes
    let s := if rows.any fun r => r.src.isGlobal || r.dst.isGlobal then s.writeBack is.id else s.settleReads is.id
    let s := foldState rows s fun s r => match r.dst with
      | .global va => s.dropGlobal is.c.core (s.asroot is.c.graph) (r.bytes / 65536 + 2) va r.bytes
      | _ => s
    if rows.isEmpty then .commit s
    else
      let s := match p.tile with
        | some k => s.modCtx is.id fun c => c.emptyLocs [locT k]
        | none => s
      .commit ((s.holdRanges ranges).addOp (is.op s (.copy rows [] p.binding p.gather p.tile)))

/-- Intervals of one store overlap. -/
def overlaps (a n b m : Nat) : Bool := decide (a < b + m) && decide (b < a + n)

/-- A global side's first and last byte are canonical (R201). One that runs past the last address to the first is admitted; the rule
says nothing of it (log entry 158). -/
def spanCanonical (va : DWord) (n : Nat) : Bool := canonical va && canonical (va + BitVec.ofNat 64 (n - 1))

/-- The scratch side of a copy: the pair window in a pair team, the own window otherwise (R200). -/
def State.copyScratch (s : State) (c : Ctx) (off : Int) (n : Nat) : Except Trap (Nat × Nat) :=
  if c.node.pair then s.pairScratch c off n else (s.ownScratch c off n).map fun o => (s.ownCore c, o)

/-- A side of `cpa` from its register (R200): kind 0 global, 1 own scratch, 2 cluster window. -/
def State.copySide (s : State) (c : Ctx) (kind : Nat) (x : DWord) (n : Nat) : Except Trap Side :=
  match kind with
  | 0 => .ok (.global x)
  | 1 => (s.copyScratch c x.toNat n).map fun e => .scratch e.1 e.2
  | _ =>
    let i := x.toNat / 2 ^ 32
    .ok (.window (if i < 96 then clusterCore c.launchCore i else 2 ^ 20) (x.toNat % 2 ^ 32))

/-- The source and destination intervals of a copy overlap (R201); global ones, which may run past the last address, as they stand, so
that one which is not canonical overlaps none that only shares its low bits. -/
def sidesOverlap (a b : Side) (n : Nat) : Bool :=
  let port := fun d : Side => match d with
    | .scratch k o => some (k, o)
    | .window k o => some (k, o)
    | _ => none
  match a, b with
  | .global x, .global y => decide ((y - x).toNat < n) || decide ((x - y).toNat < n)
  | _, _ =>
    match port a, port b with
    | some (k, o), some (j, p) => k == j && overlaps o n p n
    | _, _ => false

/-- The range-lock entry of a side: none for the cluster window (R199). -/
def State.sideRange (s : State) (is : Issue) (d : Side) (n : Nat) (write : Bool) : List Range :=
  match d with
  | .global va => [s.globalRange is va.toNat n write]
  | .scratch core off => [scratchRange is core off n write]
  | _ => []

/-- The interval of a side in the cluster window, which takes no entry but waits for those that cover it (R199). -/
def sideProbe (is : Issue) (d : Side) (n : Nat) (write : Bool) : List Range :=
  match d with
  | .window core off => if n = 0 then [] else [scratchRange is core off n write]
  | _ => []

/-- The phase binding of a barrier operand, the last check (R201), after the lanes' earlier accesses (R215). -/
def bindCopy (is : Issue) (s : State) (b : BarArg) (plan : Binding → CopyPlan) : Res :=
  let s := s.settleReads is.id
  match s.bindPhase b with
  | .error t => .trap s t
  | .ok p => commitCopy is s (plan p)

/-- `cpa` (R200, R201), with the kinds of its source and destination. -/
def copyBulk (f : XA) (dir : Nat) (dstUse srcUse : Use) (srcKind dstKind : Nat) (s : State) :
    Host.Outcome State Fault Refusal :=
  let form := formCpa f dir dstUse srcUse
  issue form f.h.bytes (fun is s =>
    let n := (form.arg is.c 2 0).toNat
    let srcVa := form.arg is.c 1 0
    let dstVa := form.dstArg is.c 0
    if 2 ^ 24 < n then .trap s (Trap.of .illegal)
    else if n % 16 != 0 then .trap s (Trap.of .misaligned)
    else if srcVa.toNat % 16 != 0 then .trap s { Trap.of .misaligned with va := srcVa }
    else if dstVa.toNat % 16 != 0 then .trap s { Trap.of .misaligned with va := dstVa }
    else
      match s.barArg is.c ((form.arg is.c 3 0).setWidth 32) with
      | .error t => .trap s t
      | .ok b =>
        match s.copySide is.c srcKind srcVa n with
        | .error t => .trap s t
        | .ok src =>
          match s.copySide is.c dstKind dstVa n with
          | .error t => .trap s t
          | .ok dst =>
            if 0 < n && sidesOverlap src dst n then .trap s (Trap.of .rangeLock)
            else if srcKind = 0 && !spanCanonical srcVa n then .trap s (Trap.atAddr .protection srcVa 0)
            else if dstKind = 0 && !spanCanonical dstVa n then .trap s (Trap.atAddr .protection dstVa 1)
            else bindCopy is s b fun p =>
              { rows := [⟨src, dst, n⟩], ranges := s.sideRange is src n false ++ s.sideRange is dst n true, binding := p
                gather := false, tile := none, probes := sideProbe is src n false ++ sideProbe is dst n true }) s

/-- R200. -/
def execCpaGs (f : XA) (s : State) : Host.Outcome State Fault Refusal := copyBulk f 0 .s1 .q 0 1 s
/-- R200. -/
def execCpaSg (f : XA) (s : State) : Host.Outcome State Fault Refusal := copyBulk f 1 .q .s1 1 0 s
/-- R200. -/
def execCpaGg (f : XA) (s : State) : Host.Outcome State Fault Refusal := copyBulk f 2 .q .q 0 0 s
/-- R200. -/
def execCpaSs (f : XA) (s : State) : Host.Outcome State Fault Refusal := copyBulk f 3 .s1 .s1 1 1 s
/-- R200. -/
def execCpaSw (f : XA) (s : State) : Host.Outcome State Fault Refusal := copyBulk f 4 .q .s1 1 2 s
/-- R200. -/
def execCpaWs (f : XA) (s : State) : Host.Outcome State Fault Refusal := copyBulk f 5 .s1 .q 2 1 s

end Sys2Proof.Machine

namespace Sys2Proof

open Machine

/-! ## Shaped copies at issue (R115 to R117, R202, R203) -/

/-- The form of a shaped copy: its base and barrier registers, which wait (R106, R115). -/
def Shaped.form (f : Shaped) (base : Use) : Form :=
  let h : Hdr :=
    { dst := 0, src1 := f.src1, src2 := f.src2, src3 := 0, guard := ⟨false, 0⟩, empty := 0, ty := .b32, rnd := .rne
      lit := none }
  { ((Form.base h).withSrc1 base .readWait).withSrc2 .s1 .readWait with guard := .none }

/-- The substitution registers (R117). -/
def Shaped.registers (f : Shaped) : List Field :=
  ((List.range 4).filter f.substitutes).map fun i => ⟨f.sreg.toNat + i, .s1, .readWait⟩

/-- The register of a substituted field. -/
def Shaped.sub (f : Shaped) (c : Ctx) (i : Nat) : Word := c.s (f.sreg.toNat + i)

/-- The shape of a copy at issue: elements, rows, strides in bytes, the offset, bytes of a row. -/
structure Shape where
  dim0 : Nat
  dim1 : Nat
  stride : Int
  soff : Nat
  esize : Nat
  pitch : Nat
  row : Nat
  goff : Int
deriving DecidableEq, Repr

/-- A dimension: a substituted one takes 16 bits of its register (R117). -/
def Shaped.dim (f : Shaped) (c : Ctx) (i : Nat) (d : BitVec 16) : Option Nat :=
  if f.substitutes i then
    let w := (f.sub c i).toNat
    if w = 0 || decide (2 ^ 16 ≤ w) then none else some w
  else some d.toNat

/-- The shape after substitution; none where a dimension is `ILLEGAL` (R117). -/
def Shaped.shape (f : Shaped) (c : Ctx) : Option Shape :=
  match f.dim c 0 f.dim0, f.dim c 1 f.dim1 with
  | some d0, some d1 =>
    let row := d0 * 2 ^ f.esize.toNat
    some
      { dim0 := d0, dim1 := d1, esize := f.esize.toNat, row := row, goff := f.goff.toInt
        stride := (if f.substitutes 2 then f.sub c 2 else f.stride).toInt
        soff := if f.substitutes 3 then (f.sub c 3).toNat else f.soff.toNat
        pitch := if f.spitch = 0 then row else f.spitch.toNat }
  | _, _ => none

/-- The start of row r on the scratch, tile or accumulator side. -/
def Shape.near (d : Shape) (r : Nat) : Nat := d.soff + r * d.pitch
/-- The start of row r on the other side, from its base. -/
def Shape.far (d : Shape) (base : Int) (r : Nat) : Int := base + d.goff + r * d.stride
/-- The rows. -/
def Shape.rows (d : Shape) : List Nat := List.range d.dim1
/-- A row's start on either side is not aligned to the element (R202). -/
def Shape.misaligned (d : Shape) (base : Int) : Bool :=
  d.rows.any fun r => d.near r % 2 ^ d.esize != 0 || d.far base r % (2 ^ d.esize : Nat) != 0
/-- The bytes from the first row's start to the last row's end on the near side. -/
def Shape.span (d : Shape) : Nat := (d.dim1 - 1) * d.pitch + d.row
/-- The least and greatest row start on the far side, from a base. -/
def Shape.farBounds (d : Shape) (base : Int) : Int × Int :=
  let a := d.far base 0
  let b := d.far base (d.dim1 - 1)
  if a ≤ b then (a, b) else (b, a)

/-- The near side that is scratch: the row starts, and the range. -/
def Shape.scratchSide (d : Shape) (is : Issue) (s : State) (write : Bool) : Except Trap ((Nat → Side) × List Range) :=
  match s.copyScratch is.c d.soff d.span with
  | .error t => .error t
  | .ok (core, o) => .ok (fun r => .scratch core (o + r * d.pitch), [scratchRange is core o d.span write])

/-- The near side that is a tile or an accumulator block of so many bytes, of those that the node has (R203). -/
def Shape.storeSide (d : Shape) (size count : Nat) (side : Nat → Nat → Side) : Except Trap ((Nat → Side) × List Range) :=
  let n := d.soff / size
  if count ≤ n || decide (size < d.soff % size + d.span) then .error (Trap.of .tileShape)
  else .ok (fun r => side n (d.soff % size + r * d.pitch), [])

/-- The far side in global memory: canonical rows, and the bounding interval. -/
def Shape.globalSide (d : Shape) (is : Issue) (s : State) (base : DWord) (write : Bool) :
    Except Trap ((Nat → Side) × List Range) :=
  let at_ := fun r : Nat => BitVec.ofInt 64 (d.far base.toNat r)
  match d.rows.find? fun r => !spanCanonical (at_ r) d.row with
  | some r => .error (Trap.atAddr .protection (at_ r) (if write then 1 else 0))
  | none =>
    let b := d.farBounds base.toNat
    .ok (fun r => .global (at_ r), [s.globalRange is (BitVec.ofInt 64 b.1).toNat ((b.2 - b.1).toNat + d.row) write])

/-- The far side in own scratch, for `cpas.st`. -/
def Shape.farScratch (d : Shape) (is : Issue) (s : State) (base : DWord) : Except Trap ((Nat → Side) × List Range) :=
  let b := d.farBounds base.toNat
  let n := (b.2 - b.1).toNat + d.row
  match s.copyScratch is.c b.1 n with
  | .error t => .error t
  | .ok (core, o) =>
    .ok (fun r => .scratch core (o + (d.far base.toNat r - b.1).toNat), [scratchRange is core o n false])

/-- A shaped copy: a substituted `SOFF` that reaches outside its field comes first (R117, R118, log entry 59), then a total above
2^24 bytes (R202); `near` and `far` check their sides, `into` says that the near side is written; `busy` says when it must wait, and
`late` names a last cause before the binding. Where `TILE_SHAPE`, which `near` gives, and the wait for an empty tile stand among the
checks of R201 is the model's choice (log entry 146). -/
def copyShaped (f : Shaped) (base : Use) (near : Shape → Issue → State → Except Trap ((Nat → Side) × List Range))
    (far : Shape → Issue → State → DWord → Except Trap ((Nat → Side) × List Range)) (into : Bool)
    (busy : Shape → Issue → State → Bool) (late : Shape → Issue → Option Trap) (tile : Shape → Option Nat) (s : State) :
    Host.Outcome State Fault Refusal :=
  let form := f.form base
  issueWith form 20 f.registers never never (fun is s =>
    match f.shape is.c with
    | none => .trap s (Trap.of .illegal)
    | some d =>
      let x := form.arg is.c 1 0
      if 2 ^ 18 ≤ d.soff then .trap s (boundsTrap d.soff)
      else if 2 ^ 24 < d.row * d.dim1 then .trap s (Trap.of .illegal)
      else if d.misaligned x.toNat then .trap s (Trap.of .misaligned)
      else
        match s.barArg is.c ((form.arg is.c 2 0).setWidth 32) with
        | .error t => .trap s t
        | .ok b =>
          match near d is s with
          | .error t => .trap s t
          | .ok (nearAt, nearRanges) =>
            match far d is s x with
            | .error t => .trap s t
            | .ok (farAt, farRanges) =>
              if busy d is s then .wait s .retry
              else
                match late d is with
                | some t => .trap s t
                | none => bindCopy is s b fun p =>
                  { rows := d.rows.map fun r =>
                      if into then { src := farAt r, dst := nearAt r, bytes := d.row }
                      else { src := nearAt r, dst := farAt r, bytes := d.row }
                    ranges := nearRanges ++ farRanges, binding := p, gather := false, tile := tile d }) s

/-- A tile may not be written now: it is empty (R105), or a matrix operation in flight reads it (R248). -/
def Machine.State.tileBusy (s : State) (id : Nat) (c : Ctx) (n : Nat) : Bool :=
  c.isEmpty (locT n) || s.ops.any fun e => match e.2.kind with
    | .matrix m =>
      m.kind != 4 && ((m.members.any fun b => b.ctx == id) && (m.tileA == n || (m.kind != 1 && m.tileM == n))
        || m.leader == id && m.tileB == n)
    | _ => false

/-- The blocks that a matrix operation targets: an FP64 result takes two (R249). -/
def Machine.MatOp.blocks (m : MatOp) : List Nat := if m.fa = 1 then [m.acc, m.acc + 1] else [m.acc]

/-- A matrix operation in flight targets the block (R250). -/
def Machine.State.blockTargeted (s : State) (id n : Nat) : Bool :=
  s.ops.any fun e => match e.2.kind with
    | .matrix m => (m.members.any fun b => b.ctx == id) && m.blocks.contains n
    | _ => false

/-- A copy in flight has still to read the block (R203). -/
def Machine.State.blockRead (s : State) (id n : Nat) : Bool :=
  s.ops.any fun e => e.2.ctx == id && match e.2.kind with
    | .copy rows _ _ _ _ => rows.any fun r => match r.src with
      | .acc b _ => b == n
      | _ => false
    | _ => false

namespace Machine

/-- R202. -/
def execCpasGs (f : Shaped) (s : State) : Host.Outcome State Fault Refusal :=
  copyShaped f .q (fun d is s => d.scratchSide is s true) (fun d is s x => d.globalSide is s x false) true
    (fun _ _ _ => false) (fun _ _ => none) (fun _ => none) s
/-- R202. -/
def execCpasSg (f : Shaped) (s : State) : Host.Outcome State Fault Refusal :=
  copyShaped f .q (fun d is s => d.scratchSide is s false) (fun d is s x => d.globalSide is s x true) false
    (fun _ _ _ => false) (fun _ _ => none) (fun _ => none) s
/-- R203. -/
def execCpasGt (f : Shaped) (s : State) : Host.Outcome State Fault Refusal :=
  copyShaped f .q (fun d is _ => d.storeSide 2048 is.c.node.tiles .tile) (fun d is s x => d.globalSide is s x false) true
    (fun d is s => s.tileBusy is.id is.c (d.soff / 2048)) (fun _ _ => none) (fun d => some (d.soff / 2048)) s
/-- R203. -/
def execCpasSt (f : Shaped) (s : State) : Host.Outcome State Fault Refusal :=
  copyShaped f .s1 (fun d is _ => d.storeSide 2048 is.c.node.tiles .tile) (fun d is s x => d.farScratch is s x) true
    (fun d is s => s.tileBusy is.id is.c (d.soff / 2048)) (fun _ _ => none) (fun d => some (d.soff / 2048)) s

/-- A poisoned row among those that a copy from a block would read (R266). -/
def AccBlock.poisonedIn (b : AccBlock) (off n : Nat) : Bool :=
  (List.range 32).any fun r => b.poison.getLsbD r && overlaps (128 * r) 128 off n

/-- R203, R250, R266. -/
def execCpasAg (f : Shaped) (s : State) : Host.Outcome State Fault Refusal :=
  copyShaped f .q (fun d is _ => d.storeSide 4096 is.c.node.accs .acc) (fun d is s x => d.globalSide is s x true) false
    (fun d is s => s.blockTargeted is.id (d.soff / 4096))
    (fun d is =>
      if d.rows.any fun r => (is.c.acc (d.soff / 4096)).poisonedIn (d.soff % 4096 + r * d.pitch) d.row then
        some (Trap.of .poison)
      else none) (fun _ => none) s

/-! ## Gathers at issue (R210) -/

/-- R210, element form. -/
def execGath (f : XA) (s : State) : Host.Outcome State Fault Refusal :=
  let form := formGath f
  issue form f.h.bytes (fun is s =>
    let n := f.h.ty.bytes
    if (form.arg is.c 1 0).toNat % n != 0 then .trap s { Trap.of .misaligned with va := form.arg is.c 1 0 }
    else
      match elementAccess form is n 0 false s with
      | (s, .error t) => .trap s t
      | (s, .ok lanes) =>
        let s := s.writeBack is.id
        if !s.requestsFit is.c.core (lanesLines lanes).length then .wait s .retry
        else
          let s := s.modCtx is.id fun c => c.emptyLocs (form.dst.locs is.acting)
          let s := foldState (lanesLines lanes) s fun s line => s.countLine is.id 0x10 line 0
          .commit (s.addOp (is.op s (.gather f.h.dst.toNat f.h.ty lanes 0)))) s

/-- A lane's row, which lies in one 64 KiB page or two, translated at issue. -/
def State.rowPages (s : State) (is : Issue) (va : DWord) (n : Nat) : State × Except Trap Side :=
  match s.translate is.id is.c va 0 with
  | (s, .error t) => (s, .error t)
  | (s, .ok m) =>
    let k := 65536 - va.toNat % 65536
    if n ≤ k then (s, .ok (.pages va m.pa 0))
    else
      match s.translate is.id is.c (va + BitVec.ofNat 64 k) 0 with
      | (s, .error t) => (s, .error t)
      | (s, .ok m') => (s, .ok (.pages va m.pa m'.pa))

/-- The rows of the lanes in ascending order, and the lanes that fail. -/
def State.gatherRows (s : State) (is : Issue) (core off rb : Nat) (va : Nat → DWord) :
    List Nat → State × List Row × List (Nat × Trap)
  | [] => (s, [], [])
  | l :: ls =>
    match s.rowPages is (va l) rb with
    | (s, r) =>
      match s.gatherRows is core off rb va ls with
      | (s, rows, bad) =>
        match r with
        | .ok d => (s, { src := d, dst := .scratch core (off + l * rb), bytes := rb } :: rows, bad)
        | .error t => (s, rows, (l, t) :: bad)

/-- R210, row form: every row is translated at issue, and the scratch span is a write entry. -/
def execGathRow (f : XA) (s : State) : Host.Outcome State Fault Refusal :=
  let form := formGathRow f
  issue form f.h.bytes (fun is s =>
    let rb := 16 * f.rowUnits
    let base := form.arg is.c 1 0
    let o := (form.dstArg is.c 0).toNat
    let lanes := lanesOf is.acting
    if base.toNat % 16 != 0 then .trap s { Trap.of .misaligned with va := base }
    else
      match s.barArg is.c ((form.arg is.c 3 0).setWidth 32) with
      | .error t => .trap s t
      | .ok b =>
        let span := (lanes.getLastD 0 + 1) * rb
        match s.ownScratch is.c o span with
        | .error t => .trap s t
        | .ok off =>
          let va := elementAddress form is rb
          match s.gatherRows is (s.ownCore is.c) off rb va lanes with
          | (s, _, (l, t) :: rest) => .trap s (t.inLanes (l :: rest.map Prod.fst))
          | (s, rows, []) =>
            if lanes.any fun l => s.lockedGlobal is.c.core (s.asroot is.c.graph) ((va l).toNat % 2 ^ 52) rb false then
              .wait s .retry
            else bindCopy is s b fun p =>
              { rows := rows, ranges := [scratchRange is (s.ownCore is.c) off span true], binding := p, gather := true
                tile := none }) s

/-! ## What an engine meets (R204, R305) -/

/-- An engine translates for its operation. -/
def State.engineTranslate (s : State) (o : Op) (va : DWord) (kind : Nat) : State × Except Trap Mapped :=
  match s.tlbOrWalk o.core o.ctx (s.asroot o.graph) va kind with
  | (s, .ok m) => if s.reaches o.die m.pa then (s, .ok m) else (s, .error (Trap.atAddr .linkLost va kind))
  | r => r

/-- The supervisor handler of an operation's graph is present and its block can be read. -/
def State.hasSupervisor (s : State) (o : Op) : State × Except Trap Unit :=
  match s.ctxs.look o.ctx, s.graphs.look o.graph with
  | some c, some g =>
    if g.super = 0 then (s, .error (Trap.of .pageFault))
    else
      match s.superBlock o.ctx c g.super with
      | (s, .error t) => (s, .error t)
      | (s, .ok b) => (s, if b.handler = 0 then .error (Trap.of .pageFault) else .ok ())
  | _, _ => (s, .error (Trap.of .pageFault))

/-- The graph ends with a cause that an engine met and no handler takes (R301); its PC is the instruction that issued the engine
operation (log entry 122). -/
def State.endForEngine (s : State) (o : Op) (t : Trap) : State :=
  s.endGraph o.graph 1 (some
    { cause := t.cause.code, detail := t.detail, core := BitVec.ofNat 32 o.core, lane := t.lane, pc := o.pc })

/-- An engine meets a cause (R305): a fault that the supervisor may service stops it and asks for an entry in its group, and
without a supervisor ends the graph; another cause ends the operation. -/
def State.meetFault (s : State) (n : Nat) (t : Trap) : State :=
  match s.ops.look n with
  | none => s
  | some o =>
    let t := { t with source := o.kind.source }
    if !t.cause.supervisor then s.failEngine n t
    else
      match s.hasSupervisor o with
      | (s, .error u) =>
        (s.failEngine n t).endForEngine o (if u.cause.supervisor && u.va == 0 then t else u)
      | (s, .ok ()) =>
        match s.engineRecord o.ctx t 0 0 o.kind.progress with
        | (s, r) =>
          (s.modOp n fun o => { o with fault := some t, record := r }).modCtx o.ctx fun c =>
            { c with entries := c.entries ++ [n] }

/-! ## Landings (R204, R207, R210) -/

/-- The partner half of a boundary pair whose path over the Hinge is lost (R39, R341). -/
def State.partnerLost (s : State) (o : Op) (core : Nat) : Bool :=
  match (s.ctxs.look o.ctx).bind fun c => s.teams.look c.team with
  | some t => s.boundaryPair t && core != o.core && !s.reachable t.die (s.beside t.die)
  | none => false

/-- A translated address, whose home an operation's die must reach (R341). -/
def State.arrive (s : State) (o : Op) (va : DWord) (pa kind : Nat) : State × Except Trap Side :=
  (s, if s.reaches o.die pa then .ok (.phys va pa) else .error (Trap.atAddr .linkLost va kind))

/-- A side from its byte j on, with addresses translated and the cluster window checked at its port. -/
def State.resolve (s : State) (n : Nat) (o : Op) (d : Side) (j k kind : Nat) : State × Except Trap Side :=
  match d with
  | .global va =>
    match s.engineTranslate o (va + BitVec.ofNat 64 j) kind with
    | (s, .error t) => (s, .error t)
    | (s, .ok m) => (s, .ok (.phys (va + BitVec.ofNat 64 j) m.pa))
  | .phys va pa => s.arrive o (va + BitVec.ofNat 64 j) (pa + j) kind
  | .pages va pa next =>
    let at_ := va.toNat % 65536 + j
    s.arrive o (va + BitVec.ofNat 64 j) (if at_ < 65536 then pa + j else next + (at_ - 65536)) kind
  | .scratch core off =>
    (s, if s.partnerLost o core then .error (Trap.atAddr .linkLost (BitVec.ofNat 64 (off + j)) kind)
      else .ok (.scratch core (off + j)))
  | .window core off =>
    let va := BitVec.ofNat 64 (off + j)
    let locked := s.ranges.any fun r => r.op != n && r.scratch && r.owner == core && (kind != 0 || r.write)
      && overlaps r.lo (r.hi - r.lo) (off + j) k
    if !s.windowOpen o.graph core (off + j) k then (s, .error (Trap.atAddr .scratchBounds va kind))
    else if locked then (s, .error (Trap.atAddr .rangeLock va kind))
    else (s, .ok (.scratch core (off + j)))
  | .tile t off => (s, .ok (.tile t (off + j)))
  | .acc b off => (s, .ok (.acc b (off + j)))

/-- Byte i of an accumulator block. -/
def AccBlock.byte (b : AccBlock) (i : Nat) : Byte := BitVec.ofNat 8 ((b.data.at 0 (i / 4)).toNat / 256 ^ (i % 4))

/-- The bytes of a resolved side; none for a byte of a sector with an uncorrectable error (R204). -/
def State.sideBytes (s : State) (o : Op) (d : Side) (k : Nat) : List (Option Byte) :=
  match d with
  | .phys _ pa => tabulate k fun i => if s.poisonedAt (pa + i) then none else some (s.byteAt (pa + i))
  | .scratch core off =>
    tabulate k fun i =>
      if (s.core core).scratchPoison.contains ((off + i) / 32) then none else some ((s.core core).scratch.at 0 (off + i))
  | .acc b off =>
    match s.ctxs.look o.ctx with
    | some c => tabulate k fun i => some ((c.acc b).byte (off + i))
    | none => []
  | _ => []

/-- Writes the bytes that were read at a resolved side; the others keep what they held. -/
def State.sideWrite (s : State) (o : Op) (d : Side) (bytes : List (Option Byte)) : State :=
  let cells := fun at_ : Nat => bytes.zipIdx.filterMap fun e => e.1.map fun b => (at_ + e.2, b)
  match d with
  | .phys _ pa => s.writeHome (cells pa)
  | .scratch core off => s.writeScratch core (cells off)
  | .tile t off =>
    s.modCtx o.ctx fun c =>
      c.setTile t ((c.tile t).write (cells off))
  | _ => s

/-- The line requests of an engine's access at a resolved side (R140). -/
def State.countSide (s : State) (o : Op) (d : Side) (k ev : Nat) : State :=
  match d with
  | .phys _ pa =>
    let lines := (pa + k - 1) / 128 - pa / 128 + 1
    s.countEvent o.ctx (if inHost pa || (s.homeOf pa).1 == o.die then ev else ev + 1) 0 lines
  | _ => s

/-- The address of a side's byte, by which granules and pages are counted. -/
def Side.address (d : Side) : Nat :=
  match d with
  | .global va => va.toNat
  | .phys va _ => va.toNat
  | .pages va _ _ => va.toNat
  | .scratch _ off => off
  | .window _ off => off
  | .tile _ off => off
  | .acc _ off => off

/-- So many bytes of a side from one of its bytes on, one 64 KiB page of global memory at a time: the first byte and the count of
each part. -/
def Side.parts (d : Side) (j k : Nat) : List (Nat × Nat) :=
  let a := d.address + j
  if k = 0 then []
  else if !d.isGlobal then [(j, k)]
  else tabulate ((a + k - 1) / 65536 + 1 - a / 65536) fun i =>
    let lo := max a ((a / 65536 + i) * 65536)
    let hi := min (a + k) ((a / 65536 + i + 1) * 65536)
    (lo - d.address, hi - lo)

/-- Parts of a side, each resolved, with its count of bytes. -/
def State.resolveParts (s : State) (n : Nat) (o : Op) (d : Side) (kind : Nat) :
    List (Nat × Nat) → State × Except Trap (List (Side × Nat))
  | [] => (s, .ok [])
  | (j, k) :: rest =>
    match s.resolve n o d j k kind with
    | (s, .error t) => (s, .error t)
    | (s, .ok e) =>
      match s.resolveParts n o d kind rest with
      | (s, .error t) => (s, .error t)
      | (s, .ok es) => (s, .ok ((e, k) :: es))

/-- The addresses of the poisoned sectors among bytes that were read at a resolved side, each by its first byte there. -/
def Side.poisoned (d : Side) (bytes : List (Option Byte)) : List Nat :=
  let bad := (List.range bytes.length).filter fun i => (bytes[i]?.map Option.isNone).getD false
  (bad.filter fun i => (d.address + i) % 32 == 0 || !bad.contains (i - 1) || i == 0).map (d.address + ·)

/-- A poisoned sector at an address of a resolved side is reported (R315). -/
def State.reportSide (s : State) (d : Side) (x : Nat) : State :=
  match d with
  | .phys va pa => s.logUncorrectable (pa + (x - va.toNat))
  | .scratch core _ => s.logScratchError core
  | _ => s

/-- An engine reads bytes at a resolved side, one state of each (R227, R140): read misses reach the home slices as any other's do
(R67), and what cannot be read is reported (R315). The bytes, and the addresses of the poisoned sectors. -/
def State.readPart (s : State) (n : Nat) (o : Op) (d : Side) (k : Nat) : State × List (Option Byte) × List Nat :=
  let s := match d with
    | .phys _ pa => s.fetchLines o.core (some n) pa k
    | _ => s
  let bytes := s.sideBytes o d k
  let bad := d.poisoned bytes
  (foldState bad (s.countSide o d k 0x10) fun s x => s.reportSide d x, bytes, bad)

/-- Reads resolved parts, in their order. -/
def State.readParts (s : State) (n : Nat) (o : Op) : List (Side × Nat) → State × List (Option Byte) × List Nat
  | [] => (s, [], [])
  | (d, k) :: rest =>
    match s.readPart n o d k with
    | (s, bytes, bad) =>
      match s.readParts n o rest with
      | (s, more, worse) => (s, bytes ++ more, bad ++ worse)

/-- The row that holds a byte of the copy, and the byte at which the row starts. -/
def rowAt (rows : List Row) (start first : Nat) : Option (Row × Nat) :=
  match rows with
  | [] => none
  | r :: rest => if first < start + r.bytes then some (r, start) else rowAt rest (start + r.bytes) first

/-- The starts of the rows with a source: for a row gather all rows with it, which are read once (R210). -/
def sameRows (rows : List Row) (start : Nat) (src : Side) (bytes : Nat) : List (Nat × Row) :=
  match rows with
  | [] => []
  | r :: rest =>
    (if r.src == src && r.bytes == bytes then [(start, r)] else []) ++ sameRows rest (start + r.bytes) src bytes

/-- The interval may land by itself: it lies in one row and one page of a global destination, splits no aligned 8-byte granule
of the destination (R220), and has not landed. -/
def mayLand (landed : List (Nat × Nat)) (r : Row) (start first count : Nat) : Bool :=
  let j := first - start
  let page := !r.dst.isGlobal || decide ((r.dst.address + j) % 65536 + count ≤ 65536)
  let cut := fun x : Nat => x == 0 || x == r.bytes || (r.dst.address + x) % 8 == 0
  decide (0 < count) && decide (first + count ≤ start + r.bytes) && page && cut j && cut (j + count)
    && landed.all fun e => !overlaps e.1 e.2 first count

/-- The bytes of a row to read so that bytes j to j + k of it can land: every aligned 8-byte granule of the source whole and once
(R220), so that one of which `held` says that it was read before is not read again. -/
def Row.toRead (r : Row) (held : Nat → Bool) (j k : Nat) : Nat × Nat :=
  let a := r.src.address % 8
  let lo := if held j then (a + j) / 8 * 8 + 8 - a else (a + j) / 8 * 8 - a
  let hi := if held (j + k - 1) then (a + j + k - 1) / 8 * 8 - a else min r.bytes ((a + j + k + 7) / 8 * 8 - a)
  (lo, hi - lo)

/-- The destinations of a landing, each resolved. -/
def State.resolveRows (s : State) (n : Nat) (o : Op) (j k : Nat) : List (Nat × Row) → State × Except Trap (List (Side × Side))
  | [] => (s, .ok [])
  | (_, r) :: rest =>
    match s.resolve n o r.dst j k 1 with
    | (s, .error t) => (s, .error t)
    | (s, .ok d) =>
      match s.resolveRows n o j k rest with
      | (s, .error t) => (s, .error t)
      | (s, .ok ds) => (s, .ok ((r.dst, d) :: ds))

/-- Bytes of a row land at its resolved destinations; a global page is marked dirty (R57). -/
def State.landRows (s : State) (o : Op) (j : Nat) (bytes : List (Option Byte)) (ds : List (Side × Side)) : State :=
  foldState ds s fun s e =>
    let s := match e.1 with
      | .global va => s.touchPage o.core (s.asroot o.graph) (va + BitVec.ofNat 64 j)
      | _ => s
    (s.sideWrite o e.2 bytes).countSide o e.2 bytes.length 0x12

/-- What a landing has read: the bytes that land, and those that stay ahead. -/
structure Taken where
  bytes : List (Option Byte)
  ahead : List (Nat × Option Byte)
deriving DecidableEq, Repr

/-- Of the bytes read from byte `lo` of a row on, which stands at `start` in the copy, and those read ahead, bytes j to j + k land. -/
def Op.take (o : Op) (start lo j k : Nat) (read : List (Option Byte)) : Taken :=
  let here := fun i : Nat => ((o.ahead.find? fun e => e.1 == start + i).map Prod.snd).getD ((read[i - lo]?).getD none)
  let fresh := (List.range read.length).filter fun i => lo + i < j || j + k ≤ lo + i
  { bytes := tabulate k fun i => here (j + i)
    ahead := (o.ahead.filter fun e => e.1 < start + j || start + j + k ≤ e.1)
      ++ fresh.map fun i => (start + lo + i, (read[i]?).getD none) }

/-- Poisoned sectors among what a copy has read set the barrier's `POISON`, with a fault record for each (R204, R315). -/
def State.poisonCopy (s : State) (o : Op) (b : Binding) (bad : List Nat) : State :=
  if bad.isEmpty then s
  else
    (foldState bad s fun s x =>
      let t := { Trap.of .poison with source := o.kind.source, va := BitVec.ofNat 64 x }
      (s.engineRecord o.ctx t 3 o.pc o.kind.progress).1).poisonBarrier b

/-- The copy is over when every byte has landed: its tile becomes full and its entries are released. -/
def State.finishCopy (s : State) (n : Nat) (o : Op) (rows : List Row) (landed : List (Nat × Nat)) (b : Binding) (gather : Bool)
    (tile : Option Nat) : State :=
  if landedBytes landed < rowBytes rows then s.goOn n (.copy rows landed b gather tile)
  else
    let s := match tile with
      | some t => s.modCtx o.ctx fun c => c.fillLocs [locT t]
      | none => s
    s.endOp n

/-- R207: bytes of a copy or row gather land and are posted to their phase, or the engine meets a cause. -/
def execCopyLanding (op first count : Nat) (s : State) : Host.Outcome State Fault Refusal :=
  match s.ops.look op with
  | none => .next s
  | some o =>
    match o.kind with
    | .copy rows landed b gather tile =>
      match rowAt rows 0 first with
      | none => .next s
      | some (r, start) =>
        if o.fault.isSome || !mayLand landed r start first count then .next s
        else
          let j := first - start
          let targets := if gather then sameRows rows 0 r.src r.bytes else [(start, r)]
          let key := (targets.head?.map Prod.fst).getD start
          let (lo, k) := r.toRead (fun i => o.ahead.any fun e => e.1 == key + i) j count
          match s.resolveParts op o r.src 0 (r.src.parts lo k) with
          | (s, .error t) => .next (s.meetFault op t)
          | (s, .ok parts) =>
            match s.resolveRows op o j count targets with
            | (s, .error t) => .next (s.meetFault op t)
            | (s, .ok ds) =>
              match s.readParts op o parts with
              | (s, read, bad) =>
                let got := o.take key lo j count read
                let s := (s.landRows o j got.bytes ds).poisonCopy o b bad
                let s := foldState targets s fun s _ => s.landBytes b count
                let s := s.modOp op fun o => { o with ahead := got.ahead }
                .next (s.finishCopy op o rows (landed ++ targets.map fun e => (e.1 + j, count)) b gather tile)
    | _ => .next s

/-- The cause that a copy would meet at one of its bytes. -/
def State.copyFault (s : State) (n : Nat) (o : Op) (rows : List Row) (part : Nat) : State × Option Trap :=
  match rowAt rows 0 part with
  | none => (s, none)
  | some (r, start) =>
    match s.resolve n o r.src (part - start) 1 0 with
    | (s, .error t) => (s, some t)
    | (s, .ok _) =>
      match s.resolve n o r.dst (part - start) 1 1 with
      | (s, .error t) => (s, some t)
      | (s, .ok _) => (s, none)

end Machine

end Sys2Proof
end

