-- ==== Sys2Proof/Machine/Trees.lean ====
section
/-! DEFINITION. Octet trees in memory (R268 to R274) as the walker, the allocator and the other engines read and write them:
accesses of an engine at home slices, `find_leaf`, insertion (R283 to R285) and the path of activity bits (R286). -/

namespace Sys2Proof.Machine

/-! ## Accesses of an engine -/

/-- A part of an engine's work: it changes the state and answers a value or the cause that it meets. -/
abbrev Eng (α : Type) := ExceptT Trap (StateM State) α

/-- Runs a part of an engine's work. -/
def Eng.go {α : Type} (x : Eng α) (s : State) : State × Except Trap α :=
  let r := StateT.run (ExceptT.run x) s
  (r.2, r.1)

/-- Work given as a function of the state. -/
def Eng.of {α : Type} (f : State → State × Except Trap α) : Eng α :=
  ExceptT.mk fun s => let r := f s; (r.2, r.1)

/-- The engine translates an address for an access of a kind. -/
def engAddress (o : Op) (va : DWord) (kind : Nat) : Eng Mapped := Eng.of fun s => s.engineTranslate o va kind

/-- A change of the state that cannot fail. -/
def engDo (f : State → State) : Eng Unit := Eng.of fun s => (f s, .ok ())

/-- What the state says. -/
def engGet {α : Type} (f : State → α) : Eng α := Eng.of fun s => (s, .ok (f s))

/-- `POISON` met at a physical address, which is reported (R315). -/
def engPoison {α : Type} (va : DWord) (pa kind : Nat) : Eng α :=
  Eng.of fun s => (s.logUncorrectable pa, .error { Trap.atAddr .poison va kind with kind := kind })

/-- Reads n bytes of one page at the home slice. -/
def engPiece (o : Op) (va : DWord) (n : Nat) : Eng Nat := do
  let m ← engAddress o va 0
  engDo fun s => (s.fetchLines o.core none m.pa n).countSide o (.phys va m.pa) n 0x10
  match ← engGet fun s => s.poisonIn m.pa n with
  | some pa => engPoison va pa 0
  | none => engGet fun s => s.readHome m.pa n

/-- The bytes up to the end of a 64 KiB page. -/
def toPageEnd (va : DWord) : Nat := 65536 - va.toNat % 65536

/-- Reads n bytes, at most 65,536, at the home slices. -/
def engRead (o : Op) (va : DWord) (n : Nat) : Eng Nat := do
  let k := toPageEnd va
  if n ≤ k then engPiece o va n
  else
    let a ← engPiece o va k
    let b ← engPiece o (va + BitVec.ofNat 64 k) (n - k)
    return a + b * 2 ^ (8 * k)

/-- An engine writes n bytes of a page: the page is marked dirty (R57), and the issuing core drops its clean copies (R227). -/
def State.engTouch (s : State) (o : Op) (va : DWord) (m : Mapped) (n : Nat) : State :=
  (s.touchPage o.core (s.asroot o.graph) va).dropClean o.core m.pa n

/-- Writes bytes of one page at the home slice. -/
def engPut (o : Op) (va : DWord) (bytes : List Byte) : Eng Unit := do
  let m ← engAddress o va 1
  engDo fun s => ((s.engTouch o va m bytes.length).writeHome (cellsAt m.pa bytes)).countSide o (.phys va m.pa) bytes.length 0x12

/-- Writes bytes, at most 65,536, at the home slices. -/
def engWrite (o : Op) (va : DWord) (bytes : List Byte) : Eng Unit := do
  let k := toPageEnd va
  if bytes.length ≤ k then engPut o va bytes
  else
    engPut o va (bytes.take k)
    engPut o (va + BitVec.ofNat 64 k) (bytes.drop k)

/-- One atomic of n bytes at the home slice (R194, R225): the value found. -/
def engAtomic (o : Op) (va : DWord) (n : Nat) (pcie : Bool) (f : Nat → Nat) : Eng Nat := do
  let m ← engAddress o va 2
  let enabled ← engGet fun s => s.reqEnable
  if inHost m.pa && !m.coh && !(pcie && enabled) then throw (Trap.atAddr .hostAtomic va 2)
  engDo fun s => s.countSide o (.phys va m.pa) n 0x12
  match ← engGet fun s => s.poisonIn m.pa n with
  | some pa => engPoison va pa 2
  | none =>
    let old ← engGet fun s => s.readHome m.pa n
    engDo fun s =>
      let s := s.engTouch o va m n
      if f old = old then s else s.writeNat m.pa n (f old)
    return old

/-- A compare-and-swap: the value found. -/
def engCas (o : Op) (va : DWord) (n expect new : Nat) : Eng Nat :=
  engAtomic o va n true fun x => if x = expect then new else x

/-- Sets or clears a bit of a mask by an atomic OR or AND-NOT of its 32-bit word (R268). -/
def engBit (o : Op) (va : DWord) (c : Nat) (on : Bool) : Eng Unit := do
  let b := 2 ^ (c % 32)
  let _ ← engAtomic o (va + BitVec.ofNat 64 (c / 32 * 4)) 4 false fun x => if on then x ||| b else x - (x &&& b)

/-- The low n bytes of a number. -/
def numberBytes (n x : Nat) : List Byte := tabulate n fun i => BitVec.ofNat 8 (x / 256 ^ i)

/-! ## Descriptors (R272) -/

/-- Parses the 64 bytes of a tree descriptor; none where it breaks R272. -/
def Tree.ofBytes (addr : DWord) (bs : List Byte) : Option Tree :=
  let f := fun off n => blockField bs off n
  let w := f 8 4
  let t : Tree :=
    { addr := addr, root := BitVec.ofNat 64 (f 0 8), rootLog2 := w % 32, fmt := w / 256 % 4, bg := BitVec.ofNat 32 (f 12 4)
      nodePool := BitVec.ofNat 64 (f 16 8), nodeCap := f 24 4, leafPool := BitVec.ofNat 64 (f 32 8), leafCap := f 28 4 }
  let pool := fun (a : DWord) (cap : Nat) => canonical a && a.toNat % 128 == 0 && decide (2 ≤ cap ∧ cap ≤ 2 ^ 24)
  let ok := w / 32 % 8 == 0 && w / 1024 == 0 && t.fmt != 3 && decide (4 ≤ t.rootLog2 ∧ t.rootLog2 ≤ 24)
    && canonical t.root && t.root.toNat % 4096 == 0 && pool t.nodePool t.nodeCap && pool t.leafPool t.leafCap
    && (t.fmt == 0 || t.bg.toNat < 65536) && zeroBytes bs 56 8
  if ok then some t else none

/-- Bytes of a value. -/
def Tree.size (t : Tree) : Nat := if t.fmt = 0 then 4 else 2
/-- Bytes of a leaf slot (R271). -/
def Tree.leafSlot (t : Tree) : Nat := if t.fmt = 0 then 2176 else 1152
/-- The slot of a node (R270). -/
def Tree.nodeAt (t : Tree) (n : Nat) : DWord := t.nodePool + BitVec.ofNat 64 (2304 * n)
/-- The slot of a leaf (R271). -/
def Tree.leafAt (t : Tree) (n : Nat) : DWord := t.leafPool + BitVec.ofNat 64 (t.leafSlot * n)

/-- Reads a descriptor for an instruction through its core's control-block cache (R230, R275), behind the lanes' own reductions that
are still in flight (R219). -/
def State.readTree (s : State) (id : Nat) (c : Ctx) (va : DWord) : State × Except Trap Tree :=
  if va.toNat % 64 != 0 then (s, .error { Trap.of .misaligned with va := va })
  else if !canonical va then (s, .error (Trap.atAddr .protection va 0))
  else
    match s.translate id c va 0 with
    | (s, .error t) => (s, .error t)
    | (s, .ok m) =>
      match (s.settleReads id).controlBlock c.core m.pa 64 with
      | (s, none) =>
        let t : Trap := { Trap.of .poison with va := va }
        (s.laneRecord id t, .error t)
      | (s, some bs) =>
        match Tree.ofBytes va bs with
        | some t => (s, .ok t)
        | none => (s, .error { Trap.of .controlBlock with va := va })

/-! ## Coordinates (R268, R269) -/

/-- The child or voxel index at a shift. -/
def childIndex (x y z : Word) (sh : Nat) : Nat :=
  let d := fun a : Word => (a.sshiftRight sh).toNat % 8
  d x * 64 + d y * 8 + d z

/-- One axis of `KEY`. -/
def keyAxis (a : Word) : Nat := (a.sshiftRight 12).toNat % 2 ^ 20

/-- `KEY`. -/
def treeKey (x y z : Word) : Nat := keyAxis x * 2 ^ 40 + keyAxis y * 2 ^ 20 + keyAxis z

/-- The first probe of a key. -/
def treeHash (x y z : Word) : Nat :=
  keyAxis x * 0x9E3779B1 % 2 ^ 32 ^^^ keyAxis y * 0x7FEB352D % 2 ^ 32 ^^^ keyAxis z * 0x846CA68B % 2 ^ 32

/-- The coordinate with its low n bits clear. -/
def clearLow (a : Word) (n : Nat) : Word := a &&& ~~~(BitVec.ofNat 32 (2 ^ n - 1))

/-- The address of the i-th probe of a key. -/
def Tree.probe (t : Tree) (x y z : Word) (i : Nat) : DWord :=
  t.root + BitVec.ofNat 64 (16 * ((treeHash x y z + i) % 2 ^ t.rootLog2))

/-! ## find_leaf (R269) -/

/-- A root entry: word 0 and `NODE`. -/
def engEntry (o : Op) (va : DWord) : Eng (Nat × Nat) := do
  let e ← engRead o va 16
  return (e % 2 ^ 64, e / 2 ^ 64 % 2 ^ 32)

/-- `VALID` of a root entry's word 0. -/
def entryValid (w : Nat) : Bool := w / 2 ^ 63 % 2 == 1
/-- `BUSY`. -/
def entryBusy (w : Nat) : Bool := w / 2 ^ 62 % 2 == 1
/-- `KEY`. -/
def entryKey (w : Nat) : Nat := w % 2 ^ 60

/-- An index at or above its pool's capacity is `CONTROL_BLOCK` (R271, R276). -/
def engIndex (n cap : Nat) : Eng Unit := if cap ≤ n then throw (Trap.of .controlBlock) else pure ()

/-- The level-3 node of a key, or 0: `fuel` probes from the i-th on. -/
def engRoot (o : Op) (t : Tree) (x y z : Word) : Nat → Nat → Eng Nat
  | 0, _ => pure 0
  | fuel + 1, i => do
    let e ← engEntry o (t.probe x y z i)
    if !entryValid e.1 then return 0
    else if entryKey e.1 = treeKey x y z then return if entryBusy e.1 then 0 else e.2
    else engRoot o t x y z fuel (i + 1)

/-- `CHILD` c of a node. -/
def engChild (o : Op) (t : Tree) (n c : Nat) : Eng Nat := do
  engIndex n t.nodeCap
  engRead o (t.nodeAt n + BitVec.ofNat 64 (256 + 4 * c)) 4

/-- The nodes of levels 3, 2 and 1 on the way to a voxel and its leaf; none where the leaf is absent. -/
def engPath (o : Op) (t : Tree) (x y z : Word) : Eng (Option (Nat × Nat × Nat × Nat)) := do
  let n3 ← engRoot o t x y z 32 0
  if n3 = 0 then return none
  let n2 ← engChild o t n3 (childIndex x y z 9)
  if n2 = 0 then return none
  let n1 ← engChild o t n2 (childIndex x y z 6)
  if n1 = 0 then return none
  let leaf ← engChild o t n1 (childIndex x y z 3)
  if leaf = 0 then return none
  engIndex leaf t.leafCap
  return some (n3, n2, n1, leaf)

/-- The origin of the leaf of a voxel. -/
def leafOrigin (x y z : Word) : List Word := [clearLow x 3, clearLow y 3, clearLow z 3]

/-- The order bits of a leaf-cache set once a way has been used: bit 0 names the half, and bits 1 and 2 the way of each half,
that is to be replaced next (log entry 78). -/
def leafUsed (b : BitVec 3) (way : Nat) : BitVec 3 :=
  if way < 2 then (b ||| 1#3) &&& 5#3 ||| (if way = 0 then 2#3 else 0#3)
  else b &&& 2#3 ||| (if way = 2 then 4#3 else 0#3)

/-- The way to be replaced. -/
def leafVictim (b : BitVec 3) : Nat :=
  if b.getLsbD 0 then (if b.getLsbD 2 then 3 else 2) else (if b.getLsbD 1 then 1 else 0)

/-- A leaf-cache entry has been used. -/
def Core.useLeaf (k : Core) (set way : Nat) : Core :=
  { k with leafOrder := k.leafOrder.put 0 set (leafUsed (k.leafOrder.at 0 set) way) }

/-- A leaf-cache entry is filled: in the first free way of its set, or in the one to be replaced. -/
def Core.fillLeaf (k : Core) (set asroot : Nat) (addr : DWord) (origin : List Word) (leaf : Nat) : Core :=
  let here := k.leafCache.filter fun e => e.set == set
  let way := ((List.range 4).find? fun w => here.all fun e => e.way != w).getD (leafVictim (k.leafOrder.at 0 set))
  { k with
    leafCache := ⟨set, way, asroot, addr, origin, leaf⟩ :: k.leafCache.filter fun e => e.set != set || e.way != way
    : Core }.useLeaf set way

/-- `find_leaf` through the core's leaf cache (R277), which holds 256 entries in 64 sets of 4: the leaf's index or 0. -/
def engLeaf (o : Op) (t : Tree) (x y z : Word) : Eng Nat := do
  let space ← engGet fun s => s.asroot o.graph
  let org := leafOrigin x y z
  let hit ← engGet fun s => (s.core o.core).leafCache.find? fun e =>
    e.asroot == space && e.addr == t.addr && e.origin == org
  match hit with
  | some e =>
    engDo fun s => s.modCore o.core fun k => k.useLeaf e.set e.way
    return e.leaf
  | none =>
    match ← engPath o t x y z with
    | none => return 0
    | some p =>
      engDo fun s => s.modCore o.core fun k => k.fillLeaf (Config.leafSet t.addr org % 64) space t.addr org p.2.2.2
      return p.2.2.2

/-- A value of the tree's format as FP32 (R276): exact, a NaN's fraction in the top bits. -/
def Tree.widen (t : Tree) (x : Nat) : Nat :=
  match t.fmt with
  | 0 => x
  | 1 => x * 65536
  | _ =>
    let f := Ty.f16.fmt
    match f.value false x with
    | .nan n _ => Ty.f32.fmt.signed n (Ty.f32.fmt.infPattern + x % 2 ^ 10 * 2 ^ 13)
    | .inf n => Ty.f32.fmt.signed n Ty.f32.fmt.infPattern
    | .fin n m e => (Ty.f32.fmt.roundInt ⟨.rne, false⟩ (scaled n m 0 0) e n).1

/-- The value of a voxel, and its `ACTIVE` bit where it is asked for (R279). -/
def engVoxel (o : Op) (t : Tree) (x y z : Word) (want : Bool) : Eng (Nat × Bool) := do
  let leaf ← engLeaf o t x y z
  if leaf = 0 then return (t.widen t.bg.toNat, false)
  let v := childIndex x y z 0
  let value ← engRead o (t.leafAt leaf + BitVec.ofNat 64 (128 + t.size * v)) t.size
  if !want then return (t.widen value, false)
  let b ← engRead o (t.leafAt leaf + BitVec.ofNat 64 (16 + v / 8)) 1
  return (t.widen value, b / 2 ^ (v % 8) % 2 == 1)

/-! ## The free lists (R283) -/

/-- The address of a free list: of leaves or of nodes (R272). -/
def Tree.freeList (t : Tree) (leaf : Bool) : DWord := t.addr + (if leaf then 48#64 else 40#64)
/-- A slot of the leaf or the node pool. -/
def Tree.slotAt (t : Tree) (leaf : Bool) (n : Nat) : DWord := if leaf then t.leafAt n else t.nodeAt n

/-- Takes a slot; 0 where none is free. The loop at the list's home slice is performed as one operation. -/
def engTake (o : Op) (t : Tree) (leaf : Bool) : Eng Nat := do
  let h ← engAtomic o (t.freeList leaf) 8 true id
  let n := h % 2 ^ 32
  if n = 0 then return 0
  engIndex n (if leaf then t.leafCap else t.nodeCap)
  let next ← engRead o (t.slotAt leaf n) 4
  let _ ← engCas o (t.freeList leaf) 8 h ((h / 2 ^ 32 + 1) % 2 ^ 32 * 2 ^ 32 + next)
  return n

/-- Returns a slot after a lost race, as one operation at the list's home slice too. -/
def engReturn (o : Op) (t : Tree) (leaf : Bool) (n : Nat) : Eng Unit := do
  let h ← engAtomic o (t.freeList leaf) 8 true id
  engWrite o (t.slotAt leaf n) (numberBytes 4 (h % 2 ^ 32))
  let _ ← engCas o (t.freeList leaf) 8 h ((h / 2 ^ 32 + 1) % 2 ^ 32 * 2 ^ 32 + n)

/-- The header of a node or a leaf: `ORG` and `LEVEL`. -/
def slotHeader (x y z : Word) (level : Nat) : List Byte :=
  numberBytes 4 x.toNat ++ numberBytes 4 y.toNat ++ numberBytes 4 z.toNat ++ numberBytes 1 level

/-- Builds a node, all else 0 (R284). -/
def engBuildNode (o : Op) (t : Tree) (n level : Nat) (x y z : Word) : Eng Unit :=
  let low := 3 * (level + 1)
  let h := slotHeader (clearLow x low) (clearLow y low) (clearLow z low) level
  engWrite o (t.nodeAt n) (h ++ List.replicate (2304 - h.length) 0)

/-- Builds a leaf: nothing active, `BG` in every value (R284). -/
def engBuildLeaf (o : Op) (t : Tree) (n : Nat) (x y z : Word) : Eng Unit :=
  let h := slotHeader (clearLow x 3) (clearLow y 3) (clearLow z 3) 0
  engWrite o (t.leafAt n)
    (h ++ List.replicate (128 - h.length) 0 ++ (List.replicate 512 (numberBytes t.size t.bg.toNat)).flatten)

/-! ## Insertion (R284) -/

/-- How one part of an insertion ends: at a root entry that must be read again, with a slot that is built and has still to be
made a child, with a status, or with an index. -/
inductive Inserted where
  | busy
  | holds (h : Held)
  | failed (status : Nat)
  | found (n : Nat) (made : Bool)
deriving DecidableEq, Repr

/-- The level-3 node is built under a won claim, and `BUSY` is cleared, even where a cause is met (log entry 19). -/
def engClaimed (o : Op) (t : Tree) (va : DWord) (x y z : Word) : Eng Inserted := do
  let clear : Eng Unit := do
    let _ ← engAtomic o va 8 false fun w => w - (w &&& 2 ^ 62)
  let build : Eng Nat := do
    let n ← engTake o t false
    if n ≠ 0 then
      engBuildNode o t n 3 x y z
      engWrite o (va + 8) (numberBytes 4 n)
    return n
  let n ← tryCatch build fun c => do clear; throw c
  clear
  return if n = 0 then .failed 2 else .found n true

/-- Claims or finds the root entry of a key: `fuel` probes from the i-th on. -/
def engClaim (o : Op) (t : Tree) (x y z : Word) : Nat → Nat → Eng Inserted
  | 0, _ => return .failed 4
  | fuel + 1, i => do
    let va := t.probe x y z i
    let key := treeKey x y z
    let e ← engEntry o va
    let claim := fun old : Nat => do
      let found ← engCas o va 8 old (2 ^ 63 + 2 ^ 62 + key)
      if found = old then engClaimed o t va x y z else return .busy
    if !entryValid e.1 then claim 0
    else if entryKey e.1 ≠ key then engClaim o t x y z fuel (i + 1)
    else if entryBusy e.1 then return .busy
    else if e.2 = 0 then claim (2 ^ 63 + key)
    else return .found e.2 false

/-- The child of a node on the way to a voxel; where it is absent a slot is taken and built. `level` is the child's. -/
def engStep (o : Op) (t : Tree) (n level : Nat) (x y z : Word) : Eng Inserted := do
  let leaf := level == 0
  let ch ← engChild o t n (childIndex x y z (3 * (level + 1)))
  if ch ≠ 0 then return .found ch false
  let new ← engTake o t leaf
  if new = 0 then return .failed (if leaf then 3 else 2)
  if leaf then engBuildLeaf o t new x y z else engBuildNode o t new level x y z
  return .holds ⟨level, n, new⟩

/-- The slot that an insertion holds is made a child, or, where another inserter was first, is returned: the child. -/
def engLink (o : Op) (t : Tree) (h : Held) (x y z : Word) : Eng Inserted := do
  let c := childIndex x y z (3 * (h.level + 1))
  let found ← engCas o (t.nodeAt h.node + BitVec.ofNat 64 (256 + 4 * c)) 4 0 h.slot
  if found = 0 then
    engBit o (t.nodeAt h.node + 16) c true
    return .found h.slot true
  else
    engReturn o t (h.level == 0) h.slot
    return .found found false

/-- The levels below a node. -/
def engDescend (o : Op) (t : Tree) (x y z : Word) : List Nat → Nat → Bool → Eng Inserted
  | [], n, made => do
    engIndex n t.leafCap
    return .found n made
  | level :: rest, n, _ => do
    match ← engStep o t n level x y z with
    | .found ch made => engDescend o t x y z rest ch made
    | r => return r

/-- The next part of the insertion of the leaf of a voxel: its index and whether it was made, a status, `busy`, or a slot that
the insertion now holds. -/
def engInsert (o : Op) (t : Tree) (held : Option Held) (x y z : Word) : Eng Inserted := do
  match held with
  | some h =>
    match ← engLink o t h x y z with
    | .found ch made => engDescend o t x y z ([1, 0].drop (2 - h.level)) ch made
    | r => return r
  | none =>
    match ← engClaim o t x y z 32 0 with
    | .found n3 _ => engDescend o t x y z [2, 1, 0] n3 false
    | r => return r

/-! ## Activity (R286) -/

/-- The 64 bytes of a mask. -/
def engMask (o : Op) (va : DWord) : Eng Nat := engRead o va 64

/-- `.trim` along the levels: each step has the child's mask, the parent's `ACTMASK` and the child's index. -/
def engTrim (o : Op) : List (DWord × DWord × Nat) → Eng Unit
  | [] => pure ()
  | (child, parent, c) :: rest => do
    if (← engMask o child) ≠ 0 then return
    engBit o parent c false
    if (← engMask o child) ≠ 0 then engBit o parent c true
    engTrim o rest

/-- Changes the activity of a voxel (R286): mode 0 sets, 1 clears, 2 trims; whether the leaf is present. -/
def engActivity (o : Op) (t : Tree) (mode : Nat) (x y z : Word) : Eng Bool := do
  match ← engPath o t x y z with
  | none => return false
  | some (n3, n2, n1, leaf) =>
    let active := t.leafAt leaf + 16
    let act := fun n : Nat => t.nodeAt n + 80
    let v := childIndex x y z 0
    let up := [(act n1, childIndex x y z 3), (act n2, childIndex x y z 6), (act n3, childIndex x y z 9)]
    match mode with
    | 0 =>
      engBit o active v true
      up.forM fun e => engBit o e.1 e.2 true
    | 1 => engBit o active v false
    | _ =>
      engTrim o [(active, act n1, childIndex x y z 3), (act n1, act n2, childIndex x y z 6),
        (act n2, act n3, childIndex x y z 9)]
    return true

/-- A lane's coordinates. -/
def coordOf (ws : List Word) (i : Nat) : Word := ws.getD i 0

end Sys2Proof.Machine
end

