-- ==== Sys2Proof/Machine/March.lean ====
section
/-! DEFINITION. Sampling (R281) and the ray march (R282) of the tree walker. -/

namespace Sys2Proof

/-! ## FP32 of the walker -/

/-- FP32. -/
def walkFmt : Fmt := Ty.f32.fmt
/-- RNE, subnormals honoured. -/
def walkEnv : FpEnv := ⟨.rne, false⟩
/-- a ≤ b, false where one is a NaN. -/
def walkLe (a b : Nat) : Bool := (walkFmt.compare false 3 a b).1
/-- a < b, false where one is a NaN. -/
def walkLt (a b : Nat) : Bool := (walkFmt.compare false 2 a b).1
/-- The greater of two values. -/
def walkMax (a b : Nat) : Nat := (walkFmt.minMax false true a b).1
/-- The lesser of two values. -/
def walkMin (a b : Nat) : Nat := (walkFmt.minMax false false a b).1
/-- An integer as FP32, RNE. -/
def walkInt (i : Int) : Nat := (walkFmt.roundInt walkEnv i 0 false).1
/-- −∞. -/
def walkNegInf : Nat := 0xFF800000
/-- +∞. -/
def walkPosInf : Nat := 0x7F800000

/-- The floor of a finite pattern, read exactly. -/
def walkFloor (x : Nat) : Int :=
  match walkFmt.value false x with
  | .fin n m e =>
    let v := scaled n m 0 0
    if 0 ≤ e then v * 2 ^ e.toNat else v / 2 ^ (-e).toNat
  | _ => 0

/-- q − i for i the floor of q, exactly: it may need more bits than FP32 has. -/
def walkFraction (q : Nat) (i : Int) : FVal :=
  match walkFmt.value false q with
  | .fin n m e =>
    let low := min e 0
    .fin false (scaled n m e low - i * 2 ^ (-low).toNat).toNat low
  | v => v

/-- The pattern is finite. -/
def walkFinite (x : Nat) : Bool := x / 2 ^ 23 % 256 != 255

/-- The integer is a coordinate that `vsamp` accepts (R281). -/
def walkInRange (i : Int) : Bool := decide (-(2 ^ 31) ≤ i ∧ i ≤ 2 ^ 31 - 2)

/-- `fma` of an exact first factor (R281, R83). -/
def walkFma (env : FpEnv) (w : FVal) (b c : Nat) : Nat × Flags :=
  let product := w.times (walkFmt.value env.ftz b)
  match walkFmt.nanOf [b, c] with
  | some (x, fl) => (x, fl ||| flagIf (product.isNone && !walkFmt.isNan b) flagIV)
  | none =>
    match product with
    | none => walkFmt.invalid
    | some p => walkFmt.sum env p (walkFmt.value env.ftz c)

/-- `lerp` (R281). -/
def walkLerp (env : FpEnv) (a b : Nat) (w : FVal) : Nat × Flags :=
  let d := walkFmt.sub env b a
  let r := walkFma env w d.1 a
  (r.1, d.2 ||| r.2)

/-- What `vsamp` finds of its position: a cell with its fractions, or a NaN; the flags of the axes before it are kept. A coordinate that is
not finite is only tested: a signalling NaN among them raises no `IV` (the model's choice, log entry 154). -/
def samplePosition (env : FpEnv) (near : Bool) : List Nat → List (Int × FVal) → Flags → Option (List (Int × FVal)) × Flags
  | [], done, fl => (some done, fl)
  | p :: rest, done, fl =>
    if !walkFinite p then (none, fl)
    else
      let q := if near then (p, 0) else walkFmt.sub env p 0x3F000000
      let i := walkFloor q.1
      if !walkInRange i then (none, fl ||| q.2)
      else samplePosition env near rest (done ++ [(i, walkFraction q.1 i)]) (fl ||| q.2)

/-- The blend of the eight corners of a cell, x fastest last: corner (dx, dy, dz) stands at 4·dx + 2·dy + dz. -/
def blend (env : FpEnv) (c : List Nat) (f : List FVal) : Nat × Flags :=
  let at_ := fun i : Nat => c.getD i 0
  let w := fun i : Nat => f.getD i (.fin false 0 0)
  let e := fun dyz : Nat => walkLerp env (at_ dyz) (at_ (4 + dyz)) (w 0)
  let e00 := e 0; let e01 := e 1; let e10 := e 2; let e11 := e 3
  let g0 := walkLerp env e00.1 e10.1 (w 1)
  let g1 := walkLerp env e01.1 e11.1 (w 1)
  let r := walkLerp env g0.1 g1.1 (w 2)
  (r.1, e00.2 ||| e01.2 ||| e10.2 ||| e11.2 ||| g0.2 ||| g1.2 ||| r.2)

/-! ## Slabs (R282) -/

/-- One axis of a ray: origin and direction. -/
structure Axis where
  o : Nat
  d : Nat
deriving DecidableEq, Repr

/-- The direction is ±0. -/
def Axis.still (a : Axis) : Bool := a.d % 2 ^ 31 == 0

/-- The slab of the box [i, i + e) on an axis; none where it is not met. -/
def Axis.slab (a : Axis) (i e : Int) : Option (Nat × Nat) :=
  if a.still then
    let inside := match walkFmt.value false a.o with
      | .fin n m x =>
        let low := min x 0
        let v := scaled n m x low
        decide (i * 2 ^ (-low).toNat ≤ v) && decide (v < (i + e) * 2 ^ (-low).toNat)
      | _ => false
    if inside then some (walkNegInf, walkPosInf) else none
  else
    let w := (walkFmt.rcp false a.d).1
    let t := fun i : Int => (walkFmt.mul walkEnv (walkFmt.sub walkEnv (walkInt i) a.o).1 w).1
    let ta := t i
    let tb := t (i + e)
    some (walkMin ta tb, walkMax ta tb)

/-- A ray. -/
structure Ray where
  x : Axis
  y : Axis
  z : Axis
  tmin : Nat
  tmax : Nat
deriving DecidableEq, Repr

/-- A box's origin. -/
structure Cell where
  x : Int
  y : Int
  z : Int
deriving DecidableEq, Repr

/-- tin and tout of a box of edge e that the ray meets. -/
def Ray.meets (r : Ray) (c : Cell) (e : Int) : Option (Nat × Nat) :=
  match r.x.slab c.x e, r.y.slab c.y e, r.z.slab c.z e with
  | some a, some b, some d =>
    let tin := walkMax (walkMax a.1 b.1) d.1
    let tout := walkMin (walkMin a.2 b.2) d.2
    let clean := walkLe a.1 a.2 && walkLe b.1 b.2 && walkLe d.1 d.2
    if clean && walkLe tin tout && walkLe r.tmin tout && walkLe tin r.tmax then some (tin, tout) else none
  | _, _, _ => none

/-- The place of a box in the order of the march: max(tin, tmin). -/
def Ray.key (r : Ray) (tin : Nat) : Nat := walkMax tin r.tmin

/-- The least (x, y, z) in signed lexicographic order. -/
def Cell.before (a b : Cell) : Bool :=
  if a.x != b.x then decide (a.x < b.x) else if a.y != b.y then decide (a.y < b.y) else decide (a.z < b.z)

/-- An active cell that the ray meets. -/
structure Hit where
  key : Nat
  tout : Nat
  cell : Cell
deriving DecidableEq, Repr

/-- The better of the best hit so far and another. -/
def Hit.better (best : Option Hit) (h : Hit) : Option Hit :=
  match best with
  | none => some h
  | some b => if walkLt h.key b.key || (walkLe h.key b.key && h.cell.before b.cell) then some h else some b

/-- A box of this key may still hold a better hit. -/
def mayBeat (best : Option Hit) (key : Nat) : Bool :=
  match best with
  | none => true
  | some b => walkLe key b.key

/-- The origin of child c of a box, of edge `e`. -/
def Cell.child (o : Cell) (c : Nat) (e : Int) : Cell :=
  ⟨o.x + e * (c / 64 : Nat), o.y + e * (c / 8 % 8 : Nat), o.z + e * (c % 8 : Nat)⟩

/-- Files a box by its key, behind those of the same key. -/
def fileByKey (e : Nat × Nat) : List (Nat × Nat) → List (Nat × Nat)
  | [] => [e]
  | d :: ds => if walkLt e.1 d.1 then e :: d :: ds else d :: fileByKey e ds

/-- The children of a mask that the ray meets, by rising key. -/
def Ray.children (r : Ray) (o : Cell) (e : Int) (mask : Nat) : List (Nat × Nat) :=
  (List.range 512).foldl (fun l c =>
    if mask / 2 ^ c % 2 = 0 then l
    else
      match r.meets (o.child c e) e with
      | none => l
      | some t => fileByKey (r.key t.1, c) l) []

/-- The best of a leaf's active voxels. -/
def Ray.voxels (r : Ray) (o : Cell) (mask : Nat) (best : Option Hit) : Option Hit :=
  (List.range 512).foldl (fun best c =>
    if mask / 2 ^ c % 2 = 0 then best
    else
      match r.meets (o.child c 1) 1 with
      | none => best
      | some t => Hit.better best ⟨r.key t.1, t.2, o.child c 1⟩) best

/-! ## The level-3 regions in their order (R282)

Region number j of an axis covers [4096·j, 4096·j + 4096), j from −2^19 up. Rounding keeps the order of slab bounds along an
axis, so the regions whose slab holds a given t are consecutive, and neighbours share the bound between them. -/

/-- The direction runs towards greater coordinates. -/
def Axis.up (a : Axis) : Bool := decide (a.d < 2 ^ 31)

/-- The k-th region along the direction. -/
def Axis.region (a : Axis) (k : Nat) : Int := if a.up then (k : Int) - 2 ^ 19 else 2 ^ 19 - 1 - (k : Int)

/-- The slab of the k-th region along the direction. -/
def Axis.regionSlab (a : Axis) (k : Nat) : Option (Nat × Nat) := a.slab (4096 * a.region k) 4096

/-- How many of the first 2^20 numbers pass a test that holds of a beginning of them. -/
def countWhile (p : Nat → Bool) : Nat → Nat → Nat
  | 0, n => if p n then n + 1 else n
  | bit + 1, n => if p (n + 2 ^ bit - 1) then countWhile p bit (n + 2 ^ bit) else countWhile p bit n

/-- The number of regions along the direction that pass a test of their slab; 2^20 is all. -/
def Axis.regionsWhile (a : Axis) (p : Nat × Nat → Bool) : Nat :=
  Nat.min (2 ^ 20) (countWhile (fun k => decide (k < 2 ^ 20) && ((a.regionSlab k).map p).getD false) 20 0)

/-- The regions along the direction whose slab holds t: from the first on, how many. For a still axis, the region of the
origin. -/
def Axis.holding (a : Axis) (t : Nat) : Nat × Nat :=
  if a.still then
    let j := walkFloor a.o / 4096
    if walkFinite a.o && decide (-(2 ^ 19) ≤ j ∧ j < 2 ^ 19) then ((if a.up then j + 2 ^ 19 else 2 ^ 19 - 1 - j).toNat, 1)
    else (0, 0)
  else
    let first := a.regionsWhile fun s => walkLt s.2 t
    let last := a.regionsWhile fun s => walkLe s.1 t
    (first, last - first)

/-- The least slab lower bound of an axis beyond t. -/
def Axis.nextBound (a : Axis) (t : Nat) : Option Nat :=
  if a.still then none
  else
    let k := a.regionsWhile fun s => walkLe s.1 t
    if 2 ^ 20 ≤ k then none else ((a.regionSlab k).map Prod.fst).filter fun x => walkLt t x

/-- The first t at which every axis has a region: the greatest of tmin and the first bounds. -/
def Ray.start (r : Ray) : Nat :=
  [r.x, r.y, r.z].foldl (fun t a => if a.still then t else walkMax t (((a.regionSlab 0).map Prod.fst).getD t)) r.tmin

/-- The least bound beyond t of any axis. -/
def Ray.next (r : Ray) (t : Nat) : Option Nat :=
  [r.x, r.y, r.z].foldl (fun best a =>
    match best, a.nextBound t with
    | none, b => b
    | some x, some y => some (if walkLt y x then y else x)
    | some x, none => some x) none

/-- The interval of region numbers of an axis, the least first. -/
def Axis.interval (a : Axis) (t : Nat) : Int × Nat :=
  let h := a.holding t
  if h.2 = 0 then (0, 0) else (if a.up then a.region h.1 else a.region (h.1 + h.2 - 1), h.2)

/-- The place of the march: the key t, the key before it, the three intervals and the place among their product. -/
structure Sweep where
  t : Nat
  prev : Option Nat
  xs : Int × Nat
  ys : Int × Nat
  zs : Int × Nat
  at_ : Nat
deriving DecidableEq, Repr

/-- The sweep at a key; none where some axis has no region there, or the key is beyond tmax. -/
def Ray.sweepAt (r : Ray) (t : Nat) (prev : Option Nat) : Option Sweep :=
  let s : Sweep := { t := t, prev := prev, xs := r.x.interval t, ys := r.y.interval t, zs := r.z.interval t, at_ := 0 }
  if s.xs.2 = 0 || s.ys.2 = 0 || s.zs.2 = 0 || !walkLe t r.tmax then none else some s

/-- The region at the place of a sweep, in lexicographic order; none past the last. -/
def Sweep.region (s : Sweep) : Option Cell :=
  if s.at_ < s.xs.2 * s.ys.2 * s.zs.2 then
    some ⟨4096 * (s.xs.1 + (s.at_ / (s.ys.2 * s.zs.2) : Nat)), 4096 * (s.ys.1 + (s.at_ / s.zs.2 % s.ys.2 : Nat)),
      4096 * (s.zs.1 + (s.at_ % s.zs.2 : Nat))⟩
  else none

/-- The region was met at an earlier key. -/
def Ray.metBefore (r : Ray) (s : Sweep) (c : Cell) : Bool :=
  match s.prev, r.meets c 4096 with
  | some p, some t => walkLe (r.key t.1) p
  | _, _ => false

namespace Machine

/-! ## The march -/

/-- A coordinate as a word. -/
def cellWords (c : Cell) : Word × Word × Word := (BitVec.ofInt 32 c.x, BitVec.ofInt 32 c.y, BitVec.ofInt 32 c.z)

/-- The children of a node of a level, in the order of their keys. -/
def engVisit (o : Op) (t : Tree) (r : Ray) : Nat → Nat → Cell → Option Hit → Eng (Option Hit)
  | 0, leaf, org, best => do
    engIndex leaf t.leafCap
    let active ← engMask o (t.leafAt leaf + 16)
    return r.voxels org active best
  | level + 1, n, org, best => do
    engIndex n t.nodeCap
    let e : Int := 8 * 8 ^ level
    let mask ← engMask o (t.nodeAt n + 80)
    (r.children org e mask).foldlM (fun best kc => do
      if !mayBeat best kc.1 then return best
      else
        let ch ← engChild o t n kc.2
        if ch = 0 then return best else engVisit o t r level ch (org.child kc.2 e) best) best

/-- One level-3 region. -/
def engRegion (o : Op) (t : Tree) (r : Ray) (c : Cell) (best : Option Hit) : Eng (Option Hit) := do
  let w := cellWords c
  let n ← engRoot o t w.1 w.2.1 w.2.2 32 0
  if n = 0 then return best else engVisit o t r 3 n c best

/-- The six words of `vmarch`. -/
def marchWords (r : Ray) (best : Option Hit) (stopped : Option Nat) : List Word :=
  let w := fun n : Nat => BitVec.ofNat 32 n
  match stopped, best with
  | some t, _ => [w t, 0, 0, 0, 0, 2]
  | none, some h =>
    let c := cellWords h.cell
    [w h.key, w (walkMin h.tout r.tmax), c.1, c.2.1, c.2.2, 0]
  | none, none => [w walkPosInf, 0, 0, 0, 0, 1]

/-- The march from a sweep on, with the number of regions met: it ends at a hit that no later region can beat, or behind the
last region. From the 65,537th on it stops where there is no hit yet, or where a region holds a better one, with the entry of the
65,537th, `edge`, as its result (R282, log entry 128). -/
def engMarch (o : Op) (t : Tree) (r : Ray) : Nat → Sweep → Nat → Option Nat → Option Hit → Eng (List Word)
  | 0, _, _, _, best => return marchWords r best none
  | fuel + 1, s, met, edge, best => do
    match s.region with
    | none =>
      match (r.next s.t).bind fun n => r.sweepAt n (some s.t) with
      | none => return marchWords r best none
      | some s => engMarch o t r fuel s met edge best
    | some c =>
      if r.metBefore s c || (r.meets c 4096).isNone then engMarch o t r fuel { s with at_ := s.at_ + 1 } met edge best
      else if !mayBeat best s.t then return marchWords r best none
      else
        let edge := if met = 65536 then some s.t else edge
        if edge.isSome && best.isNone then return marchWords r best edge
        else
          let found ← engRegion o t r c best
          if edge.isSome && found != best then return marchWords r best edge
          else engMarch o t r fuel { s with at_ := s.at_ + 1 } (met + 1) edge found

/-- `vmarch` of one lane (R282). -/
def engRay (o : Op) (t : Tree) (ws : List Word) : Eng (List Word) := do
  let a := fun i : Nat => (ws.getD i 0).toNat
  let r : Ray := ⟨⟨a 0, a 3⟩, ⟨a 1, a 4⟩, ⟨a 2, a 5⟩, a 6, a 7⟩
  if (List.range 8).any (fun i => walkFmt.isNan (a i)) || walkLt r.tmax r.tmin then return marchWords r none none
  match r.sweepAt r.start none with
  | none => return marchWords r none none
  | some s => engMarch o t r (2 ^ 64) s 0 none none

/-! ## Sampling (R281) -/

/-- `vsamp` of one lane: the value and its flags. -/
def engSample (o : Op) (t : Tree) (near : Bool) (fpctl : Word) (ws : List Word) : Eng (Nat × Flags) := do
  let env : FpEnv := ⟨.rne, bitOf fpctl 3⟩
  let p := samplePosition env near ((ws.take 3).map fun w : Word => w.toNat) [] 0
  match p.1 with
  | none => return (walkFmt.nan, p.2)
  | some cs =>
    let at_ := fun i : Nat => cs.getD i (0, .fin false 0 0)
    let word := fun i d : Nat => BitVec.ofInt 32 ((at_ i).1 + (d : Int))
    let voxel := fun d : Nat => engVoxel o t (word 0 (d / 4)) (word 1 (d / 2 % 2)) (word 2 (d % 2)) false
    if near then
      let v ← voxel 0
      return (v.1, p.2)
    else
      let vs ← (List.range 8).mapM voxel
      let r := blend env (vs.map Prod.fst) (cs.map Prod.snd)
      return (r.1, p.2 ||| r.2)

end Machine

end Sys2Proof
end

