-- ==== Sys2Proof/Machine/Walkers.lean ====
section
/-! DEFINITION. The tree walker's instructions (R275 to R282), insertion by the allocator engine (R284) and activity (R286). -/

namespace Sys2Proof.Machine

/-! ## Binding (R275) -/

/-- R275: the descriptor's version is read, checked and bound; after a trap the slot is unchanged. -/
def execVtset (f : XT) (s : State) : Host.Outcome State Fault Refusal :=
  let form := formVtset f
  issue form f.h.bytes (fun is s =>
    match s.readTree is.id is.c (form.arg is.c 1 0) with
    | (s, .error t) => .trap s t
    | (s, .ok t) => .done (s.modCtx is.id fun c => { c with slots := c.slots.ins f.h.dst.toNat t })) s

/-! ## Walker operations at issue (R276) -/

/-- The acting lanes, each with its block of `n` registers from `SRC1`. -/
def coordLanes (f : XT) (is : Issue) (n : Nat) : List (Nat × List Word) :=
  (lanesOf is.acting).map fun l => (l, tabulate n fun i => is.c.vreg (f.h.src1.toNat + i) l)

/-- An instruction on the tree of its slot: an unbound slot takes `CONTROL_BLOCK`, and the issue writes back (R227). -/
def withTree (f : XT) (form : Form) (act : Issue → Tree → State → Res) (s : State) : Host.Outcome State Fault Refusal :=
  issue form f.h.bytes (fun is s =>
    match is.c.slots.look f.slot with
    | none => .trap s (Trap.of .controlBlock)
    | some t => act is t (s.writeBack is.id)) s

/-- Starts a walker operation of a kind and pattern with `n` registers in each lane. -/
def startWalk (f : XT) (form : Form) (kind pat n : Nat) (s : State) : Host.Outcome State Fault Refusal :=
  withTree f form (fun is t s =>
    let w : Walk :=
      { kind := kind, pat := pat, dst := f.h.dst.toNat, apred := f.apred, tree := t, fpctl := is.c.special.fpctl
        lanes := coordLanes f is n }
    let s := s.modCtx is.id fun c => c.emptyLocs (form.dst.locs is.acting)
    if f.apred = 0 then .done (s.addOp (is.op s (.walk w))) else .doneWait (s.addOp (is.op s (.walk w))) (.op s.nextId)) s

/-- R279. -/
def execVlook (f : XT) (s : State) : Host.Outcome State Fault Refusal :=
  startWalk f (formWalk f 1 3 f.immSlotPred) 0 0 3 s
/-- R280. -/
def execVstencil (f : XT) (s : State) : Host.Outcome State Fault Refusal := startWalk f (formVstencil f) 1 f.sub 3 s
/-- R281. -/
def execVsampTri (f : XT) (s : State) : Host.Outcome State Fault Refusal := startWalk f (formVsamp f 0) 2 0 3 s
/-- R281. -/
def execVsampNear (f : XT) (s : State) : Host.Outcome State Fault Refusal := startWalk f (formVsamp f 1) 3 0 3 s
/-- R282. -/
def execVmarch (f : XT) (s : State) : Host.Outcome State Fault Refusal := startWalk f (formWalk f 6 8 f.immSlot) 4 0 8 s

/-! ## A lane of a walker operation -/

/-- The offsets of the stencil, in the order of its registers (R280). -/
def stencilOffsets : List (Int × Int × Int) :=
  [(0, 0, 0), (-1, 0, 0), (1, 0, 0), (0, -1, 0), (0, 1, 0), (0, 0, -1), (0, 0, 1),
    (-1, -1, 0), (-1, 0, -1), (-1, 0, 1), (-1, 1, 0), (0, -1, -1), (0, -1, 1), (0, 1, -1), (0, 1, 1), (1, -1, 0), (1, 0, -1),
    (1, 0, 1), (1, 1, 0),
    (-1, -1, -1), (-1, -1, 1), (-1, 1, -1), (-1, 1, 1), (1, -1, -1), (1, -1, 1), (1, 1, -1), (1, 1, 1)]

/-- The voxels of a stencil around a centre: their values, and the centre's activity. -/
def engStencil (o : Op) (t : Tree) (pat : Nat) (want : Bool) (ws : List Word) : Eng (List Word × Bool) := do
  let at_ := fun (i : Nat) (d : Int) => coordOf ws i + BitVec.ofInt 32 d
  let vs ← (stencilOffsets.take (stencilSize pat)).mapM fun d =>
    engVoxel o t (at_ 0 d.1) (at_ 1 d.2.1) (at_ 2 d.2.2) (want && d == (0, 0, 0))
  return (vs.map fun v => BitVec.ofNat 32 v.1, (vs.headD (0, false)).2)

/-- What a walker operation finds in a lane: its words, the bit of `APRED`, its flags. -/
def engWalk (o : Op) (w : Walk) (ws : List Word) : Eng (List Word × Bool × Flags) := do
  match w.kind with
  | 0 =>
    let v ← engVoxel o w.tree (coordOf ws 0) (coordOf ws 1) (coordOf ws 2) (w.apred != 0)
    return ([BitVec.ofNat 32 v.1], v.2, 0)
  | 1 =>
    let r ← engStencil o w.tree w.pat (w.apred != 0) ws
    return (r.1, r.2, 0)
  | 4 =>
    let r ← engRay o w.tree ws
    return (r, false, 0)
  | k =>
    let r ← engSample o w.tree (k == 3) w.fpctl ws
    return ([BitVec.ofNat 32 r.1], false, r.2)

/-- A cause met in one lane. -/
def Trap.inLane (t : Trap) (l : Nat) : Trap := { t with lane := l, lanes := laneBit l }

/-- Writes the bit of a lane in the predicate that `APRED` names; 0 names none (R278). -/
def Ctx.setApred (c : Ctx) (apred l : Nat) (on : Bool) : Ctx :=
  if apred = 0 then c else c.setPred apred (laneBit l) (if on then laneBit l else 0)

/-- A walker or the allocator meets a page-table entry with an uncorrectable error: a fault record tells it (R303, R315). -/
def State.tellWalk (s : State) (o : Op) (t : Trap) : State :=
  if t.cause == .poison && t.kind == 4 then
    (s.engineRecord o.ctx { t with source := o.kind.source } 3 o.pc 0).1
  else s

/-- The lane's results are written (R276). -/
def Ctx.walked (c : Ctx) (w : Walk) (l : Nat) (r : List Word × Bool × Flags) : Ctx :=
  (((c.land (r.1.zipIdx.map fun e => (locV (w.dst + e.2) l, e.1))).setApred w.apred l r.2.1)).postFlags r.2.2

/-- The lane's destinations become poison-empty with a cause (R276). -/
def Ctx.walkFailed (c : Ctx) (w : Walk) (l : Nat) (t : Trap) : Ctx :=
  (c.poisonLocs ((locsOf false w.dst w.size (laneBit l)).filter c.isEmpty) t.cause t.detail).setApred w.apred l false

/-- One lane of a walker operation: a fault that the supervisor may service stops the operation at the lane, and another
cause poisons the lane's destinations. The flag says that the lane is over. -/
def State.walkLane (s : State) (n : Nat) (o : Op) (w : Walk) (l : Nat) (ws : List Word) : State × Bool :=
  match (engWalk o w ws).go s with
  | (s, .ok r) => (s.modCtx o.ctx fun c => c.walked w l r, true)
  | (s, .error t) =>
    if t.cause.supervisor then (s.meetFault n (t.inLane l), false)
    else ((s.tellWalk o (t.inLane l)).modCtx o.ctx fun c => c.walkFailed w l t, true)

/-- Lanes of a walker operation are performed in turn; behind the last one, a split that waits for `APRED` goes on. -/
def State.walkLanes (s : State) (n : Nat) (o : Op) (w : Walk) : List (Nat × List Word) → State
  | [] => s
  | (l, ws) :: rest =>
    match s.walkLane n o w l ws with
    | (s, false) => s
    | (s, true) =>
      let left := w.lanes.filter fun e => e.1 != l
      let w := { w with lanes := left }
      if left.isEmpty then s.wakeOp n o
      else (if rest.isEmpty then s.goOn n (.walk w) else s.modOp n fun o => { o with kind := .walk w }).walkLanes n o w rest

/-- The allocator, the walker or the halo engine finds the sectors that it writes as it works: at issue the core drops every clean
copy, whichever of them those will be (R227, log entry 152). -/
def State.dropCopies (s : State) (core : Nat) : State := s.modCore core Core.dropCopies

/-! ## Insertion (R284) -/

/-- R284: it commits at issue, and the allocator inserts lane by lane. -/
def execVins (f : XT) (s : State) : Host.Outcome State Fault Refusal :=
  let form := formWalk f 2 3 f.immSlot
  withTree f form (fun is t s =>
    let s := (s.dropCopies is.c.core).modCtx is.id fun c => c.emptyLocs (form.dst.locs is.acting)
    .commit (s.addOp (is.op s (.insert (some f.h.dst.toNat) t (coordLanes f is 3) none)))) s

/-- The index and status of an insertion (R284); none while it goes on. -/
def Inserted.words (r : Inserted) : Option (Word × Word) :=
  match r with
  | .busy => none
  | .holds _ => none
  | .failed st => some (0, BitVec.ofNat 32 st)
  | .found n made => some (BitVec.ofNat 32 n, if made then 1 else 0)

/-- A lane of an insertion is over: its registers, if they still wait, take the index and status, or poison. -/
def Ctx.inserted (c : Ctx) (reg : Option Nat) (l : Nat) (r : Except Trap (Word × Word)) : Ctx :=
  match reg, r with
  | none, _ => c
  | some d, .ok w => c.land [(locV d l, w.1), (locV (d + 1) l, w.2)]
  | some d, .error t => c.poisonLocs ([locV d l, locV (d + 1) l].filter c.isEmpty) t.cause t.detail

/-- R284: the allocator performs the next part of the insertion of a lane: up to a slot that it builds, which other inserters may
forestall, or to the lane's end, at which its registers fill, an edge (R216). A fault that the supervisor may service stops the
operation before the part, which has changed nothing; with another cause the part's effects stand (log entry 19). -/
def execAllocatorInsertDone (op : Nat) (s : State) : Host.Outcome State Fault Refusal :=
  match s.ops.look op with
  | none => .next s
  | some o =>
    match o.kind with
    | .insert reg t ((l, ws) :: rest) held =>
      if o.fault.isSome then .next s
      else
        let finish := fun (s : State) (r : Except Trap (Word × Word)) =>
          ((s.modCtx o.ctx fun c => c.inserted reg l r).crossEdge o.ctx).keepOp op rest.isEmpty (.insert reg t rest none)
        match (engInsert o t held (coordOf ws 0) (coordOf ws 1) (coordOf ws 2)).go s with
        | (s', .ok (.holds h)) => .next (s'.goOn op (.insert reg t ((l, ws) :: rest) (some h)))
        | (s', .ok r) =>
          match r.words with
          | none => .next s
          | some w => .next (finish s' (.ok w))
        | (s', .error c) =>
          if c.cause.supervisor then .next (s.meetFault op (c.inLane l))
          else .next (finish (s'.tellWalk o (c.inLane l)) (.error c))
    | .insert _ _ [] _ => .next (s.endOp op)
    | _ => .next s

/-! ## Activity (R286) -/

/-- Starts a `vact` of a mode: the split waits until every lane is performed. -/
def startActivity (f : XT) (mode : Nat) (s : State) : Host.Outcome State Fault Refusal :=
  withTree f (formVact f mode) (fun is t s =>
    let s := s.dropCopies is.c.core
    .doneWait (s.addOp (is.op s (.activity mode f.apred t (coordLanes f is 3) []))) (.op s.nextId)) s

/-- R286. -/
def execVactSet (f : XT) (s : State) : Host.Outcome State Fault Refusal := startActivity f 0 s
/-- R286. -/
def execVactClr (f : XT) (s : State) : Host.Outcome State Fault Refusal := startActivity f 1 s
/-- R286. -/
def execVactTrim (f : XT) (s : State) : Host.Outcome State Fault Refusal := startActivity f 2 s

/-- The cause that the split takes when its lanes are over: that of the lowest-numbered failing lane, deferred (R286). -/
def activityTrap (failed : List Trap) : Option Trap :=
  (leastBy (fun t : Trap => t.lane) failed).map fun t =>
    { t with deferred := true, lanes := failed.foldl (fun m u => m ||| u.lanes) 0 }

/-- Every lane of a `vact` is over: the split goes on, or takes the cause at the instruction after the `vact`, which ends the graph
where the `vact` stands in the split's handler (R301); while another split of its group is in a handler it waits with the cause
(R300, log entry 133). -/
def State.activityOver (s : State) (n : Nat) (o : Op) (failed : List Trap) : State :=
  match activityTrap failed with
  | none => s.wakeOp n o
  | some t =>
    let others := ((s.ctxs.look o.ctx).bind (·.handler)).any fun h => h.split != o.split
    if !others || !s.waitsFor n o then s.refuseOp n o t
    else (s.endOp n).modSplit o.ctx o.split fun sp => { sp with wait := .due t }

/-- R286: the atomics of the next lane are performed. -/
def State.activityStep (s : State) (n : Nat) (o : Op) (mode apred : Nat) (t : Tree) (failed : List Trap) :
    List (Nat × List Word) → State
  | [] => s.activityOver n o failed
  | (l, ws) :: rest =>
    let finish := fun (s : State) (present : Bool) (failed : List Trap) =>
      let s := s.modCtx o.ctx fun c => c.setApred apred l present
      if rest.isEmpty then s.activityOver n o failed
      else s.goOn n (.activity mode apred t rest failed)
    match (engActivity o t mode (coordOf ws 0) (coordOf ws 1) (coordOf ws 2)).go s with
    | (s, .ok present) => finish s present failed
    | (s, .error c) =>
      if c.cause.supervisor then s.meetFault n (c.inLane l)
      else finish (s.tellWalk o (c.inLane l)) false (failed ++ [c.inLane l])

end Sys2Proof.Machine
end

