-- ==== Sys2Proof/Machine/Pairs.lean ====
section
/-! DEFINITION. Box hierarchies and the pair walker (R287 to R292). -/

namespace Sys2Proof.Machine

/-! ## References and boxes (R287, R288, R291) -/

/-- The reference of the root of an octet tree (R291). -/
def octetRoot : Word := 0xC0000000#32

/-- The box of all space. -/
def allSpace : List Word := [0xFF800000, 0xFF800000, 0xFF800000, 0x7F800000, 0x7F800000, 0x7F800000]

/-- The reference has children: a BH4 node, or an octet node or root. -/
def Hierarchy.internal (h : Hierarchy) (r : Word) : Bool :=
  if h.tree.isSome then bitsOf r 31 30 != 0 else !bitOf r 31

/-- A BH4 leaf of no primitives, which is passed over. -/
def Hierarchy.vacant (h : Hierarchy) (r : Word) : Bool := h.tree.isNone && bitOf r 31 && bitsOf r 5 0 == 0

/-- The root reference with its place. -/
def Hierarchy.root (h : Hierarchy) : Word × List Word :=
  if h.tree.isSome then (octetRoot, []) else (h.rootRef, allSpace)

/-- A coordinate as an FP32 bound: RDN below, RUP above. -/
def boundOf (up : Bool) (i : Int) : Word := BitVec.ofNat 32 (walkFmt.roundInt ⟨if up then .rup else .rdn, false⟩ i 0 false).1

/-- The box of a reference with its place. -/
def Hierarchy.box (h : Hierarchy) (r : Word) (place : List Word) : List Word :=
  if h.tree.isNone then place
  else if r = octetRoot then allSpace
  else
    let e : Int := 8 * 8 ^ bitsOf r 31 30
    ((place.take 3).map fun w : Word => boundOf false w.toInt) ++ (place.take 3).map fun w : Word => boundOf true (w.toInt + e)

/-- Two boxes overlap on every axis; one with a NaN bound or a minimum above its maximum overlaps nothing (R287). -/
def boxesOverlap (a b : List Word) : Bool :=
  let at_ := fun (x : List Word) (i : Nat) => (x.getD i 0).toNat
  (List.range 3).all fun i =>
    walkLe (at_ a i) (at_ a (i + 3)) && walkLe (at_ b i) (at_ b (i + 3))
      && walkLe (at_ a i) (at_ b (i + 3)) && walkLe (at_ b i) (at_ a (i + 3))

/-! ## Hierarchy descriptors at issue (R288) -/

/-- Reads n bytes at home for an instruction at issue, after the write-back of its group's lines. -/
def State.readIssue (s : State) (is : Issue) (va : DWord) (n : Nat) : State × Except Trap Nat :=
  match s.translate is.id is.c va 0 with
  | (s, .error t) => (s, .error t)
  | (s, .ok m) =>
    let s := s.askHome is.c.core is.id m.pa n
    match s.poisonIn m.pa n with
    | some pa => (s.logUncorrectable pa, .error { Trap.of .poison with va := va })
    | none => (s, .ok (s.readHome m.pa n))

/-- Reads and checks a hierarchy descriptor. -/
def State.readHierarchy (s : State) (is : Issue) (va : DWord) : State × Except Trap Hierarchy :=
  match s.readIssue is va 32 with
  | (s, .error t) => (s, .error t)
  | (s, .ok x) =>
    let base := BitVec.ofNat 64 x
    let kind := x / 2 ^ 64 % 4
    let ref := BitVec.ofNat 32 (x / 2 ^ 96)
    let count := x / 2 ^ 128 % 2 ^ 32
    let bad : Trap := { Trap.of .controlBlock with va := va }
    if x / 2 ^ 160 != 0 || x / 2 ^ 66 % 2 ^ 30 != 0 || decide (1 < kind) then (s, .error bad)
    else if kind = 0 then
      if base.toNat % 128 != 0 || (!bitOf ref 31 && decide (count ≤ ref.toNat)) then (s, .error bad)
      else (s, .ok { addr := va, tree := none, base := base, rootRef := ref, count := count })
    else if base.toNat % 64 != 0 || ref != 0 || count != 0 then (s, .error bad)
    else
      match s.readTree is.id is.c base with
      | (s, .error t) => (s, .error t)
      | (s, .ok t) => (s, .ok { addr := va, tree := some t, base := base, rootRef := 0, count := 0 })

/-! ## dtrav (R289) -/

/-- The parameters of a `dtrav`. -/
structure TravArgs where
  a : DWord
  b : DWord
  block : DWord
  token : Word
  frame : Word
  args : List Word
deriving DecidableEq, Repr

end Sys2Proof.Machine

namespace Sys2Proof

open Machine

/-- Reads the parameters. Under `.self` the second hierarchy is the first, and so `DESCB` of a resume block is the address in
`SRC1` too (log entry 120). -/
def XT.travArgs (f : XT) (form : Form) (is : Issue) : TravArgs :=
  let p := f.h.src3.toNat
  { a := form.arg is.c 1 0, b := if f.self then form.arg is.c 1 0 else form.arg is.c 2 0, block := is.c.q p
    token := is.c.s (p + 2), frame := is.c.s (p + 3), args := tabulate 6 fun i => is.c.s (p + 4 + i) }

end Sys2Proof

namespace Sys2Proof.Machine

/-- The checks of alignment and of canonical addresses. -/
def TravArgs.check (a : TravArgs) : Option Trap :=
  let off := [(a.a, 32), (a.b, 32), (a.block, 128)].find? fun e : DWord × Nat => e.1.toNat % e.2 != 0
  match off with
  | some e => some { Trap.of .misaligned with va := e.1 }
  | none => ([a.a, a.b, a.block].find? fun x => !canonical x).map fun x => Trap.atAddr .protection x 0

/-- The header of a resume block (R291). -/
def travHeader (token depth node : Nat) (a b : DWord) (self : Bool) : Nat :=
  token + depth * 2 ^ 32 + node * 2 ^ 48 + a.toNat * 2 ^ 64 + b.toNat * 2 ^ 128 + (if self then 2 ^ 192 else 0)

end Sys2Proof.Machine

namespace Sys2Proof

open Machine

/-- The depth of the saved stack that a resumption names, or `CONTROL_BLOCK`. -/
def XT.resumed (f : XT) (a : TravArgs) (header : Nat) : Option Nat :=
  let token := header % 2 ^ 32
  let depth := header / 2 ^ 32 % 2 ^ 16
  let same := header % 2 ^ 193 == travHeader token depth f.node a.a a.b f.self
  if token != 0 && token == a.token.toNat && same then some depth else none

end Sys2Proof

namespace Sys2Proof.Machine

/-- The resume block's header, where the instruction has `.res`. -/
def State.resumeDepth (s : State) (f : XT) (is : Issue) (a : TravArgs) : State × Except Trap (Option Nat) :=
  if !f.res then (s, .ok none)
  else
    match s.readIssue is a.block 64 with
    | (s, .error t) => (s, .error t)
    | (s, .ok x) =>
      match f.resumed a x with
      | none => (s, .error { Trap.of .controlBlock with va := a.block })
      | some d => (s, .ok (some d))

/-- The descriptors and the node (R289, check 3). -/
def State.travTargets (s : State) (f : XT) (is : Issue) (a : TravArgs) : State × Except Trap (Hierarchy × Hierarchy) :=
  match s.readHierarchy is a.a with
  | (s, .error t) => (s, .error t)
  | (s, .ok ha) =>
    match if f.self then (s, .ok ha) else s.readHierarchy is a.b with
    | (s, .error t) => (s, .error t)
    | (s, .ok hb) =>
      match s.nodeVia is.c.core is.c.die f.node with
      | (s, .error t) => (s, .error t)
      | (s, .ok d) => if d.kind.spawnable then (s, .ok (ha, hb)) else (s, .error (Trap.of .controlBlock))

/-- The pairs with which a fresh traversal starts. -/
def rootPair (a b : Hierarchy) : List RefPair :=
  [{ a := a.root.1, b := b.root.1, placeA := a.root.2, placeB := b.root.2 }]

/-- R289. -/
def execDtrav (f : XT) (s : State) : Host.Outcome State Fault Refusal :=
  let form := formDtrav f
  issueWith form f.h.bytes [] never (fun _ s => !s.hasPairWalker) (fun is s =>
    let a := f.travArgs form is
    match a.check with
    | some t => .trap s t
    | none =>
      match (s.writeBack is.id).travTargets f is a with
      | (s, .error t) => .trap s t
      | (s, .ok (ha, hb)) =>
        if s.refusesSpawn a.frame then .trap s (Trap.of .frameError)
        else
          match s.resumeDepth f is a with
          | (s, .error t) => .trap s t
          | (s, .ok reload) =>
            let d : Dtrav :=
              { dst := f.h.dst.toNat, hierA := ha, hierB := hb, block := a.block, frame := a.frame, args := a.args
                node := f.node, prio := f.prio, self := f.self, stack := if reload.isSome then [] else rootPair ha hb
                reload := reload, emitted := 0, order := s.nextId }
            let s := s.modCtx is.id fun c => c.emptyLocs (locsOf true d.dst 3 0)
            .commit (s.addOp (is.op s (.dtrav d)))) s

/-! ## Children (R288) -/

/-- A reference with its place. -/
abbrev Child := Word × List Word

/-- The reference of an octet node or leaf: an index above the field is held as its greatest value, which no pool has. -/
def octetRef (level n : Nat) : Word := BitVec.ofNat 32 (level * 2 ^ 30 + Nat.min n (2 ^ 30 - 1))

/-- An axis of a root entry's `KEY` as a coordinate. -/
def keyCoord (k : Nat) : Word := ((BitVec.ofNat 20 k).signExtend 32) <<< 12

/-- The level-3 nodes of an octet tree in table order: `fuel` entries from the i-th on. -/
def engRoots (o : Op) (t : Tree) : Nat → Nat → Eng (List Child)
  | 0, _ => pure []
  | fuel + 1, i => do
    let e ← engEntry o (t.root + BitVec.ofNat 64 (16 * i))
    let rest ← engRoots o t fuel (i + 1)
    let k := entryKey e.1
    if entryValid e.1 && !entryBusy e.1 && e.2 != 0 then
      return (octetRef 3 e.2, [keyCoord (k / 2 ^ 40), keyCoord (k / 2 ^ 20), keyCoord k]) :: rest
    else return rest

/-- The children of a node whose `ACTMASK` bit is set, in ascending order. -/
def engMasked (o : Op) (t : Tree) (n : Nat) (act : Nat) : List Nat → Eng (List (Nat × Nat))
  | [] => pure []
  | c :: rest => do
    if act / 2 ^ c % 2 = 0 then engMasked o t n act rest
    else
      let ch ← engChild o t n c
      let more ← engMasked o t n act rest
      return if ch = 0 then more else (c, ch) :: more

/-- The present and active children of a node: their number in the node and their index (R288, R327). -/
def engActive (o : Op) (t : Tree) (n : Nat) : Eng (List (Nat × Nat)) := do
  engIndex n t.nodeCap
  let act ← engMask o (t.nodeAt n + 80)
  engMasked o t n act (List.range 512)

/-- The origin of child c of a node of a level. -/
def childOrigin (level : Nat) (place : List Word) (c : Nat) : List Word :=
  let at_ := fun (i k : Nat) => coordOf place i + BitVec.ofNat 32 (k * 8 ^ level)
  [at_ 0 (c / 64), at_ 1 (c / 8 % 8), at_ 2 (c % 8)]

/-- The children of a BH4 node that are not empty leaves. -/
def engBoxes (o : Op) (h : Hierarchy) (n : Nat) : Eng (List Child) := do
  engIndex n h.count
  let x ← engRead o (h.base + BitVec.ofNat 64 (128 * n)) 128
  let word := fun i : Nat => BitVec.ofNat 32 (x / 2 ^ (32 * i))
  return ((List.range 4).map fun k => (word (24 + k), tabulate 6 fun j => word (6 * k + j))).filter fun e => !h.vacant e.1

/-- The children of an internal reference, in ascending order. -/
def engChildren (o : Op) (h : Hierarchy) (r : Word) (place : List Word) : Eng (List Child) := do
  match h.tree with
  | none => engBoxes o h r.toNat
  | some t =>
    if r = octetRoot then engRoots o t (2 ^ t.rootLog2) 0
    else
      let level := bitsOf r 31 30
      let cs ← engActive o t (bitsOf r 29 0)
      return cs.map fun e => (octetRef (level - 1) e.2, childOrigin level place e.1)

/-! ## The traversal (R290) -/

/-- What one pop does: the pairs to push, the least first; a leaf pair to emit by its identifiers; nothing. -/
inductive Popped where
  | push (ps : List RefPair)
  | emit (a b : Word)
  | pass
deriving DecidableEq, Repr

/-- The index of a leaf is within its pool (R271). -/
def engLeafRef (h : Hierarchy) (r : Word) : Eng Unit :=
  match h.tree with
  | none => pure ()
  | some t => engIndex r.toNat t.leafCap

/-- One pair is popped. -/
def engPop (o : Op) (d : Dtrav) (p : RefPair) : Eng Popped := do
  let pair := fun (a b : Child) => ({ a := a.1, b := b.1, placeA := a.2, placeB := b.2 } : RefPair)
  let boxA := fun c : Child => d.hierA.box c.1 c.2
  let boxB := fun c : Child => d.hierB.box c.1 c.2
  let a : Child := (p.a, p.placeA)
  let b : Child := (p.b, p.placeB)
  if d.hierA.vacant p.a || d.hierB.vacant p.b then return .pass
  else if d.self && p.a == p.b && d.hierA.internal p.a then
    let cs ← engChildren o d.hierA p.a p.placeA
    return .push (cs.zipIdx.flatMap fun e =>
      ((cs.drop e.2).filter fun c => boxesOverlap (boxA e.1) (boxA c)).map fun c => pair e.1 c)
  else if d.hierA.internal p.a then
    let cs ← engChildren o d.hierA p.a p.placeA
    return .push ((cs.filter fun c => boxesOverlap (boxA c) (boxB b)).map fun c => pair c b)
  else if d.hierB.internal p.b then
    let cs ← engChildren o d.hierB p.b p.placeB
    return .push ((cs.filter fun c => boxesOverlap (boxA a) (boxB c)).map fun c => pair a c)
  else
    engLeafRef d.hierA p.a
    engLeafRef d.hierB p.b
    if !d.self then return .emit p.a p.b
    else if p.a = p.b then return .pass
    else return if p.a < p.b then .emit p.a p.b else .emit p.b p.a

/-- The stack after a pop: a 1,025th entry ends the traversal. -/
def engPush (ps rest : List RefPair) : Eng (List RefPair) :=
  if 1024 < ps.length + rest.length then throw (Trap.of .traversalStack) else pure (ps ++ rest)

/-! ## The resume block (R291) -/

/-- The field of a place: its words from the lowest on. -/
def placeField (ws : List Word) : Nat := ws.foldr (fun w n => w.toNat + 2 ^ 32 * n) 0

/-- The place that a field holds. -/
def placeOf (h : Hierarchy) (r : Word) (x : Nat) : List Word :=
  let n := if h.tree.isNone then 6 else if r = octetRoot then 0 else 3
  tabulate n fun i => BitVec.ofNat 32 (x / 2 ^ (32 * i))

/-- An entry of the saved stack. -/
def RefPair.entry (p : RefPair) : Nat :=
  p.a.toNat + p.b.toNat * 2 ^ 32 + placeField p.placeA * 2 ^ 64 + placeField p.placeB * 2 ^ 256

/-- The pair that an entry of the saved stack holds. -/
def entryPair (d : Dtrav) (x : Nat) : RefPair :=
  let a := BitVec.ofNat 32 x
  let b := BitVec.ofNat 32 (x / 2 ^ 32)
  { a := a, b := b, placeA := placeOf d.hierA a (x / 2 ^ 64), placeB := placeOf d.hierB b (x / 2 ^ 256) }

/-- Loads n entries of the saved stack, the bottom at offset 64. -/
def engReload (o : Op) (d : Dtrav) : Nat → Eng (List RefPair)
  | 0 => pure []
  | n + 1 => do
    let rest ← engReload o d n
    let x ← engRead o (d.block + BitVec.ofNat 64 (64 + 64 * n)) 64
    return entryPair d x :: rest

/-- Writes the entries of a stack, given with the bottom first, from an offset on. -/
def engSaveStack (o : Op) (d : Dtrav) : List RefPair → Nat → Eng Unit
  | [], _ => pure ()
  | p :: rest, off => do
    engWrite o (d.block + BitVec.ofNat 64 off) (numberBytes 64 p.entry)
    engSaveStack o d rest (off + 64)

/-- Writes the stack and the header; the token that the header takes. The bottom of the stack is its first entry, k = 0 (log
entry 119). -/
def engSave (o : Op) (d : Dtrav) : Eng Nat := do
  let old ← engRead o d.block 4
  let token := if old = 2 ^ 32 - 1 then 1 else old + 1
  engSaveStack o d d.stack.reverse 64
  engWrite o d.block (numberBytes 64 (travHeader token d.stack.length d.node d.hierA.addr d.hierB.addr d.self))
  return token

/-! ## Emission (R290, R291) -/

/-- The bin holds as many waiting records of the graph as its node's capacity. -/
def State.binRefuses (s : State) (die node g : Nat) : Bool :=
  match s.nodeHome die node with
  | .error _ => false
  | .ok d => decide (d.cap ≤ ((s.binOf die node g).map fun b => b.records.length).getD 0)

/-- How a run of the walker goes on after one pop. -/
inductive Pace where
  /-- the traversal stands with this state; a record has left, or not -/
  | on (d : Dtrav) (left : Bool)
  /-- the bin refused a pair, which is back on the stack -/
  | refused (d : Dtrav)
  | finished (d : Dtrav)
  /-- the die has no room for a record (R326) -/
  | full (d : Dtrav)
deriving DecidableEq, Repr

/-- A pair's record leaves for its bin: it raises its frame first (R149), or the traversal ends. -/
def engEmit (o : Op) (d : Dtrav) (a b : Word) (rest : List RefPair) : Eng Pace := do
  let r : Record :=
    { node := d.node, frame := d.frame, flags := recordFlags d.prio false false false, args := a :: b :: d.args, graph := o.graph
      resumes := none }
  if ← engGet fun s => s.binRefuses o.die d.node o.graph then return .refused d
  else if !(← engGet fun s => s.recordsFit o.die 1) then return .full d
  else
    match ← engGet fun s => s.raiseFrame d.frame with
    | none => throw (Trap.of .frameError)
    | some s =>
      engDo fun _ => s.enterBin o.die false r
      return .on { d with stack := rest, emitted := d.emitted + 1 } true

/-- One pop of a traversal whose stack is loaded; a resumed one whose saved stack has more than 1,024 entries ends as one whose
stack overflows (log entry 121). -/
def engPace (o : Op) (d : Dtrav) : Eng Pace := do
  match d.reload with
  | some n =>
    if 1024 < n then throw (Trap.of .traversalStack)
    let stack ← engReload o d n
    return .on { d with stack := stack, reload := none } false
  | none =>
    match d.stack with
    | [] => return .finished d
    | p :: rest =>
      match ← engPop o d p with
      | .pass => return .on { d with stack := rest } false
      | .push ps => return .on { d with stack := ← engPush ps rest } false
      | .emit a b => engEmit o d a b rest

/-- The traversal ends with the resume block written and its status in `s`(D) to `s`(D + 2), an edge (R216). -/
def State.endTraversal (s : State) (n : Nat) (o : Op) (d : Dtrav) (refused : Bool) : State :=
  match (engSave o d).go s with
  | (s, .error t) => s.meetFault n t
  | (s, .ok token) =>
    let ws : List Word := [if refused then 1 else 0, if refused then BitVec.ofNat 32 token else 0, BitVec.ofNat 32 d.emitted]
    ((s.landAt o.ctx n (ws.zipIdx.map fun e => (locS (d.dst + e.2), e.1))).crossEdge o.ctx).endOp n

/-- Runs at most so many pops of a traversal: with `ends` until it ends, otherwise until a record leaves. -/
def State.runTraversal (s : State) (n : Nat) (o : Op) (ends : Bool) : Nat → Dtrav → State
  | 0, _ => s
  | fuel + 1, d =>
    match (engPace o d).go s with
    | (s, .error t) => s.meetFault n t
    | (s, .ok (.on d left)) =>
      let s := if left then s.goOn n (.dtrav d) else s.modOp n fun o => { o with kind := .dtrav d }
      if left && !ends then s else s.runTraversal n o ends fuel d
    | (s, .ok (.refused d)) => if ends then s.endTraversal n o d true else s
    | (s, .ok (.finished d)) => if ends then s.endTraversal n o d false else s
    | (s, .ok (.full _)) => s

/-- The traversal that a die's pair walker serves: the oldest by commit (R289). -/
def State.traversal (s : State) (die : Nat) : Option (Nat × Op × Dtrav) :=
  leastBy (fun e : Nat × Op × Dtrav => e.2.2.order) (s.ops.filterMap fun e =>
    match e.2.kind with
    | .dtrav d => if e.2.die == die then some (e.1, e.2, d) else none
    | _ => none)

/-- The die's pair walker works on: a traversal that has stopped on a fault holds it (R289, R292). -/
def State.walkPairs (s : State) (die pops : Nat) (ends : Bool) : State :=
  match s.traversal die with
  | none => s
  | some (n, o, d) => if o.fault.isSome then s else s.runTraversal n o ends pops d

/-- R290: within so many pops, the walker emits the record of an overlapping leaf pair. -/
def execPairWalkerEmit (die pops : Nat) (s : State) : Host.Outcome State Fault Refusal := .next (s.walkPairs die pops false)

/-- R291, R292: within so many pops, the traversal completes, is refused and saved, or ends on a cause. -/
def execPairWalkerEnd (die pops : Nat) (s : State) : Host.Outcome State Fault Refusal := .next (s.walkPairs die pops true)

end Sys2Proof.Machine
end

