-- ==== Sys2Proof/Machine/Transcend.lean ====
section
/-! DEFINITION. The transcendental functions (R167) and the exponential of `vsoftmax` (R183), correctly rounded. Values
are held with 640 fraction bits (1,000 while an angle is reduced), and an irrational result is marked as lying strictly
above its truncation. UNVERIFIED (log entry 15): no operand has a result so near a rounding boundary that 640 bits
decide it wrongly. -/

namespace Sys2Proof

/-- The fraction bits of a fixed-point value. -/
def fxBits : Nat := 640
/-- The fraction bits while an angle is reduced. -/
def angleBits : Nat := 1000

/-- The sum of x^(2k+1)/(2k+1) for k from `k` on, x given as z with x² = z·z: a series of `fuel` terms. The term is
`p`, its successor's factor `sq`, both with `bits` fraction bits. -/
def atanhTerms (bits sq : Nat) : Nat → Nat → Nat → Nat
  | 0, _, _ => 0
  | fuel + 1, k, p => p / (2 * k + 1) + atanhTerms bits sq fuel (k + 1) (p * sq / 2 ^ bits)

/-- atanh(n/d) with `bits` fraction bits, for n/d at most 1/3. -/
def atanhFrac (bits n d : Nat) : Nat :=
  let x := n * 2 ^ bits / d
  atanhTerms bits (x * x / 2 ^ bits) (bits / 3 + 4) 0 x

/-- The alternating sum of the arctangent's terms. -/
def atanTerms (bits sq : Nat) : Nat → Nat → Nat → Int
  | 0, _, _ => 0
  | fuel + 1, k, p => ((p / (2 * k + 1) : Nat) : Int) - atanTerms bits sq fuel (k + 1) (p * sq / 2 ^ bits)

/-- atan(1/d) with `bits` fraction bits. -/
def atanRecip (bits d : Nat) : Int :=
  let x := 2 ^ bits / d
  atanTerms bits (x * x / 2 ^ bits) (bits / 4 + 4) 0 x

/-- ln 2 = 2·atanh(1/3), with `bits` fraction bits. -/
def ln2 (bits : Nat) : Nat := 2 * atanhFrac bits 1 3

/-- π/2 = 8·atan(1/5) − 2·atan(1/239), with `bits` fraction bits. -/
def halfPi (bits : Nat) : Nat := (8 * atanRecip bits 5 - 2 * atanRecip bits 239).toNat

/-- The exponential series of y, at most ln 2, from term k on. -/
def expTerms (y : Nat) : Nat → Nat → Nat → Nat
  | 0, _, _ => 0
  | fuel + 1, k, t => t + expTerms y fuel (k + 1) (t * y / 2 ^ fxBits / (k + 1))

/-- e^y for y from 0 to ln 2. -/
def expFx (y : Nat) : Nat := expTerms y 150 0 (2 ^ fxBits)

/-- A finite value as a fixed-point magnitude with `bits` fraction bits. Every subnormal of a 32-bit format is exact. -/
def fixedOf (bits m : Nat) (e : Int) : Nat :=
  if 0 ≤ e + bits then m * 2 ^ (e + bits).toNat else m / 2 ^ (-(e + bits)).toNat

/-- 2^x for a finite x = ±m·2^e, as an exact magnitude; from 2^13 on it over- or underflows in every format. -/
def exp2Exact (neg : Bool) (m : Nat) (e : Int) : Exact :=
  if (13 : Int) < e + bitLength m then ⟨false, 2 ^ 80, if neg then -9000 else 9000, true⟩
  else
    let x := fixedOf fxBits m e
    let whole := x / 2 ^ fxBits
    let frac := x % 2 ^ fxBits
    if frac = 0 then ⟨false, 2 ^ fxBits, (if neg then -(whole : Int) else whole) - fxBits, false⟩
    else
      let f := if neg then 2 ^ fxBits - frac else frac
      let k : Int := if neg then -(whole : Int) - 1 else whole
      ⟨false, expFx (f * ln2 fxBits / 2 ^ fxBits), k - fxBits, true⟩

/-- `fex2` (R167). -/
def Fmt.ex2 (f : Fmt) (ftz : Bool) (a : Nat) : Nat × Flags :=
  f.orNan [a] (match f.value ftz a with
    | .inf n => (if n then 0 else f.infPattern, 0)
    | .fin n m e => f.round .rne ftz (exp2Exact n m e)
    | .nan _ _ => f.invalid)

/-- log₂ of a positive finite value that is no power of two, with `fxBits` fraction bits, rounded down. -/
def log2Fx (m : Nat) (e : Int) : Int :=
  let n := bitLength m
  let t := m * 2 ^ fxBits / 2 ^ (n - 1)
  let z := (t - 2 ^ fxBits) * 2 ^ fxBits / (t + 2 ^ fxBits)
  let lnT := 2 * atanhTerms fxBits (z * z / 2 ^ fxBits) (fxBits / 3 + 4) 0 z
  (e + n - 1) * 2 ^ fxBits + (lnT * 2 ^ fxBits / ln2 fxBits : Nat)

/-- `flg2` (R167). -/
def Fmt.lg2 (f : Fmt) (ftz : Bool) (a : Nat) : Nat × Flags :=
  f.orNan [a] (match f.value ftz a with
    | .inf n => if n then f.invalid else (f.infPattern, 0)
    | .fin n m e =>
      if m = 0 then (f.signed true f.infPattern, flagDZ)
      else if n then f.invalid
      else if m = 2 ^ (bitLength m - 1) then f.roundInt ⟨.rne, ftz⟩ (e + bitLength m - 1) 0 false
      else
        let v := log2Fx m e
        if 0 ≤ v then f.round .rne ftz ⟨false, v.toNat, -fxBits, true⟩
        else f.round .rne ftz ⟨true, (-v).toNat - 1, -fxBits, true⟩
    | .nan _ _ => f.invalid)

/-- The alternating series of sine (k = 1) and cosine (k = 0) of r. -/
def trigTerms (sq : Nat) : Nat → Nat → Nat → Int
  | 0, _, _ => 0
  | fuel + 1, k, t => (t : Int) - trigTerms sq fuel (k + 2) (t * sq / 2 ^ fxBits / ((k + 1) * (k + 2)))

/-- sin r and cos r for r from 0 to π/2. -/
def sinFx (r : Nat) : Nat := (trigTerms (r * r / 2 ^ fxBits) 110 1 r).toNat
/-- cos r for r from 0 to π/2. -/
def cosFx (r : Nat) : Nat := (trigTerms (r * r / 2 ^ fxBits) 110 0 (2 ^ fxBits)).toNat

/-- The quadrant and the remainder of a positive angle (R167: every finite operand). -/
def reduceAngle (m : Nat) (e : Int) : Nat × Nat :=
  let x := fixedOf angleBits m e
  let h := halfPi angleBits
  (x / h % 4, x % h / 2 ^ (angleBits - fxBits))

/-- A magnitude strictly below its fixed-point value where the value is 1, which no operand but 0 attains. -/
def belowOne (v : Nat) : Nat := if 2 ^ fxBits ≤ v then 2 ^ fxBits - 1 else v

/-- `fsin` (R167). For a tiny operand the truncation of sin x is held as less than x itself. -/
def Fmt.sin (f : Fmt) (ftz : Bool) (a : Nat) : Nat × Flags :=
  f.orNan [a] (match f.value ftz a with
    | .inf _ => f.invalid
    | .fin n m e =>
      if m = 0 then (f.signed n 0, 0)
      else
        let (q, r) := reduceAngle m e
        let v := belowOne (if q % 2 = 0 then sinFx r else cosFx r)
        let v := if q = 0 && v = fixedOf fxBits m e then v - 1 else v
        f.round .rne ftz ⟨n != decide (2 ≤ q), v, -fxBits, true⟩
    | .nan _ _ => f.invalid)

/-- `fcos` (R167). -/
def Fmt.cos (f : Fmt) (ftz : Bool) (a : Nat) : Nat × Flags :=
  f.orNan [a] (match f.value ftz a with
    | .inf _ => f.invalid
    | .fin _ m e =>
      if m = 0 then f.roundInt ⟨.rne, ftz⟩ 1 0 false
      else
        let (q, r) := reduceAngle m e
        let v := belowOne (if q % 2 = 0 then cosFx r else sinFx r)
        f.round .rne ftz ⟨q == 1 || q == 2, v, -fxBits, true⟩
    | .nan _ _ => f.invalid)

/-- e^-x for a positive fixed-point x: zero from 2^10 on. -/
def expNeg (x : Nat) : Nat :=
  if 2 ^ (fxBits + 10) ≤ x then 0
  else
    let l := ln2 fxBits
    let k := x / l + 1
    expFx (k * l - x) / 2 ^ k

/-- `ftanh` (R167): (1 − e^-2x) ÷ (1 + e^-2x). -/
def Fmt.tanh (f : Fmt) (ftz : Bool) (a : Nat) : Nat × Flags :=
  f.orNan [a] (match f.value ftz a with
    | .inf n => f.roundInt ⟨.rne, ftz⟩ (if n then -1 else 1) 0 false
    | .fin n m e =>
      if m = 0 then (f.signed n 0, 0)
      else
        let x := fixedOf fxBits m e
        let t := expNeg (2 * x)
        let v := belowOne ((2 ^ fxBits - t) * 2 ^ fxBits / (2 ^ fxBits + t))
        let v := if x ≤ v then x - 1 else v
        f.round .rne ftz ⟨n, v, -fxBits, true⟩
    | .nan _ _ => f.invalid)

/-- e^z correctly rounded into FP32 for a finite z at most 0 (R183). -/
def expF32 (z : Nat) : Nat × Flags :=
  match Ty.f32.fmt.value false z with
  | .fin n m e =>
    if m = 0 then Ty.f32.fmt.roundInt ⟨.rne, false⟩ 1 0 false
    else if n then
      let x := fixedOf fxBits m e
      let v := expNeg x
      Ty.f32.fmt.round .rne false (if v = 0 then ⟨false, 2 ^ 64, -fxBits, true⟩ else ⟨false, belowOne v, -fxBits, true⟩)
    else
      let x := fixedOf fxBits m e
      Ty.f32.fmt.round .rne false
        (if 2 ^ (fxBits + 10) ≤ x then ⟨false, 2 ^ 64, 9000, true⟩
         else
          let l := ln2 fxBits
          ⟨false, expFx (x % l), (x / l : Nat) - (fxBits : Int), true⟩)
  | .inf n => (if n then 0 else Ty.f32.fmt.infPattern, 0)
  | .nan _ _ => Ty.f32.fmt.invalid

end Sys2Proof
end

