-- ==== Sys2Proof/Machine/Vector.lean ====
section
/-! DEFINITION. Class XV (R158 to R170) and the vector base forms (R107). Every source is read in every lane before any
destination is written. -/

namespace Sys2Proof.Machine

/-! ## Integer operations -/

/-- A vector operation whose result in a lane is a function of the sources there; no flag. -/
def vectorOp (f : Form) (bytes : Nat) (op : Ctx → Nat → DWord) (s : State) : Host.Outcome State Fault Refusal :=
  issue f bytes (fun is s => .done (is.onCtx s fun c => f.writeLanes c is.acting (op c))) s

/-- Two integer sources. -/
def vectorTwo (f : XV) (form : Form) (op : Ty → DWord → DWord → DWord) (s : State) : Host.Outcome State Fault Refusal :=
  vectorOp form f.h.bytes (fun c l => op f.h.ty (form.arg c 1 l) (form.arg c 2 l)) s

/-- One integer source. -/
def vectorOne (f : XV) (op : Ty → DWord → DWord) (s : State) : Host.Outcome State Fault Refusal :=
  let form := formV1 f f.h.ty.inW 0 false
  vectorOp form f.h.bytes (fun c l => op f.h.ty (form.arg c 1 l)) s

/-- R160. -/
def execAdd (f : XV) (s : State) : Host.Outcome State Fault Refusal :=
  vectorTwo f (formV2 f f.h.ty.inI (satAllowed f.h.ty) 0 false) (fun t a b => intResult t f.sat (t.int a + t.int b)) s
/-- R160. -/
def execSub (f : XV) (s : State) : Host.Outcome State Fault Refusal :=
  vectorTwo f (formV2 f f.h.ty.inI (satAllowed f.h.ty) 0 false) (fun t a b => intResult t f.sat (t.int a - t.int b)) s
/-- R160. -/
def execMul (f : XV) (s : State) : Host.Outcome State Fault Refusal :=
  vectorTwo f (formV2 f f.h.ty.inI (satAllowed f.h.ty) 0 false) (fun t a b => intResult t f.sat (t.int a * t.int b)) s
/-- R160. -/
def execMulh (f : XV) (s : State) : Host.Outcome State Fault Refusal :=
  vectorTwo f (formV2 f f.h.ty.inIS false 0 false) intMulHigh s
/-- R160: wrapped or clamped as one exact value. -/
def execMad (f : XV) (s : State) : Host.Outcome State Fault Refusal :=
  let form := formV3 f f.h.ty.inI (satAllowed f.h.ty) 0 false
  let t := f.h.ty
  vectorOp form f.h.bytes (fun c l =>
    intResult t f.sat (t.int (form.arg c 1 l) * t.int (form.arg c 2 l) + t.int (form.arg c 3 l))) s
/-- R160. -/
def execMin (f : XV) (s : State) : Host.Outcome State Fault Refusal :=
  vectorTwo f (formV2 f f.h.ty.inIS false 0 false) intMin s
/-- R160. -/
def execMax (f : XV) (s : State) : Host.Outcome State Fault Refusal :=
  vectorTwo f (formV2 f f.h.ty.inIS false 0 false) intMax s
/-- R160: the most negative value gives itself. -/
def execAbs (f : XV) (s : State) : Host.Outcome State Fault Refusal :=
  let form := formV1 f (f.h.ty == .s32 || f.h.ty == .s64) 0 false
  vectorOp form f.h.bytes (fun c l => f.h.ty.word (f.h.ty.int (form.arg c 1 l)).natAbs) s
/-- R160. -/
def execAnd (f : XV) (s : State) : Host.Outcome State Fault Refusal :=
  vectorTwo f (formV2 f f.h.ty.inW false 0 false) bitAnd s
/-- R160. -/
def execOr (f : XV) (s : State) : Host.Outcome State Fault Refusal :=
  vectorTwo f (formV2 f f.h.ty.inW false 0 false) bitOr s
/-- R160. -/
def execXor (f : XV) (s : State) : Host.Outcome State Fault Refusal :=
  vectorTwo f (formV2 f f.h.ty.inW false 0 false) bitXor s
/-- R160. -/
def execShl (f : XV) (s : State) : Host.Outcome State Fault Refusal :=
  vectorTwo f (formV2 f f.h.ty.inW false 0 false) shiftLeft s
/-- R160. -/
def execShr (f : XV) (s : State) : Host.Outcome State Fault Refusal :=
  vectorTwo f (formV2 f f.h.ty.inW false 0 false) shiftRight s
/-- R160. -/
def execSra (f : XV) (s : State) : Host.Outcome State Fault Refusal :=
  vectorTwo f (formV2 f f.h.ty.inW false 0 false) shiftArith s

/-- The bits that a `bfx` or `bfi` field covers (R161). -/
def fieldBits (w : Nat) (pos len : DWord) : Nat :=
  let p := pos.toNat % 256
  let n := len.toNat % 256
  if n = 0 ∨ w ≤ p then 0 else if n ≤ w - p then n else w - p

/-- R161. -/
def execBfx (f : XV) (s : State) : Host.Outcome State Fault Refusal :=
  let form := formVField f f.h.ty.inIS .write
  vectorOp form f.h.bytes (fun c l =>
    let n := fieldBits f.h.ty.width (form.arg c 2 l) (form.arg c 3 l)
    fieldExtract f.h.ty (form.arg c 1 l) ((form.arg c 2 l).toNat % 256) n) s
/-- R161: the destination is read. -/
def execBfi (f : XV) (s : State) : Host.Outcome State Fault Refusal :=
  let form := formVField f f.h.ty.inW .readWrite
  vectorOp form f.h.bytes (fun c l =>
    let n := fieldBits f.h.ty.width (form.arg c 2 l) (form.arg c 3 l)
    if n = 0 then form.dstArg c l
    else fieldInsert f.h.ty (form.dstArg c l) (form.arg c 1 l) ((form.arg c 2 l).toNat % 256) n) s

/-- R160. -/
def execPopc (f : XV) (s : State) : Host.Outcome State Fault Refusal := vectorOne f popCount s
/-- R160. -/
def execClz (f : XV) (s : State) : Host.Outcome State Fault Refusal := vectorOne f leadingZeros s
/-- R160. -/
def execBrev (f : XV) (s : State) : Host.Outcome State Fault Refusal := vectorOne f bitReverse s
/-- R160. -/
def execMov (f : XV) (s : State) : Host.Outcome State Fault Refusal := vectorOne f (fun _ a => a) s

/-- R162: bits of lanes in which it does not act are unchanged. -/
def execCmp (f : XV) (s : State) : Host.Outcome State Fault Refusal :=
  let form := formVCmp f f.h.ty.inI 0 (if f.h.ty.inW then 2 else 6)
  vectorOp form f.h.bytes (fun c l => truth (intCompare f.h.ty f.cond.toNat (form.arg c 1 l) (form.arg c 2 l))) s
/-- R162. -/
def execSel (f : XV) (s : State) : Host.Outcome State Fault Refusal :=
  let form := formSel f
  vectorOp form f.h.bytes (fun c l =>
    if (c.pred f.h.src3.toNat).getLsbD l then form.arg c 1 l else form.arg c 2 l) s

/-! ## Floating point -/

/-- The lanes of results that raise an enabled flag. -/
def trappingLanes (fpctl : Word) (rs : List (Nat × Nat × Flags)) : LaneMask :=
  laneSet ((rs.filter fun r => enabledFlags fpctl r.2.2 != 0).map Prod.fst)

/-- `FP_TRAP` in some lanes (R82, R299). -/
def fpTrapAt (lanes : LaneMask) : Trap := { Trap.of .fpTrap with lanes := lanes, lane := lowestLane lanes }

/-- Delivers results of lanes with their flags: an enabled flag takes `FP_TRAP`, with no destination written and the
flags ORed into `%fpst` (R82). -/
def deliver (is : Issue) (s : State) (rs : List (Nat × Nat × Flags)) (write : Ctx → Ctx) : Res :=
  let fl := rs.foldl (fun m r => m ||| r.2.2) (0 : Flags)
  if enabledFlags is.c.special.fpctl fl != 0 then
    .trap (is.onCtx s fun c => c.postFlags fl) (fpTrapAt (trappingLanes is.c.special.fpctl rs))
  else .done (is.onCtx s fun c => (write c).postFlags fl)

/-- A vector floating-point operation: the result and the flags of each lane. -/
def vectorFp (f : Form) (bytes : Nat) (op : Ctx → Nat → Nat × Flags) (s : State) : Host.Outcome State Fault Refusal :=
  issue f bytes (fun is s =>
    let rs := (lanesOf is.acting).map fun l => (l, op is.c l)
    deliver is s rs fun c => rs.foldl (fun c r => f.writeDst c r.1 (BitVec.ofNat 64 r.2.1)) c) s

end Sys2Proof.Machine

namespace Sys2Proof

open Machine

/-- A floating-point source of an instruction: its pattern with `ABS` and then `NEG` applied (R163). -/
def XV.fp (f : XV) (form : Form) (c : Ctx) (n l : Nat) : Nat :=
  let fmt := f.h.ty.fmt
  let x := (form.arg c n l).toNat % 2 ^ fmt.width
  let x := if kindBit f.abs n then x % fmt.signBit else x
  if kindBit f.neg n then x ^^^ fmt.signBit else x

/-- How the instruction rounds in its context. -/
def XV.env (f : XV) (c : Ctx) : FpEnv := fpEnv c.special.fpctl f.h.rnd

/-- A value of a type as its register holds it: s8 and s16 sign-extended to 32 bits, every other zero-extended (R158). -/
def Ty.inRegister (t : Ty) (x : Nat) : DWord :=
  if t == .s8 || t == .s16 then BitVec.ofNat 64 ((t.intValue x % 2 ^ 32).toNat) else BitVec.ofNat 64 (x % 2 ^ t.width)

end Sys2Proof

namespace Sys2Proof.Machine

/-- Two floating-point sources. -/
def fpTwo (f : XV) (form : Form) (bytes : Nat) (op : Fmt → FpEnv → Nat → Nat → Nat × Flags) (s : State) :
    Host.Outcome State Fault Refusal :=
  vectorFp form bytes (fun c l => op f.h.ty.fmt (f.env c) (f.fp form c 1 l) (f.fp form c 2 l)) s

/-- One floating-point source. -/
def fpOne (f : XV) (form : Form) (op : Fmt → FpEnv → Nat → Nat × Flags) (s : State) : Host.Outcome State Fault Refusal :=
  vectorFp form f.h.bytes (fun c l => op f.h.ty.fmt (f.env c) (f.fp form c 1 l)) s

/-- R163. -/
def execFadd (f : XV) (s : State) : Host.Outcome State Fault Refusal :=
  fpTwo f (formV2 f f.h.ty.inF false srcs2 true) f.h.bytes Fmt.add s
/-- R163. -/
def execFsub (f : XV) (s : State) : Host.Outcome State Fault Refusal :=
  fpTwo f (formV2 f f.h.ty.inF false srcs2 true) f.h.bytes Fmt.sub s
/-- R163. -/
def execFmul (f : XV) (s : State) : Host.Outcome State Fault Refusal :=
  fpTwo f (formV2 f f.h.ty.inF false srcs2 true) f.h.bytes Fmt.mul s

/-- A fused multiply-add. -/
def fpFma (f : XV) (form : Form) (bytes : Nat) (s : State) : Host.Outcome State Fault Refusal :=
  vectorFp form bytes (fun c l => f.h.ty.fmt.fma (f.env c) (f.fp form c 1 l) (f.fp form c 2 l) (f.fp form c 3 l)) s

/-- R163. -/
def execFma (f : XV) (s : State) : Host.Outcome State Fault Refusal :=
  fpFma f (formV3 f f.h.ty.inF false srcs3 true) f.h.bytes s
/-- R164. -/
def execFmin (f : XV) (s : State) : Host.Outcome State Fault Refusal :=
  fpTwo f (formV2 f f.h.ty.inF false srcs2 false) f.h.bytes (fun t e => t.minMax e.ftz false) s
/-- R164. -/
def execFmax (f : XV) (s : State) : Host.Outcome State Fault Refusal :=
  fpTwo f (formV2 f f.h.ty.inF false srcs2 false) f.h.bytes (fun t e => t.minMax e.ftz true) s

/-- R165. -/
def execFcmp (f : XV) (s : State) : Host.Outcome State Fault Refusal :=
  let form := formVCmp f f.h.ty.inF srcs2 8
  vectorFp form f.h.bytes (fun c l =>
    let r := f.h.ty.fmt.compare (f.env c).ftz f.cond.toNat (f.fp form c 1 l) (f.fp form c 2 l)
    (if r.1 then 1 else 0, r.2)) s

/-- R166. -/
def execFclass (f : XV) (s : State) : Host.Outcome State Fault Refusal :=
  let form := formV1 f f.h.ty.inF srcs1 false
  vectorOp form f.h.bytes (fun c l => BitVec.ofNat 64 (f.h.ty.fmt.classOf (f.fp form c 1 l))) s

/-- R163. -/
def execFdiv (f : XV) (s : State) : Host.Outcome State Fault Refusal :=
  fpTwo f (formV2 f f.h.ty.inFD false srcs2 true) f.h.bytes Fmt.div s
/-- R163. -/
def execFsqrt (f : XV) (s : State) : Host.Outcome State Fault Refusal :=
  fpOne f (formV1 f f.h.ty.inFD srcs1 true) Fmt.sqrt s
/-- R163. -/
def execFrcp (f : XV) (s : State) : Host.Outcome State Fault Refusal :=
  fpOne f (formV1 f f.h.ty.inFD srcs1 false) (fun t e => t.rcp e.ftz) s
/-- R163. -/
def execFrsq (f : XV) (s : State) : Host.Outcome State Fault Refusal :=
  fpOne f (formV1 f f.h.ty.inFD srcs1 false) (fun t e => t.rsq e.ftz) s
/-- R167. -/
def execFex2 (f : XV) (s : State) : Host.Outcome State Fault Refusal :=
  fpOne f (formV1 f f.h.ty.inFH srcs1 false) (fun t e => t.ex2 e.ftz) s
/-- R167. -/
def execFlg2 (f : XV) (s : State) : Host.Outcome State Fault Refusal :=
  fpOne f (formV1 f f.h.ty.inFH srcs1 false) (fun t e => t.lg2 e.ftz) s
/-- R167. -/
def execFsin (f : XV) (s : State) : Host.Outcome State Fault Refusal :=
  fpOne f (formV1 f f.h.ty.inFH srcs1 false) (fun t e => t.sin e.ftz) s
/-- R167. -/
def execFcos (f : XV) (s : State) : Host.Outcome State Fault Refusal :=
  fpOne f (formV1 f f.h.ty.inFH srcs1 false) (fun t e => t.cos e.ftz) s
/-- R167. -/
def execFtanh (f : XV) (s : State) : Host.Outcome State Fault Refusal :=
  fpOne f (formV1 f f.h.ty.inFH srcs1 false) (fun t e => t.tanh e.ftz) s
/-- R163. -/
def execFrint (f : XV) (s : State) : Host.Outcome State Fault Refusal :=
  fpOne f (formV1 f f.h.ty.inF srcs1 true) Fmt.rint s
/-- R163: n is read as s32. -/
def execFscal (f : XV) (s : State) : Host.Outcome State Fault Refusal :=
  let form := formFscal f
  vectorFp form f.h.bytes (fun c l =>
    f.h.ty.fmt.scal (f.env c) (f.fp form c 1 l) (Ty.s32.int (form.arg c 2 l))) s

/-! ## Conversions and packing (R168 to R170) -/

/-- R168. -/
def execCvt (f : XV) (s : State) : Host.Outcome State Fault Refusal :=
  let form := formCvt f
  vectorFp form f.h.bytes (fun c l =>
    let r := convert f.src f.h.ty (f.env c) f.sat (form.arg c 1 l).toNat
    ((Ty.inRegister f.h.ty r.1).toNat, r.2)) s

/-- R169. -/
def execPack (f : XV) (s : State) : Host.Outcome State Fault Refusal :=
  let form := formPack f
  vectorFp form f.h.bytes (fun c l =>
    let a := convert f.src f.h.ty (f.env c) f.sat (form.arg c 1 l).toNat
    let b := convert f.src f.h.ty (f.env c) f.sat (form.arg c 2 l).toNat
    let d := (form.dstArg c l).toNat
    (if f.h.ty.width = 8 then d % 65536 * 65536 + b.1 * 256 + a.1 else b.1 * 65536 + a.1, a.2 ||| b.2)) s

/-- The widening of a packed element (R170): exact, whatever `FTZ`. -/
def widen (src dst : Ty) (x : Nat) : Nat × Flags := convert src dst ⟨.rne, false⟩ false x

/-- R170. -/
def execUnpack (f : XV) (s : State) : Host.Outcome State Fault Refusal :=
  let form := formUnpack f
  vectorFp form f.h.bytes (fun c l =>
    let e := (form.arg c 2 l).toNat % (32 / f.src.width)
    widen f.src f.h.ty ((form.arg c 1 l).toNat / 2 ^ (e * f.src.width))) s

/-! ## Base forms (R107) -/

/-- A vector base form of two integer sources; `vs` has a scalar second source. -/
def baseInt (f : Base) (ty : Ty) (scalar : Bool) (op : Ty → DWord → DWord → DWord) (s : State) :
    Host.Outcome State Fault Refusal :=
  let form := formBase2 f ty scalar
  vectorOp form f.bytes (fun c l => op ty (form.arg c 1 l) (form.arg c 2 l)) s

/-- A vector base form of two FP32 sources, RNE. -/
def baseFp (f : Base) (scalar : Bool) (op : Fmt → FpEnv → Nat → Nat → Nat × Flags) (s : State) :
    Host.Outcome State Fault Refusal := fpTwo (f.xv .f32 scalar) (formBase2 f .f32 scalar) f.bytes op s

/-- R107: `add.b32`. -/
def execAddB32Base (f : Base) (s : State) : Host.Outcome State Fault Refusal :=
  baseInt f .b32 false (fun t a b => t.word (t.int a + t.int b)) s
/-- R107: `sub.b32`. -/
def execSubB32Base (f : Base) (s : State) : Host.Outcome State Fault Refusal :=
  baseInt f .b32 false (fun t a b => t.word (t.int a - t.int b)) s
/-- R107: `mul.b32`. -/
def execMulB32Base (f : Base) (s : State) : Host.Outcome State Fault Refusal :=
  baseInt f .b32 false (fun t a b => t.word (t.int a * t.int b)) s
/-- R107: `and.b32`. -/
def execAndB32Base (f : Base) (s : State) : Host.Outcome State Fault Refusal := baseInt f .b32 false bitAnd s
/-- R107: `or.b32`. -/
def execOrB32Base (f : Base) (s : State) : Host.Outcome State Fault Refusal := baseInt f .b32 false bitOr s
/-- R107: `xor.b32`. -/
def execXorB32Base (f : Base) (s : State) : Host.Outcome State Fault Refusal := baseInt f .b32 false bitXor s
/-- R107: `shl.b32`. -/
def execShlB32Base (f : Base) (s : State) : Host.Outcome State Fault Refusal := baseInt f .b32 false shiftLeft s
/-- R107: `shr.b32`. -/
def execShrB32Base (f : Base) (s : State) : Host.Outcome State Fault Refusal := baseInt f .b32 false shiftRight s
/-- R107: `sra.b32`. -/
def execSraB32Base (f : Base) (s : State) : Host.Outcome State Fault Refusal := baseInt f .b32 false shiftArith s
/-- R107: `min.s32`. -/
def execMinS32Base (f : Base) (s : State) : Host.Outcome State Fault Refusal := baseInt f .s32 false intMin s
/-- R107: `max.s32`. -/
def execMaxS32Base (f : Base) (s : State) : Host.Outcome State Fault Refusal := baseInt f .s32 false intMax s
/-- R107: `fadd.f32`. -/
def execFaddF32Base (f : Base) (s : State) : Host.Outcome State Fault Refusal := baseFp f false Fmt.add s
/-- R107: `fsub.f32`. -/
def execFsubF32Base (f : Base) (s : State) : Host.Outcome State Fault Refusal := baseFp f false Fmt.sub s
/-- R107: `fmul.f32`. -/
def execFmulF32Base (f : Base) (s : State) : Host.Outcome State Fault Refusal := baseFp f false Fmt.mul s
/-- R107: `fma.f32` with `DST` as the addend. -/
def execFmaF32Base (f : Base) (s : State) : Host.Outcome State Fault Refusal :=
  fpFma (f.xvFma false) (formBaseFma f false) f.bytes s
/-- R107: `fmin.f32`. -/
def execFminF32Base (f : Base) (s : State) : Host.Outcome State Fault Refusal :=
  baseFp f false (fun t e => t.minMax e.ftz false) s
/-- R107: `fmax.f32`. -/
def execFmaxF32Base (f : Base) (s : State) : Host.Outcome State Fault Refusal :=
  baseFp f false (fun t e => t.minMax e.ftz true) s
/-- R107: `mov.b32`. -/
def execMovB32Base (f : Base) (s : State) : Host.Outcome State Fault Refusal :=
  let form := formV1 (f.xv .b32 false) true 0 false
  vectorOp form f.bytes (fun c l => form.arg c 1 l) s
/-- R107: `add.b32` with a scalar second source. -/
def execAddB32VsBase (f : Base) (s : State) : Host.Outcome State Fault Refusal :=
  baseInt f .b32 true (fun t a b => t.word (t.int a + t.int b)) s
/-- R107: `fmul.f32` with a scalar second source. -/
def execFmulF32VsBase (f : Base) (s : State) : Host.Outcome State Fault Refusal := baseFp f true Fmt.mul s
/-- R107: `fma.f32` with a scalar multiplier and `DST` as the addend. -/
def execFmaF32VsBase (f : Base) (s : State) : Host.Outcome State Fault Refusal :=
  fpFma (f.xvFma true) (formBaseFma f true) f.bytes s

end Sys2Proof.Machine
end

