-- ==== Sys2Proof/Machine/Lanes.lean ====
section
/-! DEFINITION. Lane operations of class XL (R171 to R177, R362). The participating lanes are the active lanes whose guard
bit is true. -/

namespace Sys2Proof.Machine

/-! ## Shuffles (R172) -/

/-- `shfl`: lane l takes the source of the lane that `from_` names, or its own where that lane is outside the group or the
split's `MASK`. b is read unsigned in every mode; R172 says so of idx (log entry 156). -/
def shuffle (f : XL) (mode : Nat) (from_ : Nat → Nat → Int) (s : State) : Host.Outcome State Fault Refusal :=
  let form := formShfl f mode
  issue form f.h.bytes (fun is s => .done (is.onCtx s fun c =>
    form.writeLanes c is.acting fun l =>
      let j := from_ l ((form.arg c 2 l).toNat % 2 ^ 32)
      if 0 ≤ j && decide (j < c.node.width) && is.sp.mask.getLsbD j.toNat then form.arg c 1 j.toNat
      else form.arg c 1 l)) s

/-- R172. -/
def execShflIdx (f : XL) (s : State) : Host.Outcome State Fault Refusal := shuffle f 0 (fun _ b => b) s
/-- R172. -/
def execShflUp (f : XL) (s : State) : Host.Outcome State Fault Refusal := shuffle f 1 (fun l b => (l : Int) - b) s
/-- R172. -/
def execShflDown (f : XL) (s : State) : Host.Outcome State Fault Refusal := shuffle f 2 (fun l b => (l : Int) + b) s
/-- R172. -/
def execShflXor (f : XL) (s : State) : Host.Outcome State Fault Refusal := shuffle f 3 (fun l b => (l ^^^ b : Nat)) s

/-! ## Votes and matches (R173, R174) -/

/-- `vote`: the result from the participating lanes and their predicate bits. -/
def vote (f : XL) (mode : Nat) (op : LaneMask → LaneMask → DWord) (s : State) : Host.Outcome State Fault Refusal :=
  let form := formVote f mode
  issue form f.h.bytes (fun is s => .done (is.onCtx s fun c =>
    form.writeDst c 0 (op is.acting (c.pred f.h.src1.toNat &&& is.acting)))) s

/-- R173. -/
def execVoteBallot (f : XL) (s : State) : Host.Outcome State Fault Refusal := vote f 0 (fun _ bits => bits) s
/-- R173. -/
def execVoteAny (f : XL) (s : State) : Host.Outcome State Fault Refusal := vote f 1 (fun _ bits => truth (bits != 0)) s
/-- R173. -/
def execVoteAll (f : XL) (s : State) : Host.Outcome State Fault Refusal := vote f 2 (fun m bits => truth (bits == m)) s
/-- R173. -/
def execVoteUni (f : XL) (s : State) : Host.Outcome State Fault Refusal :=
  vote f 3 (fun m bits => truth (bits == 0 || bits == m)) s

/-- R174: the lanes with an equal pattern, and the lowest of each set as its leader. -/
def execMatchLanes (f : XL) (s : State) : Host.Outcome State Fault Refusal :=
  let form := formMatch f
  issue form f.h.bytes (fun is s => .done (is.onCtx s fun c =>
    let value := fun l : Nat => f.h.ty.low (form.arg c 1 l)
    let equal := fun l : Nat => laneSet ((lanesOf is.acting).filter fun j => value j == value l)
    let leaders := laneSet ((lanesOf is.acting).filter fun l => lowestLane (equal l) == l)
    let c' := form.writeLanes c is.acting equal
    if bitsOf f.imm 2 0 = 0 then c' else c'.setPred (bitsOf f.imm 2 0) is.acting leaders)) s

/-! ## Reductions and prefixes (R175, R176, R362) -/

/-- `combine` of R175, with its flags. -/
def combine (t : Ty) (env : FpEnv) (op : Nat) (a b : Nat) : Nat × Flags :=
  let x := BitVec.ofNat 64 a
  let y := BitVec.ofNat 64 b
  if t.float then
    match op with
    | 0 => t.fmt.add env a b
    | 1 => t.fmt.minMax env.ftz false a b
    | _ => t.fmt.minMax env.ftz true a b
  else
    (match op with
      | 0 => (t.word (t.int x + t.int y)).toNat
      | 1 => (intMin t x y).toNat
      | 2 => (intMax t x y).toNat
      | 3 => (bitAnd t x y).toNat
      | 4 => (bitOr t x y).toNat
      | _ => (bitXor t x y).toNat, 0)

/-- `combine` where a lane may be absent. -/
def combineLanes (t : Ty) (env : FpEnv) (op : Nat) (a b : Option Nat) : Option Nat × Flags :=
  match a, b with
  | some x, some y => let r := combine t env op x y; (some r.1, r.2)
  | some x, none => (some x, 0)
  | none, y => (y, 0)

/-- One level of the tree of R175. -/
def treeLevel (t : Ty) (env : FpEnv) (op : Nat) : List (Option Nat) → List (Option Nat) × Flags
  | a :: b :: rest =>
    let r := combineLanes t env op a b
    let rs := treeLevel t env op rest
    (r.1 :: rs.1, r.2 ||| rs.2)
  | l => (l, 0)

/-- `lanetree` over `levels` levels. -/
def laneTree (t : Ty) (env : FpEnv) (op : Nat) : Nat → List (Option Nat) → Option Nat × Flags
  | 0, l => (l.head?.join, 0)
  | n + 1, l =>
    let r := treeLevel t env op l
    let rs := laneTree t env op n r.1
    (rs.1, r.2 ||| rs.2)

/-- Delivers a result of the whole split with its flags (R82, R362). -/
def deliverSplit (is : Issue) (s : State) (fl : Flags) (write : Ctx → Ctx) : Res :=
  deliver is s ((lanesOf is.acting).map fun l => (l, 0, fl)) write

/-- R175: the fixed tree over lane positions; the widths of a group are powers of two up to 64. -/
def execRedux (f : XL) (s : State) : Host.Outcome State Fault Refusal :=
  let form := formRedux f
  let t := f.h.ty
  issue form f.h.bytes (fun is s =>
    let c := is.c
    let lanes := tabulate c.node.width fun l =>
      if is.acting.getLsbD l then some (t.low (form.arg c 1 l)) else none
    let r := laneTree t (fpEnv c.special.fpctl f.h.rnd) f.mode.toNat 6 lanes
    let value := BitVec.ofNat 64 (r.1.getD 0)
    deliverSplit is s r.2 fun c =>
      if bitOf f.imm 0 then form.writeLanes c is.acting fun _ => value else form.writeDst c 0 value) s

/-- The identity of an operation (R176). -/
def scanIdentity (t : Ty) (op : Nat) : Nat :=
  match op with
  | 1 => if t.float then t.fmt.infPattern else t.clamp (2 ^ 64)
  | 2 => if t.float then t.fmt.signed true t.fmt.infPattern else t.clamp (-(2 ^ 64))
  | 3 => 2 ^ t.width - 1
  | _ => 0

/-- The chain of R176 over the participating lanes in rising order: lane, inclusive result, the result before it. The flags are
those of every combine, the last one of an exclusive scan among them (R362, log entry 117). -/
def scanChain (t : Ty) (env : FpEnv) (op : Nat) (value : Nat → Nat) :
    Option Nat → List Nat → List (Nat × Nat × Nat) × Flags
  | _, [] => ([], 0)
  | before, l :: rest =>
    let r := match before with
      | none => if t.float then convertFloat t.fmt t.fmt env false (value l) else (value l, 0)
      | some x => combine t env op x (value l)
    let rs := scanChain t env op value (some r.1) rest
    ((l, r.1, before.getD (scanIdentity t op)) :: rs.1, r.2 ||| rs.2)

/-- R176. -/
def execScan (f : XL) (s : State) : Host.Outcome State Fault Refusal :=
  let form := formScan f
  let t := f.h.ty
  issue form f.h.bytes (fun is s =>
    let r := scanChain t (fpEnv is.c.special.fpctl f.h.rnd) (bitsOf f.mode 2 0) (fun l => t.low (form.arg is.c 1 l)) none
      (lanesOf is.acting)
    deliverSplit is s r.2 fun c =>
      r.1.foldl (fun c e => form.writeDst c e.1 (BitVec.ofNat 64 (if bitOf f.mode 3 then e.2.2 else e.2.1))) c) s

/-! ## The counter-based generator (R89, R90, R177) -/

/-- One step of `rngc_block`. -/
def rngStep (k0 k1 : Word) (c : Word × Word × Word × Word) (r : Nat × Nat × Nat) : Word × Word × Word × Word :=
  match c, r with
  | (c0, c1, c2, c3), (n, a, b) =>
    let c0 := c0 + c1
    let c1 := c1.rotateLeft a ^^^ c0
    let c2 := c2 + c3
    let c3 := c3.rotateLeft b ^^^ c2
    let inject := n % 2 == 1
    (if inject then c0 + k0 + BitVec.ofNat 32 n else c0, c3, if inject then c2 + k1 + BitVec.ofNat 32 n else c2, c1)

/-- `rngc_block` (R89): four output words, the least significant first. -/
def rngBlock (ctr : BitVec 128) (key : DWord) : List Word :=
  let c := (ctr.extractLsb' 0 32, ctr.extractLsb' 32 32, ctr.extractLsb' 64 32, ctr.extractLsb' 96 32)
  match [(1, 13, 29), (2, 17, 3), (3, 26, 21), (4, 7, 16), (5, 19, 9), (6, 11, 24)].foldl
      (rngStep (key.extractLsb' 0 32) (key.extractLsb' 32 32)) c with
  | (c0, c1, c2, c3) => [c0, c1, c2, c3]

/-- `uniform_f32` (R90): w[31:8] × 2^-24. -/
def uniformF32 (w : Word) : Word :=
  let n := bitsOf w 31 8
  if n = 0 then 0 else BitVec.ofNat 32 (Fmt.round Ty.f32.fmt .rne false ⟨false, n, -24, false⟩).1

/-- Four registers as a counter, the first least significant. -/
def counterOf (r : Nat → Word) : BitVec 128 := r 3 ++ r 2 ++ r 1 ++ r 0

/-- R177. -/
def execRngc (f : XL) (s : State) : Host.Outcome State Fault Refusal :=
  let form := formRngc f
  let d := f.h.dst.toNat
  let a := f.h.src1.toNat
  let b := f.h.src2.toNat
  issue form f.h.bytes (fun is s => .done (is.onCtx s fun c =>
    let out := fun (ctr : BitVec 128) (key : DWord) =>
      (rngBlock ctr key).map fun w => if bitOf f.mode 0 then uniformF32 w else w
    let scalarCtr := counterOf fun i => c.s (a + i)
    if bitOf f.mode 1 then
      let ws := out scalarCtr (c.q b)
      (List.range 4).foldl (fun c i => c.writeLoc (locS (d + i)) (ws.getD i 0)) c
    else
      (lanesOf is.acting).foldl (fun c' l =>
        let ctr := if kindBit f.kind 1 then scalarCtr + BitVec.ofNat 128 l else counterOf fun i => c.vreg (a + i) l
        let ws := out ctr (if kindBit f.kind 2 then c.q b else c.d b l)
        (List.range 4).foldl (fun c i => c.writeLoc (locV (d + i) l) (ws.getD i 0)) c') c)) s

end Sys2Proof.Machine
end

