-- ==== Sys2Proof/Machine/Vocab.lean ====
section
/-! DEFINITION. The vocabulary unit (R88, R178 to R184). -/

namespace Sys2Proof

open Machine

/-! ## Arithmetic of the unit (R84, R88) -/

/-- FP32 with RNE, subnormals honoured. -/
def vocabEnv : FpEnv := ⟨.rne, false⟩

/-- A result of the unit: every NaN is the canonical one (R84). -/
def plainNan (r : Nat × Flags) : Nat × Flags := if Ty.f32.fmt.isNan r.1 then (Ty.f32.fmt.nan, r.2) else r

/-- FP32 addition of the unit. -/
def vocabAdd (a b : Nat) : Nat × Flags := plainNan (Ty.f32.fmt.add vocabEnv a b)

/-- A value of which the absent one is the other (R88). -/
def vocabPair (a b : Option Nat) : Option Nat × Flags :=
  match a, b with
  | some x, some y => let r := vocabAdd x y; (some r.1, r.2)
  | some x, none => (some x, 0)
  | none, y => (y, 0)

/-- One level of a block's sum. -/
def vocabLevel : List (Option Nat) → List (Option Nat) × Flags
  | a :: b :: rest =>
    let r := vocabPair a b
    let rs := vocabLevel rest
    (r.1 :: rs.1, r.2 ||| rs.2)
  | l => (l, 0)

/-- The pairwise sum of a block over so many levels (R88). -/
def vocabBlock : Nat → List (Option Nat) → Option Nat × Flags
  | 0, l => (l.head?.join, 0)
  | n + 1, l =>
    let r := vocabLevel l
    let rs := vocabBlock n r.1
    (rs.1, r.2 ||| rs.2)

/-- The place of an FP32 value that is no NaN in the order of values, zeros equal; a NaN stands below all (R182). -/
def vocabRank (x : Word) : Nat :=
  let mag := x.toNat % 2 ^ 31
  if Ty.f32.fmt.isNan x.toNat then 0 else if bitOf x 31 then 2 ^ 31 - mag else 2 ^ 31 + mag

/-- The pattern is an infinity. -/
def isInf (x : Nat) : Bool := x % 2 ^ 31 == Ty.f32.fmt.infPattern

/-! ## One block of an operation -/

/-- Files an element behind those of its rank and above the lower ones, and keeps the k best (R182). -/
def rankInto (k : Nat) (e : Word × Nat) : List (Word × Nat) → List (Word × Nat)
  | [] => [e].take k
  | d :: ds =>
    if vocabRank d.1 < vocabRank e.1 then (e :: d :: ds).take k
    else
      match k with
      | 0 => []
      | k + 1 => d :: rankInto k e ds

/-- `IV` for the signalling NaNs among the elements (R179). -/
def signalling (xs : List Word) : Flags := flagIf (xs.any fun x => Ty.f32.fmt.isSignalling x.toNat) flagIV

/-- The greater of two values that are no NaNs, as the unit's maximum. -/
def vocabMax (a : Option Word) (x : Word) : Option Word :=
  if Ty.f32.fmt.isNan x.toNat then a
  else
    match a with
    | none => some x
    | some m => some (BitVec.ofNat 32 (Ty.f32.fmt.minMax false true m.toNat x.toNat).1)

/-- The exponential of an element of `vsoftmax`, none for a NaN (R183). -/
def softExp (m param : Nat) (x : Word) : Option Nat × Flags :=
  let x := x.toNat
  if Ty.f32.fmt.isNan x then (none, 0)
  else if isInf m then (some (if x = m then 0x3F800000 else 0), 0)
  else
    let d := Ty.f32.fmt.sub vocabEnv x m
    let z := Ty.f32.fmt.div vocabEnv d.1 param
    let e := expF32 z.1
    (some e.1, d.2 ||| z.2 ||| e.2)

/-- The exponentials of some elements with their flags. -/
def softExps (m param : Nat) (xs : List Word) : List (Option Nat) × Flags :=
  let rs := xs.map (softExp m param)
  (rs.map Prod.fst, rs.foldl (fun f r => f ||| r.2) 0)

/-- T is finite and above 0 (R183). -/
def goodTemperature (t : Word) : Bool :=
  !Ty.f32.fmt.isNan t.toNat && !isInf t.toNat && !bitOf t 31 && t != 0

/-- A weight as `vsample` uses it, with `IV` for one that is a NaN or below 0 (R184). -/
def weight (p : Word) : Nat × Flags :=
  if Ty.f32.fmt.isNan p.toNat || (bitOf p 31 && p != 0x80000000) then (0, flagIV) else (p.toNat, 0)

/-- u as `vsample` uses it (R184). -/
def clampU (u : Word) : Nat :=
  if Ty.f32.fmt.isNan u.toNat || (bitOf u 31 && u != 0x80000000) then 0
  else if 0x3F800000 ≤ u.toNat && !bitOf u 31 then 0x3F7FFFFF
  else u.toNat

/-- a is greater than b: false where one is a NaN. -/
def vocabGreater (a b : Nat) : Bool := (Ty.f32.fmt.compare false 4 a b).1

namespace Machine

/-- One weight of pass 0 of `vsample`. -/
def Vocab.weigh (v : Vocab) (i : Nat) (p : Word) : Vocab :=
  let (q, fl) := weight p
  let sum := vocabAdd (v.total.getD 0).toNat q
  { v with
    flags := v.flags ||| fl ||| sum.2
    total := some (BitVec.ofNat 32 sum.1)
    firstInf := if v.firstInf.isNone && isInf q then some i else v.firstInf
    lastPos := if vocabGreater q 0 then some i else v.lastPos }

/-- One weight of pass 1 of `vsample`: the running sum passes t. -/
def Vocab.draw (v : Vocab) (t i : Nat) (p : Word) : Vocab :=
  if v.chosen.isSome then v
  else
    let q := (weight p).1
    let sum := vocabAdd v.acc.toNat q
    { v with
      acc := BitVec.ofNat 32 sum.1, flags := v.flags ||| sum.2
      chosen := if vocabGreater q 0 && vocabGreater sum.1 t then some i else none }

/-- t of `vsample` (R184). -/
def Vocab.target (v : Vocab) : Nat × Flags :=
  plainNan (Ty.f32.fmt.mul vocabEnv (clampU v.param) ((v.total.getD 0).toNat))

/-- The partial results of a pass with the elements of one more block, the first of index `i0` (R182 to R184). -/
def Vocab.consume (v : Vocab) (i0 : Nat) (xs : List Word) : Vocab :=
  let numbered := xs.zipIdx.map fun e => (e.1, i0 + e.2)
  match v.kind, v.pass with
  | 1, _ =>
    { v with best := numbered.foldl (fun l e => rankInto v.k e l) v.best, flags := v.flags ||| signalling xs }
  | 2, 0 => { v with top := xs.foldl vocabMax v.top, flags := v.flags ||| signalling xs }
  | 2, 1 =>
    let es := softExps ((v.top.getD 0).toNat) v.param.toNat xs
    let b := vocabBlock 8 es.1
    let sum := vocabPair (v.total.map fun w : Word => w.toNat) b.1
    { v with total := sum.1.map (BitVec.ofNat 32 ·), flags := v.flags ||| es.2 ||| b.2 ||| sum.2 }
  | 2, _ => v
  | _, 0 => numbered.foldl (fun v e => v.weigh e.2 e.1) v
  | _, _ =>
    let t := v.target.1
    numbered.foldl (fun v e => v.draw t e.2 e.1) v

/-- The blocks of a pass. -/
def Vocab.blocksOf (v : Vocab) : Nat := (v.n + 255) / 256

/-- The pass is over: its blocks are done, or the index is drawn. -/
def Vocab.passOver (v : Vocab) : Bool := decide (v.blocksOf ≤ v.blocks) || v.chosen.isSome

/-- The results of `vtopk` (R182). -/
def Vocab.topResults (v : Vocab) : List (Nat × Word) :=
  (List.range v.k).flatMap fun l =>
    let e := v.best.getD l (0xFF800000#32, 0xFFFFFFFF)
    let x := if Ty.f32.fmt.isNan e.1.toNat then 0x7FC00000#32 else e.1
    [(locV v.dst l, x), (locV (v.dst + 1) l, BitVec.ofNat 32 e.2)]

/-- The results of pass 2 of `vsoftmax` on the captured row: each exponential over the sum (R183). -/
def Vocab.softResults (v : Vocab) (xs : List Word) : List (Nat × Word) × Flags :=
  let es := softExps ((v.top.getD 0).toNat) v.param.toNat xs
  let rs := es.1.map fun e => match e with
    | none => (Ty.f32.fmt.nan, (0 : Flags))
    | some x => plainNan (Ty.f32.fmt.div vocabEnv x ((v.total.getD 0).toNat))
  (rs.zipIdx.map fun r => (locV v.dst r.2, BitVec.ofNat 32 r.1.1), rs.foldl (fun f r => f ||| r.2) 0)

/-- What the end of a pass brings: the next pass, or the results and their flags. -/
inductive VocabEnd where
  | again (v : Vocab)
  | results (values : List (Nat × Word)) (flags : Flags)
deriving DecidableEq, Repr

/-- The next pass. -/
def Vocab.nextPass (v : Vocab) (fl : Flags) : VocabEnd :=
  .again { v with pass := v.pass + 1, blocks := 0, flags := v.flags ||| fl }

/-- The end of a pass whose last block held `xs` (R182 to R184). -/
def Vocab.endPass (v : Vocab) (xs : List Word) : VocabEnd :=
  let nan := BitVec.ofNat 32 Ty.f32.fmt.nan
  match v.kind, v.pass with
  | 1, _ => .results v.topResults v.flags
  | 2, 0 =>
    let bad := !goodTemperature v.param
    if bad || v.top.isNone then .results (v.dests.map fun k => (k, nan)) (v.flags ||| flagIf bad flagIV)
    else v.nextPass 0
  | 2, 1 =>
    if v.captured.isSome then v.nextPass 0
    else .results [(locS v.dst, v.top.getD 0), (locS (v.dst + 1), v.total.getD 0)] v.flags
  | 2, _ => let r := v.softResults xs; .results r.1 (v.flags ||| r.2)
  | _, 0 =>
    match v.firstInf with
    | some i => .results [(locS v.dst, BitVec.ofNat 32 i)] (v.flags &&& flagIV)
    | none =>
      if (v.total.getD 0).toNat % 2 ^ 31 = 0 then .results [(locS v.dst, 0xFFFFFFFF#32)] v.flags
      else v.nextPass v.target.2
  | _, _ => .results [(locS v.dst, BitVec.ofNat 32 ((v.chosen.orElse fun _ => v.lastPos).getD 0))] v.flags

/-! ## The row -/

/-- Words of little-endian bytes; none where a byte could not be read. -/
def wordsOfBytes : List (Option Byte) → Option (List Word)
  | some a :: some b :: some c :: some d :: rest => (wordsOfBytes rest).map fun ws => (d ++ c ++ b ++ a) :: ws
  | [] => some []
  | _ => none

/-- Reads `k` bytes of a row from byte `j`, at the home slices or at the scratch port (R227). -/
def State.rowBytes (s : State) (n : Nat) (o : Op) (side : Side) (j k : Nat) : State × Except Trap (List (Option Byte)) :=
  match s.resolveParts n o side 0 (side.parts j k) with
  | (s, .error t) => (s, .error t)
  | (s, .ok parts) =>
    match s.readParts n o parts with
    | (s, bytes, []) => (s, .ok bytes)
    | (s, _, x :: _) => (s, .error { Trap.of .poison with va := BitVec.ofNat 64 x })

/-- The elements of the next block of an operation. -/
def State.vocabRow (s : State) (n : Nat) (o : Op) (v : Vocab) : State × Except Trap (List Word) :=
  let i0 := 256 * v.blocks
  let count := Nat.min 256 (v.n - i0)
  match v.captured with
  | some xs => (s, .ok ((xs.drop i0).take count))
  | none =>
    let side : Side := match v.scratchRow with
      | some (core, off) => .scratch core off
      | none => .global v.row
    match s.rowBytes n o side (4 * i0) (4 * count) with
    | (s, .error t) => (s, .error t)
    | (s, .ok bytes) =>
      match wordsOfBytes bytes with
      | some ws => (s, .ok ws)
      | none => (s, .error (Trap.of .poison))

/-! ## `%vprog` (R180) -/

/-- What `%vprog` shows of an operation in flight. -/
def Vocab.progress (v : Vocab) : Word :=
  BitVec.ofNat 32 (2 ^ 31 + v.kind % 8 * 2 ^ 28 + (if v.captured.isSome then 2 ^ 27 else 0) + v.pass % 4 * 2 ^ 25
    + v.blocks % 2 ^ 17)

/-- Writes `%vprog`. -/
def Ctx.setVprog (c : Ctx) (w : Word) : Ctx := { c with special := { c.special with vprog := w } }

/-! ## Issue (R178, R179) -/

/-- The group has a vocabulary operation in flight. -/
def State.vocabBusy (s : State) (id : Nat) : Bool :=
  s.ops.any fun e => e.2.ctx == id && (match e.2.kind with
    | .vocab _ => true
    | _ => false)

/-- A vocabulary operation at its start; a signalling NaN as u of `vsample` raises `IV` (R84, log entry 118). -/
def Vocab.start (kind dst n k : Nat) (param : Word) (row : DWord) (captured : Option (List Word))
    (scratchRow : Option (Nat × Nat)) : Vocab :=
  { kind := kind, dst := dst, row := row, captured := captured, scratchRow := scratchRow, n := n, k := k, param := param
    pass := 0, blocks := 0, best := [], top := none, total := none, acc := 0, firstInf := none, lastPos := none
    chosen := none, flags := if kind = 3 then signalling [param] else 0 }

/-- A checked operation waits for the unit and for its range-lock entry, and commits (R179). -/
def commitVocab (is : Issue) (s : State) (v : Vocab) (range : List Range) : Res :=
  if s.vocabBusy is.id || s.rangesBlocked is.c.core range then .wait s .retry
  else
    let s := if v.captured.isNone && v.scratchRow.isNone then s.writeBack is.id else s.settleReads is.id
    let s := s.modCtx is.id fun c => (c.emptyLocs v.dests).setVprog v.progress
    .commit ((s.holdRanges range).addOp (is.op s (.vocab v)))

/-- The lanes of its destination that a vocabulary instruction writes: the first k for `vtopk` (R182), the first n for a lane row
of `vsoftmax` (R183). The others' destinations have no lanes. -/
def vocabLanes (f : XL) (kind k : Nat) (is : Issue) : LaneMask :=
  is.acting &&& laneSet (List.range (if kind = 1 then k else Nat.min (is.c.s f.h.src2.toNat).toNat 64))

/-- The checks of R178 in their order; `k` is 0 but for `vtopk`. -/
def issueVocab (f : XL) (form : Form) (kind k : Nat) (s : State) : Host.Outcome State Fault Refusal :=
  issueOn form f.h.bytes [] (fun is _ => kind == 1 && (k == 0 || decide (is.c.node.width < k)
      || laneSet (List.range k) &&& ~~~is.sp.mask != 0)) (fun _ s => !s.hasVocab) (vocabLanes f kind k) (fun is s =>
    let n := (is.c.s f.h.src2.toNat).toNat
    let param := is.c.s (f.h.src2.toNat + 1)
    let base := form.arg is.c 1 0
    let lanes := laneSet (List.range n)
    if n = 0 || decide (2 ^ 24 < n) then .trap s (Trap.of .illegal)
    else if f.row = 1 then
      if is.c.node.width < n || lanes &&& ~~~is.sp.mask != 0 then .trap s (Trap.of .illegal)
      else
        let xs := tabulate n fun l => is.c.vreg f.h.src1.toNat l
        commitVocab is s (Vocab.start kind f.h.dst.toNat n k param 0 (some xs) none) []
    else if base.toNat % 4 != 0 then .trap s { Trap.of .misaligned with va := base }
    else if f.row = 2 then
      match s.ownScratch is.c base.toNat (4 * n) with
      | .error t => .trap s t
      | .ok off =>
        let core := s.ownCore is.c
        commitVocab is s (Vocab.start kind f.h.dst.toNat n k param 0 none (some (core, off)))
          [scratchRange is core off (4 * n) false]
    else if !canonical base then .trap s (Trap.atAddr .protection base 0)
    else
      commitVocab is s (Vocab.start kind f.h.dst.toNat n k param base none none)
        [s.globalRange is base.toNat (4 * n) false]) s

/-- R182. -/
def execVtopk (f : XL) (s : State) : Host.Outcome State Fault Refusal :=
  issueVocab f (formVocab f (.v 2 1) (bitsOf f.imm 24 7 == 0)) 1 (bitsOf f.imm 6 0) s
/-- R183. -/
def execVsoftmax (f : XL) (s : State) : Host.Outcome State Fault Refusal :=
  issueVocab f (formVocab f (if f.row = 1 then .v1 else .q) (f.imm == 0)) 2 0 s
/-- R184. -/
def execVsample (f : XL) (s : State) : Host.Outcome State Fault Refusal :=
  issueVocab f (formVocab f .s1 (f.imm == 0)) 3 0 s

/-! ## The unit at work (R179, R181) -/

/-- An operation is over: its results land and its flags are posted. -/
def State.finishVocab (s : State) (n : Nat) (o : Op) (values : List (Nat × Word)) (flags : Flags) : State :=
  ((s.landAt o.ctx n values).modCtx o.ctx fun c => (c.postFlags flags).setVprog 0).endOp n

/-- The block with these elements is done. -/
def State.vocabStep (s : State) (n : Nat) (o : Op) (v : Vocab) (xs : List Word) : State :=
  let keep := fun v : Vocab =>
    (s.goOn n (.vocab v)).modCtx o.ctx fun c => c.setVprog v.progress
  let v := { v.consume (256 * v.blocks) xs with blocks := v.blocks + 1 }
  if !v.passOver then keep v
  else
    match v.endPass xs with
    | .again v => keep v
    | .results values flags => s.finishVocab n o values flags

/-- The operation of which a die's unit does the next block: the operations whose contexts are in the active bank and that no
fault stops take turns in the order of their issue (R179). -/
def State.vocabNext (s : State) (die : Nat) : Option Nat :=
  let ready := (s.ops.filter fun e => e.2.die == die && e.2.fault.isNone && (match e.2.kind with
    | .vocab _ => ((s.ctxs.look e.2.ctx).map (·.isActive)).getD false
    | _ => false)).map Prod.fst
  (ready.find? fun n => decide (s.vocabLast.at 0 die < n + 1)).orElse fun _ => ready.head?

/-- R179: the unit completes one block of the operation whose turn it is. -/
def execVocabBlock (op : Nat) (s : State) : Host.Outcome State Fault Refusal :=
  match s.ops.look op with
  | none => .next s
  | some o =>
    match o.kind with
    | .vocab v =>
      if s.vocabNext o.die != some op then .next s
      else
        let s := { s with vocabLast := s.vocabLast.put 0 o.die (op + 1) }
        match s.vocabRow op o v with
        | (s, .error t) => .next (s.meetFault op t)
        | (s, .ok xs) => .next (s.vocabStep op o v xs)
    | _ => .next s

end Machine

end Sys2Proof
end

