-- ==== Sys2Proof/Machine/Halos.lean ====
section
/-! DEFINITION. Halos and step frames (R293 to R295), and the events that every engine shares: a producer fills (R105), an
atomic is performed (R192, R286), an engine meets a fault (R305). -/

namespace Sys2Proof.Machine

/-! ## halo at issue (R294) -/

/-- A step frame at issue: alignment, a canonical address, its translation, device memory. -/
def State.stepFrame (s : State) (is : Issue) (va : DWord) (kind : Nat) : State × Except Trap Nat :=
  if va.toNat % 16 != 0 then (s, .error { Trap.of .misaligned with va := va })
  else
    match s.translate is.id is.c va kind with
    | (s, .error t) => (s, .error t)
    | (s, .ok m) => if inHost m.pa then (s, .error (Trap.atAddr .protection va kind)) else (s, .ok m.pa)

/-- A halo commits and runs on the die's halo engine. -/
def startHalo (is : Issue) (trees : Option (Tree × Tree)) (origin : List Word) (step : Nat) (s : State) : Res :=
  let s := s.writeBack is.id
  let s := if trees.isSome then s.dropCopies is.c.core else s.dropClean is.c.core step 16
  .commit (s.addOp (is.op s (.halo trees origin step none 0 false)))

/-- R294: both addresses are checked before either is read. -/
def execHalo (f : XT) (s : State) : Host.Outcome State Fault Refusal :=
  let form := formHalo f
  issue form f.h.bytes (fun is s =>
    let origin := tabulate 3 fun i => is.c.s (f.h.src1.toNat + i)
    let replica := form.arg is.c 2 0
    let frame := form.arg is.c 3 0
    if origin.any fun w : Word => w.toNat % 8 != 0 then .trap s (Trap.of .illegal)
    else
      match is.c.slots.look f.slot with
      | none => .trap s (Trap.of .controlBlock)
      | some t =>
        if replica.toNat % 64 != 0 then .trap s { Trap.of .misaligned with va := replica }
        else if frame.toNat % 16 != 0 then .trap s { Trap.of .misaligned with va := frame }
        else if !canonical replica then .trap s (Trap.atAddr .protection replica 0)
        else if !canonical frame then .trap s (Trap.atAddr .protection frame 2)
        else
          match s.readTree is.id is.c replica with
          | (s, .error t) => .trap s t
          | (s, .ok r) =>
            match s.stepFrame is frame 2 with
            | (s, .error t) => .trap s t
            | (s, .ok pa) => startHalo is (some (t, r)) origin pa s) s

/-- R294: `halo.post`. -/
def execHaloPostOnly (f : XT) (s : State) : Host.Outcome State Fault Refusal :=
  let form := formHaloPost f
  issue form f.h.bytes (fun is s =>
    match s.stepFrame is (form.arg is.c 3 0) 2 with
    | (s, .error t) => .trap s t
    | (s, .ok pa) => startHalo is none [] pa s) s

/-! ## The halo engine (R294) -/

/-- The leaf of the source, or 0. -/
def engSource (o : Op) (src : Tree) (origin : List Word) : Eng Nat := do
  match ← engPath o src (coordOf origin 0) (coordOf origin 1) (coordOf origin 2) with
  | none => return 0
  | some p => return p.2.2.2

/-- What the first part of a halo finds: no source leaf; a root entry that must be read again; a slot that its insertion now
holds; both leaves' addresses. -/
inductive HaloFound where
  | absent
  | busy
  | holds (h : Held)
  | leaves (src dst : DWord)
deriving DecidableEq, Repr

/-- Finds the source leaf and finds or creates the destination leaf; unequal formats, with or without a source leaf, and a failed
insertion are `CONTROL_BLOCK`. -/
def engHaloFind (o : Op) (src dst : Tree) (origin : List Word) (held : Option Held) : Eng HaloFound := do
  if src.fmt ≠ dst.fmt then throw (Trap.of .controlBlock)
  let leaf ← engSource o src origin
  if leaf = 0 then return .absent
  else
    match ← engInsert o dst held (coordOf origin 0) (coordOf origin 1) (coordOf origin 2) with
    | .busy => return .busy
    | .holds h => return .holds h
    | .failed _ => throw (Trap.of .controlBlock)
    | .found n _ => return .leaves (src.leafAt leaf) (dst.leafAt n)

/-- The bytes of a leaf that a halo copies: `ACTIVE` and `VALUE`. -/
def Tree.haloBytes (t : Tree) : Nat := 64 + 512 * t.size

/-- Copies the next bytes of `ACTIVE` and `VALUE`, up to the end of either or of a page, behind those moved; how many, and whether
they hold a bit of `ACTIVE`. -/
def engHaloPiece (o : Op) (dst : Tree) (a b : DWord) (moved : Nat) : Eng (Nat × Bool) := do
  let off := BitVec.ofNat 64 (if moved < 64 then 16 + moved else 64 + moved)
  let left := (if moved < 64 then 64 else dst.haloBytes) - moved
  let k := Nat.min left (Nat.min (toPageEnd (a + off)) (toPageEnd (b + off)))
  let x ← engRead o (a + off) k
  engWrite o (b + off) (numberBytes k x)
  return (k, decide (moved < 64) && x != 0)

/-- ORs the `ACTMASK` bits on the destination's path. -/
def engHaloMark (o : Op) (dst : Tree) (origin : List Word) : Eng Unit := do
  let x := coordOf origin 0
  let y := coordOf origin 1
  let z := coordOf origin 2
  match ← engPath o dst x y z with
  | none => return
  | some (n3, n2, n1, _) =>
    let act := fun n : Nat => dst.nodeAt n + 80
    [(act n1, childIndex x y z 3), (act n2, childIndex x y z 6), (act n3, childIndex x y z 9)].forM fun e =>
      engBit o e.1 e.2 true

/-- The range-lock entry of a leaf (R199). -/
def State.leafRange (s : State) (n : Nat) (o : Op) (t : Tree) (va : DWord) (write : Bool) : Range :=
  let lo := va.toNat % 2 ^ 52
  { core := o.core, op := n, scratch := false, owner := s.asroot o.graph, lo := lo, hi := lo + t.leafSlot, write := write }

/-- The address that an entry of an operation's begins with. -/
def State.heldLeaf (s : State) (n : Nat) (write : Bool) : Option DWord :=
  (s.ranges.find? fun r => r.op == n && r.write == write).map fun r => (BitVec.ofNat 52 r.lo).signExtend 64

/-- A cause that a halo meets: the supervisor may service it, or the frame takes `POISON` with the posting; the part of the
work that met it is undone, so that it can be done again. -/
def State.haloFault (before after : State) (n : Nat) (t : Trap) : State :=
  if t.cause.supervisor then before.meetFault n t else after.failEngine n t

/-- The state of a halo with trees at work. -/
structure HaloWork where
  src : Tree
  dst : Tree
  origin : List Word
  step : Nat
  held : Option Held
  moved : Nat
  active : Bool
deriving DecidableEq, Repr

/-- A halo stands with this work. -/
def State.keepHalo (s : State) (n : Nat) (w : HaloWork) : State :=
  s.goOn n (.halo (some (w.src, w.dst)) w.origin w.step w.held w.moved w.active)

/-- A part of a halo: the leaves are found and their entries registered, the bytes are copied, and behind the `ACTMASK` bits,
where a copied voxel is active, the halo posts. -/
def State.haloStep (s : State) (n : Nat) (o : Op) (w : HaloWork) : State :=
  match s.heldLeaf n false, s.heldLeaf n true with
  | some a, some b =>
    if w.moved < w.dst.haloBytes then
      match (engHaloPiece o w.dst a b w.moved).go s with
      | (s', .error t) => s.haloFault s' n t
      | (s', .ok (k, on)) => s'.keepHalo n { w with moved := w.moved + k, active := w.active || on }
    else
      match (if w.active then engHaloMark o w.dst w.origin else pure ()).go s with
      | (s', .error t) => s.haloFault s' n t
      | (s', .ok ()) => (s'.postStep o.ctx w.step false).endOp n
  | _, _ =>
    match (engHaloFind o w.src w.dst w.origin w.held).go s with
    | (s', .error t) => s.haloFault s' n t
    | (s', .ok .absent) => (s'.postStep o.ctx w.step false).endOp n
    | (_, .ok .busy) => s
    | (s', .ok (.holds h)) => s'.keepHalo n { w with held := some h }
    | (s', .ok (.leaves a b)) =>
      let rs := [s'.leafRange n o w.src a false, s'.leafRange n o w.dst b true]
      if s'.rangesBlocked o.core rs then s else ({ s' with ranges := s'.ranges ++ rs }.keepHalo n { w with held := none })

/-- R294: the halo engine does the next part of its work; behind the last one it posts. -/
def execHaloPost (op : Nat) (s : State) : Host.Outcome State Fault Refusal :=
  match s.ops.look op with
  | none => .next s
  | some o =>
    match o.kind with
    | .halo none _ step _ _ _ => .next ((s.postStep o.ctx step false).endOp op)
    | .halo (some (src, dst)) origin step held moved active =>
      .next (if o.fault.isSome then s else s.haloStep op o ⟨src, dst, origin, step, held, moved, active⟩)
    | _ => .next s

/-! ## stepb (R295) -/

/-- R295: a return is an edge target; otherwise the split parks and executes the instruction again. -/
def execStepb (f : XT) (s : State) : Host.Outcome State Fault Refusal :=
  let form := formStepb f
  issue form f.h.bytes (fun is s =>
    let va := form.arg is.c 1 0
    let t := (form.arg is.c 2 0).setWidth 32
    if 65536 ≤ t.toNat then .trap s (Trap.of .illegal)
    else if va.toNat % 16 != 0 then .trap s { Trap.of .misaligned with va := va }
    else
      match s.translate is.id is.c va 0 with
      | (s, .error t) => .trap s t
      | (s, .ok m) =>
        let parked := (s.writeBack is.id).askHome is.c.core is.id m.pa 16
        let frame := parked.readHome m.pa 16
        if parked.poisonedAt m.pa then .trap (parked.logUncorrectable m.pa) { Trap.of .poison with va := va }
        else if frame / 2 ^ 80 % 2 = 1 then .trap parked { Trap.of .poison with va := va }
        else if frame / 2 ^ 64 % 65536 ≠ t.toNat then .done (parked.crossEdge is.id)
        else
          let w : Watch :=
            { die := s.watchDie (.mem m.pa), place := .mem m.pa, bytes := 16, test := .step t, ctx := is.id, split := is.i
              team := none, next := is.sp.pc, edge := false, poll := false }
          match parked.watchPlace w with
          | (s, wait) => .wait s wait) s

/-! ## Events of every engine -/

/-- R105: a producer writes its destinations in some lanes and fills them. -/
def execProducerFill (op : Nat) (lanes : LaneMask) (s : State) : Host.Outcome State Fault Refusal :=
  match s.ops.look op with
  | none => .next s
  | some o =>
    if o.fault.isSome then .next s
    else
      match o.kind with
      | .walk w => .next (s.walkLanes op o w (w.lanes.filter fun e => lanes.getLsbD e.1))
      | _ => .next (s.fillLanes op o lanes)

/-- R192, R286: the next lane of an atomic or of a `vact` is performed. -/
def execAtomicPerform (op : Nat) (s : State) : Host.Outcome State Fault Refusal :=
  match s.ops.look op with
  | none => .next s
  | some o =>
    if o.fault.isSome then .next s
    else
      match o.kind with
      | .atomic aop ty rnd fpctl lanes ret flags engine =>
        .next (s.atomicStep op o aop ty rnd fpctl ret flags engine lanes)
      | .activity mode apred t lanes failed => .next (s.activityStep op o mode apred t failed lanes)
      | _ => .next s

/-- The state in which an operation has stopped on a fault; none where its work meets none. -/
def stoppedIn (op : Nat) (r : Host.Outcome State Fault Refusal) : Option State :=
  match r with
  | .next s => if ((s.ops.look op).bind (·.fault)).isSome then some s else none
  | _ => none

/-- R305: an engine meets a translation fault: a copy at one of its bytes, another engine at the work before it, in `part`
pops or in that lane. -/
def execEngineFault (op part : Nat) (s : State) : Host.Outcome State Fault Refusal :=
  match s.ops.look op with
  | none => .next s
  | some o =>
    if o.fault.isSome then .next s
    else
      match o.kind with
      | .copy rows _ _ _ _ =>
        match s.copyFault op o rows part with
        | (s', some t) => .next (if t.cause.supervisor then s'.meetFault op t else s)
        | (_, none) => .next s
      | .walk _ => .next ((stoppedIn op (execProducerFill op (laneBit part) s)).getD s)
      | .activity _ _ _ _ _ => .next ((stoppedIn op (execAtomicPerform op s)).getD s)
      | .insert _ _ _ _ => .next ((stoppedIn op (execAllocatorInsertDone op s)).getD s)
      | .dtrav _ => .next ((stoppedIn op (execPairWalkerEnd o.die part s)).getD s)
      | .halo _ _ _ _ _ _ => .next ((stoppedIn op (execHaloPost op s)).getD s)
      | .vocab _ => .next ((stoppedIn op (execVocabBlock op s)).getD s)
      | _ => .next s

end Sys2Proof.Machine
end

