-- ==== Sys2Proof/Machine/Matrix.lean ====
section
/-! DEFINITION. Tiles (R240 to R248), accumulator blocks (R249, R250, R263 to R266), gangs and the latch (R251, R252), matrix
and streaming operations (R253 to R257), and batches (R258 to R260). -/

namespace Sys2Proof

open Machine

/-- A stealable group takes `ILLEGAL` at every instruction of this family (R243). -/
def inStealable (is : Issue) (_s : State) : Bool := is.c.node.steal

namespace Machine

/-! ## Tile control, codebooks and tile moves (R244 to R247) -/

/-- R244. -/
def execTset (f : XT) (s : State) : Host.Outcome State Fault Refusal :=
  let form := formTset f
  issueWith form f.h.bytes [] inStealable never (fun is s =>
    let w : Word := (form.arg is.c 1 0).setWidth 32
    let n := f.h.dst.toNat
    if 10 ≤ bitsOf w 31 28 || bitsOf w 27 22 = 0 || 32 < bitsOf w 27 22 then .trap s (Trap.of .tileShape)
    else if s.tileBusy is.id is.c n then .wait s .retry
    else .done (is.onCtx s fun c => c.setTile n { c.tile n with control := w &&& 0xFFC00000#32 })) s

/-- R244. -/
def execTget (f : XT) (s : State) : Host.Outcome State Fault Refusal :=
  let form := formTget f
  issueWith form f.h.bytes [] inStealable never (fun is s =>
    .done (is.onCtx s fun c => form.writeDst c 0 ((c.tile f.h.src1.toNat).control.setWidth 64))) s

/-- R245: the empty check covers the first sixteen lanes. -/
def execTcb (f : XT) (s : State) : Host.Outcome State Fault Refusal :=
  let form := ((formTcb f).withDst .t .none).withSrc1 .v1 .none
  issueWith form f.h.bytes [] (fun is s => inStealable is s || 0xFFFF#64 &&& ~~~is.sp.mask != 0) never (fun is s =>
    let n := f.h.dst.toNat
    match is.c.sourcesState [(kindBit f.h.empty 1, locsOf false f.h.src1.toNat 1 0xFFFF#64)] with
    | .poisoned t => .trap s t
    | .emptyTrap t => .trap s t
    | .emptyWait ks => .wait s (.fill ks)
    | .full =>
      if s.tileBusy is.id is.c n then .wait s .retry
      else .done (is.onCtx s fun c =>
        let book := (List.range 16).foldl (fun m l => SMap.put m 0 l ((c.vreg f.h.src1.toNat l).setWidth 16))
          (c.tile n).codebook
        c.setTile n { c.tile n with codebook := book, badCodebook := false })) s

/-- The first row of a tile move reaches outside the tile (R246). -/
def badTileRow (is : Issue) (r : Nat) : Bool := decide (32 ≤ r) || decide (32 < r + is.c.node.width / 16)

/-- The byte of a tile where a lane's word starts (R246). -/
def tileByte (r l : Nat) : Nat := 64 * (r + l / 16) + 4 * (l % 16)

/-- R246: a long-latency producer, whose bytes are those in place at issue. What a row with an uncorrectable error gives is
poison, as a scratch read gives it (R315, log entry 134). -/
def execTld (f : XT) (s : State) : Host.Outcome State Fault Refusal :=
  let form := formTld f
  issueWith form f.h.bytes [] inStealable never (fun is s =>
    let r := (form.arg is.c 2 0).toNat
    if badTileRow is r then .trap s (Trap.of .tileShape)
    else
      let t := is.c.tile f.h.src1.toNat
      let values := (lanesOf is.acting).map fun l =>
        (locV f.h.dst.toNat l,
          if t.badRows.contains (r + l / 16) then none
          else some (BitVec.ofNat 32 (natOfBytes (tabulate 4 fun i => t.data.at 0 (tileByte r l + i)))),
          (0 : BitVec 5))
      .done ((is.onCtx s fun c => c.emptyLocs (form.dst.locs is.acting)).addOp (is.op s (.result values)))) s

/-- R246. -/
def execTst (f : XT) (s : State) : Host.Outcome State Fault Refusal :=
  let form := formTst f
  issueWith form f.h.bytes [] inStealable never (fun is s =>
    let r := (form.arg is.c 1 0).toNat
    let n := f.h.dst.toNat
    if badTileRow is r then .trap s (Trap.of .tileShape)
    else if s.tileBusy is.id is.c n then .wait s .retry
    else .done (is.onCtx s fun c =>
      c.setTile n ((c.tile n).write ((lanesOf is.acting).flatMap fun l =>
        tabulate 4 fun i => (tileByte r l + i, (c.vreg f.h.src2.toNat l).extractLsb' (8 * i) 8))))) s

/-- R247. -/
def execTzero (f : XT) (s : State) : Host.Outcome State Fault Refusal :=
  issueWith (formTzero f) f.h.bytes [] inStealable never (fun is s =>
    let n := f.h.dst.toNat
    if s.tileBusy is.id is.c n then .wait s .retry
    else .done (is.onCtx s fun c => c.setTile n { c.tile n with data := [], badRows := [] })) s

/-! ## Gangs (R251) -/

/-- The group of a team that a number names, if it has not ended. -/
def State.groupOf (s : State) (team g : Nat) : Option (Nat × Ctx) :=
  s.ctxs.find? fun e => e.2.team == team && e.2.group == g

/-- The groups that `%gang` names. -/
def gangGroups (w : Word) : List Nat := (List.range 32).filter fun g => w.getLsbD g

/-- R251. -/
def execGang (f : XT) (s : State) : Host.Outcome State Fault Refusal :=
  let form := formSrcS f
  issueWith form f.h.bytes [] inStealable never (fun is s =>
    let w : Word := (form.arg is.c 1 0).setWidth 32
    let gs := gangGroups w
    let here := gs.all fun g => ((s.groupOf is.c.team g).map fun e => s.ownCore e.2 == s.ownCore is.c).getD false
    let ok := w == 0 || (decide (2 ≤ gs.length ∧ gs.length ≤ 6) && gs.contains is.c.group && here)
    if !ok then .trap s (Trap.of .illegal)
    else .done (is.onCtx s fun c => { c with special := { c.special with gang := w } })) s

/-- The context of a gang's leader: the lowest-numbered group (R251). -/
def State.gangLeader (s : State) (c : Ctx) : Option (Nat × Ctx) :=
  ((gangGroups c.special.gang).head?).bind fun g => s.groupOf c.team g

/-! ## Accumulator elements (R249) -/

/-- The block, first word and number of words of element (m, n) of a result in block `acc`. -/
def accPlace (wide : Bool) (acc m n : Nat) : Nat × Nat × Nat :=
  if wide then (acc + m / 16, 64 * (m % 16) + 2 * n, 2) else (acc, 32 * m + n, 1)

/-- The block and the poison bits of an output row. -/
def accRow (wide : Bool) (acc m : Nat) : Nat × BitVec 32 :=
  if wide then (acc + m / 16, 3#32 <<< (2 * (m % 16))) else (acc, 1#32 <<< m)

/-- An element. -/
def Ctx.accElement (c : Ctx) (wide : Bool) (acc m n : Nat) : Nat :=
  let p := accPlace wide acc m n
  let b := (c.acc p.1).data
  if wide then (b.at 0 p.2.1).toNat + (b.at 0 (p.2.1 + 1)).toNat * 2 ^ 32 else (b.at 0 p.2.1).toNat

/-- Writes an element. -/
def Ctx.setAccElement (c : Ctx) (wide : Bool) (acc m n x : Nat) : Ctx :=
  let p := accPlace wide acc m n
  let b := c.acc p.1
  let data := b.data.put 0 p.2.1 (BitVec.ofNat 32 x)
  c.setAcc p.1 { b with data := if wide then data.put 0 (p.2.1 + 1) (BitVec.ofNat 32 (x / 2 ^ 32)) else data }

/-- An output row is poisoned. -/
def Ctx.rowPoisoned (c : Ctx) (wide : Bool) (acc m : Nat) : Bool :=
  let r := accRow wide acc m
  (c.acc r.1).poison &&& r.2 != 0

/-- Marks an output row poisoned, or clears its mark. -/
def Ctx.setRowPoison (c : Ctx) (wide : Bool) (acc m : Nat) (bad : Bool) : Ctx :=
  let r := accRow wide acc m
  let b := c.acc r.1
  c.setAcc r.1 { b with poison := if bad then b.poison ||| r.2 else b.poison &&& ~~~r.2 }

/-! ## The work of an operation (R253) -/

/-- What one stretch of k adds to a block: the operands, the accumulator format and G, the rows and columns, and whether the
elements start from +0. -/
structure Stretch where
  operands : Operands
  fmt : AccFmt
  g : Nat
  rows : Nat
  cols : Nat
  zero : Bool
deriving DecidableEq, Repr

/-- One output row: its elements and its flags. -/
def Ctx.accumulateRow (c : Ctx) (acc : Nat) (a : Stretch) (m : Nat) : Ctx × Flags :=
  let wide := a.fmt == .fp64
  (List.range a.cols).foldl (fun (r : Ctx × Flags) n =>
    let old := if a.zero then 0 else r.1.accElement wide acc m n
    let x := a.operands.element a.fmt a.g m n old
    (r.1.setAccElement wide acc m n x.1, r.2 ||| x.2)) (c, 0)

/-- The number of k-groups of a stretch (R86). -/
def Stretch.groups (a : Stretch) : Nat := (a.operands.k + a.g - 1) / a.g

/-- `count` k-groups of a stretch from number `start` on; what starts from +0 does so at the first of them. -/
def Stretch.piece (a : Stretch) (start count : Nat) : Stretch :=
  let k := start * a.g
  { a with
    zero := a.zero && start == 0
    operands := { a.operands with
      aoff := a.operands.aoff + k, boff := a.operands.boff + k, k := Nat.min (count * a.g) (a.operands.k - k) } }

/-- A stretch is added to block `acc`; a row that starts anew whole loses its poison, and the flags of each row join those
gathered, of which this context's have the numbers from `base` on. -/
def Ctx.accumulate (c : Ctx) (acc : Nat) (a : Stretch) (base : Nat) (flags : SMap Flags) : Ctx × SMap Flags :=
  let wide := a.fmt == .fp64
  (List.range a.rows).foldl (fun (r : Ctx × SMap Flags) m =>
    let x := r.1.accumulateRow acc a m
    let c := if a.zero && a.cols == 32 then x.1.setRowPoison wide acc m false else x.1
    (c, r.2.put 0 (base + m) (r.2.at 0 (base + m) ||| x.2))) (c, flags)

/-- The flags, numbered from `base` on, of the rows that are not poisoned (R253). -/
def Ctx.cleanFlags (c : Ctx) (wide : Bool) (acc base : Nat) (flags : SMap Flags) : Flags :=
  (List.range 32).foldl (fun m r => if c.rowPoisoned wide acc r then m else m ||| flags.at 0 (base + r)) (0 : Flags)

/-! ## Shapes (R253, R255) -/

/-- KA: a sparse A holds twice KT in dense elements. -/
def kLimit (kind fa : Nat) : Nat := if kind = 1 then tileLength fa else 2 * tileLength fa

/-- The metadata of a sparse operation is right (R255). -/
def sparseOk (kind : Nat) (a m : Tile) (aoff : Nat) : Bool :=
  let width := if kind = 2 then 8 else 4
  m.fmt == 9 && (a.fmt == 7 || narrowFmt a.fmt) && aoff % width == 0
    && (List.range 8).all fun v => metaOk kind (tileLength a.fmt) m.data v

/-- The A tile and the metadata of an operation fit (R253, R255). -/
def shapeA (op : MatOp) (a m : Tile) : Bool :=
  decide (op.aoff + op.k ≤ kLimit op.kind a.fmt) && (op.kind == 1 || sparseOk op.kind a m op.aoff)

/-- The tiles of an operation form a shape (R253, R255). -/
def shapeOk (op : MatOp) (a b m : Tile) : Bool :=
  (pairOf a.fmt b.fmt).isSome && shapeA op a m && decide (op.boff + op.k ≤ tileLength b.fmt)

/-- The stretch that an `mma` form adds in a member, from its tiles and the leader's B tile. -/
def MatOp.stretch (op : MatOp) (fpctl : Word) (a b m : Tile) : Option Stretch :=
  (pairOf a.fmt b.fmt).map fun p =>
    { operands :=
        { kind := op.kind, fa := a.fmt, fb := b.fmt, dataA := a.data, dataB := b.data, bookA := a.codebook
          bookB := b.codebook, meta_ := m.data, aoff := op.aoff, boff := op.boff, k := op.k, ftz := bitOf fpctl 3 }
      fmt := p.1, g := p.2, rows := a.rows, cols := b.rows, zero := op.zero }

/-! ## Batches and progress (R254, R258, R260) -/

/-- The number that programs see of the n-th batch: modulo 2^16, 0 skipped; 0 before the first (R258). -/
def batchShown (n : Nat) : Nat := if n = 0 then 0 else (n - 1) % 65535 + 1

/-- The latest of the batches closed so far, `last` in all, that programs see under number b; 0 where there is none. -/
def batchNamed (last b : Nat) : Nat := last - (batchShown last + 65535 - b) % 65535

/-- An operation of which a context is a member. -/
def Op.matOf (o : Op) (id : Nat) : Option MatOp :=
  match o.kind with
  | .matrix m => if m.members.any fun b => b.ctx == id then some m else none
  | _ => none

/-- The present stretch of k of an operation: an `mma` form's whole K, or a stage's. -/
def MatOp.present (m : MatOp) : MatOp :=
  if m.kind = 4 then { m with k := Nat.min (tileLength m.fa) (tileLength m.fb), zero := m.zero && m.done == 0 } else m

/-- The k-groups of the present stretch in a member, by the G of its own A tile and the leader's B tile (R86, R253). -/
def MatOp.memberGroups (m : MatOp) (b : MatMember) : Nat :=
  match pairOf b.fa m.fb with
  | some p => (m.present.k + p.2 - 1) / p.2
  | none => 0

/-- The k-groups of the present stretch: those of the member that has the most. -/
def MatOp.groups (m : MatOp) : Nat := m.members.foldl (fun n b => max n (m.memberGroups b)) 0

/-- The k-groups of an operation that have been added in a member (R260). -/
def MatOp.stepsOf (m : MatOp) (id : Nat) : Nat :=
  match m.members.find? fun b => b.ctx == id with
  | some b => if m.kind = 4 then m.steps else min m.kstep (m.memberGroups b)
  | none => m.steps

/-- The result is FP64 (R249). -/
def MatOp.wide (m : MatOp) : Bool := m.fa == 1

/-- The matrix operations of a group in flight, in the order of commit. -/
def State.matOps (s : State) (id : Nat) : List MatOp := s.ops.filterMap fun e => e.2.matOf id

/-- What `%mprog` shows (R260). -/
def State.matProgress (s : State) (id : Nat) : Word :=
  match s.matOps id with
  | [] => 0
  | m :: rest =>
    BitVec.ofNat 32 (2 ^ 31 + m.kind % 8 * 2 ^ 28 + rest.length % 8 * 2 ^ 24
      + m.stepsOf id % 2 ^ 24)

/-- `%mprog` of the members follows their operations. -/
def State.showMatrix (s : State) (ms : List MatMember) : State :=
  foldState ms s fun s b =>
    let w := s.matProgress b.ctx
    s.modCtx b.ctx fun c => { c with special := { c.special with mprog := w } }

/-- The group's open batch holds an operation from now on. -/
def Ctx.joinBatch (c : Ctx) : Ctx :=
  let n := c.batchNo + 1
  if c.batches.any fun b => b.number == n then c else { c with batches := c.batches ++ [⟨n, 0⟩] }

/-- The flags of an operation join those of its batch. -/
def Ctx.batchFlags (c : Ctx) (n : Nat) (fl : Flags) : Ctx :=
  { c with batches := c.batches.map fun b => if b.number == n then { b with flags := b.flags ||| fl } else b }

/-- A context as a member of an operation that it commits now, issued under this `%fpctl` (R81). -/
def Ctx.member (c : Ctx) (id : Nat) (mask : LaneMask) (fpctl : Word) (fa : Nat) : MatMember :=
  { ctx := id, lanes := if c.perLane then mask else 1, batch := c.batchNo + 1, fpctl := fpctl, fa := fa }

/-- The operation must wait for room or for a copy that reads its block (R254, R203). -/
def State.matrixWaits (s : State) (id : Nat) (m : MatOp) : Bool :=
  decide (8 ≤ (s.matOps id).length) || m.blocks.any fun b => s.blockRead id b

/-- Lists a committed operation: it is one operation of each member and of each member's batch (R252, R254). -/
def State.commitMatrix (s : State) (o : Op) (m : MatOp) : State :=
  let s := s.addOp { o with kind := .matrix m }
  let s := foldState m.members s fun s b => s.modCtx b.ctx Ctx.joinBatch
  s.showMatrix m.members

/-! ## `mma` (R252 to R255) -/

/-- The operation that an `mma` word asks of a group: `wide` says that both operands are f64. -/
def matOpOf (f : XT) (kind leader : Nat) (fa fb : Nat) : MatOp :=
  { kind := kind, acc := f.h.dst.toNat, tileA := f.h.src1.toNat, tileB := f.h.src2.toNat, tileM := f.h.src3.toNat
    zero := f.zero, aoff := f.aoff, boff := f.boff, k := f.k, leader := leader, members := [], fa := fa, fb := fb, ring := 0
    bars := 0, stages := 0, slots := 0, phases := [], done := 0, kstep := 0, spoiled := false, flags := [] }

/-- The group that holds the B tile: the leader of a ganged operation, unless it has ended, or the group itself. -/
def State.holderOf (s : State) (f : XT) (id : Nat) (c : Ctx) : Option (Nat × Ctx) :=
  if f.gang then s.gangLeader c else some (id, c)

/-- An FP64 result needs an even block and the next one (R249). -/
def badWide (is : Issue) (fa fb acc : Nat) : Bool :=
  fa == 1 && fb == 1 && (acc % 2 == 1 || decide (is.c.node.accs ≤ acc + 1))

/-- Some group named by `%gang` has ended (R252). -/
def State.gangBroken (s : State) (c : Ctx) : Bool :=
  (gangGroups c.special.gang).any fun g => (s.groupOf c.team g).isNone

/-- `mma`, `mma.bs` and `mma.vs`. A ganged form reads its B tile from the leader, so it does not wait for its own; where the
leader has ended, the checks of its own tiles come before `GANG_MISMATCH` (R252). A split that parks at the latch is an edge
source (R236). -/
def issueMma (i : Instr) (f : XT) (kind : Nat) (s : State) : Host.Outcome State Fault Refusal :=
  let plain := formMma f (kind != 1)
  let follows := f.gang && (match s.issuer with
    | some (id, _, c, _) => ((s.holderOf f id c).map Prod.fst) != some id
    | none => false)
  let form := if follows then plain.withSrc2 .t .none else plain
  let fmtA := fun is : Issue => (is.c.tile f.h.src1.toNat).fmt
  let fmtB := fun (is : Issue) (s : State) =>
    ((s.holderOf f is.id is.c).map fun h => (h.2.tile f.h.src2.toNat).fmt).getD 0
  issueWith form f.h.bytes []
    (fun is s => inStealable is s || (f.gang && is.c.special.gang == 0) || badWide is (fmtA is) (fmtB is s) f.h.dst.toNat)
    (fun _ s => (kind == 2 && s.vectorSparse) || (kind == 3 && !s.vectorSparse)) (fun is s =>
    match s.holderOf f is.id is.c with
    | none =>
      let op := matOpOf f kind is.id (fmtA is) 0
      if shapeA op (is.c.tile op.tileA) (is.c.tile op.tileM) then .trap s (Trap.of .gangMismatch)
      else .trap s (Trap.of .tileShape)
    | some holder =>
      let op := matOpOf f kind holder.1 (fmtA is) (fmtB is s)
      if !shapeOk op (is.c.tile op.tileA) (holder.2.tile op.tileB) (is.c.tile op.tileM) then .trap s (Trap.of .tileShape)
      else if f.gang && s.gangBroken is.c then .trap s (Trap.of .gangMismatch)
      else if s.matrixWaits is.id op then .wait s .retry
      else if f.gang then
        let a : Arrival :=
          { ctx := is.id, split := is.i, words := i, op := op, next := is.next, gang := is.c.special.gang
            fpctl := is.c.special.fpctl }
        .wait ((s.writeBack is.id).modCore is.c.core fun k =>
          { k with latch := (k.latch.filter fun b => b.ctx != is.id || b.split != is.i) ++ [a] }) .latch
      else
        .commit (s.commitMatrix (is.op s (.matrix op))
          { op with members := [is.c.member is.id is.sp.mask is.c.special.fpctl op.fa] })) s

/-- R253. -/
def execMma (f : XT) (s : State) : Host.Outcome State Fault Refusal := issueMma (.mma f) f 1 s
/-- R255, R267. -/
def execMmaBs (f : XT) (s : State) : Host.Outcome State Fault Refusal := issueMma (.mmaBs f) f 2 s
/-- R255, R267. -/
def execMmaVs (f : XT) (s : State) : Host.Outcome State Fault Refusal := issueMma (.mmaVs f) f 3 s

/-! ## The latch (R252) -/

/-- An arrival is present: its split is parked at the latch and its context is active. -/
def State.present (s : State) (a : Arrival) : Bool :=
  match s.ctxs.look a.ctx with
  | none => false
  | some c => c.isActive && ((c.splits.look a.split).map (·.wait)) == some .latch

/-- The arrival of a group of a team on a core. -/
def State.arrivalOf (s : State) (core team g : Nat) : Option Arrival :=
  (s.core core).latch.find? fun a => s.present a
    && ((s.ctxs.look a.ctx).map fun c => c.team == team && c.group == g).getD false

/-- Arrivals leave the latch. -/
def State.leaveLatch (s : State) (core : Nat) (as : List Arrival) : State :=
  s.modCore core fun k => { k with latch := k.latch.filter fun a => !as.contains a }

/-- Members take a cause at the latch, precisely. -/
def State.failLatch (s : State) (core : Nat) (as : List Arrival) (cause : Cause) : State :=
  foldState as (s.leaveLatch core as) fun s a =>
    (s.modSplit a.ctx a.split fun sp => { sp with wait := .ready }).takeTrap a.ctx a.split (Trap.of cause) none

/-- The tile of a context. -/
def State.tileOf (s : State) (id n : Nat) : Tile := ((s.ctxs.look id).map fun c => c.tile n).getD Tile.fresh

/-- The tile of a context is empty (R105). -/
def State.tileEmpty (s : State) (id n : Nat) : Bool := ((s.ctxs.look id).map fun c => c.isEmpty (locT n)).getD false

/-- Since it arrived, a tile that an arrival's operation reads has become empty, or its group has issued eight other
operations or a copy that reads its block (R105, R254, R203). -/
def State.arrivalWaits (s : State) (a : Arrival) : Bool :=
  s.tileEmpty a.ctx a.op.tileA || s.tileEmpty a.op.leader a.op.tileB || (a.op.kind != 1 && s.tileEmpty a.ctx a.op.tileM)
    || s.matrixWaits a.ctx a.op

/-- The operation of an arrival, with the formats that its tiles have now. -/
def State.arrivalOp (s : State) (a : Arrival) : MatOp :=
  { a.op with fa := (s.tileOf a.ctx a.op.tileA).fmt, fb := (s.tileOf a.op.leader a.op.tileB).fmt }

/-- An arrival's tiles still form a shape, for the block that they had when it arrived. -/
def State.arrivalOk (s : State) (a : Arrival) : Bool :=
  shapeOk a.op (s.tileOf a.ctx a.op.tileA) (s.tileOf a.op.leader a.op.tileB) (s.tileOf a.ctx a.op.tileM)
    && (s.arrivalOp a).wide == a.op.wide

/-- Every member commits in the same cycle: one operation, whose first arrival names the issuing split, and in which each member adds
the k-groups of its own A tile's format (R253). -/
def State.fireGang (s : State) (core : Nat) (a : Arrival) (as : List Arrival) : State :=
  let members := as.filterMap fun b => (s.ctxs.look b.ctx).map fun c =>
    c.member b.ctx (((c.splits.look b.split).map (·.mask)).getD 0) b.fpctl (s.arrivalOp b).fa
  match s.ctxs.look a.ctx, (s.ctxs.look a.ctx).bind fun c => c.splits.look a.split with
  | some c, some sp =>
    let m := { s.arrivalOp a with members := members }
    let o : Op :=
      { ctx := a.ctx, split := a.split, graph := c.graph, core := core, die := c.die
        lanes := if c.perLane then sp.mask else 1, regionNo := sp.regionNo, born := s.clock, pc := sp.pc, next := a.next
        fault := none, record := none, kind := .matrix m }
    let s := (s.leaveLatch core as).commitMatrix o m
    foldState as s fun s b =>
      let s := s.modSplit b.ctx b.split fun sp => { sp with pc := b.next, wait := .ready }
      (s.modCtx b.ctx fun c => c.newRegion b.split).issued b.ctx
  | _, _ => s

/-- R252: the latch fires for the gang of an arrival when every group that it names is present. The rule checks shapes before the
arrival only: of arrivals whose tiles have changed since, so that they form no shape any more, each takes `TILE_SHAPE` alone, and
the other members stay parked (log entry 147). -/
def execLatchFire (ctx : Nat) (s : State) : Host.Outcome State Fault Refusal :=
  match s.ctxs.look ctx with
  | none => .next s
  | some c =>
    let core := c.core
    match s.arrivalOf core c.team c.group with
    | none => .next s
    | some a =>
      let found := (gangGroups a.gang).map fun g => s.arrivalOf core c.team g
      let as := found.filterMap id
      if found.any Option.isNone || as.any s.arrivalWaits then .next s
      else if as.any fun b => b.words != a.words || b.gang != a.gang then .next (s.failLatch core as .gangMismatch)
      else
        match as.filter fun b => !s.arrivalOk b with
        | [] => .next (s.fireGang core (as.headD a) as)
        | bad => .next (s.failLatch core bad .tileShape)

/-! ## `mmas` (R256) -/

/-- The check of the ring and the barriers: their physical offsets in own scratch. -/
def State.ringOf (s : State) (c : Ctx) (slots : Nat) (ring bars : Word) : Except Trap (Nat × Nat) :=
  match s.ownScratch c ring.toNat (4096 * slots) with
  | .error t => .error t
  | .ok r =>
    match s.ownScratch c bars.toNat (32 * slots) with
    | .error t => .error t
    | .ok b =>
      if overlaps r (4096 * slots) b (32 * slots) then .error (Trap.atAddr .rangeLock (ring.setWidth 64) 0)
      else .ok (r, b)

/-- R256, R257: the phases of the full barriers are recorded at commit. -/
def execMmas (f : XT) (s : State) : Host.Outcome State Fault Refusal :=
  let form := formMmas f
  issueWith form f.h.bytes []
    (fun is s => inStealable is s || badWide is f.fa f.fb f.h.dst.toNat) never (fun is s =>
    let ring : Word := (form.arg is.c 1 0).setWidth 32
    let bars : Word := (form.arg is.c 2 0).setWidth 32
    let n := (form.arg is.c 3 0).toNat
    let slots := f.stages
    if n = 0 || 65535 < n then .trap s (Trap.of .illegal)
    else if ring.toNat % 64 != 0 then .trap s { Trap.of .misaligned with va := ring.setWidth 64 }
    else if bars.toNat % 16 != 0 then .trap s { Trap.of .misaligned with va := bars.setWidth 64 }
    else if (pairOf f.fa f.fb).isNone then .trap s (Trap.of .tileShape)
    else
      match s.ringOf is.c slots ring bars with
      | .error t => .trap s t
      | .ok (r, b) =>
        let core := s.ownCore is.c
        let s := s.settleReads is.id
        let op : MatOp :=
          { matOpOf f 4 is.id f.fa f.fb with
            zero := f.zero, aoff := 0, boff := 0, k := n * Nat.min (tileLength f.fa) (tileLength f.fb)
            members := [is.c.member is.id is.sp.mask is.c.special.fpctl f.fa], ring := r, bars := b, stages := n, slots := slots
            phases := tabulate slots fun i => s.barrierPhase core (b + 16 * i) }
        if s.matrixWaits is.id op then .wait s .retry
        else .commit (s.commitMatrix (is.op s (.matrix op)) op)) s

/-! ## The engine at work (R254, R257, R261, R266) -/

/-- The operation is stopped: a member's context is out of the active bank, or a bank swap of the core takes it out (R261,
R309). -/
def State.matStopped (s : State) (core : Nat) (m : MatOp) : Bool :=
  (s.core core).swap.isSome || !m.members.all fun b => ((s.ctxs.look b.ctx).map (·.isActive)).getD false

/-- The operation that a core's engine performs: the oldest that is not stopped, and behind no stopped one of its groups. -/
def State.matCurrent (s : State) (core : Nat) : Option (Nat × Op × MatOp) :=
  let all := s.ops.filterMap fun e => match e.2.kind with
    | .matrix m => if e.2.core == core then some (e.1, e.2, m) else none
    | _ => none
  let rec go : List (Nat × Op × MatOp) → List Nat → Option (Nat × Op × MatOp)
    | [], _ => none
    | e :: rest, held =>
      let mine := e.2.2.members.map (·.ctx)
      if s.matStopped core e.2.2 || mine.any held.contains then go rest (held ++ mine) else some e
  go all []

/-- Rows of a result are marked poisoned. -/
def State.poisonRows (s : State) (id : Nat) (m : MatOp) (rows : List Nat) : State :=
  s.modCtx id fun c => rows.foldl (fun c r => c.setRowPoison m.wide m.acc r true) c

/-- The operation completes: the flags of each member's rows that are not poisoned join its batch, and `%mprog` moves on. -/
def State.endMatrix (s : State) (n : Nat) (m : MatOp) : State :=
  let s := foldState m.members.zipIdx s fun s b => s.modCtx b.1.ctx fun c =>
    c.batchFlags b.1.batch (c.cleanFlags m.wide m.acc (32 * b.2) m.flags)
  (s.endOp n).showMatrix m.members

/-- The metadata of a vector lies in a row with an uncorrectable error (R255, R266). -/
def Tile.badVector (t : Tile) (kind kt v : Nat) : Bool :=
  let w := if kind = 2 then kt / 4 else 2 * kt
  t.badRows.any fun r => decide (w * v / 512 ≤ r ∧ r ≤ (w * v + w - 1) / 512)

/-- The rows of a result that errors of its operands poison (R266). -/
def MatOp.errorRows (m : MatOp) (a b t : Tile) : List Nat :=
  if b.badRows.any (fun r => decide (r < b.rows)) || (a.fmt == 8 && a.badCodebook) || (b.fmt == 8 && b.badCodebook) then
    List.range 32
  else
    (List.range 32).filter fun r =>
      (a.badRows.contains r && decide (r < a.rows)) || (m.kind != 1 && t.badVector m.kind (tileLength a.fmt) (r / 4))

/-- An image of 2,048 bytes at a scratch offset. -/
def State.stageImage (s : State) (core off : Nat) : SMap Byte :=
  (List.range 2048).foldl (fun m i => SMap.put m 0 i ((s.core core).scratch.at 0 (off + i))) []

/-- The rows of an image at a scratch offset that hold an uncorrectable error (R266). -/
def State.badRows (s : State) (core off : Nat) : List Nat :=
  (List.range 32).filter fun r => (List.range 2).any fun i => s.poisonedPlace (.scratch core (off + 64 * r + 32 * i))

/-- An image at a scratch offset as a tile of a format. -/
def State.stageTile (s : State) (core off fmt : Nat) : Tile :=
  { data := s.stageImage core off, control := BitVec.ofNat 32 (fmt * 2 ^ 28 + 32 * 2 ^ 22), codebook := []
    badRows := s.badRows core off, badCodebook := false }

/-- The offset of the stage's slot, of its full barrier and of its empty barrier. -/
def MatOp.slotAt (m : MatOp) : Nat := m.ring + 4096 * (m.done % m.slots)
/-- The full barrier of the next stage. -/
def MatOp.fullBar (m : MatOp) : Nat := m.bars + 16 * (m.done % m.slots)
/-- The empty barrier of the next stage. -/
def MatOp.emptyBar (m : MatOp) : Nat := m.bars + 16 * (m.slots + m.done % m.slots)

/-- The phase that the wait for the next stage leaves behind (R257). -/
def MatOp.awaitedPhase (m : MatOp) : Nat := (m.phases.getD (m.done % m.slots) 0 + m.done / m.slots) % 16

/-- What a member adds: its A tile, the leader's B tile and its metadata, or the images of the next stage. -/
def State.operandTiles (s : State) (core : Nat) (m : MatOp) (c : Ctx) : Tile × Tile × Tile :=
  if m.kind = 4 then (s.stageTile core m.slotAt m.fa, s.stageTile core (m.slotAt + 2048) m.fb, Tile.fresh)
  else (c.tile m.tileA, s.tileOf m.leader m.tileB, c.tile m.tileM)

/-- k-groups from `kstep` on are added in one member, number i of the operation; errors of the operands poison rows and are
reported (R266), and a stage whose full barrier had its `POISON` poisons them all (R257). -/
def State.addGroups (s : State) (core n count : Nat) (b : MatMember × Nat) : State :=
  match (s.ops.look n).map Op.kind, s.ctxs.look b.1.ctx with
  | some (.matrix m), some c =>
    match s.operandTiles core m c with
    | (ta, tb, tm) =>
      match m.present.stretch b.1.fpctl ta tb tm with
      | none => s
      | some a =>
        if m.kstep != 0 && decide (a.groups ≤ m.kstep) then s else
        let r := c.accumulate m.acc (a.piece m.kstep count) (32 * b.2) m.flags
        let bad := m.errorRows ta tb tm
        let s := (s.setCtx b.1.ctx r.1).modOp n fun o => { o with kind := .matrix { m with flags := r.2 } }
        let s := if m.spoiled then s.poisonRows b.1.ctx m (List.range 32)
          else if bad.isEmpty then s else s.poisonRows b.1.ctx m bad
        if bad.isEmpty || m.kstep != 0 then s else s.logScratchError core
  | _, _ => s

/-- `count` k-groups of the present stretch are added, in every member: each is added once, and what is written is the exact
state after it (R261). -/
def State.matAdd (s : State) (core n : Nat) (m : MatOp) (count : Nat) : State :=
  if count = 0 then s
  else
    let s := foldState m.members.zipIdx s (fun s b => s.addGroups core n count b)
    (s.modOp n fun o => match o.kind with
      | .matrix m => { o with kind := .matrix { m with kstep := m.kstep + count } }
      | _ => o).showMatrix m.members

/-- The operation as it stands now. -/
def State.matNow (s : State) (n : Nat) (m : MatOp) : MatOp :=
  match (s.ops.look n).map Op.kind with
  | some (.matrix m) => m
  | _ => m

/-- An `mma` form adds the k-groups that are left and completes. -/
def State.matWork (s : State) (core n : Nat) (m : MatOp) : State :=
  let s := s.matAdd core n m (m.groups - m.kstep)
  s.endMatrix n (s.matNow n m)

/-- R254: the core's current operation completes; a streaming one when its last stage is consumed. -/
def execMatrixOpComplete (core : Nat) (s : State) : Host.Outcome State Fault Refusal :=
  match s.matCurrent core with
  | none => .next s
  | some (n, _, m) =>
    if m.kind != 4 then .next (s.matWork core n m)
    else if m.done < m.stages then .next s
    else .next (s.endMatrix n m)

/-- What is left of the stage is added, its range-lock entry is released, and its slot's empty barrier is arrived at, which is
an edge source (R257, R236). -/
def State.consumeStage (s : State) (n : Nat) (o : Op) (m : MatOp) : State :=
  let s := s.matAdd o.core n m (m.groups - m.kstep)
  let s := { s with ranges := s.ranges.filter fun e => e.op != n }.writeBack o.ctx
  let e := s.tbar o.core m.emptyBar
  let s := s.setTbar o.core m.emptyBar (if e.pendArr = 0 then { e with overrun := true } else e.arrive 0)
  (s.modOp n fun o => { o with kind := .matrix { s.matNow n m with done := m.done + 1, kstep := 0, spoiled := false } }).showMatrix m.members

/-- A core's engine reads a stage: its range-lock entry stands. -/
def State.readsStage (s : State) (n : Nat) : Bool := s.ranges.any fun r => r.op == n

/-- The engine begins to read a stage: where its full barrier's `POISON` is 1 every row of the result is poisoned, and the stage is
locked for reading (R257). -/
def State.lockStage (s : State) (n : Nat) (o : Op) (m : MatOp) (range : Range) : State :=
  let spoiled := (s.tbar o.core m.fullBar).poison
  let s := if spoiled then s.poisonRows o.ctx m (List.range 32) else s
  { s with ranges := s.ranges ++ [range] }.modOp n fun o => { o with kind := .matrix { m with spoiled := spoiled } }

/-- R257: the next stage of the core's current streaming operation. Its full barrier's phase is reached, its `POISON` is seen and the
stage is locked for reading, or an `OVERRUN` ends the operation; then the stage is consumed. The wait is an edge target, which drops
nothing that the engine reads. -/
def execMmasStage (op : Nat) (s : State) : Host.Outcome State Fault Refusal :=
  match (s.ops.look op).bind fun o => s.matCurrent o.core with
  | none => .next s
  | some (n, o, m) =>
    if n != op || m.kind != 4 || decide (m.stages ≤ m.done) then .next s
    else if s.readsStage n then .next (s.consumeStage n o m)
    else
      let b := s.tbar o.core m.fullBar
      let range : Range :=
        { core := o.core, op := n, scratch := true, owner := o.core, lo := m.slotAt, hi := m.slotAt + 4096, write := false }
      if b.overrun then .next ((s.poisonRows o.ctx m (List.range 32)).endMatrix n m)
      else if b.phase = m.awaitedPhase || s.rangesBlocked o.core [range] then .next s
      else .next (s.lockStage n o m range)

/-- A core's engine is told to stop the operation it performs: it stops at a k-group boundary, which one a free value says (R261,
log entry 135). -/
def State.stopMatrix (s : State) (core : Nat) : State :=
  match s.matCurrent core with
  | none => s
  | some (n, _, m) =>
    if m.kind = 4 && !s.readsStage n then s
    else ({ s with free := s.free + 1 }).matAdd core n m (Config.freeChoice s.free % (m.groups - m.kstep + 1))

/-! ## Batches (R258, R259) -/

/-- R258. -/
def execMbatch (f : XT) (s : State) : Host.Outcome State Fault Refusal :=
  let form := formMbatch f
  issueWith form f.h.bytes [] inStealable never (fun is s =>
    .done (is.onCtx s fun c =>
      let n := c.batchNo + 1
      let c := if c.batches.any fun b => b.number == n then { c with batchNo := n } else c
      form.writeDst c 0 (BitVec.ofNat 64 (batchShown c.batchNo)))) s

/-- Batch b and the earlier ones post their flags, once (R259). -/
def Ctx.postBatches (c : Ctx) (b : Nat) : Ctx :=
  let due := fun e : Batch => decide (e.number ≤ b)
  let fl := (c.batches.filter due).foldl (fun m e => m ||| e.flags) (0 : Flags)
  { c.postFlags fl with batches := c.batches.filter fun e => !due e }

/-- R259: the split whose batch b has completed continues behind its `mwait`; the return is an edge target (R216). -/
def State.batchReturn (s : State) (id i n : Nat) (next : DWord) : State :=
  (((s.modCtx id fun c => c.postBatches n).crossEdge id).modSplit id i fun sp => { sp with wait := .ready, pc := next }).issued id

/-- R259: a return is an edge target (R216), and a split that parks is an edge source (R236). b is that of the issue, whatever
becomes of its register. -/
def execMwait (f : XT) (s : State) : Host.Outcome State Fault Refusal :=
  let form := formSrcS f
  issueWith form f.h.bytes [] inStealable never (fun is s =>
    let b := (form.arg is.c 1 0).toNat
    let n := if b = 0 then 0 else batchNamed is.c.batchNo b
    if 65536 ≤ b || 32768 ≤ (batchShown is.c.batchNo + 65536 - b) % 65536 then .trap s (Trap.of .illegal)
    else if s.batchDone is.id n then .done (((s.settleReads is.id).modCtx is.id fun c => c.postBatches n).crossEdge is.id)
    else .wait (s.writeBack is.id) (.batch n is.next)) s

/-! ## Accumulator moves (R263 to R265) -/

/-- A block that the node does not have, or of which a wide move needs the next (R51, R263). -/
def badBlock (f : XT) (wide : Bool) (is : Issue) (s : State) : Bool :=
  inStealable is s || decide (is.c.node.accs ≤ (if wide then f.block + 1 else f.block))

/-- The block and the first word of element e (R263). -/
def moveAt (f : XT) (e : Nat) : Nat × Nat := if f.w64 then (f.block + e / 512, 2 * (e % 512)) else (f.block, e)

/-- The blocks of a move. -/
def moveBlocks (f : XT) : List Nat := if f.w64 then [f.block, f.block + 1] else [f.block]

/-- The first element of a move is no multiple of 16, or its last is beyond the block (R263, R264). -/
def badElements (is : Issue) (i0 per : Nat) : Bool := i0 % 16 != 0 || decide (1024 < i0 + per * is.c.node.width)

/-- The word of a block lies in a poisoned row. -/
def AccBlock.poisonedWord (b : AccBlock) (w : Nat) : Bool := b.poison.getLsbD (w / 32)

/-- R263: a long-latency producer, whose words are those in place at issue. -/
def execAccld (f : XT) (s : State) : Host.Outcome State Fault Refusal :=
  let form := formAccld f
  issueWith form f.h.bytes [] (badBlock f f.w64) never (fun is s =>
    let i0 := (form.arg is.c 1 0).toNat
    let lanes := lanesOf is.acting
    let bad := lanes.filter fun l => let p := moveAt f (i0 + l); (is.c.acc p.1).poisonedWord p.2
    if badElements is i0 1 then .trap s (Trap.of .tileShape)
    else if (moveBlocks f).any fun b => s.blockTargeted is.id b then .wait s .retry
    else if !bad.isEmpty then .trap s ((Trap.of .poison).inLanes bad)
    else
      let values := lanes.flatMap fun l =>
        let p := moveAt f (i0 + l)
        (List.range (if f.w64 then 2 else 1)).map fun i =>
          (locV (f.h.dst.toNat + i) l, some ((is.c.acc p.1).data.at 0 (p.2 + i)), (0 : BitVec 5))
      .done ((is.onCtx s fun c => c.emptyLocs (form.dst.locs is.acting)).addOp (is.op s (.result values)))) s

/-- Rows of which a move wrote every word lose their poison (R263). -/
def Ctx.clearWritten (c : Ctx) (block : Nat) (words : List Nat) : Ctx :=
  let b := c.acc block
  let whole := fun r : Nat => (List.range 32).all fun i => words.contains (32 * r + i)
  c.setAcc block { b with poison := (List.range 32).foldl (fun m r => if whole r then m &&& ~~~(1#32 <<< r) else m) b.poison }

/-- R263. -/
def execAccst (f : XT) (s : State) : Host.Outcome State Fault Refusal :=
  let form := formAccst f
  issueWith form f.h.bytes [] (badBlock f f.w64) never (fun is s =>
    let i0 := (form.arg is.c 1 0).toNat
    let busy := (moveBlocks f).any fun b => s.blockTargeted is.id b || s.blockRead is.id b
    if badElements is i0 1 then .trap s (Trap.of .tileShape)
    else if busy then .wait s .retry
    else
      let writes := (lanesOf is.acting).flatMap fun l =>
        let p := moveAt f (i0 + l)
        let x := form.arg is.c 2 l
        (List.range (if f.w64 then 2 else 1)).map fun i => (p.1, p.2 + i, x.extractLsb' (32 * i) 32)
      .done (is.onCtx s fun c =>
        let c := writes.foldl (fun c (w : Nat × Nat × Word) =>
          let b := c.acc w.1
          c.setAcc w.1 { b with data := b.data.put 0 w.2.1 w.2.2 }) c
        (moveBlocks f).foldl (fun c b =>
          c.clearWritten b ((writes.filter fun w => w.1 == b).map fun w => w.2.1)) c)) s

/-- The type of an `acccvt` format (R264). -/
def packType (fmt : Nat) : Ty := if fmt = 7 then .s8 else tileType fmt

/-- R264. -/
def execAcccvt (f : XT) (s : State) : Host.Outcome State Fault Refusal :=
  let form := formAcccvt f
  issueWith form f.h.bytes [] (badBlock f false) never (fun is s =>
    let i0 := (form.arg is.c 1 0).toNat
    let dst := packType f.fmt
    let per := 32 / dst.width
    let block := is.c.acc f.block
    let lanes := lanesOf is.acting
    let bad := lanes.filter fun l => (List.range per).any fun j => block.poisonedWord (i0 + per * l + j)
    if badElements is i0 per then .trap s (Trap.of .tileShape)
    else if s.blockTargeted is.id f.block then .wait s .retry
    else if !bad.isEmpty then .trap s ((Trap.of .poison).inLanes bad)
    else
      let env : FpEnv := ⟨.rne, bitOf is.c.special.fpctl 3⟩
      let values := lanes.map fun l =>
        let parts := tabulate per fun j =>
          convert (if f.int then .s32 else .f32) dst env f.sat (block.data.at 0 (i0 + per * l + j)).toNat
        let word := parts.zipIdx.foldl (fun n e => n + e.1.1 % 2 ^ dst.width * 2 ^ (dst.width * e.2)) 0
        (locV f.h.dst.toNat l, some (BitVec.ofNat 32 word), allFlags parts)
      .done ((is.onCtx s fun c => c.emptyLocs (form.dst.locs is.acting)).addOp (is.op s (.result values)))) s

/-- R265. -/
def execAcczero (f : XT) (s : State) : Host.Outcome State Fault Refusal :=
  let form := formSrcS f
  issueWith form f.h.bytes [] inStealable never (fun is s =>
    let w := form.arg is.c 1 0
    let bs := (List.range 32).filter fun b => w.getLsbD b
    if bs.any fun b => is.c.node.accs ≤ b then .trap s (Trap.of .illegal)
    else if bs.any fun b => s.blockTargeted is.id b || s.blockRead is.id b then .wait s .retry
    else .done (is.onCtx s fun c => bs.foldl (fun c b => c.setAcc b AccBlock.fresh) c)) s

end Machine

end Sys2Proof
end

