-- ==== Sys2Proof/Machine/Image.lean ====
section
/-! DEFINITION. The layout of a context image (R16, R313): the split table's entries and the sizes of the sections. The contents of
the other sections are the fields of the context, whose order in the image is private to the device. -/

namespace Sys2Proof.Machine

/-- `STATE` of a split (R16): a split that waits for anything else than a register counts as waiting, and one that has parked
as parked until its continuation resumes (log entry 136). -/
def Wait.code (w : Wait) : Nat :=
  match w with
  | .ready => 0
  | .fill _ => 1
  | .op _ => 1
  | .retry => 1
  | .handler => 1
  | .due _ => 1
  | .bar => 2
  | .frame _ => 2
  | .watch => 2
  | .poll => 2
  | .phase _ _ _ => 2
  | .batch _ _ => 2
  | .latch => 2
  | .released => 2
  | .join => 3

/-- An entry of the split table (R16). -/
def Split.entry (sp : Split) : BitVec 160 :=
  sp.mask ++ sp.pc.extractLsb' 2 50 ++ sp.parent ++ BitVec.ofNat 6 sp.stack.length ++ BitVec.ofNat 2 sp.wait.code
    ++ 1#1 ++ 0#13

/-- The split table of a context; an entry that is not in use is 0. -/
def Ctx.splitTable (c : Ctx) : List (BitVec 160) := tabulate 4 fun i => ((c.splits.look i).map Split.entry).getD 0

/-- The offset of entry i of the split table in an image (R313). -/
def imageEntry (i : Nat) : Nat := 64 + 20 * i

/-- The bytes of the sections that every image has (R313): the header; the split table; region start addresses, frame logs; `s`, `x`,
`p` and `k`; special registers, the handler's save; stack entries, tree slots; vocabulary state; full and poison bits of `s` and
`t`, causes. -/
def imageSections : List Nat := [64, 80, 32, 128, 256, 64, 72, 128, 40, 256, 64, 512, 40, 336]

/-- The bytes of a context image (R313): the sections of every image, the full and poison bits of `v`, `v`, and the lanes' task
frames. -/
def Ctx.imageSize (c : Ctx) : Nat :=
  imageSections.foldl (· + ·) 0 + c.node.width * c.node.regs / 4 + c.node.width * c.node.regs * 4
    + (if c.perLane then 4 * c.node.width else 0)

/-- A lodging place takes the image: 72 KiB (R311). -/
def Ctx.fitsPlace (c : Ctx) : Bool := decide (c.imageSize ≤ 73728)

end Sys2Proof.Machine
end

