-- ==== Sys2Proof/Machine/Sched.lean ====
section
/-! DEFINITION. Arms fired from outside (R320, R321), bins and their timers (R324), leaf sweeps (R327), the reorder unit's timer
(R328), placement (R329), urgency (R331), writes on their way (R224, R236), fills of the L2 (R70) and the completion record
(R233). -/

namespace Sys2Proof.Machine

/-! ## Writes on their way (R224, R236) -/

/-- R224: a write-back is performed at its point of order; one core's writes of a byte stay in order. -/
def execMemoryWritePerform (index : Nat) (s : State) : Host.Outcome State Fault Refusal :=
  match s.writes[index]? with
  | none => .next s
  | some w => .next (s.performNth index w)

/-- R236: an L1 sends a dirty line's marked bytes to memory at any time, where its core may have another request outstanding (R4). -/
def execL1EvictWriteback (core line : Nat) (s : State) : Host.Outcome State Fault Refusal :=
  .next (if s.requestsFit core 1 then s.evictLine core line else s)

/-! ## Fills of the L2 (R67, R70) -/

/-- R67, R70: the fill of a line arrives for the requests of its miss-merge registers, the first of which carries `handle`. `set`
are the lines that the L2 holds of its set, and `full` says that no way is free. Every request is served, whether the line is
allocated or not. -/
def execL2Fill (line handle : Nat) (set : List Nat) (full : Bool) (s : State) : Host.Outcome State Fault Refusal :=
  let die := (s.homeOf (128 * line)).1
  let asked := (s.merges.find? fun m => m.line == line).bind fun m => (m.requests.head?).map Request.handle
  let held := set.all fun n => n != line && (s.l2.look n).isSome && (s.homeOf (128 * n)).1 == die
  if asked != some handle || !held then .next s
  else if !full || set.isEmpty then .next ((s.allocLine line).serveLine line)
  else
    match s.makeWay die set with
    | none => .next (s.serveLine line)
    | some t => .next ({ t with l2 := t.l2.ins line 0 }.serveLine line)

/-! ## Arms fired from outside (R318 to R321) -/

/-- An arm entry as the die's own hardware reads it at its home, and whether it can be read. -/
def State.armHome (s : State) (die arm : Nat) : Option Arm :=
  let pa := s.armPa die arm
  if s.poisonedAt pa || s.poisonedAt (pa + 32) then none else some (Arm.ofBytes (tabulate 64 fun i => s.byteAt (pa + i)))

/-- The word of an arm's message window (R320). -/
def State.armWord (s : State) (die arm i : Nat) : Word := s.armWin.at 0 (8 * (8192 * die + arm) + i)

/-- A firing or message is discarded and counted in the die's error log. -/
def State.logDiscarded (s : State) (die unit index : Nat) : State := s.logError die 4 unit index 0 []

/-- The node-table entry from which the kind of an arm's node is read is reported where it cannot be read (R315). -/
def State.reportKind (s : State) (die node : Nat) : State := if node < 4096 then s.reportEntry (s.nodePa die node) else s

/-- R320: a doorbell fires the arm with the words of its window. Only an 8-byte write is a doorbell. -/
def execHostDoorbell (die arm bytes : Nat) (value : DWord) (s : State) : Host.Outcome State Fault Refusal :=
  if !s.linkUp || bytes != 8 || decide (s.dies ≤ die) || decide (8192 ≤ arm) || !s.recordsFit die 1 then .next s
  else
    match s.armHome die arm with
    | none => .next ((s.reportEntry (s.armPa die arm)).logDiscarded die 5 arm)
    | some a =>
      if value.toNat % 32 != 0 || !a.fires 0 (s.kindHome die a.node) then
        .next ((s.reportKind die a.node).logDiscarded die 5 arm)
      else
        let compl := if value = 0 then a.compl else value
        .next (s.fireArm die none die arm a (tabulate 8 fun i => s.armWord die arm i) true false compl none)

/-- The lowest-numbered valid arm of a die with `SOURCE` 01 and a tag (R321): `fuel` entries from the n-th on. -/
def State.armOfTag (s : State) (die : Nat) (tag : Word) : Nat → Nat → Option (Nat × Arm)
  | 0, _ => none
  | fuel + 1, n =>
    match s.armHome die n with
    | some a => if a.valid && a.source == 1 && a.tag == tag.toNat then some (n, a) else s.armOfTag die tag fuel (n + 1)
    | none => s.armOfTag die tag fuel (n + 1)

/-- What becomes of a message (R321). -/
inductive Delivery where
  | refused
  | waits
  | fires (arm : Nat) (a : Arm) (slot : Nat)
deriving DecidableEq, Repr

/-- A payload ring that R318 allows. -/
def Arm.ringOk (a : Arm) : Bool :=
  ((List.range 17).any fun i => a.lbufn == 2 ^ i) && a.lbuf.toNat % 4096 == 0

/-- The slot of a payload ring holds the payload of a graph that has not written its completion record. -/
def State.slotInUse (s : State) (die arm slot : Nat) : Bool :=
  s.graphs.any fun e => e.2.linkSlot == some (8192 * die + arm, slot)

/-- What becomes of a message of a tag on a die. Its payload goes into slot `LHEAD` mod `LBUFN`, and it waits while that one is in
use (log entry 124). -/
def State.delivery (s : State) (die : Nat) (tag : Word) : Delivery :=
  match s.armOfTag die tag 8192 0 with
  | none => .refused
  | some (n, a) =>
    if !a.fires 1 (s.kindHome die a.node) || !a.ringOk then .refused
    else
      let slot := a.lhead % a.lbufn
      if s.slotInUse die n slot || !s.recordsFit die 1 then .waits else .fires n a slot

/-- The port, which belongs to no core, writes a payload at home slices under the arm's address space, or, with false, does not where
its page does not let it. -/
def State.writePayload (s : State) (asroot : Nat) (va : DWord) (payload : List Byte) : State × Bool :=
  if payload.isEmpty then (s, true)
  else
    match s.walk (2 ^ 32) asroot va 1 with
    | (s, .error _) => (s, false)
    | (s, .ok f) =>
      let s := if bitOf f.leaf 7 then s else s.setEntryBits f.home 128
      (s.writeHome (cellsAt (leafAddress f.leaf f.level va) payload), true)

/-- The message fires its arm (R321, R235): the payload is written before the record is made. -/
def State.fireMessage (s : State) (port arm slot : Nat) (a : Arm) (header : List Word) (payload : List Byte) : State :=
  let die := port / 2
  let va := a.lbuf + BitVec.ofNat 64 (4096 * slot)
  match s.writePayload a.asroot va payload with
  | (s, false) => s.logDiscarded die 4 port
  | (s, true) =>
    let s := s.writeNat (s.armPa die arm + 44) 4 ((a.lhead + 1) % 2 ^ 32)
    let args : List Word :=
      [va.extractLsb' 0 32, va.extractLsb' 32 32, BitVec.ofNat 32 payload.length, BitVec.ofNat 32 port]
        ++ tabulate 4 fun i => header.getD i 0
    s.fireArm die none die arm a args false true a.compl (some (8192 * die + arm, slot))

/-- The entries that cannot be read among those that the search for a tag's arm reads, and that of its node, are reported (R315). -/
def State.reportArms (s : State) (die : Nat) (tag : Word) : State :=
  let hit := s.armOfTag die tag 8192 0
  let n := (hit.map Prod.fst).getD 8192
  let bad := s.poison.filter fun x => decide (s.armPa die 0 ≤ 32 * x) && decide (32 * x < s.armPa die n)
  let s := foldState bad s fun s x => s.logUncorrectable (32 * x)
  match hit with
  | some (_, a) => s.reportKind die a.node
  | none => s

/-- Delivers one message of a port, or says that it waits; the entries that it met and that cannot be read are reported. -/
def State.deliverMessage (s : State) (port : Nat) (tag : Word) (header : List Word) (payload : List Byte) : Option State :=
  match s.delivery (port / 2) tag with
  | .refused => some ((s.reportArms (port / 2) tag).logDiscarded (port / 2) 4 port)
  | .waits => none
  | .fires arm a slot => some ((s.reportArms (port / 2) tag).fireMessage port arm slot a header payload)

/-- A device-link port as bring-up leaves it (R344, R355). -/
def Port.fresh : Port where
  srbase := 0
  srsize := 0
  srnext := 0
  up := true
  since := 0
  unacked := []
  stopping := false
  held := []
  restarts := 0
  resent := 0

/-- A port. -/
def State.port (s : State) (p : Nat) : Port := s.ports.at Port.fresh p
/-- Changes a port. -/
def State.modPort (s : State) (p : Nat) (f : Port → Port) : State := { s with ports := s.ports.put Port.fresh p (f (s.port p)) }

/-- Delivers the held messages of a port that is up which no longer wait. A message behind a waiting one of another arm passes it. -/
def State.drainHeld (s : State) (port : Nat) : State :=
  let held := if (s.port port).up then (s.port port).held else []
  let r := held.foldl (fun (acc : State × List (Word × List Word × List Byte)) m =>
    if acc.2.any fun w => w.1 == m.1 then (acc.1, acc.2 ++ [m])
    else
      match acc.1.deliverMessage port m.1 m.2.1 m.2.2 with
      | some s => (s, acc.2)
      | none => (acc.1, acc.2 ++ [m])) (s, [])
  if held.isEmpty then s else r.1.modPort port fun p => { p with held := r.2 }

/-- R321: a tagged message arrives: it fires its arm, is refused, or waits in the port's receive buffer. -/
def execLinkMessage (port : Nat) (tag : Word) (header : List Word) (payload : List Byte) (s : State) :
    Host.Outcome State Fault Refusal :=
  if decide (s.links ≤ port) || !(s.port port).up || decide (4096 < payload.length) then .next s
  else
    let s := s.drainHeld port
    if (s.port port).held.any fun w => w.1 == tag then
      .next (s.modPort port fun p => { p with held := p.held ++ [(tag, header, payload)] })
    else
      match s.deliverMessage port tag header payload with
      | some s => .next s
      | none => .next (s.modPort port fun p => { p with held := p.held ++ [(tag, header, payload)] })

/-! ## Bins (R324) -/

/-- A record on its way that another firing of its arm does not precede (R321). -/
def State.sentFirst (s : State) (index : Nat) : Option Sent :=
  match s.sent[index]? with
  | none => none
  | some r => if r.arm.isSome && (s.sent.take index).any fun e => e.arm == r.arm then none else some r

/-- The record is for a leaf-sweep node (R327). -/
def State.forSweep (s : State) (r : Sent) : Bool :=
  match s.nodeHome r.die r.record.node with
  | .ok d => d.kind == .sweep
  | .error _ => false

/-- A record that arrives enters its bin, or is a scan request, and the number of its packet is kept (R324, R327, R340). -/
def State.recordEnters (s : State) (index : Nat) (r : Sent) : State :=
  (({ s with sent := dropAt s.sent index }).enterBin r.die true r.record).noteHinge r.source r.die r.number []

/-- R324: a record enters its bin, which launches a team when it holds `COUNT`. -/
def execBinRecordArrive (index : Nat) (s : State) : Host.Outcome State Fault Refusal :=
  match s.sentFirst index with
  | none => .next s
  | some r =>
    if s.forSweep r then .next s
    else .next (s.recordEnters index r)

/-- R327: a record for a leaf-sweep node is a scan request. -/
def execScanRequest (index : Nat) (s : State) : Host.Outcome State Fault Refusal :=
  match s.sentFirst index with
  | none => .next s
  | some r =>
    if s.forSweep r then .next (s.recordEnters index r) else .next s

/-- R324: a bin whose timer has expired launches a team with every waiting record, up to `COUNT`; so does one that pair-walker
records have filled (log entry 20). -/
def execBinTimerExpiry (die node graph : Nat) (s : State) : Host.Outcome State Fault Refusal :=
  match s.binOf die node graph with
  | none => .next s
  | some b =>
    match s.nodeHome die node with
    | .error c => .next (((s.reportEntry (s.nodePa die node)).dropBin die node graph).failLaunch graph c b.records)
    | .ok d =>
      let due := d.timer != 0 && decide (b.timer + d.timer ≤ s.clock)
      if due || decide (d.count ≤ b.records.length) then .next (s.launchBin b d.count) else .next s

/-- R328: the timer of a reorder key expires, counted from its oldest deposit, and the key launches. -/
def execReorderTimerExpiry (die node key : Nat) (s : State) : Host.Outcome State Fault Refusal :=
  match s.deposits.find? fun d => d.die == die && d.node == node && d.key.toNat == key with
  | none => .next s
  | some d =>
    match s.nodeHome die node with
    | .error c => .next ((s.reportEntry (s.nodePa die node)).endGraph d.record.graph 1 (some c.blame))
    | .ok n =>
      if n.timer != 0 && decide (d.born + n.timer ≤ s.clock) then .next (s.launchKey die node d.key d.record.graph n.count)
      else .next s

/-! ## Leaf sweeps (R327) -/

/-- The number under which the activity scanner translates and reports: that of no core (R301). -/
def noCore : Nat := 2 ^ 32 - 1

/-- The scanner's request, as its engine accesses see it. -/
def Scan.op (c : Scan) (n : Nat) : Op :=
  { ctx := n, split := 0, graph := c.record.graph, core := noCore, die := c.die, lanes := 0, regionNo := 0, born := 0, pc := 0
    next := 0, fault := none, record := none, kind := .result [] }

/-- Reads a tree descriptor at its home slice for the scanner. -/
def engDescriptor (o : Op) (va : DWord) : Eng Tree := do
  if va.toNat % 64 ≠ 0 then throw { Trap.of .misaligned with va := va }
  let x ← engRead o va 64
  match Tree.ofBytes va (numberBytes 64 x) with
  | some t => return t
  | none => throw { Trap.of .controlBlock with va := va }

/-- A leaf that the scanner reaches: its origin and index, and the way to it. -/
structure Reached where
  origin : List Word
  leaf : Nat
  way : List Nat
deriving DecidableEq, Repr

/-- The first active leaf below a node of a level, from the children named on. -/
def engFirst (o : Op) (t : Tree) (swept : List Nat) : Nat → Nat → List Word → List Nat → Eng (Option Reached)
  | 0, _, _, _ => pure none
  | 1, n, org, place => do
    let cs ← engActive o t n
    match cs.find? fun e => decide (place.headD 0 ≤ e.1) && !swept.contains e.2 with
    | none => return none
    | some (c, leaf) =>
      engIndex leaf t.leafCap
      return some ⟨childOrigin 1 org c, leaf, [c]⟩
  | level + 2, n, org, place => do
    let first := place.headD 0
    let cs ← engActive o t n
    (cs.filter fun e => decide (first ≤ e.1)).foldlM (fun (found : Option Reached) e => do
      match found with
      | some r => return some r
      | none =>
        let r ← engFirst o t swept (level + 1) e.2 (childOrigin (level + 2) org e.1) (if e.1 = first then place.tail else [])
        return r.map fun r => { r with way := e.1 :: r.way }) none

/-- The next active leaf of a tree: `fuel` root entries from the i-th on. -/
def engNext (o : Op) (t : Tree) (swept : List Nat) : Nat → Nat → List Nat → Eng (Option Reached)
  | 0, _, _ => pure none
  | fuel + 1, i, place => do
    let e ← engEntry o (t.root + BitVec.ofNat 64 (16 * i))
    let k := entryKey e.1
    let r ← if entryValid e.1 && !entryBusy e.1 && e.2 != 0 then
        engFirst o t swept 3 e.2 [keyCoord (k / 2 ^ 40), keyCoord (k / 2 ^ 20), keyCoord k] place
      else pure none
    match r with
    | some r => return some { r with way := i :: r.way }
    | none => engNext o t swept fuel (i + 1) []

/-- The scanner's part of one event: the tree, and the next leaf. -/
def engScan (o : Op) (c : Scan) : Eng (Tree × Option Reached) := do
  let va := (c.record.args.getD 1 0) ++ (c.record.args.getD 0 0)
  let t ← match c.tree with
    | some t => pure t
    | none => engDescriptor o va
  let i := c.place.headD 0
  let r ← engNext o t c.swept (2 ^ t.rootLog2 - i) i c.place.tail
  return (t, r)

/-- A scan ends and lowers `PENDING` for its request, in error or not; a request without a frame that ends in error gives its
graph `STATUS` 1 (R301). -/
def State.endScan (s : State) (n : Nat) (c : Scan) (err : Bool) : State :=
  let s := { s with scans := s.scans.del n }
  let s := s.reportExit c.die c.record.graph c.record.frame err
  if err && c.record.frame == 0 then
    s.modGraph c.record.graph fun g => { g with status := if g.status = 0 then 1 else g.status }
  else s

/-- The scanner's stand-in for a context, through which its fault record is written (R303). -/
def Scan.stand (c : Scan) : Ctx :=
  { placedCtx with
    graph := c.record.graph, die := c.die, launchCore := noCore, home := noCore, loc := .lodged 0, splits := []
    special := { placedCtx.special with frame := c.record.frame } }

/-- A cause ends a scan with a fault record (R327). -/
def State.failScan (s : State) (n : Nat) (c : Scan) (t : Trap) : State :=
  let super := ((s.graphs.look c.record.graph).map (·.super)).getD 0
  let s := if super = 0 then s
    else
      match s.superBlock n c.stand super with
      | (s, .error _) => s
      | (s, .ok b) => (s.writeFault n c.stand b { t with source := 4 } 3 0 0).1
  s.endScan n c true

/-- The leaf's team (R24, R327). -/
def State.sweepLeaf (s : State) (n : Nat) (c : Scan) (t : Tree) (r : Reached) : State :=
  match s.raiseFrame c.record.frame with
  | none => s.failScan n c (Trap.of .frameError)
  | some s =>
    let regs := r.origin ++ [BitVec.ofNat 32 r.leaf] ++ c.record.args.drop 4
    let next := (r.way.take 3) ++ [r.way.getD 3 0 + 1]
    let s := { s with scans := s.scans.ins n { c with tree := some t, place := next, swept := insertNat c.swept r.leaf } }
    s.launchTeam c.die c.record.node c.record.graph [c.record] (some (regs, t))

/-- R327: the scanner reaches the next active leaf and launches its team, or the scan ends. -/
def execScanLeaf (scan : Nat) (s : State) : Host.Outcome State Fault Refusal :=
  match s.scans.look scan with
  | none => .next s
  | some c =>
    match (engScan (c.op scan) c).go s with
    | (s, .error t) => .next (s.failScan scan c t)
    | (s, .ok (_, none)) => .next (s.endScan scan c false)
    | (s, .ok (t, some r)) => .next (s.sweepLeaf scan c t r)

/-! ## Placement (R329) -/

/-- The contexts in a bank of a core. -/
def State.bank (s : State) (core : Nat) (shadow : Bool) : List (Nat × Ctx) :=
  s.ctxs.filter fun e => match e.2.loc with
    | .active k _ => k == core && !shadow
    | .shadow k _ => k == core && shadow
    | .leaving k _ sh => k == core && sh == shadow
    | _ => false

/-- The slot of a context that is in one. -/
def Ctx.slot (c : Ctx) : Option Nat :=
  match c.loc with
  | .active _ i => some i
  | .shadow _ i => some i
  | .leaving _ i _ => some i
  | _ => none

/-- The free slots of a bank. -/
def State.freeSlots (s : State) (core : Nat) (shadow : Bool) : List Nat :=
  let used := (s.bank core shadow).filterMap fun e => e.2.slot
  (List.range 16).filter fun i => !used.contains i

/-- The register file of a context, in bytes (R13). -/
def Node.registers (d : Node) : Nat := d.width * d.regs * 4

/-- The bytes of a bank's register file in use. -/
def State.bankRegisters (s : State) (core : Nat) (shadow : Bool) : Nat :=
  (s.bank core shadow).foldl (fun n e => n + e.2.node.registers) 0

/-- A bank has room for so many groups of a node (R13). -/
def State.bankHas (s : State) (core : Nat) (shadow : Bool) (d : Node) (groups : Nat) : Bool :=
  decide (groups ≤ (s.freeSlots core shadow).length)
    && decide (s.bankRegisters core shadow + groups * d.registers ≤ 262144)

/-- The teams whose scratch, tiles and blocks a core holds. -/
def State.teamsOn (s : State) (core : Nat) : List (Nat × Team) :=
  s.teams.filter fun e => e.2.evicted.isNone && (e.2.core == core || (e.2.pair && e.2.core + 1 == core))

/-- The groups whose tiles and blocks a core holds (R51). -/
def State.holders (s : State) (core : Nat) : List Ctx :=
  (s.ctxs.filter fun e => e.2.home == core
    && ((s.teams.look e.2.team).map fun t => t.evicted.isNone).getD false).map Prod.snd

/-- A core has tiles and blocks for so many groups of a node (R51). -/
def State.storesHave (s : State) (core : Nat) (d : Node) (groups : Nat) : Bool :=
  let held := s.holders core
  decide (held.foldl (fun n c => n + c.node.tiles) 0 + groups * d.tiles ≤ 16)
    && decide (held.foldl (fun n c => n + c.node.accs) 0 + groups * d.accs ≤ 32)

/-- An allocation of so many bytes is free at an offset of a core's scratch (R37, R47). -/
def State.scratchFree (s : State) (core off n : Nat) : Bool :=
  off % 1024 == 0 && decide (off + n ≤ 262144) && (s.teamsOn core).all fun e => !overlaps e.2.offset e.2.allocated off n

/-- The offsets at which an allocation may begin behind another. -/
def State.scratchStarts (s : State) (core : Nat) : List Nat :=
  0 :: (s.teamsOn core).map fun e => (e.2.offset + e.2.allocated + 1023) / 1024 * 1024

/-- A place for a team: its core, the even one of a pair, and its bank. -/
structure Spot where
  core : Nat
  shadow : Bool
  contexts : Nat
deriving DecidableEq, Repr

/-- The cores of a team at a core, each with its number of groups (R38). -/
def Waiting.cores (w : Waiting) (core : Nat) : List (Nat × Nat) :=
  let n := w.node.groupsFor w.records.length
  if w.node.pair then [(core, (n + 1) / 2), (core + 1, n / 2)] else [(core, n)]

/-- Placement may choose the core (R358). -/
def State.open (s : State) (core : Nat) : Bool := !(s.core core).retired && !(s.core core).failed

/-- The team fits at a core in a bank, with some scratch offset. -/
def State.fitsAt (s : State) (w : Waiting) (shadow : Bool) (core : Nat) : Bool :=
  let on := w.cores core
  let n := w.node.allocation (w.node.groupsFor w.records.length)
  on.all (fun e => s.open e.1 && s.bankHas e.1 shadow w.node e.2 && s.storesHave e.1 w.node e.2)
    && (on.flatMap fun e => s.scratchStarts e.1).any fun off => on.all fun e => s.scratchFree e.1 off n

/-- The places at which a team fits in a bank, of the cores listed. -/
def State.spots (s : State) (w : Waiting) (shadow : Bool) (cores : List Nat) : List Spot :=
  (cores.filter (s.fitsAt w shadow)).map fun c =>
    { core := c, shadow := shadow, contexts := (w.cores c).foldl (fun n e => n + (s.bank e.1 shadow).length) 0 }

/-- The best place of the cores listed: active banks before shadow banks, the fewest contexts there, the lower core. -/
def State.bestSpot (s : State) (w : Waiting) (cores : List Nat) : Option Spot :=
  (leastBy (fun p : Spot => p.contexts) (s.spots w false cores)).orElse fun _ =>
    leastBy (fun p : Spot => p.contexts) (s.spots w true cores)

/-- The place of a team: for a pair, those with both cores on the die first. -/
def State.spotFor (s : State) (w : Waiting) : Option Spot :=
  let cores := (List.range 288).map fun i => 288 * w.die + i
  if !w.node.pair then s.bestSpot w cores
  else
    let even := cores.filter fun c => c % 2 == 0
    let across := fun c : Nat => decide (240 ≤ coreIndex c) && decide (1 < s.dies)
    (s.bestSpot w (even.filter fun c => !across c)).orElse fun _ => s.bestSpot w (even.filter across)

/-- The waiting teams of a die by rank: the highest priority first, the oldest first within one. -/
def State.ranked (s : State) (die : Nat) : List (Nat × Waiting) :=
  let all := (s.placeQ.zipIdx.filter fun e => e.1.die == die).map fun e => (e.2, e.1)
  (List.range 8).flatMap fun i => all.filter fun e => e.2.prio == 7 - i

/-- The teams of a die that hold back every team of equal or lower priority (R329): one that has aged, and the head once it has
waited 2^16 cycles. -/
def State.blockers (s : State) (die : Nat) : List (Nat × Waiting) :=
  (s.ranked die).zipIdx.filterMap fun e =>
    if e.1.2.aged || (e.2 == 0 && decide (e.1.2.since + 2 ^ 16 ≤ s.clock)) then some e.1 else none

/-- The team that is placed next: the first by rank that fits, unless one that has aged holds back its rank (R329). -/
def State.nextTeam (s : State) (die : Nat) : Option (Nat × Waiting × Spot) :=
  let held := fun w : Nat × Waiting => (s.blockers die).any fun e => e.1 != w.1 && decide (w.2.prio ≤ e.2.prio)
  ((s.ranked die).filter fun e => !held e).findSome? fun e => (s.spotFor e.2).map fun p => (e.1, e.2, p)

/-- The registers of a lane that holds a record (R24, R361). -/
def Ctx.loadLane (c : Ctx) (l : Nat) (r : Record) : Ctx :=
  let c := (List.range 8).foldl (fun c i => c.setVreg i l (r.args.getD i 0)) c
  let c := if 8 < c.node.regs then c.setVreg 8 l r.frame else c
  let c := if 9 < c.node.regs then c.setVreg 9 l (r.flags.setWidth 32) else c
  { c with taskFrames := c.taskFrames.put 0 l r.frame }

/-- The registers of a group (R24): `rs` are its records. -/
def Ctx.load (c : Ctx) (w : Waiting) (rs : List Record) : Ctx :=
  if c.perLane then rs.zipIdx.foldl (fun c e => c.loadLane e.2 e.1) c
  else
    let regs := match w.sweep with
      | some (ws, _) => ws
      | none => ((rs.head?).map fun r : Record => r.args).getD []
    let c := (List.range 8).foldl (fun c i => c.setS i (regs.getD i 0)) c
    { c with
      special := { c.special with frame := ((rs.head?).map fun r : Record => r.frame).getD 0 }
      slots := match w.sweep with
        | some (_, t) => [(0, t)]
        | none => [] }

/-- The records of a group (R325). -/
def Waiting.recordsOf (w : Waiting) (group : Nat) : List Record :=
  match w.node.kind with
  | .uniform => (w.records.drop group).take 1
  | .lanes => (w.records.drop (group * w.node.width)).take w.node.width
  | _ => w.records

/-- The context of a group as it is dispatched (R16, R24, R25, R47). -/
def Waiting.context (w : Waiting) (team group core offset clock : Nat) (loc : Loc) : Ctx :=
  let rs := w.recordsOf group
  let all := laneSet (List.range w.node.width)
  let perLane := w.node.kind == .lanes || w.node.kind == .reorder
  let mask := if perLane then laneSet (List.range rs.length) else all
  let c : Ctx := { placedCtx with
    graph := w.graph, team := team, die := w.die, nodeIndex := w.nodeIndex, node := w.node, group := group, teamNo := w.teamNo
    launchCore := core, home := core, loc := loc, prio := w.prio, placed := clock, outSince := clock
    splits := [(0, { mask := mask, pc := w.node.entry, parent := 0, stack := [], wait := .ready, region := w.node.entry
                     regionNo := 0, frames := [], lastIssue := 0, missed := 0, urgent := false, hold := 0, restart := false })]
    exited := all &&& ~~~mask, reported := if perLane then all &&& ~~~mask else 0 }
  (c.load w rs).setS 8 (BitVec.ofNat 32 offset)

/-- A core's power state changes, which the die's error log tells (R355). -/
def State.setPower (s : State) (core : Nat) (p : Power) : State :=
  (s.modCore core fun k => { k with power := p, powerSince := s.clock }).logPower (dieOfCore core) 2 (coreIndex core)

/-- A core's power state lets it take work now (R352, R353): a gating that began in this cycle is aborted, and a wake that
comes later is held until gating ends. -/
def State.wakeCore (s : State) (core : Nat) : State × Bool :=
  let s := s.wakeDie (dieOfCore core)
  match (s.core core).power with
  | .c0 => (s, true)
  | .gating since _ =>
    if since = s.clock then (s.setPower core .c0, true)
    else (s.modCore core fun k => { k with power := .gating since true }, false)
  | _ => (s.setPower core .c0, true)

/-- Wakes the cores listed; whether all of them take work now. -/
def State.wakeCores (s : State) : List Nat → State × Bool
  | [] => (s, true)
  | c :: cs =>
    match s.wakeCore c with
    | (s, a) =>
      match s.wakeCores cs with
      | (s, b) => (s, a && b)

/-- The port zeroes an allocation (R25). -/
def Core.zero (k : Core) (off n : Nat) : Core :=
  { k with
    scratch := k.scratch.filter fun e => !(decide (off ≤ e.1) && decide (e.1 < off + n))
    scratchPoison := k.scratchPoison.filter fun sec => !overlaps (32 * sec) 32 off n }

/-- Places a team: its allocation is zeroed, its groups are dispatched into slots of the bank, and each core crosses the
launch edge (R216). -/
def State.placeTeam (s : State) (index : Nat) (w : Waiting) (p : Spot) (offset : Nat) : State :=
  let groups := w.node.groupsFor w.records.length
  let tid := s.nextId
  let t : Team :=
    { graph := w.graph, die := w.die, core := p.core, pair := w.node.pair, groups := groups, offset := offset
      scratch := (w.node.scratch + 1023) / 1024 * 1024, allocated := w.node.allocation groups, prio := w.prio, phased := []
      crossing := [], crossed := [], messages := [], evicted := none, evicting := none }
  let s := { s with placeQ := dropAt s.placeQ index, teams := s.teams.ins tid t, nextId := tid + 1 }
  let s := foldState (w.cores p.core) s fun s e => s.modCore e.1 fun k => (k.zero offset t.allocated).invalidate
  foldState (List.range groups) s fun s g =>
    let core := t.coreOf g
    let slot := ((s.freeSlots core p.shadow).head?).getD 0
    let loc := if p.shadow then Loc.shadow core slot else .active core slot
    { s with ctxs := s.ctxs.ins s.nextId (w.context tid g core offset s.clock loc), nextId := s.nextId + 1 }

/-- R329: the next team is placed, at a scratch offset that is free on its cores. -/
def execTeamPlace (die offset : Nat) (s : State) : Host.Outcome State Fault Refusal :=
  match s.nextTeam die with
  | none => .next s
  | some (index, w, p) =>
    let n := w.node.allocation (w.node.groupsFor w.records.length)
    if !(w.cores p.core).all fun e => s.scratchFree e.1 offset n then .next s
    else
      match s.wakeCores ((w.cores p.core).map Prod.fst) with
      | (s, false) => .next s
      | (s, true) => .next (s.placeTeam index w p offset)

/-- R329: once the head of a die's placement queue has waited 2^16 cycles, it holds back every team of equal or lower priority until
it is placed, whatever team comes before it meanwhile. -/
def State.ageHead (s : State) (die : Nat) : State :=
  match (s.ranked die).head? with
  | none => s
  | some (index, w) =>
    if w.since + 2 ^ 16 ≤ s.clock then { s with placeQ := changeAt s.placeQ index fun w => { w with aged := true } } else s

/-- R329: the head of the placement queue has waited 2^16 cycles. -/
def execPlacementHeadAged (die : Nat) (s : State) : Host.Outcome State Fault Refusal := .next (s.ageHead die)

/-- The heads that have waited so long (R329). -/
def State.ageHeads (s : State) : State := if s.placeQ.isEmpty then s else foldState (List.range s.dies) s State.ageHead

/-- R331: a split that has been ready without being chosen for 32 opportunities becomes urgent. -/
def execSplitUrgent (ctx split : Nat) (s : State) : Host.Outcome State Fault Refusal :=
  .next (s.modSplit ctx split fun sp =>
    if sp.hold == 0 && decide (32 ≤ sp.missed) then { sp with urgent := true } else sp)

/-! ## The completion record (R233, R301) -/

/-- An operation that a graph's completion does not wait for: a producer whose registers have gone with their group. -/
def OpKind.lingers : OpKind → Bool
  | .load _ _ _ _ _ _ => true
  | .result _ => true
  | .fpoll _ => true
  | .pop _ _ => true
  | _ => false

/-- Every task of the graph has exited, and every engine operation and write of it is over. -/
def State.graphOver (s : State) (g : Nat) : Bool :=
  !(s.ctxs.any fun e => e.2.graph == g) && !(s.sent.any fun r => r.record.graph == g)
    && !(s.bins.any fun b => b.graph == g) && !(s.deposits.any fun d => d.record.graph == g)
    && !(s.placeQ.any fun w => w.graph == g) && !(s.reports.any fun r => r.graph == g) && !(s.scans.any fun e => e.2.record.graph == g)
    && !(s.ops.any fun e => e.2.graph == g && !e.2.kind.lingers) && !(s.writes.any fun w => w.graphs.contains g)

/-- The 32 bytes of a completion record (R301). -/
def Graph.recordBytes (g : Graph) (clock : Nat) : List Byte :=
  let b := g.blame.getD { cause := 0, detail := 0, core := 0xFFFFFFFF#32, lane := 0, pc := 0 }
  let f := numberBytes
  f 4 g.status ++ f 1 b.cause ++ f 1 0 ++ f 2 b.detail ++ f 4 b.core.toNat ++ f 1 b.lane ++ f 3 0 ++ f 8 b.pc.toNat
    ++ f 8 clock

/-- R233: the graph is over, and its completion record is written where it has an address. Entries of the priority queue that
it left are discarded (R330), and its payload slot is free (R321). -/
def execGraphCompletionRecord (graph : Nat) (s : State) : Host.Outcome State Fault Refusal :=
  match s.graphs.look graph with
  | none => .next s
  | some g =>
    if !s.graphOver graph then .next s
    else
      let pa := g.compl.toNat
      let lost := pa = 0 || (inHost pa && (g.hostLost || !s.linkUp)) || (!inHost pa && !s.inDevice pa)
      let s := if lost then s else s.writeHome (cellsAt pa (g.recordBytes s.ref))
      let s := { s with
        graphs := s.graphs.del graph
        pqueues := s.pqueues.filter fun e => e.2.graph != graph
        ops := s.ops.filter fun e => e.2.graph != graph }
      .next (match g.linkSlot with
        | none => s
        | some (k, _) => (s.drainHeld (2 * (k / 8192))).drainHeld (2 * (k / 8192) + 1))

end Sys2Proof.Machine
end

