-- ==== Sys2Proof/Machine/Preempt.lean ====
section
/-! DEFINITION. The bank swap (R309, R310), spinning contexts (R42), lodging and return (R311, R312, R334, R34), and the eviction
of teams (R314). -/

namespace Sys2Proof.Machine

/-! ## The bank swap (R309, R310) -/

/-- The ready contexts of a bank. -/
def State.readyIn (s : State) (core : Nat) (shadow : Bool) : List (Nat × Ctx) :=
  (s.bank core shadow).filter fun e => s.ctxReady e.2

/-- A core of the package that runs and is not swapping. -/
def State.canSwap (s : State) (core : Nat) : Bool :=
  decide (core < 288 * s.dies) && (s.core core).swap.isNone && !(s.core core).failed && (s.core core).power == .c0

/-- A swap is decided: no scheduler issues from the active bank, and the matrix engine stops at a k-group boundary (R261). -/
def State.decideSwap (s : State) (core : Nat) : State :=
  (s.stopMatrix core).modCore core fun k => { k with swap := some { since := s.clock } }

/-- R309: a ready context of the shadow bank has a higher priority than every ready one of the active bank. -/
def execBankSwap (core : Nat) (s : State) : Host.Outcome State Fault Refusal :=
  let active := s.readyIn core false
  let higher := (s.readyIn core true).any fun e => active.all fun a => decide (a.2.prio < e.2.prio)
  .next (if s.canSwap core && !active.isEmpty && higher then s.decideSwap core else s)

/-- R309: no context of the active bank has been ready for 256 cycles while one of the shadow bank is. -/
def execBankSwapIdleTimeout (core : Nat) (s : State) : Host.Outcome State Fault Refusal :=
  let idle := (s.readyIn core false).isEmpty && decide ((s.core core).lastReady + 256 ≤ s.clock)
  .next (if s.canSwap core && idle && !(s.readyIn core true).isEmpty then s.decideSwap core else s)

/-- The arrivals of a context at its latch are withdrawn; its splits execute their instructions again (R252, R310). -/
def State.withdraw (s : State) (id : Nat) : State :=
  let s := { s with cores := s.cores.map fun e : Nat × Core => (e.1, { e.2 with latch := e.2.latch.filter fun a : Arrival => a.ctx != id }) }
  s.modCtx id fun c =>
    { c with splits := c.splits.map fun e : Nat × Split => if e.2.wait == Wait.latch then (e.1, { e.2 with wait := .ready }) else e }

/-- The bank in which a place stands after a swap of its core. -/
def Loc.swapped (l : Loc) (core : Nat) : Loc :=
  match l with
  | .active k i => if k = core then .shadow k i else l
  | .shadow k i => if k = core then .active k i else l
  | .leaving k i sh => if k = core then .leaving k i (!sh) else l
  | _ => l

/-- The line with the marks of a core's two banks exchanged (R237). -/
def Line.swapped (l : Line) : Line := { l with marks := l.marks.rotateLeft 16 }

/-- R309: the incoming bank issues from cycle 48 on. -/
def execBankSwapComplete (core : Nat) (s : State) : Host.Outcome State Fault Refusal :=
  match (s.core core).swap with
  | none => .next s
  | some w =>
    if s.clock < w.since + 48 then .next s
    else
      let outgoing := (s.bank core false).map Prod.fst
      let s := foldState outgoing s State.withdraw
      let ctxs := s.ctxs.map fun e =>
        (e.1, { e.2 with
          loc := e.2.loc.swapped core
          outSince := if outgoing.contains e.1 then s.clock else e.2.outSince })
      .next (({ s with ctxs := ctxs }).modCore core fun k =>
        { k with swap := none, lastReady := s.clock, l1 := k.l1.map fun e : Nat × Line => (e.1, e.2.swapped) })

/-! ## Lodging (R311) -/

/-- A matrix operation of a context that its core's engine performs stops (R261). -/
def State.stopOf (s : State) (id : Nat) : State :=
  match s.ctxs.look id with
  | none => s
  | some c =>
    let mine := (s.matCurrent c.core).any fun e => e.2.2.members.any fun b => b.ctx == id
    if mine then s.stopMatrix c.core else s

/-- A context begins to leave its slot. -/
def State.leave (s : State) (id : Nat) : State :=
  ((s.stopOf id).withdraw id).modCtx id fun c =>
    { c with
      leavingSince := s.clock
      outSince := if c.isActive then s.clock else c.outSince
      loc := match c.loc with
        | .active k i => .leaving k i false
        | .shadow k i => .leaving k i true
        | l => l }

/-- A context spins (R42). -/
def Ctx.spinning (c : Ctx) (clock : Nat) : Bool :=
  let recent := fun t : Nat => t != 0 && decide (clock < t + 4096)
  recent c.lastSpin && !recent c.lastStore && !recent c.lastAtomic

/-- A context that is out of every active bank may be loaded on a core: its home, or any of its die where it is stealable. -/
def Ctx.mayRunOn (c : Ctx) (core : Nat) : Bool :=
  c.home == core || (c.node.steal && c.die == dieOfCore core)

/-- The context has been out of the active bank for 2^16 cycles (R42). -/
def Ctx.agedOut (c : Ctx) (clock : Nat) : Bool :=
  decide (c.outSince + 2 ^ 16 ≤ clock) && (match c.loc with
    | .shadow _ _ => true
    | .lodged _ => true
    | .pool _ => true
    | _ => false)

/-- The youngest of some contexts: the one placed most recently (R42); of several placed in one cycle, as the groups of a team are, the
one of the greatest name (log entry 143). -/
def youngest (l : List (Nat × Ctx)) : Option Nat :=
  (l.foldl (fun (best : Option (Nat × Ctx)) e => match best with
    | none => some e
    | some b => if b.2.placed ≤ e.2.placed then some e else some b) none).map Prod.fst

/-- R42: a context of equal priority has been out for 2^16 cycles, and the youngest spinning context gives up its slot. -/
def execSpinEviction (core : Nat) (s : State) : Host.Outcome State Fault Refusal :=
  let out := s.ctxs.filter fun e => e.2.mayRunOn core && e.2.agedOut s.clock
  let spinners := (s.bank core false).filter fun e =>
    e.2.isActive && e.2.spinning s.clock && out.any fun o => o.2.prio == e.2.prio
  match youngest spinners with
  | none => .next s
  | some id => .next (s.leave id)

/-- The split is parked (R16, R33). -/
def Split.parked (sp : Split) : Bool :=
  match sp.wait with
  | .bar => true
  | .frame _ => true
  | .watch => true
  | .poll => true
  | .phase _ _ _ => true
  | .batch _ _ => true
  | .latch => true
  | _ => false

/-- Every split is parked, and not every one at the latch (R33, R334). -/
def State.allParked (s : State) (c : Ctx) : Bool :=
  !c.splits.isEmpty && !s.ctxReady c && c.splits.all (fun e => e.2.parked) && !c.splits.all fun e => e.2.wait == .latch

/-- Out of the banks, in lodging. -/
def Ctx.isLodged (c : Ctx) : Bool :=
  match c.loc with
  | .lodged _ => true
  | .pool _ => true
  | _ => false

/-- A lodged context waits for a slot: one of its splits can go on, or ageing selects it (R312). -/
def State.wantsReturn (s : State) (c : Ctx) : Bool :=
  c.isLodged && (s.ctxReady c || c.agedOut s.clock)

/-- A bank has a slot and registers for a context. -/
def State.bankTakes (s : State) (core : Nat) (shadow : Bool) (c : Ctx) : Bool := s.bankHas core shadow c.node 1

/-- A shadow slot of a core is needed for a placement or a return (R311). -/
def State.needsShadow (s : State) (core : Nat) : Bool :=
  let die := dieOfCore core
  (!(s.ranked die).isEmpty && (s.nextTeam die).isNone)
    || s.ctxs.any fun e => e.2.home == core && s.wantsReturn e.2 && !s.bankTakes core false e.2 && !s.bankTakes core true e.2

/-- The other members of a context's gang that are in a slot (R251, R334). -/
def State.gangHere (s : State) (id : Nat) (c : Ctx) : List (Nat × Ctx) :=
  s.ctxs.filter fun e => e.1 != id && e.2.team == c.team && c.special.gang.getLsbD e.2.group && e.2.slot.isSome

/-- The context stands in a shadow bank. -/
def Ctx.inShadow (c : Ctx) : Bool :=
  match c.loc with
  | .shadow _ _ => true
  | .leaving _ _ sh => sh
  | _ => false

/-- A member of a gang returns to the bank of another member, which is full, and the context is the youngest there that belongs
to no gang (R334). -/
def State.yieldsToGang (s : State) (id : Nat) (c : Ctx) : Bool :=
  s.ctxs.any fun e => s.wantsReturn e.2 && (s.gangHere e.1 e.2).any fun m =>
    m.2.core == c.core && m.2.inShadow == c.inShadow && !s.bankTakes c.core c.inShadow e.2
      && youngest ((s.bank c.core c.inShadow).filter fun b => b.2.special.gang == 0) == some id

/-- R311: the lodging engine begins to move a context out of its slot. -/
def execLodgeStart (ctx : Nat) (s : State) : Host.Outcome State Fault Refusal :=
  match s.ctxs.look ctx with
  | none => .next s
  | some c =>
    let here := match c.loc with
      | .active _ _ => true
      | .shadow _ _ => true
      | _ => false
    let why := s.allParked c || (c.inShadow && s.needsShadow c.core) || (s.core c.core).retired || s.yieldsToGang ctx c
    .next (if here && why then s.leave ctx else s)

/-- An operation that aims at registers of a context and for which lodging waits (R311). -/
def Op.aims (o : Op) (id : Nat) : Bool :=
  o.ctx == id && !o.kind.dests.isEmpty && (match o.kind with
    | .dtrav _ => false
    | .vocab _ => false
    | _ => true)

/-- R311: after 2^20 cycles the producers that remain are abandoned, and the context is marked for restart; one that lands in the
last of them lands (R316). -/
def execLodgeProducerTimeout (ctx : Nat) (s : State) : Host.Outcome State Fault Refusal :=
  match s.ctxs.look ctx with
  | none => .next s
  | some c =>
    let late := s.ops.filter fun e => e.2.aims ctx
    let waiting := match c.loc with
      | .leaving _ _ _ => true
      | _ => false
    if !waiting || late.isEmpty || decide (s.clock ≤ c.leavingSince + 2 ^ 20) then .next s
    else
      .next ((foldState late s fun s e => s.abandon e.1 .poison 1).modCtx ctx fun c => { c with restart := true })

/-- The contexts lodged on a core. -/
def State.lodgers (s : State) (core : Nat) : Nat := (s.ctxs.filter fun e => e.2.loc == .lodged core).length

/-- The cores whose index within the die differs by 1, the lower first. -/
def neighbours (core : Nat) : List Nat :=
  (if 0 < coreIndex core then [core - 1] else []) ++ (if coreIndex core < 287 then [core + 1] else [])

/-- How many free places a neighbour last advertised. -/
def State.advertised (s : State) (core n : Nat) : Nat := (s.core core).adverts.getD (if n < core then 0 else 1) 0

/-- The neighbours in the order in which the engine tries them: more advertised places first, the lower on a tie; one that
advertises none, or whose place has been taken, is not used (R311). -/
def State.lodgingPlaces (s : State) (core : Nat) : List Nat :=
  let ns := (neighbours core).filter fun n => decide (0 < s.advertised core n) && s.open n && decide (s.lodgers n < 4)
  match ns with
  | [a, b] => if s.advertised core a < s.advertised core b then [b, a] else [a, b]
  | l => l

/-- The place where an image goes; a neighbour that is being gated holds the wake, and the other neighbour or the pool is
used. -/
def State.lodgeAt (s : State) (die : Nat) : List Nat → State × Loc
  | [] => (s, .pool die)
  | n :: rest =>
    match s.wakeCore n with
    | (s, true) => (s, .lodged n)
    | (s, false) => s.lodgeAt die rest

/-- R311: with its producers landed and its lines written back, the image is transferred and the slot is free; its translation
registers are stale (R64). -/
def execLodgeTransferDone (ctx : Nat) (s : State) : Host.Outcome State Fault Refusal :=
  match s.ctxs.look ctx with
  | none => .next s
  | some c =>
    match c.loc with
    | .leaving core _ _ =>
      if !c.fitsPlace || s.ops.any fun e => e.2.aims ctx then .next s
      else
        match (s.writeBack ctx).lodgeAt c.die (s.lodgingPlaces core) with
        | (s, loc) => .next (s.modCtx ctx fun c => { c.staleRegs with loc := loc })
    | _ => .next s

/-- R311: a core advertises its free lodging places to its neighbours. -/
def execLodgingAdvertise (core : Nat) (s : State) : Host.Outcome State Fault Refusal :=
  if 288 * s.dies ≤ core then .next s
  else
    let free := if s.open core then 4 - s.lodgers core else 0
    let put := fun (i : Nat) (s : State) (n : Nat) => s.modCore n fun k =>
      { k with adverts := if i = 0 then [free, k.adverts.getD 1 0] else [k.adverts.getD 0 0, free] }
    .next (foldState (neighbours core) s fun s n => if core < n then put 0 s n else put 1 s n)

/-! ## Return (R312, R34) -/

/-- The handler that a split runs is given up for the restart of its region, as `rfe.region` leaves it; an engine that asked for
the entry asks again (log entry 21). -/
def State.giveUpHandler (s : State) (id i : Nat) (h : Handler) : State :=
  (s.modCtx id fun c => { c.leaveHandler h s.nextId with entries := h.engine.toList ++ c.entries }).modSplit id i fun sp =>
    { sp with pc := h.savedPc, wait := s.waitAfter h 2 }

/-- Each valid split of a context marked for restart restarts its region (R308, R312); where an operation that it awaits is still
being performed, when that is over and before it issues. -/
def State.restartSplit (s : State) (id i : Nat) : State :=
  let s := match (s.ctxs.look id).bind (·.handler) with
    | some h => if h.split = i then s.giveUpHandler id i h else s
    | none => s
  match (s.ctxs.look id).bind fun c => c.splits.look i with
  | none => s
  | some sp =>
    let asked := match sp.wait with
      | .op n => (s.ops.look n).isSome
      | _ => false
    if asked then s.modSplit id i fun sp => { sp with restart := true }
    else ((s.unpark id i).restart id i).modSplit id i fun sp => { sp with wait := .ready }

/-- The restart that a split still owes, before it issues (R312). -/
def State.restartDue (s : State) (id i : Nat) : State :=
  match (s.ctxs.look id).bind fun c => c.splits.look i with
  | none => s
  | some sp => if sp.restart then (s.restart id i).modSplit id i fun sp => { sp with restart := false } else s

/-- Restarts the splits of a context that is marked. -/
def State.restartMarked (s : State) (id : Nat) : State :=
  match s.ctxs.look id with
  | none => s
  | some c =>
    if !c.restart then s
    else
      (foldState c.splits s fun s e => s.restartSplit id e.1).modCtx id fun c => { c with restart := false }

/-- The bank into which a returning context goes: that of a resident member of its gang, otherwise the active bank where it has
room (R309, R334). -/
def State.returnBank (s : State) (id : Nat) (c : Ctx) (core : Nat) : Bool :=
  match (s.gangHere id c).head? with
  | some m => m.2.inShadow
  | none => !s.bankTakes core false c

/-- Loads a context into a slot of a core's bank. From lodging it crosses an edge target (R229, R236); what it marked in another slot
is performed first (R237). -/
def State.loadInto (s : State) (id core slot : Nat) (shadow : Bool) : State :=
  let lodged := ((s.ctxs.look id).map Ctx.isLodged).getD true
  let s := (if lodged then s else s.writeBack id).modCtx id fun c =>
    { c with
      loc := if shadow then .shadow core slot else .active core slot
      outSince := if shadow then c.outSince else s.clock }
  (if lodged then s.crossEdge id else s).restartMarked id

/-- The team's scratch, tiles and blocks are on its core. -/
def State.teamHere (s : State) (c : Ctx) : Bool := ((s.teams.look c.team).map fun t => t.evicted.isNone).getD false

/-- R312: a lodged context returns to a free slot of its home core; a context of the shadow bank that ageing selects moves to a
free active slot (R42). -/
def execContextReturn (ctx slot : Nat) (s : State) : Host.Outcome State Fault Refusal :=
  match s.ctxs.look ctx with
  | none => .next s
  | some c =>
    let core := c.home
    let aged := c.agedOut s.clock && !c.isLodged
    let shadow := if aged then false else s.returnBank ctx c core
    let free := s.bankTakes core shadow c && (s.freeSlots core shadow).contains slot
    if !(aged || s.wantsReturn c) || !free || !s.open core || !s.teamHere c then .next s
    else
      match s.wakeCore core with
      | (s, false) => .next s
      | (s, true) => .next (s.loadInto ctx core slot shadow)

/-- The continuation record that stands first of those of a context in its bin's list: a list for each graph and priority, first in
first out (R29, R324). -/
def State.nextReleased (s : State) (id : Nat) : Option (Nat × Record) :=
  match findAt s.released fun e => e.2.continues id with
  | none => none
  | some (i, e) =>
    let same := fun x : Nat × Record =>
      x.1 == e.1 && x.2.node == e.2.node && x.2.graph == e.2.graph && x.2.prio == e.2.prio
    if (s.released.take i).any same then none else some (i, e.2)

/-- A released continuation goes from its bin to its context (R33, R324): its split is ready; a task's implicit await goes on. -/
def State.resumeRecord (s : State) (id : Nat) : State :=
  match s.nextReleased id with
  | none => s
  | some (i, r) =>
    let s := { s with released := dropAt s.released i }
    match r.resumes with
    | some (.split ctx j) => s.modSplit ctx j fun sp => if sp.wait == .released then { sp with wait := .ready } else sp
    | _ => s

/-- A core takes a stealable context from lodging (R34, R36): its translation registers are stale, and the core's L1 is
invalidated. The group's scratch holds its spill area alone (R35). -/
def State.steal (s : State) (id core slot : Nat) (c : Ctx) (offset : Nat) : State :=
  let shadow := !s.bankTakes core false c
  let s := s.modTeam c.team fun t => { t with core := core, offset := offset }
  let s := s.modCtx id fun c => { c.staleRegs with home := core }
  (s.modCore core Core.invalidate).loadInto id core slot shadow

/-- R34, R312: a released continuation resumes in its context wherever that is; a core takes a stealable one that is ready, or that
ageing selects, from lodging into a free slot. -/
def execContinuationResume (ctx core slot : Nat) (s : State) : Host.Outcome State Fault Refusal :=
  match s.ctxs.look ctx with
  | none => .next s
  | some c =>
    let s := s.resumeRecord ctx
    let takes := c.isLodged && c.node.steal && c.home != core && decide (core < 288 * s.dies) && dieOfCore core == c.die
      && s.open core && (s.freeSlots core (!s.bankTakes core false c)).contains slot
      && s.bankTakes core (!s.bankTakes core false c) c
    let n := ((s.teams.look c.team).map fun t => t.allocated).getD 0
    let ready := ((s.ctxs.look ctx).map fun c => s.wantsReturn c).getD false
    match (s.scratchStarts core).find? fun off => s.scratchFree core off n with
    | some off =>
      if !takes || !ready then .next s
      else
        match s.wakeCore core with
        | (s, false) => .next s
        | (s, true) => .next (s.steal ctx core slot c off)
    | none => .next s

/-! ## Teams evicted (R314) -/

/-- The number under which the lodging pool holds the scratch of a team's even core; that of the odd one is one above. -/
def poolCore (tid : Nat) : Nat := 2 ^ 33 + 2 * tid

/-- The cores of a team. -/
def Team.cores (t : Team) : List Nat := if t.pair then [t.core, t.core + 1] else [t.core]

/-- The wait of a split that a moved barrier holds. -/
def Wait.moved (w : Wait) (src dst off n : Nat) : Wait :=
  match w with
  | .phase k o p => if k = src && decide (off ≤ o) && decide (o < off + n) then .phase dst o p else w
  | w => w

/-- The place of a watched word that a move of scratch carries along. -/
def Place.moved (p : Place) (src dst off n : Nat) : Place :=
  match p with
  | .scratch k o => if k = src && decide (off ≤ o) && decide (o < off + n) then .scratch dst o else p
  | p => p

/-- Moves n bytes of scratch between a core and the pool, with its poisoned sectors, its range-lock entries, and the watch
entries and barrier waits on it. -/
def State.moveScratch (s : State) (src dst off n : Nat) : State :=
  let inside := fun o : Nat => decide (off ≤ o) && decide (o < off + n)
  let k := s.core src
  let bytes := k.scratch.filter fun e => inside e.1
  let bad := k.scratchPoison.filter fun x => inside (32 * x)
  let s := s.modCore src fun k =>
    { k with scratch := k.scratch.filter fun e => !inside e.1, scratchPoison := k.scratchPoison.filter fun x => !inside (32 * x) }
  let s := s.modCore dst fun k =>
    { k with
      scratch := bytes.foldl (fun m (e : Nat × Byte) => m.ins e.1 e.2) k.scratch
      scratchPoison := bad.foldl insertNat k.scratchPoison }
  { s with
    ranges := s.ranges.map fun r =>
      if r.scratch && r.owner == src && inside r.lo then { r with owner := dst, core := if r.core = src then dst else r.core }
      else r
    watch := s.watch.map fun w => { w with place := w.place.moved src dst off n }
    ctxs := s.ctxs.map fun e =>
      (e.1, { e.2 with splits := e.2.splits.map fun p => (p.1, { p.2 with wait := p.2.wait.moved src dst off n }) }) }

/-- A copy that a team's eviction waits for: bound to a barrier of its allocation, or a `cpas.ag` of the team. -/
def State.holdsTeam (s : State) (tid : Nat) (t : Team) (o : Op) : Bool :=
  match o.kind with
  | .copy rows _ b _ _ =>
    (t.cores.contains b.core && decide (t.offset ≤ b.offset) && decide (b.offset < t.offset + t.allocated))
      || (((s.ctxs.look o.ctx).map fun c => c.team) == some tid && rows.any fun r => match r.src with
        | .acc _ _ => true
        | _ => false)
  | .tbarrive core off _ _ => t.cores.contains core && decide (t.offset ≤ off) && decide (off < t.offset + t.allocated)
  | _ => false

/-- No group of the team is in an active slot, or holds one until it has left it, in a handler, or awaiting a supervisor entry; nor in a
shadow slot, from which a bank swap would bring it back without its scratch (log entry 110). -/
def State.teamQuiet (s : State) (tid : Nat) : Bool :=
  (s.members tid).all fun e => !e.2.holdsActive && !e.2.inShadow && e.2.handler.isNone && e.2.entries.isEmpty
    && s.ops.all fun o => o.2.ctx != e.1 || o.2.fault.isNone

/-- The teams of a core that are quiet do not stand there any more: what a placement would find if they were evicted. -/
def State.without (s : State) (core : Nat) : State :=
  let gone := ((s.teamsOn core).filter fun e => s.teamQuiet e.1).map Prod.fst
  { s with teams := s.teams.map fun e => if gone.contains e.1 then (e.1, { e.2 with evicted := some 0 }) else e }

/-- A core of the team needs its scratch, tiles or blocks for a placement: a team waits that fits nowhere, and would fit there
without the teams that are quiet; or the core is retired (R314, R358, log entry 137). -/
def State.wantsSpace (s : State) (t : Team) : Bool :=
  t.cores.any fun c =>
    (s.core c).retired
      || ((s.nextTeam t.die).isNone && (s.ranked t.die).any fun e =>
        let k := if e.2.node.pair then c - c % 2 else c
        [false, true].any fun shadow => !s.fitsAt e.2 shadow k && (s.without c).fitsAt e.2 shadow k)

/-- R314: a team's scratch goes to the lodging pool, with its tiles and blocks, once its copies have landed. -/
def execTeamEvict (team : Nat) (s : State) : Host.Outcome State Fault Refusal :=
  match s.teams.look team with
  | none => .next s
  | some t =>
    if t.evicted.isSome || !s.teamQuiet team || !s.wantsSpace t then .next s
    else if s.ops.any fun e => s.holdsTeam team t e.2 then
      .next (s.modTeam team fun t => { t with evicting := some (t.evicting.getD s.clock) })
    else
      let s := foldState t.cores s fun s c => s.moveScratch c (poolCore team + (c - t.core)) t.offset t.allocated
      .next (s.modTeam team fun t => { t with evicted := some (poolCore team), evicting := none })

/-- A copy ends with a `WATCHDOG` record of `SOURCE` 11 (R314). -/
def State.cutCopy (s : State) (n : Nat) (o : Op) : State :=
  let t := { Trap.of .watchdog with source := 11 }
  ((s.engineRecord o.ctx t 3 o.pc o.kind.progress).1).endEngine n t

/-- R314: 2^22 cycles after an eviction began to wait, the copies still in flight end; an eviction that nothing asks for any more
is given up. -/
def execTeamEvictTimeout (team : Nat) (s : State) : Host.Outcome State Fault Refusal :=
  match s.teams.look team with
  | none => .next s
  | some t =>
    match t.evicting with
    | none => .next s
    | some since =>
      if !s.teamQuiet team || !s.wantsSpace t then .next (s.modTeam team fun t => { t with evicting := none })
      else if s.clock < since + 2 ^ 22 then .next s
      else
        .next (foldState (s.ops.filter fun e => s.holdsTeam team t e.2) s fun s e => match e.2.kind with
          | .copy _ _ _ _ _ => s.cutCopy e.1 e.2
          | _ => s)

/-- The tiles and blocks of a team's groups on a core are free there. -/
def State.storesTake (s : State) (tid : Nat) (t : Team) (core : Nat) : Bool :=
  let mine := ((s.members tid).filter fun e => t.coreOf e.2.group == core).map Prod.snd
  let held := s.holders core ++ mine
  decide (held.foldl (fun n c => n + c.node.tiles) 0 ≤ 16) && decide (held.foldl (fun n c => n + c.node.accs) 0 ≤ 32)

/-- R314: an evicted team returns to its core at the same offset when its space is free. -/
def execTeamReturn (team : Nat) (s : State) : Host.Outcome State Fault Refusal :=
  match s.teams.look team with
  | none => .next s
  | some t =>
    match t.evicted with
    | none => .next s
    | some p =>
      let free := t.cores.all fun c => s.open c && s.scratchFree c t.offset t.allocated && s.storesTake team t c
      if !free then .next s
      else
        let s := foldState t.cores s fun s c => s.moveScratch (p + (c - t.core)) c t.offset t.allocated
        .next (s.modTeam team fun t => { t with evicted := none })

end Sys2Proof.Machine
end

