-- ==== Sys2Proof/Machine/Package.lean ====
section
/-! DEFINITION. The package as its host and its peers see it: rotations (R336, R337), the host registers and BAR 4 (R343 to R345),
the host link's reset (R347), the send rings and ports (R348, R349). -/

namespace Sys2Proof.Machine

/-! ## Dies and rotations (R336, R337) -/

/-- `ORIENT.ROT` of a die (R336). -/
def State.rotation (s : State) (die : Nat) : Nat :=
  match s.variant with
  | .wz4 => die % 4
  | .wz2 => 2 * (die % 2)
  | .wz1 => 0

/-- `ORIENT` of a die (R336). -/
def State.orient (s : State) (die : Nat) : Word := BitVec.ofNat 32 (4 * (die % 4) + s.rotation die)

/-- The package offset of site (u, v) from its quadrant's centre (R337). -/
def siteOffset (rot : Nat) (u v : Int) : Int × Int :=
  match rot % 4 with
  | 0 => (u, v)
  | 1 => (-v, u)
  | 2 => (-u, -v)
  | _ => (v, -u)

/-- The physical stack site, 0 or 1, of a die's logical stack k, and the physical channel of a logical channel (R337). -/
def State.physicalSite (s : State) (die k channel : Nat) : Nat × Nat :=
  (if 2 ≤ s.rotation die then 1 - k else k, channel ^^^ (8 * s.rotation die))

/-- The lane of the neighbouring port Q that a lane of port P meets (R337). -/
def facingLane (i : Nat) : Nat := 767 - i

/-! ## What loses its path (R341, R347) -/

/-- Lanes of a producer in flight become poison-empty with `LINK_LOST`. -/
def State.loseLanes (s : State) (n : Nat) (o : Op) (scalar : Bool) (reg : Nat) (ty : Ty) (lanes : List LaneAt) : State :=
  let locs := lanes.flatMap fun a : LaneAt => locsOf scalar reg ty.regs (laneBit a.lane)
  s.modCtx o.ctx fun c => c.behind n fun c => c.poisonLocs (locs.filter c.isEmpty) .linkLost 0

/-- A graph ends with `LINK_LOST` (R341). -/
def State.graphLost (s : State) (g : Nat) : State := s.endGraph g 1 (some Cause.linkLost.blame)

/-- An operation loses the lanes that have no path to their places: a load's become poison-empty; an atomic's old value too, and a
`red` is discarded; an access of the cluster window is refused whole. `blame` says that its graph ends for it. -/
def State.loseOp (s : State) (n : Nat) (o : Op) (gone : Place → Bool) (blame : Bool) : State :=
  match o.kind with
  | .load scalar reg ty lanes h got =>
    let (bad, left) := lanes.partition fun a => gone a.place
    if bad.isEmpty then s
    else (s.loseLanes n o scalar reg ty bad).keepOp n (left.isEmpty && got.isEmpty) (.load scalar reg ty left h got)
  | .gather reg ty lanes moved =>
    let (bad, left) := lanes.partition fun a => gone a.place
    if bad.isEmpty then s else (s.loseLanes n o false reg ty bad).keepOp n left.isEmpty (.gather reg ty left moved)
  | .atomic op ty rnd fpctl lanes ret flags engine =>
    let (bad, left) := lanes.partition fun a => gone a.at_.place
    if bad.isEmpty then s
    else
      let s := match ret with
        | some reg => s.modCtx o.ctx fun c =>
            c.poisonLocs (bad.flatMap fun a : AtomicLane => locsOf false reg ty.regs (laneBit a.at_.lane)) .linkLost 0
        | none => if blame then s.graphLost o.graph else s
      if left.isEmpty then
        (if ret.isSome then s.modCtx o.ctx fun c => c.postFlags flags else s).wakeOp n o
      else s.modOp n fun o => { o with kind := .atomic op ty rnd fpctl left ret flags engine }
  | .window kind scalar _ _ _ _ _ lanes _ =>
    match lanes.filter fun a => gone a.at_.place with
    | [] => s
    | a :: rest =>
      let t := Trap.atAddr .linkLost a.at_.va kind
      s.refuseOp n o (if scalar then t else t.inLanes ((a :: rest).map fun a => a.at_.lane))
  | _ => s

/-- An operation at another die's stores or queues is lost with its path (R341): what makes or reports records is discarded, and
its graph ends; a poll's and a pop's registers become poison-empty. -/
def State.loseControl (s : State) (n : Nat) (o : Op) (cut : Nat → Bool) : State :=
  let discard := fun dies : List Nat => if dies.any cut then (s.graphLost o.graph).wakeOp n o else s
  match o.kind with
  | .spawn rs => discard (rs.flatMap fun e => [e.2.die, handleDie e.2.record.frame])
  | .fdone hs => discard (hs.map fun e => handleDie e.2)
  | .push die _ => discard [die]
  | .fpoll polls =>
    let (bad, left) := polls.partition fun e => cut (handleDie e.2)
    if bad.isEmpty then s
    else
      (s.modCtx o.ctx fun c => c.behind n fun c => c.poisonLocs ((bad.map Prod.fst).filter c.isEmpty) .linkLost 0).keepOp n
        left.isEmpty (.fpoll left)
  | .pop die _ => if cut die then (s.poisonDests n o .linkLost 0).endOp n else s
  | .tbarrive core _ _ _ =>
    if s.reachable (s.standsOn o.core) (s.standsOn core) then s else s.refuseOp n o (Trap.of .linkLost)
  | _ => s

/-- The first byte of a side that lies in lost memory, page by page of a global one: its place in the side. -/
def State.lostAt (s : State) (o : Op) (d : Side) (bytes : Nat) (gone : Nat → Bool) : Option Nat :=
  let lost := fun e : Nat × Nat =>
    match d with
    | .phys _ pa => gone (pa + e.1)
    | .pages _ pa next => gone (if e.1 = 0 then pa else next)
    | .global va => ((s.quietPa (s.asroot o.graph) (va + BitVec.ofNat 64 e.1)).map gone).getD false
    | .scratch core _ => s.partnerLost o core
    | _ => false
  ((d.parts 0 bytes).find? lost).map Prod.fst

/-- Copies in flight that touch lost memory end with a fault record (R341), with the address at which they do. -/
def State.loseCopy (s : State) (n : Nat) (o : Op) (gone : Nat → Bool) : State :=
  match o.kind with
  | .copy rows _ _ _ _ =>
    let sides := rows.flatMap fun r => [(r.src, r.bytes, 0), (r.dst, r.bytes, 1)]
    let bad := sides.filterMap fun e => (s.lostAt o e.1 e.2.1 gone).map fun j => (e.1.address + j, e.2.2)
    match bad.head? with
    | some (x, kind) => s.failEngine n (Trap.atAddr .linkLost (BitVec.ofNat 64 x) kind)
    | none => s
  | _ => s

/-- The first byte of a write, by which its line is known. -/
def Write.lost (w : Write) (gone : Nat → Nat → Bool) : Bool :=
  match w.bytes with
  | e :: _ => gone (dieOfCore w.core) e.1
  | [] => false

/-- A line's marked bytes are discarded. -/
def Line.discard (l : Line) : Line := { l with valid := l.valid &&& ~~~l.marked, marked := 0, marks := 0 }

/-- The graphs of the groups that marked the dirty lines of a core that a test chooses. -/
def State.dirtyGraphs (s : State) (core : Nat) (gone : Nat → Bool) : List Nat :=
  ((s.core core).l1.filter fun e => e.2.marked != 0 && gone (128 * e.1)).flatMap fun e =>
    (s.markers core e.2.marks).map fun m => m.2.graph

/-- Stores that wait in an L1, or are on their way, and have no path are discarded; the graphs that made them. -/
def State.loseWrites (s : State) (gone : Nat → Nat → Bool) : State × List Nat :=
  let bad := s.writes.filter fun w => w.lost gone
  let from_ := s.cores.map Prod.fst
  let dirty := from_.flatMap fun k => s.dirtyGraphs k (gone (dieOfCore k))
  let s := { s with writes := s.writes.filter fun w => !w.lost gone }
  let s := foldState from_ s fun s k => s.modCore k fun c =>
    { c with l1 := c.l1.map fun e =>
        if e.2.marked != 0 && gone (dieOfCore k) (128 * e.1) then (e.1, e.2.discard) else e }
  (s, ((bad.flatMap fun w => w.graphs) ++ dirty).eraseDups)

/-! ## The host registers (R344) -/

/-- The base and the entries of a die's error-log ring, as bring-up sets them (R355, log entry 12). -/
def State.errorRing (s : State) (die : Nat) : Nat × Nat := (s.reserved die + Config.errorRing, Config.errorEntries)

/-- What a host register holds at an offset of BAR 0; none where BAR 0 has no register. -/
def State.hostRegister (s : State) (offset : Nat) : Option Nat :=
  if offset % 4 = 0 ∧ offset / 4 < s.dies then some (s.orient (offset / 4)).toNat
  else if offset = 0x100 then some s.host.invqbase.toNat
  else if offset = 0x108 then some s.host.invqsize.toNat
  else if offset = 0x10C then some s.host.invqtail.toNat
  else if offset = 0x110 then some s.host.invqdone.toNat
  else if offset = 0x200 then some 0
  else if 0x300 ≤ offset ∧ offset < 0x300 + 16 * s.dies then
    let d := (offset - 0x300) / 16
    match (offset - 0x300) % 16 with
    | 0 => some (s.errorRing d).1
    | 8 => some (s.errorRing d).2
    | 12 => some (s.errHead.at 0 d)
    | _ => none
  else if 0x400 ≤ offset ∧ offset < 0x400 + 16 * s.links then
    let p := s.port ((offset - 0x400) / 16)
    match (offset - 0x400) % 16 with
    | 0 => some p.srbase.toNat
    | 8 => some p.srsize.toNat
    | 12 => some p.srnext.toNat
    | _ => none
  else none

/-- Writes a half of a 64-bit register. -/
def setHalf (x : DWord) (high : Bool) (w : Word) : DWord :=
  if high then w ++ x.extractLsb' 0 32 else x.extractLsb' 32 32 ++ w

/-- A write of a register of BAR 0 that has no behaviour of its own, in the register's width or half of it. -/
def State.writeHostRegister (s : State) (offset bytes : Nat) (value : DWord) : State :=
  let w := value.extractLsb' 0 32
  let h := s.host
  if offset = 0x100 ∧ bytes = 8 then { s with host := { h with invqbase := value } }
  else if (offset = 0x100 ∨ offset = 0x104) ∧ bytes = 4 then
    { s with host := { h with invqbase := setHalf h.invqbase (offset == 0x104) w } }
  else if offset = 0x108 ∧ bytes = 4 then { s with host := { h with invqsize := w } }
  else if 0x400 ≤ offset ∧ offset < 0x400 + 16 * s.links ∧ (offset - 0x400) % 16 = 8 ∧ bytes = 4 then
    s.modPort ((offset - 0x400) / 16) fun p => if p.srbase = 0 then { p with srsize := w } else p
  else s

/-- A write of the arguments of an arm message window (R320). -/
def State.writeWindow (s : State) (offset bytes : Nat) (value : DWord) : State :=
  let arm := offset / 64
  let i := offset % 64 / 4
  let put := fun (s : State) (i : Nat) (w : Word) => { s with armWin := s.armWin.put 0 (8 * arm + i) w }
  if 8192 * s.dies ≤ arm ∨ 32 ≤ offset % 64 ∨ offset % bytes ≠ 0 then s
  else if bytes = 4 then put s i (value.extractLsb' 0 32)
  else if bytes = 8 then put (put s i (value.extractLsb' 0 32)) (i + 1) (value.extractLsb' 32 32)
  else s

/-- R344, R320: a host write in BAR 0 or BAR 2. -/
def execHostRegisterWrite (bar offset bytes : Nat) (value : DWord) (s : State) : Host.Outcome State Fault Refusal :=
  if !s.linkUp then .next s
  else
    match bar with
    | 0 => .next (s.writeHostRegister offset bytes value)
    | 2 => .next (s.writeWindow offset bytes value)
    | _ => .next s

/-- R344: the host submits entries of the invalidation queue. -/
def execInvqtailWrite (value : Word) (s : State) : Host.Outcome State Fault Refusal :=
  .next (if s.linkUp then { s with host := { s.host with invqtail := value } } else s)

/-- A power of two between two bounds. -/
def powerWithin (n lo hi : Nat) : Bool := decide (lo ≤ n) && decide (n ≤ hi) && (List.range 17).any fun i => n == 2 ^ i

/-- The physical address of the next entry of the invalidation queue; none where the queue is empty or breaks R344. -/
def State.invqEntry (s : State) : Option Nat :=
  let h := s.host
  let at_ := h.invqbase.toNat + 32 * (h.invqdone.toNat % h.invqsize.toNat)
  if h.invqdone = h.invqtail || !powerWithin h.invqsize.toNat 16 65536 || h.invqbase.toNat % 4096 != 0 || !s.inDevice at_ then
    none
  else some at_

/-- R344, R58: the next entry is performed on every core. -/
def execInvqEntryDone (s : State) : Host.Outcome State Fault Refusal :=
  match s.invqEntry with
  | none => .next s
  | some at_ =>
    if s.poisonedAt at_ then .next (s.logUncorrectable at_)
    else
      let f := fun off => s.readHome (at_ + off) 8
      let s := s.invalidateRange (f 0) (f 8 % 2 ^ 52) (f 16) (f 16 == 0)
      .next { s with host := { s.host with invqdone := s.host.invqdone + 1 } }

/-- R344: a `CANCEL` write with `GO` cancels the graphs of an arm. -/
def execCancelWrite (value : Word) (s : State) : Host.Outcome State Fault Refusal :=
  let x := value.toNat
  if !s.linkUp || x / 2 ^ 31 = 0 then .next s
  else
    let mine := s.graphs.filter fun e => e.2.die == x / 2 ^ 13 % 4 && e.2.arm == x % 2 ^ 13
    .next (foldState mine s fun s e => s.endGraph e.1 2 none)

/-- R345: system software sets AtomicOp Requester Enable. -/
def execAtomicopRequesterEnable (enable : Bool) (s : State) : Host.Outcome State Fault Refusal :=
  .next { s with reqEnable := enable }

/-- R343: the host reads or writes device memory through BAR 4, at home slices. A byte of a sector with an uncorrectable error
reads as a free value (log entry 22). An address with bit 47 set names the host's own memory, which the host reads and writes
itself, each access whole (R234, log entry 138). -/
def execHostBarAccess (address length : Nat) (write : Option (List Byte)) (s : State) : Host.Outcome State Fault Refusal :=
  let n := match write with
    | some bs => bs.length
    | none => length
  if inHost address then
    match write with
    | some bs => .next (s.writeHome (cellsAt address bs))
    | none => .next { s with hostRead := tabulate length fun i => s.byteAt (address + i) }
  else if !s.linkUp then .next s
  else if s.capacity < address + n then .fault (.noSuchMemory address)
  else
    match write with
    | some bs => .next (s.writeHome (cellsAt address bs))
    | none =>
      let byte := fun i : Nat =>
        if s.poisonedAt (address + i) then BitVec.ofNat 8 (Config.freeChoice (s.free + i)) else s.byteAt (address + i)
      .next { s with hostRead := tabulate length byte, free := s.free + length }

/-! ## The host link (R347) -/

/-- The send ring of a port stops once the slot that it is sending is done (R349). -/
def Port.stop (p : Port) : Port := { p with srbase := 0, stopping := !p.unacked.isEmpty }

/-- R347: a reset or loss of the host link. -/
def execHostLinkReset (s : State) : Host.Outcome State Fault Refusal :=
  let s := { s with linkUp := false }
  let s := foldState s.graphs s fun s e => (s.modGraph e.1 fun g => { g with hostLost := true }).endGraph e.1 2 none
  let host := fun p : Place => match p with
    | .mem pa => inHost pa
    | .scratch _ _ => false
  let s := foldState s.ops s fun s e => (s.loseOp e.1 e.2 host false).loseCopy e.1 e.2 inHost
  let s := (s.loseWrites fun _ pa => inHost pa).1
  .next { s with
    linkUp := false, armWin := []
    cores := s.cores.map fun e => (e.1, { e.2 with tlb := [] })
    ctxs := s.ctxs.map fun e => (e.1, e.2.staleRegs)
    host := { invqbase := 0, invqsize := 0, invqtail := 0, invqdone := 0 }
    ports := s.ports.map fun e => (e.1, { e.2.stop with srsize := 0, srnext := 0 }) }

/-- R347: the host link has trained. -/
def execHostLinkTrained (s : State) : Host.Outcome State Fault Refusal := .next { s with linkUp := true }

/-! ## Send rings and ports (R348, R349) -/

/-- R349: a write of `SRBASE`. -/
def execSrbaseWrite (port : Nat) (value : DWord) (s : State) : Host.Outcome State Fault Refusal :=
  if !s.linkUp || decide (s.links ≤ port) then .next s
  else
    let p := s.port port
    if value = 0 then .next (s.modPort port fun p => if p.srbase = 0 then p else p.stop)
    else if p.srbase ≠ 0 then .next s
    else .next (s.modPort port fun p => { p with srbase := value, srnext := 0 })

/-- The physical address of the slot that a port reads next; none where it is stopped, down or sending, or its ring breaks
R349. -/
def State.ringSlot (s : State) (port : Nat) : Option Nat :=
  let p := s.port port
  let n := p.srsize.toNat
  if !p.up || p.srbase = 0 || !p.unacked.isEmpty || !powerWithin n 16 4096 || p.srbase.toNat % 4096 != 0
      || !s.inDevice (p.srbase.toNat + 64 * n - 1) then none
  else some (p.srbase.toNat + 64 * (p.srnext.toNat % n))

/-- The slot is done: its `STATUS` is written, and the port moves to the next one. -/
def State.slotDone (s : State) (port slot status : Nat) : State :=
  let s := s.writeNat (slot + 38) 1 status
  s.modPort port fun p =>
    { p with
      stopping := false
      srnext := if p.stopping || p.srsize = 0 then p.srnext else BitVec.ofNat 32 ((p.srnext.toNat + 1) % p.srsize.toNat) }

/-- The message of a slot: descriptor and payload as their home slices hold them. -/
def State.slotMessage (s : State) (slot : Nat) : Message :=
  let pay := s.readHome slot 8
  { slot := slot
    tag := BitVec.ofNat 32 (s.readHome (slot + 12) 4)
    header := tabulate 4 fun i => BitVec.ofNat 32 (s.readHome (slot + 16 + 4 * i) 4)
    mac := tabulate 6 fun i => s.byteAt (slot + 32 + i)
    payload := tabulate (s.readHome (slot + 8) 4) fun i => s.byteAt (pay + i) }

/-- A slot whose payload the port can read: at most 4,096 bytes of device memory without an uncorrectable error. -/
def State.slotSends (s : State) (slot : Nat) : Bool :=
  let pay := s.readHome slot 8
  let n := s.readHome (slot + 8) 4
  decide (n ≤ 4096) && decide (pay + n ≤ s.capacity)
    && !(s.poison.any fun x => overlaps (32 * x) 32 slot 64 || (n != 0 && overlaps (32 * x) 32 pay n))

/-- The port reads its slot, and sends its message where it is ready; one that it cannot send has failed (log entry 23). -/
def State.serveRing (s : State) (port : Nat) : State :=
  match s.ringSlot port with
  | none => s
  | some slot =>
    if s.readHome (slot + 38) 1 ≠ 3 then s
    else if !s.slotSends slot then s.slotDone port slot 2
    else s.modPort port fun p => { p with unacked := [s.slotMessage slot], since := s.clock }

/-- R349: a write of byte 38 of the slot, through its watch entry, makes the port read it. -/
def execSendRingSlot (port : Nat) (s : State) : Host.Outcome State Fault Refusal :=
  .next (if s.links ≤ port then s else s.serveRing port)

/-- R349: the port reads its slot at least every 2,048 cycles. -/
def execSendRingPoll (port : Nat) (s : State) : Host.Outcome State Fault Refusal :=
  .next (if s.links ≤ port then s else s.serveRing port)

/-- R348, R349: the peer acknowledges a message, or refuses it. -/
def execLinkMessageAck (port : Nat) (accepted : Bool) (s : State) : Host.Outcome State Fault Refusal :=
  let p := s.port port
  match p.unacked with
  | [] => .next s
  | m :: rest =>
    if !p.up then .next s
    else
      let s := s.slotDone port m.slot (if accepted then 1 else 2)
      .next (s.modPort port fun p => { p with unacked := rest, since := s.clock })

/-- A change of a port's state is recorded (R348). -/
def State.logPort (s : State) (port : Nat) : State := s.logError (port / 2) 6 4 port 0 []

/-- R348: a peer has acknowledged nothing for 2^24 cycles. -/
def execPortDown (port : Nat) (s : State) : Host.Outcome State Fault Refusal :=
  let p := s.port port
  if !p.up || p.unacked.isEmpty || decide (s.clock < p.since + 2 ^ 24) then .next s
  else
    let s := foldState p.unacked s fun s m => s.slotDone port m.slot 2
    .next ((s.modPort port fun p => { p with unacked := [], up := false, since := s.clock, restarts := 0 }).logPort port)

/-- An event of a port's transport is recorded (R355). -/
def State.logTransport (s : State) (port : Nat) : State := s.logError (port / 2) 3 4 port 0 []

/-- R348: every 2^24 cycles a port that is down tries to re-establish its transport. -/
def execPortRestartAttempt (port : Nat) (s : State) : Host.Outcome State Fault Refusal :=
  let p := s.port port
  if p.up || decide (s.clock < p.since + 2 ^ 24) then .next s
  else .next ((s.modPort port fun p => { p with since := s.clock, restarts := p.restarts + 1 }).logTransport port)

/-- R348: the peer answers a restart frame. -/
def execPortUp (port : Nat) (s : State) : Host.Outcome State Fault Refusal :=
  let p := s.port port
  if p.up || p.restarts = 0 then .next s
  else .next (((s.modPort port fun p => { p with up := true, since := s.clock, restarts := 0 }).logPort port).drainHeld port)

/-- R348: the transport retransmits the message that has not been acknowledged. -/
def execTransportRetransmit (port : Nat) (s : State) : Host.Outcome State Fault Refusal :=
  let p := s.port port
  .next (if !p.up || p.unacked.isEmpty then s
    else (s.modPort port fun p => { p with resent := p.resent + 1 }).logTransport port)

end Sys2Proof.Machine
end

