-- ==== Sys2Proof/Machine/Scalar.lean ====
section
/-! DEFINITION. Scalar integer operations and scalar predicates of class XC (R129 to R133) and the scalar base forms
(R107). -/

namespace Sys2Proof.Machine

/-- A scalar operation on up to three sources: its destination is written once for the split (R129). -/
def scalarOp (f : Form) (bytes : Nat) (op : DWord → DWord → DWord → DWord) (s : State) :
    Host.Outcome State Fault Refusal :=
  issue f bytes (fun is s => .done (is.onCtx s fun c => f.writeDst c 0 (op (f.arg c 1 0) (f.arg c 2 0) (f.arg c 3 0)))) s

/-- A scalar operation of two sources. -/
def scalarTwo (f : XC) (types : Bool) (op : Ty → DWord → DWord → DWord) (s : State) : Host.Outcome State Fault Refusal :=
  scalarOp (formS2 f types) f.h.bytes (fun a b _ => op f.h.ty a b) s

/-- A scalar operation of one source. -/
def scalarOne (f : XC) (op : Ty → DWord → DWord) (s : State) : Host.Outcome State Fault Refusal :=
  scalarOp (formS1 f) f.h.bytes (fun a _ _ => op f.h.ty a) s

/-- R130. -/
def execSadd (f : XC) (s : State) : Host.Outcome State Fault Refusal :=
  scalarTwo f f.h.ty.inI (fun t a b => t.word (t.int a + t.int b)) s
/-- R130. -/
def execSsub (f : XC) (s : State) : Host.Outcome State Fault Refusal :=
  scalarTwo f f.h.ty.inI (fun t a b => t.word (t.int a - t.int b)) s
/-- R130. -/
def execSmul (f : XC) (s : State) : Host.Outcome State Fault Refusal :=
  scalarTwo f f.h.ty.inI (fun t a b => t.word (t.int a * t.int b)) s
/-- R130. -/
def execSmulh (f : XC) (s : State) : Host.Outcome State Fault Refusal := scalarTwo f f.h.ty.inIS intMulHigh s
/-- R130. -/
def execSmad (f : XC) (s : State) : Host.Outcome State Fault Refusal :=
  scalarOp (formS3 f) f.h.bytes (fun a b c => f.h.ty.word (f.h.ty.int a * f.h.ty.int b + f.h.ty.int c)) s
/-- R130, R73. -/
def execSdiv (f : XC) (s : State) : Host.Outcome State Fault Refusal := scalarTwo f f.h.ty.inIS intDiv s
/-- R130, R73. -/
def execSrem (f : XC) (s : State) : Host.Outcome State Fault Refusal := scalarTwo f f.h.ty.inIS intRem s
/-- R130. -/
def execSmin (f : XC) (s : State) : Host.Outcome State Fault Refusal := scalarTwo f f.h.ty.inIS intMin s
/-- R130. -/
def execSmax (f : XC) (s : State) : Host.Outcome State Fault Refusal := scalarTwo f f.h.ty.inIS intMax s
/-- R130. -/
def execSand (f : XC) (s : State) : Host.Outcome State Fault Refusal := scalarTwo f f.h.ty.inW bitAnd s
/-- R130. -/
def execSor (f : XC) (s : State) : Host.Outcome State Fault Refusal := scalarTwo f f.h.ty.inW bitOr s
/-- R130. -/
def execSxor (f : XC) (s : State) : Host.Outcome State Fault Refusal := scalarTwo f f.h.ty.inW bitXor s
/-- R130. -/
def execSshl (f : XC) (s : State) : Host.Outcome State Fault Refusal := scalarTwo f f.h.ty.inW shiftLeft s
/-- R130. -/
def execSshr (f : XC) (s : State) : Host.Outcome State Fault Refusal := scalarTwo f f.h.ty.inW shiftRight s
/-- R130. -/
def execSsra (f : XC) (s : State) : Host.Outcome State Fault Refusal := scalarTwo f f.h.ty.inW shiftArith s

/-- R131. -/
def execSbfx (f : XC) (s : State) : Host.Outcome State Fault Refusal :=
  scalarOp (formSField f f.h.ty.inIS .write) f.h.bytes (fun a _ _ => fieldExtract f.h.ty a f.pos f.len) s
/-- R131: the destination is read. -/
def execSbfi (f : XC) (s : State) : Host.Outcome State Fault Refusal :=
  let form := formSField f f.h.ty.inW .readWrite
  issue form f.h.bytes (fun is s => .done (is.onCtx s fun c =>
    form.writeDst c 0 (fieldInsert f.h.ty (form.dstArg c 0) (form.arg c 1 0) f.pos f.len))) s

/-- R130. -/
def execSpopc (f : XC) (s : State) : Host.Outcome State Fault Refusal := scalarOne f popCount s
/-- R130. -/
def execSclz (f : XC) (s : State) : Host.Outcome State Fault Refusal := scalarOne f leadingZeros s
/-- R130. -/
def execSctz (f : XC) (s : State) : Host.Outcome State Fault Refusal := scalarOne f trailingZeros s
/-- R130. -/
def execSmov (f : XC) (s : State) : Host.Outcome State Fault Refusal := scalarOne f (fun _ a => a) s
/-- R130: the immediate, sign-extended. -/
def execSli (f : XC) (s : State) : Host.Outcome State Fault Refusal :=
  scalarOp (formSli f) f.h.bytes (fun _ _ _ => f.imm.signExtend 64) s

/-- R132. -/
def execScmp (f : XC) (s : State) : Host.Outcome State Fault Refusal :=
  scalarOp (formScmp f) f.h.bytes (fun a b _ => truth (intCompare f.h.ty (bitsOf f.imm 3 0) a b)) s

/-- R132. -/
def execSsel (f : XC) (s : State) : Host.Outcome State Fault Refusal :=
  let form := formSsel f
  issue form f.h.bytes (fun is s => .done (is.onCtx s fun c =>
    form.writeDst c 0 (if c.kpred (bitsOf f.imm 2 0) then form.arg c 1 0 else form.arg c 2 0))) s

/-- R133: bit 2a + b of the table. -/
def execKop (f : XC) (s : State) : Host.Outcome State Fault Refusal :=
  let form := formKop f
  issue form f.h.bytes (fun is s => .done (is.onCtx s fun c =>
    let a := if c.kpred f.h.src1.toNat then 2 else 0
    let b := if c.kpred f.h.src2.toNat then 1 else 0
    form.writeDst c 0 (truth (bitOf f.imm (a + b))))) s

/-! ## Base forms (R107) -/

/-- A scalar base form of two sources. -/
def scalarBase (f : Base) (op : Ty → DWord → DWord → DWord) (s : State) : Host.Outcome State Fault Refusal :=
  scalarOp (formS2 f.xc true) f.bytes (fun a b _ => op .b32 a b) s

/-- R107: `sadd.b32`. -/
def execSaddB32Base (f : Base) (s : State) : Host.Outcome State Fault Refusal :=
  scalarBase f (fun t a b => t.word (t.int a + t.int b)) s
/-- R107: `ssub.b32`. -/
def execSsubB32Base (f : Base) (s : State) : Host.Outcome State Fault Refusal :=
  scalarBase f (fun t a b => t.word (t.int a - t.int b)) s
/-- R107: `smul.b32`. -/
def execSmulB32Base (f : Base) (s : State) : Host.Outcome State Fault Refusal :=
  scalarBase f (fun t a b => t.word (t.int a * t.int b)) s
/-- R107: `sand.b32`. -/
def execSandB32Base (f : Base) (s : State) : Host.Outcome State Fault Refusal := scalarBase f bitAnd s
/-- R107: `sor.b32`. -/
def execSorB32Base (f : Base) (s : State) : Host.Outcome State Fault Refusal := scalarBase f bitOr s
/-- R107: `sxor.b32`. -/
def execSxorB32Base (f : Base) (s : State) : Host.Outcome State Fault Refusal := scalarBase f bitXor s
/-- R107: `sshl.b32`. -/
def execSshlB32Base (f : Base) (s : State) : Host.Outcome State Fault Refusal := scalarBase f shiftLeft s
/-- R107: `sshr.b32`. -/
def execSshrB32Base (f : Base) (s : State) : Host.Outcome State Fault Refusal := scalarBase f shiftRight s
/-- R107: `smov.b32`. -/
def execSmovB32Base (f : Base) (s : State) : Host.Outcome State Fault Refusal :=
  scalarOp (formS1 f.xc) f.bytes (fun a _ _ => a) s

end Sys2Proof.Machine
end

