-- ==== Sys2Proof/Machine/Service.lean ====
section
/-! DEFINITION. The Hinge (R339 to R342), memory (R350, R351), power (R352 to R354), bring-up, firmware and management (R355 to
R357), and the retirement and failure of cores (R358). -/

namespace Sys2Proof.Machine

/-! ## The Hinge (R339 to R342) -/

/-- The boundaries between dies: on a WZ4 boundary i lies between dies i and i + 1 mod 4, on a WZ2 both lie between its two dies
(R337, R341). -/
def State.boundaryCount (s : State) : Nat := if s.variant = .wz1 then 0 else s.dies

/-- A boundary with every lane at work. -/
def Boundary.fresh : Boundary := { failed := false, spared := [], off := [], replays := [], recalibrating := none }

/-- A boundary. -/
def State.boundary (s : State) (b : Nat) : Boundary := s.boundaries.at Boundary.fresh b
/-- Changes a boundary. -/
def State.modBoundary (s : State) (b : Nat) (f : Boundary → Boundary) : State :=
  { s with boundaries := s.boundaries.put Boundary.fresh b (f (s.boundary b)) }

/-- Records a Hinge event in a die's error log (R355): the bundle, then boundary and direction. -/
def State.logHinge (s : State) (die bundle boundary direction : Nat) : State :=
  s.logError (die % s.dies) 2 3 bundle 0 (numberBytes 4 boundary ++ numberBytes 4 direction)

/-- The traffic class of an operation's packets (R339): 0 request, 2 bulk, 3 control. The table does not name the scatter-adds and the
vocabulary unit: 2 is the model's choice (log entry 159). -/
def OpKind.hingeClass : OpKind → Nat
  | .load _ _ _ _ _ _ => 0
  | .atomic _ _ _ _ _ _ _ engine => if engine then 2 else 0
  | .window _ _ _ _ _ _ _ _ _ => 0
  | .copy _ _ _ _ _ => 2
  | .gather _ _ _ _ => 2
  | .walk _ => 2
  | .activity _ _ _ _ _ => 2
  | .insert _ _ _ _ => 2
  | .dtrav _ => 2
  | .halo _ _ _ _ _ _ => 2
  | .vocab _ => 2
  | _ => 3

/-- The boundaries that the way from a die to another crosses while none has failed: the shorter way round the ring, and upwards
between dies that face each other (log entry 139). -/
def State.route (s : State) (a b : Nat) : List Nat :=
  match s.variant with
  | .wz1 => []
  | .wz2 => [a]
  | .wz4 => match (b + 4 - a) % 4 with
    | 1 => [a]
    | 2 => [a, (a + 1) % 4]
    | 3 => [b]
    | _ => []

/-- The other way round the ring; on a WZ2 the other boundary (R341). -/
def State.detour (s : State) (a b : Nat) : List Nat :=
  match s.variant with
  | .wz1 => []
  | .wz2 => [(a + 1) % 2]
  | .wz4 => (List.range 4).filter fun i => !(s.route a b).contains i

/-- The direction of the shorter way: 0 upwards, from a port P to a port Q, and 1 downwards; a die of a WZ2 uses its port P. -/
def State.routeDown (s : State) (a b : Nat) : Nat := if s.variant = .wz4 ∧ (b + 4 - a) % 4 = 3 then 1 else 0

/-- The boundaries that a packet crosses, its direction, and whether it makes a detour, the other way round (R341). -/
def State.way (s : State) (a b : Nat) : List Nat × Nat × Bool :=
  if (s.route a b).any s.boundaryFailed then (s.detour a b, 1 - s.routeDown a b, true)
  else (s.route a b, s.routeDown a b, false)

/-- A packet that a replay record stands for (R340, R341): it is sent again from there, until it has been performed. -/
structure Packet where
  source : Nat
  target : Nat
  number : Nat
  /-- the traffic class (R339): 4 for one that makes a detour -/
  cls : Nat
  /-- a response or an acknowledgement (R339) -/
  reply : Bool
deriving DecidableEq, Repr

/-- The name of a packet's flits. -/
def Packet.flit (p : Packet) : Nat := 16 * p.number + 4 * p.source + p.target

/-- A packet between two dies; none where they are one. -/
def State.packet (s : State) (source target number cls : Nat) : List Packet :=
  if source = target then []
  else [⟨source, target, number, if (s.way source target).2.2 then 4 else cls, false⟩]

/-- The packets of the operations in flight, one on every link that an operation has (log entry 139). -/
def State.opPackets (s : State) : List Packet :=
  s.ops.flatMap fun e => (s.opLinks e.2).flatMap fun d => s.packet d.1 d.2 (e.2.seq e.1 d) e.2.kind.hingeClass

/-- The packets of the write-backs on their way. -/
def State.writePackets (s : State) : List Packet :=
  s.writes.flatMap fun w =>
    let own := dieOfCore w.core
    s.packet own (((w.bytes.head?).map fun e => (s.placeLink own w.core (.mem e.1)).2).getD own) w.number 0

/-- The packets of the records on their way, but those that wait for an earlier firing of their arm (R321). -/
def State.recordPackets (s : State) : List Packet :=
  (List.range s.sent.length).flatMap fun i =>
    match s.sentFirst i with
    | some r => s.packet r.source r.die r.number 3
    | none => []

/-- The packets of the completion messages of boundary pairs (R41). -/
def State.messagePackets (s : State) : List Packet :=
  s.teams.flatMap fun e => e.2.messages.flatMap fun m =>
    let even := e.2.die
    let odd := s.beside even
    if m.1 = 0 then s.packet even odd m.2 3 else s.packet odd even m.2 3

/-- The packets of the reports of tasks to frames of other dies. -/
def State.reportPackets (s : State) : List Packet :=
  s.reports.flatMap fun r => s.packet r.source (handleDie r.frame) r.number 3

/-- The packets of the watch releases for contexts of other dies. -/
def State.releasePackets (s : State) : List Packet :=
  s.watch.flatMap fun w => match w.sent with
    | some n => s.packet w.die (s.watchTarget w) n 3
    | none => []

/-- The packets of the responses and acknowledgements that have been sent: an entry names the packet that it answers. -/
def State.replyPackets (s : State) : List Packet :=
  s.replies.flatMap fun e => (s.packet (e.1 % 4) (e.1 / 4) e.2.1 1).map fun p => { p with reply := true }

/-- The packets in flight between the dies (R339). -/
def State.packets (s : State) : List Packet :=
  s.opPackets ++ s.writePackets ++ s.recordPackets ++ s.messagePackets ++ s.reportPackets ++ s.releasePackets ++ s.replyPackets

/-- The destination keeps a packet's number: it has performed it (R340). -/
def State.packetSeen (s : State) (source target number : Nat) : Option (Nat × Nat × Response) :=
  s.hinge.find? fun e => e.1 == 4 * source + target && e.2.1 == number

/-- The flits of a packet that has come to its destination are acknowledged in the replay buffers on its way (R339). -/
def State.ackFlits (s : State) (source target number : Nat) : State :=
  let flit := 16 * number + 4 * source + target
  { s with boundaries := s.boundaries.map fun e => (e.1, { e.2 with replays := e.2.replays.filter fun r => r.number != flit }) }

/-- The flits of packets that cross a boundary stand in its replay buffers until they are acknowledged, at most 4,096 in each
direction (R339); a packet that is over has none. -/
def State.bufferFlits (s : State) (ps : List Packet) (b : Nat) : State :=
  s.modBoundary b fun x =>
    let crossing := if x.failed then [] else ps.filterMap fun p =>
      let w := s.way p.source p.target
      if w.1.contains b then some (w.2.1, p.flit) else none
    let kept := x.replays.filter fun r => crossing.contains (r.direction, r.number)
    { x with
      replays := crossing.foldl (fun rs e =>
        if rs.any (fun r => r.direction == e.1 && r.number == e.2)
            || decide (4096 ≤ (rs.filter fun r => r.direction == e.1).length) then rs
        else rs ++ [⟨e.1, e.2, 0⟩]) kept }

/-- Every packet in flight stands in the replay buffers on its way (R339). -/
def State.sendFlits (s : State) : State :=
  let ps := s.packets
  foldState (List.range s.boundaryCount) s fun s b => s.bufferFlits ps b

/-- The response recorded for a packet, or its acknowledgement, is sent. -/
def State.reply (s : State) (e : Nat × Nat × Response) : State :=
  { s with replies := e :: s.replies.filter fun r => !(r.1 == e.1 && r.2.1 == e.2.1) }

/-- The next state of an event that a packet stands for. -/
def State.become (s : State) (r : Host.Outcome State Fault Refusal) : State :=
  match r with
  | .next t => t
  | _ => s

/-- What a packet of an operation has its destination do: it reads the lanes of a load or a gather whose places it holds, performs the
first such lane of an atomic, and for every other operation does what the operation's own event does, whose choices stand in the
event's word: the first byte of a copy's landing and its count, the lanes of a producer, and for a traversal twice the pops, plus 1
where it is to end. -/
def State.performOp (s : State) (n : Nat) (o : Op) (link : Nat × Nat) (x : DWord) : State :=
  let here := fun a : LaneAt => s.placeLink o.die o.core a.place == link
  match o.kind with
  | .load _ _ _ _ _ _ => s.readOp n here
  | .gather reg ty lanes moved =>
    let (now, later) := lanes.partition here
    (s.gatherLanes n o reg ty now).keepOp n later.isEmpty (.gather reg ty later (moved + ty.bytes * now.length))
  | .atomic op ty rnd fpctl lanes ret flags engine =>
    match findAt lanes fun a => here a.at_ with
    | some (i, a) => s.atomicStep n o op ty rnd fpctl ret flags engine (a :: dropAt lanes i)
    | none => s
  | .fpoll polls =>
    s.fillLanes n o (laneSet ((polls.filter fun e => (o.die, handleDie e.2) == link).map fun e => locLane e.1))
  | .window _ _ _ _ _ _ _ _ _ => s.become (execClusterWindowArrive n s)
  | .walk _ => s.become (execProducerFill n x s)
  | .activity _ _ _ _ _ => s.become (execAtomicPerform n s)
  | .insert _ _ _ _ => s.become (execAllocatorInsertDone n s)
  | .dtrav _ => s.become (if x.getLsbD 0 then execPairWalkerEnd o.die (x.toNat / 2) s else execPairWalkerEmit o.die (x.toNat / 2) s)
  | .halo _ _ _ _ _ _ => s.become (execHaloPost n s)
  | .vocab _ => s.become (execVocabBlock n s)
  | .copy _ _ _ _ _ => s.become (execCopyLanding n (x.extractLsb' 0 32).toNat (x.extractLsb' 32 32).toNat s)
  | .spawn _ => s.become (execSpawnFrameRaise n s)
  | .fdone _ => s.become (execFdonePerform n s)
  | .push _ _ => s.become (execPqPushPerform n s)
  | .tbarrive _ _ _ _ => s.become (execTbarrivePerform n s)
  | .handle _ _ _ => s.become (execHandleChangeApplied n s)
  | .invalidate _ _ _ _ => s.become (execTranslationInvalidateDone n s)
  | .pop _ _ => s
  | .result _ => s
  | .matrix _ => s

/-- The operation to which a packet belongs. -/
def State.packetOp (s : State) (p : Packet) : Option (Nat × Op) :=
  s.ops.find? fun e => (s.opLinks e.2).contains (p.source, p.target) && e.2.seq e.1 (p.source, p.target) == p.number

/-- A write-back, a record, a barrier's message, a task's report or a watch release arrives and is performed; its number is kept. -/
def State.performNotice (s : State) (p : Packet) : State :=
  match findAt s.writes (fun w => w.number == p.number), findAt s.sent (fun r => r.number == p.number),
      s.teams.find? (fun e => e.2.messages.any fun m => m.2 == p.number) with
  | some (i, w), _, _ => s.performNth i w
  | none, some (i, r), _ => s.recordEnters i r
  | none, none, some e => s.passMessage e.1 (((e.2.messages.find? fun m => m.2 == p.number).map Prod.fst).getD 0)
  | none, none, none =>
    match findAt s.reports (fun r => r.number == p.number), s.watch.find? fun w => w.sent == some p.number with
    | some (i, r), _ =>
      ({ s with reports := dropAt s.reports i }.childExit r.frame r.err).noteHinge p.source p.target p.number []
    | none, some w =>
      ({ s with watch := s.watch.filter fun w => w.sent != some p.number }.freeWatch w).noteHinge p.source p.target p.number []
    | none, none => s

/-- A response or an acknowledgement arrives: it is in flight no more. -/
def State.takeReply (s : State) (p : Packet) : State :=
  { s with replies := s.replies.filter fun e => !(e.1 == 4 * p.target + p.source && e.2.1 == p.number) }.noteHinge p.source p.target
    p.number []

/-- A packet arrives for the first time and is performed (R340). -/
def State.performPacket (s : State) (p : Packet) (x : DWord) : State :=
  if p.reply then s.takeReply p
  else
    match s.packetOp p with
    | some (n, o) => s.performOp n o (p.source, p.target) x
    | none => s.performNotice p

/-- The answer to a packet that has been performed: what was answered the first time to a read or an atomic, and to any packet that
is performed now, but for a response, an acknowledgement (R339, R340). -/
def State.answer (s : State) (source target sequence : Nat) (ack : Bool) : State :=
  match s.packetSeen source target sequence with
  | some e => if ack || !e.2.2.isEmpty then s.reply e else s
  | none => s

/-- R340: a packet arrives. One that the destination has kept the number of is a duplicate: it is discarded, and a read or an atomic is
answered as it was the first time. One that arrives for the first time is performed, with the event's word for the choices that an event
of the operation's own would make, and is then acknowledged, its flits with it. -/
def execHingePacketReceive (source target sequence : Nat) (response : DWord) (s : State) :
    Host.Outcome State Fault Refusal :=
  if (s.packetSeen source target sequence).isSome then
    .next ((s.ackFlits source target sequence).answer source target sequence false)
  else
    match s.packets.find? fun p => p.source == source && p.target == target && p.number == sequence with
    | none => .next s
    | some p =>
      let t := s.performPacket p response
      .next (if (t.packetSeen source target sequence).isSome then
        (t.ackFlits source target sequence).answer source target sequence (!p.reply) else t)

/-- Task reports, watch releases and responses between dies that no path joins are discarded; the graphs of the first two end (R341, log
entry 162). -/
def State.loseNotices (s : State) : State :=
  let reports := s.reports.filter fun r => !s.reachable r.source (handleDie r.frame)
  let freed := s.watch.filter fun w => w.sent.isSome && !s.reachable w.die (s.watchTarget w)
  let graphs := reports.map (·.graph) ++ freed.filterMap fun w => (s.ctxs.look w.ctx).map (·.graph)
  let s := { s with
    reports := s.reports.filter fun r => s.reachable r.source (handleDie r.frame)
    watch := s.watch.filter fun w => w.sent.isNone || s.reachable w.die (s.watchTarget w)
    replies := s.replies.filter fun e => s.reachable (e.1 % 4) (e.1 / 4) }
  foldState graphs.eraseDups s State.graphLost

/-- Work in flight between dies that no path joins any more (R341, R41). -/
def State.losePaths (s : State) : State :=
  let gone := fun die pa : Nat => !inHost pa && !s.reaches die pa
  let apart := fun (o : Op) (p : Place) => match p with
    | .mem pa => gone o.die pa
    | .scratch k _ => !s.reachable (s.standsOn o.core) (s.standsOn k)
  let s1 := foldState s.ops s fun s e =>
    ((s.loseOp e.1 e.2 (apart e.2) true).loseCopy e.1 e.2 (gone e.2.die)).loseControl e.1 e.2 fun d =>
      !s.reachable e.2.die d
  let cut := (s1.sent.filter fun r => !s.reachable r.source r.die).flatMap fun r : Sent => [r.issuer, r.record.graph]
  match s1.loseWrites gone with
  | (s2, graphs) =>
    let s3 := foldState (graphs ++ cut).eraseDups s2 State.graphLost
    (foldState s3.teams s3 fun s e =>
      if s.boundaryPair e.2 && !s.reachable e.2.die (s.beside e.2.die) then s.loseBarrier e.1 else s).loseNotices

/-- R341: both ports of a boundary stop; its replay buffers are purged, and the packets go the other way round from their replay
records (`State.packets`); what has no path left is lost. -/
def State.failBoundary (s : State) (b : Nat) : State :=
  let s := s.modBoundary b fun x => { x with failed := true, replays := [] }
  ((s.losePaths).logHinge b 0 b 0).logHinge (b + 1) 0 b 1

/-- Fewer than 12 of the 24 bundles of a direction work, or a flit has failed 16 times (R341). -/
def Boundary.broken (x : Boundary) : Bool :=
  ([0, 1].any fun d => decide (12 < (x.off.filter fun e => e.1 == d).length)) || x.replays.any fun r => decide (16 ≤ r.failures)

/-- R341: a boundary fails. -/
def execHingeBoundaryFail (boundary : Nat) (s : State) : Host.Outcome State Fault Refusal :=
  let x := s.boundary boundary
  if s.boundaryCount ≤ boundary || x.failed || !x.broken then .next s else .next (s.failBoundary boundary)

/-- R342: a lane fails: its bundle's spare replaces it, or the bundle is switched off. -/
def execHingeLaneFail (boundary direction bundle : Nat) (s : State) : Host.Outcome State Fault Refusal :=
  let x := s.boundary boundary
  let e := (direction, bundle)
  if s.boundaryCount ≤ boundary || decide (2 ≤ direction) || decide (24 ≤ bundle) || x.off.contains e then .next s
  else
    let s := s.modBoundary boundary fun x =>
      if x.spared.contains e then { x with off := x.off ++ [e] } else { x with spared := x.spared ++ [e] }
    .next (s.logHinge (boundary + direction) bundle boundary direction)

/-- R342: the bundles are recalibrated in turn. -/
def execHingeRecalibrate (boundary bundle : Nat) (s : State) : Host.Outcome State Fault Refusal :=
  let turn := match (s.boundary boundary).recalibrating with
    | none => true
    | some b => bundle == (b + 1) % 24
  if s.boundaryCount ≤ boundary || decide (24 ≤ bundle) || !turn then .next s
  else .next (s.modBoundary boundary fun x => { x with recalibrating := some bundle })

/-- How often a flit has failed its CRC. -/
def Boundary.failures (x : Boundary) (direction flit : Nat) : Nat :=
  ((x.replays.find? fun r => r.direction == direction && r.number == flit).map fun r => r.failures).getD 0

/-- The flits of a direction that stand in its replay buffer. -/
def Boundary.buffered (x : Boundary) (direction : Nat) : Nat := (x.replays.filter fun r => r.direction == direction).length

/-- R339, R341: a flit fails its CRC and is sent again from the replay buffer, which holds 4,096; the sixteenth failure of one flit
fails the boundary. One that no replay buffer holds has been acknowledged, and nothing is sent. -/
def execFlitReplay (boundary direction flit : Nat) (s : State) : Host.Outcome State Fault Refusal :=
  let x := s.boundary boundary
  let n := x.failures direction flit + 1
  let here := x.replays.any fun r => r.direction == direction && r.number == flit
  if s.boundaryCount ≤ boundary || x.failed || !here then .next s
  else if 16 ≤ n then .next (s.failBoundary boundary)
  else
    .next (s.modBoundary boundary fun x =>
      { x with replays :=
          ⟨direction, flit, n⟩ :: x.replays.filter fun r => !(r.direction == direction && r.number == flit) })

/-! ## Memory (R350, R351) -/

/-- R350: the patrol scrub reads a sector: one bad symbol is corrected, counted and logged; two are detected and poison the
sector; more may go undetected. -/
def execPatrolScrub (sector symbols : Nat) (s : State) : Host.Outcome State Fault Refusal :=
  let pa := 32 * sector
  let c := s.channelOf pa
  if !s.inDevice pa then .next s
  else
    match symbols with
    | 1 => .next (s.logError (s.homeOf pa).1 0 0 (32 * c.1 + c.2) pa [])
    | 2 => .next (({ s with poison := insertNat s.poison sector }).logUncorrectable pa)
    | _ => .next s

/-- The spare channel of a stack is in use. -/
def State.spareUsed (s : State) (stack : Nat) : Bool := (s.channels ++ s.copying).any fun c => c / 32 == stack

/-- R351: firmware copies a failing channel to its stack's spare; a second failure in one stack is only logged. -/
def execChannelRetire (stack channel : Nat) (s : State) : Host.Outcome State Fault Refusal :=
  let c := 32 * stack + channel
  if decide (2 * s.dies ≤ stack) || decide (32 ≤ channel) || (s.channels ++ s.copying).contains c then .next s
  else if s.spareUsed stack then .next (s.logError (stack / 2) 1 0 c 0 [])
  else .next { s with copying := s.copying ++ [c] }

/-- R351: the copy ends, and the logical channel maps to the spare. -/
def execChannelCopyDone (stack channel : Nat) (s : State) : Host.Outcome State Fault Refusal :=
  let c := 32 * stack + channel
  if !s.copying.contains c then .next s
  else
    .next (({ s with copying := s.copying.filter fun x => x != c, channels := s.channels ++ [c] }).logError (stack / 2) 5 0 c 0 [])

/-! ## Power (R352 to R354) -/

/-- A context resident in either bank of a core is ready. -/
def State.anyReady (s : State) (core : Nat) : Bool := (s.residents core).any fun e => s.ctxReady e.2

/-- The core holds no context in a bank or a lodging place. -/
def State.coreEmpty (s : State) (core : Nat) : Bool := (s.residents core).isEmpty && s.lodgers core == 0

/-- R352: no resident context has been ready for 64 cycles. -/
def execCoreClockGate (core : Nat) (s : State) : Host.Outcome State Fault Refusal :=
  let k := s.core core
  if decide (288 * s.dies ≤ core) || k.power != .c0 || s.anyReady core || decide (s.clock < k.lastAwake + 64) then .next s
  else .next (s.setPower core .c1)

/-- R352: a core that has held nothing for 2^16 cycles begins to be power-gated. -/
def execCorePowerGate (core : Nat) (s : State) : Host.Outcome State Fault Refusal :=
  let k := s.core core
  let on := k.power == .c0 || k.power == .c1
  if decide (288 * s.dies ≤ core) || !on || !s.coreEmpty core || decide (s.clock < k.lastHeld + 2 ^ 16) then .next s
  else .next (s.setPower core (.gating s.clock false))

/-- A core without power keeps nothing (R352). -/
def Core.off (k : Core) (power : Power) (clock : Nat) : Core :=
  { Core.fresh with
    power := power, powerSince := clock, lastReady := k.lastReady, lastAwake := k.lastAwake, lastHeld := k.lastHeld
    retired := k.retired, failed := k.failed }

/-- A group whose tiles and accumulator blocks stand in the stores of a core (R314). -/
def State.storesIn (s : State) (core : Nat) (c : Ctx) : Bool := c.home == core && s.teamHere c

/-- The core without power keeps nothing (R352): its stores, with the tiles and blocks of the groups whose home it is, are as after
reset (log entry 24). -/
def State.offCore (s : State) (core : Nat) (power : Power) : State :=
  { s.modCore core fun k => k.off power s.clock with
    ctxs := s.ctxs.map fun e => if s.storesIn core e.2 then (e.1, { e.2 with tiles := [], accs := [] }) else e }

/-- R353: gating ends; a wake that came during it is served now. -/
def execGatingEnd (core : Nat) (s : State) : Host.Outcome State Fault Refusal :=
  match (s.core core).power with
  | .gating since wake =>
    if s.clock < since + 200 then .next s
    else
      let s := s.writeBackLines core none fun _ _ => true
      let power := if wake then Power.c0 else .c2
      .next ((s.offCore core power).setPower core power)
  | _ => .next s

/-- An engine works for a group of a die, or its activity scanner for a request (R327). -/
def State.engineBusy (s : State) (die : Nat) : Bool :=
  (s.ops.any fun e => e.2.die == die && e.2.kind.source != 0) || s.scans.any fun x => x.2.die == die

/-- R352: a die whose cores are all gated and whose engines are idle enters D1. -/
def execDieEnterD1 (die : Nat) (s : State) : Host.Outcome State Fault Refusal :=
  let gated := (List.range 288).all fun i => (s.core (288 * die + i)).power == .c2
  if s.dies ≤ die || s.sleeping.contains die || !gated || s.engineBusy die then .next s
  else .next ({ s with sleeping := insertNat s.sleeping die }.logPower die 6 die)

/-- R352: an event that needs a core is waiting for it: a context of it is ready, or waits to return to it. -/
def State.needsCore (s : State) (core : Nat) : Bool :=
  s.anyReady core || s.ctxs.any fun e => e.2.home == core && s.wantsReturn e.2

/-- R352, R353: a core wakes, and its die. -/
def execCoreWake (core : Nat) (s : State) : Host.Outcome State Fault Refusal :=
  .next (if s.needsCore core then (s.wakeCore core).1 else s)

/-- R354: the arithmetic clock changes, in steps of 50 MHz up to the nominal 1.9 GHz; the part of a count of `%clock` that has passed
is kept. -/
def execClockStepChange (mhz : Nat) (s : State) : Host.Outcome State Fault Refusal :=
  .next (if mhz % 50 = 0 ∧ 0 < mhz ∧ mhz ≤ 1900 then { s with clockMhz := mhz, refPart := s.refPart * mhz / s.clockMhz } else s)

/-! ## Bring-up, firmware and management (R355 to R357) -/

/-- A bank holds an image that may be activated: it has been verified, and the fuses do not refuse its version (R356). -/
def Firmware.ok (f : Firmware) (i : Nat) : Bool := f.verified.getD i false && decide (f.fuses ≤ f.versions.getD i 0)

/-- The bank that the management controller starts: the active one, or the other where that fails verification (R355). -/
def Firmware.started (f : Firmware) : Option Nat :=
  if f.ok f.active then some f.active else if f.ok (1 - f.active) then some (1 - f.active) else none

/-- R355: bring-up. With no bank that verifies, nothing is started. `MEMMAP` is written once, and a value above 94 is ignored
(R59). The model's own schedule and names go on, and so do firmware and the channels that were retired. -/
def execPackageReset (variant : Variant) (cxl : Bool) (ilshare : BitVec 7) (s : State) : Host.Outcome State Fault Refusal :=
  match s.firmware.started with
  | none => .next s
  | some bank =>
    .next { State.reset with
      variant := variant
      cxl := cxl
      ilshare := if ilshare.toNat ≤ 94 then ilshare.toNat else 48
      memmapWritten := true
      firmware := { s.firmware with active := bank, switched := [] }
      channels := s.channels
      agenda := s.agenda
      free := s.free
      nextId := s.nextId }

/-- R357, R356: an image is written to the inactive bank and verified: its signature, and its version against the fuses. -/
def execFirmwareUpdate (version : Nat) (digest : BitVec 256) (signed : Bool) (s : State) : Host.Outcome State Fault Refusal :=
  let f := s.firmware
  let i := 1 - f.active
  .next { s with firmware := { f with
    versions := f.versions.set i version
    digests := f.digests.set i digest
    verified := f.verified.set i (signed && decide (f.fuses ≤ version))
    switched := [] } }

/-- The units that run firmware: those of R355's `UNIT` (log entry 25). -/
def firmwareUnits : Nat := 7

/-- A unit holds a firmware task in progress (R357): the HBM's, while it copies a channel to its spare (R351). -/
def State.firmwareTask (s : State) (unit : Nat) : Bool := unit == 0 && !s.copying.isEmpty

/-- R357: a unit without a firmware task in progress switches to the inactive bank, if its image may be activated; when every unit
has, that bank is the active one and the fuses refuse older images. -/
def execFirmwareBankSwitch (unit : Nat) (s : State) : Host.Outcome State Fault Refusal :=
  let f := s.firmware
  let i := 1 - f.active
  if firmwareUnits ≤ unit || !f.ok i || s.firmwareTask unit then .next s
  else
    let units := insertNat f.switched unit
    if units.length < firmwareUnits then .next { s with firmware := { f with switched := units } }
    else .next { s with firmware := { f with active := i, switched := [], fuses := max f.fuses (f.versions.getD i 0) } }

/-- The measurements: the digests of both banks and the number of the active one (R356). -/
def Firmware.measurements (f : Firmware) : List Byte :=
  let d := fun i => numberBytes 32 ((f.digests.getD i 0).toNat)
  d 0 ++ d 1 ++ numberBytes 1 f.active

/-- R356: the measurements, with their signature under the identity key (log entry 26). -/
def execAttestation (s : State) : Host.Outcome State Fault Refusal :=
  let m := s.firmware.measurements
  .next { s with
    hostRead := m ++ tabulate 64 (Config.signature s.firmware.identity m s.free)
    free := s.free + 1 }

/-- The telemetry of a die: `ORIENT` and `ERRHEAD`, and the entries of its error log, the oldest first. -/
def State.dieTelemetry (s : State) (die : Nat) : List Byte :=
  let head := s.errHead.at 0 die
  let n := min head Config.errorEntries
  numberBytes 4 (s.orient die).toNat ++ numberBytes 4 head
    ++ (List.range n).flatMap fun i =>
      tabulate 64 fun j => s.byteAt ((s.errorRing die).1 + 64 * ((head - n + i) % Config.errorEntries) + j)

/-- R356: the management controller returns telemetry and the error logs. -/
def execManagementTelemetry (s : State) : Host.Outcome State Fault Refusal :=
  .next { s with hostRead := numberBytes 4 s.clockMhz ++ (List.range s.dies).flatMap s.dieTelemetry }

/-! ## Cores retired and failed (R358) -/

/-- The lodging places of a core are moved to the die's pool. -/
def State.clearLodgings (s : State) (core : Nat) : State :=
  { s with ctxs := s.ctxs.map fun e =>
      if e.2.loc == Loc.lodged core then (e.1, { e.2 with loc := .pool (dieOfCore core) }) else e }

/-- R358: a core is retired. The event begins the retirement; once the core's contexts are lodged and its teams evicted, it
puts a spare in its place. -/
def execCoreRetire (core spare : Nat) (s : State) : Host.Outcome State Fault Refusal :=
  let unit := 16 * dieOfCore core + spare
  if decide (288 * s.dies ≤ core) || decide (16 ≤ spare) || s.spares.contains unit || (s.core core).failed then .next s
  else if !(s.core core).retired then .next (s.modCore core fun k => { k with retired := true })
  else if !(s.residents core).isEmpty || !(s.teamsOn core).isEmpty then .next s
  else
    let s := (s.writeBackLines core none fun _ _ => true).clearLodgings core
    let s := s.modCore core fun k => { k.off .c0 s.clock with retired := false }
    .next (({ s with spares := insertNat s.spares unit }).logError (dieOfCore core) 5 2 (coreIndex core) 0 [])

/-- A context that a failed core held is lost: its tasks end in error (log entry 27). -/
def State.loseCtx (s : State) (id : Nat) : State :=
  match s.ctxs.look id with
  | none => s
  | some c =>
    let lost := { c with errTasks := BitVec.allOnes 64 }
    let s := foldState (c.tasks.filter fun t => !c.reported.getLsbD t) s fun s t => s.report id lost t
    s.dropCtx id lost

/-- R358: a core fails without warning. Its contexts are lost, their graphs end with `WATCHDOG`, and the engines issued from it
end with fault records. -/
def execCoreFailure (core : Nat) (s : State) : Host.Outcome State Fault Refusal :=
  if decide (288 * s.dies ≤ core) || (s.core core).failed then .next s
  else
    let t := Trap.of .watchdog
    let engines := s.ops.filter fun e => e.2.core == core && e.2.kind.source != 0
    let s := foldState engines s fun s e => s.failEngine e.1 t
    let held := s.ctxs.filter fun e => e.2.residentOn core || e.2.loc == Loc.lodged core
    let s := s.modCore core fun k => { k.off .c0 s.clock with failed := true }
    let graphs := (held.map fun e : Nat × Ctx => e.2.graph).eraseDups
    let blame : Blame := { (Cause.watchdog.blame) with core := BitVec.ofNat 32 core }
    let s := foldState graphs s fun s g => s.endGraph g 1 (some blame)
    .next (foldState (held.map Prod.fst) s State.loseCtx)

end Sys2Proof.Machine
end

