-- ==== Sys2Proof/Machine/Dispatch.lean ====
section
/-! DEFINITION. The dispatch of an instruction or event to its meaning, one arm per constructor. -/

namespace Sys2Proof.Machine

def exec (i : Instr) (s : State) : Host.Outcome State Fault Refusal :=
  match i with
  | .addB32Base f => Sys2Proof.Machine.execAddB32Base f s
  | .subB32Base f => Sys2Proof.Machine.execSubB32Base f s
  | .mulB32Base f => Sys2Proof.Machine.execMulB32Base f s
  | .andB32Base f => Sys2Proof.Machine.execAndB32Base f s
  | .orB32Base f => Sys2Proof.Machine.execOrB32Base f s
  | .xorB32Base f => Sys2Proof.Machine.execXorB32Base f s
  | .shlB32Base f => Sys2Proof.Machine.execShlB32Base f s
  | .shrB32Base f => Sys2Proof.Machine.execShrB32Base f s
  | .sraB32Base f => Sys2Proof.Machine.execSraB32Base f s
  | .minS32Base f => Sys2Proof.Machine.execMinS32Base f s
  | .maxS32Base f => Sys2Proof.Machine.execMaxS32Base f s
  | .faddF32Base f => Sys2Proof.Machine.execFaddF32Base f s
  | .fsubF32Base f => Sys2Proof.Machine.execFsubF32Base f s
  | .fmulF32Base f => Sys2Proof.Machine.execFmulF32Base f s
  | .fmaF32Base f => Sys2Proof.Machine.execFmaF32Base f s
  | .fminF32Base f => Sys2Proof.Machine.execFminF32Base f s
  | .fmaxF32Base f => Sys2Proof.Machine.execFmaxF32Base f s
  | .movB32Base f => Sys2Proof.Machine.execMovB32Base f s
  | .addB32VsBase f => Sys2Proof.Machine.execAddB32VsBase f s
  | .fmulF32VsBase f => Sys2Proof.Machine.execFmulF32VsBase f s
  | .fmaF32VsBase f => Sys2Proof.Machine.execFmaF32VsBase f s
  | .saddB32Base f => Sys2Proof.Machine.execSaddB32Base f s
  | .ssubB32Base f => Sys2Proof.Machine.execSsubB32Base f s
  | .smulB32Base f => Sys2Proof.Machine.execSmulB32Base f s
  | .sandB32Base f => Sys2Proof.Machine.execSandB32Base f s
  | .sorB32Base f => Sys2Proof.Machine.execSorB32Base f s
  | .sxorB32Base f => Sys2Proof.Machine.execSxorB32Base f s
  | .sshlB32Base f => Sys2Proof.Machine.execSshlB32Base f s
  | .sshrB32Base f => Sys2Proof.Machine.execSshrB32Base f s
  | .smovB32Base f => Sys2Proof.Machine.execSmovB32Base f s
  | .ldB32XBase f => Sys2Proof.Machine.execLdB32XBase f s
  | .stB32XBase f => Sys2Proof.Machine.execStB32XBase f s
  | .ldB32ScBase f => Sys2Proof.Machine.execLdB32ScBase f s
  | .stB32ScBase f => Sys2Proof.Machine.execStB32ScBase f s
  | .sadd f => Sys2Proof.Machine.execSadd f s
  | .ssub f => Sys2Proof.Machine.execSsub f s
  | .smul f => Sys2Proof.Machine.execSmul f s
  | .smulh f => Sys2Proof.Machine.execSmulh f s
  | .smad f => Sys2Proof.Machine.execSmad f s
  | .sdiv f => Sys2Proof.Machine.execSdiv f s
  | .srem f => Sys2Proof.Machine.execSrem f s
  | .smin f => Sys2Proof.Machine.execSmin f s
  | .smax f => Sys2Proof.Machine.execSmax f s
  | .sand f => Sys2Proof.Machine.execSand f s
  | .sor f => Sys2Proof.Machine.execSor f s
  | .sxor f => Sys2Proof.Machine.execSxor f s
  | .sshl f => Sys2Proof.Machine.execSshl f s
  | .sshr f => Sys2Proof.Machine.execSshr f s
  | .ssra f => Sys2Proof.Machine.execSsra f s
  | .sbfx f => Sys2Proof.Machine.execSbfx f s
  | .sbfi f => Sys2Proof.Machine.execSbfi f s
  | .spopc f => Sys2Proof.Machine.execSpopc f s
  | .sclz f => Sys2Proof.Machine.execSclz f s
  | .sctz f => Sys2Proof.Machine.execSctz f s
  | .scmp f => Sys2Proof.Machine.execScmp f s
  | .ssel f => Sys2Proof.Machine.execSsel f s
  | .smov f => Sys2Proof.Machine.execSmov f s
  | .sli f => Sys2Proof.Machine.execSli f s
  | .kop f => Sys2Proof.Machine.execKop f s
  | .bra f => Sys2Proof.Machine.execBra f s
  | .brk f => Sys2Proof.Machine.execBrk f s
  | .brv f => Sys2Proof.Machine.execBrv f s
  | .jmp f => Sys2Proof.Machine.execJmp f s
  | .call f => Sys2Proof.Machine.execCall f s
  | .ret f => Sys2Proof.Machine.execRet f s
  | .loop f => Sys2Proof.Machine.execLoop f s
  | .join f => Sys2Proof.Machine.execJoin f s
  | .exitLanes f => Sys2Proof.Machine.execExitLanes f s
  | .nop f => Sys2Proof.Machine.execNop f s
  | .yieldSplit f => Sys2Proof.Machine.execYieldSplit f s
  | .rdsr f => Sys2Proof.Machine.execRdsr f s
  | .wrsr f => Sys2Proof.Machine.execWrsr f s
  | .region f => Sys2Proof.Machine.execRegion f s
  | .fnew f => Sys2Proof.Machine.execFnew f s
  | .fnewP f => Sys2Proof.Machine.execFnewP f s
  | .fdone f => Sys2Proof.Machine.execFdone f s
  | .fdonePerform op => Sys2Proof.Machine.execFdonePerform op s
  | .fawait f => Sys2Proof.Machine.execFawait f s
  | .fpoll f => Sys2Proof.Machine.execFpoll f s
  | .spawn f => Sys2Proof.Machine.execSpawn f s
  | .spawnFrameRaise op => Sys2Proof.Machine.execSpawnFrameRaise op s
  | .emit f => Sys2Proof.Machine.execEmit f s
  | .fire f => Sys2Proof.Machine.execFire f s
  | .reord f => Sys2Proof.Machine.execReord f s
  | .pqpush f => Sys2Proof.Machine.execPqpush f s
  | .pqPushPerform op => Sys2Proof.Machine.execPqPushPerform op s
  | .pqpop f => Sys2Proof.Machine.execPqpop f s
  | .pqPopPerform op pick => Sys2Proof.Machine.execPqPopPerform op pick s
  | .trap f => Sys2Proof.Machine.execTrap f s
  | .rfePc f => Sys2Proof.Machine.execRfePc f s
  | .rfeNext f => Sys2Proof.Machine.execRfeNext f s
  | .rfeRegion f => Sys2Proof.Machine.execRfeRegion f s
  | .xbind f => Sys2Proof.Machine.execXbind f s
  | .add f => Sys2Proof.Machine.execAdd f s
  | .sub f => Sys2Proof.Machine.execSub f s
  | .mul f => Sys2Proof.Machine.execMul f s
  | .mulh f => Sys2Proof.Machine.execMulh f s
  | .mad f => Sys2Proof.Machine.execMad f s
  | .min f => Sys2Proof.Machine.execMin f s
  | .max f => Sys2Proof.Machine.execMax f s
  | .abs f => Sys2Proof.Machine.execAbs f s
  | .and f => Sys2Proof.Machine.execAnd f s
  | .or f => Sys2Proof.Machine.execOr f s
  | .xor f => Sys2Proof.Machine.execXor f s
  | .shl f => Sys2Proof.Machine.execShl f s
  | .shr f => Sys2Proof.Machine.execShr f s
  | .sra f => Sys2Proof.Machine.execSra f s
  | .bfx f => Sys2Proof.Machine.execBfx f s
  | .bfi f => Sys2Proof.Machine.execBfi f s
  | .popc f => Sys2Proof.Machine.execPopc f s
  | .clz f => Sys2Proof.Machine.execClz f s
  | .brev f => Sys2Proof.Machine.execBrev f s
  | .cmp f => Sys2Proof.Machine.execCmp f s
  | .sel f => Sys2Proof.Machine.execSel f s
  | .mov f => Sys2Proof.Machine.execMov f s
  | .fadd f => Sys2Proof.Machine.execFadd f s
  | .fsub f => Sys2Proof.Machine.execFsub f s
  | .fmul f => Sys2Proof.Machine.execFmul f s
  | .fma f => Sys2Proof.Machine.execFma f s
  | .fmin f => Sys2Proof.Machine.execFmin f s
  | .fmax f => Sys2Proof.Machine.execFmax f s
  | .fcmp f => Sys2Proof.Machine.execFcmp f s
  | .fclass f => Sys2Proof.Machine.execFclass f s
  | .fdiv f => Sys2Proof.Machine.execFdiv f s
  | .fsqrt f => Sys2Proof.Machine.execFsqrt f s
  | .frcp f => Sys2Proof.Machine.execFrcp f s
  | .frsq f => Sys2Proof.Machine.execFrsq f s
  | .fex2 f => Sys2Proof.Machine.execFex2 f s
  | .flg2 f => Sys2Proof.Machine.execFlg2 f s
  | .fsin f => Sys2Proof.Machine.execFsin f s
  | .fcos f => Sys2Proof.Machine.execFcos f s
  | .ftanh f => Sys2Proof.Machine.execFtanh f s
  | .frint f => Sys2Proof.Machine.execFrint f s
  | .fscal f => Sys2Proof.Machine.execFscal f s
  | .cvt f => Sys2Proof.Machine.execCvt f s
  | .pack f => Sys2Proof.Machine.execPack f s
  | .unpack f => Sys2Proof.Machine.execUnpack f s
  | .shflIdx f => Sys2Proof.Machine.execShflIdx f s
  | .shflUp f => Sys2Proof.Machine.execShflUp f s
  | .shflDown f => Sys2Proof.Machine.execShflDown f s
  | .shflXor f => Sys2Proof.Machine.execShflXor f s
  | .voteBallot f => Sys2Proof.Machine.execVoteBallot f s
  | .voteAny f => Sys2Proof.Machine.execVoteAny f s
  | .voteAll f => Sys2Proof.Machine.execVoteAll f s
  | .voteUni f => Sys2Proof.Machine.execVoteUni f s
  | .matchLanes f => Sys2Proof.Machine.execMatchLanes f s
  | .redux f => Sys2Proof.Machine.execRedux f s
  | .scan f => Sys2Proof.Machine.execScan f s
  | .rngc f => Sys2Proof.Machine.execRngc f s
  | .vtopk f => Sys2Proof.Machine.execVtopk f s
  | .vsoftmax f => Sys2Proof.Machine.execVsoftmax f s
  | .vsample f => Sys2Proof.Machine.execVsample f s
  | .vocabBlock op => Sys2Proof.Machine.execVocabBlock op s
  | .ld f => Sys2Proof.Machine.execLd f s
  | .st f => Sys2Proof.Machine.execSt f s
  | .sld f => Sys2Proof.Machine.execSld f s
  | .sst f => Sys2Proof.Machine.execSst f s
  | .aadd f => Sys2Proof.Machine.execAadd f s
  | .amin f => Sys2Proof.Machine.execAmin f s
  | .amax f => Sys2Proof.Machine.execAmax f s
  | .aand f => Sys2Proof.Machine.execAand f s
  | .aor f => Sys2Proof.Machine.execAor f s
  | .axor f => Sys2Proof.Machine.execAxor f s
  | .aswap f => Sys2Proof.Machine.execAswap f s
  | .acas f => Sys2Proof.Machine.execAcas f s
  | .ainc f => Sys2Proof.Machine.execAinc f s
  | .afadd f => Sys2Proof.Machine.execAfadd f s
  | .atomicPerform op => Sys2Proof.Machine.execAtomicPerform op s
  | .red f => Sys2Proof.Machine.execRed f s
  | .swait f => Sys2Proof.Machine.execSwait f s
  | .swaitPoll ctx split => Sys2Proof.Machine.execSwaitPoll ctx split s
  | .pf f => Sys2Proof.Machine.execPf f s
  | .rhnew f => Sys2Proof.Machine.execRhnew f s
  | .rhset f => Sys2Proof.Machine.execRhset f s
  | .rhdrop f => Sys2Proof.Machine.execRhdrop f s
  | .cbinvNode f => Sys2Proof.Machine.execCbinvNode f s
  | .cbinvArm f => Sys2Proof.Machine.execCbinvArm f s
  | .cbinvTree f => Sys2Proof.Machine.execCbinvTree f s
  | .cbinvAll f => Sys2Proof.Machine.execCbinvAll f s
  | .cbinvTr f => Sys2Proof.Machine.execCbinvTr f s
  | .translationInvalidateDone op => Sys2Proof.Machine.execTranslationInvalidateDone op s
  | .cpaGs f => Sys2Proof.Machine.execCpaGs f s
  | .cpaSg f => Sys2Proof.Machine.execCpaSg f s
  | .cpaGg f => Sys2Proof.Machine.execCpaGg f s
  | .cpaSs f => Sys2Proof.Machine.execCpaSs f s
  | .cpaSw f => Sys2Proof.Machine.execCpaSw f s
  | .cpaWs f => Sys2Proof.Machine.execCpaWs f s
  | .cpasGs f => Sys2Proof.Machine.execCpasGs f s
  | .cpasSg f => Sys2Proof.Machine.execCpasSg f s
  | .cpasGt f => Sys2Proof.Machine.execCpasGt f s
  | .cpasSt f => Sys2Proof.Machine.execCpasSt f s
  | .cpasAg f => Sys2Proof.Machine.execCpasAg f s
  | .copyLanding op first count => Sys2Proof.Machine.execCopyLanding op first count s
  | .engineFault op part => Sys2Proof.Machine.execEngineFault op part s
  | .engineSupervisorEntry ctx => Sys2Proof.Machine.execEngineSupervisorEntry ctx s
  | .bar f => Sys2Proof.Machine.execBar f s
  | .boundaryBarrierMessage team side => Sys2Proof.Machine.execBoundaryBarrierMessage team side s
  | .tbinit f => Sys2Proof.Machine.execTbinit f s
  | .tbarrive f => Sys2Proof.Machine.execTbarrive f s
  | .tbarrivePerform op => Sys2Proof.Machine.execTbarrivePerform op s
  | .tbwait f => Sys2Proof.Machine.execTbwait f s
  | .tbpoll f => Sys2Proof.Machine.execTbpoll f s
  | .gath f => Sys2Proof.Machine.execGath f s
  | .gathRow f => Sys2Proof.Machine.execGathRow f s
  | .scatadd f => Sys2Proof.Machine.execScatadd f s
  | .tset f => Sys2Proof.Machine.execTset f s
  | .tget f => Sys2Proof.Machine.execTget f s
  | .tcb f => Sys2Proof.Machine.execTcb f s
  | .tld f => Sys2Proof.Machine.execTld f s
  | .tst f => Sys2Proof.Machine.execTst f s
  | .tzero f => Sys2Proof.Machine.execTzero f s
  | .gang f => Sys2Proof.Machine.execGang f s
  | .mma f => Sys2Proof.Machine.execMma f s
  | .mmaBs f => Sys2Proof.Machine.execMmaBs f s
  | .mmaVs f => Sys2Proof.Machine.execMmaVs f s
  | .latchFire ctx => Sys2Proof.Machine.execLatchFire ctx s
  | .mmas f => Sys2Proof.Machine.execMmas f s
  | .mmasStage op => Sys2Proof.Machine.execMmasStage op s
  | .matrixOpComplete core => Sys2Proof.Machine.execMatrixOpComplete core s
  | .mbatch f => Sys2Proof.Machine.execMbatch f s
  | .mwait f => Sys2Proof.Machine.execMwait f s
  | .accld f => Sys2Proof.Machine.execAccld f s
  | .accst f => Sys2Proof.Machine.execAccst f s
  | .acccvt f => Sys2Proof.Machine.execAcccvt f s
  | .acczero f => Sys2Proof.Machine.execAcczero f s
  | .vtset f => Sys2Proof.Machine.execVtset f s
  | .vlook f => Sys2Proof.Machine.execVlook f s
  | .vstencil f => Sys2Proof.Machine.execVstencil f s
  | .vsampTri f => Sys2Proof.Machine.execVsampTri f s
  | .vsampNear f => Sys2Proof.Machine.execVsampNear f s
  | .vmarch f => Sys2Proof.Machine.execVmarch f s
  | .vins f => Sys2Proof.Machine.execVins f s
  | .allocatorInsertDone op => Sys2Proof.Machine.execAllocatorInsertDone op s
  | .vactSet f => Sys2Proof.Machine.execVactSet f s
  | .vactClr f => Sys2Proof.Machine.execVactClr f s
  | .vactTrim f => Sys2Proof.Machine.execVactTrim f s
  | .dtrav f => Sys2Proof.Machine.execDtrav f s
  | .pairWalkerEmit die pops => Sys2Proof.Machine.execPairWalkerEmit die pops s
  | .pairWalkerEnd die pops => Sys2Proof.Machine.execPairWalkerEnd die pops s
  | .halo f => Sys2Proof.Machine.execHalo f s
  | .haloPostOnly f => Sys2Proof.Machine.execHaloPostOnly f s
  | .haloPost op => Sys2Proof.Machine.execHaloPost op s
  | .stepb f => Sys2Proof.Machine.execStepb f s
  | .producerFill op lanes => Sys2Proof.Machine.execProducerFill op lanes s
  | .producerWatchdog op => Sys2Proof.Machine.execProducerWatchdog op s
  | .clusterWindowArrive op => Sys2Proof.Machine.execClusterWindowArrive op s
  | .memoryWritePerform index => Sys2Proof.Machine.execMemoryWritePerform index s
  | .l1EvictWriteback core line => Sys2Proof.Machine.execL1EvictWriteback core line s
  | .l2Fill line handle set full => Sys2Proof.Machine.execL2Fill line handle set full s
  | .taskReport ctx task => Sys2Proof.Machine.execTaskReport ctx task s
  | .continuationResume ctx core slot => Sys2Proof.Machine.execContinuationResume ctx core slot s
  | .cancelled ctx split => Sys2Proof.Machine.execCancelled ctx split s
  | .graphCompletionRecord graph => Sys2Proof.Machine.execGraphCompletionRecord graph s
  | .hostDoorbell die arm bytes value => Sys2Proof.Machine.execHostDoorbell die arm bytes value s
  | .linkMessage port tag header payload => Sys2Proof.Machine.execLinkMessage port tag header payload s
  | .binRecordArrive index => Sys2Proof.Machine.execBinRecordArrive index s
  | .binTimerExpiry die node graph => Sys2Proof.Machine.execBinTimerExpiry die node graph s
  | .reorderTimerExpiry die node key => Sys2Proof.Machine.execReorderTimerExpiry die node key s
  | .scanRequest index => Sys2Proof.Machine.execScanRequest index s
  | .scanLeaf scan => Sys2Proof.Machine.execScanLeaf scan s
  | .teamPlace die offset => Sys2Proof.Machine.execTeamPlace die offset s
  | .placementHeadAged die => Sys2Proof.Machine.execPlacementHeadAged die s
  | .splitUrgent ctx split => Sys2Proof.Machine.execSplitUrgent ctx split s
  | .bankSwap core => Sys2Proof.Machine.execBankSwap core s
  | .bankSwapIdleTimeout core => Sys2Proof.Machine.execBankSwapIdleTimeout core s
  | .bankSwapComplete core => Sys2Proof.Machine.execBankSwapComplete core s
  | .spinEviction core => Sys2Proof.Machine.execSpinEviction core s
  | .lodgeStart ctx => Sys2Proof.Machine.execLodgeStart ctx s
  | .lodgeProducerTimeout ctx => Sys2Proof.Machine.execLodgeProducerTimeout ctx s
  | .lodgeTransferDone ctx => Sys2Proof.Machine.execLodgeTransferDone ctx s
  | .lodgingAdvertise core => Sys2Proof.Machine.execLodgingAdvertise core s
  | .contextReturn ctx slot => Sys2Proof.Machine.execContextReturn ctx slot s
  | .teamEvict team => Sys2Proof.Machine.execTeamEvict team s
  | .teamEvictTimeout team => Sys2Proof.Machine.execTeamEvictTimeout team s
  | .teamReturn team => Sys2Proof.Machine.execTeamReturn team s
  | .hostBarAccess address length write => Sys2Proof.Machine.execHostBarAccess address length write s
  | .invqtailWrite value => Sys2Proof.Machine.execInvqtailWrite value s
  | .invqEntryDone => Sys2Proof.Machine.execInvqEntryDone s
  | .cancelWrite value => Sys2Proof.Machine.execCancelWrite value s
  | .srbaseWrite port value => Sys2Proof.Machine.execSrbaseWrite port value s
  | .hostRegisterWrite bar offset bytes value => Sys2Proof.Machine.execHostRegisterWrite bar offset bytes value s
  | .hostLinkReset => Sys2Proof.Machine.execHostLinkReset s
  | .hostLinkTrained => Sys2Proof.Machine.execHostLinkTrained s
  | .sendRingSlot port => Sys2Proof.Machine.execSendRingSlot port s
  | .sendRingPoll port => Sys2Proof.Machine.execSendRingPoll port s
  | .linkMessageAck port accepted => Sys2Proof.Machine.execLinkMessageAck port accepted s
  | .portDown port => Sys2Proof.Machine.execPortDown port s
  | .portRestartAttempt port => Sys2Proof.Machine.execPortRestartAttempt port s
  | .portUp port => Sys2Proof.Machine.execPortUp port s
  | .hingePacketReceive source target sequence response => Sys2Proof.Machine.execHingePacketReceive source target sequence response s
  | .hingeBoundaryFail boundary => Sys2Proof.Machine.execHingeBoundaryFail boundary s
  | .hingeLaneFail boundary direction bundle => Sys2Proof.Machine.execHingeLaneFail boundary direction bundle s
  | .hingeRecalibrate boundary bundle => Sys2Proof.Machine.execHingeRecalibrate boundary bundle s
  | .patrolScrub sector symbols => Sys2Proof.Machine.execPatrolScrub sector symbols s
  | .channelRetire stack channel => Sys2Proof.Machine.execChannelRetire stack channel s
  | .channelCopyDone stack channel => Sys2Proof.Machine.execChannelCopyDone stack channel s
  | .coreClockGate core => Sys2Proof.Machine.execCoreClockGate core s
  | .corePowerGate core => Sys2Proof.Machine.execCorePowerGate core s
  | .gatingEnd core => Sys2Proof.Machine.execGatingEnd core s
  | .dieEnterD1 die => Sys2Proof.Machine.execDieEnterD1 die s
  | .coreWake core => Sys2Proof.Machine.execCoreWake core s
  | .clockStepChange mhz => Sys2Proof.Machine.execClockStepChange mhz s
  | .packageReset variant cxl ilshare => Sys2Proof.Machine.execPackageReset variant cxl ilshare s
  | .firmwareUpdate version digest signed => Sys2Proof.Machine.execFirmwareUpdate version digest signed s
  | .firmwareBankSwitch unit => Sys2Proof.Machine.execFirmwareBankSwitch unit s
  | .attestation => Sys2Proof.Machine.execAttestation s
  | .managementTelemetry => Sys2Proof.Machine.execManagementTelemetry s
  | .coreRetire core spare => Sys2Proof.Machine.execCoreRetire core spare s
  | .coreFailure core => Sys2Proof.Machine.execCoreFailure core s
  | .illegalEncoding => Sys2Proof.Machine.execIllegalEncoding s
  | .fetchTrap => Sys2Proof.Machine.execFetchTrap s
  | .handleChangeApplied op => Sys2Proof.Machine.execHandleChangeApplied op s
  | .flitReplay boundary direction flit => Sys2Proof.Machine.execFlitReplay boundary direction flit s
  | .transportRetransmit port => Sys2Proof.Machine.execTransportRetransmit port s
  | .atomicopRequesterEnable enable => Sys2Proof.Machine.execAtomicopRequesterEnable enable s

end Sys2Proof.Machine
end

