-- ==== Sys2Proof/Machine/Retry.lean ====
section
/-! DEFINITION. The turn of a chosen split (R305, R312, R331), and what the machine does by itself after each step, without an issue
slot: splits that wait for room test it again (R152, R199, R326), splits whose registers have filled are ready (R43), timers that
have run out launch (R324, R328), and messages that waited for room are delivered (R321, R326). -/

namespace Sys2Proof.Machine

/-! ## The turn of a split -/

/-- The cause that an instruction already left behind has deferred to a split of a graph that goes on (R286). -/
def State.dueTrap (s : State) (id i : Nat) : Option Trap :=
  (s.ctxs.look id).bind fun c => if s.ending c then none else (c.splits.look i).bind fun sp => match sp.wait with
    | .due t => some t
    | _ => none

/-- The chosen split takes its turn: a supervisor entry that an engine asked for (R305), a cause deferred to it, or its next
instruction, once its region is restarted where that is due (R312). -/
def runSplit (s : State) (id i : Nat) : Host.Outcome State Fault Refusal :=
  if ((s.ctxs.look id).map fun c => s.entryFor c i).getD false then execEngineSupervisorEntry id s
  else
    match s.dueTrap id i with
    | some t => .next ((s.modSplit id i fun sp => { sp with wait := .ready }).takeTrap id i t none)
    | none =>
      let s := (s.wake id i).restartDue id i
      match s.fetched id i with
      | (s, .cancelled) => execCancelled id i s
      | (_, .trap) => execFetchTrap { s with cur := some (id, i) }
      | (s, .illegal) => execIllegalEncoding { s with cur := some (id, i) }
      | (s, .instr x) => exec x { s with cur := some (id, i) }

/-! ## After a step -/

/-- The state of a split. -/
def State.splitOf (s : State) (id i : Nat) : Option Split := (s.ctxs.look id).bind fun c => c.splits.look i

/-- A split that waits for room tests its instruction again, with what the test leaves behind; it is ready once the instruction
would not wait for room any more. -/
def State.retest (s : State) (id i : Nat) : State :=
  let ready := fun s : State => s.modSplit id i fun sp => { sp with wait := .ready }
  match s.fetched id i with
  | (t, .instr x) =>
    match exec x { t with cur := some (id, i) } with
    | .next t => if ((t.splitOf id i).map (·.wait)) == some .retry then { t with cur := s.cur } else ready s
    | _ => ready s
  | _ => ready s

/-- A waiting split whose wait is over is ready: one that waits for registers when they are full, one that waits for room when there
is room, one that is parked for a batch when it has completed (R43). -/
def State.settleSplit (s : State) (id i : Nat) : State :=
  match s.ctxs.look id with
  | none => s
  | some c =>
    match (c.splits.look i).map Split.wait with
    | some (.fill ks) => if ks.any c.isEmpty then s else s.modSplit id i fun sp => { sp with wait := .ready }
    | some .retry => s.retest id i
    | some (.batch n next) => if s.batchDone id n then s.batchReturn id i n next else s
    | _ => s

/-- The splits that wait for registers, for room or for a batch, as the machine stands. -/
def State.unsettled (s : State) : List (Nat × Nat) :=
  s.ctxs.flatMap fun e => (e.2.splits.filter fun p => match p.2.wait with
    | .fill _ => true
    | .retry => true
    | .batch _ _ => true
    | _ => false).map fun p => (e.1, p.1)

/-- Every waiting split whose wait is over is ready. -/
def State.settleWaits (s : State) : State := foldState s.unsettled s fun s e => s.settleSplit e.1 e.2

/-- The messages that wait in the receive buffers of the ports, and now have room, are delivered (R321, R326). -/
def State.drainPorts (s : State) : State :=
  foldState (s.ports.filter fun e => !e.2.held.isEmpty) s fun s e => s.drainHeld e.1

/-- The continuation records of a context's splits that are parked elsewhere than on a frame (R33). -/
def Ctx.parkedRecords (id : Nat) (c : Ctx) : List Record :=
  (c.splits.filter fun e => e.2.parked && (match e.2.wait with
    | .frame _ => false
    | _ => true)).map fun e => c.contRecord (.split id e.1)

/-- A split that has parked becomes a continuation record, and the record of one that is not parked any more goes straight to its
context (R33, R324). -/
def State.settleConts (s : State) : State :=
  let parked := s.ctxs.flatMap fun e => e.2.parkedRecords e.1
  { s with conts := s.conts.filter parked.contains ++ parked.filter fun r => !s.conts.contains r }

/-- A die in D1 one of whose contexts is ready, or waits for a slot, leaves D1 (R352). -/
def State.settleDies (s : State) : State :=
  let needed := s.sleeping.filter fun d => s.ctxs.any fun e => e.2.die == d && s.ctxReady e.2
  foldState needed s State.wakeDie

/-- The write-backs on their way from a core that has more than 2,048 requests outstanding are performed (R4, log entry 140). -/
def State.settleRequests (s : State) : State :=
  foldState (s.writes.map (·.core)).eraseDups s fun s core => if s.requestsFit core 0 then s else s.drainWrites core

/-- What follows a step. -/
def State.afterStep (s : State) : State :=
  let s := s.launchOverdue.launchOverdueKeys.launchFull.ageHeads.drainPorts.loseNotices.sendFlits
  s.settleWaits.settleConts.settleDies.settleRequests

end Sys2Proof.Machine
end

