-- ==== Sys2Proof/Machine/Step.lean ====
section
/-! DEFINITION. One step of the machine: the next turn of the agenda, and what follows by itself. An issue opportunity fetches,
decodes and runs an instruction of the split that the scheduler chooses; an event happens; or the clock counts. -/

namespace Sys2Proof.Machine

/-- The next turn of the agenda. With nothing on it a cycle passes. -/
def turn (s : State) : Host.Outcome State Fault Refusal :=
  match s.agenda with
  | [] => .next s.tick
  | t :: rest =>
    let s := { s with agenda := rest, cur := none }
    match t with
    | .tick => .next s.tick
    | .event i => exec i s
    | .issue core sched =>
      match s.choose core sched with
      | none => .next s
      | some (id, i) => runSplit (s.passOver core sched id i) id i

/-- One step. -/
def step (s : State) : Host.Outcome State Fault Refusal :=
  match turn s with
  | .next t => .next t.afterStep
  | r => r

/-- The state in which step fetches and runs exactly the instruction of a table word: the bits above `nbits`, up to the
longest instruction, are zero (log entry 14). -/
def State.withFetchWord (s : State) (nbits w : Nat) : State := s.place (bytesOfNat longest (w % 2 ^ nbits))

end Sys2Proof.Machine
end

