-- ==== Sys2Proof/Safety.lean ====
section
/-! DEFINITION. What a safe run is: no step stops with a fault or a refusal, and the state's stores keep their canonical
form. And, in the names of `Claims`, when an instruction reaches its own part and what it means that it completes. -/

namespace Sys2Proof.Machine

/-- Memory lists strictly rising addresses and no byte equal to what an unlisted one reads as. -/
def Memory.wf (m : List Host.Cell) : Bool := SMap.canonical m 0

/-- The next n steps answer a next state. -/
def State.safeFor : Nat → State → Prop
  | 0, _ => True
  | n + 1, s => ∃ s', step s = .next s' ∧ State.safeFor n s'

end Sys2Proof.Machine

namespace Sys2Proof.Claims

open Machine

/-- An instruction of a form that takes `bytes` bytes reaches its own part (R118, R97, R106, R105): a split issues it, its
registers exist for the group, it acts in some lane, and every register that it reads is full there, and every one that it writes in
the lanes that it writes, the acting ones if no others are named. -/
structure Reaches (f : Form) (bytes : Nat) (more : List Field) (s : State) (is : Issue) (written : LaneMask := is.acting) : Prop where
  issuer : s.issuer = some (is.id, is.i, is.c, is.sp)
  acting : is.acting = f.acting is.c is.sp
  next : is.next = is.sp.pc + BitVec.ofNat 64 bytes
  exist : (f.dst.existsFor is.c && f.src1.existsFor is.c && f.src2.existsFor is.c && f.src3.existsFor is.c) = true
  acts : is.acting ≠ 0
  full : ∀ e ∈ f.sources more is.acting is.sp.mask, ∀ k ∈ e.2, is.c.fills.look k = none
  free : f.dst.mode.writes = true → ∀ k ∈ f.dst.locs written, is.c.fills.look k ≠ some .empty

/-- The answer is one with which the split goes on: no trap, and no wait at the instruction. -/
def goesOn (r : Res) : Bool :=
  match r with
  | .trap _ _ => false
  | .wait _ _ => false
  | _ => true

/-- The instruction completes with an answer: `exec` answers the next state in which that answer has been carried out. -/
def Completes (i : Instr) (s : State) (is : Issue) (r : Res) : Prop :=
  goesOn r = true ∧ exec i s = .next (r.finish is.id is.i is.next)

/-- A scalar instruction of a form completes and writes its destination, once for the split (R129), with a value of its
sources (source n is `a n`); nothing else changes. -/
def ScalarResult (i : Instr) (form : Form) (bytes : Nat) (value : (Nat → DWord) → DWord) : Prop :=
  ∀ (s : State) (is : Issue), Reaches form bytes [] s is →
    Completes i s is (.done (s.setCtx is.id (form.writeDst is.c 0 (value fun n => form.arg is.c n 0))))

/-- A vector instruction of a form completes and writes its destination in every lane in which it acts with a value of the
sources of that lane, all of them read before any is written (R158); nothing else changes. -/
def LaneResult (i : Instr) (form : Form) (bytes : Nat) (value : (Nat → DWord) → DWord) : Prop :=
  ∀ (s : State) (is : Issue), Reaches form bytes [] s is →
    Completes i s is (.done (s.setCtx is.id
      (form.writeLanes is.c is.acting fun l => value fun n => form.arg is.c n l)))

/-- The results of an operation with flags in the acting lanes. -/
def results (is : Issue) (value : Nat → Nat × Flags) : List (Nat × Nat × Flags) :=
  (lanesOf is.acting).map fun l => (l, value l)

/-- The flags of the results together. -/
def raised (rs : List (Nat × Nat × Flags)) : Flags := rs.foldl (fun m r => m ||| r.2.2) 0

/-- A floating-point instruction of a form, none of whose flags is enabled in `%fpctl`, completes: every acting lane gets
its result and `%fpst` the flags of all of them (R82). -/
def FpResult (i : Instr) (form : Form) (bytes : Nat) (value : Ctx → Nat → Nat × Flags) : Prop :=
  ∀ (s : State) (is : Issue), Reaches form bytes [] s is →
    let rs := results is (value is.c)
    enabledFlags is.c.special.fpctl (raised rs) = 0 →
    Completes i s is (.done (s.setCtx is.id
      ((rs.foldl (fun c r => form.writeDst c r.1 (BitVec.ofNat 64 r.2.1)) is.c).postFlags (raised rs))))

/-- The same instruction, where a flag of its results is enabled, takes `FP_TRAP` and writes no destination: `%fpst` has the
flags, and the failing lanes are those that raised an enabled one (R82). -/
def FpTraps (i : Instr) (form : Form) (bytes : Nat) (value : Ctx → Nat → Nat × Flags) : Prop :=
  ∀ (s : State) (is : Issue), Reaches form bytes [] s is →
    let rs := results is (value is.c)
    enabledFlags is.c.special.fpctl (raised rs) ≠ 0 →
    exec i s = .next ((s.setCtx is.id (is.c.postFlags (raised rs))).takeTrap is.id is.i
      (fpTrapAt (trappingLanes is.c.special.fpctl rs)) none)

/-- A claim about every instruction whose result in a lane comes with flags (R163 to R170, R107): the instruction, its form, its
bytes, and the result and flags of a lane: sums, products, fused products, quotients and roots; the nearest integer and the
scaling; minima and maxima, comparisons, elementary functions and conversions. -/
def ForFloats (P : Instr → Form → Nat → (Ctx → Nat → Nat × Flags) → Prop) : Prop :=
  ((∀ f : XV,
     let fmt := f.h.ty.fmt
     let two := formV2 f f.h.ty.inF false srcs2 true
     let fused := formV3 f f.h.ty.inF false srcs3 true
     let quot := formV2 f f.h.ty.inFD false srcs2 true
     let one := fun types rounds => formV1 f types srcs1 rounds
     P (.fadd f) two f.h.bytes (fun c l => fmt.add (f.env c) (f.fp two c 1 l) (f.fp two c 2 l))
     ∧ P (.fsub f) two f.h.bytes (fun c l => fmt.sub (f.env c) (f.fp two c 1 l) (f.fp two c 2 l))
     ∧ P (.fmul f) two f.h.bytes (fun c l => fmt.mul (f.env c) (f.fp two c 1 l) (f.fp two c 2 l))
     ∧ P (.fma f) fused f.h.bytes (fun c l => fmt.fma (f.env c) (f.fp fused c 1 l) (f.fp fused c 2 l) (f.fp fused c 3 l))
     ∧ P (.fdiv f) quot f.h.bytes (fun c l => fmt.div (f.env c) (f.fp quot c 1 l) (f.fp quot c 2 l))
     ∧ P (.fsqrt f) (one f.h.ty.inFD true) f.h.bytes (fun c l => fmt.sqrt (f.env c) (f.fp (one f.h.ty.inFD true) c 1 l))
     ∧ P (.frcp f) (one f.h.ty.inFD false) f.h.bytes (fun c l => fmt.rcp (f.env c).ftz (f.fp (one f.h.ty.inFD false) c 1 l))
     ∧ P (.frsq f) (one f.h.ty.inFD false) f.h.bytes (fun c l => fmt.rsq (f.env c).ftz (f.fp (one f.h.ty.inFD false) c 1 l))
     ∧ P (.frint f) (one f.h.ty.inF true) f.h.bytes (fun c l => fmt.rint (f.env c) (f.fp (one f.h.ty.inF true) c 1 l))
     ∧ P (.fscal f) (formFscal f) f.h.bytes
       (fun c l => fmt.scal (f.env c) (f.fp (formFscal f) c 1 l) (Ty.s32.int ((formFscal f).arg c 2 l))))
   ∧ ∀ f : Base,
     let x := fun scalar => f.xv .f32 scalar
     let form := fun scalar => formBase2 f .f32 scalar
     let on := fun (scalar : Bool) (op : Fmt → FpEnv → Nat → Nat → Nat × Flags) (c : Ctx) (l : Nat) =>
       op Ty.f32.fmt ((x scalar).env c) ((x scalar).fp (form scalar) c 1 l) ((x scalar).fp (form scalar) c 2 l)
     let fused := fun (scalar : Bool) (c : Ctx) (l : Nat) =>
       let g := f.xvFma scalar
       let form := formBaseFma f scalar
       g.h.ty.fmt.fma (g.env c) (g.fp form c 1 l) (g.fp form c 2 l) (g.fp form c 3 l)
     P (.faddF32Base f) (form false) f.bytes (on false Fmt.add)
     ∧ P (.fsubF32Base f) (form false) f.bytes (on false Fmt.sub)
     ∧ P (.fmulF32Base f) (form false) f.bytes (on false Fmt.mul)
     ∧ P (.fmulF32VsBase f) (form true) f.bytes (on true Fmt.mul)
     ∧ P (.fmaF32Base f) (formBaseFma f false) f.bytes (fused false)
     ∧ P (.fmaF32VsBase f) (formBaseFma f true) f.bytes (fused true))
  ∧ ((∀ f : XV,
       let fmt := f.h.ty.fmt
       let two := formV2 f f.h.ty.inF false srcs2 false
       let half := formV1 f f.h.ty.inFH srcs1 false
       let comp := formVCmp f f.h.ty.inF srcs2 8
       P (.fmin f) two f.h.bytes (fun c l => fmt.minMax (f.env c).ftz false (f.fp two c 1 l) (f.fp two c 2 l))
       ∧ P (.fmax f) two f.h.bytes (fun c l => fmt.minMax (f.env c).ftz true (f.fp two c 1 l) (f.fp two c 2 l))
       ∧ P (.fcmp f) comp f.h.bytes (fun c l =>
         let r := fmt.compare (f.env c).ftz f.cond.toNat (f.fp comp c 1 l) (f.fp comp c 2 l)
         (if r.1 then 1 else 0, r.2))
       ∧ P (.fex2 f) half f.h.bytes (fun c l => fmt.ex2 (f.env c).ftz (f.fp half c 1 l))
       ∧ P (.flg2 f) half f.h.bytes (fun c l => fmt.lg2 (f.env c).ftz (f.fp half c 1 l))
       ∧ P (.fsin f) half f.h.bytes (fun c l => fmt.sin (f.env c).ftz (f.fp half c 1 l))
       ∧ P (.fcos f) half f.h.bytes (fun c l => fmt.cos (f.env c).ftz (f.fp half c 1 l))
       ∧ P (.ftanh f) half f.h.bytes (fun c l => fmt.tanh (f.env c).ftz (f.fp half c 1 l))
       ∧ P (.cvt f) (formCvt f) f.h.bytes (fun c l =>
         let r := convert f.src f.h.ty (f.env c) f.sat ((formCvt f).arg c 1 l).toNat
         ((Ty.inRegister f.h.ty r.1).toNat, r.2))
       ∧ P (.pack f) (formPack f) f.h.bytes (fun c l =>
         let a := convert f.src f.h.ty (f.env c) f.sat ((formPack f).arg c 1 l).toNat
         let b := convert f.src f.h.ty (f.env c) f.sat ((formPack f).arg c 2 l).toNat
         (if f.h.ty.width = 8 then ((formPack f).dstArg c l).toNat % 65536 * 65536 + b.1 * 256 + a.1 else b.1 * 65536 + a.1,
           a.2 ||| b.2))
       ∧ P (.unpack f) (formUnpack f) f.h.bytes (fun c l =>
         let e := ((formUnpack f).arg c 2 l).toNat % (32 / f.src.width)
         widen f.src f.h.ty (((formUnpack f).arg c 1 l).toNat / 2 ^ (e * f.src.width))))
     ∧ ∀ f : Base,
       let x := f.xv .f32 false
       let form := formBase2 f .f32 false
       P (.fminF32Base f) form f.bytes
         (fun c l => Ty.f32.fmt.minMax (x.env c).ftz false (x.fp form c 1 l) (x.fp form c 2 l))
       ∧ P (.fmaxF32Base f) form f.bytes
         (fun c l => Ty.f32.fmt.minMax (x.env c).ftz true (x.fp form c 1 l) (x.fp form c 2 l)))

/-! ## Correct rounding (R76, R77, R80, R81) -/

/-- The rational of a sign, a magnitude and an exponent. -/
def rational (neg : Bool) (mag : Nat) (exp : Int) : ℚ := (if neg then -1 else 1) * mag * (2 : ℚ) ^ exp

/-- The rational that a value is, if it is one. -/
def FVal.rational (v : FVal) : Option ℚ :=
  match v with
  | .fin n m e => some (Claims.rational n m e)
  | _ => none

/-- The rational that a pattern of a format stands for, if it is finite. -/
def valueOf (f : Fmt) (p : Nat) : Option ℚ := FVal.rational (f.value false p)

/-- An exact magnitude stands for a nonzero rational: it is equal to it, or, with `more`, close enough below it that a format of so
many fraction bits tells no difference. -/
def Stands (fbits : Nat) (x : Exact) (v : ℚ) : Prop :=
  x.mag ≠ 0 ∧ v ≠ 0 ∧ (x.neg = true ↔ v < 0)
  ∧ (x.more = false → |v| = x.mag * (2 : ℚ) ^ x.exp)
  ∧ (x.more = true → fbits + 2 ≤ bitLength x.mag ∧ x.mag * (2 : ℚ) ^ x.exp < |v| ∧ |v| < (x.mag + 1) * (2 : ℚ) ^ x.exp)

/-- y, of pattern r, is what v rounds to among the finite values of a format (R76). -/
def Nearest (f : Fmt) (mode : Rnd) (v y : ℚ) (r : Nat) : Prop :=
  ∀ p z, valueOf f p = some z →
    match mode with
    | .rtz => |y| ≤ |v| ∧ (|z| ≤ |v| → |z| ≤ |y|)
    | .rdn => y ≤ v ∧ (z ≤ v → z ≤ y)
    | .rup => v ≤ y ∧ (v ≤ z → y ≤ z)
    | .rna => |y - v| ≤ |z - v| ∧ (|y - v| = |z - v| → |z| ≤ |y|)
    | _ => |y - v| ≤ |z - v| ∧ (|y - v| = |z - v| → z ≠ y → r % 2 = 0)

/-- A magnitude between two neighbouring values, of which the lower is odd or even, rounds to the higher (R76). -/
def RoundsUp (mode : Rnd) (neg odd : Bool) (low high a : ℚ) : Prop :=
  match mode with
  | .rtz => False
  | .rdn => neg = true
  | .rup => neg = false
  | .rna => low + high ≤ 2 * a
  | _ => low + high < 2 * a ∨ (low + high = 2 * a ∧ odd = true)

/-- A nonzero value, rounded with an unbounded exponent, lies below the smallest normal (R80, R81). -/
def Tiny (f : Fmt) (mode : Rnd) (v : ℚ) : Prop :=
  let least := (2 : ℚ) ^ f.emin
  let below := least - (2 : ℚ) ^ (f.emin - f.fbits - 1)
  |v| < least ∧ ¬ (below < |v| ∧ RoundsUp mode (decide (v < 0)) true below least |v|)

/-- A value, rounded with an unbounded exponent, lies above the largest finite one (R77). -/
def Over (f : Fmt) (mode : Rnd) (v : ℚ) : Prop :=
  let top : Int := (f.maxPattern / 2 ^ f.fbits : Nat) - (f.bias : Int) - f.fbits
  let most := (2 ^ f.fbits + f.maxPattern % 2 ^ f.fbits : Nat) * (2 : ℚ) ^ top
  let next := most + (2 : ℚ) ^ top
  next ≤ |v| ∨ (most < |v| ∧ RoundsUp mode (decide (v < 0)) (f.maxPattern % 2 == 1) most next |v|)

/-- A result with its flags is the nonzero v rounded once: overflow gives the result of R77's table with `OF` and `NX`; a tiny value
under `FTZ` gives a zero with `UF` and `NX`; any other gives the value that the mode chooses, of v's sign, with `NX` where it differs
from v and `UF` where v is tiny besides (R76, R77, R80, R81). -/
def Rounded (f : Fmt) (env : FpEnv) (v : ℚ) (r : Nat × Flags) : Prop :=
  let neg := decide (v < 0)
  (Over f env.mode v → r = (f.overflow neg env.mode, flagOF ||| flagNX))
  ∧ (¬ Over f env.mode v → env.ftz = true → Tiny f env.mode v → r = (f.signed neg 0, flagUF ||| flagNX))
  ∧ (¬ Over f env.mode v → ¬ (env.ftz = true ∧ Tiny f env.mode v) → ∃ y,
    valueOf f r.1 = some y ∧ (r.1 / f.signBit % 2 = 1 ↔ v < 0) ∧ Nearest f env.mode v y r.1
    ∧ (y = v → r.2 = 0) ∧ (y ≠ v → Tiny f env.mode v → r.2 = flagUF ||| flagNX)
    ∧ (y ≠ v → ¬ Tiny f env.mode v → r.2 = flagNX))

/-- The low w bits of a number, as a 64-bit value. -/
def low (w n : Nat) : DWord := BitVec.ofNat 64 (n % 2 ^ w)

/-- The instruction asks for an operation and waits at its address until that has been performed or refused. -/
def Asks (i : Instr) (s : State) (is : Issue) (t : State) (w : Wait) : Prop :=
  exec i s = .next ((Res.wait t w).finish is.id is.i is.next)

/-- The instruction takes a cause precisely, in the state t, which holds what its translations set (R57). -/
def Traps (i : Instr) (s : State) (is : Issue) (t : State) (u : Trap) : Prop :=
  exec i s = .next (t.takeTrap is.id is.i u none)

/-- A load of a memory operand (R187 to R189): where every lane passes its checks, the split's reductions are performed (log
entry 50); a global one, if its core has room among its outstanding requests (R4), empties its registers and starts (the lanes
that hit read, the others' lines are requested), one of the own or pair window has its values at once, with the packets of the lanes
that stand at another die (log entry 139), and one of the cluster window waits for its ports. -/
def LoadCompletes (i : Instr) (f : XM) (form : Form) (bytes : Nat) (scalar : Bool) : Prop :=
  ∀ (s : State) (is : Issue) (h : Nat) (t : State) (lanes : List LaneAt), Reaches form bytes [] s is →
    f.badWindow is = false → f.handle is.c = some h → f.access is 0 false scalar s = (t, .ok lanes) →
    let v := t.settleReds is.id
    let u := v.modCtx is.id fun c => c.emptyLocs (form.dst.locs is.acting)
    let r := readScratchLanes v scalar f.h.dst.toNat f.h.ty lanes
    let room := v.outstanding is.c.core + (lanesLines lanes).length ≤ Config.requestRoom
    (f.isGlobal = true → room → Completes i s is
      (.done ((u.addOp (is.op u (.load scalar f.h.dst.toNat f.h.ty lanes h []))).startLoad u.nextId)))
    ∧ (f.isGlobal = true → ¬ room → Asks i s is v .retry)
    ∧ (f.isGlobal = false → f.space.toNat ≠ 3 → Completes i s is (.done ((r.1.noteScratch is.c.core lanes fun a =>
      (r.2.filter fun w => scalar || locLane w.1 == a.lane).map fun w => w.2.1).modCtx is.id fun c => c.deliverWords r.2)))
    ∧ (f.isGlobal = false → f.space.toNat = 3 → Asks i s is
      (v.addOp (is.op v (.window 0 scalar f.h.dst.toNat f.h.ty .add .rne 0 (lanes.map plainLane) false))) (.op v.nextId))

/-- A store of a memory operand (R188, R189): the split's loads have read and its reductions are performed (log entry 50), and
lane by lane the data are stored, in the core's L1 or at the scratch port, over the Hinge where that stands at another die (log entry
139); one of the cluster window waits for its ports. -/
def StoreCompletes (i : Instr) (f : XM) (form : Form) (bytes : Nat) (scalar : Bool) : Prop :=
  ∀ (s : State) (is : Issue) (h : Nat) (t : State) (lanes : List LaneAt), Reaches form bytes [] s is →
    f.badWindow is = false → f.handle is.c = some h → f.access is 1 false scalar s = (t, .ok lanes) →
    let u := (t.settleReads is.id).modCtx is.id fun c => { c with lastStore := t.clock + 1 }
    let data := storeData form f.h.ty is.c
    let held := lanes.map fun a => { plainLane a with operand := BitVec.ofNat 64 (data a.lane) }
    (f.space.toNat ≠ 3 → Completes i s is
      (.done ((foldState lanes u fun s a =>
        s.storeLane is.c.core is.id h f.h.ty.bytes a (data a.lane)).noteScratch is.c.core lanes fun _ => [])))
    ∧ (f.space.toNat = 3 → Asks i s is
      (u.addOp (is.op u (.window 1 scalar f.h.dst.toNat f.h.ty .add .rne 0 held false))) (.op u.nextId))

/-- An atomic of a memory operand (R191 to R193): where every lane passes its checks, the split's earlier loads and reductions
are performed (log entry 50) and it commits, if its core has room among its outstanding requests (R4, log entry 140); one with a
result leaves the split waiting for it, and one of the cluster window waits for its ports before it commits. -/
def AtomicCompletes (i : Instr) (f : XM) (form : Form) (op : AtomicOp) (ret : Bool) : Prop :=
  ∀ (s : State) (is : Issue) (t : State) (lanes : List LaneAt), Reaches form f.h.bytes [] s is →
    f.badWindow is = false → f.access is 2 (pcieAtomic op f.h.ty) false s = (t, .ok lanes) →
    let u := t.settleReads is.id
    let held := lanes.map (atomicOperand form op f.h.ty is.c)
    let v := u.countWrites is.id lanes
    let fpctl := is.c.special.fpctl
    let asked := v.addOp (is.op v
      (.atomic op f.h.ty f.h.rnd fpctl held (if ret then some f.h.dst.toNat else none) 0 false))
    let room := u.outstanding is.c.core + (lanes.filterMap LaneAt.line).length ≤ Config.requestRoom
    (f.space.toNat ≠ 3 → ¬ room → Asks i s is u .retry)
    ∧ (f.space.toNat ≠ 3 → room → Completes i s is (if ret then .commitWait asked (.op v.nextId) else .commit asked))
    ∧ (f.space.toNat = 3 → Asks i s is
      (u.addOp (is.op u (.window 2 false f.h.dst.toNat f.h.ty op f.h.rnd fpctl held ret))) (.op u.nextId))

/-- A copy that has passed its checks has started (R199, R201, R227): its group's lines are written back where it reads or writes
global memory, the clean copies of a global destination are dropped, its tile is empty, and its rows and range-lock entries stand.
One of no bytes leaves nothing in flight. -/
def copyStarted (is : Issue) (s : State) (p : CopyPlan) : State :=
  let rows := p.rows.filter fun r : Row => 0 < r.bytes
  let s := if rows.any fun r : Row => r.src.isGlobal || r.dst.isGlobal then s.writeBack is.id else s.settleReads is.id
  let s := foldState rows s fun s (r : Row) => match r.dst with
    | .global va => s.dropGlobal is.c.core (s.asroot is.c.graph) (r.bytes / 65536 + 2) va r.bytes
    | _ => s
  if rows.isEmpty then s
  else
    let s := match p.tile with
      | some k => s.modCtx is.id fun c => c.emptyLocs [locT k]
      | none => s
    (s.holdRanges (p.ranges.filter fun r : Range => r.lo < r.hi)).addOp
      (is.op s (.copy rows [] p.binding p.gather p.tile))

/-- A copy that has made its checks in a state t, with a barrier operand: once the lanes' earlier accesses are performed (R215) it
binds its phase, which refused is its last check (R201), and starts and commits, or waits where its core's table has too few entries,
or another engine's entry covers an interval of its own (R199); it then makes its checks again (log entry 145). -/
def CopyStarts (i : Instr) (s : State) (is : Issue) (t : State) (b : BarArg) (plan : Binding → CopyPlan) : Prop :=
  let u := t.settleReads is.id
  (∀ x, u.bindPhase b = .error x → Traps i s is u x)
  ∧ ∀ p, u.bindPhase b = .ok p →
    let blocked := u.rangesBlocked is.c.core ((plan p).ranges.filter fun r : Range => r.lo < r.hi)
      || (plan p).probes.any fun r => u.rangeMet is.c.core r
    (blocked = false → Completes i s is (.commit (copyStarted is u (plan p))))
    ∧ (blocked = true → Asks i s is u .retry)

/-- A bulk copy (R200, R201): of n bytes, n and both addresses multiples of 16, between two sides that exist and do not
overlap. -/
def BulkCopies (i : Instr) (f : XA) (dir : Nat) (dstUse srcUse : Use) (srcKind dstKind : Nat) : Prop :=
  ∀ (s : State) (is : Issue), let form := formCpa f dir dstUse srcUse
    Reaches form f.h.bytes [] s is →
    let n := (form.arg is.c 2 0).toNat
    let source := form.arg is.c 1 0
    let target := form.dstArg is.c 0
    n ≤ 2 ^ 24 → n % 16 = 0 → source.toNat % 16 = 0 → target.toNat % 16 = 0 →
    ∀ b src dst, s.barArg is.c ((form.arg is.c 3 0).setWidth 32) = .ok b →
      s.copySide is.c srcKind source n = .ok src → s.copySide is.c dstKind target n = .ok dst →
      (0 < n → sidesOverlap src dst n = false) → (srcKind = 0 → spanCanonical source n = true) →
      (dstKind = 0 → spanCanonical target n = true) →
      CopyStarts i s is s b fun p =>
        { rows := [⟨src, dst, n⟩], ranges := s.sideRange is src n false ++ s.sideRange is dst n true, binding := p
          gather := false, tile := none, probes := sideProbe is src n false ++ sideProbe is dst n true }

/-- A shaped copy (R202, R203) whose shape stands, whose sides exist, and whose tile or block is free. A scratch offset that does not
fit its field comes before the total (R117, R118, log entry 59), and the wait for a tile or block before the binding (log entry
146). -/
def ShapedCopies (i : Instr) (f : Shaped) (base : Use)
    (near : Shape → Issue → State → Except Trap ((Nat → Side) × List Range))
    (far : Shape → Issue → State → DWord → Except Trap ((Nat → Side) × List Range)) (into : Bool)
    (busy : Shape → Issue → State → Bool) (late : Shape → Issue → Option Trap) (tile : Shape → Option Nat) : Prop :=
  ∀ (s : State) (is : Issue), Reaches (f.form base) 20 f.registers s is →
    let x := (f.form base).arg is.c 1 0
    ∀ d, f.shape is.c = some d →
    (2 ^ 18 ≤ d.soff → Traps i s is s (boundsTrap d.soff))
    ∧ (d.soff < 2 ^ 18 → 2 ^ 24 < d.row * d.dim1 → Traps i s is s (Trap.of .illegal))
    ∧ ∀ b nearAt nearRanges farAt farRanges, d.soff < 2 ^ 18 → d.row * d.dim1 ≤ 2 ^ 24 → d.misaligned x.toNat = false →
      s.barArg is.c (((f.form base).arg is.c 2 0).setWidth 32) = .ok b →
      near d is s = .ok (nearAt, nearRanges) → far d is s x = .ok (farAt, farRanges) →
      (busy d is s = true → Asks i s is s .retry)
      ∧ (busy d is s = false → (∀ u, late d is = some u → Traps i s is s u)
        ∧ (late d is = none → CopyStarts i s is s b fun p =>
          { rows := d.rows.map fun r =>
              if into then { src := farAt r, dst := nearAt r, bytes := d.row }
              else { src := nearAt r, dst := farAt r, bytes := d.row }
            ranges := nearRanges ++ farRanges, binding := p, gather := false, tile := tile d }))

/-- A vocabulary operation has started (R179): its group's lines are written back where its row is in global memory, its
destinations are empty, `%vprog` shows it and its range-lock entries stand. -/
def vocabStarted (is : Issue) (s : State) (v : Vocab) (ranges : List Range) : State :=
  let s := if v.captured.isNone && v.scratchRow.isNone then s.writeBack is.id else s.settleReads is.id
  let s := s.modCtx is.id fun c => (c.emptyLocs v.dests).setVprog v.progress
  (s.holdRanges ranges).addOp (is.op s (.vocab v))

/-- A vocabulary instruction of a kind that its unit, free of another operation of the group, serves: the row stands in lanes
that the split holds, in own scratch or in global memory (R178, R179). -/
def VocabStarts (i : Instr) (f : XL) (form : Form) (kind k : Nat) : Prop :=
  ∀ (s : State) (is : Issue), Reaches form f.h.bytes [] s is (vocabLanes f kind k is) →
    (kind = 1 → k ≠ 0 ∧ k ≤ is.c.node.width ∧ laneSet (List.range k) &&& ~~~is.sp.mask = 0) →
    let n := (is.c.s f.h.src2.toNat).toNat
    let base := form.arg is.c 1 0
    let start := Vocab.start kind f.h.dst.toNat n k (is.c.s (f.h.src2.toNat + 1))
    let begun := fun (v : Vocab) (ranges : List Range) => s.rangesBlocked is.c.core ranges = false →
      Completes i s is (.commit (vocabStarted is s v ranges))
    (s.hasVocab = false → Traps i s is s (Trap.of .unitAbsent))
    ∧ (s.hasVocab = true → s.vocabBusy is.id = false → 0 < n → n ≤ 2 ^ 24 →
      (f.row = 1 → n ≤ is.c.node.width → laneSet (List.range n) &&& ~~~is.sp.mask = 0 →
        begun (start 0 (some (tabulate n fun l => is.c.vreg f.h.src1.toNat l)) none) [])
      ∧ (f.row = 2 → base.toNat % 4 = 0 → ∀ off, s.ownScratch is.c base.toNat (4 * n) = .ok off →
        begun (start 0 none (some (s.ownCore is.c, off))) [scratchRange is (s.ownCore is.c) off (4 * n) false])
      ∧ (f.row ≠ 1 → f.row ≠ 2 → base.toNat % 4 = 0 → canonical base = true →
        begun (start base none none) [s.globalRange is base.toNat (4 * n) false]))

/-- A walker operation of a kind and pattern, with n registers in each lane (R276, R278): a slot that binds no tree takes
`CONTROL_BLOCK`; otherwise its destinations are empty, and the split goes on or, where it names `APRED`, waits. -/
def WalkStarts (i : Instr) (f : XT) (form : Form) (kind pat n : Nat) : Prop :=
  ∀ (s : State) (is : Issue), Reaches form f.h.bytes [] s is →
    (is.c.slots.look f.slot = none → Traps i s is s (Trap.of .controlBlock))
    ∧ ∀ t, is.c.slots.look f.slot = some t →
      let u := (s.writeBack is.id).modCtx is.id fun c => c.emptyLocs (form.dst.locs is.acting)
      let w : Walk :=
        { kind := kind, pat := pat, dst := f.h.dst.toNat, apred := f.apred, tree := t, fpctl := is.c.special.fpctl
          lanes := coordLanes f is n }
      let v := u.addOp (is.op u (.walk w))
      (f.apred = 0 → Completes i s is (.done v)) ∧ (f.apred ≠ 0 → Completes i s is (.doneWait v (.op u.nextId)))

/-! ## What comes before an instruction's own part (R97, R106, R118, R304) -/

/-- The form of an instruction, with the further registers of a shaped copy (R115); none for an event. `tcb` has its tile checked
with its own part (R245). -/
def partsOf (i : Instr) : Option (Form × List Field) :=
  match i with
  | .cpasGs f | .cpasSg f | .cpasGt f | .cpasAg f => some (f.form .q, f.registers)
  | .cpasSt f => some (f.form .s1, f.registers)
  | .tcb f => some ((formTcb f).withDst .t .none, [])
  | i => i.form.map fun form => (form, [])

/-- The sources whose registers an instruction reads in this state: `tcb` reads the first sixteen lanes (R245), and a ganged matrix
operation takes its B tile from its leader (R252). -/
def sourcesOf (i : Instr) (form : Form) (more : List Field) (s : State) (is : Issue) : List (Bool × List Nat) :=
  match i with
  | .tcb f => [(kindBit f.h.empty 1, locsOf false f.h.src1.toNat 1 0xFFFF#64)]
  | .mma f | .mmaBs f | .mmaVs f =>
    let own := !f.gang || ((s.holderOf f is.id is.c).map Prod.fst) == some is.id
    (if own then form else form.withSrc2 .t .none).sources [] is.acting is.sp.mask
  | _ => form.sources more is.acting is.sp.mask

/-- An instruction of the tiles and the matrix engine (R243). -/
def onTiles : Instr → Bool
  | .tset _ | .tget _ | .tcb _ | .tld _ | .tst _ | .tzero _ | .gang _ | .mma _ | .mmaBs _ | .mmaVs _ | .mmas _ | .mbatch _
  | .mwait _ | .accld _ | .accst _ | .acccvt _ | .acczero _ => true
  | _ => false

/-- The group or the node may not issue the instruction at all: checks of its own come before its lanes and sources. -/
def checksItself (i : Instr) : Bool :=
  onTiles i || match i with
  | .fnew _ | .fnewP _ | .rfePc _ | .rfeNext _ | .rfeRegion _ | .vtopk _ | .vsoftmax _ | .vsample _ | .ld _ | .st _ | .sld _
  | .sst _ | .aadd _ | .amin _ | .amax _ | .aand _ | .aor _ | .axor _ | .aswap _ | .acas _ | .ainc _ | .afadd _ | .red _
  | .swait _ | .dtrav _ => true
  | _ => false

/-- A split issues an instruction of a form. -/
structure AtIssue (form : Form) (s : State) (is : Issue) : Prop where
  issuer : s.issuer = some (is.id, is.i, is.c, is.sp)
  acting : is.acting = form.acting is.c is.sp

/-- The registers that a form names exist for the group (R14). -/
def regsExist (form : Form) (c : Ctx) : Bool :=
  form.dst.existsFor c && form.src1.existsFor c && form.src2.existsFor c && form.src3.existsFor c

/-- The lanes of its destination in which an instruction that acts writes (R105, R182, R183). -/
def writtenLanes (i : Instr) (is : Issue) : LaneMask :=
  match i with
  | .vtopk f => vocabLanes f 1 (bitsOf f.imm 6 0) is
  | .vsoftmax f => vocabLanes f 2 0 is
  | .vsample f => vocabLanes f 3 0 is
  | _ => is.acting

/-- What stands before an instruction's own part once its registers exist: without an acting lane it goes on and nothing changes
(R97); its first source with a poison-empty location takes the cause that the location carries, in the lanes that hold it in that
register (R304); else its first source with an empty location and a set `EMPTYTRAP` bit takes `EMPTY_READ` there, and else it
waits until the empty locations of its sources are full (R106), and then until those of its destination in the lanes that it writes
are (R105). -/
def SourcesFirst (i : Instr) (form : Form) (more : List Field) (s : State) (is : Issue) : Prop :=
  let sources := sourcesOf i form more s is
  let poisoned := fun (e : Bool × List Nat) => e.2.any is.c.isPoisoned
  let empties := sources.flatMap fun e => e.2.filter is.c.isEmpty
  let held := if form.dst.mode.writes then (form.dst.locs (writtenLanes i is)).filter is.c.isEmpty else []
  (is.acting = 0 → ∀ ws, encode i = some ws → is.next = is.sp.pc + BitVec.ofNat 64 (4 * ws.length) →
    Completes i s is (.done s))
  ∧ (is.acting ≠ 0 →
    (∀ before e after first k rest, sources = before ++ e :: after → (∀ b ∈ before, poisoned b = false) →
      e.2 = first ++ k :: rest → (∀ j ∈ first, is.c.isPoisoned j = false) → is.c.isPoisoned k = true →
      Traps i s is s (Trap.atLocs (is.c.carriedAt k).cause (is.c.carriedAt k).detail true
        (e.2.filter fun j => is.c.isPoisoned j && regOfLoc j == regOfLoc k)))
    ∧ ((∀ e ∈ sources, poisoned e = false) →
      (∀ before e after, sources = before ++ e :: after →
        (∀ b ∈ before, b.1 = false ∨ b.2.filter is.c.isEmpty = []) → e.1 = true → e.2.filter is.c.isEmpty ≠ [] →
        Traps i s is s (Trap.atLocs .emptyRead 0 false (e.2.filter is.c.isEmpty)))
      ∧ ((∀ e ∈ sources, e.1 = false ∨ e.2.filter is.c.isEmpty = []) →
        (empties ≠ [] → Asks i s is s (.fill empties))
        ∧ (empties = [] → held ≠ [] → Asks i s is s (.fill held)))))

/-! ## What stays -/

/-- An instruction of which one register is the whole result, of integer or bit arithmetic, selection or lanes. -/
def writesOnlyBits : Instr → Bool
  | .addB32Base _ | .subB32Base _ | .mulB32Base _ | .andB32Base _ | .orB32Base _ | .xorB32Base _ | .shlB32Base _
  | .shrB32Base _ | .sraB32Base _ | .minS32Base _ | .maxS32Base _ | .movB32Base _ | .addB32VsBase _ | .saddB32Base _
  | .ssubB32Base _ | .smulB32Base _ | .sandB32Base _ | .sorB32Base _ | .sxorB32Base _ | .sshlB32Base _ | .sshrB32Base _
  | .smovB32Base _ | .sadd _ | .ssub _ | .smul _ | .smulh _ | .smad _ | .sdiv _ | .srem _ | .smin _ | .smax _ | .sand _
  | .sor _ | .sxor _ | .sshl _ | .sshr _ | .ssra _ | .sbfx _ | .sbfi _ | .spopc _ | .sclz _ | .sctz _ | .scmp _ | .ssel _
  | .smov _ | .sli _ | .kop _ | .rdsr _ | .add _ | .sub _ | .mul _ | .mulh _ | .mad _ | .min _ | .max _ | .abs _ | .and _
  | .or _ | .xor _ | .shl _ | .shr _ | .sra _ | .bfx _ | .bfi _ | .popc _ | .clz _ | .brev _ | .cmp _ | .sel _ | .mov _
  | .fclass _ | .shflIdx _ | .shflUp _ | .shflDown _ | .shflXor _ | .voteBallot _ | .voteAny _ | .voteAll _
  | .voteUni _ => true
  | _ => false

/-- What an instruction of one destination leaves: everything outside the issuing context; and there every register, lane and
predicate but the destination's, every special register but the counters of R140 and the flags, every other split, and of the
issuing split all but its program counter. -/
structure KeepsTheRest (form : Form) (is : Issue) (s t : State) : Prop where
  rest : t = { s with ctxs := t.ctxs }
  memory : ∀ a, t.byteAt a = s.byteAt a
  others : ∀ j, j ≠ is.id → t.ctxs.look j = s.ctxs.look j
  own : ∃ c, t.ctxs.look is.id = some c
    ∧ (∀ n l, n < 256 → l < 64 → locV n l ∉ form.dst.locs is.acting →
      c.vreg n l = is.c.vreg n l ∧ c.fills.look (locV n l) = is.c.fills.look (locV n l))
    ∧ (∀ n, n < 64 → locS n ∉ form.dst.locs is.acting →
      c.s n = is.c.s n ∧ c.fills.look (locS n) = is.c.fills.look (locS n))
    ∧ (∀ n, form.dst.use ≠ .pDst ∨ n ≠ form.dst.num → c.pred n = is.c.pred n)
    ∧ (∀ n l, is.acting.getLsbD l = false → (c.pred n).getLsbD l = (is.c.pred n).getLsbD l)
    ∧ (∀ n, form.dst.use ≠ .kDst ∨ n ≠ form.dst.num → c.kpred n = is.c.kpred n)
    ∧ (∃ pc, c.splits.look is.i = some { is.sp with pc := pc }) ∧ (∀ j, j ≠ is.i → c.splits.look j = is.c.splits.look j)
    ∧ (∃ fl : Flags, c.special = { is.c.special with
      perf := c.special.perf, fpst := is.c.special.fpst ||| fl.setWidth 32 })
    ∧ c = { is.c with
      v := c.v, sreg := c.sreg, p := c.p, k := c.k, fills := c.fills, special := c.special, splits := c.splits }

/-- A floating-point instruction of a form, none of whose raised flags is enabled, changes its destination and the flags alone. -/
def FpKeeps (i : Instr) (form : Form) (bytes : Nat) (value : Ctx → Nat → Nat × Flags) : Prop :=
  ∀ (s : State) (is : Issue), Reaches form bytes [] s is →
    enabledFlags is.c.special.fpctl (raised (results is (value is.c))) = 0 →
    ∃ t, exec i s = .next t ∧ KeepsTheRest form is s t

/-- A byte of memory as a core reads it (R65, R188): its L1's copy where it has one, and otherwise its home's byte with the
core's own writes on their way before it. -/
def coreByte (s : State) (core pa : Nat) : Byte :=
  let line := (s.core core).l1.at Line.none (pa / 128)
  if line.valid.getLsbD (pa % 128) then line.data.at 0 (pa % 128) else s.missByte core pa

/-- A byte of a core's scratch. -/
def scratchByte (s : State) (core off : Nat) : Byte := (s.core core).scratch.at 0 off

/-- The address is one of a page-table entry that a store of these lanes marks dirty (R57): an entry through which a lane was
translated, and which the core's TLB does not show as marked yet. -/
def marksDirty (s : State) (core : Nat) (lanes : List LaneAt) (a : Nat) : Prop :=
  ∃ l ∈ lanes, ∃ e, l.tlb = some e ∧ bitOf (s.heldEntry core e).leaf 7 = false ∧ e.home ≤ a ∧ a < e.home + 8

/-- No load and no reduction of a context is in flight. -/
def noneInFlight (s : State) (id : Nat) : Prop :=
  ∀ e ∈ s.ops, e.2.ctx = id → (∀ sc reg ty ls hd got, e.2.kind ≠ .load sc reg ty ls hd got)
    ∧ ∀ op ty rnd fpctl ls fl, e.2.kind ≠ .atomic op ty rnd fpctl ls none fl false

/-- A store outside the cluster window changes the bytes at the places of its lanes and no others: `lanes` are the places that the
instruction's own checks answer, in a state t, and v is that state once the split's loads in flight have read and its reductions are
performed (log entry 50), which is t where there are none. Memory changes only where a page-table entry is marked dirty (R57), the
line of which no fill is open. The bytes of a lane read as its data where no later lane stores to them, in the core that stored to
memory. Other bytes read as before; where the core's L1 is full, one that the core has not written may read as memory holds it, its
line having been evicted (log entry 129). A released waiting split may drop clean copies of its core (R216, R332), and one that a
store to a barrier's bytes releases too (R209). That the scalar pipe stores to scratch is the model's reading (log entry 132). -/
def StoresOnly (i : Instr) (f : XM) (form : Form) (bytes : Nat) (scalar : Bool) : Prop :=
  ∀ (s : State) (is : Issue) (h : Nat) (t : State) (lanes : List LaneAt), Reaches form bytes [] s is →
    f.badWindow is = false → f.handle is.c = some h → f.space.toNat ≠ 3 → f.access is 1 false scalar s = (t, .ok lanes) →
    let v := t.settleReads is.id
    let dirty := marksDirty v is.c.core lanes
    (∀ m ∈ v.merges, ∀ a, a / 128 = m.line → ¬ dirty a) →
    let n := f.h.ty.bytes
    let byte := fun (a : LaneAt) (j : Nat) => BitVec.ofNat 8 (storeData form f.h.ty is.c a.lane / 256 ^ j)
    (noneInFlight t is.id → v = t)
    ∧ ∃ u, exec i s = .next u
      ∧ (∀ a, ¬ dirty a → u.byteAt a = v.byteAt a)
      ∧ (∀ core a, ¬ dirty a →
        (∀ l ∈ lanes, ∀ q, l.place = .mem q → core ≠ is.c.core ∨ a < q ∨ q + n ≤ a) →
        (∀ w ∈ v.watch, w.edge = true → ∀ c, v.ctxs.look w.ctx = some c → c.core ≠ core) →
        (∀ e ∈ v.ctxs, e.2.core = core → ∀ p ∈ e.2.splits, ∀ k off ph, p.2.wait ≠ .phase k off ph) →
        let line := (v.core core).l1.at Line.none (a / 128)
        coreByte u core a = coreByte v core a
          ∨ (1024 < (v.core core).l1.length + lanes.length ∧ core = is.c.core
            ∧ (line.valid.getLsbD (a % 128) && line.marked.getLsbD (a % 128)) = false
            ∧ (line.marked.getLsbD (a % 128) = false → coreByte u core a = v.missByte core a)))
      ∧ (∀ core o, (∀ l ∈ lanes, ∀ q, l.place = .scratch core q → o < q ∨ q + n ≤ o) →
        scratchByte u core o = scratchByte v core o)
      ∧ (∀ before l after, lanes = before ++ l :: after → ∀ j, j < n →
        (∀ q, l.place = .mem q → q % 128 + n ≤ 128 →
          (∀ m ∈ after, ∀ r, m.place = .mem r → r + n ≤ q ∨ q + n ≤ r) → coreByte u is.c.core (q + j) = byte l j)
        ∧ ∀ core q, l.place = .scratch core q →
          (∀ m ∈ after, ∀ r, m.place = .scratch core r → r + n ≤ q ∨ q + n ≤ r) → scratchByte u core (q + j) = byte l j)
      ∧ ∀ d, v.ctxs.look is.id = some d → ∃ c, u.ctxs.look is.id = some c
        ∧ c = { d with lastStore := c.lastStore, special := { d.special with perf := c.special.perf }, splits := c.splits }

/-! ## Atomics (R191, R192) -/

/-- The state in which a lane of an atomic is performed: the core's own stores to the sector have come before (R225), and a page that is
written for the first time through its TLB entry has been marked (R57). -/
def atomicBefore (s : State) (o : Op) (a : AtomicLane) : State :=
  let u := match a.at_.place with
    | .mem pa => s.settleSector o.core (some o.ctx) pa
    | .scratch _ _ => s
  match a.at_.tlb with
  | some e => u.touchEntry o.core e
  | none => u

/-- What stands at the lane's place then. -/
def atomicOld (s : State) (o : Op) (ty : Ty) (a : AtomicLane) : Nat := (atomicBefore s o a).readPlace a.at_.place (ty.width / 8)

/-- The sector of the lane can be read when its turn comes. -/
def atomicReads (s : State) (o : Op) (a : AtomicLane) : Prop :=
  match a.at_.place with
  | .mem pa => (s.settleSector o.core (some o.ctx) pa).poisonedAt pa = false
  | .scratch core off => (s.core core).scratchPoison.contains (off / 32) = false

/-- A lane of an atomic has changed its element and nothing else (R191, R192): from s to t the bytes at its place have become those of the
new value, every other byte of memory is as before but for a page-table entry that is marked dirty (R57) and the core's own stores to the
line, which come first (R225), and every other byte of scratch is as before. -/
def AtomicLands (s t : State) (o : Op) (op : AtomicOp) (ty : Ty) (env : FpEnv) (a : AtomicLane) : Prop :=
  let n := ty.width / 8
  let new := (atomicNew op ty env (atomicOld s o ty a) a.operand.toNat a.compare.toNat).1
  (∀ pa, a.at_.place = .mem pa → pa % 128 + n ≤ 128 →
    let u := s.settleSector o.core (some o.ctx) pa
    let dirty := marksDirty u o.core [a.at_]
    (∀ m ∈ u.merges, pa / 128 ≠ m.line ∧ ∀ x, x / 128 = m.line → ¬ dirty x) →
    (∀ j < n, t.byteAt (pa + j) = BitVec.ofNat 8 (new / 256 ^ j))
    ∧ (∀ x, x < pa ∨ pa + n ≤ x → ¬ dirty x → t.byteAt x = u.byteAt x)
    ∧ ((∀ w ∈ s.writes, w.core ≠ o.core) → (∀ e ∈ (s.core o.core).l1, e.1 = pa / 128 → e.2.marked = 0) →
      ∀ x, u.byteAt x = s.byteAt x)
    ∧ ∀ core x, scratchByte t core x = scratchByte s core x)
  ∧ ∀ core off, a.at_.place = .scratch core off → a.at_.tlb = none →
    (∀ j < n, scratchByte t core (off + j) = BitVec.ofNat 8 (new / 256 ^ j))
    ∧ (∀ k x, k ≠ core ∨ x < off ∨ off + n ≤ x → scratchByte t k x = scratchByte s k x)
    ∧ t.mem = s.mem

/-! ## Barriers (R206) -/

/-- The fields of a transaction barrier lie within their widths. -/
def TBarFits (b : TBar) : Prop :=
  b.phase < 16 ∧ b.pendArr < 2 ^ 20 ∧ b.arrCnt < 2 ^ 20 ∧ -(2 ^ 47) ≤ b.bytes ∧ b.bytes < 2 ^ 47 ∧ -(2 ^ 31) ≤ b.next
  ∧ b.next < 2 ^ 31

/-! ## The page table (R53 to R56) -/

/-- The entry of a table for an address at a level: its physical address, and what its home holds. -/
def entryPlace (t : Nat) (va : DWord) (lvl : Nat) : Nat := t + 8 * levelIndex va lvl
/-- The 64 bits of that entry. -/
def entryAt (s : State) (t : Nat) (va : DWord) (lvl : Nat) : DWord := BitVec.ofNat 64 (s.readHome (entryPlace t va lvl) 8)

/-- A valid entry is a pointer that stands at its level: its reserved bits are 0, and the table that it names is aligned and in
device memory (R53, R54). -/
def pointerStands (s : State) (e : DWord) (lvl : Nat) : Bool :=
  decide (lvl < 3) && e.extractLsb' 48 16 == 0 && e.extractLsb' 6 2 == 0 && e.extractLsb' 1 3 == 0
    && (decide (2 ≤ lvl) || (e.extractLsb' 8 4 == 0)) && s.inDevice (256 * (e.extractLsb' 8 40).toNat)

/-- The table of a level to which the entries above it lead, from the root table on (R53, R56). -/
def tableAt (s : State) (root : Nat) (va : DWord) : Nat → Option Nat
  | 0 => some root
  | n + 1 => (tableAt s root va n).bind fun t =>
    let e := entryAt s t va n
    if s.poisonedAt (entryPlace t va n) = false ∧ e.getLsbD 0 = true ∧ e.extractLsb' 4 2 = 3 ∧ pointerStands s e n = true then
      some (256 * (e.extractLsb' 8 40).toNat)
    else none

end Sys2Proof.Claims
end

