-- ==== Sys2Proof/Certificates/Slice0/Obligations.lean ====
section
/-! DEFINITION. The statements for the provers, in the terms of `Sys2Proof.Claims` (Safety). -/

open Sys2Proof Sys2Proof.Machine Sys2Proof.Claims

/-! ## Scalar and vector integer instructions -/

/-- R73, R130, R107: scalar sums, differences, products and bitwise operations keep the low w bits, whatever the sign. R73,
R130, R131, R107: the other scalar integer results; a division by zero gives all ones and leaves the dividend as the
remainder, and a shift by the width or more gives 0 or copies of the sign. -/
def Obligations.ScalarIntegerArithmetic : Prop :=
  ((∀ f : XC,
     let w := f.h.ty.width
     let two := fun types => formS2 f types
     ScalarResult (.sadd f) (two f.h.ty.inI) f.h.bytes (fun a => low w (a 1 + a 2).toNat)
     ∧ ScalarResult (.ssub f) (two f.h.ty.inI) f.h.bytes (fun a => low w (a 1 - a 2).toNat)
     ∧ ScalarResult (.smul f) (two f.h.ty.inI) f.h.bytes (fun a => low w (a 1 * a 2).toNat)
     ∧ ScalarResult (.smad f) (formS3 f) f.h.bytes (fun a => low w (a 1 * a 2 + a 3).toNat)
     ∧ ScalarResult (.sand f) (two f.h.ty.inW) f.h.bytes (fun a => low w (a 1 &&& a 2).toNat)
     ∧ ScalarResult (.sor f) (two f.h.ty.inW) f.h.bytes (fun a => low w (a 1 ||| a 2).toNat)
     ∧ ScalarResult (.sxor f) (two f.h.ty.inW) f.h.bytes (fun a => low w (a 1 ^^^ a 2).toNat))
   ∧ ∀ f : Base,
     ScalarResult (.saddB32Base f) (formS2 f.xc true) f.bytes (fun a => low 32 (a 1 + a 2).toNat)
     ∧ ScalarResult (.ssubB32Base f) (formS2 f.xc true) f.bytes (fun a => low 32 (a 1 - a 2).toNat)
     ∧ ScalarResult (.smulB32Base f) (formS2 f.xc true) f.bytes (fun a => low 32 (a 1 * a 2).toNat)
     ∧ ScalarResult (.sandB32Base f) (formS2 f.xc true) f.bytes (fun a => low 32 (a 1 &&& a 2).toNat)
     ∧ ScalarResult (.sorB32Base f) (formS2 f.xc true) f.bytes (fun a => low 32 (a 1 ||| a 2).toNat)
     ∧ ScalarResult (.sxorB32Base f) (formS2 f.xc true) f.bytes (fun a => low 32 (a 1 ^^^ a 2).toNat))
  ∧ ((∀ f : XC,
       let t := f.h.ty
       let two := fun types => formS2 f types
       ScalarResult (.smulh f) (two t.inIS) f.h.bytes (fun a => low t.width (t.int (a 1) * t.int (a 2) / 2 ^ t.width % 2 ^ t.width).toNat)
       ∧ ScalarResult (.sdiv f) (two t.inIS) f.h.bytes
         (fun a => if t.low (a 2) = 0 then low t.width (2 ^ t.width - 1) else t.word ((t.int (a 1)).tdiv (t.int (a 2))))
       ∧ ScalarResult (.srem f) (two t.inIS) f.h.bytes
         (fun a => if t.low (a 2) = 0 then low t.width (a 1).toNat else t.word ((t.int (a 1)).tmod (t.int (a 2))))
       ∧ ScalarResult (.smin f) (two t.inIS) f.h.bytes
         (fun a => if t.int (a 1) ≤ t.int (a 2) then low t.width (a 1).toNat else low t.width (a 2).toNat)
       ∧ ScalarResult (.smax f) (two t.inIS) f.h.bytes
         (fun a => if t.int (a 2) ≤ t.int (a 1) then low t.width (a 1).toNat else low t.width (a 2).toNat)
       ∧ ScalarResult (.sshl f) (two t.inW) f.h.bytes (fun a => low t.width ((a 1).toNat * 2 ^ t.low (a 2)))
       ∧ ScalarResult (.sshr f) (two t.inW) f.h.bytes (fun a => low t.width (t.low (a 1) / 2 ^ t.low (a 2)))
       ∧ ScalarResult (.ssra f) (two t.inW) f.h.bytes (fun a => t.word (t.signedInt (a 1) / 2 ^ t.low (a 2)))
       ∧ ScalarResult (.sbfx f) (formSField f t.inIS .write) f.h.bytes (fun a => fieldExtract t (a 1) f.pos f.len)
       ∧ ScalarResult (.spopc f) (formS1 f) f.h.bytes (fun a => popCount t (a 1))
       ∧ ScalarResult (.sclz f) (formS1 f) f.h.bytes (fun a => leadingZeros t (a 1))
       ∧ ScalarResult (.sctz f) (formS1 f) f.h.bytes (fun a => trailingZeros t (a 1))
       ∧ ScalarResult (.smov f) (formS1 f) f.h.bytes (fun a => a 1)
       ∧ ScalarResult (.sli f) (formSli f) f.h.bytes (fun _ => f.imm.signExtend 64)
       ∧ ScalarResult (.scmp f) (formScmp f) f.h.bytes
         (fun a => if intCompare t (bitsOf f.imm 3 0) (a 1) (a 2) then 1 else 0))
     ∧ ∀ f : Base,
       ScalarResult (.sshlB32Base f) (formS2 f.xc true) f.bytes (fun a => low 32 ((a 1).toNat * 2 ^ ((a 2).toNat % 2 ^ 32)))
       ∧ ScalarResult (.sshrB32Base f) (formS2 f.xc true) f.bytes (fun a => low 32 ((a 1).toNat % 2 ^ 32 / 2 ^ ((a 2).toNat % 2 ^ 32)))
       ∧ ScalarResult (.smovB32Base f) (formS1 f.xc) f.bytes (fun a => a 1))

/-- R131 to R133: `sbfi` replaces the field of its destination and keeps the other bits; `ssel` chooses by k(p); `kop`
writes bit 2a + b of its table. R161, R162, R166: `bfi` keeps the bits of its destination outside the field, `sel`
chooses in each lane by its predicate, `fclass` writes the class of its operand and raises no flag. -/
def Obligations.FieldsAndSelections : Prop :=
  (∀ (f : XC) (s : State) (is : Issue),
     (let form := formSField f f.h.ty.inW .readWrite
      Reaches form f.h.bytes [] s is → Completes (.sbfi f) s is (.done (s.setCtx is.id
         (form.writeDst is.c 0 (fieldInsert f.h.ty (form.dstArg is.c 0) (form.arg is.c 1 0) f.pos f.len)))))
     ∧ (let form := formSsel f
        Reaches form f.h.bytes [] s is → Completes (.ssel f) s is (.done (s.setCtx is.id
         (form.writeDst is.c 0 (if is.c.kpred (bitsOf f.imm 2 0) then form.arg is.c 1 0 else form.arg is.c 2 0)))))
     ∧ (Reaches (formKop f) f.h.bytes [] s is → Completes (.kop f) s is (.done (s.setCtx is.id
         (is.c.setK f.h.dst.toNat (bitOf f.imm ((if is.c.kpred f.h.src1.toNat then 2 else 0)
           + (if is.c.kpred f.h.src2.toNat then 1 else 0))))))))
  ∧ (∀ (f : XV) (s : State) (is : Issue),
       (let form := formVField f f.h.ty.inW .readWrite
        Reaches form f.h.bytes [] s is → Completes (.bfi f) s is (.done (s.setCtx is.id
          (form.writeLanes is.c is.acting fun l =>
            let n := fieldBits f.h.ty.width (form.arg is.c 2 l) (form.arg is.c 3 l)
            if n = 0 then form.dstArg is.c l
            else fieldInsert f.h.ty (form.dstArg is.c l) (form.arg is.c 1 l) ((form.arg is.c 2 l).toNat % 256) n))))
       ∧ (let form := formSel f
          Reaches form f.h.bytes [] s is → Completes (.sel f) s is (.done (s.setCtx is.id
            (form.writeLanes is.c is.acting fun l =>
              if (is.c.pred f.h.src3.toNat).getLsbD l then form.arg is.c 1 l else form.arg is.c 2 l))))
       ∧ (let form := formV1 f f.h.ty.inF srcs1 false
          Reaches form f.h.bytes [] s is → Completes (.fclass f) s is (.done (s.setCtx is.id
            (form.writeLanes is.c is.acting fun l => BitVec.ofNat 64 (f.h.ty.fmt.classOf (f.fp form is.c 1 l)))))))

/-- R73, R160, R107: vector sums, differences and products keep the low w bits or, with `SAT`, are clamped to the range of
the type; bitwise operations work on the width of the type. R73, R160 to R162, R107: the other vector integer results; a
shift by the width or more gives 0 or copies of the sign, and a lane in which the instruction does not act keeps its bit
of a lane predicate. -/
def Obligations.VectorIntegerArithmetic : Prop :=
  ((∀ f : XV,
     let t := f.h.ty
     let kept := fun (x : DWord) (exact : Int) => if f.sat then BitVec.ofNat 64 (t.clamp exact) else low t.width x.toNat
     let two := formV2 f t.inI (satAllowed t) 0 false
     let bits := formV2 f t.inW false 0 false
     LaneResult (.add f) two f.h.bytes (fun a => kept (a 1 + a 2) (t.int (a 1) + t.int (a 2)))
     ∧ LaneResult (.sub f) two f.h.bytes (fun a => kept (a 1 - a 2) (t.int (a 1) - t.int (a 2)))
     ∧ LaneResult (.mul f) two f.h.bytes (fun a => kept (a 1 * a 2) (t.int (a 1) * t.int (a 2)))
     ∧ LaneResult (.mad f) (formV3 f t.inI (satAllowed t) 0 false) f.h.bytes
       (fun a => kept (a 1 * a 2 + a 3) (t.int (a 1) * t.int (a 2) + t.int (a 3)))
     ∧ LaneResult (.and f) bits f.h.bytes (fun a => low t.width (a 1 &&& a 2).toNat)
     ∧ LaneResult (.or f) bits f.h.bytes (fun a => low t.width (a 1 ||| a 2).toNat)
     ∧ LaneResult (.xor f) bits f.h.bytes (fun a => low t.width (a 1 ^^^ a 2).toNat))
   ∧ ∀ f : Base,
     let two := formBase2 f .b32 false
     LaneResult (.addB32Base f) two f.bytes (fun a => low 32 (a 1 + a 2).toNat)
     ∧ LaneResult (.subB32Base f) two f.bytes (fun a => low 32 (a 1 - a 2).toNat)
     ∧ LaneResult (.mulB32Base f) two f.bytes (fun a => low 32 (a 1 * a 2).toNat)
     ∧ LaneResult (.andB32Base f) two f.bytes (fun a => low 32 (a 1 &&& a 2).toNat)
     ∧ LaneResult (.orB32Base f) two f.bytes (fun a => low 32 (a 1 ||| a 2).toNat)
     ∧ LaneResult (.xorB32Base f) two f.bytes (fun a => low 32 (a 1 ^^^ a 2).toNat)
     ∧ LaneResult (.addB32VsBase f) (formBase2 f .b32 true) f.bytes (fun a => low 32 (a 1 + a 2).toNat))
  ∧ ((∀ f : XV,
       let t := f.h.ty
       let two := fun types => formV2 f types false 0 false
       let one := formV1 f t.inW 0 false
       LaneResult (.mulh f) (two t.inIS) f.h.bytes
         (fun a => low t.width (t.int (a 1) * t.int (a 2) / 2 ^ t.width % 2 ^ t.width).toNat)
       ∧ LaneResult (.min f) (two t.inIS) f.h.bytes
         (fun a => if t.int (a 1) ≤ t.int (a 2) then low t.width (a 1).toNat else low t.width (a 2).toNat)
       ∧ LaneResult (.max f) (two t.inIS) f.h.bytes
         (fun a => if t.int (a 2) ≤ t.int (a 1) then low t.width (a 1).toNat else low t.width (a 2).toNat)
       ∧ LaneResult (.abs f) (formV1 f (t == .s32 || t == .s64) 0 false) f.h.bytes
         (fun a => low t.width (t.int (a 1)).natAbs)
       ∧ LaneResult (.shl f) (two t.inW) f.h.bytes (fun a => low t.width ((a 1).toNat * 2 ^ t.low (a 2)))
       ∧ LaneResult (.shr f) (two t.inW) f.h.bytes (fun a => low t.width (t.low (a 1) / 2 ^ t.low (a 2)))
       ∧ LaneResult (.sra f) (two t.inW) f.h.bytes (fun a => t.word (t.signedInt (a 1) / 2 ^ t.low (a 2)))
       ∧ LaneResult (.bfx f) (formVField f t.inIS .write) f.h.bytes
         (fun a => fieldExtract t (a 1) ((a 2).toNat % 256) (fieldBits t.width (a 2) (a 3)))
       ∧ LaneResult (.popc f) one f.h.bytes (fun a => popCount t (a 1))
       ∧ LaneResult (.clz f) one f.h.bytes (fun a => leadingZeros t (a 1))
       ∧ LaneResult (.brev f) one f.h.bytes (fun a => bitReverse t (a 1))
       ∧ LaneResult (.mov f) one f.h.bytes (fun a => a 1)
       ∧ LaneResult (.cmp f) (formVCmp f t.inI 0 (if t.inW then 2 else 6)) f.h.bytes
         (fun a => if intCompare t f.cond.toNat (a 1) (a 2) then 1 else 0))
     ∧ ∀ f : Base,
       let two := formBase2 f .b32 false
       LaneResult (.shlB32Base f) two f.bytes (fun a => low 32 ((a 1).toNat * 2 ^ ((a 2).toNat % 2 ^ 32)))
       ∧ LaneResult (.shrB32Base f) two f.bytes (fun a => low 32 ((a 1).toNat % 2 ^ 32 / 2 ^ ((a 2).toNat % 2 ^ 32)))
       ∧ LaneResult (.sraB32Base f) two f.bytes (fun a => Ty.b32.word (Ty.b32.signedInt (a 1) / 2 ^ ((a 2).toNat % 2 ^ 32)))
       ∧ LaneResult (.minS32Base f) (formBase2 f .s32 false) f.bytes
         (fun a => if Ty.s32.int (a 1) ≤ Ty.s32.int (a 2) then low 32 (a 1).toNat else low 32 (a 2).toNat)
       ∧ LaneResult (.maxS32Base f) (formBase2 f .s32 false) f.bytes
         (fun a => if Ty.s32.int (a 2) ≤ Ty.s32.int (a 1) then low 32 (a 1).toNat else low 32 (a 2).toNat)
       ∧ LaneResult (.movB32Base f) (formV1 (f.xv .b32 false) true 0 false) f.bytes (fun a => a 1))

/-! ## Floating point -/

/-- R82, R163 to R165, R167 to R170, R107: every instruction whose result comes with flags completes in every acting lane where no
flag that it raises is enabled, and posts its flags. -/
def Obligations.FloatResults : Prop := ForFloats FpResult

/-- R82: where a flag that a result raises is enabled, every instruction whose result comes with flags takes `FP_TRAP`, writes no
destination and posts its flags; so do `redux` and `scan` (R362), whose failing lanes are all those in which they act:
the model's choice (log entry 160). -/
def Obligations.FloatTrapsWriteNothing : Prop :=
  ForFloats FpTraps
  ∧ ∀ (f : XL) (s : State) (is : Issue),
    let t := f.h.ty
    let env := fpEnv is.c.special.fpctl f.h.rnd
    let trapped := fun fl : Flags =>
      (s.setCtx is.id (is.c.postFlags fl)).takeTrap is.id is.i (fpTrapAt is.acting) none
    (Reaches (formRedux f) f.h.bytes [] s is →
      let lanes := tabulate is.c.node.width fun l =>
        if is.acting.getLsbD l then some (t.low ((formRedux f).arg is.c 1 l)) else none
      let r := laneTree t env f.mode.toNat 6 lanes
      enabledFlags is.c.special.fpctl r.2 ≠ 0 → exec (.redux f) s = .next (trapped r.2))
    ∧ (Reaches (formScan f) f.h.bytes [] s is →
      let r := scanChain t env (bitsOf f.mode 2 0) (fun l => t.low ((formScan f).arg is.c 1 l)) none (lanesOf is.acting)
      enabledFlags is.c.special.fpctl r.2 ≠ 0 → exec (.scan f) s = .next (trapped r.2))

/-- R76, R77, R80, R81: a nonzero exact value is rounded once, in every format, mode and `FTZ`, with the flags that the rules give;
sums, differences, products and fused products are their exact values rounded, an exact sum of 0 of operands with opposite signs takes
the sign of R77, and so does a fused product's; a quotient and a root, rational or not, stand for the exact ones. R90: `uniform_f32` of a word is the FP32 value bits [31:8] × 2^−24, exact and without
flags. -/
def Obligations.NumbersAreRoundedOnce : Prop :=
  (∀ (ty : Ty) (env : FpEnv) (x : Exact) (v : ℚ), ty.float = true → Stands ty.fmt.fbits x v →
    Rounded ty.fmt env v (ty.fmt.round env.mode env.ftz x))
  ∧ (∀ (ty : Ty) (env : FpEnv) (a b c : Nat) (x y z : ℚ), ty.float = true →
    FVal.rational (ty.fmt.value env.ftz a) = some x → FVal.rational (ty.fmt.value env.ftz b) = some y →
    FVal.rational (ty.fmt.value env.ftz c) = some z →
    let zero := (ty.fmt.signed (env.mode == .rdn) 0, (0 : Flags))
    let neg := fun p : Nat => match ty.fmt.value env.ftz p with
      | .fin n _ _ => n
      | _ => false
    (x + y ≠ 0 → Rounded ty.fmt env (x + y) (ty.fmt.add env a b))
    ∧ (x ≠ 0 → x + y = 0 → ty.fmt.add env a b = zero)
    ∧ (x + y = 0 → neg a ≠ neg b → ty.fmt.add env a b = zero)
    ∧ (x - y ≠ 0 → Rounded ty.fmt env (x - y) (ty.fmt.sub env a b))
    ∧ (x ≠ 0 → x - y = 0 → ty.fmt.sub env a b = zero)
    ∧ (x - y = 0 → neg a = neg b → ty.fmt.sub env a b = zero)
    ∧ (x * y ≠ 0 → Rounded ty.fmt env (x * y) (ty.fmt.mul env a b))
    ∧ (x * y + z ≠ 0 → Rounded ty.fmt env (x * y + z) (ty.fmt.fma env a b c))
    ∧ (x * y + z = 0 → (neg a != neg b) ≠ neg c → ty.fmt.fma env a b c = zero)
    ∧ (x ≠ 0 → y ≠ 0 → Rounded ty.fmt env (x / y) (ty.fmt.div env a b))
    ∧ (0 < x → ∃ r : Exact, ty.fmt.sqrt env a = ty.fmt.round env.mode env.ftz r ∧ r.neg = false ∧ r.mag ≠ 0
      ∧ (r.more = false → (r.mag * (2 : ℚ) ^ r.exp) ^ 2 = x)
      ∧ (∀ v, 0 < v → v * v = x → Stands ty.fmt.fbits r v)
      ∧ (r.more = true → ty.fmt.fbits + 2 ≤ bitLength r.mag ∧ (r.mag * (2 : ℚ) ^ r.exp) ^ 2 < x
        ∧ x < ((r.mag + 1) * (2 : ℚ) ^ r.exp) ^ 2)))
  ∧ ∀ w : Word, let n := w.toNat / 256
    valueOf Ty.f32.fmt (uniformF32 w).toNat = some (n * (2 : ℚ) ^ (-24 : Int))
    ∧ (n ≠ 0 → (Fmt.round Ty.f32.fmt .rne false ⟨false, n, -24, false⟩).2 = 0)

/-! ## Lane operations -/

/-- R172 to R177, R362: shuffles, votes, matches and the generator complete and write what the rule gives: a shuffle takes
the own lane's value where the named lane is outside the group or the split's `MASK`. R177, R89, R90: `rngc` completes;
its four words come from the counter and the key of the split, or of each lane. R175, R176, R362, R82: `redux` delivers
the tree over the lane positions and `scan` the chain over the participating lanes, where no flag that they raise is
enabled. -/
def Obligations.LanesCommunicate : Prop :=
  (∀ (f : XL) (s : State) (is : Issue),
     let shuffled := fun (mode : Nat) (source : Nat → Nat → Int) =>
       let form := formShfl f mode
       Res.done (s.setCtx is.id (form.writeLanes is.c is.acting fun l =>
         let j := source l ((form.arg is.c 2 l).toNat % 2 ^ 32)
         if 0 ≤ j ∧ j < is.c.node.width ∧ is.sp.mask.getLsbD j.toNat then form.arg is.c 1 j.toNat else form.arg is.c 1 l))
     let bits := is.c.pred f.h.src1.toNat &&& is.acting
     let voted := fun (mode : Nat) (x : DWord) => Res.done (s.setCtx is.id ((formVote f mode).writeDst is.c 0 x))
     (Reaches (formShfl f 0) f.h.bytes [] s is → Completes (.shflIdx f) s is (shuffled 0 fun _ b => b))
     ∧ (Reaches (formShfl f 1) f.h.bytes [] s is → Completes (.shflUp f) s is (shuffled 1 fun l b => (l : Int) - b))
     ∧ (Reaches (formShfl f 2) f.h.bytes [] s is → Completes (.shflDown f) s is (shuffled 2 fun l b => (l : Int) + b))
     ∧ (Reaches (formShfl f 3) f.h.bytes [] s is → Completes (.shflXor f) s is (shuffled 3 fun l b => (l ^^^ b : Nat)))
     ∧ (Reaches (formVote f 0) f.h.bytes [] s is → Completes (.voteBallot f) s is (voted 0 bits))
     ∧ (Reaches (formVote f 1) f.h.bytes [] s is → Completes (.voteAny f) s is (voted 1 (if bits ≠ 0 then 1 else 0)))
     ∧ (Reaches (formVote f 2) f.h.bytes [] s is → Completes (.voteAll f) s is (voted 2 (if bits = is.acting then 1 else 0)))
     ∧ (Reaches (formVote f 3) f.h.bytes [] s is →
       Completes (.voteUni f) s is (voted 3 (if bits = 0 ∨ bits = is.acting then 1 else 0)))
     ∧ (Reaches (formMatch f) f.h.bytes [] s is →
       let value := fun l : Nat => f.h.ty.low ((formMatch f).arg is.c 1 l)
       let equal := fun l : Nat => laneSet ((lanesOf is.acting).filter fun j => value j == value l)
       let leaders := laneSet ((lanesOf is.acting).filter fun l => lowestLane (equal l) == l)
       let c := (formMatch f).writeLanes is.c is.acting equal
       Completes (.matchLanes f) s is (.done (s.setCtx is.id
         (if bitsOf f.imm 2 0 = 0 then c else c.setPred (bitsOf f.imm 2 0) is.acting leaders)))))
  ∧ (∀ (f : XL) (s : State) (is : Issue), Reaches (formRngc f) f.h.bytes [] s is →
       let d := f.h.dst.toNat
       let a := f.h.src1.toNat
       let b := f.h.src2.toNat
       let out := fun (ctr : BitVec 128) (key : DWord) (i : Nat) =>
         let w := (rngBlock ctr key).getD i 0
         if bitOf f.mode 0 then uniformF32 w else w
       let counter := counterOf fun i => is.c.s (a + i)
       ∃ c : Ctx, Completes (.rngc f) s is (.done (s.setCtx is.id c))
         ∧ (bitOf f.mode 1 = true → ∀ i < 4, d + i < 64 → c.s (d + i) = out counter (is.c.q b) i)
         ∧ (bitOf f.mode 1 = false → ∀ l ∈ lanesOf is.acting, ∀ i < 4, d + i < 256 →
           c.vreg (d + i) l = out (if kindBit f.kind 1 then counter + BitVec.ofNat 128 l else counterOf fun i => is.c.vreg (a + i) l)
             (if kindBit f.kind 2 then is.c.q b else is.c.d b l) i))
  ∧ (∀ (f : XL) (s : State) (is : Issue),
       let t := f.h.ty
       let env := fpEnv is.c.special.fpctl f.h.rnd
       let posted := fun (fl : Flags) (c : Ctx) => Res.done (s.setCtx is.id (c.postFlags fl))
       (Reaches (formRedux f) f.h.bytes [] s is →
         let lanes := tabulate is.c.node.width fun l =>
           if is.acting.getLsbD l then some (t.low ((formRedux f).arg is.c 1 l)) else none
         let r := laneTree t env f.mode.toNat 6 lanes
         let value := BitVec.ofNat 64 (r.1.getD 0)
         enabledFlags is.c.special.fpctl r.2 = 0 →
         Completes (.redux f) s is (posted r.2 (if bitOf f.imm 0 then (formRedux f).writeLanes is.c is.acting fun _ => value
           else (formRedux f).writeDst is.c 0 value)))
       ∧ (Reaches (formScan f) f.h.bytes [] s is →
         let r := scanChain t env (bitsOf f.mode 2 0) (fun l => t.low ((formScan f).arg is.c 1 l)) none (lanesOf is.acting)
         enabledFlags is.c.special.fpctl r.2 = 0 →
         Completes (.scan f) s is (posted r.2 (r.1.foldl
           (fun c e => (formScan f).writeDst c e.1 (BitVec.ofNat 64 (if bitOf f.mode 3 then e.2.2 else e.2.1))) is.c))))

/-! ## Control flow -/

/-- R134, R136, R93: a taken branch sets the split's `PC` to word 0's address + 4 × `IMM` and makes the merge check; one that
is not taken goes on; `loop` counts its register down and `call` writes the next instruction's address, as log entry 42 extends it,
into every acting lane; a target that is not a multiple of 4, which only a register can give where word 0's address is one, takes
`MISALIGNED`, and nothing is written. -/
def Obligations.BranchesReachTheirTargets : Prop :=
  ∀ (f : XC) (s : State) (is : Issue),
    let target := branchTarget is f.imm
    let to_ := fun (s : State) (pc : DWord) => Res.set ((s.noteBranch is pc).modCtx is.id fun c => c.branch is.i pc)
    let aligned := fun pc : DWord => pc.toNat % 4 = 0
    let count := is.c.s f.h.dst.toNat - 1
    let counted := s.setCtx is.id (((Form.base f.h).withDst .s1 .readWrite).writeDst is.c 0 (count.setWidth 64))
    let called := s.setCtx is.id (((Form.base f.h).withDst .d).writeLanes is.c is.acting
      fun _ => (is.next.setWidth 52).signExtend 64)
    let jump : Form := { (Form.base f.h).withSrc1 .q with word2 := f.imm == 0 }
    let reaches := fun (i : Instr) (t : State) (pc : DWord) =>
      (aligned pc → Completes i s is (to_ t pc)) ∧ (¬ aligned pc → Traps i s is s { Trap.of .misaligned with va := pc })
    (Reaches (formBare f .k true) f.h.bytes [] s is → reaches (.bra f) s target)
    ∧ (Reaches (formBrk f) f.h.bytes [] s is →
      ((is.c.s f.h.src1.toNat ≠ 0 ↔ f.h.src2 = 1) → reaches (.brk f) s target)
      ∧ (¬ (is.c.s f.h.src1.toNat ≠ 0 ↔ f.h.src2 = 1) → Completes (.brk f) s is (.done s)))
    ∧ (Reaches jump f.h.bytes [] s is → reaches (.jmp f) s (jump.arg is.c 1 0))
    ∧ (Reaches ((Form.base f.h).withDst .s1 .readWrite) f.h.bytes [] s is →
      (count = 0 → Completes (.loop f) s is (.done counted)) ∧ (count ≠ 0 → reaches (.loop f) counted target))
    ∧ (Reaches ((Form.base f.h).withDst .d) f.h.bytes [] s is → reaches (.call f) called target)

/-- R135, R136, R17, R20: `brv` sends the lanes of its guard to the target and `ret` the lanes that hold the lowest lane's
address; one that is not a multiple of 4 takes `MISALIGNED` in those lanes; in a handler only a uniform one is allowed, and a 33rd
stack entry takes `SCRATCH_BOUNDS`. R18 to R20, R137,
R138, R141: `join`, `exit`, `nop`, `yield` and `region` complete; `exit` ends the acting lanes after the program counter
has advanced, and `region` closes the region. -/
def Obligations.SplitsDivergeAndJoin : Prop :=
  (∀ (f : XC) (s : State) (is : Issue),
     let went := fun (c : Ctx) (pc : DWord) =>
       Res.set ((s.noteBranch is pc).modCtx is.id fun d => { c with lastSpin := d.lastSpin })
     let back : Form := { (Form.base f.h).withSrc1 .d with word2 := f.imm == 0 }
     let pc := back.arg is.c 1 (lowestLane is.acting)
     let same := laneSet ((lanesOf is.acting).filter fun l => back.arg is.c 1 l == pc)
     (Reaches (formBare f .p true) f.h.bytes [] s is → (is.inHandler = false ∨ is.acting = is.sp.mask) →
       (∀ c, is.c.diverge is.i is.acting (branchTarget is f.imm) is.next = some c →
         Completes (.brv f) s is (went c (branchTarget is f.imm)))
       ∧ (is.c.diverge is.i is.acting (branchTarget is f.imm) is.next = none →
         exec (.brv f) s = .next (s.takeTrap is.id is.i (Trap.of .scratchBounds) none)))
     ∧ (Reaches (formBare f .p true) f.h.bytes [] s is → is.inHandler = true → is.acting ≠ is.sp.mask →
       Traps (.brv f) s is s (Trap.of .illegal))
     ∧ (Reaches back f.h.bytes [] s is →
       (pc.toNat % 4 ≠ 0 → Traps (.ret f) s is s { Trap.of .misaligned with va := pc, lanes := same, lane := lowestLane same })
       ∧ (pc.toNat % 4 = 0 → is.inHandler = true → same ≠ is.sp.mask → Traps (.ret f) s is s (Trap.of .illegal))
       ∧ (pc.toNat % 4 = 0 → (is.inHandler = false ∨ same = is.sp.mask) →
         (∀ c, is.c.diverge is.i same pc is.sp.pc = some c → Completes (.ret f) s is (went c pc))
         ∧ (is.c.diverge is.i same pc is.sp.pc = none → Traps (.ret f) s is s (Trap.of .scratchBounds)))))
  ∧ (∀ (f : XC) (s : State) (is : Issue),
       (Reaches (formBare f .none (f.imm == 0)) f.h.bytes [] s is → is.inHandler = false →
         Completes (.join f) s is (.set (s.modCtx is.id fun c => c.join is.i)))
       ∧ (Reaches (formBare f .p (bitsOf f.imm 31 1 == 0)) f.h.bytes [] s is →
         Completes (.exitLanes f) s is
           (.set ((s.advance is.id is.i is.next).exitLanes is.id is.i is.acting (bitOf f.imm 0))))
       ∧ (Reaches (formBare f .k (f.imm == 0)) f.h.bytes [] s is →
         Completes (.nop f) s is (.done s)
         ∧ Completes (.region f) s is (.commit s)
         ∧ Completes (.yieldSplit f) s is (.done ((s.modSplit is.id is.i fun sp => { sp with hold := 16 }).modCtx is.id
           fun c => { c with lastSpin := s.clock + 1 }))))

/-- R139, R102, R157: `rdsr` reads a special register once into `s` or in every acting lane into `v`, `wrsr` writes the named
one and no other, and `xbind` writes a translation register with the run that its walk found. What `rdsr` reads after a `wrsr`: of
`%fpst` the bits that were not written as 1 (R79), of `%fpctl` the fields written, with `RM` as before where the written one names no
mode (R78), of `%perfsel` the configuration of the counter that was named, which an undefined `EVENT` leaves as it was (R140), of a
counter the value written, and of every other register what it read before. -/
def Obligations.SpecialRegisters : Prop :=
  (∀ (f : XC) (s : State) (is : Issue),
    let n := f.imm.toNat
    let bind : Form := { ((Form.base f.h).withDst .x .none).withSrc1 .q with word2 := f.imm == 0 }
    (Reaches (formRdsr f) f.h.bytes [] s is → Completes (.rdsr f) s is (.done (s.setCtx is.id
      (if f.h.src2 = 0 then (formRdsr f).writeDst is.c 0 (s.special is.c n 0)
        else (formRdsr f).writeLanes is.c is.acting (s.special is.c n)))))
    ∧ (Reaches (formWrsr f) f.h.bytes [] s is →
      Completes (.wrsr f) s is (.done (s.setCtx is.id
        { is.c with special := is.c.special.write n ((formWrsr f).arg is.c 1 0) })))
    ∧ (Reaches bind f.h.bytes [] s is →
      ∀ (t : State) (r : XReg), s.bindRun is.id is.c.core (s.asroot is.c.graph) (bind.arg is.c 1 0) = (t, .ok r) →
      Completes (.xbind f) s is (.done (t.modCtx is.id fun c => c.setXreg f.h.dst.toNat r))))
  ∧ ∀ (s : State) (c : Ctx) (n l : Nat) (x : DWord), n ∈ [0x09, 0x0A, 0x11] ∨ 0x18 ≤ n ∧ n ≤ 0x1F →
    let d : Ctx := { c with special := c.special.write n x }
    let w : Word := x.setWidth 32
    let k := (w.extractLsb' 28 3).toNat
    let r := s.special d n l
    let config := fun (c : Ctx) (j : Nat) => c.special.perfConfig.at PerfConfig.none j
    (∀ m, m ≠ n → m ≤ 0x11 ∨ 0x18 ≤ m ∧ m ≤ 0x1F → s.special d m l = s.special c m l)
    ∧ (∀ j, n ≠ 0x11 ∨ j ≠ k → config d j = config c j)
    ∧ (n = 0x09 → ∀ i, r.getLsbD i = (decide (i < 5) && (s.special c n l).getLsbD i && !w.getLsbD i))
    ∧ (n = 0x0A → (∀ i, 3 ≤ i → r.getLsbD i = (decide (i < 9) && w.getLsbD i))
      ∧ r.extractLsb' 0 3 =
        if (w.extractLsb' 0 3).toNat ≤ 4 then w.extractLsb' 0 3 else (s.special c n l).extractLsb' 0 3)
    ∧ (n = 0x11 →
      let named := w.extractLsb' 0 16 ∈ [0x0000#16, 0x0001#16, 0x0002#16, 0x0003#16, 0x0010#16, 0x0011#16, 0x0012#16, 0x0013#16,
        0x0020#16, 0x0030#16]
      (named → r = w.setWidth 64)
      ∧ (¬ named → config d k = config c k ∧ r.extractLsb' 28 3 = w.extractLsb' 28 3 ∧ r.getLsbD 31 = (config c k).enable
        ∧ r.extractLsb' 16 12 = (config c k).handle ∧ r.extractLsb' 0 16 = (config c k).event))
    ∧ (0x18 ≤ n → r = x)

/-- R155, R156, R301, R308: `trap` takes `SOFTWARE` with its number, and outside a handler `rfe` takes `ILLEGAL`; in one, the
three forms leave it and go on at the saved program counter, at the instruction after it, or at the region's start; where the entry
came while an operation of the split was still being performed, that comes first (log entry 17). -/
def Obligations.TrapsAndReturns : Prop :=
  ∀ (f : XC) (s : State) (is : Issue),
    let left := fun (h : Handler) (t : State) (mode : Nat) (pc : DWord) =>
      let t := (t.serviced is.id h).modCtx is.id fun c => c.leaveHandler h t.nextId
      Res.set (t.modSplit is.id is.i fun sp => { sp with pc := pc, wait := t.waitAfter h mode })
    let pending := fun h : Handler => ∃ n, h.wait = .op n ∧ s.ops.look n ≠ none
    (Reaches (formBare f .k (bitsOf f.imm 31 16 == 0)) f.h.bytes [] s is → is.inHandler = false →
      exec (.trap f) s =
        .next (s.takeTrap is.id is.i { Trap.of .software with detail := bitsOf f.imm 15 0 } none))
    ∧ (∀ mode i, (mode, i) ∈ [(0, Instr.rfePc f), (1, .rfeNext f), (2, .rfeRegion f)] →
      Reaches (formBare f .k (f.imm.toNat == mode)) f.h.bytes [] s is → is.inHandler = false →
      Traps i s is s (Trap.of .illegal))
    ∧ ∀ h, is.c.handler = some h → is.inHandler = true →
      (Reaches (formBare f .k (f.imm.toNat == 0)) f.h.bytes [] s is →
        Completes (.rfePc f) s is (left h s 0 h.savedPc))
      ∧ (Reaches (formBare f .k (f.imm.toNat == 1)) f.h.bytes [] s is →
        ∀ t w, s.fetchWord is.id is.c h.savedPc = (t, .ok w) →
        Completes (.rfeNext f) s is (left h t 1 (h.savedPc + BitVec.ofNat 64 (4 * lengthOf w))))
      ∧ (Reaches (formBare f .k (f.imm.toNat == 2)) f.h.bytes [] s is →
        (¬ pending h → Completes (.rfeRegion f) s is (left h (s.restart is.id is.i) 2 is.sp.region))
        ∧ (pending h → Completes (.rfeRegion f) s is
          (left h (s.modSplit is.id is.i fun sp => { sp with restart := true }) 2 h.savedPc)))
    ∧ ∀ (t : State) (h : Handler), (∀ n, h.wait ≠ .op n) → (∀ u, h.wait ≠ .due u) → ∀ mode, t.waitAfter h mode = .ready

/-- R93, R118, R301: words that encode no instruction take `ILLEGAL`, a failed fetch takes its trap, and a split of an ending
graph ends its lanes in error. R14, R97, R106, R304: every instruction that names a register which its group does not have takes
`ILLEGAL`; otherwise, unless a check of its own forbids it to the group (`ILLEGAL`) or its unit is absent (`UNIT_ABSENT`), it goes on
without an effect where no lane acts, takes the cause of a poison-empty source, takes `EMPTY_READ` or waits at an empty one, and waits
at an empty destination; the wait is over when the registers it names are full. That poison comes before `EMPTY_READ`, and that before
the wait, is the model's choice (log entry 13). R35, R243: a stealable group takes `ILLEGAL` at every instruction of the tiles and the
matrix engine. -/
def Obligations.WhatComesBeforeAnInstruction : Prop :=
  (∀ (s : State) (id i : Nat) (c : Ctx) (sp : Split),
    (s.issuer = some (id, i, c, sp) → exec .illegalEncoding s = .next (s.takeTrap id i (Trap.of .illegal) none))
    ∧ (s.issuer = some (id, i, c, sp) → ∀ t u, s.fetch id c sp = (t, .error u) → exec .fetchTrap s = .next (t.takeTrap id i u none))
    ∧ (s.ctxs.look id = some c → c.splits.look i = some sp → s.ending c = true → (∀ n, sp.wait ≠ .op n) →
      exec (.cancelled id i) s = .next (s.exitLanes id i (sp.allLanes &&& ~~~c.exited) true)))
  ∧ (∀ (i : Instr) (form : Form) (more : List Field) (s : State) (is : Issue), partsOf i = some (form, more) →
    AtIssue form s is →
    (regsExist form is.c = false → Traps i s is s (Trap.of .illegal))
    ∧ (regsExist form is.c = true →
      (checksItself i = false → SourcesFirst i form more s is)
      ∧ (checksItself i = true →
        Traps i s is s (Trap.of .illegal) ∨ Traps i s is s (Trap.of .unitAbsent) ∨ SourcesFirst i form more s is)
      ∧ (onTiles i = true → is.c.node.steal = true → Traps i s is s (Trap.of .illegal))))
  ∧ ∀ (s : State) (c : Ctx) (sp : Split) (ks : List Nat), sp.wait = .fill ks →
    (s.waitOver c sp = true ↔ ∀ k ∈ ks, c.isEmpty k = false)

/-! ## Frames and records -/

/-- R143, R144: `fnew` allocates a frame for the split or for each acting lane, writes the handles, notes the task as the
owner and logs up to eight frames in the region; more than eight commit it. Without a free frame it takes `FRAME_ERROR`. -/
def Obligations.FramesAreAllocated : Prop :=
  ∀ (f : XC) (s : State) (is : Issue) (promise : Bool),
    let form := formFnew f promise
    let i := if promise then Instr.fnewP f else Instr.fnew f
    Reaches form f.h.bytes [] s is → f.frameK = is.c.perLane →
    ∀ t r, s.allocFrames is.c promise (if f.frameK then lanesOf is.acting else [0]) = (t, r) →
      (r = none → Traps i s is s (Trap.of .frameError))
      ∧ ∀ hs, r = some hs →
        let n := hs.length
        let closes := if n ≤ 8 then decide (8 < is.sp.frames.length + n) else !is.sp.frames.isEmpty
        let u := (if closes then t.modCtx is.id fun c => c.newRegion is.i else t).modCtx is.id fun c =>
          hs.foldl (fun c e => form.writeDst c e.1 (e.2.setWidth 64))
            { c with owned := c.owned ++ hs.map fun e => { task := e.1, handle := e.2, promise := promise } }
        (8 < n → Completes i s is (.commit u))
        ∧ (n ≤ 8 → Completes i s is
          (.done (u.modSplit is.id is.i fun sp => { sp with frames := sp.frames ++ hs.map Prod.snd })))

/-- R145, R29: `fdone` on promise frames writes its group's lines back and asks the frame stores; there every named frame
becomes done and releases its waiters, and the instruction commits. R146, R147, R29: `fawait` on frames that are over returns their
statuses and crosses an edge, and parks on the first that is not; `fpoll` empties its registers and asks. A handle that names no
promise frame (`fdone`), or that fails R28, takes `FRAME_ERROR`, or `POISON`, with a fault record (R315), where the frame cannot be
read; one whose frame store no path reaches takes `LINK_LOST` (log entry 111). R29: a promise that is done stays so, and its waiters leave the frame. -/
def Obligations.PromisesAndAwaits : Prop :=
  ((∀ (f : XC) (s : State) (is : Issue), Reaches (formFdone f) f.h.bytes [] s is →
     let hs := frameHandles f (formFdone f) is
     let trap := s.handleTrap is hs fun h => !s.isPromise h
     (trap = none → let t := s.writeBack is.id
       Asks (.fdone f) s is (t.addOp (is.op t (.fdone hs))) (.op t.nextId))
     ∧ ∀ u, trap = some u → Traps (.fdone f) s is (s.refuseFrames is.id (hs.map Prod.snd) u) u)
   ∧ ∀ (s : State) (n : Nat) (o : Op) (hs : List (Nat × Word)), s.ops.look n = some o → o.kind = .fdone hs →
     (∀ t, s.promisesDone hs = .ok t → exec (.fdonePerform n) s = .next (t.commitOp n o))
     ∧ ∀ l, s.promisesDone hs = .error l →
       exec (.fdonePerform n) s = .next (s.refuseOp n o ((Trap.of .frameError).inLanes [l])))
  ∧ (∀ (f : XC) (s : State) (is : Issue), Reaches (formFawait f) f.h.bytes [] s is →
       let hs := frameHandles f (formFawait f) is
       let polls := hs.map fun e => (locAt (!f.frameK) f.h.dst.toNat e.1, e.2)
       let trap := s.handleTrap is hs fun h => (s.checkHandle h).isNone
       (∀ u, trap = some u → let t := s.refuseFrames is.id (hs.map Prod.snd) u
         Traps (.fawait f) s is t u ∧ Traps (.fpoll f) s is t u)
       ∧ (trap = none →
         (∀ t ws, s.awaitFrames hs = (t, .ok ws) → Completes (.fawait f) s is (.done ((t.modCtx is.id
           fun c => ws.foldl (fun c e => (formFawait f).writeDst c e.1 (e.2.setWidth 64)) c).crossEdge is.id)))
         ∧ (∀ t h, s.awaitFrames hs = (t, .error h) →
           Asks (.fawait f) s is (t.parkOn is.id is.c (.split is.id is.i) h) (.frame h))
         ∧ Completes (.fpoll f) s is
           (.done ((s.modCtx is.id fun c => c.emptyLocs (polls.map Prod.fst)).addOp (is.op s (.fpoll polls))))))
  ∧ ∀ (s : State) (h : Word), handleKey h ∉ s.orphans →
    ((s.promiseDone h).frame (handleKey h)).state = .done ∧ (s.promiseDone h).waiting (handleKey h) = []

/-- R148 to R150, R326: records that pass the checks leave where every die has room: `spawn` with null handles, `emit` and
`fire` commit at once; with a handle the frame stores raise `PENDING` first. Without room each of them waits. -/
def Obligations.RecordsLeave : Prop :=
  (∀ (f : XC) (s : State) (is : Issue),
    let spawned := makeRecords f (formRecord f true true true true) is true
    let emitted := makeRecords f (formRecord f false false true true) is false
    let fired := makeRecords f (formRecord f false false true false) is false
    (Reaches (formRecord f true true true true) f.h.bytes [] s is →
      ∀ t, s.checkRecords is false true f.node true spawned = (t, none) →
      let u := t.writeBack is.id
      let rs := spawned.map fun m => (m.lane, m.sent f is m.key)
      (t.roomFor spawned = false → Asks (.spawn f) s is t .retry)
      ∧ (t.roomFor spawned = true → (∀ m ∈ spawned, m.key = 0) →
        Completes (.spawn f) s is (.commit (foldState rs u fun s r => s.send r.2)))
      ∧ (t.roomFor spawned = true → ¬ (∀ m ∈ spawned, m.key = 0) →
        Asks (.spawn f) s is (u.addOp (is.op u (.spawn rs))) (.op u.nextId)))
    ∧ (Reaches (formRecord f false false true true) f.h.bytes [] s is →
      ∀ t, s.checkRecords is false true f.node false emitted = (t, none) →
      (t.roomFor emitted = false → Asks (.emit f) s is t .retry)
      ∧ (t.roomFor emitted = true → Completes (.emit f) s is
        (.commit (foldState emitted (t.writeBack is.id) fun s m => s.send (m.sent f is 0)))))
    ∧ (Reaches (formRecord f false false true false) f.h.bytes [] s is →
      ∀ t, s.checkRecords is true true f.node false fired = (t, none) →
      (t.roomFor fired = false → Asks (.fire f) s is t .retry)
      ∧ (t.roomFor fired = true → Completes (.fire f) s is (.commit (foldState fired (t.writeBack is.id) fun s m =>
        match s.armVia is.c.core m.die f.node with
        | (s, .error _) => s
        | (s, .ok a) => s.fireArm is.c.die (some is.c.graph) m.die f.node a m.args false false a.compl none)))))
  ∧ ∀ (s : State) (n : Nat) (o : Op) (rs : List (Nat × Sent)), s.ops.look n = some o → o.kind = .spawn rs →
    (∀ t, s.raiseFrames rs = .ok t →
      exec (.spawnFrameRaise n) s = .next (foldState rs (t.commitOp n o) fun s r => s.send r.2))
    ∧ ∀ l, s.raiseFrames rs = .error l →
      exec (.spawnFrameRaise n) s = .next (s.refuseOp n o ((Trap.of .frameError).inLanes [l]))

/-- R152, R328: `reord` to a reorder node of the issuing die, once the lanes' earlier loads and reductions are performed (R215) and
the implicit awaits of its lanes' tasks have returned, deposits a record for every acting lane (whatever `AK`: log entry 56), closes its region and ends those lanes; where the unit is full its
oldest deposits are launched and the split waits. R153, R154, R330: `pqpush` and `pqpop` commit; a push joins its die's queue, and
a pop lands in its registers an entry, of any graph (log entry 57), that fewer than 64 smaller keys precede, or the word that says
that the queue is empty. -/
def Obligations.QueuesAndReorderUnit : Prop :=
  (∀ (f : XC) (s : State) (is : Issue), Reaches (formRecord f true false false true) f.h.bytes [] s is →
     let lanes := lanesOf is.acting
     ∀ q t d awaited, (s.settleReads is.id).nodeVia is.c.core is.c.die f.node = (q, .ok d) → d.kind = .reorder →
     (if is.c.perLane then q.awaitTasks is.id lanes else (q, true)) = (t, awaited) →
     (awaited = false → Asks (.reord f) s is t .retry)
     ∧ (awaited = true → Config.depositRoom < t.depositCount is.c.die + lanes.length →
       Asks (.reord f) s is (t.launchOldest is.c.die) .retry)
     ∧ (awaited = true → t.depositCount is.c.die + lanes.length ≤ Config.depositRoom →
       let u := foldState lanes (t.writeBack is.id) fun s l =>
         s.deposit is.c.die f.node (recordKey (formRecord f true false false true) is l)
           { node := f.node, frame := if is.c.perLane then is.c.taskFrame l else 0
             flags := recordFlags f.prio false false false, args := recordArgs f is l, graph := is.c.graph, resumes := none }
       Completes (.reord f) s is (.set (((u.advance is.id is.i is.next).modCtx is.id fun c =>
         { c.newRegion is.i with deposited := if is.c.perLane then c.deposited ||| is.acting else c.deposited }).exitLanes
           is.id is.i is.acting false))))
  ∧ ((∀ (f : XC) (s : State) (is : Issue),
       let pushed := makeRecords f (formRecord f true false true true) is true
       let regs := if f.ak then (lanesOf is.acting).map fun l => tabulate 10 fun i => locV (f.h.dst.toNat + i) l
         else [tabulate 10 fun i => locS (f.h.dst.toNat + i)]
       (Reaches (formRecord f true false true true) f.h.bytes [] s is →
         ∀ t, s.checkRecords is false false f.node false pushed = (t, none) →
         Completes (.pqpush f) s is (.commit (foldState pushed (t.writeBack is.id) fun s m =>
           s.addOp (is.op s (.push m.die [{ graph := is.c.graph, key := m.key.toNat % 2 ^ 31, node := f.node, prio := f.prio
                                            args := m.args }])))))
       ∧ (Reaches (formPqpop f) f.h.bytes [] s is → Completes (.pqpop f) s is
         (.commit ((s.modCtx is.id fun c => c.emptyLocs regs.flatten).addOp (is.op s (.pop is.c.die regs))))))
     ∧ ∀ (s : State) (n : Nat) (o : Op), s.ops.look n = some o →
       (∀ die es, o.kind = .push die es → (s.endOp n).graphEnding o.graph = false →
         exec (.pqPushPerform n) s =
           .next { s.endOp n with pqueues := (s.endOp n).pqueues ++ es.map fun e => (die, e) })
       ∧ ∀ die regs pick, o.kind = .pop die regs →
         (∀ e ∈ s.ops, e.1 < n → e.2.ctx = o.ctx → ∀ d es, e.2.kind = .push d es → d ≠ die) →
         let mine := (s.pqueues.zipIdx.filter fun e => e.1.1 == die).map fun e => (e.2, e.1.2)
         (mine = [] → exec (.pqPopPerform n pick) s = .next (s.popped n o die regs none))
         ∧ ∀ at_ e, mine[pick]? = some (at_, e) → inWindow (mine.map Prod.snd) e = true →
           exec (.pqPopPerform n pick) s =
             .next (({ s with pqueues := dropAt s.pqueues at_ }).popped n o die regs (some e)))

/-- R26, R30, R137: a task whose lanes have all exited, whose operations and implicit await are over, reports. R29, R361: the report
frees its frames, writes its group's lines back, lowers `PENDING` of its own frame, marking it in error for a task in error, and sets
its bit; to a frame of another die the report goes as a packet (R339, log entry 139); R301: a task in error without a frame puts its graph in error. R26: the group ends when every task has reported, and its
context is gone. R306: in a group that is ended every task that has still to report ends in error. The model's choices here: of a
task that `reord` carried away nothing is lowered (log entry 55), and a promise frame without waiters is freed at its owner's exit
whatever children it counts (log entry 141). -/
def Obligations.TasksReport : Prop :=
  (∀ (s t : State) (id task : Nat) (c : Ctx), s.ctxs.look id = some c → task ∈ c.tasks → c.reported.getLsbD task = false →
    c.taskExited task = true → (∀ e ∈ s.ops, e.2.holds id task = false) → s.awaitOwned id task = (t, true) →
    exec (.taskReport id task) s = .next ((t.report id c task).settleGroup id))
  ∧ (∀ (s : State) (id task : Nat) (c d : Ctx),
    let u := (foldState (c.owned.filter fun o => o.task == task) s State.ownerExit).writeBack id
    let err := c.errTasks.getLsbD task
    let bit := fun t : State => t.modCtx id fun c => { c with reported := c.reported ||| laneBit task }
    (c.deposited.getLsbD task = true → s.report id c task = bit u)
    ∧ (c.deposited.getLsbD task = false → c.taskFrame task ≠ 0 →
      let h := c.taskFrame task
      let far : Report := ⟨u.nextId, c.die, c.graph, h, err⟩
      (h.toNat / 2 ^ 30 = c.die → s.report id c task = bit (u.childExit h err))
      ∧ (h.toNat / 2 ^ 30 ≠ c.die →
        s.report id c task = bit { u with reports := u.reports ++ [far], nextId := u.nextId + 1 }))
    ∧ (c.deposited.getLsbD task = false → c.taskFrame task = 0 → err = false → s.report id c task = bit u)
    ∧ (c.deposited.getLsbD task = false → c.taskFrame task = 0 → err = true → ∀ g, u.graphs.look c.graph = some g →
      ∃ e, (s.report id c task).graphs.look c.graph = some e ∧ e.status = (if g.status = 0 then 1 else g.status))
    ∧ (s.ctxs.look id = some d → task < 64 →
      ∃ e, (s.report id c task).ctxs.look id = some e ∧ e.reported.getLsbD task = true))
  ∧ (∀ (s : State) (o : Owned), let k := handleKey o.handle
    let f := s.frame k
    f.state.unused = false → f.gen.toNat % 256 = bitsOf o.handle 7 0 →
    (o.promise = true ∧ f.waiters ≠ 0 → (s.ownerExit o).orphans = insertNat s.orphans k)
    ∧ (¬ (o.promise = true ∧ f.waiters ≠ 0) → (s.ownerExit o).frame k = { Frame.initial with gen := f.gen + 1 }))
  ∧ (∀ (s : State) (h : Word) (err : Bool), h ≠ 0 →
    let f := s.frame (handleKey h)
    let g := (s.childExit h err).frame (handleKey h)
    g.pending = f.pending - 1 ∧ g.gen = f.gen ∧ g.state = (if f.state = .open ∧ err = true then .error else f.state))
  ∧ (∀ (s : State) (id : Nat) (c : Ctx), s.ctxs.look id = some c →
    ∃ d, (s.killGroup id).ctxs.look id = some d ∧ d.killed = true ∧ ∀ task < 64, d.errTasks.getLsbD task = true)
  ∧ ∀ (s : State) (id : Nat) (c : Ctx), s.ctxs.look id = some c →
    ((∃ t ∈ c.tasks, c.reported.getLsbD t = false) → s.settleGroup id = s)
    ∧ ((∀ t ∈ c.tasks, c.reported.getLsbD t = true) → (s.core c.core).latch = [] → (s.settleGroup id).ctxs.look id = none)

/-! ## Memory -/

/-- R53 to R57: a walk goes down from the root table by the pointers of the levels to the entry that decides: one that cannot be
read, is not valid, is no pointer or leaf that may stand there, is poisoned, or does not permit the access gives its cause, and
otherwise `ACCESSED` is set at its home. R57, R58: a TLB holds the leaf of a walk that succeeded, and the first write through it sets
`DIRTY`, at the home and in the TLB. A root outside device memory is a table that may not stand there (log entry 10). R52, R341: a home
that no path reaches is `LINK_LOST`, and so is a host window while the host link is down (log entry 33). R62 to R64: `xbind` walks its address as
a read, and the run goes on over pages that continue the first with the same rights and place; an access through a translation
register is checked against the run alone inside it and takes the TLB's path outside; a stale register binds itself again first,
whatever the offset, and a trap of that is the access's. The model's choices here: an access to which the TLB's leaf gives no right
walks (log entry 29), a run ends where its 22 bits and the canonical addresses do (log entry 39) and at an entry that cannot be read
(log entry 115). -/
def Obligations.TranslationsFollowThePageTable : Prop :=
  ((∀ (s : State) (core root : Nat) (va : DWord) (kind : Nat),
     let w := s.readEntries core root va
     (canonical va = false → s.walk core root va kind = (s, .error (Trap.atAddr .protection va kind)))
     ∧ (canonical va = true → s.inDevice root = false → s.walk core root va kind = (s, .error (Trap.atAddr .mapError va kind)))
     ∧ (s.merges = [] → w.mem = s.mem ∧ w.poison = s.poison ∧ w.ctxs = s.ctxs)
     ∧ ∀ lvl t, lvl < 4 → canonical va = true → s.inDevice root = true → tableAt w root va lvl = some t →
       let at_ := entryPlace t va lvl
       let e := entryAt w t va lvl
       let pa := 65536 * (e.extractLsb' 16 32).toNat
       let size := 2 ^ levelShift lvl
       let place := (e.extractLsb' 9 2).toNat
       let die := (e.extractLsb' 11 2).toNat
       let stands := (e.extractLsb' 4 2).toNat + lvl = 3 ∧ e.extractLsb' 48 15 = 0 ∧ e.extractLsb' 13 3 = 0 ∧ place ≠ 3
         ∧ (e.getLsbD 8 = true → place = 2) ∧ pa % size = 0 ∧ (place ≠ 1 → die = 0) ∧ w.pageInRegion place die pa size = true
       let traps := fun (u : State) (x : Trap) => s.walk core root va kind = (u, .error x)
       let cause := fun c : Cause => traps w (Trap.atAddr c va kind)
       (w.poisonedAt at_ = true → traps (w.logUncorrectable at_) { Trap.atAddr .poison va kind with kind := 4 })
       ∧ (w.poisonedAt at_ = false →
         (e.getLsbD 0 = false → cause .pageFault)
         ∧ (e.getLsbD 0 = true → e.extractLsb' 4 2 = 3 → pointerStands w e lvl = false → cause .mapError)
         ∧ (e.getLsbD 0 = true → e.extractLsb' 4 2 ≠ 3 → ¬ stands → cause .mapError)
         ∧ (e.getLsbD 0 = true → e.extractLsb' 4 2 ≠ 3 → stands →
           (e.getLsbD 63 = true → cause .poison)
           ∧ (e.getLsbD 63 = false → permits e kind = false → cause .protection)
           ∧ (e.getLsbD 63 = false → permits e kind = true →
             s.walk core root va kind = (w.setEntryBits at_ 64, .ok ⟨e ||| 64#64, at_, lvl⟩)))))
   ∧ (∀ e : DWord, permits e 0 = e.getLsbD 2 ∧ permits e 1 = e.getLsbD 1 ∧ permits e 2 = (e.getLsbD 2 && e.getLsbD 1)
     ∧ permits e 3 = e.getLsbD 3)
   ∧ (∀ va : DWord, levelIndex va 0 = (va.extractLsb' 39 13).toNat ∧ levelIndex va 1 = (va.extractLsb' 30 9).toNat
     ∧ levelIndex va 2 = (va.extractLsb' 21 9).toNat ∧ levelIndex va 3 = (va.extractLsb' 16 5).toNat)
   ∧ (∀ (s : State) (home bits : Nat), bits < 2 ^ 64 → (∀ m ∈ s.merges, ∀ i < 8, (home + i) / 128 ≠ m.line) →
     let t := s.setEntryBits home bits
     t.readHome home 8 = (s.readHome home 8 ||| bits) ∧ ∀ a, a < home ∨ home + 8 ≤ a → t.byteAt a = s.byteAt a)
   ∧ (∀ (s : State) (core id root : Nat) (va : DWord) (kind : Nat), canonical va = true →
     let held := (s.core core).tlb.find? fun t => t.covers root va && permits t.leaf kind
     let w := s.countEvent id 0x30 0 1
     (∀ t, held = some t →
       s.tlbOrWalk core id root va kind = (s, .ok ⟨leafAddress t.leaf t.level va, t.leaf.getLsbD 8, some t⟩))
     ∧ (∀ u x, held = none → w.walk core root va kind = (u, .error x) → s.tlbOrWalk core id root va kind = (u, .error x))
     ∧ ∀ u f, held = none → w.walk core root va kind = (u, .ok f) → ∃ v,
       let entry : TlbEntry := ⟨root, f.level, pageOf va f.level, f.leaf, f.home⟩
       s.tlbOrWalk core id root va kind = (v, .ok ⟨leafAddress f.leaf f.level va, f.leaf.getLsbD 8, some entry⟩) ∧ v.mem = u.mem
       ∧ (v.core core).tlb = entry :: (u.core core).tlb.filter fun t => !t.covers root va)
   ∧ (∀ (s : State) (core root : Nat) (va : DWord),
     let clean := (s.core core).tlb.find? fun t => t.covers root va && permits t.leaf 1 && !t.leaf.getLsbD 7
     (clean = none → s.touchPage core root va = s)
     ∧ ∀ t, clean = some t → (s.touchPage core root va).mem = (s.setEntryBits t.home 128).mem
       ∧ t ∉ ((s.touchPage core root va).core core).tlb)
   ∧ (∀ (s : State) (core : Nat) (t : TlbEntry),
     let shown := (s.heldEntry core t).leaf.getLsbD 7
     let u := s.touchEntry core t
     (shown = true → u = s)
     ∧ (shown = false → u.mem = (s.setEntryBits t.home 128).mem
       ∧ ∀ held ∈ (u.core core).tlb, t.same held = true → held.leaf.getLsbD 7 = true))
   ∧ ∀ (s u : State) (id : Nat) (c : Ctx) (va : DWord) (kind : Nat) (m : Mapped),
     s.tlbOrWalk c.core id (s.asroot c.graph) va kind = (u, .ok m) →
     (u.reaches c.die m.pa = true → s.translate id c va kind = (u, .ok m))
     ∧ (u.reaches c.die m.pa = false → s.translate id c va kind = (u, .error (Trap.atAddr .linkLost va kind))))
  ∧ (∀ (s : State) (id core root : Nat) (va : DWord),
     let w := s.countEvent id 0x30 0 1
     (∀ u x, w.walk core root va 0 = (u, .error x) → s.bindRun id core root va = (u, .error x))
     ∧ ∀ u f, w.walk core root va 0 = (u, .ok f) → ∃ v r, s.bindRun id core root va = (v, .ok r)
       ∧ r.vbase = va.setWidth 52 ∧ r.pbase = BitVec.ofNat 48 (leafAddress f.leaf f.level va) ∧ r.read = f.leaf.getLsbD 2
       ∧ r.write = f.leaf.getLsbD 1 ∧ r.coh = f.leaf.getLsbD 8 ∧ r.stale = false ∧ r.valid = true
       ∧ (let size := 2 ^ levelShift f.level
          let base := (va.setWidth 52).toNat
          (base / size + 1) * size / 65536 - base / 65536 ≤ r.limit.toNat))
   ∧ (∀ (s : State) (core root : Nat) (key : Nat × Nat) (fuel va pa units : Nat),
     let w := s.readEntries core root (BitVec.ofNat 64 va)
     (∀ x bad, w.descend (BitVec.ofNat 64 va) 0 root [0, 1, 2, 3] = .error (x, bad) →
       (s.extendRun core root key (fuel + 1) va pa units).2 = units)
     ∧ ∀ f, w.descend (BitVec.ofNat 64 va) 0 root [0, 1, 2, 3] = .ok f →
       let size := 2 ^ levelShift f.level
       let joins := va % 2 ^ 51 ≠ 0 ∧ va % size = 0 ∧ leafPa f.leaf = pa ∧ runKey f.leaf = key ∧ units + size / 65536 < 2 ^ 22
       (joins → s.extendRun core root key (fuel + 1) va pa units =
         (w.setEntryBits f.home (if f.leaf.getLsbD 1 then 192 else 64)).extendRun core root key fuel (va + size) (pa + size)
           (units + size / 65536))
       ∧ (¬ joins → s.extendRun core root key (fuel + 1) va pa units = (w, units)))
   ∧ ∀ (s : State) (id n : Nat) (c : Ctx) (o : Int) (kind : Nat), s.ctxs.look id = some c →
     let r := c.xreg n
     let span : Int := (65536 * r.limit.toNat : Nat) - (r.vbase.toNat % 65536 : Nat)
     let va := r.vbase.signExtend 64 + BitVec.ofInt 64 o
     let inside := r.valid = true ∧ 0 ≤ o ∧ o < span
     ((r.valid && r.stale) = false →
       (inside → r.permits kind = false → s.throughX id n o kind = (s, .error (Trap.atAddr .protection va kind)))
       ∧ (inside → r.permits kind = true → s.reaches c.die (r.pbase.toNat + o.toNat) = true →
         s.throughX id n o kind = (s, .ok ⟨r.pbase.toNat + o.toNat, r.coh, none⟩))
       ∧ (inside → r.permits kind = true → s.reaches c.die (r.pbase.toNat + o.toNat) = false →
         s.throughX id n o kind = (s, .error (Trap.atAddr .linkLost va kind)))
       ∧ (¬ inside → s.throughX id n o kind = s.translate id c va kind))
     ∧ ((r.valid && r.stale) = true →
       (∀ u x, s.bindRun id c.core (s.asroot c.graph) r.va = (u, .error x) → s.throughX id n o kind = (u, .error x))
       ∧ ∀ u x, s.bindRun id c.core (s.asroot c.graph) r.va = (u, .ok x) →
         s.throughX id n o kind = (u.modCtx id fun c => c.setXreg n x).throughX id n o kind)

/-- R187 to R189, R107, R4: every load whose lanes pass their checks completes, or waits for room among its core's outstanding
requests (which requests count, and how it waits, is log entry 140); every store whose lanes pass completes. The split's earlier
reductions, and before a store its loads, are performed first (log entry 50). That the scalar pipe's `sld` and `sst` reach scratch is the
model's reading (log entry 132): R189 speaks of a scratch `sld`, and R45's table gives that pipe no path to scratch. -/
def Obligations.LoadsAndStoresComplete : Prop :=
  (∀ f : XM, LoadCompletes (.ld f) f (formLoad f false) f.h.bytes false
    ∧ LoadCompletes (.sld f) f (formLoad f true) f.h.bytes true
    ∧ StoreCompletes (.st f) f (formStore f false) f.h.bytes false
    ∧ StoreCompletes (.sst f) f (formStore f true) f.h.bytes true)
  ∧ ∀ f : Base, LoadCompletes (.ldB32XBase f) f.xmX (f.smallX (formLoad f.xmX false)) f.bytes false
    ∧ LoadCompletes (.ldB32ScBase f) f.xmSc (formLoad f.xmSc false) f.bytes false
    ∧ StoreCompletes (.stB32XBase f) f.xmX (f.smallX (formStore f.xmX false)) f.bytes false
    ∧ StoreCompletes (.stB32ScBase f) f.xmSc (formStore f.xmSc false) f.bytes false

/-- R65, R188, R315: a lane of a load of naturally aligned bytes finds those of its core's L1 where it holds them, and otherwise the
bytes that the core has marked and, for the rest, the home's, with the core's own writes on their way before it; an uncorrectable
error there makes poison. That the L1's copy and the core's own writes come before the home's bytes is the model's choice among the
candidates of R219 (log entry 9). R105, R187: the words of a lane then land in its registers, where they are still empty; a read at
another die is noted there (R340). R210, R147, R67: an element gather reads the homes, for all lanes of one address at once and with the
fills of their lines, and `fpoll` lands the frame's state and count. -/
def Obligations.ProducersLand : Prop :=
  (∀ (s : State) (core handle : Nat) (ty : Ty) (a : LaneAt) (pa : Nat), a.place = .mem pa → pa % 32 + ty.bytes ≤ 32 →
    let line := (s.core core).l1.at Line.none (pa / 128)
    let held := ∀ i < ty.bytes, line.valid.getLsbD ((pa + i) % 128) = true
    (held → s.readLane core handle ty a = (s, some (natOfBytes (tabulate ty.bytes fun i => coreByte s core (pa + i)))))
    ∧ (¬ held → s.poisonedAt pa = false → (s.readLane core handle ty a).2 = some (natOfBytes (tabulate ty.bytes fun i =>
      if line.marked.getLsbD ((pa + i) % 128) then line.data.at 0 ((pa + i) % 128) else s.missByte core (pa + i))))
    ∧ (¬ held → s.poisonedAt pa = true → (s.readLane core handle ty a).2 = none))
  ∧ (∀ (s t : State) (n : Nat) (o : Op) (scalar : Bool) (reg : Nat) (ty : Ty) (a : LaneAt) (h : Nat) (x : Option Nat),
    s.ops.look n = some o → o.fault = none → o.kind = .load scalar reg ty [a] h [] → reg + ty.regs ≤ 256 →
    (scalar = true → a.lane = 0) → a.lane < 64 → (∀ line, a.line = some line → s.merging n line = false) →
    s.readLane o.core h ty a = (t, x) →
    let words := loadWords scalar reg ty a.lane x
    let noted := t.noteLanes n o (s.farLanes o ty [a]) fun b => (words.filter fun w => scalar || locLane w.1 == b.lane).map fun w => w.2.1
    let read := noted.modOp n fun o => { o with kind := .load scalar reg ty [] h words }
    exec (.producerFill n (laneBit a.lane)) s =
      .next ((read.modCtx o.ctx fun c => c.behind n fun c => c.landValues words).endOp n))
  ∧ (∀ (c : Ctx) (k : Nat) (w : Option Word), c.fills.look k = some .empty → k < 16384 → c.exited.getLsbD (k % 64) = false →
    let d := c.landValues [(k, w, 0)]
    (∀ x, w = some x → d.v.at 0 k = x ∧ d.fills.look k = none) ∧ (w = none → d.fills.look k = some .poisoned))
  ∧ (∀ (s : State) (n : Nat) (o : Op) (reg : Nat) (ty : Ty) (lanes : List LaneAt) (moved : Nat) (chosen : LaneMask),
    s.ops.look n = some o → o.fault = none → o.kind = .gather reg ty lanes moved →
    let now := lanes.filter fun a => lanes.any fun b => chosen.getLsbD b.lane && b.place == a.place
    let later := lanes.filter fun a => !lanes.any fun b => chosen.getLsbD b.lane && b.place == a.place
    let u := foldState (lanesLines now) s fun s line => s.fetchLine o.core 0 (some n) line
    (∀ a ∈ now, u.poisonedPlace a.place = false) →
    let words := now.flatMap fun a => loadWords false reg ty a.lane (some (u.readPlace a.place ty.bytes))
    let t := (u.noteLanes n o now fun a => (words.filter fun w => locLane w.1 == a.lane).map fun w => w.2.1).modCtx o.ctx
      fun c => c.landValues words
    (later = [] → exec (.producerFill n chosen) s = .next (t.endOp n))
    ∧ (later ≠ [] → exec (.producerFill n chosen) s =
      .next (t.goOn n (.gather reg ty later (moved + ty.bytes * now.length)))))
  ∧ ∀ (s : State) (n : Nat) (o : Op) (k : Nat) (h : Word), s.ops.look n = some o → o.fault = none → o.kind = .fpoll [(k, h)] →
    ∀ chosen : LaneMask, chosen.getLsbD (locLane k) = true →
    let f := s.frame (handleKey h)
    let word := BitVec.ofNat 32 (f.state.code + Nat.min f.pending.toNat (2 ^ 28 - 1) * 16)
    exec (.producerFill n chosen) s =
      .next (((s.notePart n (o.die, handleDie h) [some word]).landAt o.ctx n [(k, word)]).endOp n)

/-- R191 to R193, R211, R4: every atomic, `red` and scatter-add whose lanes pass their checks commits, after the split's earlier loads
and reductions (log entry 50), where its core has room among its outstanding requests (log entry 140). R192, R191: one lane of an atomic
is performed at its point of order: its element becomes the new value of the old one and nothing else changes but a page-table entry
that is marked dirty (R57), the old value arrives in `DST`, the next lane is then to be performed, and the last one posts the flags and
wakes the split. An access of the cluster window is performed whole, or refused whole, and an atomic there changes its element alone. -/
def Obligations.AtomicsCompleteAndPerform : Prop :=
  ((∀ f : XM,
     let t := f.h.ty
     let form := fun types => formAtomic f types .write false
     AtomicCompletes (.aadd f) f (form t.inI) .add true
     ∧ AtomicCompletes (.amin f) f (form t.inIS) .min true
     ∧ AtomicCompletes (.amax f) f (form t.inIS) .max true
     ∧ AtomicCompletes (.aand f) f (form t.inW) .and true
     ∧ AtomicCompletes (.aor f) f (form t.inW) .or true
     ∧ AtomicCompletes (.axor f) f (form t.inW) .xor true
     ∧ AtomicCompletes (.aswap f) f (form t.inW) .swap true
     ∧ AtomicCompletes (.acas f) f (formAtomic f t.inW .readWrite false) .cas true
     ∧ AtomicCompletes (.ainc f) f (form (t == .n32 || t == .n64)) .inc true
     ∧ AtomicCompletes (.afadd f) f (formAtomic f t.inF .write true) .add true
     ∧ AtomicCompletes (.red f) f (formRed f) (redOp f.op.toNat) false)
   ∧ ∀ (f : XA) (s : State) (is : Issue) (t : State) (lanes : List LaneAt), Reaches (formScatadd f) f.h.bytes [] s is →
     elementAccess (formScatadd f) is f.h.ty.bytes 2 (pcieAtomic .add f.h.ty) s = (t, .ok lanes) →
     let adds := combineAdds f.h.ty (fpEnv is.c.special.fpctl f.h.rnd)
       (lanes.map (atomicOperand (formScatadd f) .add f.h.ty is.c))
     let w := t.writeBack is.id
     let u := w.countWrites is.id (adds.map (·.at_))
     let room := w.outstanding is.c.core + adds.length ≤ Config.requestRoom
     (room → Completes (.scatadd f) s is
       (.commit (u.addOp (is.op u (.atomic .add f.h.ty f.h.rnd is.c.special.fpctl adds none 0 true)))))
     ∧ (¬ room → Asks (.scatadd f) s is w .retry))
  ∧ (∀ (s : State) (n : Nat) (o : Op), s.ops.look n = some o →
       (∀ op ty rnd fpctl lanes ret flags engine, o.fault = none → o.kind = .atomic op ty rnd fpctl lanes ret flags engine →
         exec (.atomicPerform n) s = .next (s.atomicStep n o op ty rnd fpctl ret flags engine lanes))
       ∧ (∀ op ty rnd fpctl a rest ret flags engine, o.fault = none →
         o.kind = .atomic op ty rnd fpctl (a :: rest) ret flags engine → atomicReads s o a →
         let env := fpEnv fpctl rnd
         let old := atomicOld s o ty a
         let posted := flags ||| (atomicNew op ty env old a.operand.toNat a.compare.toNat).2
         ∃ t, exec (.atomicPerform n) s = .next t ∧ AtomicLands s t o op ty env a
           ∧ (rest ≠ [] → ∃ p, t.ops.look n = some p ∧ p.kind = .atomic op ty rnd fpctl rest ret posted engine)
           ∧ (rest = [] → t.ops.look n = none)
           ∧ ∀ c, s.ctxs.look o.ctx = some c → ∃ d, t.ctxs.look o.ctx = some d
             ∧ (∀ reg, ret = some reg → a.at_.lane < 64 → reg + ty.regs ≤ 256 →
               (ty.wide = false → d.vreg reg a.at_.lane = BitVec.ofNat 32 old)
               ∧ (ty.wide = true → d.d reg a.at_.lane = BitVec.ofNat 64 old))
             ∧ (∀ r l, (∀ reg, ret = some reg → l = a.at_.lane → r ≠ reg ∧ (ty.wide = true → r ≠ reg + 1)) → l < 64 →
               a.at_.lane < 64 → d.vreg r l = c.vreg r l)
             ∧ d.special.fpst =
               (if rest = [] ∧ ret ≠ none then c.special.fpst ||| posted.setWidth 32 else c.special.fpst)
             ∧ ∀ sp, rest = [] → c.splits.look o.split = some sp → sp.wait = .op n →
               d.splits.look o.split = some { sp with wait := .ready })
       ∧ (∀ scalar reg ty op rnd fpctl a ret, o.kind = .window 2 scalar reg ty op rnd fpctl [a] ret → atomicReads s o a →
         s.windowTrap o.graph ty.bytes 2 scalar [a.at_] = none →
         ∃ t, exec (.clusterWindowArrive n) s = .next t ∧ AtomicLands s t o op ty (fpEnv fpctl rnd) a)
       ∧ ∀ kind scalar reg ty op rnd fpctl lanes ret, o.kind = .window kind scalar reg ty op rnd fpctl lanes ret →
         (∀ u, s.windowTrap o.graph ty.bytes kind scalar (lanes.map (·.at_)) = some u →
           exec (.clusterWindowArrive n) s = .next (s.refuseOp n o u))
         ∧ (s.windowTrap o.graph ty.bytes kind scalar (lanes.map (·.at_)) = none →
           let t := s.windowPerform n o kind scalar reg ty op rnd fpctl ret lanes
           exec (.clusterWindowArrive n) s = .next (if kind = 2 then t.commitOp n o else t.passOp n o)))

/-- R191: what an element becomes: the exact sum kept to its width, the lesser or greater value, the bits, the operand, the
operand where the old value equals the comparand, or the count that wraps to 0 at the operand. -/
def Obligations.AtomicNewValues : Prop :=
  ∀ (ty : Ty) (env : FpEnv) (old b compare : Nat), ty.float = false → old < 2 ^ ty.width → b < 2 ^ ty.width →
    (atomicNew .add ty env old b compare).1 = (old + b) % 2 ^ ty.width
    ∧ (atomicNew .and ty env old b compare).1 = old &&& b
    ∧ (atomicNew .or ty env old b compare).1 = old ||| b
    ∧ (atomicNew .xor ty env old b compare).1 = old ^^^ b
    ∧ (atomicNew .swap ty env old b compare).1 = b
    ∧ (atomicNew .cas ty env old b compare).1 = (if old = compare then b else old)
    ∧ (atomicNew .inc ty env old b compare).1 = (if b ≤ old then 0 else old + 1)
    ∧ (ty.signed = false → (atomicNew .min ty env old b compare).1 = min old b
      ∧ (atomicNew .max ty env old b compare).1 = max old b)
    ∧ (ty.signed = true →
      let x := ty.int (BitVec.ofNat 64 old)
      let y := ty.int (BitVec.ofNat 64 b)
      (atomicNew .min ty env old b compare).1 = (if x ≤ y then old else b)
      ∧ (atomicNew .max ty env old b compare).1 = (if y ≤ x then old else b))

/-- R195, R332, R333: `swait` goes on where its condition holds, at once or after the write-back of its park, and otherwise
parks with a watch entry or polls; a poll that finds the condition releases the split, and one that does not leaves it. Every read
arrives at the home slices of its lines (R67, R140). The split's earlier loads (log entry 50) and its core's stores to the line (log
entry 30) come before the read. -/
def Obligations.WaitingOnAWord : Prop :=
  (∀ (f : XM) (s : State) (is : Issue) (t : State) (a : LaneAt), Reaches (formSwait f) f.h.bytes [] s is →
    f.badWindow is = false → f.access is 0 false true s = (t, .ok [a]) →
    (f.space.toNat = 3 → t.windowLane is.c.graph f.h.ty.bytes 0 a = none) →
    let u := ((t.settleReads is.id).performLine is.c.core is.id a.place).askPlace is.c.core is.id a.place f.h.ty.bytes
    let v := u.writeBack is.id
    let test : WatchTest := .compare f.op.toNat f.h.ty ((formSwait f).arg is.c 3 0)
    let holds := fun s : State => test.holds (s.readPlace a.place f.h.ty.bytes)
    u.poisonedPlace a.place = false →
    (holds u = true → Completes (.swait f) s is (.done u))
    ∧ (holds u = false → holds v = true → Completes (.swait f) s is (.done v))
    ∧ (holds u = false → holds v = false → ∃ w : Watch,
      w.place = a.place ∧ w.test = test ∧ w.ctx = is.id ∧ w.split = is.i ∧ w.next = is.next ∧ w.bytes = f.h.ty.bytes
      ∧ Asks (.swait f) s is (v.watchPlace w).1 (v.watchPlace w).2))
  ∧ ∀ (s : State) (id i : Nat) (w : Watch) (c : Ctx),
    (s.watch.find? fun w => w.poll && w.ctx == id && w.split == i) = some w → s.ctxs.look id = some c →
    let r := s.askPlace c.core id w.place w.bytes
    let t := { r with watch := r.watch.filter fun e => !(e.poll && e.ctx == id && e.split == i) }
    let u := t.modSplit id i fun sp => if sp.wait == .poll then { sp with wait := .ready, pc := w.next } else sp
    (w.test.holds (r.readPlace w.place w.bytes) = true → exec (.swaitPoll id i) s = .next (if w.edge then u.crossEdge id else u))
    ∧ (w.test.holds (r.readPlace w.place w.bytes) = false → exec (.swaitPoll id i) s = .next r)

/-- R196, R197, R68: `pf` drops the lanes whose translation fails and completes where no engine writes what the others name (R199, log
entry 131) and its core has room among its
outstanding requests (R4, log entry 140): every lane's line is requested, and its sector read now where the L2 holds the line. The
handle
instructions ask every die; the number that `rhnew` takes is a free value's (log entry 11), one that names no handle takes
`CONTROL_BLOCK`, and when the change has been applied everywhere the split goes on; a handle of the new priority 7 keeps of its lines
what the bound of R69 leaves it (log entry 150). R198, R58: `cbinv`
discards the named control-block copy, whose address is translated (log entry 64), or all of them; a translation invalidation is for a supervisor handler only,
waits for every core, and is then performed. -/
def Obligations.CachesAreDirected : Prop :=
  ((∀ (f : XM) (s : State) (is : Issue),
     (Reaches (formPf f) f.h.bytes [] s is → ∀ h, f.handle is.c = some h →
       ∀ t pas, f.prefetched is (lanesOf is.acting) s = (t, pas) →
       let locked := (pas.map Prod.fst).filter (f.prefetchLocked is t)
       (∀ l ls, locked = l :: ls → Traps (.pf f) s is t ((Trap.atAddr .rangeLock (f.address is.c l) 0).inLanes (l :: ls)))
       ∧ (locked = [] →
         let core := is.c.core
         let sectors := (pas.map fun e => e.2 / 32).eraseDups
         let u := t.requestSectors is.id core h none sectors
         let ready := sectors.filter fun x => !u.merges.any fun m => m.line == x / 4
         (Config.requestRoom < t.outstanding core + sectors.length → Asks (.pf f) s is t .retry)
         ∧ (t.outstanding core + sectors.length ≤ Config.requestRoom → Completes (.pf f) s is
           (.done (foldState ready u fun s x => ((s.claimLine (32 * x) h).loadL1 core (32 * x) 32).1)))))
     ∧ (Reaches (formRh f true false) f.h.bytes [] s is →
       let p := ((formRh f true false).arg is.c 1 0).toNat
       p < 8 →
       (s.freeHandleFrom 4096 (Config.freeChoice s.free) = none →
         Completes (.rhnew f) s is (.done (s.modCtx is.id fun c => (formRh f true false).writeDst c 0 0)))
       ∧ ∀ h, s.freeHandleFrom 4096 (Config.freeChoice s.free) = some h →
         let t := { s with free := s.free + 1 }
         Asks (.rhnew f) s is (t.addOp (is.op t (.handle h (some p) (some f.h.dst.toNat)))) (.op t.nextId))
     ∧ (Reaches (formRh f false true) f.h.bytes [] s is →
       let h := ((formRh f false true).arg is.c 1 0).toNat
       let p := ((formRh f false true).arg is.c 2 0).toNat
       h < 4096 → p < 8 →
       (h = 0 ∨ s.handles.look h = none → Traps (.rhset f) s is s (Trap.of .controlBlock))
       ∧ (h ≠ 0 → s.handles.look h ≠ none →
         Asks (.rhset f) s is (s.addOp (is.op s (.handle h (some p) none))) (.op s.nextId)))
     ∧ (Reaches (formRh f false false) f.h.bytes [] s is →
       let h := ((formRh f false false).arg is.c 1 0).toNat
       h < 4096 →
       (h = 0 ∨ s.handles.look h = none → Traps (.rhdrop f) s is s (Trap.of .controlBlock))
       ∧ (h ≠ 0 → s.handles.look h ≠ none →
         Asks (.rhdrop f) s is (s.addOp (is.op s (.handle h none none))) (.op s.nextId))))
   ∧ ∀ (s : State) (n : Nat) (o : Op) (h : Nat) (prio reg : Option Nat), s.ops.look n = some o → o.kind = .handle h prio reg →
     let t := match prio with
       | some p => foldState (if p = 7 then List.range s.dies else []) { s with handles := s.handles.ins h ⟨p, []⟩ }
         fun s die => s.capTop h die
       | none => { s with handles := s.handles.del h, l2 := s.disown fun e => e.2 == h }
     let u := match reg with
       | some r => t.modCtx o.ctx fun c => c.behind n fun c => c.writeLoc (locS r) (BitVec.ofNat 32 h)
       | none => t
     exec (.handleChangeApplied n) s = .next (u.passOp n o))
  ∧ ((∀ (f : XM) (s : State) (is : Issue),
       (∀ kind i, (kind, i) ∈ [(0, Instr.cbinvNode f), (1, .cbinvArm f), (2, .cbinvTree f)] →
         Reaches (formCbinv f kind) f.h.bytes [] s is → ∀ t m, s.translate is.id is.c (f.address is.c 0) 0 = (t, .ok m) →
         Completes i s is (.done (t.modCore is.c.core fun k =>
           k.forget m.pa (t.asroot is.c.graph) (f.address is.c 0) (kind == 2))))
       ∧ (Reaches (formCbinv f 3) f.h.bytes [] s is →
         Completes (.cbinvAll f) s is (.done (s.modCore is.c.core fun k => { k with blocks := [], leafCache := [] })))
       ∧ (Reaches (formCbinv f 4) f.h.bytes [] s is →
         let allowed := is.inHandler && (is.c.handler.map (·.supervisor)).getD false
         (allowed = false → Traps (.cbinvTr f) s is s (Trap.atAddr .protection (f.address is.c 0) 0))
         ∧ (allowed = true → Asks (.cbinvTr f) s is (s.addOp (is.op s (.invalidate (s.asroot is.c.graph) (f.address is.c 0)
           ((formCbinv f 4).arg is.c 3 0).toNat false))) (.op s.nextId))))
     ∧ ∀ (s : State) (n : Nat) (o : Op) (root : Nat) (va : DWord) (k : Nat) (all : Bool), s.ops.look n = some o →
       o.kind = .invalidate root va k all →
       exec (.translationInvalidateDone n) s = .next ((s.invalidateRange root (va.toNat % 2 ^ 52) k all).passOp n o))

/-! ## Invalidation, barriers and copies -/

/-- R205, R40, R41: `bar` parks its split and the barrier is settled; a split with an entry on its stack, or in a handler,
takes `ILLEGAL`. A side's message that crosses a die boundary releases the other side; where no path between the dies survives, every
waiting split of the team takes `LINK_LOST`, as R41 says. R206 to R209: `tbinit` sets a
barrier up, `tbwait` goes on when the phase is over and parks while it lasts, `tbpoll` reads it; an arrival waits for
its port, which performs it or refuses one beyond the phase. An arrival adds its bytes, counts itself, and as the last one completes
the phase where no byte is missing, or sets `OVERRUN` where more have landed than were expected (R208); a barrier's fields stand in its 16
bytes as R206 lays them out. A write of the barrier's scratch that finds a parked split's phase over releases the split for good, by
the phase alone, whatever `OVERRUN` and `POISON` are (log entry 46). The split's earlier loads and reductions are performed first (R215, R223, log entry 50), and the groups
of a team of one core come to share their marks (R217, log entry 130). -/
def Obligations.BarriersHold : Prop :=
  ((∀ (f : XA) (s : State) (is : Issue), Reaches (formBar f) f.h.bytes [] s is →
     ((is.inHandler = true ∨ is.sp.flat = false) → Traps (.bar f) s is s (Trap.of .illegal))
     ∧ (is.inHandler = false → is.sp.flat = true →
       let t := if is.c.node.pair then s.writeBack is.id else s.settleReads is.id
       Completes (.bar f) s is
         (.set ((t.modSplit is.id is.i fun sp => { sp with wait := .bar }).settleBarrier is.c.team))))
   ∧ ∀ (s : State) (team side : Nat) (t : Team), s.teams.look team = some t → side ∈ t.crossing →
     (s.reachable t.die (s.beside t.die) = true →
       exec (.boundaryBarrierMessage team side) s = .next ((s.modTeam team fun t =>
         { t with
           crossing := t.crossing.erase side, crossed := t.crossed ++ [side]
           messages := t.messages.filter fun e => e.1 != side }).releaseSide team (1 - side)))
     ∧ (s.reachable t.die (s.beside t.die) = false →
       exec (.boundaryBarrierMessage team side) s = .next (s.loseBarrier team)))
  ∧ ((∀ (f : XA) (s : State) (is : Issue),
       let set := formTb f false true
       let wait := formTb f false false
       let poll := formTb f true false
       let free := fun (form : Form) (write : Bool) (b : BarArg) =>
         s.barArg is.c ((form.arg is.c 1 0).setWidth 32) = .ok b ∧ s.lockedScratch b.core b.off 16 write = false
       (Reaches set f.h.bytes [] s is → ∀ b, free set true b →
         let n := (set.arg is.c 2 0).toNat
         let t := (s.settleReads is.id).writeBack is.id
         (0 < n → n < 2 ^ 20 → Completes (.tbinit f) s is (.commit ((s.settleReads is.id).setTbar b.core b.off
           { phase := 0, pendArr := n, arrCnt := n, overrun := false, poison := false, bytes := 0, next := 0 })))
         ∧ Asks (.tbarrive f) s is
           (t.addOp (is.op t (.tbarrive b.core b.off (if b.given then some b.ph else none) n))) (.op t.nextId))
       ∧ (Reaches wait f.h.bytes [] s is → ∀ a, free wait false a →
         let t := s.settleReads is.id
         let b := t.tbar a.core a.off
         (b.overrun = true → Traps (.tbwait f) s is t (Trap.of .barrierOverrun))
         ∧ (b.overrun = false → b.poison = true → Traps (.tbwait f) s is t (Trap.of .poison))
         ∧ (b.overrun = false → b.poison = false →
           (b.phase ≠ a.target b → Completes (.tbwait f) s is (.done (t.crossEdge is.id)))
           ∧ (b.phase = a.target b → exec (.tbwait f) s = .next ((Res.set ((t.writeBack is.id).modSplit is.id is.i
             fun sp => { sp with wait := .phase a.core a.off (a.target b) })).finish is.id is.i is.next))))
       ∧ (Reaches poll f.h.bytes [] s is → ∀ a, free poll false a →
         let t := s.settleReads is.id
         let b := t.tbar a.core a.off
         (b.overrun = true → Traps (.tbpoll f) s is t (Trap.of .barrierOverrun))
         ∧ (b.overrun = false → b.poison = true → Traps (.tbpoll f) s is t (Trap.of .poison))
         ∧ (b.overrun = false → b.poison = false → Completes (.tbpoll f) s is (.done (t.modCtx is.id fun c =>
           poll.writeDst c 0 (BitVec.ofNat 64 ((if b.phase ≠ a.target b then 1 else 0) + b.phase * 16 + b.pendArr * 256)))))))
     ∧ (∀ (s : State) (id i core off t : Nat) (cells : List (Nat × Byte)) (c : Ctx) (sp : Split), s.ctxs.look id = some c →
       c.splits.look i = some sp → sp.wait = .phase core off t →
       let held := fun (u : State) (q : Split) => ∃ d, u.ctxs.look id = some d ∧ d.splits.look i = some q
       let u := s.writeScratch core cells
       held (s.releasePhase id i) { sp with wait := .ready, pc := sp.pc + 12 }
       ∧ (u.barrierPhase core off ≠ t → ∃ q, held u q ∧ q.wait = .ready))
     ∧ ∀ (s : State) (n : Nat) (o : Op) (core off : Nat) (phase : Option Nat) (expected : Nat), s.ops.look n = some o →
       o.kind = .tbarrive core off phase expected →
       let b := s.tbar core off
       (b.pendArr ≠ 0 → (∀ p, phase = some p → p = b.phase) →
         exec (.tbarrivePerform n) s = .next ((s.setTbar core off (b.arrive expected)).commitOp n o))
       ∧ (b.pendArr = 0 ∨ (∃ p, phase = some p ∧ p ≠ b.phase) →
         exec (.tbarrivePerform n) s = .next (s.refuseOp n o (Trap.of .barrierOverrun))))
  ∧ (∀ (b : TBar) (expected : Nat), b.pendArr ≠ 0 →
    let counted := { b with bytes := b.bytes + expected, pendArr := b.pendArr - 1 }
    let next := fun bytes : Int => { b with phase := (b.phase + 1) % 16, bytes := bytes, next := 0, pendArr := b.arrCnt }
    (b.overrun = true ∨ 1 < b.pendArr ∨ 0 < b.bytes + expected → b.arrive expected = counted)
    ∧ (b.overrun = false → b.pendArr = 1 →
      (b.bytes + expected = 0 → b.arrive expected = next b.next)
      ∧ (b.bytes + expected < 0 → b.arrive expected = { counted with overrun := true })))
  ∧ (∀ (s : State) (core off : Nat) (b : TBar), TBarFits b → (s.setTbar core off b).tbar core off = b)
  ∧ ∀ (s : State) (core off : Nat),
    let n := s.readScratch core off 16
    let b := s.tbar core off
    b.phase = n % 2 ^ 4 ∧ b.pendArr = n / 2 ^ 4 % 2 ^ 20 ∧ b.arrCnt = n / 2 ^ 24 % 2 ^ 20 ∧ b.overrun = n.testBit 44
    ∧ b.poison = n.testBit 45 ∧ b.bytes = (BitVec.ofNat 48 (n / 2 ^ 48)).toInt ∧ b.next = (BitVec.ofNat 32 (n / 2 ^ 96)).toInt

/-- R199 to R201: every bulk copy that passes its checks starts and commits, or waits for an overlapping entry. R199, R202, R203, R248,
R250, R266: every shaped copy that passes its checks starts and commits, or waits for its tile, its block or an overlapping entry; a
copy of a poisoned row of a block takes `POISON`. The split's earlier loads have read first (log entry 50). R210: an element gather
empties its registers, counts its lines and commits; a row gather translates every row, then starts as a copy. The model's choices
here: a scratch offset beyond its field takes `SCRATCH_BOUNDS` before the later checks (log entry 59) and the wait for a tile or block
before the binding (log entry 146); a copy that waited checks all again (log entry 145); a row gather translates at issue and reads
at landing (log entry 58), what lines are counted (log entry 40), and which requests have room (log entry 140). -/
def Obligations.CopiesStart : Prop :=
  (∀ f : XA,
     BulkCopies (.cpaGs f) f 0 .s1 .q 0 1 ∧ BulkCopies (.cpaSg f) f 1 .q .s1 1 0 ∧ BulkCopies (.cpaGg f) f 2 .q .q 0 0
     ∧ BulkCopies (.cpaSs f) f 3 .s1 .s1 1 1 ∧ BulkCopies (.cpaSw f) f 4 .q .s1 1 2 ∧ BulkCopies (.cpaWs f) f 5 .s1 .q 2 1)
  ∧ (∀ f : Shaped,
       let idle := fun (_ : Shape) (_ : Issue) (_ : State) => false
       let none_ := fun (_ : Shape) (_ : Issue) => (none : Option Trap)
       let tileBusy := fun (d : Shape) (is : Issue) (s : State) => s.tileBusy is.id is.c (d.soff / 2048)
       let tileSide := fun (d : Shape) (is : Issue) (_ : State) => d.storeSide 2048 is.c.node.tiles .tile
       ShapedCopies (.cpasGs f) f .q (fun d is s => d.scratchSide is s true) (fun d is s x => d.globalSide is s x false) true
         idle none_ (fun _ => none)
       ∧ ShapedCopies (.cpasSg f) f .q (fun d is s => d.scratchSide is s false) (fun d is s x => d.globalSide is s x true)
         false idle none_ (fun _ => none)
       ∧ ShapedCopies (.cpasGt f) f .q tileSide (fun d is s x => d.globalSide is s x false) true tileBusy none_
         (fun d => some (d.soff / 2048))
       ∧ ShapedCopies (.cpasSt f) f .s1 tileSide (fun d is s x => d.farScratch is s x) true tileBusy none_
         (fun d => some (d.soff / 2048))
       ∧ ShapedCopies (.cpasAg f) f .q (fun d is _ => d.storeSide 4096 is.c.node.accs .acc)
         (fun d is s x => d.globalSide is s x true) false (fun d is s => s.blockTargeted is.id (d.soff / 4096))
         (fun d is =>
           if d.rows.any fun r => (is.c.acc (d.soff / 4096)).poisonedIn (d.soff % 4096 + r * d.pitch) d.row then
             some (Trap.of .poison)
           else none) (fun _ => none))
  ∧ (∀ (f : Shaped) (i : Instr) (base : Use),
       (i, base) ∈ [(Instr.cpasGs f, Use.q), (.cpasSg f, .q), (.cpasGt f, .q), (.cpasSt f, .s1), (.cpasAg f, .q)] →
       ∀ (s : State) (is : Issue) (d : Shape), Reaches (f.form base) 20 f.registers s is → f.shape is.c = some d →
       (2 ^ 18 ≤ d.soff → Traps i s is s { Trap.of .scratchBounds with va := BitVec.ofNat 64 d.soff })
       ∧ (d.soff < 2 ^ 18 → 2 ^ 24 < d.row * d.dim1 → Traps i s is s (Trap.of .illegal)))
  ∧ ∀ (f : XA) (s : State) (is : Issue),
    (Reaches (formGath f) f.h.bytes [] s is → ((formGath f).arg is.c 1 0).toNat % f.h.ty.bytes = 0 →
      ∀ t lanes, elementAccess (formGath f) is f.h.ty.bytes 0 false s = (t, .ok lanes) →
      let w := t.writeBack is.id
      let u := w.modCtx is.id fun c => c.emptyLocs ((formGath f).dst.locs is.acting)
      let v := foldState (lanesLines lanes) u fun s line => s.countLine is.id 0x10 line 0
      let room := w.outstanding is.c.core + (lanesLines lanes).length ≤ Config.requestRoom
      (room → Completes (.gath f) s is (.commit (v.addOp (is.op v (.gather f.h.dst.toNat f.h.ty lanes 0)))))
      ∧ (¬ room → Asks (.gath f) s is w .retry))
    ∧ (let form := formGathRow f
       let rb := 16 * f.rowUnits
       let lanes := lanesOf is.acting
       let span := (lanes.getLastD 0 + 1) * rb
       let va := elementAddress form is rb
       Reaches form f.h.bytes [] s is → (form.arg is.c 1 0).toNat % 16 = 0 →
       ∀ b off t rows, s.barArg is.c ((form.arg is.c 3 0).setWidth 32) = .ok b →
         s.ownScratch is.c (form.dstArg is.c 0).toNat span = .ok off →
         (∀ l u bad, s.gatherRows is (s.ownCore is.c) off rb va lanes = (t, rows, (l, u) :: bad) →
           Traps (.gathRow f) s is t (u.inLanes (l :: bad.map Prod.fst)))
         ∧ (s.gatherRows is (s.ownCore is.c) off rb va lanes = (t, rows, []) →
           let locked := lanes.any fun l =>
             t.lockedGlobal is.c.core (t.asroot is.c.graph) ((va l).toNat % 2 ^ 52) rb false
           (locked = true → Asks (.gathRow f) s is t .retry)
           ∧ (locked = false → CopyStarts (.gathRow f) s is t b fun p =>
             { rows := rows, ranges := [scratchRange is (t.ownCore is.c) off span true], binding := p, gather := true
               tile := none })))

/-- R207, R220, R305: the bytes of a copy land at the destination of their row, are counted at its barrier and end the copy when the
last has landed; what a landing reads covers every aligned 8-byte granule of the source that its bytes touch, and what it read besides
stays for later landings; a cause at a byte stops the engine. R204, R303: a sector that cannot be read sets the barrier's `POISON`,
with a fault record of its address. The supervisor entry that a stopped engine asked for is taken by the lowest split of
its group that is ready or waits (log entry 17 says what becomes of one that waits for an operation it has not committed). What a
landing does: the bytes that were read stand at the destination, in memory, in scratch or in a tile, and nothing else there changes but a
page-table entry that is marked dirty (R57); they are counted in the phase to which the copy is bound, and the phase is then checked
(R207, R208); and behind the last of them the operation is over, its range-lock entries are released (R199) and its tile is full. -/
def Obligations.CopiesLand : Prop :=
  (∀ (s : State) (o : Op) (j : Nat) (bytes : List (Option Byte)) (dst : Side),
    let lands := fun at_ : Side => s.landRows o j bytes [(dst, at_)]
    (∀ va pa,
      let v := match dst with
        | .global x => s.touchPage o.core (s.asroot o.graph) (x + BitVec.ofNat 64 j)
        | _ => s
      (∀ m ∈ v.merges, ∀ i < bytes.length, (pa + i) / 128 ≠ m.line) →
      let t := lands (.phys va pa)
      (∀ i b, bytes[i]? = some (some b) → t.byteAt (pa + i) = b)
      ∧ ∀ x, (∀ i b, bytes[i]? = some (some b) → x ≠ pa + i) → t.byteAt x = v.byteAt x)
    ∧ ((∀ x, dst ≠ .global x) →
      (∀ core off, let t := lands (.scratch core off)
        (∀ i b, bytes[i]? = some (some b) → scratchByte t core (off + i) = b)
        ∧ ∀ k x, (∀ i b, bytes[i]? = some (some b) → k ≠ core ∨ x ≠ off + i) → scratchByte t k x = scratchByte s k x)
      ∧ ∀ n off c, s.ctxs.look o.ctx = some c → ∃ d, (lands (.tile n off)).ctxs.look o.ctx = some d
        ∧ (∀ i b, bytes[i]? = some (some b) → (d.tile n).data.at 0 (off + i) = b)
        ∧ ∀ k x, (∀ i b, bytes[i]? = some (some b) → k ≠ n ∨ x ≠ off + i) → (d.tile k).data.at 0 x = (c.tile k).data.at 0 x))
  ∧ (∀ (b : TBar) (bound n : Nat), b.overrun = false → -(2 ^ 47) ≤ b.bytes - n → -(2 ^ 31) ≤ b.next →
    let left := { b with bytes := b.bytes - n }
    (bound = b.phase →
      (b.pendArr ≠ 0 ∨ (n : Int) < b.bytes → b.land bound n = left)
      ∧ (b.pendArr = 0 → b.bytes < n → b.land bound n = { left with overrun := true })
      ∧ (b.pendArr = 0 → b.bytes = n → b.land bound n =
        { left with phase := (b.phase + 1) % 16, bytes := b.next, next := 0, pendArr := b.arrCnt }))
    ∧ (bound ≠ b.phase → bound = (b.phase + 1) % 16 → -(2 ^ 31) ≤ b.next - n → b.pendArr ≠ 0 →
      b.land bound n = { b with next := b.next - n })
    ∧ (bound ≠ b.phase → bound ≠ (b.phase + 1) % 16 → (b.land bound n).overrun = true ∧ (b.land bound n).phase = b.phase))
  ∧ (∀ (s : State) (b : Binding) (n : Nat), n ≠ 0 →
    s.landBytes b n = s.setTbar b.core b.offset ((s.tbar b.core b.offset).land b.phase n))
  ∧ (∀ (s : State) (n : Nat) (o : Op) (rows : List Row) (landed : List (Nat × Nat)) (b : Binding) (gather : Bool) (tile : Option Nat),
    s.ops.look n = some o →
    let t := s.finishCopy n o rows landed b gather tile
    (landedBytes landed < rowBytes rows → ∃ p, t.ops.look n = some p ∧ p.kind = .copy rows landed b gather tile)
    ∧ (rowBytes rows ≤ landedBytes landed → t.ops.look n = none ∧ (∀ r ∈ t.ranges, r.op ≠ n)
      ∧ ∀ c k, s.ctxs.look o.ctx = some c → tile = some k →
        ∃ d, t.ctxs.look o.ctx = some d ∧ d.fills.look (locT k) = none)) ∧
  (∀ (s : State) (n first count : Nat) (o : Op) (rows : List Row) (landed : List (Nat × Nat)) (b : Binding) (gather : Bool)
    (tile : Option Nat) (r : Row) (start : Nat), s.ops.look n = some o → o.kind = .copy rows landed b gather tile →
    o.fault = none → rowAt rows 0 first = some (r, start) → mayLand landed r start first count = true →
    let j := first - start
    let targets := if gather then sameRows rows 0 r.src r.bytes else [(start, r)]
    let key := (targets.head?.map Prod.fst).getD start
    let part := r.toRead (fun i => o.ahead.any fun e => e.1 == key + i) j count
    let lands := fun t : State => exec (.copyLanding n first count) s = .next t
    (∀ t u, s.resolveParts n o r.src 0 (r.src.parts part.1 part.2) = (t, .error u) → lands (t.meetFault n u))
    ∧ ∀ t parts, s.resolveParts n o r.src 0 (r.src.parts part.1 part.2) = (t, .ok parts) →
      (∀ v u, t.resolveRows n o j count targets = (v, .error u) → lands (v.meetFault n u))
      ∧ ∀ v ds, t.resolveRows n o j count targets = (v, .ok ds) → ∀ w read bad, v.readParts n o parts = (w, read, bad) →
        let got := o.take key part.1 j count read
        let posted := foldState targets ((w.landRows o j got.bytes ds).poisonCopy o b bad) fun s _ => s.landBytes b count
        lands ((posted.modOp n fun o => { o with ahead := got.ahead }).finishCopy n o rows
          (landed ++ targets.map fun e => (e.1 + j, count)) b gather tile))
  ∧ (∀ (r : Row) (j k i i' : Nat), j ≤ i' → i' < j + k → i < r.bytes →
    (r.src.address + i) / 8 = (r.src.address + i') / 8 →
    let part := r.toRead (fun _ => false) j k
    part.1 ≤ i ∧ i < part.1 + part.2)
  ∧ (∀ (o : Op) (start lo j k : Nat) (read : List (Option Byte)), o.ahead = [] → lo ≤ j → j + k ≤ lo + read.length →
    (o.take start lo j k read).bytes = (read.drop (j - lo)).take k)
  ∧ (∀ (s t : State) (n part : Nat) (o : Op) (rows : List Row) (landed : List (Nat × Nat)) (b : Binding) (gather : Bool)
    (tile : Option Nat) (u : Trap), s.ops.look n = some o → o.kind = .copy rows landed b gather tile → o.fault = none →
    s.copyFault n o rows part = (t, some u) → u.cause.supervisor = true →
    exec (.engineFault n part) s = .next (t.meetFault n u))
  ∧ ∀ (s : State) (id n i : Nat) (c : Ctx) (rest : List Nat) (o : Op) (u : Trap), s.ctxs.look id = some c →
    c.entries = n :: rest → s.ops.look n = some o → o.fault = some u →
    (c.entrySplit.orElse fun _ => (c.splits.head?).map Prod.fst) = some i → s.ending c = false →
    c.handler = none → c.isActive = true →
    exec (.engineSupervisorEntry id) s =
      .next ((s.modCtx id fun c => { c with entries := rest }).enterFor id i n o u)

/-! ## Vocabulary and matrix operations -/

/-- R178 to R184: the three vocabulary instructions start and commit, after the split's earlier loads have read (log entry 50); without
the unit they take `UNIT_ABSENT`. Each block of
an operation in flight, when its turn on its die has come (R179), is then added to its partial results, and at the end of the last
pass its results land, its flags are posted and `%vprog` reads 0; a cause at the row stops the engine. R182: filing the next element
keeps of the `vtopk` list and the element the k best, ranked by falling value and equal values by rising index: what is not
kept ranks after all that is. That a block out of its operation's turn leaves the state is the model's choice (log entry 28). -/
def Obligations.VocabularyOperations : Prop :=
  (∀ f : XL,
    VocabStarts (.vtopk f) f (formVocab f (.v 2 1) (bitsOf f.imm 24 7 == 0)) 1 (bitsOf f.imm 6 0)
    ∧ VocabStarts (.vsoftmax f) f (formVocab f (if f.row = 1 then .v1 else .q) (f.imm == 0)) 2 0
    ∧ VocabStarts (.vsample f) f (formVocab f .s1 (f.imm == 0)) 3 0)
  ∧ (∀ (k : Nat) (e : Word × Nat) (l : List (Word × Nat)),
    let before := fun a b : Word × Nat => vocabRank b.1 < vocabRank a.1 ∨ (vocabRank b.1 = vocabRank a.1 ∧ a.2 < b.2)
    l.Pairwise before → l.length ≤ k → (∀ x ∈ l, x.2 < e.2) →
    let kept := rankInto k e l
    kept.Pairwise before ∧ kept.length = min k (l.length + 1) ∧ (∀ x ∈ kept, x = e ∨ x ∈ l)
    ∧ ∀ y, y = e ∨ y ∈ l → y ∉ kept → ∀ x ∈ kept, before x y)
  ∧ ∀ (s : State) (n : Nat) (o : Op) (v : Vocab), s.ops.look n = some o → o.kind = .vocab v →
    (s.vocabNext o.die ≠ some n → exec (.vocabBlock n) s = .next s)
    ∧ (s.vocabNext o.die = some n → let served := { s with vocabLast := s.vocabLast.put 0 o.die (n + 1) }
    (∀ t u, served.vocabRow n o v = (t, .error u) → exec (.vocabBlock n) s = .next (t.meetFault n u))
    ∧ ∀ t xs, served.vocabRow n o v = (t, .ok xs) →
      let w := { v.consume (256 * v.blocks) xs with blocks := v.blocks + 1 }
      let kept := fun w : Vocab =>
        (t.goOn n (.vocab w)).modCtx o.ctx fun c => c.setVprog w.progress
      (w.passOver = false → exec (.vocabBlock n) s = .next (kept w))
      ∧ (w.passOver = true → (∀ x, w.endPass xs = .again x → exec (.vocabBlock n) s = .next (kept x))
        ∧ ∀ values flags, w.endPass xs = .results values flags → exec (.vocabBlock n) s =
          .next (((t.landAt o.ctx n values).modCtx o.ctx fun c => (c.postFlags flags).setVprog 0).endOp n)))

/-- R244 to R247: in a group that no thief may take, the tile instructions complete; a shape field out of range or a row
outside the tile takes `TILE_SHAPE`, and a tile that an engine uses makes the split wait. A row or a codebook that is written whole
holds no error any more, and `tld` of a row with one delivers poison (R315, log entry 134). -/
def Obligations.TilesAreMoved : Prop :=
  ∀ (f : XT) (s : State) (is : Issue), is.c.node.steal = false →
    let d := f.h.dst.toNat
    let control : Word := ((formTset f).arg is.c 1 0).setWidth 32
    let shape := decide (10 ≤ bitsOf control 31 28) || bitsOf control 27 22 == 0 || decide (32 < bitsOf control 27 22)
    let written := fun t : Tile => Res.done (s.setCtx is.id (is.c.setTile d t))
    let tcb := ((formTcb f).withDst .t .none).withSrc1 .v1 .none
    (Reaches (formTset f) f.h.bytes [] s is →
      (shape = true → Traps (.tset f) s is s (Trap.of .tileShape))
      ∧ (shape = false → s.tileBusy is.id is.c d = true → Asks (.tset f) s is s .retry)
      ∧ (shape = false → s.tileBusy is.id is.c d = false →
        Completes (.tset f) s is (written { is.c.tile d with control := control &&& 0xFFC00000#32 })))
    ∧ (Reaches (formTget f) f.h.bytes [] s is → Completes (.tget f) s is (.done (s.setCtx is.id
      ((formTget f).writeDst is.c 0 ((is.c.tile f.h.src1.toNat).control.setWidth 64)))))
    ∧ (Reaches tcb f.h.bytes [] s is → 0xFFFF#64 &&& ~~~is.sp.mask = 0 → s.tileBusy is.id is.c d = false →
      (∀ k ∈ locsOf false f.h.src1.toNat 1 0xFFFF#64, is.c.fills.look k = none) →
      Completes (.tcb f) s is (written { is.c.tile d with codebook := (List.range 16).foldl (fun m l =>
        SMap.put m 0 l ((is.c.vreg f.h.src1.toNat l).setWidth 16)) (is.c.tile d).codebook, badCodebook := false }))
    ∧ (Reaches (formTst f) f.h.bytes [] s is →
      let r := ((formTst f).arg is.c 1 0).toNat
      (badTileRow is r = true → Traps (.tst f) s is s (Trap.of .tileShape))
      ∧ (badTileRow is r = false → s.tileBusy is.id is.c d = false →
        let cells := (lanesOf is.acting).flatMap fun l => tabulate 4 fun i =>
          (64 * (r + l / 16) + 4 * (l % 16) + i, (is.c.vreg f.h.src2.toNat l).extractLsb' (8 * i) 8)
        let whole := fun row : Nat => (List.range 64).all fun i => cells.any fun e => e.1 == 64 * row + i
        Completes (.tst f) s is (written { is.c.tile d with
          data := cells.foldl (fun m e => SMap.put m 0 e.1 e.2) (is.c.tile d).data
          badRows := (is.c.tile d).badRows.filter fun row => !whole row })))
    ∧ (Reaches (formTld f) f.h.bytes [] s is →
      let r := ((formTld f).arg is.c 2 0).toNat
      (badTileRow is r = true → Traps (.tld f) s is s (Trap.of .tileShape))
      ∧ (badTileRow is r = false → Completes (.tld f) s is
        (.done ((s.setCtx is.id (is.c.emptyLocs ((formTld f).dst.locs is.acting))).addOp (is.op s (.result
          ((lanesOf is.acting).map fun l => (locV d l,
            if (is.c.tile f.h.src1.toNat).badRows.contains (r + l / 16) then none
            else some (BitVec.ofNat 32 (natOfBytes (tabulate 4 fun i =>
              (is.c.tile f.h.src1.toNat).data.at 0 (64 * (r + l / 16) + 4 * (l % 16) + i)))), (0 : BitVec 5)))))))))

/-- R251 to R255, R257, R267: an `mma` form whose tiles make a shape commits at once; `mmas`
records the phases of its full barriers, after the split's earlier loads and reductions (R215, log entry 50). Each waits for room
first, and the sparse form that the part lacks takes `UNIT_ABSENT`. -/
def Obligations.MatrixOperationsCommit : Prop :=
  ∀ (f : XT) (s : State) (is : Issue), is.c.node.steal = false →
    let own := fun kind => matOpOf f kind is.id (is.c.tile f.h.src1.toNat).fmt (is.c.tile f.h.src2.toNat).fmt
    let member := fun fa => is.c.member is.id is.sp.mask is.c.special.fpctl fa
    let plain := fun (i : Instr) (kind : Nat) =>
      Reaches (formMma f (kind != 1)) f.h.bytes [] s is → f.gang = false →
      badWide is (own kind).fa (own kind).fb f.h.dst.toNat = false →
      let shape := shapeOk (own kind) (is.c.tile f.h.src1.toNat) (is.c.tile f.h.src2.toNat) (is.c.tile f.h.src3.toNat)
      (shape = false → Traps i s is s (Trap.of .tileShape))
      ∧ (shape = true → s.matrixWaits is.id (own kind) = true → Asks i s is s .retry)
      ∧ (shape = true → s.matrixWaits is.id (own kind) = false → Completes i s is
        (.commit (s.commitMatrix (is.op s (.matrix (own kind))) { own kind with members := [member (own kind).fa] })))
    plain (.mma f) 1
    ∧ (s.vectorSparse = false → plain (.mmaBs f) 2) ∧ (s.vectorSparse = true → plain (.mmaVs f) 3)
    ∧ (s.vectorSparse = true → Reaches (formMma f true) f.h.bytes [] s is → f.gang = false →
      badWide is (own 2).fa (own 2).fb f.h.dst.toNat = false → Traps (.mmaBs f) s is s (Trap.of .unitAbsent))
    ∧ (Reaches (formMmas f) f.h.bytes [] s is → badWide is f.fa f.fb f.h.dst.toNat = false →
      let ring : Word := ((formMmas f).arg is.c 1 0).setWidth 32
      let bars : Word := ((formMmas f).arg is.c 2 0).setWidth 32
      let n := ((formMmas f).arg is.c 3 0).toNat
      0 < n → n < 65536 → ring.toNat % 64 = 0 → bars.toNat % 16 = 0 → (pairOf f.fa f.fb).isSome = true →
      ∀ r b, s.ringOf is.c f.stages ring bars = .ok (r, b) →
      let t := s.settleReads is.id
      let op : MatOp :=
        { matOpOf f 4 is.id f.fa f.fb with
          aoff := 0, boff := 0, k := n * Nat.min (tileLength f.fa) (tileLength f.fb), members := [member f.fa], ring := r
          bars := b, stages := n, slots := f.stages
          phases := tabulate f.stages fun i => t.barrierPhase (s.ownCore is.c) (b + 16 * i) }
      (t.matrixWaits is.id op = true → Asks (.mmas f) s is t .retry)
      ∧ (t.matrixWaits is.id op = false → Completes (.mmas f) s is
        (.commit (t.commitMatrix (is.op t (.matrix op)) op))))

/-- R251, R252: `gang` names a gang of the issuing group and up to five others on its core, or none. A ganged form whose tiles, the
leader's B tile among them, make a shape waits for room and then at the latch, after its group's writes (R236); one of whose gang a
group has ended takes `GANG_MISMATCH`. A gang whose members have all arrived with the same words and shapes that stand commits as
one operation; where the words differ every member takes `GANG_MISMATCH`. The model's choices here: what breaks a gang, the end of its
leader among it (log entry 70), and that members whose tiles have changed since they arrived, so that no shape stands, take
`TILE_SHAPE` alone (log entry 147). -/
def Obligations.GangsCommitTogether : Prop :=
  (∀ (f : XT) (s : State) (is : Issue), is.c.node.steal = false → Reaches (formSrcS f) f.h.bytes [] s is →
    let w : Word := ((formSrcS f).arg is.c 1 0).setWidth 32
    let here := fun g => ∃ e, s.groupOf is.c.team g = some e ∧ s.ownCore e.2 = s.ownCore is.c
    let named := 2 ≤ (gangGroups w).length ∧ (gangGroups w).length ≤ 6 ∧ is.c.group ∈ gangGroups w
      ∧ ∀ g ∈ gangGroups w, here g
    (w = 0 ∨ named → Completes (.gang f) s is
      (.done (s.setCtx is.id { is.c with special := { is.c.special with gang := w } })))
    ∧ (w ≠ 0 → ¬ named → Traps (.gang f) s is s (Trap.of .illegal)))
  ∧ (∀ (f : XT) (s : State) (is : Issue) (kind : Nat) (i : Instr),
    (kind, i) ∈ [(1, Instr.mma f), (if s.vectorSparse then (3, .mmaVs f) else (2, .mmaBs f))] → is.c.node.steal = false →
    f.gang = true → is.c.special.gang ≠ 0 →
    let leader := s.gangLeader is.c
    let form := if leader.map Prod.fst = some is.id then formMma f (kind != 1)
      else (formMma f (kind != 1)).withSrc2 .t .none
    Reaches form f.h.bytes [] s is →
    let a := is.c.tile f.h.src1.toNat
    let m := is.c.tile f.h.src3.toNat
    (leader = none → badWide is a.fmt 0 f.h.dst.toNat = false →
      Traps i s is s (Trap.of (if shapeA (matOpOf f kind is.id a.fmt 0) a m then .gangMismatch else .tileShape)))
    ∧ ∀ l, leader = some l →
      let b := l.2.tile f.h.src2.toNat
      let op := matOpOf f kind l.1 a.fmt b.fmt
      badWide is a.fmt b.fmt f.h.dst.toNat = false →
      (shapeOk op a b m = false → Traps i s is s (Trap.of .tileShape))
      ∧ (shapeOk op a b m = true → s.gangBroken is.c = true → Traps i s is s (Trap.of .gangMismatch))
      ∧ (shapeOk op a b m = true → s.gangBroken is.c = false →
        (s.matrixWaits is.id op = true → Asks i s is s .retry)
        ∧ (s.matrixWaits is.id op = false → Asks i s is ((s.writeBack is.id).modCore is.c.core fun k =>
          { k with latch := (k.latch.filter fun x => x.ctx != is.id || x.split != is.i)
              ++ [⟨is.id, is.i, i, op, is.next, is.c.special.gang, is.c.special.fpctl⟩] }) .latch)))
  ∧ ∀ (s : State) (n : Nat) (c : Ctx) (a : Arrival), s.ctxs.look n = some c → s.arrivalOf c.core c.team c.group = some a →
    let found := (gangGroups a.gang).map fun g => s.arrivalOf c.core c.team g
    let all := found.filterMap id
    (∀ x ∈ found, x.isSome = true) → (∀ b ∈ all, s.arrivalWaits b = false) →
    let alike := ∀ b ∈ all, b.words = a.words ∧ b.gang = a.gang
    let bad := all.filter fun b => !s.arrivalOk b
    (¬ alike → exec (.latchFire n) s = .next (s.failLatch c.core all .gangMismatch))
    ∧ (alike → bad = [] → exec (.latchFire n) s = .next (s.fireGang c.core (all.headD a) all))
    ∧ (alike → bad ≠ [] → exec (.latchFire n) s = .next (s.failLatch c.core bad .tileShape))

/-- R254, R257, R261: the engine of a core adds what is left of its current operation in every member and ends it; a stage of a
streaming one first takes its range-lock entry when its full barrier has moved on, with every row of the result poisoned where that
barrier's `POISON` is 1, and is then consumed, and after the last stage it ends. R86, R87, R253, R255, R266: some k-groups of an operation without errors in its operands make of an element of its block the
k-sum, from the element or from 0, of the products of the A row and the B row at those k, as the metadata places A's elements; an S8
sum is exact modulo 2^32. The elements beyond the rows of A and of B stay. The order of the k-groups is the spec's; how many are added
at a time is log entries 76, 80 and 135. -/
def Obligations.MatrixEngineWorks : Prop :=
  (∀ (s : State) (core n : Nat) (o : Op) (m : MatOp), s.matCurrent core = some (n, o, m) →
    (m.kind ≠ 4 → let t := s.matAdd core n m (m.groups - m.kstep)
      exec (.matrixOpComplete core) s = .next (t.endMatrix n (t.matNow n m)))
    ∧ (m.kind = 4 → m.stages ≤ m.done → exec (.matrixOpComplete core) s = .next (s.endMatrix n m))
    ∧ (m.kind = 4 → m.done < m.stages → s.ops.look n = some o → o.core = core →
      let b := s.tbar core m.fullBar
      let range : Range :=
        { core := core, op := n, scratch := true, owner := core, lo := m.slotAt, hi := m.slotAt + 4096, write := false }
      let locked := s.ranges.any fun r : Range => r.op == n
      (locked = true → exec (.mmasStage n) s = .next (s.consumeStage n o m))
      ∧ (locked = false → b.overrun = true →
        exec (.mmasStage n) s = .next ((s.poisonRows o.ctx m (List.range 32)).endMatrix n m))
      ∧ (locked = false → b.overrun = false → b.phase ≠ m.awaitedPhase → s.rangesBlocked core [range] = false →
        let poisoned := if b.poison then s.poisonRows o.ctx m (List.range 32) else s
        exec (.mmasStage n) s = .next
          ({ poisoned with ranges := s.ranges ++ [range] }.modOp n fun o => { o with kind := .matrix { m with spoiled := b.poison } }))))
  ∧ (∀ (s : State) (core n count : Nat) (o : Op) (m : MatOp) (x : MatMember) (c : Ctx) (a b t : Tile) (f : AccFmt) (g : Nat),
    s.ops.look n = some o → o.kind = .matrix m → m.members = [x] → s.ctxs.look x.ctx = some c →
    s.operandTiles core m c = (a, b, t) → pairOf a.fmt b.fmt = some (f, g) → m.errorRows a b t = [] →
    a.rows ≤ 32 → b.rows ≤ 32 → 0 < count →
    let wide := f == .fp64
    let p := m.present
    let first := m.kstep * g
    let pairs := fun row col : Nat => tabulate (Nat.min (first + count * g) p.k - first) fun k =>
      (storedAt m.kind (tileLength a.fmt) t.data row (p.aoff + first + k)).map fun i =>
        (elementBits a.fmt a.data a.codebook row i, elementBits b.fmt b.data b.codebook col (p.boff + first + k))
    let start := fun row col : Nat => if p.zero = true ∧ m.kstep = 0 then 0 else c.accElement wide m.acc row col
    let value := fun fmt bits : Nat => (tileType fmt).fmt.value (bitOf x.fpctl 3) bits
    let sum := fun row col : Nat => match f with
      | .s32 => ksumInt (start row col) ((pairs row col).map fun q => q.map fun q => (s8Value q.1, s8Value q.2))
      | _ => (ksum (if wide then Ty.f64.fmt else Ty.f32.fmt) (bitOf x.fpctl 3) g (start row col)
        ((pairs row col).map fun q => q.map fun q => (value a.fmt q.1, value b.fmt q.2))).1
    ∃ d, (s.matAdd core n m count).ctxs.look x.ctx = some d ∧ ∀ row < 32, ∀ col < 32,
      d.accElement wide m.acc row col =
        if row < a.rows ∧ col < b.rows then sum row col % 2 ^ (if wide then 64 else 32) else c.accElement wide m.acc row col)
  ∧ ∀ (s : State) (n id : Nat) (m : MatOp) (c : Ctx), s.ctxs.look id = some c →
    ∃ d, (s.endMatrix n m).ctxs.look id = some d ∧ d.accs = c.accs

/-- R258, R259: `mbatch` closes the open batch, where it holds an operation, and returns its number; `mwait` names the latest batch
of its number, posts the flags of the batches up to it when their operations are over, and parks until then, after its group's
writes (R236) and after its split's earlier loads (log entry 50), to go on after them behind the `mwait`, with the batch that it named
when it issued; an operand beyond 16 bits, or outside the window of R259, takes
`ILLEGAL`. -/
def Obligations.BatchesAreAwaited : Prop :=
  (∀ (f : XT) (s : State) (is : Issue), is.c.node.steal = false →
    (Reaches (formMbatch f) f.h.bytes [] s is →
      let n := is.c.batchNo + 1
      let c := if is.c.batches.any fun b : Batch => b.number == n then { is.c with batchNo := n } else is.c
      Completes (.mbatch f) s is
        (.done (s.setCtx is.id ((formMbatch f).writeDst c 0 (BitVec.ofNat 64 (batchShown c.batchNo))))))
    ∧ (Reaches (formSrcS f) f.h.bytes [] s is →
      let b := ((formSrcS f).arg is.c 1 0).toNat
      let n := if b = 0 then 0 else batchNamed is.c.batchNo b
      let named := b < 65536 ∧ (batchShown is.c.batchNo + 65536 - b) % 65536 < 32768
      (¬ named → Traps (.mwait f) s is s (Trap.of .illegal))
      ∧ (named → s.batchDone is.id n = true → Completes (.mwait f) s is
        (.done (((s.settleReads is.id).modCtx is.id fun c => c.postBatches n).crossEdge is.id)))
      ∧ (named → s.batchDone is.id n = false → Asks (.mwait f) s is (s.writeBack is.id) (.batch n is.next))))
  ∧ (∀ (s : State) (id i n : Nat) (next : DWord) (c : Ctx) (sp : Split), s.ctxs.look id = some c → c.splits.look i = some sp →
    sp.wait = .batch n next →
    (s.batchDone id n = false → s.settleSplit id i = s)
    ∧ (s.batchDone id n = true → s.settleSplit id i = s.batchReturn id i n next
      ∧ ∃ d, (s.batchReturn id i n next).ctxs.look id = some d ∧ d.splits.look i = some { sp with wait := .ready, pc := next }))
  ∧ ∀ last b : Nat, 0 < b → b < 65536 → let n := batchNamed last b
    (n ≠ 0 → batchShown n = b) ∧ n ≤ last ∧ last < n + 65535

/-- R263 to R265: the moves between accumulator blocks and registers complete where their elements are in the block and no
operation uses it; a poisoned row that a lane reads takes `POISON`. -/
def Obligations.AccumulatorsAreMoved : Prop :=
  ∀ (f : XT) (s : State) (is : Issue), is.c.node.steal = false →
    let blocks := moveBlocks f
    let lanes := lanesOf is.acting
    let per := fun n : Nat => List.range n
    let parts := if f.w64 then 2 else 1
    let first := fun form : Form => (form.arg is.c 1 0).toNat
    let produced := fun (form : Form) (values : List (Nat × Option Word × BitVec 5)) =>
      Res.done ((s.setCtx is.id (is.c.emptyLocs (form.dst.locs is.acting))).addOp (is.op s (.result values)))
    let targeted := fun b => s.blockTargeted is.id b
    let used := fun b => targeted b || s.blockRead is.id b
    ((if f.w64 then f.block + 1 else f.block) < is.c.node.accs →
      (Reaches (formAccld f) f.h.bytes [] s is → badElements is (first (formAccld f)) 1 = false →
        blocks.any targeted = false →
        let at_ := fun l => moveAt f (first (formAccld f) + l)
        let bad := lanes.filter fun l => (is.c.acc (at_ l).1).poisonedWord (at_ l).2
        (bad ≠ [] → Traps (.accld f) s is s ((Trap.of .poison).inLanes bad))
        ∧ (bad = [] → Completes (.accld f) s is (produced (formAccld f) (lanes.flatMap fun l => (per parts).map fun i =>
          (locV (f.h.dst.toNat + i) l, some ((is.c.acc (at_ l).1).data.at 0 ((at_ l).2 + i)), (0 : BitVec 5))))))
      ∧ (Reaches (formAccst f) f.h.bytes [] s is → badElements is (first (formAccst f)) 1 = false → blocks.any used = false →
        let writes := lanes.flatMap fun l =>
          let p := moveAt f (first (formAccst f) + l)
          (per parts).map fun i => (p.1, p.2 + i, ((formAccst f).arg is.c 2 l).extractLsb' (32 * i) 32)
        let c := writes.foldl (fun c (w : Nat × Nat × Word) =>
          c.setAcc w.1 { c.acc w.1 with data := (c.acc w.1).data.put 0 w.2.1 w.2.2 }) is.c
        Completes (.accst f) s is (.done (s.setCtx is.id (blocks.foldl (fun c b =>
          c.clearWritten b ((writes.filter fun w => w.1 == b).map fun w => w.2.1)) c)))))
    ∧ (f.block < is.c.node.accs → Reaches (formAcccvt f) f.h.bytes [] s is →
      let to_ := packType f.fmt
      let n := 32 / to_.width
      let at_ := fun l => first (formAcccvt f) + n * l
      let bad := lanes.filter fun l => (per n).any fun j => (is.c.acc f.block).poisonedWord (at_ l + j)
      badElements is (first (formAcccvt f)) n = false → targeted f.block = false →
      (bad ≠ [] → Traps (.acccvt f) s is s ((Trap.of .poison).inLanes bad))
      ∧ (bad = [] → Completes (.acccvt f) s is (produced (formAcccvt f) (lanes.map fun l =>
        let parts := tabulate n fun j => convert (if f.int then .s32 else .f32) to_ ⟨.rne, bitOf is.c.special.fpctl 3⟩ f.sat
          ((is.c.acc f.block).data.at 0 (at_ l + j)).toNat
        (locV f.h.dst.toNat l, some (BitVec.ofNat 32 (parts.zipIdx.foldl
          (fun m e => m + e.1.1 % 2 ^ to_.width * 2 ^ (to_.width * e.2)) 0)), allFlags parts)))))

/-! ## Trees, pairs and halos -/

/-- R275, R279 to R282, R284, R286: `vtset` binds the descriptor that it reads; the instructions on a bound tree start their
operation on the acting lanes' registers, `vins` commits and `vact` waits for its lanes; an unbound slot takes
`CONTROL_BLOCK`. That `vins` and `vact` drop every clean copy of their core's L1 at issue is the model's choice (log entry 152). -/
def Obligations.TreeInstructionsStart : Prop :=
  (∀ f : XT,
    WalkStarts (.vlook f) f (formWalk f 1 3 f.immSlotPred) 0 0 3 ∧ WalkStarts (.vstencil f) f (formVstencil f) 1 f.sub 3
    ∧ WalkStarts (.vsampTri f) f (formVsamp f 0) 2 0 3 ∧ WalkStarts (.vsampNear f) f (formVsamp f 1) 3 0 3
    ∧ WalkStarts (.vmarch f) f (formWalk f 6 8 f.immSlot) 4 0 8)
  ∧ ∀ (f : XT) (s : State) (is : Issue),
    (Reaches (formVtset f) f.h.bytes [] s is → ∀ t,
      (∀ u, s.readTree is.id is.c ((formVtset f).arg is.c 1 0) = (t, .error u) → Traps (.vtset f) s is t u)
      ∧ ∀ r, s.readTree is.id is.c ((formVtset f).arg is.c 1 0) = (t, .ok r) →
        Completes (.vtset f) s is (.done (t.modCtx is.id fun c => { c with slots := c.slots.ins f.h.dst.toNat r })))
    ∧ (let form := formWalk f 2 3 f.immSlot
       Reaches form f.h.bytes [] s is →
       (is.c.slots.look f.slot = none → Traps (.vins f) s is s (Trap.of .controlBlock))
       ∧ ∀ t, is.c.slots.look f.slot = some t →
         let u := ((s.writeBack is.id).dropCopies is.c.core).modCtx is.id fun c => c.emptyLocs (form.dst.locs is.acting)
         Completes (.vins f) s is
           (.commit (u.addOp (is.op u (.insert (some f.h.dst.toNat) t (coordLanes f is 3) none)))))
    ∧ ∀ i mode, (i, mode) ∈ [(Instr.vactSet f, 0), (.vactClr f, 1), (.vactTrim f, 2)] →
      Reaches (formVact f mode) f.h.bytes [] s is →
      (is.c.slots.look f.slot = none → Traps i s is s (Trap.of .controlBlock))
      ∧ ∀ t, is.c.slots.look f.slot = some t →
        let u := (s.writeBack is.id).dropCopies is.c.core
        Completes i s is (.doneWait (u.addOp (is.op u (.activity mode f.apred t (coordLanes f is 3) []))) (.op u.nextId))

/-- R105, R276, R284, R286: the lanes of a walker operation write their registers, or stop it on a fault that the supervisor
may service; another cause poisons the lane, after its fault record where a page-table entry could not be read (R303). An insertion
goes part by part (log entry 77): where a root entry that another claims leaves it as it was, it has built a slot that it holds, or
its lane gets its index and status, which is an edge (R216); what its part did before a cause that no supervisor services stands (log
entry 19). A lane of a `vact` writes its bit of `APRED`, and the last one ends it. -/
def Obligations.TreeEnginesWork : Prop :=
  ∀ (s : State) (n : Nat) (o : Op), s.ops.look n = some o → o.fault = none →
    (∀ w l ws, o.kind = .walk w → (w.lanes.filter fun e => (laneBit l).getLsbD e.1) = [(l, ws)] →
      let left := w.lanes.filter fun e => e.1 != l
      let finish := fun t : State => if left.isEmpty then t.wakeOp n o
        else t.goOn n (.walk { w with lanes := left })
      (∀ t r, (engWalk o w ws).go s = (t, .ok r) →
        exec (.producerFill n (laneBit l)) s = .next (finish (t.modCtx o.ctx fun c => c.walked w l r)))
      ∧ ∀ t u, (engWalk o w ws).go s = (t, .error u) →
        exec (.producerFill n (laneBit l)) s = .next (if u.cause.supervisor then t.meetFault n (u.inLane l)
          else finish ((t.tellWalk o (u.inLane l)).modCtx o.ctx fun c => c.walkFailed w l u)))
    ∧ (∀ values lanes, o.kind = .result values →
      let parts := values.partition fun e => lanes.getLsbD (locLane e.1)
      exec (.producerFill n lanes) s = .next ((s.modCtx o.ctx fun c => c.behind n fun c => c.landValues parts.1).keepOp n
        parts.2.isEmpty (.result parts.2)))
    ∧ (∀ reg t l ws rest held, o.kind = .insert reg t ((l, ws) :: rest) held →
      let work := (engInsert o t held (coordOf ws 0) (coordOf ws 1) (coordOf ws 2)).go s
      let finish := fun (u : State) (r : Except Trap (Word × Word)) =>
        ((u.modCtx o.ctx fun c => c.inserted reg l r).crossEdge o.ctx).keepOp n rest.isEmpty (.insert reg t rest none)
      (∀ u, work = (u, .ok .busy) → exec (.allocatorInsertDone n) s = .next s)
      ∧ (∀ u h, work = (u, .ok (.holds h)) → exec (.allocatorInsertDone n) s =
        .next (u.goOn n (.insert reg t ((l, ws) :: rest) (some h))))
      ∧ (∀ u st, work = (u, .ok (.failed st)) →
        exec (.allocatorInsertDone n) s = .next (finish u (.ok (0, BitVec.ofNat 32 st))))
      ∧ (∀ u k made, work = (u, .ok (.found k made)) →
        exec (.allocatorInsertDone n) s = .next (finish u (.ok (BitVec.ofNat 32 k, if made then 1 else 0))))
      ∧ ∀ u x, work = (u, .error x) → exec (.allocatorInsertDone n) s =
        .next (if x.cause.supervisor then s.meetFault n (x.inLane l)
          else finish (u.tellWalk o (x.inLane l)) (.error x)))
    ∧ ∀ mode apred t l ws rest failed, o.kind = .activity mode apred t ((l, ws) :: rest) failed →
      let finish := fun (u : State) (present : Bool) (failed : List Trap) =>
        let v := u.modCtx o.ctx fun c => c.setApred apred l present
        if rest.isEmpty then v.activityOver n o failed
        else v.goOn n (.activity mode apred t rest failed)
      let work := (engActivity o t mode (coordOf ws 0) (coordOf ws 1) (coordOf ws 2)).go s
      (∀ u present, work = (u, .ok present) → exec (.atomicPerform n) s = .next (finish u present failed))
      ∧ ∀ u x, work = (u, .error x) → exec (.atomicPerform n) s =
        .next (if x.cause.supervisor then u.meetFault n (x.inLane l)
          else finish (u.tellWalk o (x.inLane l)) false (failed ++ [x.inLane l]))

/-- R289 to R292: a `dtrav` whose descriptors, node and resume block stand commits as a traversal; without the pair walker it
takes `UNIT_ABSENT`. The walker then works on the oldest traversal of its die, unless that one has stopped on a fault. R291: a
saved stack entry reads back as the pair that it was made of, whatever the places: six words in a BH4 hierarchy, three below
the root of an octet tree and none at it. -/
def Obligations.PairsAreTraversed : Prop :=
  (∀ (f : XT) (s : State) (is : Issue), Reaches (formDtrav f) f.h.bytes [] s is →
    (s.hasPairWalker = false → Traps (.dtrav f) s is s (Trap.of .unitAbsent))
    ∧ (s.hasPairWalker = true → let a := f.travArgs (formDtrav f) is
      (∀ u, a.check = some u → Traps (.dtrav f) s is s u)
      ∧ (a.check = none → ∀ t ha hb, (s.writeBack is.id).travTargets f is a = (t, .ok (ha, hb)) →
        t.refusesSpawn a.frame = false → ∀ u reload, t.resumeDepth f is a = (u, .ok reload) →
        let d : Dtrav :=
          { dst := f.h.dst.toNat, hierA := ha, hierB := hb, block := a.block, frame := a.frame, args := a.args
            node := f.node, prio := f.prio, self := f.self, stack := if reload.isSome then [] else rootPair ha hb
            reload := reload, emitted := 0, order := u.nextId }
        let v := u.modCtx is.id fun c => c.emptyLocs (locsOf true d.dst 3 0)
        Completes (.dtrav f) s is (.commit (v.addOp (is.op v (.dtrav d)))))))
  ∧ (∀ (d : Dtrav) (p : RefPair),
    let words := fun (h : Hierarchy) (r : Word) => if h.tree = none then 6 else if r = octetRoot then 0 else 3
    p.placeA.length = words d.hierA p.a → p.placeB.length = words d.hierB p.b → entryPair d p.entry = p)
  ∧ ∀ (s : State) (die pops n : Nat) (o : Op) (d : Dtrav), s.traversal die = some (n, o, d) → o.fault = none →
    exec (.pairWalkerEmit die pops) s = .next (s.runTraversal n o false pops d)
    ∧ exec (.pairWalkerEnd die pops) s = .next (s.runTraversal n o true pops d)

/-- R293 to R295: `halo` and its posting form commit; the engine takes `CONTROL_BLOCK` where the formats differ, copies its leaves
piece by piece, and its last part posts once at the step frame, which counts down and, at its last posting, starts over with the
next step (log entry 81). `stepb` parks while the frame's step is its operand and goes on when it has changed; the group's stores come
before the read (log entry 30). Which clean copies of its core's L1 a halo drops at issue is the model's choice (log entry 152). -/
def Obligations.HalosPostTheirSteps : Prop :=
  (∀ (f : XT) (s : State) (is : Issue),
    (Reaches (formHaloPost f) f.h.bytes [] s is → ∀ t pa, s.stepFrame is ((formHaloPost f).arg is.c 3 0) 2 = (t, .ok pa) →
      let u := (t.writeBack is.id).dropClean is.c.core pa 16
      Completes (.haloPostOnly f) s is (.commit (u.addOp (is.op u (.halo none [] pa none 0 false)))))
    ∧ (Reaches (formHalo f) f.h.bytes [] s is →
      let origin := tabulate 3 fun i => is.c.s (f.h.src1.toNat + i)
      let replica := (formHalo f).arg is.c 2 0
      let frame := (formHalo f).arg is.c 3 0
      (∀ w ∈ origin, w.toNat % 8 = 0) → replica.toNat % 64 = 0 → frame.toNat % 16 = 0 → canonical replica = true →
      canonical frame = true →
      (is.c.slots.look f.slot = none → Traps (.halo f) s is s (Trap.of .controlBlock))
      ∧ ∀ source t r u pa, is.c.slots.look f.slot = some source → s.readTree is.id is.c replica = (t, .ok r) →
        t.stepFrame is frame 2 = (u, .ok pa) →
        let v := (u.writeBack is.id).dropCopies is.c.core
        Completes (.halo f) s is (.commit (v.addOp (is.op v (.halo (some (source, r)) origin pa none 0 false)))))
    ∧ (Reaches (formStepb f) f.h.bytes [] s is →
      let va := (formStepb f).arg is.c 1 0
      let step : Word := ((formStepb f).arg is.c 2 0).setWidth 32
      step.toNat < 65536 → va.toNat % 16 = 0 → ∀ t m, s.translate is.id is.c va 0 = (t, .ok m) →
      let u := (t.writeBack is.id).askHome is.c.core is.id m.pa 16
      let frame := u.readHome m.pa 16
      (u.poisonedAt m.pa = true → Traps (.stepb f) s is (u.logUncorrectable m.pa) { Trap.of .poison with va := va })
      ∧ (u.poisonedAt m.pa = false → frame / 2 ^ 80 % 2 = 1 → Traps (.stepb f) s is u { Trap.of .poison with va := va })
      ∧ (u.poisonedAt m.pa = false → frame / 2 ^ 80 % 2 ≠ 1 → frame / 2 ^ 64 % 65536 ≠ step.toNat →
        Completes (.stepb f) s is (.done (u.crossEdge is.id)))
      ∧ (u.poisonedAt m.pa = false → frame / 2 ^ 80 % 2 ≠ 1 → frame / 2 ^ 64 % 65536 = step.toNat → ∃ w : Watch,
        w.place = .mem m.pa ∧ w.test = .step step ∧ w.ctx = is.id ∧ w.split = is.i ∧ w.next = is.sp.pc
        ∧ Asks (.stepb f) s is (u.watchPlace w).1 (u.watchPlace w).2)))
  ∧ (∀ (s : State) (n : Nat) (o : Op) (step : Nat), s.ops.look n = some o →
    (∀ os h k on, o.kind = .halo none os step h k on → exec (.haloPost n) s = .next ((s.postStep o.ctx step false).endOp n))
    ∧ ∀ src dst origin held moved active, o.kind = .halo (some (src, dst)) origin step held moved active → o.fault = none →
      let w : HaloWork := ⟨src, dst, origin, step, held, moved, active⟩
      (s.heldLeaf n false = none → src.fmt ≠ dst.fmt →
        exec (.haloPost n) s = .next (s.failEngine n (Trap.of .controlBlock)))
      ∧ (∀ t, s.heldLeaf n false = none → (engHaloFind o src dst origin held).go s = (t, .ok .absent) →
        exec (.haloPost n) s = .next ((t.postStep o.ctx step false).endOp n))
      ∧ (∀ t h, s.heldLeaf n false = none → (engHaloFind o src dst origin held).go s = (t, .ok (.holds h)) →
        exec (.haloPost n) s = .next (t.keepHalo n { w with held := some h }))
      ∧ ∀ a b t, s.heldLeaf n false = some a → s.heldLeaf n true = some b →
        (∀ k on, moved < dst.haloBytes → (engHaloPiece o dst a b moved).go s = (t, .ok (k, on)) →
          exec (.haloPost n) s = .next (t.keepHalo n { w with moved := moved + k, active := active || on }))
        ∧ (dst.haloBytes ≤ moved → active = true → (engHaloMark o dst origin).go s = (t, .ok ()) →
          exec (.haloPost n) s = .next ((t.postStep o.ctx step false).endOp n))
        ∧ (dst.haloBytes ≤ moved → active = false → exec (.haloPost n) s = .next ((s.postStep o.ctx step false).endOp n)))
  ∧ ∀ (count left step : Nat), count < 2 ^ 32 → 0 < left → left < 2 ^ 32 → step < 2 ^ 16 →
    stepPosted (count + left * 2 ^ 32 + step * 2 ^ 64) false =
      count + (if left = 1 then count else left - 1) * 2 ^ 32
        + (if left = 1 then (step + 1) % 2 ^ 16 else step) * 2 ^ 64

/-! ## The memory system, arms and scheduling -/

/-- R224, R236, R67, R70, R316, as events of the agenda (log entry 28): a write is performed unless an earlier one of its core meets
it; an evicted line's marked bytes are sent on their way with the line's handle (log entry 114), where the core has room for one more
request (log entry 140), and the L1 holds the line no more; a fill serves every request of its line, allocates it where a way is
free, and otherwise replaces an unowned line (log entry 129), or acts on the weakest handle of the set unless that has priority 7; a
write does the same in the model's own sets (log entry 129), and leaves the L2 as it is where no room can be made; a producer that
has not landed 2^24 cycles after its issue is abandoned when that cycle is over, so from the next cycle on (log entry 107). -/
def Obligations.WritesFillsAndLateProducers : Prop :=
  (∀ (s : State) (n : Nat) (w : Write), s.writes[n]? = some w →
    let behind := ∃ e ∈ s.writes.take n, e.core = w.core ∧ ∃ x ∈ e.bytes, ∃ y ∈ w.bytes, x.1 = y.1
    let t := s.performWrite w
    (behind → exec (.memoryWritePerform n) s = .next s)
    ∧ (¬ behind → exec (.memoryWritePerform n) s = .next { t with writes := dropAt t.writes n })
    ∧ ((∀ m ∈ s.merges, ∀ x ∈ w.bytes, x.1 / 128 ≠ m.line) → t.mem = (s.writeCells w.bytes).mem
      ∧ ∀ e, w.bytes.head? = some e → s.l2.look (e.1 / 128) = none → s.setFull (e.1 / 128) = true →
        s.makeWay (s.homeOf (128 * (e.1 / 128))).1 (s.setOf (e.1 / 128)) = none → t.l2 = s.l2))
  ∧ (∀ (s : State) (core line : Nat) (l : Line), (s.core core).l1.look line = some l → l.marked ≠ 0 →
    (s.requestsFit core 1 = false → exec (.l1EvictWriteback core line) s = .next s)
    ∧ (s.requestsFit core 1 = true → ∃ t, exec (.l1EvictWriteback core line) s = .next t
      ∧ (∃ gs, t.writes = s.writes ++ [⟨s.nextId, core, l.cells line, l.handle, gs⟩])
      ∧ (t.core core).l1.look line = none ∧ t.mem = s.mem))
  ∧ (∀ (s : State) (line handle : Nat) (set : List Nat) (full : Bool),
    let die := (s.homeOf (128 * line)).1
    ((s.merges.find? fun m => m.line == line).bind fun m => (m.requests.head?).map Request.handle) = some handle →
    (∀ n ∈ set, n ≠ line ∧ s.l2.look n ≠ none ∧ (s.homeOf (128 * n)).1 = die) →
    let fill := Instr.l2Fill line handle set full
    let filled := fun t : State => exec fill s = .next ({ t with l2 := t.l2.ins line 0 }.serveLine line)
    (full = false ∨ set = [] → exec fill s = .next ((s.allocLine line).serveLine line))
    ∧ (full = true → (∃ n ∈ set, s.lineOwner n = none) → filled (s.replaceLine set)
      ∧ ∃ n ∈ set, s.lineOwner n = none ∧ (s.replaceLine set).l2 = s.l2.del n)
    ∧ ∀ owners h p, full = true → set ≠ [] → set.map s.lineOwner = owners.map some → weakest owners = some (h, p) →
      (7 ≤ p → exec fill s = .next (s.serveLine line))
      ∧ (p = 0 → filled { s with l2 := s.l2.filter fun e => !s.ownedOn die h e })
      ∧ (0 < p → p < 7 → filled ((s.demote die h).replaceLine set)))
  ∧ (∀ (s : State) (line : Nat), ∀ m ∈ (s.serveLine line).merges, m.line ≠ line)
  ∧ ∀ (s : State) (n : Nat) (o : Op), s.ops.look n = some o →
    (s.clock ≤ o.born + 2 ^ 24 → exec (.producerWatchdog n) s = .next s)
    ∧ (o.born + 2 ^ 24 < s.clock → o.kind.dests ≠ [] → exec (.producerWatchdog n) s = .next (s.abandon n .watchdog 0))

/-- R319 to R321: a doorbell of 8 bytes fires its arm where the arm's entry allows it, with the words of its message window, and
is discarded and counted where it does not; a tagged message fires its arm, is discarded, or waits at its port. An entry that cannot
be read is reported as well (R315; in which entries of the log, log entry 101). -/
def Obligations.ArmsFire : Prop :=
  (∀ (s : State) (die arm : Nat) (value : DWord), s.linkUp = true → die < s.dies → arm < 8192 →
    s.recordsFit die 1 = true →
    let doorbell := Instr.hostDoorbell die arm 8 value
    (s.armHome die arm = none →
      exec doorbell s = .next ((s.reportEntry (s.armPa die arm)).logDiscarded die 5 arm))
    ∧ ∀ a, s.armHome die arm = some a →
      (value.toNat % 32 = 0 ∧ a.fires 0 (s.kindHome die a.node) = true → exec doorbell s =
        .next (s.fireArm die none die arm a (tabulate 8 fun i => s.armWord die arm i) true false
          (if value = 0 then a.compl else value) none))
      ∧ (¬ (value.toNat % 32 = 0 ∧ a.fires 0 (s.kindHome die a.node) = true) →
        exec doorbell s = .next ((s.reportKind die a.node).logDiscarded die 5 arm)))
  ∧ (∀ (s : State) (die arm n : Nat) (value : DWord), n ≠ 8 → exec (.hostDoorbell die arm n value) s = .next s)
  ∧ ∀ (s : State) (port : Nat) (tag : Word) (header : List Word) (payload : List Byte),
    port < s.links → (s.port port).up = true → payload.length ≤ 4096 → (s.port port).held = [] →
    let message := Instr.linkMessage port tag header payload
    let die := port / 2
    (s.delivery die tag = .refused → exec message s =
      .next ((s.reportArms die tag).logDiscarded die 4 port))
    ∧ (s.delivery die tag = .waits → exec message s =
      .next (s.modPort port fun p => { p with held := p.held ++ [(tag, header, payload)] }))
    ∧ ∀ arm a slot, s.delivery die tag = .fires arm a slot →
      exec message s = .next ((s.reportArms die tag).fireMessage port arm slot a header payload)

/-- R324, R327, R328, R340: a record that no earlier firing of its arm precedes enters its bin, or is a scan request, and the number of its
packet is kept; a bin's timer
launches it when it has run out, and not before, and by itself 511 cycles later, unless the launch of another has discarded it; a bin that pair-walker records have filled launches
in an event of its own (log entry 20); the scanner reaches a leaf, or its scan ends. The events are the agenda's (log entries 28 and
89). -/
def Obligations.BinsAndScans : Prop :=
  (∀ (s : State) (n : Nat) (r : Sent), s.sent[n]? = some r → (∀ e ∈ s.sent.take n, r.arm = none ∨ e.arm ≠ r.arm) →
    let entered := (({ s with sent := dropAt s.sent n }).enterBin r.die true r.record).noteHinge r.source r.die r.number []
    (s.forSweep r = false → exec (.binRecordArrive n) s = .next entered ∧ exec (.scanRequest n) s = .next s)
    ∧ (s.forSweep r = true → exec (.scanRequest n) s = .next entered ∧ exec (.binRecordArrive n) s = .next s))
  ∧ (∀ (s : State) (die node g : Nat) (b : Bin) (d : Node), s.binOf die node g = some b → s.nodeHome die node = .ok d →
    let due := (d.timer ≠ 0 ∧ b.timer + d.timer ≤ s.clock) ∨ d.count ≤ b.records.length
    (due → exec (.binTimerExpiry die node g) s = .next (s.launchBin b d.count))
    ∧ (¬ due → exec (.binTimerExpiry die node g) s = .next s)
    ∧ (s.bins = [b] → d.timer ≠ 0 → b.timer + d.timer + 511 ≤ s.clock → s.launchOverdue = s.launchBin b d.count)
    ∧ (s.bins = [b] → (d.timer = 0 ∨ s.clock < b.timer + d.timer + 511) → s.launchOverdue = s)
    ∧ ∀ b', s.bins = [b, b'] → d.timer ≠ 0 → b.timer + d.timer + 511 ≤ s.clock → b' ∉ (s.launchBin b d.count).bins →
      s.launchOverdue = s.launchBin b d.count)
  ∧ (∀ (s : State) (die node key : Nat) (d : Deposit) (n : Node),
    (s.deposits.find? fun d => d.die == die && d.node == node && d.key.toNat == key) = some d →
    s.nodeHome die node = .ok n →
    let due := n.timer ≠ 0 ∧ d.born + n.timer ≤ s.clock
    (due → exec (.reorderTimerExpiry die node key) s = .next (s.launchKey die node d.key d.record.graph n.count))
    ∧ (¬ due → exec (.reorderTimerExpiry die node key) s = .next s))
  ∧ ∀ (s t : State) (n : Nat) (c : Scan), s.scans.look n = some c →
    (∀ u, (engScan (c.op n) c).go s = (t, .error u) → exec (.scanLeaf n) s = .next (t.failScan n c u))
    ∧ ∀ tree, ((engScan (c.op n) c).go s = (t, .ok (tree, none)) → exec (.scanLeaf n) s = .next (t.endScan n c false))
      ∧ ∀ r, (engScan (c.op n) c).go s = (t, .ok (tree, some r)) → exec (.scanLeaf n) s = .next (t.sweepLeaf n c tree r)

/-- R329, R331, R233: the next team is placed at an offset that is free on its cores, with a record or a block of records for
each group and its allocation zeroed, and no team passes one of its own or a higher rank that was the head of the queue when it had
waited 2^16 cycles, which every cycle looks at; a split becomes
urgent; the completion record of a graph is written, at a physical address (log entry 87), when nothing of it is left. A team is placed
with its allocation zeroed (R25), `s8` at its offset (R47), and a record, a block of records or a leaf in the registers of each group, one
record in each lane of a group of tasks (R24, R325, R361). How places are
ranked is log entry 88; the events are the agenda's (log entry 28). -/
def Obligations.TeamsArePlaced : Prop :=
  (∀ (s t : State) (die offset index : Nat) (w : Waiting) (p : Spot), s.nextTeam die = some (index, w, p) →
    (∀ e ∈ w.cores p.core, s.scratchFree e.1 offset (w.node.allocation (w.node.groupsFor w.records.length)) = true) →
    s.wakeCores ((w.cores p.core).map Prod.fst) = (t, true) →
    exec (.teamPlace die offset) s = .next (t.placeTeam index w p offset))
  ∧ (∀ (s : State) (die index : Nat) (w : Waiting) (p : Spot) (h : Nat × Waiting), s.nextTeam die = some (index, w, p) →
    ((s.ranked die).head? = some h → h.2.since + 2 ^ 16 ≤ s.clock → (index, w) = h)
    ∧ (h ∈ s.ranked die → h.2.aged = true → w.prio ≤ h.2.prio → (index, w) = h))
  ∧ (∀ (s : State) (die index : Nat) (w : Waiting), (s.ranked die).head? = some (index, w) →
    (w.since + 2 ^ 16 ≤ s.clock → exec (.placementHeadAged die) s =
      .next { s with placeQ := changeAt s.placeQ index fun w => { w with aged := true } })
    ∧ (s.clock < w.since + 2 ^ 16 → exec (.placementHeadAged die) s = .next s)
    ∧ (die < s.dies → w.since + 2 ^ 16 ≤ s.clock → s.ageHeads.placeQ[index]? = some { w with aged := true }))
  ∧ (∀ (s : State) (id i : Nat) (c : Ctx) (sp : Split), s.ctxs.look id = some c → c.splits.look i = some sp →
    ∃ t d, exec (.splitUrgent id i) s = .next t ∧ t.ctxs.look id = some d ∧ d.splits.look i = some
      (if sp.hold = 0 ∧ 32 ≤ sp.missed then { sp with urgent := true } else sp))
  ∧ ∀ (s : State) (n : Nat) (g : Graph), s.graphs.look n = some g →
    (s.graphOver n = false → exec (.graphCompletionRecord n) s = .next s)
    ∧ (s.graphOver n = true → g.linkSlot = none →
      let pa := g.compl.toNat
      let left := fun t : State =>
        { t with graphs := t.graphs.del n, pqueues := t.pqueues.filter fun e => e.2.graph != n
                 ops := t.ops.filter fun e => e.2.graph != n }
      (pa = 0 → exec (.graphCompletionRecord n) s = .next (left s))
      ∧ (pa ≠ 0 → (inHost pa = true → g.hostLost = false ∧ s.linkUp = true) → (inHost pa = false → s.inDevice pa = true) →
        exec (.graphCompletionRecord n) s = .next (left (s.writeHome (cellsAt pa (g.recordBytes s.ref))))))
  ∧ ∀ (s : State) (index offset : Nat) (w : Waiting) (p : Spot), w.node.width ≤ 64 →
    let groups := w.node.groupsFor w.records.length
    let size := w.node.allocation groups
    let t := s.placeTeam index w p offset
    let holds := fun (c : Ctx) (l : Nat) (r : Record) =>
      (∀ i < 8, c.vreg i l = r.args.getD i 0) ∧ c.taskFrame l = r.frame ∧ (8 < w.node.regs → c.vreg 8 l = r.frame)
      ∧ (9 < w.node.regs → c.vreg 9 l = r.flags.setWidth 32) ∧ c.exited.getLsbD l = false
    (∀ e ∈ w.cores p.core, ∀ x, offset ≤ x → x < offset + size → scratchByte t e.1 x = 0)
    ∧ (∀ core x, (∀ e ∈ w.cores p.core, e.1 ≠ core ∨ x < offset ∨ offset + size ≤ x) →
      scratchByte t core x = scratchByte s core x)
    ∧ (∀ id < s.nextId, t.ctxs.look id = s.ctxs.look id)
    ∧ ∀ g < groups, ∃ id c, t.ctxs.look id = some c ∧ s.nextId ≤ id ∧ c.group = g ∧ c.graph = w.graph ∧ c.node = w.node
      ∧ c.prio = w.prio ∧ c.launchCore = p.core + (if w.node.pair then g % 2 else 0) ∧ c.s 8 = BitVec.ofNat 32 offset
      ∧ (w.node.kind = .uniform → w.sweep = none → ∀ r, w.records[g]? = some r →
        (∀ i < 8, c.s i = r.args.getD i 0) ∧ c.special.frame = r.frame)
      ∧ (∀ ws tree, w.node.kind = .sweep → w.sweep = some (ws, tree) →
        (∀ i < 8, c.s i = ws.getD i 0) ∧ c.slots.look 0 = some tree ∧ ∀ r, w.records.head? = some r → c.special.frame = r.frame)
      ∧ (w.node.kind = .lanes → ∀ l < w.node.width, ∀ r, w.records[g * w.node.width + l]? = some r → holds c l r)
      ∧ (w.node.kind = .reorder → w.records.length ≤ 64 → ∀ l r, w.records[l]? = some r → holds c l r)

/-- R309, R42, R311, R312, R34: a bank swap is decided for a higher priority in the shadow bank, or after 256 idle cycles, and
ends 48 cycles after; a context leaves its slot for the causes that the rules give, its late producers are abandoned after 2^20
cycles, and it returns to a free slot, those of a gang together (log entry 93). A context of a team that placement is making room for
may leave the shadow bank (log entry 110). The events are the agenda's (log entry 28). -/
def Obligations.ContextsChangePlaces : Prop :=
  (∀ (s : State) (core : Nat), s.canSwap core = true →
    ((∃ a, a ∈ s.readyIn core false) → (∃ e ∈ s.readyIn core true, ∀ a ∈ s.readyIn core false, a.2.prio < e.2.prio) →
      exec (.bankSwap core) s = .next (s.decideSwap core))
    ∧ (s.readyIn core false = [] → (s.core core).lastReady + 256 ≤ s.clock → s.readyIn core true ≠ [] →
      exec (.bankSwapIdleTimeout core) s = .next (s.decideSwap core)))
  ∧ (∀ (s : State) (core : Nat) (w : Swap), (s.core core).swap = some w →
    (s.clock < w.since + 48 → exec (.bankSwapComplete core) s = .next s)
    ∧ (w.since + 48 ≤ s.clock → ∃ t, exec (.bankSwapComplete core) s = .next t ∧ (t.core core).swap = none
      ∧ ∀ id c, s.ctxs.look id = some c → ∃ d, t.ctxs.look id = some d ∧ d.loc = c.loc.swapped core))
  ∧ (∀ (s : State) (core id : Nat), youngest ((s.bank core false).filter fun e => e.2.isActive && e.2.spinning s.clock
      && (s.ctxs.filter fun o => o.2.mayRunOn core && o.2.agedOut s.clock).any fun o => o.2.prio == e.2.prio) = some id →
    exec (.spinEviction core) s = .next (s.leave id))
  ∧ (∀ (s : State) (id core slot : Nat) (c : Ctx), s.ctxs.look id = some c →
    (c.loc = .active core slot ∨ c.loc = .shadow core slot →
      s.allParked c = true ∨ (c.inShadow = true ∧ s.needsShadow c.core = true) ∨ (s.core c.core).retired = true
        ∨ s.yieldsToGang id c = true →
      exec (.lodgeStart id) s = .next (s.leave id))
    ∧ ∀ sh, c.loc = .leaving core slot sh →
      ((∃ e ∈ s.ops, e.2.aims id = true) → exec (.lodgeTransferDone id) s = .next s
        ∧ (c.leavingSince + 2 ^ 20 < s.clock → exec (.lodgeProducerTimeout id) s =
          .next ((foldState (s.ops.filter fun e => e.2.aims id) s fun s e => s.abandon e.1 .poison 1).modCtx id
            fun c => { c with restart := true })))
      ∧ ((∀ e ∈ s.ops, e.2.aims id = false) → c.fitsPlace = true →
        ∀ t loc, (s.writeBack id).lodgeAt c.die (s.lodgingPlaces core) = (t, loc) →
        exec (.lodgeTransferDone id) s = .next (t.modCtx id fun c => { c.staleRegs with loc := loc })))
  ∧ (∀ (s : State) (core : Nat), core < 288 * s.dies → ∃ t, exec (.lodgingAdvertise core) s = .next t
    ∧ ∀ n ∈ neighbours core, t.advertised n core = if s.open core then 4 - s.lodgers core else 0)
  ∧ (∀ (s t : State) (id slot : Nat) (c : Ctx), s.ctxs.look id = some c →
    let aged := c.agedOut s.clock && !c.isLodged
    let shadow := if aged then false else s.returnBank id c c.home
    aged = true ∨ s.wantsReturn c = true → s.open c.home = true →
    s.teamHere c = true → s.bankTakes c.home shadow c = true → slot ∈ s.freeSlots c.home shadow → s.wakeCore c.home = (t, true) →
    exec (.contextReturn id slot) s = .next (t.loadInto id c.home slot shadow))
  ∧ (∀ (s : State) (id : Nat), (s.nextReleased id = none → s.resumeRecord id = s)
    ∧ ∀ i r, s.nextReleased id = some (i, r) → (s.resumeRecord id).released = dropAt s.released i)
  ∧ ∀ (s : State) (id core slot : Nat) (c : Ctx), s.ctxs.look id = some c →
    let u := s.resumeRecord id
    let shadow := !u.bankTakes core false c
    (c.isLodged = false ∨ c.node.steal = false ∨ c.home = core →
      exec (.continuationResume id core slot) s = .next u)
    ∧ (c.isLodged = true → c.node.steal = true → c.home ≠ core → core < 288 * s.dies → dieOfCore core = c.die →
      u.open core = true → slot ∈ u.freeSlots core shadow → u.bankTakes core shadow c = true →
      (∀ d, u.ctxs.look id = some d → u.wantsReturn d = true) →
      ∀ off, ((u.scratchStarts core).find? fun off =>
        u.scratchFree core off (((u.teams.look c.team).map fun t => t.allocated).getD 0)) = some off →
      ∀ t, u.wakeCore core = (t, true) →
      exec (.continuationResume id core slot) s = .next (t.steal id core slot c off))

/-- R314: a quiet team whose space is wanted goes to the pool with its scratch, once no copy aims at it; a copy still in flight
2^22 cycles after it was waited for ends, and an eviction that nothing asks for any more is given up; the team returns to the same
offset when its space is free. A team of which a group holds an active slot, be it one that it is leaving, is not quiet. The events are the agenda's (log entry 28), a team in a shadow slot is not quiet (log entry 110), and
whose space is wanted is log entry 137. -/
def Obligations.TeamsAreEvicted : Prop :=
  ∀ (s : State) (n : Nat) (t : Team), s.teams.look n = some t →
    (s.teamQuiet n = false → exec (.teamEvict n) s = .next s)
    ∧ (∀ e ∈ s.members n, e.2.holdsActive = true → s.teamQuiet n = false)
    ∧ (t.evicted = none → s.teamQuiet n = true → s.wantsSpace t = true →
      ((∃ e ∈ s.ops, s.holdsTeam n t e.2 = true) → exec (.teamEvict n) s =
        .next (s.modTeam n fun t => { t with evicting := some (t.evicting.getD s.clock) }))
      ∧ ((∀ e ∈ s.ops, s.holdsTeam n t e.2 = false) → exec (.teamEvict n) s =
        .next ((foldState t.cores s fun s c => s.moveScratch c (poolCore n + (c - t.core)) t.offset t.allocated).modTeam n
          fun t => { t with evicted := some (poolCore n), evicting := none })))
    ∧ (∀ since, t.evicting = some since →
      let asked := s.teamQuiet n = true ∧ s.wantsSpace t = true
      (¬ asked → exec (.teamEvictTimeout n) s = .next (s.modTeam n fun t => { t with evicting := none }))
      ∧ (asked → s.clock < since + 2 ^ 22 → exec (.teamEvictTimeout n) s = .next s)
      ∧ (asked → since + 2 ^ 22 ≤ s.clock → ∀ k o rows landed b gather tile,
        (s.ops.filter fun e => s.holdsTeam n t e.2) = [(k, o)] → o.kind = .copy rows landed b gather tile →
        exec (.teamEvictTimeout n) s = .next (s.cutCopy k o)))
    ∧ ∀ p, t.evicted = some p →
      (∀ c ∈ t.cores, s.open c = true ∧ s.scratchFree c t.offset t.allocated = true ∧ s.storesTake n t c = true) →
      exec (.teamReturn n) s = .next ((foldState t.cores s fun s c =>
        s.moveScratch (p + (c - t.core)) c t.offset t.allocated).modTeam n fun t => { t with evicted := none })

/-! ## The package -/

/-- R343 to R345, R347, R320, R58, R234: the host reads and writes device memory, its own memory (log entry 138) and the registers of
its windows (whole or in halves: log entry 97), submits invalidations that are performed in order where the queue's settings stand
(log entry 96), cancels the graphs of an arm, and loses what it had set when its link is reset. The events are the agenda's (log entry
28). -/
def Obligations.TheHostActs : Prop :=
  (∀ s : State, s.linkUp = true →
    (∀ address n, address + n ≤ s.capacity → (∀ i < n, s.poisonedAt (address + i) = false) → ∃ t,
      exec (.hostBarAccess address n none) s = .next t ∧ t.hostRead = tabulate n (fun i => s.byteAt (address + i))
      ∧ t.mem = s.mem)
    ∧ (∀ address bs, address + bs.length ≤ s.capacity →
      exec (.hostBarAccess address 0 (some bs)) s = .next (s.writeHome (cellsAt address bs)))
    ∧ (∀ w, exec (.invqtailWrite w) s = .next { s with host := { s.host with invqtail := w } })
    ∧ (∀ w : Word, w.getLsbD 31 = false → exec (.cancelWrite w) s = .next s)
    ∧ (∀ w : Word, w.getLsbD 31 = true → exec (.cancelWrite w) s = .next (foldState
      (s.graphs.filter fun e => e.2.die == bitsOf w 14 13 && e.2.arm == bitsOf w 12 0) s fun s e => s.endGraph e.1 2 none))
    ∧ (∀ x, exec (.hostRegisterWrite 0 0x100 8 x) s = .next { s with host := { s.host with invqbase := x } })
    ∧ (∀ arm i : Nat, arm < 8192 * s.dies → i < 8 → ∀ x, ∃ t,
      exec (.hostRegisterWrite 2 (64 * arm + 4 * i) 4 x) s = .next t ∧ t.armWin.at 0 (8 * arm + i) = x.extractLsb' 0 32
      ∧ t.mem = s.mem))
  ∧ (∀ (s : State) (address : Nat), inHost address = true →
    (∀ n, ∃ t, exec (.hostBarAccess address n none) s = .next t ∧ t.hostRead = tabulate n (fun i => s.byteAt (address + i))
      ∧ t.mem = s.mem)
    ∧ ∀ bs, exec (.hostBarAccess address 0 (some bs)) s = .next (s.writeHome (cellsAt address bs)))
  ∧ (∀ s : State,
    (∀ on, exec (.atomicopRequesterEnable on) s = .next { s with reqEnable := on })
    ∧ exec .hostLinkTrained s = .next { s with linkUp := true }
    ∧ ∃ t, exec .hostLinkReset s = .next t ∧ t.linkUp = false ∧ t.armWin = [] ∧ t.host = ⟨0, 0, 0, 0⟩
      ∧ ∀ k, (t.core k).tlb = [])
  ∧ (∀ s : State, s.invqEntry = none → exec .invqEntryDone s = .next s)
  ∧ ∀ (s : State) (at_ : Nat), s.invqEntry = some at_ → s.poisonedAt at_ = false →
    let f := fun off => s.readHome (at_ + off) 8
    let t := s.invalidateRange (f 0) (f 8 % 2 ^ 52) (f 16) (f 16 == 0)
    exec .invqEntryDone s = .next { t with host := { t.host with invqdone := t.host.invqdone + 1 } }

/-- R348, R349, R355: a port sends the slot that `STATUS` 3 marks, one at a time (log entry 95; one that cannot be sent has failed: log
entry 23), moves on when its peer answers, goes down 2^24 cycles after the last answer with the message failed, and comes up when its
peer answers a restart; the error log tells of retransmissions and restarts, as its KIND 3, and of changes of the port's state, as
its KIND 6 (log entry 101). A base that is not aligned is stored (log entry 96). The events are the agenda's (log entry 28). -/
def Obligations.PortsSendTheirRings : Prop :=
  ∀ (s : State) (port : Nat), port < s.links →
    let p := s.port port
    (s.ringSlot port = none → exec (.sendRingSlot port) s = .next s ∧ exec (.sendRingPoll port) s = .next s)
    ∧ (∀ slot, s.ringSlot port = some slot →
      let read := fun t : State => exec (.sendRingSlot port) s = .next t ∧ exec (.sendRingPoll port) s = .next t
      (s.readHome (slot + 38) 1 ≠ 3 → read s)
      ∧ (s.readHome (slot + 38) 1 = 3 → s.slotSends slot = false → read (s.slotDone port slot 2))
      ∧ (s.readHome (slot + 38) 1 = 3 → s.slotSends slot = true →
        read (s.modPort port fun p => { p with unacked := [s.slotMessage slot], since := s.clock })))
    ∧ (∀ m rest accepted, p.unacked = m :: rest → p.up = true → exec (.linkMessageAck port accepted) s =
      .next ((s.slotDone port m.slot (if accepted then 1 else 2)).modPort port
        fun p => { p with unacked := rest, since := s.clock }))
    ∧ (∀ m, p.unacked = [m] → p.up = true →
      (s.clock < p.since + 2 ^ 24 → exec (.portDown port) s = .next s)
      ∧ (p.since + 2 ^ 24 ≤ s.clock → exec (.portDown port) s = .next (((s.slotDone port m.slot 2).modPort port
        fun p => { p with unacked := [], up := false, since := s.clock, restarts := 0 }).logPort port))
      ∧ exec (.transportRetransmit port) s =
        .next ((s.modPort port fun p => { p with resent := p.resent + 1 }).logTransport port))
    ∧ (p.up = false → p.since + 2 ^ 24 ≤ s.clock → exec (.portRestartAttempt port) s =
      .next ((s.modPort port fun p => { p with since := s.clock, restarts := p.restarts + 1 }).logTransport port))
    ∧ (p.up = false → p.restarts ≠ 0 → exec (.portUp port) s = .next (((s.modPort port
      fun p => { p with up := true, since := s.clock, restarts := 0 }).logPort port).drainHeld port))
    ∧ (s.linkUp = true → p.srbase = 0 → ∀ x, x ≠ 0 →
      exec (.srbaseWrite port x) s = .next (s.modPort port fun p => { p with srbase := x, srnext := 0 }))
    ∧ (s.linkUp = true → p.srbase ≠ 0 → exec (.srbaseWrite port 0) s = .next (s.modPort port Port.stop)
      ∧ ∀ x, x ≠ 0 → exec (.srbaseWrite port x) s = .next s)

/-- R339 to R342, R350, R351: a packet in flight is performed once: its destination keeps its number and acknowledges it, a duplicate is
dropped, and a read or an atomic is answered as it was the first time; the last 65,536 numbers of a source are kept. Until their packet
has come to its destination the flits that cross a boundary stand in its replay buffers, 4,096 in each direction; one that stands in none
is not sent again, and the sixteenth failure of one fails the boundary. The Hinge replaces or switches off bundles,
recalibrates them in turn (log entry 105), and fails a boundary whose conditions are met; the scrub corrects or poisons a sector; a
failing channel is copied to its stack's one spare, and a second failure there is logged (log entry 100), where INDEX is 32 times the
stack and the channel (log entry 149). The events are the agenda's (log entry 28); which packets there are, the way that each goes, and
how it is numbered, is log entry 139, and that a flit of a replay buffer stands for a packet is log entry 109. -/
def Obligations.LinksAndMemoryDegrade : Prop :=
  (∀ (s : State) (a b n : Nat) (x : DWord),
    let receive := exec (.hingePacketReceive a b n x) s
    (s.packetSeen a b n ≠ none → receive = .next ((s.ackFlits a b n).answer a b n false))
    ∧ (s.packetSeen a b n = none →
      ((∀ p ∈ s.packets, ¬ (p.source = a ∧ p.target = b ∧ p.number = n)) → receive = .next s)
      ∧ ∀ p, (s.packets.find? fun p => p.source == a && p.target == b && p.number == n) = some p →
        let t := s.performPacket p x
        (t.packetSeen a b n = none → receive = .next t)
        ∧ (t.packetSeen a b n ≠ none → receive = .next ((t.ackFlits a b n).answer a b n (!p.reply)))))
  ∧ (∀ (s : State) (p : Packet) (x : DWord) (n : Nat) (o : Op) (t : State), p.reply = false → s.packetOp p = some (n, o) →
    (∀ core off phase expected, o.kind = .tbarrive core off phase expected →
      exec (.tbarrivePerform n) s = .next t → s.performPacket p x = t)
    ∧ (∀ hs, o.kind = .fdone hs → exec (.fdonePerform n) s = .next t → s.performPacket p x = t)
    ∧ (∀ die es, o.kind = .push die es → exec (.pqPushPerform n) s = .next t → s.performPacket p x = t)
    ∧ ∀ rows landed bind gather tile, o.kind = .copy rows landed bind gather tile →
      exec (.copyLanding n (x.toNat % 2 ^ 32) (x.toNat / 2 ^ 32)) s = .next t → s.performPacket p x = t)
  ∧ (∀ (s : State) (a b n : Nat) (ack : Bool),
    (s.packetSeen a b n = none → s.answer a b n ack = s)
    ∧ ∀ e, s.packetSeen a b n = some e → s.answer a b n ack = if ack = true ∨ e.2.2 ≠ [] then s.reply e else s)
  ∧ (∀ (s : State) (a b n : Nat) (words : Response), a ≠ b →
    let t := s.noteHinge a b n words
    let from_ := fun u : State => u.hinge.filter fun e => e.1 == 4 * a + b
    t = { s with hinge := t.hinge } ∧ t.packetSeen a b n ≠ none
    ∧ (s.packetSeen a b n = none → t.packetSeen a b n = some (4 * a + b, n, words))
    ∧ ((from_ s).length ≤ 65536 → (from_ t).length ≤ 65536)
    ∧ (t.hinge.filter fun e => e.1 != 4 * a + b) = s.hinge.filter fun e => e.1 != 4 * a + b)
  ∧ (∀ (s : State) (e : Nat × Nat × Response), (s.reply e).replies.head? = some e)
  ∧ (∀ (s : State) (a b n i : Nat), ((s.ackFlits a b n).boundary i).replays =
    (s.boundary i).replays.filter fun r => r.number != 16 * n + 4 * a + b)
  ∧ (∀ (s : State) (b : Nat), b < s.boundaryCount →
    ((s.boundary b).failed = false →
      ((s.boundary b).broken = true → exec (.hingeBoundaryFail b) s = .next (s.failBoundary b))
      ∧ ((s.boundary b).broken = false → exec (.hingeBoundaryFail b) s = .next s)
      ∧ ∀ d flit,
        let stands := ∃ r ∈ (s.boundary b).replays, r.direction = d ∧ r.number = flit
        (¬ stands → exec (.flitReplay b d flit) s = .next s)
        ∧ ((s.boundary b).failures d flit = 15 → exec (.flitReplay b d flit) s = .next (s.failBoundary b))
        ∧ ((s.boundary b).failures d flit < 15 → stands → ∃ t, exec (.flitReplay b d flit) s = .next t
          ∧ (t.boundary b).failures d flit = (s.boundary b).failures d flit + 1))
    ∧ (let x := s.sendFlits.boundary b
       (s.boundary b).failed = false → ∀ d, ((s.boundary b).buffered d ≤ 4096 → x.buffered d ≤ 4096)
       ∧ (∀ r ∈ x.replays, ∃ p ∈ s.packets, b ∈ (s.way p.source p.target).1 ∧ (s.way p.source p.target).2.1 = r.direction
         ∧ r.number = 16 * p.number + 4 * p.source + p.target)
       ∧ ∀ p ∈ s.packets, b ∈ (s.way p.source p.target).1 → (s.way p.source p.target).2.1 = d →
         (∃ r ∈ x.replays, r.direction = d ∧ r.number = 16 * p.number + 4 * p.source + p.target) ∨ 4096 ≤ x.buffered d)
    ∧ (∀ d k, d < 2 → k < 24 → (d, k) ∉ (s.boundary b).off → exec (.hingeLaneFail b d k) s =
      .next ((s.modBoundary b fun x => if x.spared.contains (d, k) then { x with off := x.off ++ [(d, k)] }
        else { x with spared := x.spared ++ [(d, k)] }).logHinge (b + d) k b d))
    ∧ ∀ k, k < 24 → ((s.boundary b).recalibrating = none ∨ ∃ j, (s.boundary b).recalibrating = some j ∧ k = (j + 1) % 24) →
      exec (.hingeRecalibrate b k) s = .next (s.modBoundary b fun x => { x with recalibrating := some k }))
  ∧ (∀ (s : State) (sector : Nat), s.inDevice (32 * sector) = true →
    let home := (s.homeOf (32 * sector)).1
    let c := s.channelOf (32 * sector)
    exec (.patrolScrub sector 1) s = .next (s.logError home 0 0 (32 * c.1 + c.2) (32 * sector) [])
    ∧ exec (.patrolScrub sector 2) s =
      .next (({ s with poison := insertNat s.poison sector }).logUncorrectable (32 * sector)))
  ∧ ∀ (s : State) (stack channel : Nat), stack < 2 * s.dies → channel < 32 →
    let n := 32 * stack + channel
    (n ∉ s.channels → n ∉ s.copying → (∀ m ∈ s.channels ++ s.copying, m / 32 ≠ stack) →
      exec (.channelRetire stack channel) s = .next { s with copying := s.copying ++ [n] })
    ∧ (n ∉ s.channels → n ∉ s.copying → (∃ m ∈ s.channels ++ s.copying, m / 32 = stack) →
      exec (.channelRetire stack channel) s = .next (s.logError (stack / 2) 1 0 n 0 []))
    ∧ (n ∈ s.copying → exec (.channelCopyDone stack channel) s = .next
      (({ s with copying := s.copying.filter fun x => x != n, channels := s.channels ++ [n] }).logError (stack / 2) 5 0 n 0 []))

/-- R352 to R355, R358: a core is clock-gated after 64 idle cycles, power-gated after 2^16 empty ones, keeps nothing without power,
no cache, no scratch and no tile or block of the groups whose home it is (what they read as then is log entry 24), and wakes for work,
in C0 at once from C1 and C2 and when its gating ends (log entry 92); the error log tells each change. A die sleeps
and wakes with its cores, an activity scan keeps it awake, and so does a context of it that is ready. A retired core is replaced by a spare when it is empty, those lodged on it going to the die's pool (log
entry 104), and what a failed one holds is lost (log entry 27). A change of the arithmetic clock keeps the part of a count of
`%clock` that has passed, in whole parts, and the clock values are the multiples of 50 MHz up to 1.9 GHz (log entry 102). Which `UNIT`
and `INDEX` the log entries of power changes carry is log entry 101. The events are the agenda's (log entry 28). -/
def Obligations.CoresSleepAndFail : Prop :=
  (∀ (s : State) (core : Nat), core < 288 * s.dies →
    let k := s.core core
    (k.power = .c0 → s.anyReady core = false →
      (s.clock < k.lastAwake + 64 → exec (.coreClockGate core) s = .next s)
      ∧ (k.lastAwake + 64 ≤ s.clock → exec (.coreClockGate core) s =
        .next (s.setPower core .c1)))
    ∧ (k.power = .c0 ∨ k.power = .c1 → s.coreEmpty core = true →
      (s.clock < k.lastHeld + 2 ^ 16 → exec (.corePowerGate core) s = .next s)
      ∧ (k.lastHeld + 2 ^ 16 ≤ s.clock → exec (.corePowerGate core) s =
        .next (s.setPower core (.gating s.clock false))))
    ∧ (∀ since wake, k.power = .gating since wake →
      (s.clock < since + 200 → exec (.gatingEnd core) s = .next s)
      ∧ (since + 200 ≤ s.clock → ∃ t, exec (.gatingEnd core) s = .next t
        ∧ t = ((s.writeBackLines core none fun _ _ => true).offCore core (if wake then .c0 else .c2)).setPower core
          (if wake then .c0 else .c2)))
    ∧ (∀ u : State, (∀ off, scratchByte (u.offCore core .c2) core off = 0)
      ∧ ((u.offCore core .c2).core core).l1 = [] ∧ ((u.offCore core .c2).core core).tlb = []
      ∧ ((u.offCore core .c2).core core).icache = [] ∧ ((u.offCore core .c2).core core).blocks = []
      ∧ ∀ id c, u.ctxs.look id = some c →
        ∃ d, (u.offCore core .c2).ctxs.look id = some d ∧ d.sreg = c.sreg ∧ d.v = c.v
          ∧ ((d.tiles = [] ∧ d.accs = []) ∨ c.home ≠ core ∨ u.teamHere c = false))
    ∧ (s.needsCore core = true → exec (.coreWake core) s = .next (s.wakeCore core).1)
    ∧ (let u := s.wakeDie (dieOfCore core)
       ((u.core core).power = .c1 ∨ (u.core core).power = .c2 → s.wakeCore core = (u.setPower core .c0, true))
       ∧ ∀ since wake, (u.core core).power = .gating since wake →
         (since = u.clock → s.wakeCore core = (u.setPower core .c0, true))
         ∧ (since ≠ u.clock → s.wakeCore core = (u.modCore core fun k => { k with power := .gating since true }, false)))
    ∧ (k.failed = false →
      let u := foldState (s.ops.filter fun e => e.2.core == core && e.2.kind.source != 0) s
        fun s e => s.failEngine e.1 (Trap.of .watchdog)
      let held := u.ctxs.filter fun e => e.2.residentOn core || e.2.loc == Loc.lodged core
      let v := u.modCore core fun k => { k.off .c0 u.clock with failed := true }
      let blame : Blame := { (Cause.watchdog.blame) with core := BitVec.ofNat 32 core }
      let w := foldState (held.map fun e => e.2.graph).eraseDups v fun s g => s.endGraph g 1 (some blame)
      (v.core core).failed = true ∧ exec (.coreFailure core) s = .next (foldState (held.map Prod.fst) w State.loseCtx))
    ∧ ∀ spare, spare < 16 → 16 * dieOfCore core + spare ∉ s.spares → k.failed = false →
      (k.retired = false → exec (.coreRetire core spare) s = .next (s.modCore core fun k => { k with retired := true }))
      ∧ (k.retired = true → s.residents core = [] → s.teamsOn core = [] →
        let u := (s.writeBackLines core none fun _ _ => true).clearLodgings core
        let v := u.modCore core fun k => { k.off .c0 u.clock with retired := false }
        exec (.coreRetire core spare) s = .next (({ v with spares := insertNat v.spares (16 * dieOfCore core + spare) }).logError
          (dieOfCore core) 5 2 (coreIndex core) 0 [])))
  ∧ (∀ (s : State) (die : Nat), die < s.dies → die ∉ s.sleeping → (∀ i < 288, (s.core (288 * die + i)).power = .c2) →
    s.engineBusy die = false →
    exec (.dieEnterD1 die) s = .next ({ s with sleeping := insertNat s.sleeping die }.logPower die 6 die))
  ∧ (∀ (s : State) (die : Nat), die ∉ (s.wakeDie die).sleeping
    ∧ (die ∈ s.sleeping → ∃ t : State, s.wakeDie die = t.logPower die 6 die))
  ∧ ∀ (s : State) (mhz : Nat), mhz % 50 = 0 → 0 < mhz → mhz ≤ 1900 →
    exec (.clockStepChange mhz) s = .next { s with clockMhz := mhz, refPart := s.refPart * mhz / s.clockMhz }

/-- R355 to R357: bring-up starts a bank that verifies and that the fuses do not refuse, or nothing, and leaves every store empty
but what log entry 103 names; an image goes to the inactive bank and verifies by its signature and its version; a unit without a
firmware task switches where that bank may be activated; the last unit that switches makes it the active one and moves the fuses
(log entry 25); the management controller answers with what the device holds, the measurements signed under the identity key (log
entry 26). Whether an image's signature is right is the update's argument; the events are the agenda's (log entry 28). -/
def Obligations.FirmwareStarts : Prop :=
  (∀ (s : State) (v : Variant) (cxl : Bool) (x : BitVec 7),
    (s.firmware.started = none → exec (.packageReset v cxl x) s = .next s)
    ∧ ∀ bank, s.firmware.started = some bank → ∃ t, exec (.packageReset v cxl x) s = .next t ∧ t.variant = v ∧ t.mem = []
      ∧ t.ctxs = [] ∧ t.cores = [] ∧ t.graphs = [] ∧ t.firmware.active = bank
      ∧ t.ilshare = if x.toNat ≤ 94 then x.toNat else 48)
  ∧ (∀ (f : Firmware) (i : Nat), f.started = some i →
    f.verified.getD i false = true ∧ f.fuses ≤ f.versions.getD i 0 ∧ (i = f.active ∨ f.ok f.active = false))
  ∧ (∀ (s : State) (version : Nat) (digest : BitVec 256) (signed : Bool),
    s.firmware.active < 2 → s.firmware.versions.length = 2 → s.firmware.digests.length = 2 → s.firmware.verified.length = 2 →
    let i := 1 - s.firmware.active
    ∃ t, exec (.firmwareUpdate version digest signed) s = .next t ∧ t.firmware.versions.getD i 0 = version
      ∧ t.firmware.digests.getD i 0 = digest
      ∧ t.firmware.verified.getD i false = (signed && decide (s.firmware.fuses ≤ version))
      ∧ t.firmware.active = s.firmware.active ∧ t.firmware.fuses = s.firmware.fuses)
  ∧ (∀ (s : State) (unit : Nat), unit < firmwareUnits →
    let f := s.firmware
    let i := 1 - f.active
    (f.verified.getD i false = false ∨ f.versions.getD i 0 < f.fuses ∨ (unit = 0 ∧ s.copying ≠ []) →
      exec (.firmwareBankSwitch unit) s = .next s)
    ∧ (f.verified.getD i false = true → f.fuses ≤ f.versions.getD i 0 → (unit = 0 → s.copying = []) →
      ((insertNat f.switched unit).length < firmwareUnits → exec (.firmwareBankSwitch unit) s =
        .next { s with firmware := { f with switched := insertNat f.switched unit } })
      ∧ (firmwareUnits ≤ (insertNat f.switched unit).length → exec (.firmwareBankSwitch unit) s = .next { s with firmware :=
        { f with active := i, switched := [], fuses := max f.fuses (f.versions.getD i 0) } })))
  ∧ ∀ s : State,
    (let m := numberBytes 32 (s.firmware.digests.getD 0 0).toNat ++ numberBytes 32 (s.firmware.digests.getD 1 0).toNat
       ++ numberBytes 1 s.firmware.active
     ∃ t, exec .attestation s = .next t ∧ t.mem = s.mem
       ∧ t.hostRead = m ++ tabulate 64 (Config.signature s.firmware.identity m s.free))
    ∧ exec .managementTelemetry s =
      .next { s with hostRead := numberBytes 4 s.clockMhz ++ (List.range s.dies).flatMap s.dieTelemetry }

/-! ## The whole machine -/

/-- R93, R95 to R104, R107 to R118: every instruction, of whatever form, has words; those of a well-formed one decode to it, with
every operand at every value that the encoding admits, and the bytes behind them stay; those of one that fails a static check do not
decode to it. What words decode to is well-formed, and no event. -/
def Obligations.DecodeUndoesEncode : Prop :=
  (∀ i : Instr, i.form ≠ none ∨ (∃ f, i = .cpasGs f ∨ i = .cpasSg f ∨ i = .cpasGt f ∨ i = .cpasSt f ∨ i = .cpasAg f) →
    ∃ ws, encode i = some ws)
  ∧ (∀ (i : Instr) (ws : List Word) (rest : List Byte), encode i = some ws →
    (i.wf = true → decode (ws.flatMap bytesOfWord ++ rest) = .ok (i, rest))
    ∧ (i.wf = false → decodeWords ws ≠ .ok i))
  ∧ ∀ (ws : List Word) (i : Instr), decodeWords ws = .ok i → i.wf = true ∧ ∃ us, encode i = some us

/-- The words of "Encodings worked by hand": its six statements decode to the instructions that they stand for, and the words of its
table of errors to none: `GUARD` 1000, a literal or a `DST` that the type does not allow, `SCALE` 101 and 110, `SRC2` other than 0
beside a literal, and `MAJOR` 0. -/
def Obligations.WorkedEncodingsDecode : Prop :=
  let hdr : Hdr :=
    { dst := 0, src1 := 0, src2 := 0, src3 := 0, guard := ⟨false, 0⟩, empty := 0, ty := .b32, rnd := .rne, lit := none }
  decodeWords [0x41060500#32, 0x00000010#32, 0#32] = .ok (.addB32Base { dst := 6, src1 := 5, src2 := 0, lit := some 0x10 })
  ∧ decodeWords [0x0F040103#32] = .ok (.fmaF32Base { dst := 4, src1 := 1, src2 := 3, lit := none })
  ∧ decodeWords [0xB9040103#32, 0x06493104#32, 0#32] = .ok (.fma
      { h := { hdr with dst := 4, src1 := 1, src2 := 3, src3 := 4, guard := ⟨false, 2⟩, empty := 0b010#3, ty := .f32, rnd := .rtz }
        kind := 0, sat := false, neg := 0, abs := 0, cond := 0, src := .b32 })
  ∧ decodeWords [0xBB050100#32, 0#32, 0x0A000010#32] = .ok (.ld
      { h := { hdr with dst := 5, src1 := 1 }, space := 0, xsel := 1, scale := 2, scalarIndex := false, op := 0, rh := false
        disp := 16 })
  ∧ decodeWords [0xF8060400#32, 0x00242800#32, 0#32, 0#32, 1#32] = .ok (.sadd
      { h := { hdr with dst := 6, src1 := 4, guard := ⟨true, 1⟩, ty := .n64, lit := some 0x100000000 }, imm := 0 })
  ∧ decodeWords [0xFE010405#32, 0x0040FFFF#32, 0xFFFFFFFF#32, 0x01000000#32, 0x42D80000#32] = .ok (.cpasGs
      { src1 := 4, src2 := 5, dim0 := 64, dim1 := 0xFFFF, stride := 0xFFFFFFFF, soff := 0x400, spitch := 0, esize := 2
        sreg := 11, subst := 0b0110, goff := 0 })
  ∧ decodeWords [0#32] = .error .badMajor
  ∧ ∀ r, decodeWords [0xB9040103#32, 0x06613104#32, 0#32] ≠ .ok r
    ∧ decodeWords [0xF8060400#32, 0x00241800#32, 0#32, 0#32, 1#32] ≠ .ok r
    ∧ decodeWords [0xF8070400#32, 0x00242800#32, 0#32, 1#32, 0#32] ≠ .ok r
    ∧ decodeWords [0xBB050100#32, 0#32, 0x0D000010#32] ≠ .ok r
    ∧ decodeWords [0xBB050100#32, 0#32, 0x0E000010#32] ≠ .ok r
    ∧ ∀ x, decodeWords [0x4F040103#32, x, 0#32] ≠ .ok r

/-- R93, R331, R118: a turn of an issue opportunity runs the instruction that the chosen split's words decode to, with what the
fetch left in the caches and the split named as the one that issues; words that decode to none are illegal. A word is fetched
from the bytes at its home where the core has no copy of its line, behind the requests that wait there for the line (R67). An event of
the agenda is that event, and an empty agenda lets a cycle pass. After each, what follows by itself (`State.afterStep`), which is
nothing where no timer is overdue, no message or packet is to be delivered or sent, no split's wait is over, no continuation record is
to be made, no die is to wake and no write is to be performed for room (R4, R33, R43, R321, R324, R326, R328, R329, R339, R352). The
agenda is the model's own (log entry 1); how a program comes to run is log entry 14. -/
def Obligations.StepRunsTheDecodedInstruction : Prop :=
  (∀ (s : State) (core sched : Nat) (rest : List Turn) (id i : Nat), s.agenda = .issue core sched :: rest →
    let begun := { s with agenda := rest, cur := none }
    begun.choose core sched = some (id, i) →
    let u := (begun.passOver core sched id i)
    (∀ c, u.ctxs.look id = some c → u.entryFor c i = false) →
    u.dueTrap id i = none →
    let v := (u.wake id i).restartDue id i
    ∀ c sp t ws, v.ctxs.look id = some c → c.splits.look i = some sp → v.ending c = false →
      v.fetch id c sp = (t, .ok ws) →
      (∀ x, decodeWords ws = .ok x → turn s = exec x { t with cur := some (id, i) })
      ∧ ∀ r, decodeWords ws = .error r → turn s = exec .illegalEncoding { t with cur := some (id, i) })
  ∧ (∀ (s t : State) (id : Nat) (c : Ctx) (pc : DWord) (m : Mapped), s.translate id c pc 3 = (t, .ok m) →
    t.poisonedAt m.pa = false → m.pa % 4 = 0 → (t.core c.core).icache.look (m.pa / 128) = none →
    let v := t.fetchLines c.core none m.pa 4
    ∃ u, s.fetchWord id c pc = (u, .ok (BitVec.ofNat 32 (v.readHome m.pa 4))) ∧ u.mem = v.mem
      ∧ (t.merges = [] → v.mem = t.mem))
  ∧ (∀ (s : State) (x : Instr) (rest : List Turn), s.agenda = .event x :: rest →
    turn s = exec x { s with agenda := rest, cur := none })
  ∧ (∀ s : State, s.agenda = [] → turn s = .next s.tick)
  ∧ ∀ s : State, (∀ t, turn s = .next t → step s = .next t.afterStep)
    ∧ ((∀ t, turn s ≠ .next t) → step s = turn s)
    ∧ (∀ id i c sp ks, s.ctxs.look id = some c → c.splits.look i = some sp → sp.wait = .fill ks →
      s.settleSplit id i = if ks.any c.isEmpty then s else s.modSplit id i fun sp => { sp with wait := .ready })
    ∧ (let parked := s.ctxs.flatMap fun e => e.2.parkedRecords e.1
       (∀ b ∈ s.bins, ∀ d, s.nodeHome b.die b.node = .ok d → d.timer = 0 ∨ s.clock < b.timer + d.timer + 511) →
       (∀ e ∈ s.deposits, ∀ d, s.nodeHome e.die e.node = .ok d → d.timer = 0 ∨ s.clock < e.born + d.timer + 511) →
       (∀ die, s.depositCount die < Config.depositRoom) → (∀ w ∈ s.placeQ, w.aged = true ∨ s.clock < w.since + 2 ^ 16) →
       (∀ e ∈ s.ports, e.2.held = []) → s.boundaries = [] →
       (s.variant = .wz1 ∨ s.packets = []) → s.unsettled = [] →
       (∀ r, r ∈ s.conts ↔ r ∈ parked) → (∀ d ∈ s.sleeping, ∀ e ∈ s.ctxs, e.2.die = d → s.ctxReady e.2 = false) →
       (∀ w ∈ s.writes, s.requestsFit w.core 0 = true) → s.afterStep = s)

/-- Every instruction that a split issues, and every event but a host access to memory that the package does not have, answers
a next state, in every state; such an access, with the host link up, stops with the fault that names it. -/
def Obligations.NothingStops : Prop :=
  (∀ (i : Instr) (s : State),
    (∀ a n w, i = .hostBarAccess a n w →
      s.linkUp = false ∨ inHost a = true ∨ a + (w.map List.length).getD n ≤ s.capacity) →
    (s.issuer ≠ none ∨ partsOf i = none ∧ i ≠ .illegalEncoding ∧ i ≠ .fetchTrap) → ∃ t, exec i s = .next t)
  ∧ ∀ (s : State) (a n : Nat) (w : Option (List Byte)), s.linkUp = true → inHost a = false →
    s.capacity < a + (w.map List.length).getD n → exec (.hostBarAccess a n w) s = .fault (.noSuchMemory a)

/-- Every step keeps the canonical form of memory: strictly rising addresses, and no byte listed that equals what an unlisted
one reads as. -/
def Obligations.MemoryStaysCanonical : Prop :=
  ∀ s t : State, Memory.wf s.mem = true → step s = .next t → Memory.wf t.mem = true

/-- The machine after reset: memory and every store of a core are empty, so memory is in canonical form and every byte reads as
log entry 3 says; there is no graph, team, context, record or operation; and nothing is on the agenda (log entry 1: how a program
comes to run is log entry 14). -/
def Obligations.ResetIsEmpty : Prop :=
  Memory.wf State.reset.mem = true ∧ State.reset.ctxs = [] ∧ State.reset.teams = [] ∧ State.reset.graphs = []
  ∧ State.reset.sent = [] ∧ State.reset.bins = [] ∧ State.reset.ops = [] ∧ State.reset.cores = [] ∧ State.reset.ranges = []
  ∧ State.reset.agenda = [] ∧ (∀ a, State.reset.byteAt a = 0) ∧ ∀ core off, scratchByte State.reset core off = 0

/-- R298 to R303, R156: a cause that the kernel's handler takes writes `q24` to `q28` and `%cause`, sets the program counter to
the handler's address and changes nothing else; in a handler, or without one, the graph ends; while another split of the group
runs one, the split waits. `PAGE_FAULT` and `MAP_ERROR` go to the supervisor's handler, behind a fault record of 64 bytes whose address
`q26` holds, with that of the supervisor block in `q27`; a block that cannot be read ends the graph with the cause met there and
`DETAIL` 0, and one without a handler, or none at all, with the cause itself. A return restores the registers that the entry wrote,
with their full/empty state and the causes that they carry, and what a producer issued in the handler brings later does not reach
them. -/
def Obligations.HandlersAreEnteredAndLeft : Prop :=
  (∀ (s : State) (id i : Nat) (t : Trap) (c : Ctx) (sp : Split), s.ctxs.look id = some c → c.splits.look i = some sp →
    let blame := some (t.blame c sp.pc)
    (∀ h, c.handler = some h → h.split = i → s.takeTrap id i t none = s.endGraph c.graph 1 blame)
    ∧ (∀ h, c.handler = some h → h.split ≠ i →
      s.takeTrap id i t none = s.modSplit id i fun sp => { sp with wait := .handler })
    ∧ (c.handler = none → t.cause.supervisor = false → c.node.traph = 0 →
      s.takeTrap id i t none = s.endGraph c.graph 1 blame)
    ∧ (c.handler = none → t.cause.supervisor = false → c.node.traph ≠ 0 → ∃ d,
      s.takeTrap id i t none = s.setCtx id d
      ∧ d.special = { c.special with cause := t.word } ∧ d.splits = c.splits.ins i { sp with pc := c.node.traph, wait := .ready }
      ∧ d.q 48 = sp.pc ∧ d.q 50 = t.va ∧ d.q 52 = 0 ∧ d.q 54 = 0 ∧ d.q 56 = (if t.lanes = 0 then sp.mask else t.lanes)
      ∧ (∀ n, 48 ≤ n → n ≤ 57 → d.fills.look (locS n) = none)
      ∧ (∀ n, n < 48 ∨ 57 < n → d.s n = c.s n ∧ d.fills.look (locS n) = c.fills.look (locS n))
      ∧ (∃ h, d.handler = some h ∧ h.split = i ∧ h.savedPc = sp.pc ∧ h.cause = t.word ∧ h.supervisor = false)
      ∧ d = { c with sreg := d.sreg, fills := d.fills, special := d.special, splits := d.splits, handler := d.handler })
    ∧ (c.handler = none → t.cause.supervisor = true →
      let super := ((s.graphs.look c.graph).map (·.super)).getD 0
      (super = 0 → s.takeTrap id i t none = s.endGraph c.graph 1 blame)
      ∧ (super ≠ 0 →
        (∀ u x, s.superEntry id c super = (u, .error x) →
          s.takeTrap id i t none = u.endGraph c.graph 1 (some { x.blame c sp.pc with detail := 0 }))
        ∧ ∀ u b, s.superEntry id c super = (u, .ok b) →
          (b.handler = 0 → s.takeTrap id i t none = u.endGraph c.graph 1 blame)
          ∧ (b.handler ≠ 0 → ∀ v r, u.writeFault id c b t 0 sp.pc 0 = (v, r) →
            ∀ e q, v.ctxs.look id = some e → e.splits.look i = some q → ∃ d, s.takeTrap id i t none = v.setCtx id d
            ∧ d.special = { e.special with cause := t.word } ∧ d.splits = e.splits.ins i { q with pc := b.handler, wait := .ready }
            ∧ d.q 48 = sp.pc ∧ d.q 50 = t.va ∧ d.q 52 = (r.map Prod.fst).getD 0 ∧ d.q 54 = super
            ∧ d.q 56 = (if t.lanes = 0 then q.mask else t.lanes)
            ∧ (∀ n, 48 ≤ n → n ≤ 57 → d.fills.look (locS n) = none)
            ∧ (∀ n, n < 48 ∨ 57 < n → d.s n = e.s n ∧ d.fills.look (locS n) = e.fills.look (locS n))
            ∧ (∃ h, d.handler = some h ∧ h.split = i ∧ h.savedPc = sp.pc ∧ h.cause = t.word ∧ h.supervisor = true
              ∧ h.record = r.map Prod.snd ∧ h.saved = c.entryRegs)
            ∧ d = { e with sreg := d.sreg, fills := d.fills, special := d.special, splits := d.splits, handler := d.handler }))))
  ∧ (∀ (s : State) (id : Nat) (c : Ctx) (b : Super) (t : Trap) (state progress : Nat) (pc : DWord),
    let head := s.readHome (b.pa + 20) 4
    let v := s.writeNat (b.pa + 20) 4 ((head + 1) % 2 ^ 32)
    let va := b.fring + BitVec.ofNat 64 (64 * (head % b.frcap))
    let record := faultBytes t state c pc (if c.perLane then c.taskFrames.at 0 t.lane else c.special.frame) progress
    (∀ u x, v.translate id c va 1 = (u, .error x) → ∃ w, s.writeFault id c b t state pc progress = (w, none))
    ∧ ∀ u m, v.translate id c va 1 = (u, .ok m) →
      (u.poisonedAt m.pa = true ∨ u.poisonedAt (m.pa + 32) = true →
        ∃ w, s.writeFault id c b t state pc progress = (w, none))
      ∧ (u.poisonedAt m.pa = false → u.poisonedAt (m.pa + 32) = false → ∃ (w : State) (clock : Nat),
        s.writeFault id c b t state pc progress = (w.writeHome (cellsAt m.pa (record clock)), some (va, m.pa))))
  ∧ (∀ (t : Trap) (state progress clock : Nat) (c : Ctx) (pc : DWord) (frame : Word),
    let bs := faultBytes t state c pc frame progress clock
    bs.length = 64 ∧ ∀ off n x, (off, n, x) ∈ [(0, 1, t.cause.code), (1, 1, t.kind), (2, 1, t.source), (3, 1, state), (4, 4, c.core),
      (8, 1, c.group), (9, 1, t.lane), (10, 2, 0), (12, 4, c.special.regions.toNat), (16, 8, t.va.toNat), (24, 8, pc.toNat),
      (32, 4, frame.toNat), (36, 4, progress), (40, 8, clock), (48, 16, 0)] →
      natOfBytes ((bs.drop off).take n) = x % 256 ^ n)
  ∧ ∀ (c e : Ctx) (i : Nat) (t : Trap) (pc : DWord) (by_ : Bool) (at_ eng : Option Nat) (mark next : Nat),
    let d := e.leaveHandler (c.handlerOf i pc t by_ at_ eng mark) next
    d.handler = none ∧ (∀ n, mark ≤ n → n < next → d.isShut n = true)
    ∧ (∀ n, 48 ≤ n → n ≤ 57 →
      d.s n = c.s n ∧ d.fills.look (locS n) = c.fills.look (locS n) ∧ d.carriedAt (locS n) = c.carriedAt (locS n))
    ∧ ∀ n, n < 48 ∨ 57 < n →
      d.s n = e.s n ∧ d.fills.look (locS n) = e.fills.look (locS n) ∧ d.carriedAt (locS n) = e.carriedAt (locS n)

/-- The frame of the instructions with one destination (R73, R97, R105, R129, R158): nothing but that destination, in the lanes
in which they act, the flags of a floating-point one, the counters and the issuing split's program counter changes; a floating-point
one so wherever no flag that its results raise is enabled, whatever the other enables are. -/
def Obligations.RegisterInstructionsKeepTheRest : Prop :=
  (∀ (i : Instr) (form : Form) (bytes : Nat) (s : State) (is : Issue), i.form = some form → Reaches form bytes [] s is →
    writesOnlyBits i = true → ∃ t c, exec i s = .next t ∧ KeepsTheRest form is s t ∧ t.ctxs.look is.id = some c
      ∧ c.special.fpst = is.c.special.fpst)
  ∧ ForFloats FpKeeps

/-- The frame of the stores (R57, R188, R189, R107): they change the bytes at their own addresses and no others. The split's loads in
flight read first, which leaves memory as it was where no sector is poisoned, and its reductions are performed (log entry 50). That an
`sst` stores to scratch is the model's reading (log entry 132): R45's table gives the scalar pipe no path there. R48: a store through
the cluster window changes them, in the target's scratch alone, when its ports accept it. -/
def Obligations.StoresChangeTheirOwnBytes : Prop :=
  (∀ f : XM, StoresOnly (.st f) f (formStore f false) f.h.bytes false ∧ StoresOnly (.sst f) f (formStore f true) f.h.bytes true)
  ∧ (∀ f : Base, StoresOnly (.stB32XBase f) f.xmX (f.smallX (formStore f.xmX false)) f.bytes false
    ∧ StoresOnly (.stB32ScBase f) f.xmSc (formStore f.xmSc false) f.bytes false)
  ∧ (∀ (s : State) (id : Nat), s.poison = [] →
    (∀ e ∈ s.ops, e.2.ctx = id → ∀ op ty rnd fpctl ls fl, e.2.kind ≠ .atomic op ty rnd fpctl ls none fl false) →
    (s.settleReads id).mem = s.mem)
  ∧ ∀ (s : State) (n : Nat) (o : Op) (scalar : Bool) (reg : Nat) (ty : Ty) (op : AtomicOp) (rnd : Rnd) (fpctl : Word)
    (lanes : List AtomicLane) (ret : Bool),
    s.ops.look n = some o → o.kind = .window 1 scalar reg ty op rnd fpctl lanes ret →
    s.windowTrap o.graph ty.bytes 1 scalar (lanes.map (·.at_)) = none →
    (∀ l ∈ lanes, ∃ core off, l.at_.place = .scratch core off) →
    ∃ u, exec (.clusterWindowArrive n) s = .next u ∧ u.mem = s.mem
      ∧ (∀ core x, (∀ l ∈ lanes, ∀ q, l.at_.place = .scratch core q → x < q ∨ q + ty.bytes ≤ x) →
        scratchByte u core x = scratchByte s core x)
      ∧ ∀ before l after, lanes = before ++ l :: after → ∀ core q, l.at_.place = .scratch core q →
        (∀ m ∈ after, ∀ r, m.at_.place = .scratch core r → r + ty.bytes ≤ q ∨ q + ty.bytes ≤ r) →
        ∀ j, j < ty.bytes → scratchByte u core (q + j) = BitVec.ofNat 8 (l.operand.toNat / 256 ^ j)

/-- R247, R265: `tzero` clears the data of its tile alone; `acczero` clears every block that its register names, or takes
`ILLEGAL` where one is beyond the node's. -/
def Obligations.TilesAndBlocksAreZeroed : Prop :=
  ∀ (f : XT) (s : State) (is : Issue), is.c.node.steal = false →
    (Reaches (formTzero f) f.h.bytes [] s is → s.tileBusy is.id is.c f.h.dst.toNat = false →
      ∃ t c, exec (.tzero f) s = .next t ∧ t.ctxs.look is.id = some c
      ∧ let old := is.c.tile f.h.dst.toNat
        let new := c.tile f.h.dst.toNat
        (∀ i < 2048, new.data.at 0 i = 0) ∧ new.control = old.control ∧ new.codebook = old.codebook
        ∧ ∀ n, n ≠ f.h.dst.toNat → c.tile n = is.c.tile n)
    ∧ (Reaches (formSrcS f) f.h.bytes [] s is →
      let named := fun b : Nat => b < 32 ∧ ((formSrcS f).arg is.c 1 0).getLsbD b = true
      ((∃ b, named b ∧ is.c.node.accs ≤ b) → Traps (.acczero f) s is s (Trap.of .illegal))
      ∧ ((∀ b, named b → b < is.c.node.accs) →
        (∀ b, named b → s.blockTargeted is.id b = false ∧ s.blockRead is.id b = false) →
        ∃ t c, exec (.acczero f) s = .next t ∧ t.ctxs.look is.id = some c
        ∧ (∀ b, named b → (∀ w < 1024, (c.acc b).data.at 0 w = 0) ∧ (c.acc b).poison = 0)
        ∧ ∀ b, ¬ named b → c.acc b = is.c.acc b))

/-- R23: the handle of die 0, index 0 and generation 0 is the null handle, and no allocation answers index 0. -/
def Obligations.NullHandleIsNeverAllocated : Prop :=
  handleOf 0 0 0 = 0 ∧ ∀ (s t : State) (c : Ctx) (lane : Nat) (promise : Bool) (h : Word),
    s.allocFrame c lane promise = (t, some h) → bitsOf h 29 8 ≠ 0
end

