-- ==== Sys2Proof/Laws/Decode.lean ====
section
/-! SUPPORT. The fields of an encoded word read back what the encoder wrote, class by class. -/

namespace Sys2Proof.Laws

theorem extract_append_high {a b : Nat} (x : BitVec a) (y : BitVec b) (lo n : Nat) (h : b ≤ lo) :
    (x ++ y).extractLsb' lo n = x.extractLsb' (lo - b) n := by
  apply BitVec.eq_of_getLsbD_eq
  intro i hi
  have h1 : ¬ (lo + i < b) := by omega
  have h2 : lo + i - b = lo - b + i := by omega
  simp [BitVec.getLsbD_append, hi, h1, h2]

theorem extract_append_low {a b : Nat} (x : BitVec a) (y : BitVec b) (lo n : Nat) (h : lo + n ≤ b) :
    (x ++ y).extractLsb' lo n = y.extractLsb' lo n := by
  apply BitVec.eq_of_getLsbD_eq
  intro i hi
  have h1 : lo + i < b := by omega
  simp [BitVec.getLsbD_append, hi, h1]

theorem bit_append_high {a b : Nat} (x : BitVec a) (y : BitVec b) (i : Nat) (h : b ≤ i) :
    (x ++ y).getLsbD i = x.getLsbD (i - b) := by
  have h1 : ¬ (i < b) := by omega
  simp [BitVec.getLsbD_append, h1]

theorem bit_append_low {a b : Nat} (x : BitVec a) (y : BitVec b) (i : Nat) (h : i < b) :
    (x ++ y).getLsbD i = y.getLsbD i := by
  simp [BitVec.getLsbD_append, h]

/-- Every rounding code reads back. -/
theorem rnd_ofCode (r : Rnd) : Rnd.ofCode (BitVec.ofNat 3 r.code).toNat = some r := by cases r <;> rfl

/-- Every type code reads back. -/
theorem ty_ofCode (t : Ty) : Ty.ofCode (BitVec.ofNat 4 t.code).toNat = t := by cases t <;> rfl

/-- Bits [15:8] of word 0 and the like, for the closing of field goals. -/
theorem word0_fields (h : Hdr) (major : BitVec 6) :
    (h.word0 major).field 24 6 = major ∧ (h.word0 major).field 16 8 = h.dst ∧ (h.word0 major).field 8 8 = h.src1
      ∧ (h.word0 major).field 0 8 = h.src2 ∧ (h.word0 major).field 30 2 = if h.lit.isSome then 3#2 else 2#2 := by
  unfold Word.field Hdr.word0
  refine ⟨?_, ?_, ?_, ?_, ?_⟩ <;>
    (repeat (first
        | refine (extract_append_low _ _ _ _ (by decide)).trans ?_
        | refine (extract_append_high _ _ _ _ (by decide)).trans ?_)
      <;> simp)

/-- The fields of word 1. -/
theorem word1_fields (h : Hdr) (subop : BitVec 10) :
    (h.word1 subop).field 22 10 = subop ∧ (h.word1 subop).getLsbD 21 = h.guard.neg
      ∧ (h.word1 subop).field 18 3 = h.guard.num ∧ (h.word1 subop).field 15 3 = h.empty
      ∧ (h.word1 subop).field 11 4 = BitVec.ofNat 4 h.ty.code ∧ (h.word1 subop).field 8 3 = BitVec.ofNat 3 h.rnd.code
      ∧ (h.word1 subop).field 0 8 = h.src3 := by
  unfold Word.field Hdr.word1
  refine ⟨?_, ?_, ?_, ?_, ?_, ?_, ?_⟩ <;>
    (repeat (first
        | refine (extract_append_low _ _ _ _ (by decide)).trans ?_
        | refine (extract_append_high _ _ _ _ (by decide)).trans ?_
        | refine (bit_append_low _ _ _ (by decide)).trans ?_
        | refine (bit_append_high _ _ _ (by decide)).trans ?_)
      <;> simp)

/-- Words 0 and 1 hold every field of the header. -/
theorem hdr_ofWords (h : Hdr) (major : BitVec 6) (subop : BitVec 10) :
    Hdr.ofWords (h.word0 major) (h.word1 subop) h.lit = some h := by
  obtain ⟨-, d, a, b, -⟩ := word0_fields h major
  obtain ⟨-, neg, num, e, ty, rnd, c⟩ := word1_fields h subop
  simp only [Hdr.ofWords, d, a, b, neg, num, e, ty, rnd, c, rnd_ofCode, ty_ofCode, Option.map_some]

/-- Word 2 of class XV holds every field. -/
theorem xv_ofWord (f : XV) : XV.ofWord f.h f.word = some f := by
  have fields :
      f.word.field 29 3 = f.kind ∧ f.word.getLsbD 28 = f.sat ∧ f.word.field 25 3 = f.neg
        ∧ f.word.field 22 3 = f.abs ∧ f.word.field 18 4 = f.cond ∧ f.word.field 14 4 = BitVec.ofNat 4 f.src.code
        ∧ f.word.field 0 14 = 0 := by
    unfold Word.field XV.word
    refine ⟨?_, ?_, ?_, ?_, ?_, ?_, ?_⟩ <;>
      (repeat (first
          | refine (extract_append_low _ _ _ _ (by decide)).trans ?_
          | refine (extract_append_high _ _ _ _ (by decide)).trans ?_
          | refine (bit_append_low _ _ _ (by decide)).trans ?_
          | refine (bit_append_high _ _ _ (by decide)).trans ?_)
        <;> simp)
  obtain ⟨h0, h1, h2, h3, h4, h5, h6⟩ := fields
  simp only [XV.ofWord, h0, h1, h2, h3, h4, h5, h6, ty_ofCode, if_true]

/-- Word 2 of class XL holds every field. -/
theorem xl_ofWord (f : XL) : XL.ofWord f.h f.word = f := by
  have fields : f.word.field 29 3 = f.kind ∧ f.word.field 25 4 = f.mode ∧ f.word.field 0 25 = f.imm := by
    unfold Word.field XL.word
    refine ⟨?_, ?_, ?_⟩ <;>
      (repeat (first
          | refine (extract_append_low _ _ _ _ (by decide)).trans ?_
          | refine (extract_append_high _ _ _ _ (by decide)).trans ?_)
        <;> simp)
  obtain ⟨h0, h1, h2⟩ := fields
  simp [XL.ofWord, h0, h1, h2]

/-- Word 2 of class XM holds every field. -/
theorem xm_ofWord (f : XM) : XM.ofWord f.h f.word = f := by
  have fields :
      f.word.field 29 3 = f.space ∧ f.word.field 27 2 = f.xsel ∧ f.word.field 24 3 = f.scale
        ∧ f.word.getLsbD 23 = f.scalarIndex ∧ f.word.field 20 3 = f.op ∧ f.word.getLsbD 19 = f.rh
        ∧ f.word.field 0 19 = f.disp := by
    unfold Word.field XM.word
    refine ⟨?_, ?_, ?_, ?_, ?_, ?_, ?_⟩ <;>
      (repeat (first
          | refine (extract_append_low _ _ _ _ (by decide)).trans ?_
          | refine (extract_append_high _ _ _ _ (by decide)).trans ?_
          | refine (bit_append_low _ _ _ (by decide)).trans ?_
          | refine (bit_append_high _ _ _ (by decide)).trans ?_)
        <;> simp)
  obtain ⟨h0, h1, h2, h3, h4, h5, h6⟩ := fields
  simp only [XM.ofWord, h0, h1, h2, h3, h4, h5, h6]

/-- Word 2 of class XA holds every field. -/
theorem xa_ofWord (f : XA) : XA.ofWord f.h f.word = f := by
  have fields : f.word.field 29 3 = f.kind ∧ f.word.field 0 29 = f.imm := by
    unfold Word.field XA.word
    refine ⟨?_, ?_⟩ <;>
      (repeat (first
          | refine (extract_append_low _ _ _ _ (by decide)).trans ?_
          | refine (extract_append_high _ _ _ _ (by decide)).trans ?_)
        <;> simp)
  obtain ⟨h0, h1⟩ := fields
  simp [XA.ofWord, h0, h1]

/-- Word 2 of class XT holds every field. -/
theorem xt_ofWord (f : XT) : XT.ofWord f.h f.word = f := by
  have fields : f.word.field 29 3 = f.kind ∧ f.word.field 0 29 = f.imm := by
    unfold Word.field XT.word
    refine ⟨?_, ?_⟩ <;>
      (repeat (first
          | refine (extract_append_low _ _ _ _ (by decide)).trans ?_
          | refine (extract_append_high _ _ _ _ (by decide)).trans ?_)
        <;> simp)
  obtain ⟨h0, h1⟩ := fields
  simp [XT.ofWord, h0, h1]

/-- A literal's two words. -/
theorem literal_words (l : DWord) : literal (l.extractLsb' 0 32) (l.extractLsb' 32 32) = l := by
  apply BitVec.eq_of_getLsbD_eq
  intro i hi
  unfold literal
  by_cases h : i < 32
  · rw [bit_append_low _ _ _ h]
    simp [h]
  · rw [bit_append_high _ _ _ (by omega)]
    have h1 : i - 32 < 32 := by omega
    have h2 : 32 + (i - 32) = i := by omega
    simp [h1, h2]

/-- A word's four bytes. -/
theorem word_bytes (w : Word) :
    wordOfBytes (w.extractLsb' 0 8) (w.extractLsb' 8 8) (w.extractLsb' 16 8) (w.extractLsb' 24 8) = w := by
  apply BitVec.eq_of_getLsbD_eq
  intro i hi
  simp only [wordOfBytes, BitVec.getLsbD_append, BitVec.getLsbD_extractLsb']
  split
  · simp [*]
  split
  · rw [show 8 + (i - 8) = i by omega]; simp [*]
  split
  · rw [show 16 + (i - 8 - 8) = i by omega]; simp [*]
  · rw [show 24 + (i - 8 - 8 - 8) = i by omega]; simp [show i - 8 - 8 - 8 < 8 by omega]

/-- A base form's word. -/
theorem base_ofWord (f : Base) (major : BitVec 6) :
    let w := (if f.lit.isSome then 1#2 else 0#2) ++ major ++ f.dst ++ f.src1 ++ f.src2
    Base.ofWord w f.lit = f ∧ Word.field w 24 6 = major ∧ Word.field w 30 2 = if f.lit.isSome then 1#2 else 0#2 := by
  intro w
  have fields : Word.field w 16 8 = f.dst ∧ Word.field w 8 8 = f.src1 ∧ Word.field w 0 8 = f.src2
      ∧ Word.field w 24 6 = major ∧ Word.field w 30 2 = if f.lit.isSome then 1#2 else 0#2 := by
    unfold Word.field
    refine ⟨?_, ?_, ?_, ?_, ?_⟩ <;>
      (repeat (first
          | refine (extract_append_low _ _ _ _ (by decide)).trans ?_
          | refine (extract_append_high _ _ _ _ (by decide)).trans ?_)
        <;> simp)
  obtain ⟨d, a, b, m, l⟩ := fields
  exact ⟨by simp [Base.ofWord, d, a, b], m, l⟩

/-- The first words of encoded words are those words. -/
theorem takeWords_bytes (ws : List Word) (rest : List Byte) :
    takeWords ws.length (ws.flatMap bytesOfWord ++ rest) = some (ws, rest) := by
  induction ws with
  | nil => rfl
  | cons w ws ih => simp [takeWords, bytesOfWord, word_bytes] at ih ⊢; simp [ih]

/-- The words of an extended instruction parse as its class does. -/
theorem parse_words (h : Hdr) (major : BitVec 6) (subop : BitVec 10) (w2 : Word) (hm : major ≠ 0x3E#6) :
    parseWords (h.words major subop w2) = decodeExtended (h.word0 major) (h.word1 subop) w2 h.lit := by
  obtain ⟨m, -, -, -, l⟩ := word0_fields h major
  have hm' : ¬ (major.toNat = 62) := fun e => hm (BitVec.eq_of_toNat_eq e)
  unfold Hdr.words parseWords
  cases hl : h.lit with
  | none => simp [hl] at l; simp [l]
  | some x => simp [hl] at l; simp only [l, m]; simp [literalWords, literal_words, hm']

/-- `LEN` says how many words there are. -/
theorem len_words (h : Hdr) (major : BitVec 6) (subop : BitVec 10) (w2 : Word) :
    lengthOf (h.word0 major) = (h.words major subop w2).length := by
  obtain ⟨m, -, -, -, l⟩ := word0_fields h major
  unfold lengthOf
  rw [l]
  cases hl : h.lit <;> simp [Hdr.words, hl, literalWords]

/-- Class XC parses back to what its sub-operation names. -/
theorem parse_xc (f : XC) (s : BitVec 10) :
    parseWords (f.h.words 0x38 s f.imm) = orReject (Instr.ofXC s.toNat f) .badSubop := by
  obtain ⟨m, -⟩ := word0_fields f.h 0x38
  obtain ⟨n, -⟩ := word1_fields f.h s
  rw [parse_words _ _ _ _ (by decide), decodeExtended, hdr_ofWords, m, n]
  rfl

/-- Class XV parses back. -/
theorem parse_xv (f : XV) (s : BitVec 10) :
    parseWords (f.h.words 0x39 s f.word) = orReject (Instr.ofXV s.toNat f) .badSubop := by
  obtain ⟨m, -⟩ := word0_fields f.h 0x39
  obtain ⟨n, -⟩ := word1_fields f.h s
  rw [parse_words _ _ _ _ (by decide), decodeExtended, hdr_ofWords, m, n]
  simp [xv_ofWord]

/-- Class XL parses back. -/
theorem parse_xl (f : XL) (s : BitVec 10) :
    parseWords (f.h.words 0x3A s f.word) = orReject (Instr.ofXL s.toNat f) .badSubop := by
  obtain ⟨m, -⟩ := word0_fields f.h 0x3A
  obtain ⟨n, -⟩ := word1_fields f.h s
  rw [parse_words _ _ _ _ (by decide), decodeExtended, hdr_ofWords, m, n]
  simp [xl_ofWord]

/-- Class XM parses back. -/
theorem parse_xm (f : XM) (s : BitVec 10) :
    parseWords (f.h.words 0x3B s f.word) = orReject (Instr.ofXM s.toNat f) .badSubop := by
  obtain ⟨m, -⟩ := word0_fields f.h 0x3B
  obtain ⟨n, -⟩ := word1_fields f.h s
  rw [parse_words _ _ _ _ (by decide), decodeExtended, hdr_ofWords, m, n]
  simp [xm_ofWord]

/-- Class XA parses back. -/
theorem parse_xa (f : XA) (s : BitVec 10) :
    parseWords (f.h.words 0x3C s f.word) = orReject (Instr.ofXA s.toNat f) .badSubop := by
  obtain ⟨m, -⟩ := word0_fields f.h 0x3C
  obtain ⟨n, -⟩ := word1_fields f.h s
  rw [parse_words _ _ _ _ (by decide), decodeExtended, hdr_ofWords, m, n]
  simp [xa_ofWord]

/-- Class XT parses back. -/
theorem parse_xt (f : XT) (s : BitVec 10) :
    parseWords (f.h.words 0x3D s f.word) = orReject (Instr.ofXT s.toNat f) .badSubop := by
  obtain ⟨m, -⟩ := word0_fields f.h 0x3D
  obtain ⟨n, -⟩ := word1_fields f.h s
  rw [parse_words _ _ _ _ (by decide), decodeExtended, hdr_ofWords, m, n]
  simp [xt_ofWord]

/-- The base forms parse back. -/
theorem parse_base (f : Base) (m : BitVec 6) :
    parseWords (f.words m) = orReject (Instr.ofBase m.toNat f) .badMajor := by
  obtain ⟨a, b, c⟩ := base_ofWord f m
  unfold Base.words
  cases hl : f.lit with
  | none =>
    simp only [hl, Option.isSome_none, Bool.false_eq_true, if_false] at a b c ⊢
    revert a b c
    generalize (0#2 ++ m ++ f.dst ++ f.src1 ++ f.src2 : BitVec 32) = w
    intro a b c
    simp [parseWords, b, c, a]
  | some x =>
    simp only [hl, Option.isSome_some, if_true] at a b c ⊢
    revert a b c
    generalize (1#2 ++ m ++ f.dst ++ f.src1 ++ f.src2 : BitVec 32) = w
    intro a b c
    simp only [parseWords, b, c, literalWords, Option.map_some, Option.getD_some]
    show orReject (Instr.ofBase m.toNat (Base.ofWord w (some (literal _ _)))) _ = _
    rw [literal_words, a]

end Sys2Proof.Laws
end

