-- ==== Sys2Proof/Laws/Issue.lean ====
section
/-! SUPPORT. What issuing an instruction can answer, said once: its own part, where it is reached. -/

namespace Sys2Proof.Laws

open Machine Claims

/-- Full locations make a source full. -/
theorem sourceState_full (c : Ctx) (trapping : Bool) (ks : List Nat) (h : ∀ k ∈ ks, c.fills.look k = none) :
    c.sourceState trapping ks = .full := by
  have p : ks.find? c.isPoisoned = none := by
    rw [List.find?_eq_none]; intro k hk; simp [Ctx.isPoisoned, h k hk]
  have e : ks.filter c.isEmpty = [] := by
    rw [List.filter_eq_nil_iff]; intro k hk; simp [Ctx.isEmpty, h k hk]
  simp [Ctx.sourceState, p, e]

/-- Full sources make the instruction go on. -/
theorem sourcesState_full (c : Ctx) (srcs : List (Bool × List Nat)) (h : ∀ e ∈ srcs, ∀ k ∈ e.2, c.fills.look k = none) :
    c.sourcesState srcs = .full := by
  have all : ∀ r ∈ srcs.map fun e => c.sourceState e.1 e.2, r = .full := by
    intro r hr
    obtain ⟨e, he, rfl⟩ := List.mem_map.1 hr
    exact sourceState_full c e.1 e.2 (h e he)
  have none_of : ∀ p : SourceState → Bool, p .full = false →
      (srcs.map fun e => c.sourceState e.1 e.2).find? p = none := by
    intro p hp
    rw [List.find?_eq_none]
    intro r hr
    simp [all r hr, hp]
  have empty : (srcs.flatMap fun e => e.2.filter c.isEmpty) = [] := by
    rw [List.flatMap_eq_nil_iff]
    intro e he
    rw [List.filter_eq_nil_iff]
    intro k hk
    simp [Ctx.isEmpty, h e he k hk]
  rw [Ctx.sourcesState]
  simp only [empty]
  rw [none_of _ (by rfl), none_of _ (by rfl)]

/-- An instruction that reaches its own part answers what that part answers. -/
theorem issueOn_reaches {f : Form} {bytes : Nat} {more : List Field} {s : State} {is : Issue}
    {illegal absent : Issue → State → Bool} {written : Issue → LaneMask} {act : Issue → State → Res}
    (h : Reaches f bytes more s is (written is)) (hi : illegal is s = false) (ha : absent is s = false) :
    issueOn f bytes more illegal absent written act s = .next ((act is s).finish is.id is.i is.next) := by
  rcases is with ⟨id, i, c, sp, acting, next⟩
  obtain ⟨issuer, act', next', exist, acts, full, free⟩ := h
  simp only at issuer act' next' exist acts full free hi ha
  subst act' next'
  have dst : (if f.dst.mode.writes then (f.dst.locs (written ⟨id, i, c, sp, f.acting c sp, sp.pc + BitVec.ofNat 64 bytes⟩)).filter
      c.isEmpty else []) = [] := by
    split
    · rw [List.filter_eq_nil_iff]
      intro k hk
      simpa [Ctx.isEmpty] using free (by assumption) k hk
    · rfl
  have some_lane : ¬ f.acting c sp = 0#64 := acts
  simp [issueOn, issuer, exist, hi, ha, some_lane, sourcesState_full c _ full, dst]

/-- The same of an instruction that writes in every lane in which it acts. -/
theorem issueWith_reaches {f : Form} {bytes : Nat} {more : List Field} {s : State} {is : Issue}
    {illegal absent : Issue → State → Bool} {act : Issue → State → Res}
    (h : Reaches f bytes more s is) (hi : illegal is s = false) (ha : absent is s = false) :
    issueWith f bytes more illegal absent act s = .next ((act is s).finish is.id is.i is.next) :=
  issueOn_reaches h hi ha

/-- The same of an instruction without checks of its own. -/
theorem issue_reaches {f : Form} {bytes : Nat} {s : State} {is : Issue} {act : Issue → State → Res}
    (h : Reaches f bytes [] s is) : issue f bytes act s = .next ((act is s).finish is.id is.i is.next) :=
  issueWith_reaches h rfl rfl

/-- Whether an instruction of a form reaches its own part, as a test. -/
def reachesB (f : Form) (bytes : Nat) (more : List Field) (s : State) (is : Issue) : Bool :=
  decide (s.issuer = some (is.id, is.i, is.c, is.sp)) && decide (is.acting = f.acting is.c is.sp)
    && decide (is.next = is.sp.pc + BitVec.ofNat 64 bytes)
    && (f.dst.existsFor is.c && f.src1.existsFor is.c && f.src2.existsFor is.c && f.src3.existsFor is.c)
    && decide (is.acting ≠ 0)
    && ((f.sources more is.acting is.sp.mask).all fun e => e.2.all fun k => decide (is.c.fills.look k = none))
    && (!f.dst.mode.writes || (f.dst.locs is.acting).all fun k => decide (is.c.fills.look k ≠ some .empty))

theorem reaches_of {f : Form} {bytes : Nat} {more : List Field} {s : State} {is : Issue}
    (h : reachesB f bytes more s is = true) : Reaches f bytes more s is := by
  simp only [reachesB, Bool.and_eq_true, decide_eq_true_eq, List.all_eq_true, Bool.or_eq_true, Bool.not_eq_true'] at h
  obtain ⟨⟨⟨⟨⟨⟨h1, h2⟩, h3⟩, h4⟩, h5⟩, h6⟩, h7⟩ := h
  refine ⟨h1, h2, h3, by simpa using h4, h5, h6, fun hw k hk => ?_⟩
  rcases h7 with h | h
  · simp [h] at hw
  · exact h k hk

/-- An instruction is issued by a split, or stops with `noIssuer`: whatever it answers is carried out there. -/
theorem issueOn_answers (f : Form) (bytes : Nat) (more : List Field) (illegal absent : Issue → State → Bool)
    (written : Issue → LaneMask) (act : Issue → State → Res) (s : State) :
    (s.issuer = none ∧ issueOn f bytes more illegal absent written act s = .fault .noIssuer) ∨
    ∃ (is : Issue) (r : Res), s.issuer = some (is.id, is.i, is.c, is.sp)
      ∧ issueOn f bytes more illegal absent written act s = .next (Res.finish is.id is.i is.next r) := by
  unfold issueOn
  cases h : s.issuer with
  | none => exact .inl ⟨rfl, rfl⟩
  | some e => exact .inr ⟨⟨e.1, e.2.1, e.2.2.1, e.2.2.2, f.acting e.2.2.1 e.2.2.2, e.2.2.2.pc + BitVec.ofNat 64 bytes⟩, _, rfl, rfl⟩

/-- The same of an instruction that writes in every lane in which it acts. -/
theorem issueWith_answers (f : Form) (bytes : Nat) (more : List Field) (illegal absent : Issue → State → Bool)
    (act : Issue → State → Res) (s : State) :
    (s.issuer = none ∧ issueWith f bytes more illegal absent act s = .fault .noIssuer) ∨
    ∃ (is : Issue) (r : Res), s.issuer = some (is.id, is.i, is.c, is.sp)
      ∧ issueWith f bytes more illegal absent act s = .next (Res.finish is.id is.i is.next r) :=
  issueOn_answers f bytes more illegal absent _ act s

/-- An instruction whose unit is absent takes `UNIT_ABSENT` (R118). -/
theorem issueOn_absent {f : Form} {bytes : Nat} {more : List Field} {s : State} {is : Issue}
    {illegal absent : Issue → State → Bool} {written : Issue → LaneMask} {act : Issue → State → Res} (h : Reaches f bytes more s is (written is))
    (hi : illegal is s = false) (ha : absent is s = true) :
    issueOn f bytes more illegal absent written act s = .next (s.takeTrap is.id is.i (Trap.of .unitAbsent) none) := by
  rcases is with ⟨id, i, c, sp, acting, next⟩
  obtain ⟨issuer, act', next', exist, -, -, -⟩ := h
  simp only at issuer act' next' exist hi ha
  subst act' next'
  simp [issueOn, issuer, exist, hi, ha, Res.finish]

/-- An instruction whose own checks fail takes `ILLEGAL` (R118). -/
theorem issueWith_illegal {f : Form} {bytes : Nat} {more : List Field} {s : State} {is : Issue}
    {illegal absent : Issue → State → Bool} {act : Issue → State → Res} (h : Reaches f bytes more s is)
    (hi : illegal is s = true) :
    issueWith f bytes more illegal absent act s = .next (s.takeTrap is.id is.i (Trap.of .illegal) none) := by
  rcases is with ⟨id, i, c, sp, acting, next⟩
  obtain ⟨issuer, act', next', exist, -, -, -⟩ := h
  simp only at issuer act' next' exist hi
  subst act' next'
  simp [issueWith, issueOn, issuer, exist, hi, Res.finish]

end Sys2Proof.Laws
end

