-- ==== Sys2Proof/Laws/Maps.lean ====
section
/-! SUPPORT. The laws of sparse maps: reading after writing, and that writes keep the canonical form. -/

namespace Sys2Proof.Laws

variable {α : Type}

/-! ## Reading after writing -/

@[simp] theorem look_ins_same (m : SMap α) (k : Nat) (a : α) : (m.ins k a).look k = some a := by
  induction m with
  | nil => simp [SMap.ins, SMap.look]
  | cons e m ih =>
    obtain ⟨j, b⟩ := e
    simp only [SMap.ins]
    split
    · simp [SMap.look]
    · split
      · simp [SMap.look]
      · simp [SMap.look, *]

theorem look_ins_ne (m : SMap α) {k j : Nat} (a : α) (h : j ≠ k) : (m.ins k a).look j = m.look j := by
  induction m with
  | nil => simp [SMap.ins, SMap.look, Ne.symm h]
  | cons e m ih =>
    obtain ⟨i, b⟩ := e
    simp only [SMap.ins]
    split
    · simp [SMap.look, Ne.symm h]
    · split
      · rename_i e; subst e; simp [SMap.look, Ne.symm h]
      · simp [SMap.look, ih]

theorem look_ins (m : SMap α) (k j : Nat) (a : α) : (m.ins k a).look j = if j = k then some a else m.look j := by
  split
  · rename_i h; subst h; exact look_ins_same m j a
  · exact look_ins_ne m a ‹_›

@[simp] theorem look_del_same (m : SMap α) (k : Nat) : (m.del k).look k = none := by
  induction m with
  | nil => rfl
  | cons e m ih =>
    obtain ⟨j, b⟩ := e
    by_cases h : j = k
    · simpa [SMap.del, h] using ih
    · have : SMap.del ((j, b) :: m) k = (j, b) :: SMap.del m k := by simp [SMap.del, h]
      rw [this]; simpa [SMap.look, h] using ih

theorem look_del_ne (m : SMap α) {k j : Nat} (h : j ≠ k) : (m.del k).look j = m.look j := by
  induction m with
  | nil => rfl
  | cons e m ih =>
    obtain ⟨i, b⟩ := e
    by_cases g : i = k
    · have : SMap.del ((i, b) :: m) k = SMap.del m k := by simp [SMap.del, g]
      rw [this, ih]; simp [SMap.look, g, Ne.symm h]
    · have : SMap.del ((i, b) :: m) k = (i, b) :: SMap.del m k := by simp [SMap.del, g]
      rw [this]; simp [SMap.look, ih]

theorem look_del (m : SMap α) (k j : Nat) : (m.del k).look j = if j = k then none else m.look j := by
  split
  · rename_i h; subst h; exact look_del_same m j
  · exact look_del_ne m ‹_›

theorem look_modify (m : SMap α) (k j : Nat) (f : α → α) :
    (m.modify k f).look j = if j = k then (m.look k).map f else m.look j := by
  unfold SMap.modify
  split
  · rename_i a h; rw [look_ins]; split <;> simp_all
  · rename_i h; split <;> simp_all

theorem modify_of_look {m : SMap α} {k : Nat} {a : α} (h : m.look k = some a) (f : α → α) :
    m.modify k f = m.ins k (f a) := by simp [SMap.modify, h]

@[simp] theorem at_put_same [DecidableEq α] (m : SMap α) (d : α) (k : Nat) (a : α) : (m.put d k a).at d k = a := by
  unfold SMap.put SMap.at
  split <;> simp_all

theorem at_put_ne [DecidableEq α] (m : SMap α) (d : α) {k j : Nat} (a : α) (h : j ≠ k) :
    (m.put d k a).at d j = m.at d j := by
  unfold SMap.put SMap.at
  split
  · rw [look_del_ne m h]
  · rw [look_ins_ne m a h]

theorem at_put [DecidableEq α] (m : SMap α) (d : α) (k j : Nat) (a : α) :
    (m.put d k a).at d j = if j = k then a else m.at d j := by
  split
  · rename_i h; subst h; exact at_put_same m d j a
  · exact at_put_ne m d a ‹_›

@[simp] theorem look_nil (k : Nat) : SMap.look ([] : SMap α) k = none := rfl
@[simp] theorem at_nil (d : α) (k : Nat) : SMap.at ([] : SMap α) d k = d := rfl

/-! ## The canonical form -/

/-- Rising keys, as a pairwise order. -/
theorem rising_iff (m : SMap α) : m.rising = true ↔ m.Pairwise fun a b => a.1 < b.1 := by
  induction m with
  | nil => simp [SMap.rising]
  | cons e m ih =>
    cases m with
    | nil => simp [SMap.rising]
    | cons g m =>
      obtain ⟨j, a⟩ := e
      obtain ⟨k, b⟩ := g
      simp only [SMap.rising, Bool.and_eq_true, decide_eq_true_eq, ih, List.pairwise_cons]
      constructor
      · rintro ⟨h, h1, h2⟩
        refine ⟨?_, h1, h2⟩
        intro x hx
        rcases List.mem_cons.1 hx with rfl | hx
        · exact h
        · exact lt_trans h (h1 x hx)
      · rintro ⟨h, h1, h2⟩
        exact ⟨h (k, b) (by simp), h1, h2⟩

theorem mem_ins (m : SMap α) (k : Nat) (a : α) : ∀ e ∈ m.ins k a, e = (k, a) ∨ e ∈ m := by
  induction m with
  | nil => simp [SMap.ins]
  | cons e m ih =>
    obtain ⟨j, b⟩ := e
    simp only [SMap.ins]
    intro x hx
    split at hx
    · simpa using hx
    · split at hx
      · rcases List.mem_cons.1 hx with rfl | hx <;> simp_all
      · rcases List.mem_cons.1 hx with rfl | hx
        · simp
        · rcases ih x hx with h | h <;> simp [h]

theorem rising_ins {m : SMap α} (h : m.rising = true) (k : Nat) (a : α) : (m.ins k a).rising = true := by
  rw [rising_iff] at *
  induction m with
  | nil => simp [SMap.ins]
  | cons e m ih =>
    obtain ⟨j, b⟩ := e
    rw [List.pairwise_cons] at h
    simp only [SMap.ins]
    split
    · rename_i hk
      rw [List.pairwise_cons]
      refine ⟨?_, List.pairwise_cons.2 h⟩
      intro x hx
      rcases List.mem_cons.1 hx with rfl | hx
      · exact hk
      · exact lt_trans hk (h.1 x hx)
    · split
      · rename_i e; subst e; exact List.pairwise_cons.2 h
      · rename_i h1 h2
        rw [List.pairwise_cons]
        refine ⟨?_, ih h.2⟩
        intro x hx
        rcases mem_ins m k a x hx with rfl | hx
        · exact lt_of_le_of_ne (not_lt.1 h1) h2
        · exact h.1 x hx

theorem rising_del {m : SMap α} (h : m.rising = true) (k : Nat) : (m.del k).rising = true := by
  rw [rising_iff] at *
  exact h.filter _

/-- Writing keeps the canonical form of a store with a default. -/
theorem canonical_put [DecidableEq α] {m : SMap α} {d : α} (h : m.canonical d = true) (k : Nat) (a : α) :
    (m.put d k a).canonical d = true := by
  unfold SMap.canonical at *
  rw [Bool.and_eq_true, List.all_eq_true] at *
  unfold SMap.put
  split
  · exact ⟨rising_del h.1 k, fun e he => h.2 e (List.mem_filter.1 he).1⟩
  · refine ⟨rising_ins h.1 k a, fun e he => ?_⟩
    rcases mem_ins m k a e he with rfl | he
    · simpa using ‹¬a = d›
    · exact h.2 e he

/-- Writing a list of entries keeps the canonical form. -/
theorem canonical_puts [DecidableEq α] {d : α} (l : List (Nat × α)) {m : SMap α} (h : m.canonical d = true) :
    (l.foldl (fun m (e : Nat × α) => m.put d e.1 e.2) m).canonical d = true := by
  induction l generalizing m with
  | nil => exact h
  | cons e l ih => exact ih (canonical_put h e.1 e.2)

/-- A store in canonical form is determined by what it reads: equal stores are equal data. -/
theorem canonical_ext [DecidableEq α] {d : α} {m n : SMap α} (hm : m.canonical d = true) (hn : n.canonical d = true)
    (h : ∀ k, m.at d k = n.at d k) : m = n := by
  have key : ∀ {m : SMap α}, m.canonical d = true → ∀ {k : Nat} {a : α}, (k, a) ∈ m ↔ m.look k = some a := by
    intro m hm k a
    unfold SMap.canonical at hm
    rw [Bool.and_eq_true, rising_iff] at hm
    replace hm := hm.1
    induction m with
    | nil => simp [SMap.look]
    | cons e m ih =>
      obtain ⟨j, b⟩ := e
      rw [List.pairwise_cons] at hm
      simp only [SMap.look, List.mem_cons, Prod.mk.injEq]
      split
      · rename_i e; subst e
        constructor
        · rintro (⟨-, rfl⟩ | h)
          · rfl
          · exact absurd (hm.1 _ h) (lt_irrefl _)
        · intro h; simp_all
      · rename_i e
        refine Iff.trans ?_ (ih hm.2)
        constructor
        · rintro (⟨rfl, -⟩ | h)
          · exact absurd rfl e
          · exact h
        · exact Or.inr
  have mem : ∀ {m n : SMap α}, m.canonical d = true → n.canonical d = true → (∀ k, m.at d k = n.at d k) →
      ∀ x ∈ m, x ∈ n := by
    intro m n hm hn h x hx
    obtain ⟨k, a⟩ := x
    have ha : a ≠ d := by
      have := (Bool.and_eq_true _ _ ▸ hm : m.rising = true ∧ _).2
      simpa using List.all_eq_true.1 this _ hx
    have hk := (key hm).1 hx
    have e := h k
    unfold SMap.at at e
    rw [hk] at e
    cases hl : n.look k with
    | none => simp [hl] at e; exact absurd e ha
    | some b => rw [hl] at e; simp at e; exact (key hn).2 (e ▸ hl)
  have rm := (rising_iff m).1 (Bool.and_eq_true _ _ ▸ hm : m.rising = true ∧ _).1
  have rn := (rising_iff n).1 (Bool.and_eq_true _ _ ▸ hn : n.rising = true ∧ _).1
  have nodup : ∀ {m : SMap α}, (m.Pairwise fun a b => a.1 < b.1) → m.Nodup := fun h =>
    h.imp fun hlt e => absurd (congrArg Prod.fst e) (Nat.ne_of_lt hlt)
  have p : m.Perm n := (List.perm_ext_iff_of_nodup (nodup rm) (nodup rn)).2 fun x =>
    ⟨mem hm hn h x, mem hn hm (fun k => (h k).symm) x⟩
  refine p.eq_of_pairwise (fun a b ha hb h1 h2 => absurd (lt_trans h1 h2) (lt_irrefl _)) rm rn

end Sys2Proof.Laws
end

