-- ==== Sys2Proof/Laws/State.lean ====
section
/-! SUPPORT. What the updates of the state leave and what they change: one lemma for each field that an update leaves,
true by `rfl`, and the reads of what it wrote. -/

namespace Sys2Proof.Laws

open Machine

variable (s : State)

/-! ## `setCtx` -/

@[simp] theorem setCtx_variant (id : Nat) (c : Ctx) : (s.setCtx id c).variant = s.variant := rfl
@[simp] theorem setCtx_cxl (id : Nat) (c : Ctx) : (s.setCtx id c).cxl = s.cxl := rfl
@[simp] theorem setCtx_clock (id : Nat) (c : Ctx) : (s.setCtx id c).clock = s.clock := rfl
@[simp] theorem setCtx_ref (id : Nat) (c : Ctx) : (s.setCtx id c).ref = s.ref := rfl
@[simp] theorem setCtx_refPart (id : Nat) (c : Ctx) : (s.setCtx id c).refPart = s.refPart := rfl
@[simp] theorem setCtx_clockMhz (id : Nat) (c : Ctx) : (s.setCtx id c).clockMhz = s.clockMhz := rfl
@[simp] theorem setCtx_ilshare (id : Nat) (c : Ctx) : (s.setCtx id c).ilshare = s.ilshare := rfl
@[simp] theorem setCtx_memmapWritten (id : Nat) (c : Ctx) : (s.setCtx id c).memmapWritten = s.memmapWritten := rfl
@[simp] theorem setCtx_mem (id : Nat) (c : Ctx) : (s.setCtx id c).mem = s.mem := rfl
@[simp] theorem setCtx_poison (id : Nat) (c : Ctx) : (s.setCtx id c).poison = s.poison := rfl
@[simp] theorem setCtx_handles (id : Nat) (c : Ctx) : (s.setCtx id c).handles = s.handles := rfl
@[simp] theorem setCtx_l2 (id : Nat) (c : Ctx) : (s.setCtx id c).l2 = s.l2 := rfl
@[simp] theorem setCtx_merges (id : Nat) (c : Ctx) : (s.setCtx id c).merges = s.merges := rfl
@[simp] theorem setCtx_frames (id : Nat) (c : Ctx) : (s.setCtx id c).frames = s.frames := rfl
@[simp] theorem setCtx_waiters (id : Nat) (c : Ctx) : (s.setCtx id c).waiters = s.waiters := rfl
@[simp] theorem setCtx_orphans (id : Nat) (c : Ctx) : (s.setCtx id c).orphans = s.orphans := rfl
@[simp] theorem setCtx_released (id : Nat) (c : Ctx) : (s.setCtx id c).released = s.released := rfl
@[simp] theorem setCtx_conts (id : Nat) (c : Ctx) : (s.setCtx id c).conts = s.conts := rfl
@[simp] theorem setCtx_sent (id : Nat) (c : Ctx) : (s.setCtx id c).sent = s.sent := rfl
@[simp] theorem setCtx_reports (id : Nat) (c : Ctx) : (s.setCtx id c).reports = s.reports := rfl
@[simp] theorem setCtx_bins (id : Nat) (c : Ctx) : (s.setCtx id c).bins = s.bins := rfl
@[simp] theorem setCtx_launches (id : Nat) (c : Ctx) : (s.setCtx id c).launches = s.launches := rfl
@[simp] theorem setCtx_deposits (id : Nat) (c : Ctx) : (s.setCtx id c).deposits = s.deposits := rfl
@[simp] theorem setCtx_placeQ (id : Nat) (c : Ctx) : (s.setCtx id c).placeQ = s.placeQ := rfl
@[simp] theorem setCtx_pqueues (id : Nat) (c : Ctx) : (s.setCtx id c).pqueues = s.pqueues := rfl
@[simp] theorem setCtx_scans (id : Nat) (c : Ctx) : (s.setCtx id c).scans = s.scans := rfl
@[simp] theorem setCtx_vocabLast (id : Nat) (c : Ctx) : (s.setCtx id c).vocabLast = s.vocabLast := rfl
@[simp] theorem setCtx_watch (id : Nat) (c : Ctx) : (s.setCtx id c).watch = s.watch := rfl
@[simp] theorem setCtx_graphs (id : Nat) (c : Ctx) : (s.setCtx id c).graphs = s.graphs := rfl
@[simp] theorem setCtx_teams (id : Nat) (c : Ctx) : (s.setCtx id c).teams = s.teams := rfl
@[simp] theorem setCtx_cores (id : Nat) (c : Ctx) : (s.setCtx id c).cores = s.cores := rfl
@[simp] theorem setCtx_ops (id : Nat) (c : Ctx) : (s.setCtx id c).ops = s.ops := rfl
@[simp] theorem setCtx_writes (id : Nat) (c : Ctx) : (s.setCtx id c).writes = s.writes := rfl
@[simp] theorem setCtx_ranges (id : Nat) (c : Ctx) : (s.setCtx id c).ranges = s.ranges := rfl
@[simp] theorem setCtx_errHead (id : Nat) (c : Ctx) : (s.setCtx id c).errHead = s.errHead := rfl
@[simp] theorem setCtx_errCount (id : Nat) (c : Ctx) : (s.setCtx id c).errCount = s.errCount := rfl
@[simp] theorem setCtx_host (id : Nat) (c : Ctx) : (s.setCtx id c).host = s.host := rfl
@[simp] theorem setCtx_armWin (id : Nat) (c : Ctx) : (s.setCtx id c).armWin = s.armWin := rfl
@[simp] theorem setCtx_linkUp (id : Nat) (c : Ctx) : (s.setCtx id c).linkUp = s.linkUp := rfl
@[simp] theorem setCtx_reqEnable (id : Nat) (c : Ctx) : (s.setCtx id c).reqEnable = s.reqEnable := rfl
@[simp] theorem setCtx_ports (id : Nat) (c : Ctx) : (s.setCtx id c).ports = s.ports := rfl
@[simp] theorem setCtx_boundaries (id : Nat) (c : Ctx) : (s.setCtx id c).boundaries = s.boundaries := rfl
@[simp] theorem setCtx_hinge (id : Nat) (c : Ctx) : (s.setCtx id c).hinge = s.hinge := rfl
@[simp] theorem setCtx_replies (id : Nat) (c : Ctx) : (s.setCtx id c).replies = s.replies := rfl
@[simp] theorem setCtx_channels (id : Nat) (c : Ctx) : (s.setCtx id c).channels = s.channels := rfl
@[simp] theorem setCtx_copying (id : Nat) (c : Ctx) : (s.setCtx id c).copying = s.copying := rfl
@[simp] theorem setCtx_spares (id : Nat) (c : Ctx) : (s.setCtx id c).spares = s.spares := rfl
@[simp] theorem setCtx_sleeping (id : Nat) (c : Ctx) : (s.setCtx id c).sleeping = s.sleeping := rfl
@[simp] theorem setCtx_firmware (id : Nat) (c : Ctx) : (s.setCtx id c).firmware = s.firmware := rfl
@[simp] theorem setCtx_hostRead (id : Nat) (c : Ctx) : (s.setCtx id c).hostRead = s.hostRead := rfl
@[simp] theorem setCtx_agenda (id : Nat) (c : Ctx) : (s.setCtx id c).agenda = s.agenda := rfl
@[simp] theorem setCtx_cur (id : Nat) (c : Ctx) : (s.setCtx id c).cur = s.cur := rfl
@[simp] theorem setCtx_free (id : Nat) (c : Ctx) : (s.setCtx id c).free = s.free := rfl
@[simp] theorem setCtx_nextId (id : Nat) (c : Ctx) : (s.setCtx id c).nextId = s.nextId := rfl

/-! ## `modCtx` -/

@[simp] theorem modCtx_variant (id : Nat) (f : Ctx → Ctx) : (s.modCtx id f).variant = s.variant := rfl
@[simp] theorem modCtx_cxl (id : Nat) (f : Ctx → Ctx) : (s.modCtx id f).cxl = s.cxl := rfl
@[simp] theorem modCtx_clock (id : Nat) (f : Ctx → Ctx) : (s.modCtx id f).clock = s.clock := rfl
@[simp] theorem modCtx_ref (id : Nat) (f : Ctx → Ctx) : (s.modCtx id f).ref = s.ref := rfl
@[simp] theorem modCtx_refPart (id : Nat) (f : Ctx → Ctx) : (s.modCtx id f).refPart = s.refPart := rfl
@[simp] theorem modCtx_clockMhz (id : Nat) (f : Ctx → Ctx) : (s.modCtx id f).clockMhz = s.clockMhz := rfl
@[simp] theorem modCtx_ilshare (id : Nat) (f : Ctx → Ctx) : (s.modCtx id f).ilshare = s.ilshare := rfl
@[simp] theorem modCtx_memmapWritten (id : Nat) (f : Ctx → Ctx) : (s.modCtx id f).memmapWritten = s.memmapWritten := rfl
@[simp] theorem modCtx_mem (id : Nat) (f : Ctx → Ctx) : (s.modCtx id f).mem = s.mem := rfl
@[simp] theorem modCtx_poison (id : Nat) (f : Ctx → Ctx) : (s.modCtx id f).poison = s.poison := rfl
@[simp] theorem modCtx_handles (id : Nat) (f : Ctx → Ctx) : (s.modCtx id f).handles = s.handles := rfl
@[simp] theorem modCtx_l2 (id : Nat) (f : Ctx → Ctx) : (s.modCtx id f).l2 = s.l2 := rfl
@[simp] theorem modCtx_merges (id : Nat) (f : Ctx → Ctx) : (s.modCtx id f).merges = s.merges := rfl
@[simp] theorem modCtx_frames (id : Nat) (f : Ctx → Ctx) : (s.modCtx id f).frames = s.frames := rfl
@[simp] theorem modCtx_waiters (id : Nat) (f : Ctx → Ctx) : (s.modCtx id f).waiters = s.waiters := rfl
@[simp] theorem modCtx_orphans (id : Nat) (f : Ctx → Ctx) : (s.modCtx id f).orphans = s.orphans := rfl
@[simp] theorem modCtx_released (id : Nat) (f : Ctx → Ctx) : (s.modCtx id f).released = s.released := rfl
@[simp] theorem modCtx_conts (id : Nat) (f : Ctx → Ctx) : (s.modCtx id f).conts = s.conts := rfl
@[simp] theorem modCtx_sent (id : Nat) (f : Ctx → Ctx) : (s.modCtx id f).sent = s.sent := rfl
@[simp] theorem modCtx_reports (id : Nat) (f : Ctx → Ctx) : (s.modCtx id f).reports = s.reports := rfl
@[simp] theorem modCtx_bins (id : Nat) (f : Ctx → Ctx) : (s.modCtx id f).bins = s.bins := rfl
@[simp] theorem modCtx_launches (id : Nat) (f : Ctx → Ctx) : (s.modCtx id f).launches = s.launches := rfl
@[simp] theorem modCtx_deposits (id : Nat) (f : Ctx → Ctx) : (s.modCtx id f).deposits = s.deposits := rfl
@[simp] theorem modCtx_placeQ (id : Nat) (f : Ctx → Ctx) : (s.modCtx id f).placeQ = s.placeQ := rfl
@[simp] theorem modCtx_pqueues (id : Nat) (f : Ctx → Ctx) : (s.modCtx id f).pqueues = s.pqueues := rfl
@[simp] theorem modCtx_scans (id : Nat) (f : Ctx → Ctx) : (s.modCtx id f).scans = s.scans := rfl
@[simp] theorem modCtx_vocabLast (id : Nat) (f : Ctx → Ctx) : (s.modCtx id f).vocabLast = s.vocabLast := rfl
@[simp] theorem modCtx_watch (id : Nat) (f : Ctx → Ctx) : (s.modCtx id f).watch = s.watch := rfl
@[simp] theorem modCtx_graphs (id : Nat) (f : Ctx → Ctx) : (s.modCtx id f).graphs = s.graphs := rfl
@[simp] theorem modCtx_teams (id : Nat) (f : Ctx → Ctx) : (s.modCtx id f).teams = s.teams := rfl
@[simp] theorem modCtx_cores (id : Nat) (f : Ctx → Ctx) : (s.modCtx id f).cores = s.cores := rfl
@[simp] theorem modCtx_ops (id : Nat) (f : Ctx → Ctx) : (s.modCtx id f).ops = s.ops := rfl
@[simp] theorem modCtx_writes (id : Nat) (f : Ctx → Ctx) : (s.modCtx id f).writes = s.writes := rfl
@[simp] theorem modCtx_ranges (id : Nat) (f : Ctx → Ctx) : (s.modCtx id f).ranges = s.ranges := rfl
@[simp] theorem modCtx_errHead (id : Nat) (f : Ctx → Ctx) : (s.modCtx id f).errHead = s.errHead := rfl
@[simp] theorem modCtx_errCount (id : Nat) (f : Ctx → Ctx) : (s.modCtx id f).errCount = s.errCount := rfl
@[simp] theorem modCtx_host (id : Nat) (f : Ctx → Ctx) : (s.modCtx id f).host = s.host := rfl
@[simp] theorem modCtx_armWin (id : Nat) (f : Ctx → Ctx) : (s.modCtx id f).armWin = s.armWin := rfl
@[simp] theorem modCtx_linkUp (id : Nat) (f : Ctx → Ctx) : (s.modCtx id f).linkUp = s.linkUp := rfl
@[simp] theorem modCtx_reqEnable (id : Nat) (f : Ctx → Ctx) : (s.modCtx id f).reqEnable = s.reqEnable := rfl
@[simp] theorem modCtx_ports (id : Nat) (f : Ctx → Ctx) : (s.modCtx id f).ports = s.ports := rfl
@[simp] theorem modCtx_boundaries (id : Nat) (f : Ctx → Ctx) : (s.modCtx id f).boundaries = s.boundaries := rfl
@[simp] theorem modCtx_hinge (id : Nat) (f : Ctx → Ctx) : (s.modCtx id f).hinge = s.hinge := rfl
@[simp] theorem modCtx_replies (id : Nat) (f : Ctx → Ctx) : (s.modCtx id f).replies = s.replies := rfl
@[simp] theorem modCtx_channels (id : Nat) (f : Ctx → Ctx) : (s.modCtx id f).channels = s.channels := rfl
@[simp] theorem modCtx_copying (id : Nat) (f : Ctx → Ctx) : (s.modCtx id f).copying = s.copying := rfl
@[simp] theorem modCtx_spares (id : Nat) (f : Ctx → Ctx) : (s.modCtx id f).spares = s.spares := rfl
@[simp] theorem modCtx_sleeping (id : Nat) (f : Ctx → Ctx) : (s.modCtx id f).sleeping = s.sleeping := rfl
@[simp] theorem modCtx_firmware (id : Nat) (f : Ctx → Ctx) : (s.modCtx id f).firmware = s.firmware := rfl
@[simp] theorem modCtx_hostRead (id : Nat) (f : Ctx → Ctx) : (s.modCtx id f).hostRead = s.hostRead := rfl
@[simp] theorem modCtx_agenda (id : Nat) (f : Ctx → Ctx) : (s.modCtx id f).agenda = s.agenda := rfl
@[simp] theorem modCtx_cur (id : Nat) (f : Ctx → Ctx) : (s.modCtx id f).cur = s.cur := rfl
@[simp] theorem modCtx_free (id : Nat) (f : Ctx → Ctx) : (s.modCtx id f).free = s.free := rfl
@[simp] theorem modCtx_nextId (id : Nat) (f : Ctx → Ctx) : (s.modCtx id f).nextId = s.nextId := rfl

/-! ## `modSplit` -/

@[simp] theorem modSplit_variant (id i : Nat) (f : Split → Split) : (s.modSplit id i f).variant = s.variant := rfl
@[simp] theorem modSplit_cxl (id i : Nat) (f : Split → Split) : (s.modSplit id i f).cxl = s.cxl := rfl
@[simp] theorem modSplit_clock (id i : Nat) (f : Split → Split) : (s.modSplit id i f).clock = s.clock := rfl
@[simp] theorem modSplit_ref (id i : Nat) (f : Split → Split) : (s.modSplit id i f).ref = s.ref := rfl
@[simp] theorem modSplit_refPart (id i : Nat) (f : Split → Split) : (s.modSplit id i f).refPart = s.refPart := rfl
@[simp] theorem modSplit_clockMhz (id i : Nat) (f : Split → Split) : (s.modSplit id i f).clockMhz = s.clockMhz := rfl
@[simp] theorem modSplit_ilshare (id i : Nat) (f : Split → Split) : (s.modSplit id i f).ilshare = s.ilshare := rfl
@[simp] theorem modSplit_memmapWritten (id i : Nat) (f : Split → Split) : (s.modSplit id i f).memmapWritten = s.memmapWritten := rfl
@[simp] theorem modSplit_mem (id i : Nat) (f : Split → Split) : (s.modSplit id i f).mem = s.mem := rfl
@[simp] theorem modSplit_poison (id i : Nat) (f : Split → Split) : (s.modSplit id i f).poison = s.poison := rfl
@[simp] theorem modSplit_handles (id i : Nat) (f : Split → Split) : (s.modSplit id i f).handles = s.handles := rfl
@[simp] theorem modSplit_l2 (id i : Nat) (f : Split → Split) : (s.modSplit id i f).l2 = s.l2 := rfl
@[simp] theorem modSplit_merges (id i : Nat) (f : Split → Split) : (s.modSplit id i f).merges = s.merges := rfl
@[simp] theorem modSplit_frames (id i : Nat) (f : Split → Split) : (s.modSplit id i f).frames = s.frames := rfl
@[simp] theorem modSplit_waiters (id i : Nat) (f : Split → Split) : (s.modSplit id i f).waiters = s.waiters := rfl
@[simp] theorem modSplit_orphans (id i : Nat) (f : Split → Split) : (s.modSplit id i f).orphans = s.orphans := rfl
@[simp] theorem modSplit_released (id i : Nat) (f : Split → Split) : (s.modSplit id i f).released = s.released := rfl
@[simp] theorem modSplit_conts (id i : Nat) (f : Split → Split) : (s.modSplit id i f).conts = s.conts := rfl
@[simp] theorem modSplit_sent (id i : Nat) (f : Split → Split) : (s.modSplit id i f).sent = s.sent := rfl
@[simp] theorem modSplit_reports (id i : Nat) (f : Split → Split) : (s.modSplit id i f).reports = s.reports := rfl
@[simp] theorem modSplit_bins (id i : Nat) (f : Split → Split) : (s.modSplit id i f).bins = s.bins := rfl
@[simp] theorem modSplit_launches (id i : Nat) (f : Split → Split) : (s.modSplit id i f).launches = s.launches := rfl
@[simp] theorem modSplit_deposits (id i : Nat) (f : Split → Split) : (s.modSplit id i f).deposits = s.deposits := rfl
@[simp] theorem modSplit_placeQ (id i : Nat) (f : Split → Split) : (s.modSplit id i f).placeQ = s.placeQ := rfl
@[simp] theorem modSplit_pqueues (id i : Nat) (f : Split → Split) : (s.modSplit id i f).pqueues = s.pqueues := rfl
@[simp] theorem modSplit_scans (id i : Nat) (f : Split → Split) : (s.modSplit id i f).scans = s.scans := rfl
@[simp] theorem modSplit_vocabLast (id i : Nat) (f : Split → Split) : (s.modSplit id i f).vocabLast = s.vocabLast := rfl
@[simp] theorem modSplit_watch (id i : Nat) (f : Split → Split) : (s.modSplit id i f).watch = s.watch := rfl
@[simp] theorem modSplit_graphs (id i : Nat) (f : Split → Split) : (s.modSplit id i f).graphs = s.graphs := rfl
@[simp] theorem modSplit_teams (id i : Nat) (f : Split → Split) : (s.modSplit id i f).teams = s.teams := rfl
@[simp] theorem modSplit_cores (id i : Nat) (f : Split → Split) : (s.modSplit id i f).cores = s.cores := rfl
@[simp] theorem modSplit_ops (id i : Nat) (f : Split → Split) : (s.modSplit id i f).ops = s.ops := rfl
@[simp] theorem modSplit_writes (id i : Nat) (f : Split → Split) : (s.modSplit id i f).writes = s.writes := rfl
@[simp] theorem modSplit_ranges (id i : Nat) (f : Split → Split) : (s.modSplit id i f).ranges = s.ranges := rfl
@[simp] theorem modSplit_errHead (id i : Nat) (f : Split → Split) : (s.modSplit id i f).errHead = s.errHead := rfl
@[simp] theorem modSplit_errCount (id i : Nat) (f : Split → Split) : (s.modSplit id i f).errCount = s.errCount := rfl
@[simp] theorem modSplit_host (id i : Nat) (f : Split → Split) : (s.modSplit id i f).host = s.host := rfl
@[simp] theorem modSplit_armWin (id i : Nat) (f : Split → Split) : (s.modSplit id i f).armWin = s.armWin := rfl
@[simp] theorem modSplit_linkUp (id i : Nat) (f : Split → Split) : (s.modSplit id i f).linkUp = s.linkUp := rfl
@[simp] theorem modSplit_reqEnable (id i : Nat) (f : Split → Split) : (s.modSplit id i f).reqEnable = s.reqEnable := rfl
@[simp] theorem modSplit_ports (id i : Nat) (f : Split → Split) : (s.modSplit id i f).ports = s.ports := rfl
@[simp] theorem modSplit_boundaries (id i : Nat) (f : Split → Split) : (s.modSplit id i f).boundaries = s.boundaries := rfl
@[simp] theorem modSplit_hinge (id i : Nat) (f : Split → Split) : (s.modSplit id i f).hinge = s.hinge := rfl
@[simp] theorem modSplit_replies (id i : Nat) (f : Split → Split) : (s.modSplit id i f).replies = s.replies := rfl
@[simp] theorem modSplit_channels (id i : Nat) (f : Split → Split) : (s.modSplit id i f).channels = s.channels := rfl
@[simp] theorem modSplit_copying (id i : Nat) (f : Split → Split) : (s.modSplit id i f).copying = s.copying := rfl
@[simp] theorem modSplit_spares (id i : Nat) (f : Split → Split) : (s.modSplit id i f).spares = s.spares := rfl
@[simp] theorem modSplit_sleeping (id i : Nat) (f : Split → Split) : (s.modSplit id i f).sleeping = s.sleeping := rfl
@[simp] theorem modSplit_firmware (id i : Nat) (f : Split → Split) : (s.modSplit id i f).firmware = s.firmware := rfl
@[simp] theorem modSplit_hostRead (id i : Nat) (f : Split → Split) : (s.modSplit id i f).hostRead = s.hostRead := rfl
@[simp] theorem modSplit_agenda (id i : Nat) (f : Split → Split) : (s.modSplit id i f).agenda = s.agenda := rfl
@[simp] theorem modSplit_cur (id i : Nat) (f : Split → Split) : (s.modSplit id i f).cur = s.cur := rfl
@[simp] theorem modSplit_free (id i : Nat) (f : Split → Split) : (s.modSplit id i f).free = s.free := rfl
@[simp] theorem modSplit_nextId (id i : Nat) (f : Split → Split) : (s.modSplit id i f).nextId = s.nextId := rfl

/-! ## `setCore` -/

@[simp] theorem setCore_variant (k : Nat) (c : Core) : (s.setCore k c).variant = s.variant := rfl
@[simp] theorem setCore_cxl (k : Nat) (c : Core) : (s.setCore k c).cxl = s.cxl := rfl
@[simp] theorem setCore_clock (k : Nat) (c : Core) : (s.setCore k c).clock = s.clock := rfl
@[simp] theorem setCore_ref (k : Nat) (c : Core) : (s.setCore k c).ref = s.ref := rfl
@[simp] theorem setCore_refPart (k : Nat) (c : Core) : (s.setCore k c).refPart = s.refPart := rfl
@[simp] theorem setCore_clockMhz (k : Nat) (c : Core) : (s.setCore k c).clockMhz = s.clockMhz := rfl
@[simp] theorem setCore_ilshare (k : Nat) (c : Core) : (s.setCore k c).ilshare = s.ilshare := rfl
@[simp] theorem setCore_memmapWritten (k : Nat) (c : Core) : (s.setCore k c).memmapWritten = s.memmapWritten := rfl
@[simp] theorem setCore_mem (k : Nat) (c : Core) : (s.setCore k c).mem = s.mem := rfl
@[simp] theorem setCore_poison (k : Nat) (c : Core) : (s.setCore k c).poison = s.poison := rfl
@[simp] theorem setCore_handles (k : Nat) (c : Core) : (s.setCore k c).handles = s.handles := rfl
@[simp] theorem setCore_l2 (k : Nat) (c : Core) : (s.setCore k c).l2 = s.l2 := rfl
@[simp] theorem setCore_merges (k : Nat) (c : Core) : (s.setCore k c).merges = s.merges := rfl
@[simp] theorem setCore_frames (k : Nat) (c : Core) : (s.setCore k c).frames = s.frames := rfl
@[simp] theorem setCore_waiters (k : Nat) (c : Core) : (s.setCore k c).waiters = s.waiters := rfl
@[simp] theorem setCore_orphans (k : Nat) (c : Core) : (s.setCore k c).orphans = s.orphans := rfl
@[simp] theorem setCore_released (k : Nat) (c : Core) : (s.setCore k c).released = s.released := rfl
@[simp] theorem setCore_conts (k : Nat) (c : Core) : (s.setCore k c).conts = s.conts := rfl
@[simp] theorem setCore_sent (k : Nat) (c : Core) : (s.setCore k c).sent = s.sent := rfl
@[simp] theorem setCore_reports (k : Nat) (c : Core) : (s.setCore k c).reports = s.reports := rfl
@[simp] theorem setCore_bins (k : Nat) (c : Core) : (s.setCore k c).bins = s.bins := rfl
@[simp] theorem setCore_launches (k : Nat) (c : Core) : (s.setCore k c).launches = s.launches := rfl
@[simp] theorem setCore_deposits (k : Nat) (c : Core) : (s.setCore k c).deposits = s.deposits := rfl
@[simp] theorem setCore_placeQ (k : Nat) (c : Core) : (s.setCore k c).placeQ = s.placeQ := rfl
@[simp] theorem setCore_pqueues (k : Nat) (c : Core) : (s.setCore k c).pqueues = s.pqueues := rfl
@[simp] theorem setCore_scans (k : Nat) (c : Core) : (s.setCore k c).scans = s.scans := rfl
@[simp] theorem setCore_vocabLast (k : Nat) (c : Core) : (s.setCore k c).vocabLast = s.vocabLast := rfl
@[simp] theorem setCore_watch (k : Nat) (c : Core) : (s.setCore k c).watch = s.watch := rfl
@[simp] theorem setCore_graphs (k : Nat) (c : Core) : (s.setCore k c).graphs = s.graphs := rfl
@[simp] theorem setCore_teams (k : Nat) (c : Core) : (s.setCore k c).teams = s.teams := rfl
@[simp] theorem setCore_ctxs (k : Nat) (c : Core) : (s.setCore k c).ctxs = s.ctxs := rfl
@[simp] theorem setCore_ops (k : Nat) (c : Core) : (s.setCore k c).ops = s.ops := rfl
@[simp] theorem setCore_writes (k : Nat) (c : Core) : (s.setCore k c).writes = s.writes := rfl
@[simp] theorem setCore_ranges (k : Nat) (c : Core) : (s.setCore k c).ranges = s.ranges := rfl
@[simp] theorem setCore_errHead (k : Nat) (c : Core) : (s.setCore k c).errHead = s.errHead := rfl
@[simp] theorem setCore_errCount (k : Nat) (c : Core) : (s.setCore k c).errCount = s.errCount := rfl
@[simp] theorem setCore_host (k : Nat) (c : Core) : (s.setCore k c).host = s.host := rfl
@[simp] theorem setCore_armWin (k : Nat) (c : Core) : (s.setCore k c).armWin = s.armWin := rfl
@[simp] theorem setCore_linkUp (k : Nat) (c : Core) : (s.setCore k c).linkUp = s.linkUp := rfl
@[simp] theorem setCore_reqEnable (k : Nat) (c : Core) : (s.setCore k c).reqEnable = s.reqEnable := rfl
@[simp] theorem setCore_ports (k : Nat) (c : Core) : (s.setCore k c).ports = s.ports := rfl
@[simp] theorem setCore_boundaries (k : Nat) (c : Core) : (s.setCore k c).boundaries = s.boundaries := rfl
@[simp] theorem setCore_hinge (k : Nat) (c : Core) : (s.setCore k c).hinge = s.hinge := rfl
@[simp] theorem setCore_replies (k : Nat) (c : Core) : (s.setCore k c).replies = s.replies := rfl
@[simp] theorem setCore_channels (k : Nat) (c : Core) : (s.setCore k c).channels = s.channels := rfl
@[simp] theorem setCore_copying (k : Nat) (c : Core) : (s.setCore k c).copying = s.copying := rfl
@[simp] theorem setCore_spares (k : Nat) (c : Core) : (s.setCore k c).spares = s.spares := rfl
@[simp] theorem setCore_sleeping (k : Nat) (c : Core) : (s.setCore k c).sleeping = s.sleeping := rfl
@[simp] theorem setCore_firmware (k : Nat) (c : Core) : (s.setCore k c).firmware = s.firmware := rfl
@[simp] theorem setCore_hostRead (k : Nat) (c : Core) : (s.setCore k c).hostRead = s.hostRead := rfl
@[simp] theorem setCore_agenda (k : Nat) (c : Core) : (s.setCore k c).agenda = s.agenda := rfl
@[simp] theorem setCore_cur (k : Nat) (c : Core) : (s.setCore k c).cur = s.cur := rfl
@[simp] theorem setCore_free (k : Nat) (c : Core) : (s.setCore k c).free = s.free := rfl
@[simp] theorem setCore_nextId (k : Nat) (c : Core) : (s.setCore k c).nextId = s.nextId := rfl

/-! ## `modCore` -/

@[simp] theorem modCore_variant (k : Nat) (f : Core → Core) : (s.modCore k f).variant = s.variant := rfl
@[simp] theorem modCore_cxl (k : Nat) (f : Core → Core) : (s.modCore k f).cxl = s.cxl := rfl
@[simp] theorem modCore_clock (k : Nat) (f : Core → Core) : (s.modCore k f).clock = s.clock := rfl
@[simp] theorem modCore_ref (k : Nat) (f : Core → Core) : (s.modCore k f).ref = s.ref := rfl
@[simp] theorem modCore_refPart (k : Nat) (f : Core → Core) : (s.modCore k f).refPart = s.refPart := rfl
@[simp] theorem modCore_clockMhz (k : Nat) (f : Core → Core) : (s.modCore k f).clockMhz = s.clockMhz := rfl
@[simp] theorem modCore_ilshare (k : Nat) (f : Core → Core) : (s.modCore k f).ilshare = s.ilshare := rfl
@[simp] theorem modCore_memmapWritten (k : Nat) (f : Core → Core) : (s.modCore k f).memmapWritten = s.memmapWritten := rfl
@[simp] theorem modCore_mem (k : Nat) (f : Core → Core) : (s.modCore k f).mem = s.mem := rfl
@[simp] theorem modCore_poison (k : Nat) (f : Core → Core) : (s.modCore k f).poison = s.poison := rfl
@[simp] theorem modCore_handles (k : Nat) (f : Core → Core) : (s.modCore k f).handles = s.handles := rfl
@[simp] theorem modCore_l2 (k : Nat) (f : Core → Core) : (s.modCore k f).l2 = s.l2 := rfl
@[simp] theorem modCore_merges (k : Nat) (f : Core → Core) : (s.modCore k f).merges = s.merges := rfl
@[simp] theorem modCore_frames (k : Nat) (f : Core → Core) : (s.modCore k f).frames = s.frames := rfl
@[simp] theorem modCore_waiters (k : Nat) (f : Core → Core) : (s.modCore k f).waiters = s.waiters := rfl
@[simp] theorem modCore_orphans (k : Nat) (f : Core → Core) : (s.modCore k f).orphans = s.orphans := rfl
@[simp] theorem modCore_released (k : Nat) (f : Core → Core) : (s.modCore k f).released = s.released := rfl
@[simp] theorem modCore_conts (k : Nat) (f : Core → Core) : (s.modCore k f).conts = s.conts := rfl
@[simp] theorem modCore_sent (k : Nat) (f : Core → Core) : (s.modCore k f).sent = s.sent := rfl
@[simp] theorem modCore_reports (k : Nat) (f : Core → Core) : (s.modCore k f).reports = s.reports := rfl
@[simp] theorem modCore_bins (k : Nat) (f : Core → Core) : (s.modCore k f).bins = s.bins := rfl
@[simp] theorem modCore_launches (k : Nat) (f : Core → Core) : (s.modCore k f).launches = s.launches := rfl
@[simp] theorem modCore_deposits (k : Nat) (f : Core → Core) : (s.modCore k f).deposits = s.deposits := rfl
@[simp] theorem modCore_placeQ (k : Nat) (f : Core → Core) : (s.modCore k f).placeQ = s.placeQ := rfl
@[simp] theorem modCore_pqueues (k : Nat) (f : Core → Core) : (s.modCore k f).pqueues = s.pqueues := rfl
@[simp] theorem modCore_scans (k : Nat) (f : Core → Core) : (s.modCore k f).scans = s.scans := rfl
@[simp] theorem modCore_vocabLast (k : Nat) (f : Core → Core) : (s.modCore k f).vocabLast = s.vocabLast := rfl
@[simp] theorem modCore_watch (k : Nat) (f : Core → Core) : (s.modCore k f).watch = s.watch := rfl
@[simp] theorem modCore_graphs (k : Nat) (f : Core → Core) : (s.modCore k f).graphs = s.graphs := rfl
@[simp] theorem modCore_teams (k : Nat) (f : Core → Core) : (s.modCore k f).teams = s.teams := rfl
@[simp] theorem modCore_ctxs (k : Nat) (f : Core → Core) : (s.modCore k f).ctxs = s.ctxs := rfl
@[simp] theorem modCore_ops (k : Nat) (f : Core → Core) : (s.modCore k f).ops = s.ops := rfl
@[simp] theorem modCore_writes (k : Nat) (f : Core → Core) : (s.modCore k f).writes = s.writes := rfl
@[simp] theorem modCore_ranges (k : Nat) (f : Core → Core) : (s.modCore k f).ranges = s.ranges := rfl
@[simp] theorem modCore_errHead (k : Nat) (f : Core → Core) : (s.modCore k f).errHead = s.errHead := rfl
@[simp] theorem modCore_errCount (k : Nat) (f : Core → Core) : (s.modCore k f).errCount = s.errCount := rfl
@[simp] theorem modCore_host (k : Nat) (f : Core → Core) : (s.modCore k f).host = s.host := rfl
@[simp] theorem modCore_armWin (k : Nat) (f : Core → Core) : (s.modCore k f).armWin = s.armWin := rfl
@[simp] theorem modCore_linkUp (k : Nat) (f : Core → Core) : (s.modCore k f).linkUp = s.linkUp := rfl
@[simp] theorem modCore_reqEnable (k : Nat) (f : Core → Core) : (s.modCore k f).reqEnable = s.reqEnable := rfl
@[simp] theorem modCore_ports (k : Nat) (f : Core → Core) : (s.modCore k f).ports = s.ports := rfl
@[simp] theorem modCore_boundaries (k : Nat) (f : Core → Core) : (s.modCore k f).boundaries = s.boundaries := rfl
@[simp] theorem modCore_hinge (k : Nat) (f : Core → Core) : (s.modCore k f).hinge = s.hinge := rfl
@[simp] theorem modCore_replies (k : Nat) (f : Core → Core) : (s.modCore k f).replies = s.replies := rfl
@[simp] theorem modCore_channels (k : Nat) (f : Core → Core) : (s.modCore k f).channels = s.channels := rfl
@[simp] theorem modCore_copying (k : Nat) (f : Core → Core) : (s.modCore k f).copying = s.copying := rfl
@[simp] theorem modCore_spares (k : Nat) (f : Core → Core) : (s.modCore k f).spares = s.spares := rfl
@[simp] theorem modCore_sleeping (k : Nat) (f : Core → Core) : (s.modCore k f).sleeping = s.sleeping := rfl
@[simp] theorem modCore_firmware (k : Nat) (f : Core → Core) : (s.modCore k f).firmware = s.firmware := rfl
@[simp] theorem modCore_hostRead (k : Nat) (f : Core → Core) : (s.modCore k f).hostRead = s.hostRead := rfl
@[simp] theorem modCore_agenda (k : Nat) (f : Core → Core) : (s.modCore k f).agenda = s.agenda := rfl
@[simp] theorem modCore_cur (k : Nat) (f : Core → Core) : (s.modCore k f).cur = s.cur := rfl
@[simp] theorem modCore_free (k : Nat) (f : Core → Core) : (s.modCore k f).free = s.free := rfl
@[simp] theorem modCore_nextId (k : Nat) (f : Core → Core) : (s.modCore k f).nextId = s.nextId := rfl

/-! ## `modTeam` -/

@[simp] theorem modTeam_variant (id : Nat) (f : Team → Team) : (s.modTeam id f).variant = s.variant := rfl
@[simp] theorem modTeam_cxl (id : Nat) (f : Team → Team) : (s.modTeam id f).cxl = s.cxl := rfl
@[simp] theorem modTeam_clock (id : Nat) (f : Team → Team) : (s.modTeam id f).clock = s.clock := rfl
@[simp] theorem modTeam_ref (id : Nat) (f : Team → Team) : (s.modTeam id f).ref = s.ref := rfl
@[simp] theorem modTeam_refPart (id : Nat) (f : Team → Team) : (s.modTeam id f).refPart = s.refPart := rfl
@[simp] theorem modTeam_clockMhz (id : Nat) (f : Team → Team) : (s.modTeam id f).clockMhz = s.clockMhz := rfl
@[simp] theorem modTeam_ilshare (id : Nat) (f : Team → Team) : (s.modTeam id f).ilshare = s.ilshare := rfl
@[simp] theorem modTeam_memmapWritten (id : Nat) (f : Team → Team) : (s.modTeam id f).memmapWritten = s.memmapWritten := rfl
@[simp] theorem modTeam_mem (id : Nat) (f : Team → Team) : (s.modTeam id f).mem = s.mem := rfl
@[simp] theorem modTeam_poison (id : Nat) (f : Team → Team) : (s.modTeam id f).poison = s.poison := rfl
@[simp] theorem modTeam_handles (id : Nat) (f : Team → Team) : (s.modTeam id f).handles = s.handles := rfl
@[simp] theorem modTeam_l2 (id : Nat) (f : Team → Team) : (s.modTeam id f).l2 = s.l2 := rfl
@[simp] theorem modTeam_merges (id : Nat) (f : Team → Team) : (s.modTeam id f).merges = s.merges := rfl
@[simp] theorem modTeam_frames (id : Nat) (f : Team → Team) : (s.modTeam id f).frames = s.frames := rfl
@[simp] theorem modTeam_waiters (id : Nat) (f : Team → Team) : (s.modTeam id f).waiters = s.waiters := rfl
@[simp] theorem modTeam_orphans (id : Nat) (f : Team → Team) : (s.modTeam id f).orphans = s.orphans := rfl
@[simp] theorem modTeam_released (id : Nat) (f : Team → Team) : (s.modTeam id f).released = s.released := rfl
@[simp] theorem modTeam_conts (id : Nat) (f : Team → Team) : (s.modTeam id f).conts = s.conts := rfl
@[simp] theorem modTeam_sent (id : Nat) (f : Team → Team) : (s.modTeam id f).sent = s.sent := rfl
@[simp] theorem modTeam_reports (id : Nat) (f : Team → Team) : (s.modTeam id f).reports = s.reports := rfl
@[simp] theorem modTeam_bins (id : Nat) (f : Team → Team) : (s.modTeam id f).bins = s.bins := rfl
@[simp] theorem modTeam_launches (id : Nat) (f : Team → Team) : (s.modTeam id f).launches = s.launches := rfl
@[simp] theorem modTeam_deposits (id : Nat) (f : Team → Team) : (s.modTeam id f).deposits = s.deposits := rfl
@[simp] theorem modTeam_placeQ (id : Nat) (f : Team → Team) : (s.modTeam id f).placeQ = s.placeQ := rfl
@[simp] theorem modTeam_pqueues (id : Nat) (f : Team → Team) : (s.modTeam id f).pqueues = s.pqueues := rfl
@[simp] theorem modTeam_scans (id : Nat) (f : Team → Team) : (s.modTeam id f).scans = s.scans := rfl
@[simp] theorem modTeam_vocabLast (id : Nat) (f : Team → Team) : (s.modTeam id f).vocabLast = s.vocabLast := rfl
@[simp] theorem modTeam_watch (id : Nat) (f : Team → Team) : (s.modTeam id f).watch = s.watch := rfl
@[simp] theorem modTeam_graphs (id : Nat) (f : Team → Team) : (s.modTeam id f).graphs = s.graphs := rfl
@[simp] theorem modTeam_ctxs (id : Nat) (f : Team → Team) : (s.modTeam id f).ctxs = s.ctxs := rfl
@[simp] theorem modTeam_cores (id : Nat) (f : Team → Team) : (s.modTeam id f).cores = s.cores := rfl
@[simp] theorem modTeam_ops (id : Nat) (f : Team → Team) : (s.modTeam id f).ops = s.ops := rfl
@[simp] theorem modTeam_writes (id : Nat) (f : Team → Team) : (s.modTeam id f).writes = s.writes := rfl
@[simp] theorem modTeam_ranges (id : Nat) (f : Team → Team) : (s.modTeam id f).ranges = s.ranges := rfl
@[simp] theorem modTeam_errHead (id : Nat) (f : Team → Team) : (s.modTeam id f).errHead = s.errHead := rfl
@[simp] theorem modTeam_errCount (id : Nat) (f : Team → Team) : (s.modTeam id f).errCount = s.errCount := rfl
@[simp] theorem modTeam_host (id : Nat) (f : Team → Team) : (s.modTeam id f).host = s.host := rfl
@[simp] theorem modTeam_armWin (id : Nat) (f : Team → Team) : (s.modTeam id f).armWin = s.armWin := rfl
@[simp] theorem modTeam_linkUp (id : Nat) (f : Team → Team) : (s.modTeam id f).linkUp = s.linkUp := rfl
@[simp] theorem modTeam_reqEnable (id : Nat) (f : Team → Team) : (s.modTeam id f).reqEnable = s.reqEnable := rfl
@[simp] theorem modTeam_ports (id : Nat) (f : Team → Team) : (s.modTeam id f).ports = s.ports := rfl
@[simp] theorem modTeam_boundaries (id : Nat) (f : Team → Team) : (s.modTeam id f).boundaries = s.boundaries := rfl
@[simp] theorem modTeam_hinge (id : Nat) (f : Team → Team) : (s.modTeam id f).hinge = s.hinge := rfl
@[simp] theorem modTeam_replies (id : Nat) (f : Team → Team) : (s.modTeam id f).replies = s.replies := rfl
@[simp] theorem modTeam_channels (id : Nat) (f : Team → Team) : (s.modTeam id f).channels = s.channels := rfl
@[simp] theorem modTeam_copying (id : Nat) (f : Team → Team) : (s.modTeam id f).copying = s.copying := rfl
@[simp] theorem modTeam_spares (id : Nat) (f : Team → Team) : (s.modTeam id f).spares = s.spares := rfl
@[simp] theorem modTeam_sleeping (id : Nat) (f : Team → Team) : (s.modTeam id f).sleeping = s.sleeping := rfl
@[simp] theorem modTeam_firmware (id : Nat) (f : Team → Team) : (s.modTeam id f).firmware = s.firmware := rfl
@[simp] theorem modTeam_hostRead (id : Nat) (f : Team → Team) : (s.modTeam id f).hostRead = s.hostRead := rfl
@[simp] theorem modTeam_agenda (id : Nat) (f : Team → Team) : (s.modTeam id f).agenda = s.agenda := rfl
@[simp] theorem modTeam_cur (id : Nat) (f : Team → Team) : (s.modTeam id f).cur = s.cur := rfl
@[simp] theorem modTeam_free (id : Nat) (f : Team → Team) : (s.modTeam id f).free = s.free := rfl
@[simp] theorem modTeam_nextId (id : Nat) (f : Team → Team) : (s.modTeam id f).nextId = s.nextId := rfl

/-! ## `modGraph` -/

@[simp] theorem modGraph_variant (id : Nat) (f : Graph → Graph) : (s.modGraph id f).variant = s.variant := rfl
@[simp] theorem modGraph_cxl (id : Nat) (f : Graph → Graph) : (s.modGraph id f).cxl = s.cxl := rfl
@[simp] theorem modGraph_clock (id : Nat) (f : Graph → Graph) : (s.modGraph id f).clock = s.clock := rfl
@[simp] theorem modGraph_ref (id : Nat) (f : Graph → Graph) : (s.modGraph id f).ref = s.ref := rfl
@[simp] theorem modGraph_refPart (id : Nat) (f : Graph → Graph) : (s.modGraph id f).refPart = s.refPart := rfl
@[simp] theorem modGraph_clockMhz (id : Nat) (f : Graph → Graph) : (s.modGraph id f).clockMhz = s.clockMhz := rfl
@[simp] theorem modGraph_ilshare (id : Nat) (f : Graph → Graph) : (s.modGraph id f).ilshare = s.ilshare := rfl
@[simp] theorem modGraph_memmapWritten (id : Nat) (f : Graph → Graph) : (s.modGraph id f).memmapWritten = s.memmapWritten := rfl
@[simp] theorem modGraph_mem (id : Nat) (f : Graph → Graph) : (s.modGraph id f).mem = s.mem := rfl
@[simp] theorem modGraph_poison (id : Nat) (f : Graph → Graph) : (s.modGraph id f).poison = s.poison := rfl
@[simp] theorem modGraph_handles (id : Nat) (f : Graph → Graph) : (s.modGraph id f).handles = s.handles := rfl
@[simp] theorem modGraph_l2 (id : Nat) (f : Graph → Graph) : (s.modGraph id f).l2 = s.l2 := rfl
@[simp] theorem modGraph_merges (id : Nat) (f : Graph → Graph) : (s.modGraph id f).merges = s.merges := rfl
@[simp] theorem modGraph_frames (id : Nat) (f : Graph → Graph) : (s.modGraph id f).frames = s.frames := rfl
@[simp] theorem modGraph_waiters (id : Nat) (f : Graph → Graph) : (s.modGraph id f).waiters = s.waiters := rfl
@[simp] theorem modGraph_orphans (id : Nat) (f : Graph → Graph) : (s.modGraph id f).orphans = s.orphans := rfl
@[simp] theorem modGraph_released (id : Nat) (f : Graph → Graph) : (s.modGraph id f).released = s.released := rfl
@[simp] theorem modGraph_conts (id : Nat) (f : Graph → Graph) : (s.modGraph id f).conts = s.conts := rfl
@[simp] theorem modGraph_sent (id : Nat) (f : Graph → Graph) : (s.modGraph id f).sent = s.sent := rfl
@[simp] theorem modGraph_reports (id : Nat) (f : Graph → Graph) : (s.modGraph id f).reports = s.reports := rfl
@[simp] theorem modGraph_bins (id : Nat) (f : Graph → Graph) : (s.modGraph id f).bins = s.bins := rfl
@[simp] theorem modGraph_launches (id : Nat) (f : Graph → Graph) : (s.modGraph id f).launches = s.launches := rfl
@[simp] theorem modGraph_deposits (id : Nat) (f : Graph → Graph) : (s.modGraph id f).deposits = s.deposits := rfl
@[simp] theorem modGraph_placeQ (id : Nat) (f : Graph → Graph) : (s.modGraph id f).placeQ = s.placeQ := rfl
@[simp] theorem modGraph_pqueues (id : Nat) (f : Graph → Graph) : (s.modGraph id f).pqueues = s.pqueues := rfl
@[simp] theorem modGraph_scans (id : Nat) (f : Graph → Graph) : (s.modGraph id f).scans = s.scans := rfl
@[simp] theorem modGraph_vocabLast (id : Nat) (f : Graph → Graph) : (s.modGraph id f).vocabLast = s.vocabLast := rfl
@[simp] theorem modGraph_watch (id : Nat) (f : Graph → Graph) : (s.modGraph id f).watch = s.watch := rfl
@[simp] theorem modGraph_teams (id : Nat) (f : Graph → Graph) : (s.modGraph id f).teams = s.teams := rfl
@[simp] theorem modGraph_ctxs (id : Nat) (f : Graph → Graph) : (s.modGraph id f).ctxs = s.ctxs := rfl
@[simp] theorem modGraph_cores (id : Nat) (f : Graph → Graph) : (s.modGraph id f).cores = s.cores := rfl
@[simp] theorem modGraph_ops (id : Nat) (f : Graph → Graph) : (s.modGraph id f).ops = s.ops := rfl
@[simp] theorem modGraph_writes (id : Nat) (f : Graph → Graph) : (s.modGraph id f).writes = s.writes := rfl
@[simp] theorem modGraph_ranges (id : Nat) (f : Graph → Graph) : (s.modGraph id f).ranges = s.ranges := rfl
@[simp] theorem modGraph_errHead (id : Nat) (f : Graph → Graph) : (s.modGraph id f).errHead = s.errHead := rfl
@[simp] theorem modGraph_errCount (id : Nat) (f : Graph → Graph) : (s.modGraph id f).errCount = s.errCount := rfl
@[simp] theorem modGraph_host (id : Nat) (f : Graph → Graph) : (s.modGraph id f).host = s.host := rfl
@[simp] theorem modGraph_armWin (id : Nat) (f : Graph → Graph) : (s.modGraph id f).armWin = s.armWin := rfl
@[simp] theorem modGraph_linkUp (id : Nat) (f : Graph → Graph) : (s.modGraph id f).linkUp = s.linkUp := rfl
@[simp] theorem modGraph_reqEnable (id : Nat) (f : Graph → Graph) : (s.modGraph id f).reqEnable = s.reqEnable := rfl
@[simp] theorem modGraph_ports (id : Nat) (f : Graph → Graph) : (s.modGraph id f).ports = s.ports := rfl
@[simp] theorem modGraph_boundaries (id : Nat) (f : Graph → Graph) : (s.modGraph id f).boundaries = s.boundaries := rfl
@[simp] theorem modGraph_hinge (id : Nat) (f : Graph → Graph) : (s.modGraph id f).hinge = s.hinge := rfl
@[simp] theorem modGraph_replies (id : Nat) (f : Graph → Graph) : (s.modGraph id f).replies = s.replies := rfl
@[simp] theorem modGraph_channels (id : Nat) (f : Graph → Graph) : (s.modGraph id f).channels = s.channels := rfl
@[simp] theorem modGraph_copying (id : Nat) (f : Graph → Graph) : (s.modGraph id f).copying = s.copying := rfl
@[simp] theorem modGraph_spares (id : Nat) (f : Graph → Graph) : (s.modGraph id f).spares = s.spares := rfl
@[simp] theorem modGraph_sleeping (id : Nat) (f : Graph → Graph) : (s.modGraph id f).sleeping = s.sleeping := rfl
@[simp] theorem modGraph_firmware (id : Nat) (f : Graph → Graph) : (s.modGraph id f).firmware = s.firmware := rfl
@[simp] theorem modGraph_hostRead (id : Nat) (f : Graph → Graph) : (s.modGraph id f).hostRead = s.hostRead := rfl
@[simp] theorem modGraph_agenda (id : Nat) (f : Graph → Graph) : (s.modGraph id f).agenda = s.agenda := rfl
@[simp] theorem modGraph_cur (id : Nat) (f : Graph → Graph) : (s.modGraph id f).cur = s.cur := rfl
@[simp] theorem modGraph_free (id : Nat) (f : Graph → Graph) : (s.modGraph id f).free = s.free := rfl
@[simp] theorem modGraph_nextId (id : Nat) (f : Graph → Graph) : (s.modGraph id f).nextId = s.nextId := rfl

/-! ## `addOp` -/

@[simp] theorem addOp_variant (o : Op) : (s.addOp o).variant = s.variant := rfl
@[simp] theorem addOp_cxl (o : Op) : (s.addOp o).cxl = s.cxl := rfl
@[simp] theorem addOp_clock (o : Op) : (s.addOp o).clock = s.clock := rfl
@[simp] theorem addOp_ref (o : Op) : (s.addOp o).ref = s.ref := rfl
@[simp] theorem addOp_refPart (o : Op) : (s.addOp o).refPart = s.refPart := rfl
@[simp] theorem addOp_clockMhz (o : Op) : (s.addOp o).clockMhz = s.clockMhz := rfl
@[simp] theorem addOp_ilshare (o : Op) : (s.addOp o).ilshare = s.ilshare := rfl
@[simp] theorem addOp_memmapWritten (o : Op) : (s.addOp o).memmapWritten = s.memmapWritten := rfl
@[simp] theorem addOp_mem (o : Op) : (s.addOp o).mem = s.mem := rfl
@[simp] theorem addOp_poison (o : Op) : (s.addOp o).poison = s.poison := rfl
@[simp] theorem addOp_handles (o : Op) : (s.addOp o).handles = s.handles := rfl
@[simp] theorem addOp_l2 (o : Op) : (s.addOp o).l2 = s.l2 := rfl
@[simp] theorem addOp_merges (o : Op) : (s.addOp o).merges = s.merges := rfl
@[simp] theorem addOp_frames (o : Op) : (s.addOp o).frames = s.frames := rfl
@[simp] theorem addOp_waiters (o : Op) : (s.addOp o).waiters = s.waiters := rfl
@[simp] theorem addOp_orphans (o : Op) : (s.addOp o).orphans = s.orphans := rfl
@[simp] theorem addOp_released (o : Op) : (s.addOp o).released = s.released := rfl
@[simp] theorem addOp_conts (o : Op) : (s.addOp o).conts = s.conts := rfl
@[simp] theorem addOp_sent (o : Op) : (s.addOp o).sent = s.sent := rfl
@[simp] theorem addOp_reports (o : Op) : (s.addOp o).reports = s.reports := rfl
@[simp] theorem addOp_bins (o : Op) : (s.addOp o).bins = s.bins := rfl
@[simp] theorem addOp_launches (o : Op) : (s.addOp o).launches = s.launches := rfl
@[simp] theorem addOp_deposits (o : Op) : (s.addOp o).deposits = s.deposits := rfl
@[simp] theorem addOp_placeQ (o : Op) : (s.addOp o).placeQ = s.placeQ := rfl
@[simp] theorem addOp_pqueues (o : Op) : (s.addOp o).pqueues = s.pqueues := rfl
@[simp] theorem addOp_scans (o : Op) : (s.addOp o).scans = s.scans := rfl
@[simp] theorem addOp_vocabLast (o : Op) : (s.addOp o).vocabLast = s.vocabLast := rfl
@[simp] theorem addOp_watch (o : Op) : (s.addOp o).watch = s.watch := rfl
@[simp] theorem addOp_graphs (o : Op) : (s.addOp o).graphs = s.graphs := rfl
@[simp] theorem addOp_teams (o : Op) : (s.addOp o).teams = s.teams := rfl
@[simp] theorem addOp_ctxs (o : Op) : (s.addOp o).ctxs = s.ctxs := rfl
@[simp] theorem addOp_cores (o : Op) : (s.addOp o).cores = s.cores := rfl
@[simp] theorem addOp_writes (o : Op) : (s.addOp o).writes = s.writes := rfl
@[simp] theorem addOp_ranges (o : Op) : (s.addOp o).ranges = s.ranges := rfl
@[simp] theorem addOp_errHead (o : Op) : (s.addOp o).errHead = s.errHead := rfl
@[simp] theorem addOp_errCount (o : Op) : (s.addOp o).errCount = s.errCount := rfl
@[simp] theorem addOp_host (o : Op) : (s.addOp o).host = s.host := rfl
@[simp] theorem addOp_armWin (o : Op) : (s.addOp o).armWin = s.armWin := rfl
@[simp] theorem addOp_linkUp (o : Op) : (s.addOp o).linkUp = s.linkUp := rfl
@[simp] theorem addOp_reqEnable (o : Op) : (s.addOp o).reqEnable = s.reqEnable := rfl
@[simp] theorem addOp_ports (o : Op) : (s.addOp o).ports = s.ports := rfl
@[simp] theorem addOp_boundaries (o : Op) : (s.addOp o).boundaries = s.boundaries := rfl
@[simp] theorem addOp_hinge (o : Op) : (s.addOp o).hinge = s.hinge := rfl
@[simp] theorem addOp_replies (o : Op) : (s.addOp o).replies = s.replies := rfl
@[simp] theorem addOp_channels (o : Op) : (s.addOp o).channels = s.channels := rfl
@[simp] theorem addOp_copying (o : Op) : (s.addOp o).copying = s.copying := rfl
@[simp] theorem addOp_spares (o : Op) : (s.addOp o).spares = s.spares := rfl
@[simp] theorem addOp_sleeping (o : Op) : (s.addOp o).sleeping = s.sleeping := rfl
@[simp] theorem addOp_firmware (o : Op) : (s.addOp o).firmware = s.firmware := rfl
@[simp] theorem addOp_hostRead (o : Op) : (s.addOp o).hostRead = s.hostRead := rfl
@[simp] theorem addOp_agenda (o : Op) : (s.addOp o).agenda = s.agenda := rfl
@[simp] theorem addOp_cur (o : Op) : (s.addOp o).cur = s.cur := rfl
@[simp] theorem addOp_free (o : Op) : (s.addOp o).free = s.free := rfl

/-! ## `modOp` -/

@[simp] theorem modOp_variant (id : Nat) (f : Op → Op) : (s.modOp id f).variant = s.variant := rfl
@[simp] theorem modOp_cxl (id : Nat) (f : Op → Op) : (s.modOp id f).cxl = s.cxl := rfl
@[simp] theorem modOp_clock (id : Nat) (f : Op → Op) : (s.modOp id f).clock = s.clock := rfl
@[simp] theorem modOp_ref (id : Nat) (f : Op → Op) : (s.modOp id f).ref = s.ref := rfl
@[simp] theorem modOp_refPart (id : Nat) (f : Op → Op) : (s.modOp id f).refPart = s.refPart := rfl
@[simp] theorem modOp_clockMhz (id : Nat) (f : Op → Op) : (s.modOp id f).clockMhz = s.clockMhz := rfl
@[simp] theorem modOp_ilshare (id : Nat) (f : Op → Op) : (s.modOp id f).ilshare = s.ilshare := rfl
@[simp] theorem modOp_memmapWritten (id : Nat) (f : Op → Op) : (s.modOp id f).memmapWritten = s.memmapWritten := rfl
@[simp] theorem modOp_mem (id : Nat) (f : Op → Op) : (s.modOp id f).mem = s.mem := rfl
@[simp] theorem modOp_poison (id : Nat) (f : Op → Op) : (s.modOp id f).poison = s.poison := rfl
@[simp] theorem modOp_handles (id : Nat) (f : Op → Op) : (s.modOp id f).handles = s.handles := rfl
@[simp] theorem modOp_l2 (id : Nat) (f : Op → Op) : (s.modOp id f).l2 = s.l2 := rfl
@[simp] theorem modOp_merges (id : Nat) (f : Op → Op) : (s.modOp id f).merges = s.merges := rfl
@[simp] theorem modOp_frames (id : Nat) (f : Op → Op) : (s.modOp id f).frames = s.frames := rfl
@[simp] theorem modOp_waiters (id : Nat) (f : Op → Op) : (s.modOp id f).waiters = s.waiters := rfl
@[simp] theorem modOp_orphans (id : Nat) (f : Op → Op) : (s.modOp id f).orphans = s.orphans := rfl
@[simp] theorem modOp_released (id : Nat) (f : Op → Op) : (s.modOp id f).released = s.released := rfl
@[simp] theorem modOp_conts (id : Nat) (f : Op → Op) : (s.modOp id f).conts = s.conts := rfl
@[simp] theorem modOp_sent (id : Nat) (f : Op → Op) : (s.modOp id f).sent = s.sent := rfl
@[simp] theorem modOp_reports (id : Nat) (f : Op → Op) : (s.modOp id f).reports = s.reports := rfl
@[simp] theorem modOp_bins (id : Nat) (f : Op → Op) : (s.modOp id f).bins = s.bins := rfl
@[simp] theorem modOp_launches (id : Nat) (f : Op → Op) : (s.modOp id f).launches = s.launches := rfl
@[simp] theorem modOp_deposits (id : Nat) (f : Op → Op) : (s.modOp id f).deposits = s.deposits := rfl
@[simp] theorem modOp_placeQ (id : Nat) (f : Op → Op) : (s.modOp id f).placeQ = s.placeQ := rfl
@[simp] theorem modOp_pqueues (id : Nat) (f : Op → Op) : (s.modOp id f).pqueues = s.pqueues := rfl
@[simp] theorem modOp_scans (id : Nat) (f : Op → Op) : (s.modOp id f).scans = s.scans := rfl
@[simp] theorem modOp_vocabLast (id : Nat) (f : Op → Op) : (s.modOp id f).vocabLast = s.vocabLast := rfl
@[simp] theorem modOp_watch (id : Nat) (f : Op → Op) : (s.modOp id f).watch = s.watch := rfl
@[simp] theorem modOp_graphs (id : Nat) (f : Op → Op) : (s.modOp id f).graphs = s.graphs := rfl
@[simp] theorem modOp_teams (id : Nat) (f : Op → Op) : (s.modOp id f).teams = s.teams := rfl
@[simp] theorem modOp_ctxs (id : Nat) (f : Op → Op) : (s.modOp id f).ctxs = s.ctxs := rfl
@[simp] theorem modOp_cores (id : Nat) (f : Op → Op) : (s.modOp id f).cores = s.cores := rfl
@[simp] theorem modOp_writes (id : Nat) (f : Op → Op) : (s.modOp id f).writes = s.writes := rfl
@[simp] theorem modOp_ranges (id : Nat) (f : Op → Op) : (s.modOp id f).ranges = s.ranges := rfl
@[simp] theorem modOp_errHead (id : Nat) (f : Op → Op) : (s.modOp id f).errHead = s.errHead := rfl
@[simp] theorem modOp_errCount (id : Nat) (f : Op → Op) : (s.modOp id f).errCount = s.errCount := rfl
@[simp] theorem modOp_host (id : Nat) (f : Op → Op) : (s.modOp id f).host = s.host := rfl
@[simp] theorem modOp_armWin (id : Nat) (f : Op → Op) : (s.modOp id f).armWin = s.armWin := rfl
@[simp] theorem modOp_linkUp (id : Nat) (f : Op → Op) : (s.modOp id f).linkUp = s.linkUp := rfl
@[simp] theorem modOp_reqEnable (id : Nat) (f : Op → Op) : (s.modOp id f).reqEnable = s.reqEnable := rfl
@[simp] theorem modOp_ports (id : Nat) (f : Op → Op) : (s.modOp id f).ports = s.ports := rfl
@[simp] theorem modOp_boundaries (id : Nat) (f : Op → Op) : (s.modOp id f).boundaries = s.boundaries := rfl
@[simp] theorem modOp_hinge (id : Nat) (f : Op → Op) : (s.modOp id f).hinge = s.hinge := rfl
@[simp] theorem modOp_replies (id : Nat) (f : Op → Op) : (s.modOp id f).replies = s.replies := rfl
@[simp] theorem modOp_channels (id : Nat) (f : Op → Op) : (s.modOp id f).channels = s.channels := rfl
@[simp] theorem modOp_copying (id : Nat) (f : Op → Op) : (s.modOp id f).copying = s.copying := rfl
@[simp] theorem modOp_spares (id : Nat) (f : Op → Op) : (s.modOp id f).spares = s.spares := rfl
@[simp] theorem modOp_sleeping (id : Nat) (f : Op → Op) : (s.modOp id f).sleeping = s.sleeping := rfl
@[simp] theorem modOp_firmware (id : Nat) (f : Op → Op) : (s.modOp id f).firmware = s.firmware := rfl
@[simp] theorem modOp_hostRead (id : Nat) (f : Op → Op) : (s.modOp id f).hostRead = s.hostRead := rfl
@[simp] theorem modOp_agenda (id : Nat) (f : Op → Op) : (s.modOp id f).agenda = s.agenda := rfl
@[simp] theorem modOp_cur (id : Nat) (f : Op → Op) : (s.modOp id f).cur = s.cur := rfl
@[simp] theorem modOp_free (id : Nat) (f : Op → Op) : (s.modOp id f).free = s.free := rfl
@[simp] theorem modOp_nextId (id : Nat) (f : Op → Op) : (s.modOp id f).nextId = s.nextId := rfl

/-! ## `endOp` -/

@[simp] theorem endOp_variant (id : Nat) : (s.endOp id).variant = s.variant := rfl
@[simp] theorem endOp_cxl (id : Nat) : (s.endOp id).cxl = s.cxl := rfl
@[simp] theorem endOp_clock (id : Nat) : (s.endOp id).clock = s.clock := rfl
@[simp] theorem endOp_ref (id : Nat) : (s.endOp id).ref = s.ref := rfl
@[simp] theorem endOp_refPart (id : Nat) : (s.endOp id).refPart = s.refPart := rfl
@[simp] theorem endOp_clockMhz (id : Nat) : (s.endOp id).clockMhz = s.clockMhz := rfl
@[simp] theorem endOp_ilshare (id : Nat) : (s.endOp id).ilshare = s.ilshare := rfl
@[simp] theorem endOp_memmapWritten (id : Nat) : (s.endOp id).memmapWritten = s.memmapWritten := rfl
@[simp] theorem endOp_mem (id : Nat) : (s.endOp id).mem = s.mem := rfl
@[simp] theorem endOp_poison (id : Nat) : (s.endOp id).poison = s.poison := rfl
@[simp] theorem endOp_handles (id : Nat) : (s.endOp id).handles = s.handles := rfl
@[simp] theorem endOp_l2 (id : Nat) : (s.endOp id).l2 = s.l2 := rfl
@[simp] theorem endOp_merges (id : Nat) : (s.endOp id).merges = s.merges := rfl
@[simp] theorem endOp_frames (id : Nat) : (s.endOp id).frames = s.frames := rfl
@[simp] theorem endOp_waiters (id : Nat) : (s.endOp id).waiters = s.waiters := rfl
@[simp] theorem endOp_orphans (id : Nat) : (s.endOp id).orphans = s.orphans := rfl
@[simp] theorem endOp_released (id : Nat) : (s.endOp id).released = s.released := rfl
@[simp] theorem endOp_conts (id : Nat) : (s.endOp id).conts = s.conts := rfl
@[simp] theorem endOp_sent (id : Nat) : (s.endOp id).sent = s.sent := rfl
@[simp] theorem endOp_reports (id : Nat) : (s.endOp id).reports = s.reports := rfl
@[simp] theorem endOp_bins (id : Nat) : (s.endOp id).bins = s.bins := rfl
@[simp] theorem endOp_launches (id : Nat) : (s.endOp id).launches = s.launches := rfl
@[simp] theorem endOp_deposits (id : Nat) : (s.endOp id).deposits = s.deposits := rfl
@[simp] theorem endOp_placeQ (id : Nat) : (s.endOp id).placeQ = s.placeQ := rfl
@[simp] theorem endOp_pqueues (id : Nat) : (s.endOp id).pqueues = s.pqueues := rfl
@[simp] theorem endOp_scans (id : Nat) : (s.endOp id).scans = s.scans := rfl
@[simp] theorem endOp_vocabLast (id : Nat) : (s.endOp id).vocabLast = s.vocabLast := rfl
@[simp] theorem endOp_watch (id : Nat) : (s.endOp id).watch = s.watch := rfl
@[simp] theorem endOp_graphs (id : Nat) : (s.endOp id).graphs = s.graphs := rfl
@[simp] theorem endOp_teams (id : Nat) : (s.endOp id).teams = s.teams := rfl
@[simp] theorem endOp_ctxs (id : Nat) : (s.endOp id).ctxs = s.ctxs := rfl
@[simp] theorem endOp_cores (id : Nat) : (s.endOp id).cores = s.cores := rfl
@[simp] theorem endOp_writes (id : Nat) : (s.endOp id).writes = s.writes := rfl
@[simp] theorem endOp_errHead (id : Nat) : (s.endOp id).errHead = s.errHead := rfl
@[simp] theorem endOp_errCount (id : Nat) : (s.endOp id).errCount = s.errCount := rfl
@[simp] theorem endOp_host (id : Nat) : (s.endOp id).host = s.host := rfl
@[simp] theorem endOp_armWin (id : Nat) : (s.endOp id).armWin = s.armWin := rfl
@[simp] theorem endOp_linkUp (id : Nat) : (s.endOp id).linkUp = s.linkUp := rfl
@[simp] theorem endOp_reqEnable (id : Nat) : (s.endOp id).reqEnable = s.reqEnable := rfl
@[simp] theorem endOp_ports (id : Nat) : (s.endOp id).ports = s.ports := rfl
@[simp] theorem endOp_boundaries (id : Nat) : (s.endOp id).boundaries = s.boundaries := rfl
@[simp] theorem endOp_replies (id : Nat) : (s.endOp id).replies = s.replies := rfl
@[simp] theorem endOp_channels (id : Nat) : (s.endOp id).channels = s.channels := rfl
@[simp] theorem endOp_copying (id : Nat) : (s.endOp id).copying = s.copying := rfl
@[simp] theorem endOp_spares (id : Nat) : (s.endOp id).spares = s.spares := rfl
@[simp] theorem endOp_sleeping (id : Nat) : (s.endOp id).sleeping = s.sleeping := rfl
@[simp] theorem endOp_firmware (id : Nat) : (s.endOp id).firmware = s.firmware := rfl
@[simp] theorem endOp_hostRead (id : Nat) : (s.endOp id).hostRead = s.hostRead := rfl
@[simp] theorem endOp_agenda (id : Nat) : (s.endOp id).agenda = s.agenda := rfl
@[simp] theorem endOp_cur (id : Nat) : (s.endOp id).cur = s.cur := rfl
@[simp] theorem endOp_free (id : Nat) : (s.endOp id).free = s.free := rfl
@[simp] theorem endOp_nextId (id : Nat) : (s.endOp id).nextId = s.nextId := rfl

/-! ## `goOn` -/

@[simp] theorem goOn_variant (n : Nat) (kind : OpKind) : (s.goOn n kind).variant = s.variant := rfl
@[simp] theorem goOn_cxl (n : Nat) (kind : OpKind) : (s.goOn n kind).cxl = s.cxl := rfl
@[simp] theorem goOn_clock (n : Nat) (kind : OpKind) : (s.goOn n kind).clock = s.clock := rfl
@[simp] theorem goOn_ref (n : Nat) (kind : OpKind) : (s.goOn n kind).ref = s.ref := rfl
@[simp] theorem goOn_refPart (n : Nat) (kind : OpKind) : (s.goOn n kind).refPart = s.refPart := rfl
@[simp] theorem goOn_clockMhz (n : Nat) (kind : OpKind) : (s.goOn n kind).clockMhz = s.clockMhz := rfl
@[simp] theorem goOn_ilshare (n : Nat) (kind : OpKind) : (s.goOn n kind).ilshare = s.ilshare := rfl
@[simp] theorem goOn_memmapWritten (n : Nat) (kind : OpKind) : (s.goOn n kind).memmapWritten = s.memmapWritten := rfl
@[simp] theorem goOn_mem (n : Nat) (kind : OpKind) : (s.goOn n kind).mem = s.mem := rfl
@[simp] theorem goOn_poison (n : Nat) (kind : OpKind) : (s.goOn n kind).poison = s.poison := rfl
@[simp] theorem goOn_handles (n : Nat) (kind : OpKind) : (s.goOn n kind).handles = s.handles := rfl
@[simp] theorem goOn_l2 (n : Nat) (kind : OpKind) : (s.goOn n kind).l2 = s.l2 := rfl
@[simp] theorem goOn_merges (n : Nat) (kind : OpKind) : (s.goOn n kind).merges = s.merges := rfl
@[simp] theorem goOn_frames (n : Nat) (kind : OpKind) : (s.goOn n kind).frames = s.frames := rfl
@[simp] theorem goOn_waiters (n : Nat) (kind : OpKind) : (s.goOn n kind).waiters = s.waiters := rfl
@[simp] theorem goOn_orphans (n : Nat) (kind : OpKind) : (s.goOn n kind).orphans = s.orphans := rfl
@[simp] theorem goOn_released (n : Nat) (kind : OpKind) : (s.goOn n kind).released = s.released := rfl
@[simp] theorem goOn_conts (n : Nat) (kind : OpKind) : (s.goOn n kind).conts = s.conts := rfl
@[simp] theorem goOn_sent (n : Nat) (kind : OpKind) : (s.goOn n kind).sent = s.sent := rfl
@[simp] theorem goOn_reports (n : Nat) (kind : OpKind) : (s.goOn n kind).reports = s.reports := rfl
@[simp] theorem goOn_bins (n : Nat) (kind : OpKind) : (s.goOn n kind).bins = s.bins := rfl
@[simp] theorem goOn_launches (n : Nat) (kind : OpKind) : (s.goOn n kind).launches = s.launches := rfl
@[simp] theorem goOn_deposits (n : Nat) (kind : OpKind) : (s.goOn n kind).deposits = s.deposits := rfl
@[simp] theorem goOn_placeQ (n : Nat) (kind : OpKind) : (s.goOn n kind).placeQ = s.placeQ := rfl
@[simp] theorem goOn_pqueues (n : Nat) (kind : OpKind) : (s.goOn n kind).pqueues = s.pqueues := rfl
@[simp] theorem goOn_scans (n : Nat) (kind : OpKind) : (s.goOn n kind).scans = s.scans := rfl
@[simp] theorem goOn_vocabLast (n : Nat) (kind : OpKind) : (s.goOn n kind).vocabLast = s.vocabLast := rfl
@[simp] theorem goOn_watch (n : Nat) (kind : OpKind) : (s.goOn n kind).watch = s.watch := rfl
@[simp] theorem goOn_graphs (n : Nat) (kind : OpKind) : (s.goOn n kind).graphs = s.graphs := rfl
@[simp] theorem goOn_teams (n : Nat) (kind : OpKind) : (s.goOn n kind).teams = s.teams := rfl
@[simp] theorem goOn_ctxs (n : Nat) (kind : OpKind) : (s.goOn n kind).ctxs = s.ctxs := rfl
@[simp] theorem goOn_cores (n : Nat) (kind : OpKind) : (s.goOn n kind).cores = s.cores := rfl
@[simp] theorem goOn_writes (n : Nat) (kind : OpKind) : (s.goOn n kind).writes = s.writes := rfl
@[simp] theorem goOn_ranges (n : Nat) (kind : OpKind) : (s.goOn n kind).ranges = s.ranges := rfl
@[simp] theorem goOn_errHead (n : Nat) (kind : OpKind) : (s.goOn n kind).errHead = s.errHead := rfl
@[simp] theorem goOn_errCount (n : Nat) (kind : OpKind) : (s.goOn n kind).errCount = s.errCount := rfl
@[simp] theorem goOn_host (n : Nat) (kind : OpKind) : (s.goOn n kind).host = s.host := rfl
@[simp] theorem goOn_armWin (n : Nat) (kind : OpKind) : (s.goOn n kind).armWin = s.armWin := rfl
@[simp] theorem goOn_linkUp (n : Nat) (kind : OpKind) : (s.goOn n kind).linkUp = s.linkUp := rfl
@[simp] theorem goOn_reqEnable (n : Nat) (kind : OpKind) : (s.goOn n kind).reqEnable = s.reqEnable := rfl
@[simp] theorem goOn_ports (n : Nat) (kind : OpKind) : (s.goOn n kind).ports = s.ports := rfl
@[simp] theorem goOn_boundaries (n : Nat) (kind : OpKind) : (s.goOn n kind).boundaries = s.boundaries := rfl
@[simp] theorem goOn_replies (n : Nat) (kind : OpKind) : (s.goOn n kind).replies = s.replies := rfl
@[simp] theorem goOn_channels (n : Nat) (kind : OpKind) : (s.goOn n kind).channels = s.channels := rfl
@[simp] theorem goOn_copying (n : Nat) (kind : OpKind) : (s.goOn n kind).copying = s.copying := rfl
@[simp] theorem goOn_spares (n : Nat) (kind : OpKind) : (s.goOn n kind).spares = s.spares := rfl
@[simp] theorem goOn_sleeping (n : Nat) (kind : OpKind) : (s.goOn n kind).sleeping = s.sleeping := rfl
@[simp] theorem goOn_firmware (n : Nat) (kind : OpKind) : (s.goOn n kind).firmware = s.firmware := rfl
@[simp] theorem goOn_hostRead (n : Nat) (kind : OpKind) : (s.goOn n kind).hostRead = s.hostRead := rfl
@[simp] theorem goOn_agenda (n : Nat) (kind : OpKind) : (s.goOn n kind).agenda = s.agenda := rfl
@[simp] theorem goOn_cur (n : Nat) (kind : OpKind) : (s.goOn n kind).cur = s.cur := rfl
@[simp] theorem goOn_free (n : Nat) (kind : OpKind) : (s.goOn n kind).free = s.free := rfl

/-! ## `noteHinge` -/

@[simp] theorem noteHinge_variant (source target n : Nat) (words : Response) : (s.noteHinge source target n words).variant = s.variant := rfl
@[simp] theorem noteHinge_cxl (source target n : Nat) (words : Response) : (s.noteHinge source target n words).cxl = s.cxl := rfl
@[simp] theorem noteHinge_clock (source target n : Nat) (words : Response) : (s.noteHinge source target n words).clock = s.clock := rfl
@[simp] theorem noteHinge_ref (source target n : Nat) (words : Response) : (s.noteHinge source target n words).ref = s.ref := rfl
@[simp] theorem noteHinge_refPart (source target n : Nat) (words : Response) : (s.noteHinge source target n words).refPart = s.refPart := rfl
@[simp] theorem noteHinge_clockMhz (source target n : Nat) (words : Response) : (s.noteHinge source target n words).clockMhz = s.clockMhz := rfl
@[simp] theorem noteHinge_ilshare (source target n : Nat) (words : Response) : (s.noteHinge source target n words).ilshare = s.ilshare := rfl
@[simp] theorem noteHinge_memmapWritten (source target n : Nat) (words : Response) : (s.noteHinge source target n words).memmapWritten = s.memmapWritten := rfl
@[simp] theorem noteHinge_mem (source target n : Nat) (words : Response) : (s.noteHinge source target n words).mem = s.mem := rfl
@[simp] theorem noteHinge_poison (source target n : Nat) (words : Response) : (s.noteHinge source target n words).poison = s.poison := rfl
@[simp] theorem noteHinge_handles (source target n : Nat) (words : Response) : (s.noteHinge source target n words).handles = s.handles := rfl
@[simp] theorem noteHinge_l2 (source target n : Nat) (words : Response) : (s.noteHinge source target n words).l2 = s.l2 := rfl
@[simp] theorem noteHinge_merges (source target n : Nat) (words : Response) : (s.noteHinge source target n words).merges = s.merges := rfl
@[simp] theorem noteHinge_frames (source target n : Nat) (words : Response) : (s.noteHinge source target n words).frames = s.frames := rfl
@[simp] theorem noteHinge_waiters (source target n : Nat) (words : Response) : (s.noteHinge source target n words).waiters = s.waiters := rfl
@[simp] theorem noteHinge_orphans (source target n : Nat) (words : Response) : (s.noteHinge source target n words).orphans = s.orphans := rfl
@[simp] theorem noteHinge_released (source target n : Nat) (words : Response) : (s.noteHinge source target n words).released = s.released := rfl
@[simp] theorem noteHinge_conts (source target n : Nat) (words : Response) : (s.noteHinge source target n words).conts = s.conts := rfl
@[simp] theorem noteHinge_sent (source target n : Nat) (words : Response) : (s.noteHinge source target n words).sent = s.sent := rfl
@[simp] theorem noteHinge_reports (source target n : Nat) (words : Response) : (s.noteHinge source target n words).reports = s.reports := rfl
@[simp] theorem noteHinge_bins (source target n : Nat) (words : Response) : (s.noteHinge source target n words).bins = s.bins := rfl
@[simp] theorem noteHinge_launches (source target n : Nat) (words : Response) : (s.noteHinge source target n words).launches = s.launches := rfl
@[simp] theorem noteHinge_deposits (source target n : Nat) (words : Response) : (s.noteHinge source target n words).deposits = s.deposits := rfl
@[simp] theorem noteHinge_placeQ (source target n : Nat) (words : Response) : (s.noteHinge source target n words).placeQ = s.placeQ := rfl
@[simp] theorem noteHinge_pqueues (source target n : Nat) (words : Response) : (s.noteHinge source target n words).pqueues = s.pqueues := rfl
@[simp] theorem noteHinge_scans (source target n : Nat) (words : Response) : (s.noteHinge source target n words).scans = s.scans := rfl
@[simp] theorem noteHinge_vocabLast (source target n : Nat) (words : Response) : (s.noteHinge source target n words).vocabLast = s.vocabLast := rfl
@[simp] theorem noteHinge_watch (source target n : Nat) (words : Response) : (s.noteHinge source target n words).watch = s.watch := rfl
@[simp] theorem noteHinge_graphs (source target n : Nat) (words : Response) : (s.noteHinge source target n words).graphs = s.graphs := rfl
@[simp] theorem noteHinge_teams (source target n : Nat) (words : Response) : (s.noteHinge source target n words).teams = s.teams := rfl
@[simp] theorem noteHinge_ctxs (source target n : Nat) (words : Response) : (s.noteHinge source target n words).ctxs = s.ctxs := rfl
@[simp] theorem noteHinge_cores (source target n : Nat) (words : Response) : (s.noteHinge source target n words).cores = s.cores := rfl
@[simp] theorem noteHinge_ops (source target n : Nat) (words : Response) : (s.noteHinge source target n words).ops = s.ops := rfl
@[simp] theorem noteHinge_writes (source target n : Nat) (words : Response) : (s.noteHinge source target n words).writes = s.writes := rfl
@[simp] theorem noteHinge_ranges (source target n : Nat) (words : Response) : (s.noteHinge source target n words).ranges = s.ranges := rfl
@[simp] theorem noteHinge_errHead (source target n : Nat) (words : Response) : (s.noteHinge source target n words).errHead = s.errHead := rfl
@[simp] theorem noteHinge_errCount (source target n : Nat) (words : Response) : (s.noteHinge source target n words).errCount = s.errCount := rfl
@[simp] theorem noteHinge_host (source target n : Nat) (words : Response) : (s.noteHinge source target n words).host = s.host := rfl
@[simp] theorem noteHinge_armWin (source target n : Nat) (words : Response) : (s.noteHinge source target n words).armWin = s.armWin := rfl
@[simp] theorem noteHinge_linkUp (source target n : Nat) (words : Response) : (s.noteHinge source target n words).linkUp = s.linkUp := rfl
@[simp] theorem noteHinge_reqEnable (source target n : Nat) (words : Response) : (s.noteHinge source target n words).reqEnable = s.reqEnable := rfl
@[simp] theorem noteHinge_ports (source target n : Nat) (words : Response) : (s.noteHinge source target n words).ports = s.ports := rfl
@[simp] theorem noteHinge_boundaries (source target n : Nat) (words : Response) : (s.noteHinge source target n words).boundaries = s.boundaries := rfl
@[simp] theorem noteHinge_replies (source target n : Nat) (words : Response) : (s.noteHinge source target n words).replies = s.replies := rfl
@[simp] theorem noteHinge_channels (source target n : Nat) (words : Response) : (s.noteHinge source target n words).channels = s.channels := rfl
@[simp] theorem noteHinge_copying (source target n : Nat) (words : Response) : (s.noteHinge source target n words).copying = s.copying := rfl
@[simp] theorem noteHinge_spares (source target n : Nat) (words : Response) : (s.noteHinge source target n words).spares = s.spares := rfl
@[simp] theorem noteHinge_sleeping (source target n : Nat) (words : Response) : (s.noteHinge source target n words).sleeping = s.sleeping := rfl
@[simp] theorem noteHinge_firmware (source target n : Nat) (words : Response) : (s.noteHinge source target n words).firmware = s.firmware := rfl
@[simp] theorem noteHinge_hostRead (source target n : Nat) (words : Response) : (s.noteHinge source target n words).hostRead = s.hostRead := rfl
@[simp] theorem noteHinge_agenda (source target n : Nat) (words : Response) : (s.noteHinge source target n words).agenda = s.agenda := rfl
@[simp] theorem noteHinge_cur (source target n : Nat) (words : Response) : (s.noteHinge source target n words).cur = s.cur := rfl
@[simp] theorem noteHinge_free (source target n : Nat) (words : Response) : (s.noteHinge source target n words).free = s.free := rfl
@[simp] theorem noteHinge_nextId (source target n : Nat) (words : Response) : (s.noteHinge source target n words).nextId = s.nextId := rfl

/-! ## `advance` -/

@[simp] theorem advance_variant (id i : Nat) (next : DWord) : (s.advance id i next).variant = s.variant := rfl
@[simp] theorem advance_cxl (id i : Nat) (next : DWord) : (s.advance id i next).cxl = s.cxl := rfl
@[simp] theorem advance_clock (id i : Nat) (next : DWord) : (s.advance id i next).clock = s.clock := rfl
@[simp] theorem advance_ref (id i : Nat) (next : DWord) : (s.advance id i next).ref = s.ref := rfl
@[simp] theorem advance_refPart (id i : Nat) (next : DWord) : (s.advance id i next).refPart = s.refPart := rfl
@[simp] theorem advance_clockMhz (id i : Nat) (next : DWord) : (s.advance id i next).clockMhz = s.clockMhz := rfl
@[simp] theorem advance_ilshare (id i : Nat) (next : DWord) : (s.advance id i next).ilshare = s.ilshare := rfl
@[simp] theorem advance_memmapWritten (id i : Nat) (next : DWord) : (s.advance id i next).memmapWritten = s.memmapWritten := rfl
@[simp] theorem advance_mem (id i : Nat) (next : DWord) : (s.advance id i next).mem = s.mem := rfl
@[simp] theorem advance_poison (id i : Nat) (next : DWord) : (s.advance id i next).poison = s.poison := rfl
@[simp] theorem advance_handles (id i : Nat) (next : DWord) : (s.advance id i next).handles = s.handles := rfl
@[simp] theorem advance_l2 (id i : Nat) (next : DWord) : (s.advance id i next).l2 = s.l2 := rfl
@[simp] theorem advance_merges (id i : Nat) (next : DWord) : (s.advance id i next).merges = s.merges := rfl
@[simp] theorem advance_frames (id i : Nat) (next : DWord) : (s.advance id i next).frames = s.frames := rfl
@[simp] theorem advance_waiters (id i : Nat) (next : DWord) : (s.advance id i next).waiters = s.waiters := rfl
@[simp] theorem advance_orphans (id i : Nat) (next : DWord) : (s.advance id i next).orphans = s.orphans := rfl
@[simp] theorem advance_released (id i : Nat) (next : DWord) : (s.advance id i next).released = s.released := rfl
@[simp] theorem advance_conts (id i : Nat) (next : DWord) : (s.advance id i next).conts = s.conts := rfl
@[simp] theorem advance_sent (id i : Nat) (next : DWord) : (s.advance id i next).sent = s.sent := rfl
@[simp] theorem advance_reports (id i : Nat) (next : DWord) : (s.advance id i next).reports = s.reports := rfl
@[simp] theorem advance_bins (id i : Nat) (next : DWord) : (s.advance id i next).bins = s.bins := rfl
@[simp] theorem advance_launches (id i : Nat) (next : DWord) : (s.advance id i next).launches = s.launches := rfl
@[simp] theorem advance_deposits (id i : Nat) (next : DWord) : (s.advance id i next).deposits = s.deposits := rfl
@[simp] theorem advance_placeQ (id i : Nat) (next : DWord) : (s.advance id i next).placeQ = s.placeQ := rfl
@[simp] theorem advance_pqueues (id i : Nat) (next : DWord) : (s.advance id i next).pqueues = s.pqueues := rfl
@[simp] theorem advance_scans (id i : Nat) (next : DWord) : (s.advance id i next).scans = s.scans := rfl
@[simp] theorem advance_vocabLast (id i : Nat) (next : DWord) : (s.advance id i next).vocabLast = s.vocabLast := rfl
@[simp] theorem advance_watch (id i : Nat) (next : DWord) : (s.advance id i next).watch = s.watch := rfl
@[simp] theorem advance_graphs (id i : Nat) (next : DWord) : (s.advance id i next).graphs = s.graphs := rfl
@[simp] theorem advance_teams (id i : Nat) (next : DWord) : (s.advance id i next).teams = s.teams := rfl
@[simp] theorem advance_cores (id i : Nat) (next : DWord) : (s.advance id i next).cores = s.cores := rfl
@[simp] theorem advance_ops (id i : Nat) (next : DWord) : (s.advance id i next).ops = s.ops := rfl
@[simp] theorem advance_writes (id i : Nat) (next : DWord) : (s.advance id i next).writes = s.writes := rfl
@[simp] theorem advance_ranges (id i : Nat) (next : DWord) : (s.advance id i next).ranges = s.ranges := rfl
@[simp] theorem advance_errHead (id i : Nat) (next : DWord) : (s.advance id i next).errHead = s.errHead := rfl
@[simp] theorem advance_errCount (id i : Nat) (next : DWord) : (s.advance id i next).errCount = s.errCount := rfl
@[simp] theorem advance_host (id i : Nat) (next : DWord) : (s.advance id i next).host = s.host := rfl
@[simp] theorem advance_armWin (id i : Nat) (next : DWord) : (s.advance id i next).armWin = s.armWin := rfl
@[simp] theorem advance_linkUp (id i : Nat) (next : DWord) : (s.advance id i next).linkUp = s.linkUp := rfl
@[simp] theorem advance_reqEnable (id i : Nat) (next : DWord) : (s.advance id i next).reqEnable = s.reqEnable := rfl
@[simp] theorem advance_ports (id i : Nat) (next : DWord) : (s.advance id i next).ports = s.ports := rfl
@[simp] theorem advance_boundaries (id i : Nat) (next : DWord) : (s.advance id i next).boundaries = s.boundaries := rfl
@[simp] theorem advance_hinge (id i : Nat) (next : DWord) : (s.advance id i next).hinge = s.hinge := rfl
@[simp] theorem advance_replies (id i : Nat) (next : DWord) : (s.advance id i next).replies = s.replies := rfl
@[simp] theorem advance_channels (id i : Nat) (next : DWord) : (s.advance id i next).channels = s.channels := rfl
@[simp] theorem advance_copying (id i : Nat) (next : DWord) : (s.advance id i next).copying = s.copying := rfl
@[simp] theorem advance_spares (id i : Nat) (next : DWord) : (s.advance id i next).spares = s.spares := rfl
@[simp] theorem advance_sleeping (id i : Nat) (next : DWord) : (s.advance id i next).sleeping = s.sleeping := rfl
@[simp] theorem advance_firmware (id i : Nat) (next : DWord) : (s.advance id i next).firmware = s.firmware := rfl
@[simp] theorem advance_hostRead (id i : Nat) (next : DWord) : (s.advance id i next).hostRead = s.hostRead := rfl
@[simp] theorem advance_agenda (id i : Nat) (next : DWord) : (s.advance id i next).agenda = s.agenda := rfl
@[simp] theorem advance_cur (id i : Nat) (next : DWord) : (s.advance id i next).cur = s.cur := rfl
@[simp] theorem advance_free (id i : Nat) (next : DWord) : (s.advance id i next).free = s.free := rfl
@[simp] theorem advance_nextId (id i : Nat) (next : DWord) : (s.advance id i next).nextId = s.nextId := rfl

/-! ## `countEvent` -/

@[simp] theorem countEvent_variant (id ev handle n : Nat) : (s.countEvent id ev handle n).variant = s.variant := rfl
@[simp] theorem countEvent_cxl (id ev handle n : Nat) : (s.countEvent id ev handle n).cxl = s.cxl := rfl
@[simp] theorem countEvent_clock (id ev handle n : Nat) : (s.countEvent id ev handle n).clock = s.clock := rfl
@[simp] theorem countEvent_ref (id ev handle n : Nat) : (s.countEvent id ev handle n).ref = s.ref := rfl
@[simp] theorem countEvent_refPart (id ev handle n : Nat) : (s.countEvent id ev handle n).refPart = s.refPart := rfl
@[simp] theorem countEvent_clockMhz (id ev handle n : Nat) : (s.countEvent id ev handle n).clockMhz = s.clockMhz := rfl
@[simp] theorem countEvent_ilshare (id ev handle n : Nat) : (s.countEvent id ev handle n).ilshare = s.ilshare := rfl
@[simp] theorem countEvent_memmapWritten (id ev handle n : Nat) : (s.countEvent id ev handle n).memmapWritten = s.memmapWritten := rfl
@[simp] theorem countEvent_mem (id ev handle n : Nat) : (s.countEvent id ev handle n).mem = s.mem := rfl
@[simp] theorem countEvent_poison (id ev handle n : Nat) : (s.countEvent id ev handle n).poison = s.poison := rfl
@[simp] theorem countEvent_handles (id ev handle n : Nat) : (s.countEvent id ev handle n).handles = s.handles := rfl
@[simp] theorem countEvent_l2 (id ev handle n : Nat) : (s.countEvent id ev handle n).l2 = s.l2 := rfl
@[simp] theorem countEvent_merges (id ev handle n : Nat) : (s.countEvent id ev handle n).merges = s.merges := rfl
@[simp] theorem countEvent_frames (id ev handle n : Nat) : (s.countEvent id ev handle n).frames = s.frames := rfl
@[simp] theorem countEvent_waiters (id ev handle n : Nat) : (s.countEvent id ev handle n).waiters = s.waiters := rfl
@[simp] theorem countEvent_orphans (id ev handle n : Nat) : (s.countEvent id ev handle n).orphans = s.orphans := rfl
@[simp] theorem countEvent_released (id ev handle n : Nat) : (s.countEvent id ev handle n).released = s.released := rfl
@[simp] theorem countEvent_conts (id ev handle n : Nat) : (s.countEvent id ev handle n).conts = s.conts := rfl
@[simp] theorem countEvent_sent (id ev handle n : Nat) : (s.countEvent id ev handle n).sent = s.sent := rfl
@[simp] theorem countEvent_reports (id ev handle n : Nat) : (s.countEvent id ev handle n).reports = s.reports := rfl
@[simp] theorem countEvent_bins (id ev handle n : Nat) : (s.countEvent id ev handle n).bins = s.bins := rfl
@[simp] theorem countEvent_launches (id ev handle n : Nat) : (s.countEvent id ev handle n).launches = s.launches := rfl
@[simp] theorem countEvent_deposits (id ev handle n : Nat) : (s.countEvent id ev handle n).deposits = s.deposits := rfl
@[simp] theorem countEvent_placeQ (id ev handle n : Nat) : (s.countEvent id ev handle n).placeQ = s.placeQ := rfl
@[simp] theorem countEvent_pqueues (id ev handle n : Nat) : (s.countEvent id ev handle n).pqueues = s.pqueues := rfl
@[simp] theorem countEvent_scans (id ev handle n : Nat) : (s.countEvent id ev handle n).scans = s.scans := rfl
@[simp] theorem countEvent_vocabLast (id ev handle n : Nat) : (s.countEvent id ev handle n).vocabLast = s.vocabLast := rfl
@[simp] theorem countEvent_watch (id ev handle n : Nat) : (s.countEvent id ev handle n).watch = s.watch := rfl
@[simp] theorem countEvent_graphs (id ev handle n : Nat) : (s.countEvent id ev handle n).graphs = s.graphs := rfl
@[simp] theorem countEvent_teams (id ev handle n : Nat) : (s.countEvent id ev handle n).teams = s.teams := rfl
@[simp] theorem countEvent_cores (id ev handle n : Nat) : (s.countEvent id ev handle n).cores = s.cores := rfl
@[simp] theorem countEvent_ops (id ev handle n : Nat) : (s.countEvent id ev handle n).ops = s.ops := rfl
@[simp] theorem countEvent_writes (id ev handle n : Nat) : (s.countEvent id ev handle n).writes = s.writes := rfl
@[simp] theorem countEvent_ranges (id ev handle n : Nat) : (s.countEvent id ev handle n).ranges = s.ranges := rfl
@[simp] theorem countEvent_errHead (id ev handle n : Nat) : (s.countEvent id ev handle n).errHead = s.errHead := rfl
@[simp] theorem countEvent_errCount (id ev handle n : Nat) : (s.countEvent id ev handle n).errCount = s.errCount := rfl
@[simp] theorem countEvent_host (id ev handle n : Nat) : (s.countEvent id ev handle n).host = s.host := rfl
@[simp] theorem countEvent_armWin (id ev handle n : Nat) : (s.countEvent id ev handle n).armWin = s.armWin := rfl
@[simp] theorem countEvent_linkUp (id ev handle n : Nat) : (s.countEvent id ev handle n).linkUp = s.linkUp := rfl
@[simp] theorem countEvent_reqEnable (id ev handle n : Nat) : (s.countEvent id ev handle n).reqEnable = s.reqEnable := rfl
@[simp] theorem countEvent_ports (id ev handle n : Nat) : (s.countEvent id ev handle n).ports = s.ports := rfl
@[simp] theorem countEvent_boundaries (id ev handle n : Nat) : (s.countEvent id ev handle n).boundaries = s.boundaries := rfl
@[simp] theorem countEvent_hinge (id ev handle n : Nat) : (s.countEvent id ev handle n).hinge = s.hinge := rfl
@[simp] theorem countEvent_replies (id ev handle n : Nat) : (s.countEvent id ev handle n).replies = s.replies := rfl
@[simp] theorem countEvent_channels (id ev handle n : Nat) : (s.countEvent id ev handle n).channels = s.channels := rfl
@[simp] theorem countEvent_copying (id ev handle n : Nat) : (s.countEvent id ev handle n).copying = s.copying := rfl
@[simp] theorem countEvent_spares (id ev handle n : Nat) : (s.countEvent id ev handle n).spares = s.spares := rfl
@[simp] theorem countEvent_sleeping (id ev handle n : Nat) : (s.countEvent id ev handle n).sleeping = s.sleeping := rfl
@[simp] theorem countEvent_firmware (id ev handle n : Nat) : (s.countEvent id ev handle n).firmware = s.firmware := rfl
@[simp] theorem countEvent_hostRead (id ev handle n : Nat) : (s.countEvent id ev handle n).hostRead = s.hostRead := rfl
@[simp] theorem countEvent_agenda (id ev handle n : Nat) : (s.countEvent id ev handle n).agenda = s.agenda := rfl
@[simp] theorem countEvent_cur (id ev handle n : Nat) : (s.countEvent id ev handle n).cur = s.cur := rfl
@[simp] theorem countEvent_free (id ev handle n : Nat) : (s.countEvent id ev handle n).free = s.free := rfl
@[simp] theorem countEvent_nextId (id ev handle n : Nat) : (s.countEvent id ev handle n).nextId = s.nextId := rfl

/-! ## `issued` -/

@[simp] theorem issued_variant (id : Nat) : (s.issued id).variant = s.variant := rfl
@[simp] theorem issued_cxl (id : Nat) : (s.issued id).cxl = s.cxl := rfl
@[simp] theorem issued_clock (id : Nat) : (s.issued id).clock = s.clock := rfl
@[simp] theorem issued_ref (id : Nat) : (s.issued id).ref = s.ref := rfl
@[simp] theorem issued_refPart (id : Nat) : (s.issued id).refPart = s.refPart := rfl
@[simp] theorem issued_clockMhz (id : Nat) : (s.issued id).clockMhz = s.clockMhz := rfl
@[simp] theorem issued_ilshare (id : Nat) : (s.issued id).ilshare = s.ilshare := rfl
@[simp] theorem issued_memmapWritten (id : Nat) : (s.issued id).memmapWritten = s.memmapWritten := rfl
@[simp] theorem issued_mem (id : Nat) : (s.issued id).mem = s.mem := rfl
@[simp] theorem issued_poison (id : Nat) : (s.issued id).poison = s.poison := rfl
@[simp] theorem issued_handles (id : Nat) : (s.issued id).handles = s.handles := rfl
@[simp] theorem issued_l2 (id : Nat) : (s.issued id).l2 = s.l2 := rfl
@[simp] theorem issued_merges (id : Nat) : (s.issued id).merges = s.merges := rfl
@[simp] theorem issued_frames (id : Nat) : (s.issued id).frames = s.frames := rfl
@[simp] theorem issued_waiters (id : Nat) : (s.issued id).waiters = s.waiters := rfl
@[simp] theorem issued_orphans (id : Nat) : (s.issued id).orphans = s.orphans := rfl
@[simp] theorem issued_released (id : Nat) : (s.issued id).released = s.released := rfl
@[simp] theorem issued_conts (id : Nat) : (s.issued id).conts = s.conts := rfl
@[simp] theorem issued_sent (id : Nat) : (s.issued id).sent = s.sent := rfl
@[simp] theorem issued_reports (id : Nat) : (s.issued id).reports = s.reports := rfl
@[simp] theorem issued_bins (id : Nat) : (s.issued id).bins = s.bins := rfl
@[simp] theorem issued_launches (id : Nat) : (s.issued id).launches = s.launches := rfl
@[simp] theorem issued_deposits (id : Nat) : (s.issued id).deposits = s.deposits := rfl
@[simp] theorem issued_placeQ (id : Nat) : (s.issued id).placeQ = s.placeQ := rfl
@[simp] theorem issued_pqueues (id : Nat) : (s.issued id).pqueues = s.pqueues := rfl
@[simp] theorem issued_scans (id : Nat) : (s.issued id).scans = s.scans := rfl
@[simp] theorem issued_vocabLast (id : Nat) : (s.issued id).vocabLast = s.vocabLast := rfl
@[simp] theorem issued_watch (id : Nat) : (s.issued id).watch = s.watch := rfl
@[simp] theorem issued_graphs (id : Nat) : (s.issued id).graphs = s.graphs := rfl
@[simp] theorem issued_teams (id : Nat) : (s.issued id).teams = s.teams := rfl
@[simp] theorem issued_cores (id : Nat) : (s.issued id).cores = s.cores := rfl
@[simp] theorem issued_ops (id : Nat) : (s.issued id).ops = s.ops := rfl
@[simp] theorem issued_writes (id : Nat) : (s.issued id).writes = s.writes := rfl
@[simp] theorem issued_ranges (id : Nat) : (s.issued id).ranges = s.ranges := rfl
@[simp] theorem issued_errHead (id : Nat) : (s.issued id).errHead = s.errHead := rfl
@[simp] theorem issued_errCount (id : Nat) : (s.issued id).errCount = s.errCount := rfl
@[simp] theorem issued_host (id : Nat) : (s.issued id).host = s.host := rfl
@[simp] theorem issued_armWin (id : Nat) : (s.issued id).armWin = s.armWin := rfl
@[simp] theorem issued_linkUp (id : Nat) : (s.issued id).linkUp = s.linkUp := rfl
@[simp] theorem issued_reqEnable (id : Nat) : (s.issued id).reqEnable = s.reqEnable := rfl
@[simp] theorem issued_ports (id : Nat) : (s.issued id).ports = s.ports := rfl
@[simp] theorem issued_boundaries (id : Nat) : (s.issued id).boundaries = s.boundaries := rfl
@[simp] theorem issued_hinge (id : Nat) : (s.issued id).hinge = s.hinge := rfl
@[simp] theorem issued_replies (id : Nat) : (s.issued id).replies = s.replies := rfl
@[simp] theorem issued_channels (id : Nat) : (s.issued id).channels = s.channels := rfl
@[simp] theorem issued_copying (id : Nat) : (s.issued id).copying = s.copying := rfl
@[simp] theorem issued_spares (id : Nat) : (s.issued id).spares = s.spares := rfl
@[simp] theorem issued_sleeping (id : Nat) : (s.issued id).sleeping = s.sleeping := rfl
@[simp] theorem issued_firmware (id : Nat) : (s.issued id).firmware = s.firmware := rfl
@[simp] theorem issued_hostRead (id : Nat) : (s.issued id).hostRead = s.hostRead := rfl
@[simp] theorem issued_agenda (id : Nat) : (s.issued id).agenda = s.agenda := rfl
@[simp] theorem issued_cur (id : Nat) : (s.issued id).cur = s.cur := rfl
@[simp] theorem issued_free (id : Nat) : (s.issued id).free = s.free := rfl
@[simp] theorem issued_nextId (id : Nat) : (s.issued id).nextId = s.nextId := rfl

/-! ## What was written -/

@[simp] theorem setCtx_look (id j : Nat) (c : Ctx) :
    (s.setCtx id c).ctxs.look j = if j = id then some c else s.ctxs.look j := look_ins s.ctxs id j c

@[simp] theorem modCtx_look (id j : Nat) (f : Ctx → Ctx) :
    (s.modCtx id f).ctxs.look j = if j = id then (s.ctxs.look id).map f else s.ctxs.look j := look_modify s.ctxs id j f

theorem modCtx_of_look {s : State} {id : Nat} {c : Ctx} (h : s.ctxs.look id = some c) (f : Ctx → Ctx) :
    s.modCtx id f = s.setCtx id (f c) := by simp [State.modCtx, State.setCtx, modify_of_look h]

@[simp] theorem core_setCore (k j : Nat) (c : Core) : (s.setCore k c).core j = if j = k then c else s.core j :=
  at_put s.cores Core.fresh k j c

@[simp] theorem core_modCore (k j : Nat) (f : Core → Core) :
    (s.modCore k f).core j = if j = k then f (s.core k) else s.core j := at_put s.cores Core.fresh k j (f (s.core k))

/-- The frame that was written is the one that its die's store then holds. -/
@[simp] theorem frame_setFrame (k : Nat) (f : Frame) : (s.setFrame k f).frame k = f := by
  simp [State.setFrame, State.frame]

@[simp] theorem modTeam_look (id j : Nat) (f : Team → Team) :
    (s.modTeam id f).teams.look j = if j = id then (s.teams.look id).map f else s.teams.look j := look_modify s.teams id j f

@[simp] theorem modGraph_look (id j : Nat) (f : Graph → Graph) :
    (s.modGraph id f).graphs.look j = if j = id then (s.graphs.look id).map f else s.graphs.look j :=
  look_modify s.graphs id j f

@[simp] theorem addOp_look (o : Op) (j : Nat) :
    (s.addOp o).ops.look j = if j = s.nextId then some o else s.ops.look j := look_ins s.ops s.nextId j o

@[simp] theorem modOp_look (id j : Nat) (f : Op → Op) :
    (s.modOp id f).ops.look j = if j = id then (s.ops.look id).map f else s.ops.look j := look_modify s.ops id j f

@[simp] theorem endOp_look (id j : Nat) : (s.endOp id).ops.look j = if j = id then none else s.ops.look j :=
  look_del s.ops id j

/-! ## A context's registers -/

variable (c : Ctx)

@[simp] theorem s_setS (n m : Nat) (w : Word) : (c.setS n w).s m = if m = n then w else c.s m := at_put c.sreg 0 n m w

@[simp] theorem vreg_setVreg (n l m k : Nat) (w : Word) (hl : l < 64) (hk : k < 64) :
    (c.setVreg n l w).vreg m k = if m = n ∧ k = l then w else c.vreg m k := by
  unfold Ctx.setVreg Ctx.vreg
  rw [at_put]
  refine ite_congr (propext ⟨fun h => ⟨?_, ?_⟩, fun h => ?_⟩) (fun _ => rfl) fun _ => rfl <;> omega

/-- A word written at a location of `s` is read there, and no other register of `s` changes. -/
@[simp] theorem s_writeLoc_s (n m : Nat) (w : Word) : (c.writeLoc (locS n) w).s m = if m = n then w else c.s m := by
  have : ¬ 16384 + n < 16384 := by omega
  simp [Ctx.writeLoc, locS, this, Ctx.s, Ctx.setS, at_put]

/-- A word written at a location of `v` leaves `s`. -/
theorem s_writeLoc_v (n l m : Nat) (w : Word) (hn : n < 256) (hl : l < 64) : (c.writeLoc (locV n l) w).s m = c.s m := by
  have : 64 * n + l < 16384 := by omega
  simp [Ctx.writeLoc, locV, this, Ctx.s]

/-- A word written at a location makes it full and leaves every other location. -/
@[simp] theorem fills_writeLoc (k j : Nat) (w : Word) :
    (c.writeLoc k w).fills.look j = if j = k then none else c.fills.look j := by
  unfold Ctx.writeLoc
  split <;> simp [Ctx.setS, look_del]

/-- A word written at a location of `v` is read there, and no other location of `v` changes. -/
theorem v_writeLoc (k j : Nat) (w : Word) (hk : k < 16384) :
    (c.writeLoc k w).v.at 0 j = if j = k then w else c.v.at 0 j := by
  simp [Ctx.writeLoc, hk, at_put]

/-- What a word written at a location leaves. -/
theorem writeLoc_rest (k : Nat) (w : Word) :
    c.writeLoc k w = { c with v := (c.writeLoc k w).v, sreg := (c.writeLoc k w).sreg, fills := (c.writeLoc k w).fills } := by
  unfold Ctx.writeLoc
  split <;> rfl

@[simp] theorem tile_setTile (n m : Nat) (t : Tile) : (c.setTile n t).tile m = if m = n then t else c.tile m :=
  at_put c.tiles Tile.fresh n m t

@[simp] theorem acc_setAcc (n m : Nat) (b : AccBlock) : (c.setAcc n b).acc m = if m = n then b else c.acc m :=
  at_put c.accs AccBlock.fresh n m b

@[simp] theorem xreg_setXreg (n m : Nat) (r : XReg) : (c.setXreg n r).xreg m = if m = n then r else c.xreg m :=
  at_put c.x XReg.unbound n m r

@[simp] theorem pred_zero : c.pred 0 = BitVec.allOnes 64 := rfl
@[simp] theorem kpred_zero : c.kpred 0 = true := rfl

/-- A predicate is written in the lanes of the mask alone. -/
theorem pred_setPred (n m : Nat) (mask bits : LaneMask) (hn : n ≠ 0) :
    (c.setPred n mask bits).pred m = if m = n then (c.pred n &&& ~~~mask) ||| (bits &&& mask) else c.pred m := by
  unfold Ctx.setPred Ctx.pred
  by_cases h : m = n
  · subst h; simp [hn]
  · simp [h, at_put_ne _ _ _ h]

end Sys2Proof.Laws
end

