-- ==== Sys2Proof/Laws/Memory.lean ====
section
/-! SUPPORT. The laws of memory: what a write at its home changes, that a read after it sees it, and that every operation
keeps the canonical form. -/

namespace Sys2Proof.Laws

open Machine

variable (s : State)

/-! ## Releases leave memory -/

@[simp] theorem crossEdge_mem (id : Nat) : (s.crossEdge id).mem = s.mem := by
  unfold State.crossEdge; split <;> rfl

@[simp] theorem freeWatch_mem (w : Watch) : (s.freeWatch w).mem = s.mem := by
  unfold State.freeWatch; simp only; split <;> simp

@[simp] theorem release_mem (w : Watch) : (s.release w).mem = s.mem := by
  unfold State.release; split <;> simp

/-- A fold of operations that leave memory leaves it. -/
theorem foldState_mem {α : Type} (l : List α) (f : State → α → State) (h : ∀ s a, (f s a).mem = s.mem) :
    (foldState l s f).mem = s.mem := by
  unfold foldState
  induction l generalizing s with
  | nil => rfl
  | cons a l ih => rw [List.foldl_cons, ih, h]

@[simp] theorem testWatches_mem (touched : Watch → Bool) : (s.testWatches touched).mem = s.mem := by
  unfold State.testWatches; exact foldState_mem _ _ _ release_mem

@[simp] theorem releasePhase_mem (id i : Nat) : (s.releasePhase id i).mem = s.mem := by
  unfold State.releasePhase; simp

@[simp] theorem releasePhases_mem (core : Nat) : (s.releasePhases core).mem = s.mem := by
  unfold State.releasePhases; exact foldState_mem _ _ _ fun s e => releasePhase_mem s e.1 e.2

/-! ## The caches and the registers of the L2 leave memory -/

@[simp] theorem countLine_mem (id ev line h : Nat) : (s.countLine id ev line h).mem = s.mem := by
  unfold State.countLine; split <;> simp

@[simp] theorem claimLine_mem (pa h : Nat) : (s.claimLine pa h).mem = s.mem := by
  unfold State.claimLine
  simp only
  repeat' split
  all_goals rfl

@[simp] theorem replaceLine_mem (set : List Nat) : (s.replaceLine set).mem = s.mem := by
  unfold State.replaceLine
  simp only
  split <;> rfl

@[simp] theorem demote_mem (die h : Nat) : (s.demote die h).mem = s.mem := rfl

/-- Making room in a full set leaves memory. -/
theorem makeWay_mem {t : State} {die : Nat} {set : List Nat} (h : s.makeWay die set = some t) : t.mem = s.mem := by
  unfold State.makeWay at h
  simp only at h
  repeat' split at h
  all_goals first | cases h; done | (cases h; simp)

@[simp] theorem allocLine_mem (line : Nat) : (s.allocLine line).mem = s.mem := by
  unfold State.allocLine
  split
  · rfl
  split
  · rfl
  split
  · rfl
  · rename_i t h; exact (makeWay_mem s h : t.mem = s.mem)

@[simp] theorem sendLine_mem (core : Nat) (who : Option Nat) (line : Nat) : (s.sendLine core who line).mem = s.mem := by
  unfold State.sendLine
  split
  · rfl
  · exact foldState_mem _ _ _ fun s id => countLine_mem s id _ _ _

@[simp] theorem evictLine_mem (core line : Nat) : (s.evictLine core line).mem = s.mem := by
  unfold State.evictLine
  split
  · rfl
  · simp only [modCore_mem]; split <;> simp

@[simp] theorem makeRoom_mem (core line : Nat) : (s.makeRoom core line).mem = s.mem := by
  unfold State.makeRoom
  simp only
  repeat' split
  all_goals first | rfl | simp

@[simp] theorem storeL1_mem (core id pa n value handle : Nat) : (s.storeL1 core id pa n value handle).mem = s.mem := by
  unfold State.storeL1; simp

@[simp] theorem loadL1_mem (core pa n : Nat) : (s.loadL1 core pa n).1.mem = s.mem := by
  unfold State.loadL1
  simp only
  repeat' split
  all_goals first | rfl | simp

@[simp] theorem joinMerge_mem (line : Nat) (r : Request) : (s.joinMerge line r).mem = s.mem := by
  unfold State.joinMerge; split <;> rfl

@[simp] theorem requestSectors_mem (id core handle : Nat) (op : Option Nat) (sectors : List Nat) :
    (s.requestSectors id core handle op sectors).mem = s.mem := by
  unfold State.requestSectors
  refine foldState_mem _ _ _ fun s line => ?_
  simp only
  split <;> simp

/-! ## Writing -/

/-- Memory after bytes have been written: the cells, in order, each put into the store. -/
theorem writeCells_mem (cells : List Host.Cell) :
    (s.writeCells cells).mem = cells.foldl (fun m (e : Host.Cell) => SMap.put m 0 e.1 e.2) s.mem := by
  unfold State.writeCells
  simp only
  split
  · rfl
  · exact testWatches_mem _ _

/-- Writing bytes keeps the canonical form. -/
theorem wf_writeCells (cells : List Host.Cell) (h : Memory.wf s.mem = true) : Memory.wf (s.writeCells cells).mem = true := by
  rw [writeCells_mem]; exact canonical_puts cells h

@[simp] theorem writeScratch_mem (core : Nat) (cells : List (Nat × Byte)) : (s.writeScratch core cells).mem = s.mem := by
  unfold State.writeScratch
  simp only
  split
  · simp
  · rw [testWatches_mem]; simp

theorem wf_logError (die kind unit index addr : Nat) (detail : List Byte) (h : Memory.wf s.mem = true) :
    Memory.wf (s.logError die kind unit index addr detail).mem = true := wf_writeCells s _ h

/-- A fold of operations that keep the canonical form keeps it. -/
theorem wf_foldState {α : Type} (l : List α) (f : State → α → State)
    (step : ∀ s a, Memory.wf s.mem = true → Memory.wf (f s a).mem = true) (h : Memory.wf s.mem = true) :
    Memory.wf (foldState l s f).mem = true := by
  unfold foldState
  induction l generalizing s with
  | nil => exact h
  | cons a l ih => exact ih _ (step s a h)

theorem wf_logUncorrectable (pa : Nat) (h : Memory.wf s.mem = true) : Memory.wf (s.logUncorrectable pa).mem = true := by
  unfold State.logUncorrectable; simp only; split
  · exact h
  · exact wf_logError s _ _ _ _ _ _ h

theorem wf_logPlace (p : Place) (h : Memory.wf s.mem = true) : Memory.wf (s.logPlace p).mem = true := by
  cases p with
  | mem pa => exact wf_logUncorrectable s pa h
  | scratch core off => exact wf_logError s _ _ _ _ _ _ h

theorem wf_readLane (core handle : Nat) (ty : Ty) (a : LaneAt) (h : Memory.wf s.mem = true) :
    Memory.wf (s.readLane core handle ty a).1.mem = true := by
  unfold State.readLane
  split
  · rename_i pa _
    have hm : Memory.wf (s.loadL1 core pa (ty.width / 8)).1.mem = true := by simpa using h
    revert hm
    generalize s.loadL1 core pa (ty.width / 8) = r
    obtain ⟨u, x, missed⟩ := r
    intro hu
    have hv : Memory.wf (if missed = true then u.claimLine pa handle else u).mem = true := by split <;> simpa using hu
    simp only
    split
    · exact wf_logUncorrectable _ _ hv
    · exact hv
  · exact h

theorem wf_readLanes (core : Nat) (scalar : Bool) (reg : Nat) (ty : Ty) (handle : Nat) (lanes : List LaneAt)
    (h : Memory.wf s.mem = true) : Memory.wf (s.readLanes core scalar reg ty handle lanes).1.mem = true := by
  unfold State.readLanes
  generalize ([] : List (Nat × Option Word × BitVec 5)) = got
  induction lanes generalizing s got with
  | nil => exact h
  | cons a l ih => exact ih _ (wf_readLane s core handle ty a h) _

@[simp] theorem notePart_mem (n : Nat) (link : Nat × Nat) (words : Response) : (s.notePart n link words).mem = s.mem := by
  unfold State.notePart
  split
  · rfl
  · split <;> rfl

@[simp] theorem noteLanes_mem (n : Nat) (o : Op) (lanes : List LaneAt) (words : LaneAt → Response) :
    (s.noteLanes n o lanes words).mem = s.mem := by
  unfold State.noteLanes
  exact foldState_mem _ _ _ fun s e => notePart_mem s _ _ _

@[simp] theorem noteNow_mem (link : Nat × Nat) (words : Response) : (s.noteNow link words).mem = s.mem := by
  unfold State.noteNow; split <;> rfl

@[simp] theorem noteScratch_mem (core : Nat) (lanes : List LaneAt) (words : LaneAt → Response) :
    (s.noteScratch core lanes words).mem = s.mem := by
  unfold State.noteScratch
  exact foldState_mem _ _ _ fun s e => noteNow_mem s _ _

@[simp] theorem keepOp_mem (n : Nat) (done : Bool) (kind : OpKind) : (s.keepOp n done kind).mem = s.mem := by
  unfold State.keepOp; split <;> rfl

theorem wf_readOp (n : Nat) (chosen : LaneAt → Bool) (h : Memory.wf s.mem = true) :
    Memory.wf (s.readOp n chosen).mem = true := by
  unfold State.readOp
  split
  · exact h
  · split
    · rename_i o _ _ scalar reg ty lanes handle _ _
      have hm := wf_readLanes s o.core scalar reg ty handle (lanes.filter chosen) h
      revert hm
      generalize s.readLanes o.core scalar reg ty handle (lanes.filter chosen) = r
      obtain ⟨u, words⟩ := r
      intro hu
      simpa using hu
    · exact h

theorem wf_serveLine (line : Nat) (h : Memory.wf s.mem = true) : Memory.wf (s.serveLine line).mem = true := by
  unfold State.serveLine
  refine wf_foldState _ _ _ (fun s r hs => ?_) h
  unfold State.serveRequest
  simp only
  split
  · exact wf_readOp _ _ _ (by simpa using hs)
  · exact wf_foldState _ _ _ (fun s x hs => by simpa using hs) (by simpa using hs)

theorem wf_fetchLine (core handle : Nat) (op : Option Nat) (line : Nat) (h : Memory.wf s.mem = true) :
    Memory.wf (s.fetchLine core handle op line).mem = true := by
  unfold State.fetchLine
  split
  · exact h
  · exact wf_serveLine _ _ (by simpa using h)

theorem wf_fetchLines (core : Nat) (op : Option Nat) (pa n : Nat) (h : Memory.wf s.mem = true) :
    Memory.wf (s.fetchLines core op pa n).mem = true :=
  wf_foldState s _ _ (fun s line hs => wf_fetchLine s core 0 op line hs) h

/-- A write at its home keeps the canonical form. -/
theorem wf_writeHome (cells : List Host.Cell) (h : Memory.wf s.mem = true) : Memory.wf (s.writeHome cells).mem = true := by
  unfold State.writeHome
  exact wf_writeCells _ _ (wf_foldState _ _ _ (fun s line hs => wf_serveLine _ _ (by simpa using hs)) h)

theorem wf_writeNat (pa n value : Nat) (h : Memory.wf s.mem = true) : Memory.wf (s.writeNat pa n value).mem = true :=
  wf_writeHome s _ h

theorem wf_writePlace (p : Place) (n value : Nat) (h : Memory.wf s.mem = true) :
    Memory.wf (s.writePlace p n value).mem = true := by
  cases p with
  | mem pa => exact wf_writeNat s pa n value h
  | scratch core off => simpa [State.writePlace] using h

theorem wf_performWrite (w : Write) (h : Memory.wf s.mem = true) : Memory.wf (s.performWrite w).mem = true := by
  unfold State.performWrite
  simp only
  split
  · simpa using wf_writeHome (s.allocLine _) w.bytes (by simpa using h)
  · exact h

theorem wf_drainWrites (core : Nat) (h : Memory.wf s.mem = true) : Memory.wf (s.drainWrites core).mem = true := by
  unfold State.drainWrites
  exact wf_foldState _ _ _ (fun s w hs => wf_performWrite s w hs) h

theorem wf_writeBackLines (core : Nat) (who : Option Nat) (chosen : Nat → Line → Bool) (h : Memory.wf s.mem = true) :
    Memory.wf (s.writeBackLines core who chosen).mem = true := by
  unfold State.writeBackLines
  exact wf_drainWrites _ _ (wf_foldState _ _ _ (fun s e hs => by simpa using hs) h)

theorem wf_settleSector (core : Nat) (who : Option Nat) (pa : Nat) (h : Memory.wf s.mem = true) :
    Memory.wf (s.settleSector core who pa).mem = true := by
  unfold State.settleSector
  exact wf_writeBackLines s core who _ h

theorem wf_setEntryBits (home bits : Nat) (h : Memory.wf s.mem = true) : Memory.wf (s.setEntryBits home bits).mem = true :=
  wf_writeNat s _ _ _ h

theorem wf_touchPage (core asroot : Nat) (va : DWord) (h : Memory.wf s.mem = true) :
    Memory.wf (s.touchPage core asroot va).mem = true := by
  unfold State.touchPage
  split
  · exact h
  · exact wf_setEntryBits s _ _ h

theorem wf_touchEntry (core : Nat) (t : TlbEntry) (h : Memory.wf s.mem = true) : Memory.wf (s.touchEntry core t).mem = true := by
  unfold State.touchEntry
  split
  · exact h
  · exact wf_setEntryBits s _ _ h

theorem wf_readEntries (core asroot : Nat) (va : DWord) (h : Memory.wf s.mem = true) :
    Memory.wf (s.readEntries core asroot va).mem = true :=
  wf_foldState s _ _ (fun s at_ hs => wf_fetchLines s core none at_ 8 hs) h

theorem wf_walk (core asroot : Nat) (va : DWord) (kind : Nat) (h : Memory.wf s.mem = true) :
    Memory.wf (s.walk core asroot va kind).1.mem = true := by
  have hr := wf_readEntries s core asroot va h
  unfold State.walk
  simp only
  repeat' split
  all_goals first | exact h | exact hr | exact wf_logUncorrectable _ _ hr | exact wf_setEntryBits _ _ _ hr

theorem wf_frameRoom (k : Nat) (h : Memory.wf s.mem = true) : Memory.wf (s.frameRoom k).mem = true := by
  unfold State.frameRoom
  simp only
  repeat' split
  all_goals first | exact h | exact wf_writeHome _ _ h

theorem wf_setFrame (k : Nat) (f : Frame) (h : Memory.wf s.mem = true) : Memory.wf (s.setFrame k f).mem = true :=
  wf_frameRoom s k h

/-! ## Reading after writing -/

/-- A byte after a list of cells has been written: the last cell at its address, or the byte before. -/
theorem byteAt_writeCells (cells : List Host.Cell) (a : Nat) :
    (s.writeCells cells).byteAt a = (((cells.reverse.find? fun e => e.1 == a).map Prod.snd).getD (s.byteAt a)) := by
  unfold State.byteAt
  rw [writeCells_mem]
  generalize s.mem = m
  induction cells generalizing m with
  | nil => rfl
  | cons e l ih =>
    rw [List.foldl_cons, ih, List.reverse_cons, List.find?_append, at_put]
    cases h : List.find? (fun e => e.1 == a) l.reverse with
    | some x => simp
    | none =>
      by_cases g : a = e.1
      · subst g; simp
      · have : (e.1 == a) = false := by simpa using Ne.symm g
        simp [this, g]

/-- A write leaves every byte outside its cells. -/
theorem byteAt_writeCells_other (cells : List Host.Cell) (a : Nat) (h : ∀ e ∈ cells, e.1 ≠ a) :
    (s.writeCells cells).byteAt a = s.byteAt a := by
  rw [byteAt_writeCells]
  have : cells.reverse.find? (fun e => e.1 == a) = none := by
    rw [List.find?_eq_none]; intro e he; simpa using h e (List.mem_reverse.1 he)
  simp [this]

/-- Where no fill of its lines is open, a write at its home is the write of its cells. -/
theorem writeHome_closed (cells : List Host.Cell) (h : ∀ m ∈ s.merges, ∀ e ∈ cells, e.1 / 128 ≠ m.line) :
    s.writeHome cells = s.writeCells cells := by
  have none : (s.merges.map Merge.line).filter (fun line => cells.any fun e => e.1 / 128 == line) = [] := by
    rw [List.filter_eq_nil_iff]
    intro line hl
    obtain ⟨m, hm, rfl⟩ := List.mem_map.1 hl
    simp only [List.any_eq_true, beq_iff_eq, not_exists, not_and]
    exact fun e he => h m hm e he
  simp [State.writeHome, none, foldState]

/-- A number written at home leaves every byte outside its own. -/
theorem byteAt_writeNat_other (pa n value a : Nat) (h : a < pa ∨ pa + n ≤ a)
    (closed : ∀ m ∈ s.merges, ∀ e ∈ cellsOf pa n value, e.1 / 128 ≠ m.line) :
    (s.writeNat pa n value).byteAt a = s.byteAt a := by
  rw [State.writeNat, writeHome_closed s _ closed]
  refine byteAt_writeCells_other s _ a fun e he => ?_
  simp only [cellsOf, tabulate, List.mem_map, List.mem_range] at he
  obtain ⟨i, hi, rfl⟩ := he
  simp only
  omega

end Sys2Proof.Laws
end

