-- ==== Sys2Proof/Tests/Slice0.lean ====
section
/-! SUPPORT. The model's own tests: ill-formed terms that the checks refuse, words decoded by hand from the encoding tables of
the spec (07, 08), single steps, and a state that meets the hypotheses of each statement. -/

namespace Sys2Proof.Tests

open Machine Claims Laws

/-! ## Terms and states -/

/-- A header with every field 0. -/
def hdr : Hdr :=
  { dst := 0, src1 := 0, src2 := 0, src3 := 0, guard := ⟨false, 0⟩, empty := 0, ty := .b32, rnd := .rne, lit := none }
def base : Base := { dst := 0, src1 := 0, src2 := 0, lit := none }
def xc : XC := { h := hdr, imm := 0 }
def xv : XV := { h := hdr, kind := 0, sat := false, neg := 0, abs := 0, cond := 0, src := .b32 }
def xl : XL := { h := hdr, kind := 0, mode := 0, imm := 0 }
def xm : XM := { h := hdr, space := 2, xsel := 0, scale := 0, scalarIndex := false, op := 0, rh := false, disp := 0 }
def xa : XA := { h := hdr, kind := 0, imm := 0 }
def xt : XT := { h := hdr, kind := 0, imm := 0 }
def shaped : Shaped :=
  { src1 := 0, src2 := 5, dim0 := 1, dim1 := 1, stride := 64, soff := 0x400, spitch := 0, esize := 2, sreg := 0, subst := 0
    goff := 0 }

/-- The placed group of log entry 14 issues: 16 lanes, 256 registers, address space with the pages below 2 MiB. -/
def here : State := { State.reset.place [] with agenda := [], cur := some (0, 0) }

/-- Its context changed. -/
def withCtx (f : Ctx → Ctx) : State := { here with ctxs := [(0, f placedCtx)] }

/-- Its split changed. -/
def withSplit (f : Split → Split) : State := withCtx fun c => { c with splits := c.splits.map fun e => (e.1, f e.2) }

/-- The issue of an instruction of a form by that split. -/
def issueOf (f : Form) (bytes : Nat) (s : State) : Issue :=
  let c := (s.ctxs.look 0).getD placedCtx
  let sp := (c.splits.look 0).getD ⟨0, 0, 0, [], .ready, 0, 0, [], 0, 0, false, 0, false⟩
  ⟨0, 0, c, sp, f.acting c sp, sp.pc + BitVec.ofNat 64 bytes⟩

/-- An operation in flight of that group. -/
def opOf (k : OpKind) : Op :=
  { ctx := 0, split := 0, graph := 0, core := 0, die := 0, lanes := 0xFFFF, regionNo := 0, born := 0, pc := 0x40000
    next := 0x4000C, fault := none, record := none, kind := k }

/-- That group with one operation in flight. -/
def busy (k : OpKind) : State := { here with ops := [(0, opOf k)], nextId := 2 }

/-- A pair of a state and an answer that is no cause. -/
def isOk {α : Type} (r : State × Except Trap α) : Bool :=
  match r.2 with
  | .ok _ => true
  | .error _ => false

theorem of_isOk {α : Type} {r : State × Except Trap α} (h : isOk r = true) : ∃ t a, r = (t, .ok a) := by
  obtain ⟨t, a⟩ := r
  cases a with
  | ok a => exact ⟨t, a, rfl⟩
  | error u => simp [isOk] at h

theorem of_isError {α : Type} {r : State × Except Trap α} (h : isOk r = false) : ∃ t u, r = (t, .error u) := by
  obtain ⟨t, a⟩ := r
  cases a with
  | ok a => simp [isOk] at h
  | error u => exact ⟨t, u, rfl⟩

/-- An instruction of a form reaches its own part in a state. -/
abbrev Met (f : Form) (bytes : Nat) (s : State) : Prop := Reaches f bytes [] s (issueOf f bytes s)

theorem met {f : Form} {bytes : Nat} {s : State} (h : reachesB f bytes [] s (issueOf f bytes s) = true) : Met f bytes s :=
  reaches_of h

/-- A header of a type, with these register fields. -/
def header (t : Ty) (d a b c : Nat) : Hdr :=
  { hdr with
    dst := BitVec.ofNat 8 d, src1 := BitVec.ofNat 8 a, src2 := BitVec.ofNat 8 b, src3 := BitVec.ofNat 8 c, ty := t }

/-- Forms that the encoding admits and whose instructions, as encoded, reach their own parts in a state. -/
def reached (fs : List (Form × Nat)) (s : State) : Bool :=
  fs.all fun e => e.1.ok && reachesB e.1 e.2 [] s (issueOf e.1 e.2 s)

theorem of_reached {fs : List (Form × Nat)} {s : State} (h : reached fs s = true) :
    ∀ e ∈ fs, e.1.ok = true ∧ Met e.1 e.2 s := by
  intro e he
  have := List.all_eq_true.1 h e he
  simp only [Bool.and_eq_true] at this
  exact ⟨this.1, met this.2⟩

def xcOf (t : Ty) (d a b c : Nat) : XC := { xc with h := header t d a b c }
def xvOf (t : Ty) (d a b c : Nat) : XV := { xv with h := header t d a b c }
def xlOf (t : Ty) (d a b c : Nat) : XL := { xl with h := header t d a b c }
def xtOf (d a b c imm : Nat) : XT := { xt with h := header .b32 d a b c, imm := BitVec.ofNat 29 imm }
def xaOf (t : Ty) (d a b c : Nat) : XA := { xa with h := header t d a b c }

/-- The split at another program counter. -/
def atPc (pc : DWord) : State := withSplit fun sp => { sp with pc := pc }
/-- The group whose s0 holds a value. -/
def withS0 (x : Word) : State := withCtx fun c => { c with sreg := [(0, x)] }

/-- The state with these cells in memory, behind those that it has. -/
def poke (s : State) (cells : List Host.Cell) : State := { s with mem := s.mem ++ cells }

/-! ## Encodings that are not instructions (R118): each check refuses a term that another instruction's rules would admit -/

theorem refused_register_numbers :
    [Instr.sadd { xc with h := { hdr with dst := 64 } }, .sadd { xc with h := { hdr with src1 := 3, ty := .n64 } },
      .add { xv with h := { hdr with dst := 255, ty := .b64 } }, .scmp { xc with h := { hdr with dst := 0 } },
      .cmp { xv with h := { hdr with dst := 8 } }, .kop { xc with h := { hdr with dst := 1, src1 := 8 } },
      .xbind { xc with h := { hdr with dst := 4 } }, .tzero { xt with h := { hdr with dst := 16 } },
      .mma { xt with h := { hdr with dst := 32 } }, .vtset { xt with h := { hdr with dst := 8 } },
      .brk { xc with h := { hdr with src2 := 2 } }, .rngc { xl with h := { hdr with dst := 6 } },
      .stB32XBase { base with src2 := 4 }].all (fun i => !i.wf) = true := by decide

theorem refused_unused_fields :
    [Instr.smov { xc with h := { hdr with src2 := 1 } }, .smov { xc with h := { hdr with src3 := 1 } }, .join { xc with imm := 1 },
      .exitLanes { xc with imm := 2 }, .mov { xv with kind := 0b010#3 }, .mov { xv with sat := true }, .add { xv with neg := 1 },
      .add { xv with cond := 1 }, .add { xv with src := .b64 }, .fclass { xv with h := { hdr with ty := .f32 }, neg := 0b010#3 },
      .matchLanes { xl with mode := 1 }, .voteAny { xl with mode := 1, imm := 1 }, .ld { xm with op := 1 },
      .red { xm with rh := true }, .bar { xa with imm := 1 }, .tzero { xt with kind := 1 }, .vlook { xt with imm := 8 },
      .movB32Base { base with src2 := 1 }].all (fun i => !i.wf) = true := by decide

theorem refused_types_and_rounding :
    [Instr.smulh { xc with h := hdr }, .sand { xc with h := { hdr with ty := .s32 } }, .nop { xc with h := { hdr with ty := .n32 } },
      .abs { xv with h := { hdr with ty := .n32 } }, .fdiv { xv with h := { hdr with ty := .f16 } },
      .redux { xl with h := { hdr with ty := .b32 }, mode := 1 }, .add { xv with h := { hdr with rnd := .rtz } },
      .fmin { xv with h := { hdr with ty := .f32, rnd := .rup } },
      .pack { xv with h := { hdr with ty := .f32 }, src := .f32 }, .add { xv with sat := true }].all (fun i => !i.wf) = true := by decide

theorem refused_guards_and_traps_on_empty :
    [Instr.add { xv with h := { hdr with guard := ⟨true, 0⟩ } }, .join { xc with h := { hdr with guard := ⟨false, 1⟩ } },
      .smov { xc with h := { hdr with empty := 0b010#3 } }, .kop { xc with h := { hdr with dst := 1, empty := 0b100#3 } },
      .ld { xm with h := { hdr with empty := 0b100#3 } },
      .mov { xv with h := { hdr with empty := 0b100#3, lit := some 0 } }].all (fun i => !i.wf) = true := by decide

theorem refused_literals :
    [Instr.add { xv with h := { hdr with lit := some 0x100000000 } }, .sel { xv with h := { hdr with lit := some 0 } },
      .add { xv with h := { hdr with src2 := 1, lit := some 0 } }, .add { xv with h := { hdr with lit := some 0 }, kind := 0b010#3 },
      .voteAny { xl with h := { hdr with dst := 1, lit := some 0 }, mode := 1 },
      .ldB32XBase { base with lit := some 0 }].all (fun i => !i.wf) = true := by decide

theorem refused_immediates :
    [Instr.scmp { xc with h := { hdr with dst := 1 }, imm := 2 }, .fcmp { xv with h := { hdr with dst := 1, ty := .f32 }, cond := 8 },
      .sbfx { xc with h := { hdr with ty := .s32 }, imm := 0x0010 }, .sbfx { xc with h := { hdr with ty := .s32 }, imm := 0x2001 },
      .rdsr { xc with imm := 0x12 }, .rdsr { xc with imm := 0 }, .wrsr { xc with imm := 7 }, .fire { xc with imm := 0x80000 },
      .emit { xc with imm := 0x180000 }, .rfePc { xc with imm := 3 }, .rngc { xl with mode := 2 }, .shflIdx { xl with mode := 1 },
      .gathRow { xa with imm := 0x10001001 }, .mmas { xt with imm := 8 <<< 19 }, .accld { xt with imm := 0x2100 },
      .acccvt { xt with imm := 0x8000 }].all (fun i => !i.wf) = true := by decide

theorem refused_memory_operands :
    [Instr.ld { xm with space := 6 }, .ld { xm with xsel := 1 }, .ld { xm with scale := 5 },
      .ld { xm with scale := 7, h := { hdr with src1 := 1 } }, .ld { xm with space := 5, scale := 1 }, .sld xm,
      .pf xm, .swait { xm with scalarIndex := true, op := 2 },
      .cbinvNode { xm with space := 0, scale := 7 }].all (fun i => !i.wf) = true := by decide

theorem refused_shape_blocks :
    [Instr.cpasGs { shaped with src1 := 1 }, .cpasGs { shaped with dim0 := 0 }, .cpasGs { shaped with dim1 := 0 },
      .cpasGs { shaped with esize := 4 }, .cpasGs { shaped with sreg := 1 }, .cpasGs { shaped with subst := 0b1000#4 },
      .cpasGs { shaped with subst := 0b0001#4, soff := 0x3FFFF, sreg := 61 }, .cpasSt { shaped with goff := 1 },
      .cpasAg { shaped with esize := 1 }].all (fun i => !i.wf) = true := by decide

/-- The terms that the refused ones above were made from are well formed. -/
theorem admitted :
    [Instr.sadd { xc with h := { hdr with dst := 63 } }, .add { xv with h := { hdr with dst := 254, ty := .b64 } },
      .smov xc, .mov xv, .ld xm, .bar xa, .tzero xt, .cpasGs shaped, .cpasSt shaped, .cpasAg shaped, .join xc, .nop xc,
      .add { xv with h := { hdr with lit := some 0xFFFFFFFF } }, .smulh { xc with h := { hdr with ty := .s32 } },
      .rngc { xl with h := { hdr with dst := 8, src1 := 4 } }, .stB32XBase { base with src2 := 3 },
      .shflIdx { xl with h := { hdr with lit := some 31 } }].all Instr.wf = true := by decide

/-! ## Decoding: the words of R94 to R116, field by field, written out from the tables -/

/-- Majors 0x01 to 0x22 in the order of R107, `DST` 6, `SRC1` 4 and `SRC2` 0. -/
theorem decode_base :
    (List.range 34).map (fun n => decodeWords [BitVec.ofNat 32 (0x01060400 + 0x1000000 * n)]) =
      ([.addB32Base, .subB32Base, .mulB32Base, .andB32Base, .orB32Base, .xorB32Base, .shlB32Base, .shrB32Base, .sraB32Base,
        .minS32Base, .maxS32Base, .faddF32Base, .fsubF32Base, .fmulF32Base, .fmaF32Base, .fminF32Base, .fmaxF32Base,
        .movB32Base, .addB32VsBase, .fmulF32VsBase, .fmaF32VsBase, .saddB32Base, .ssubB32Base, .smulB32Base, .sandB32Base,
        .sorB32Base, .sxorB32Base, .sshlB32Base, .sshrB32Base, .smovB32Base, .ldB32XBase, .stB32XBase, .ldB32ScBase,
        .stB32ScBase] : List (Base → Instr)).map fun i => .ok (i { base with dst := 6, src1 := 4 }) := by rfl

/-- Words 0, 1 and 2 of an extended instruction (R94 to R96): guard, `EMPTYTRAP` and `RND` 0. -/
def words (major subop ty d a b c imm : Nat) : List Word :=
  [BitVec.ofNat 32 (2 * 2 ^ 30 + major * 2 ^ 24 + d * 2 ^ 16 + a * 2 ^ 8 + b), BitVec.ofNat 32 (subop * 2 ^ 22 + ty * 2 ^ 11 + c),
    BitVec.ofNat 32 imm]

/-- The rows of R109: `SUBOP`, `TYPE`, the register fields and the immediate. -/
def rowsXC : List (Nat × (Nat × Ty) × (Nat × Nat × Nat × Nat) × Nat × (XC → Instr)) :=
  [(0x000, (0, .b32), (6, 4, 2, 0), 0, .sadd), (0x001, (1, .b64), (6, 4, 2, 0), 0, .ssub), (0x002, (2, .s32), (6, 4, 2, 0), 0, .smul),
   (0x003, (3, .n32), (6, 4, 2, 0), 0, .smulh), (0x004, (4, .s64), (6, 4, 2, 8), 0, .smad), (0x005, (5, .n64), (6, 4, 2, 0), 0, .sdiv),
   (0x006, (2, .s32), (6, 4, 2, 0), 0, .srem), (0x007, (2, .s32), (6, 4, 2, 0), 0, .smin), (0x008, (3, .n32), (6, 4, 2, 0), 0, .smax),
   (0x009, (0, .b32), (6, 4, 2, 0), 0, .sand), (0x00A, (0, .b32), (6, 4, 2, 0), 0, .sor), (0x00B, (0, .b32), (6, 4, 2, 0), 0, .sxor),
   (0x00C, (1, .b64), (6, 4, 2, 0), 0, .sshl), (0x00D, (0, .b32), (6, 4, 2, 0), 0, .sshr), (0x00E, (0, .b32), (6, 4, 2, 0), 0, .ssra),
   (0x00F, (2, .s32), (6, 4, 0, 0), 0x0804, .sbfx), (0x010, (0, .b32), (6, 4, 0, 0), 0x1F01, .sbfi),
   (0x011, (0, .b32), (6, 4, 0, 0), 0, .spopc), (0x012, (0, .b32), (6, 4, 0, 0), 0, .sclz), (0x013, (0, .b32), (6, 4, 0, 0), 0, .sctz),
   (0x014, (2, .s32), (7, 4, 2, 0), 5, .scmp), (0x015, (0, .b32), (6, 4, 2, 0), 3, .ssel), (0x016, (1, .b64), (6, 4, 0, 0), 0, .smov),
   (0x017, (0, .b32), (6, 0, 0, 0), 0xFFFFFFFF, .sli), (0x018, (0, .b32), (3, 1, 2, 0), 8, .kop), (0x019, (0, .b32), (0, 0, 0, 0), 0xFFFFFFFC, .bra),
   (0x01A, (0, .b32), (0, 9, 1, 0), 4, .brk), (0x01B, (0, .b32), (0, 0, 0, 0), 4, .brv), (0x01C, (0, .b32), (0, 8, 0, 0), 0, .jmp),
   (0x01D, (0, .b32), (8, 0, 0, 0), 4, .call), (0x01E, (0, .b32), (0, 8, 0, 0), 0, .ret), (0x01F, (0, .b32), (7, 0, 0, 0), 4, .loop),
   (0x020, (0, .b32), (0, 0, 0, 0), 0, .join), (0x021, (0, .b32), (0, 0, 0, 0), 1, .exitLanes), (0x022, (0, .b32), (0, 0, 0, 0), 0, .nop),
   (0x023, (0, .b32), (0, 0, 0, 0), 0, .yieldSplit), (0x024, (0, .b32), (8, 0, 1, 0), 0x0E, .rdsr), (0x025, (0, .b32), (0, 9, 0, 0), 0x0A, .wrsr),
   (0x026, (0, .b32), (0, 0, 0, 0), 0, .region), (0x027, (0, .b32), (9, 0, 0, 0), 0x80000000, .fnew), (0x027, (0, .b32), (9, 0, 0, 0), 1, .fnewP),
   (0x028, (0, .b32), (0, 9, 0, 0), 0, .fdone), (0x029, (0, .b32), (9, 10, 0, 0), 0, .fawait), (0x02A, (0, .b32), (9, 10, 0, 0), 0, .fpoll),
   (0x02B, (0, .b32), (7, 9, 16, 0), 0xC0150123, .spawn), (0x02C, (0, .b32), (0, 0, 16, 0), 0x00260001, .emit),
   (0x02D, (0, .b32), (0, 0, 16, 0), 0x00200001, .fire), (0x02E, (0, .b32), (0, 9, 16, 0), 0x00070001, .reord),
   (0x02F, (0, .b32), (0, 9, 16, 0), 0x00280001, .pqpush), (0x030, (0, .b32), (16, 0, 0, 0), 0x80000000, .pqpop),
   (0x031, (0, .b32), (0, 0, 0, 0), 0xFFFF, .trap), (0x032, (0, .b32), (0, 0, 0, 0), 0, .rfePc), (0x032, (0, .b32), (0, 0, 0, 0), 1, .rfeNext),
   (0x032, (0, .b32), (0, 0, 0, 0), 2, .rfeRegion), (0x033, (0, .b32), (3, 8, 0, 0), 0, .xbind)]

theorem decode_XC :
    rowsXC.map (fun (n, (t, _), (d, a, b, c), imm, _) => decodeWords (words 0x38 n t d a b c imm)) =
      rowsXC.map fun (_, (_, t), (d, a, b, c), imm, i) => .ok (i { h := header t d a b c, imm := BitVec.ofNat 32 imm }) := by rfl

/-- The rows of R110: word 2 holds `KIND` in [31:29], `SAT` in [28], `NEG` in [27:25], `ABS` in [24:22], `COND` in [21:18] and
`FROM` in [17:14]. -/
def rowsXV : List (Nat × (Nat × Ty) × (Nat × Nat × Nat × Nat) × Nat × (XV → Instr)) :=
  [(0x000, (0, .b32), (6, 4, 2, 0), 0, .add), (0x001, (1, .b64), (6, 4, 2, 0), 0, .sub), (0x002, (2, .s32), (6, 4, 2, 0), 0, .mul),
   (0x003, (3, .n32), (6, 4, 2, 0), 0, .mulh), (0x004, (4, .s64), (6, 4, 2, 8), 0, .mad), (0x005, (5, .n64), (6, 4, 2, 0), 0, .min),
   (0x006, (2, .s32), (6, 4, 2, 0), 0, .max), (0x007, (2, .s32), (6, 4, 0, 0), 0, .abs), (0x008, (0, .b32), (6, 4, 2, 0), 0, .and),
   (0x009, (0, .b32), (6, 4, 2, 0), 0, .or), (0x00A, (0, .b32), (6, 4, 2, 0), 0, .xor), (0x00B, (0, .b32), (6, 4, 2, 0), 0, .shl),
   (0x00C, (0, .b32), (6, 4, 2, 0), 0, .shr), (0x00D, (0, .b32), (6, 4, 2, 0), 0, .sra), (0x00E, (2, .s32), (6, 4, 2, 3), 0, .bfx),
   (0x00F, (0, .b32), (6, 4, 2, 3), 0, .bfi), (0x010, (0, .b32), (6, 4, 0, 0), 0, .popc), (0x011, (0, .b32), (6, 4, 0, 0), 0, .clz),
   (0x012, (0, .b32), (6, 4, 0, 0), 0, .brev), (0x013, (0, .b32), (6, 4, 2, 0), 0, .cmp), (0x014, (0, .b32), (6, 4, 2, 5), 0, .sel),
   (0x015, (1, .b64), (6, 4, 0, 0), 0, .mov), (0x016, (6, .f32), (6, 4, 2, 0), 0, .fadd), (0x017, (7, .f64), (6, 4, 2, 0), 0, .fsub),
   (0x018, (8, .f16), (6, 4, 2, 0), 0, .fmul), (0x019, (9, .bf16), (6, 4, 2, 8), 0, .fma), (0x01A, (6, .f32), (6, 4, 2, 0), 0, .fmin),
   (0x01B, (6, .f32), (6, 4, 2, 0), 0, .fmax), (0x01C, (6, .f32), (6, 4, 2, 0), 0, .fcmp), (0x01D, (6, .f32), (6, 4, 0, 0), 0, .fclass),
   (0x01E, (6, .f32), (6, 4, 2, 0), 0, .fdiv), (0x01F, (7, .f64), (6, 4, 0, 0), 0, .fsqrt), (0x020, (6, .f32), (6, 4, 0, 0), 0, .frcp),
   (0x021, (6, .f32), (6, 4, 0, 0), 0, .frsq), (0x022, (6, .f32), (6, 4, 0, 0), 0, .fex2), (0x023, (8, .f16), (6, 4, 0, 0), 0, .flg2),
   (0x024, (9, .bf16), (6, 4, 0, 0), 0, .fsin), (0x025, (6, .f32), (6, 4, 0, 0), 0, .fcos), (0x026, (6, .f32), (6, 4, 0, 0), 0, .ftanh),
   (0x027, (6, .f32), (6, 4, 0, 0), 0, .frint), (0x028, (6, .f32), (6, 4, 2, 0), 0, .fscal), (0x029, (10, .e4m3), (6, 4, 0, 0), 0, .cvt),
   (0x02A, (11, .e5m2), (6, 4, 2, 0), 0, .pack), (0x02B, (3, .n32), (6, 4, 2, 0), 13 * 2 ^ 14, .unpack)]

theorem decode_XV :
    rowsXV.map (fun (n, (t, _), (d, a, b, c), w, _) => decodeWords (words 0x39 n t d a b c w)) =
      rowsXV.map fun (_, (_, t), (d, a, b, c), w, i) =>
        .ok (i { h := header t d a b c, kind := 0, sat := false, neg := 0, abs := 0, cond := 0, src := if w = 0 then .b32 else .n8 }) := by
  rfl

/-- Word 2 of an XL, XA or XT instruction of `KIND` 0 (R103): `MODE` in [28:25] of XL. -/
def rowsXL : List (Nat × (Nat × Ty) × (Nat × Nat × Nat × Nat) × (Nat × Nat × Nat) × (XL → Instr)) :=
  [(0x000, (0, .b32), (6, 4, 2, 0), (0, 0, 0), .shflIdx), (0x000, (1, .b64), (6, 4, 2, 0), (2, 1, 0), .shflUp),
   (0x000, (0, .b32), (6, 4, 2, 0), (0, 2, 0), .shflDown), (0x000, (0, .b32), (6, 4, 2, 0), (0, 3, 0), .shflXor),
   (0x001, (0, .b32), (6, 4, 0, 0), (0, 0, 0), .voteBallot), (0x001, (0, .b32), (6, 4, 0, 0), (0, 1, 0), .voteAny),
   (0x001, (0, .b32), (6, 4, 0, 0), (0, 2, 0), .voteAll), (0x001, (0, .b32), (6, 4, 0, 0), (0, 3, 0), .voteUni),
   (0x002, (1, .b64), (6, 4, 0, 0), (0, 0, 3), .matchLanes), (0x003, (6, .f32), (6, 4, 0, 0), (0, 2, 1), .redux),
   (0x004, (2, .s32), (6, 4, 0, 0), (0, 9, 0), .scan), (0x005, (0, .b32), (8, 4, 2, 0), (6, 3, 0), .rngc),
   (0x006, (6, .f32), (6, 4, 2, 0), (0, 2, 16), .vtopk), (0x007, (6, .f32), (6, 4, 2, 0), (0, 0, 0), .vsoftmax),
   (0x008, (6, .f32), (6, 4, 2, 0), (0, 1, 0), .vsample)]

theorem decode_XL :
    rowsXL.map (fun (n, (t, _), (d, a, b, c), (k, m, x), _) =>
        decodeWords (words 0x3A n t d a b c (k * 2 ^ 29 + m * 2 ^ 25 + x))) =
      rowsXL.map fun (_, (_, t), (d, a, b, c), (k, m, x), i) =>
        .ok (i { h := header t d a b c, kind := BitVec.ofNat 3 k, mode := BitVec.ofNat 4 m, imm := BitVec.ofNat 25 x }) := by rfl

/-- The memory operand of R104: `SPACE`, `XSEL`, `SCALE`, `IKIND`, `OP` and `DISP`. -/
def rowsXM : List (Nat × (Nat × Ty) × (Nat × Nat × Nat × Nat) × (Nat × Nat × Nat × Nat × Nat × Nat) × (XM → Instr)) :=
  [(0x000, (12, .s8), (6, 4, 0, 0), (0, 3, 4, 0, 0, 0x7FFFF), .ld), (0x001, (15, .n16), (6, 4, 2, 0), (1, 0, 1, 1, 0, 16), .st),
   (0x002, (7, .f64), (6, 4, 0, 0), (2, 0, 3, 1, 0, 8), .sld), (0x003, (1, .b64), (6, 0, 9, 0), (3, 0, 7, 0, 0, 8), .sst),
   (0x004, (5, .n64), (6, 4, 0, 8), (5, 0, 0, 0, 0, 8), .aadd), (0x005, (2, .s32), (6, 4, 0, 8), (2, 0, 2, 0, 0, 0), .amin),
   (0x006, (3, .n32), (6, 4, 0, 8), (4, 0, 2, 0, 0, 0), .amax), (0x007, (0, .b32), (6, 4, 0, 8), (2, 0, 0, 0, 0, 0), .aand),
   (0x008, (0, .b32), (6, 4, 0, 8), (2, 0, 0, 0, 0, 0), .aor), (0x009, (0, .b32), (6, 4, 0, 8), (2, 0, 0, 0, 0, 0), .axor),
   (0x00A, (1, .b64), (6, 4, 0, 8), (2, 0, 0, 0, 0, 0), .aswap), (0x00B, (1, .b64), (6, 4, 0, 8), (2, 0, 0, 0, 0, 0), .acas),
   (0x00C, (3, .n32), (6, 4, 0, 8), (2, 0, 0, 0, 0, 0), .ainc), (0x00D, (6, .f32), (6, 4, 0, 8), (2, 0, 0, 0, 0, 0), .afadd),
   (0x00E, (0, .b32), (0, 4, 0, 8), (2, 0, 0, 0, 5, 0), .red), (0x00F, (3, .n32), (0, 4, 0, 8), (2, 0, 0, 1, 5, 0), .swait),
   (0x010, (0, .b32), (0, 4, 2, 0), (1, 0, 0, 0, 0, 0), .pf), (0x011, (0, .b32), (6, 4, 0, 0), (0, 0, 0, 0, 0, 0), .rhnew),
   (0x012, (0, .b32), (0, 4, 5, 0), (0, 0, 0, 0, 0, 0), .rhset), (0x013, (0, .b32), (0, 4, 0, 0), (0, 0, 0, 0, 0, 0), .rhdrop),
   (0x014, (0, .b32), (0, 0, 4, 0), (1, 0, 7, 0, 0, 0), .cbinvNode), (0x014, (0, .b32), (1, 0, 4, 0), (1, 0, 7, 0, 0, 0), .cbinvArm),
   (0x014, (0, .b32), (2, 0, 4, 0), (1, 0, 7, 0, 0, 0), .cbinvTree), (0x014, (0, .b32), (3, 0, 4, 0), (1, 0, 7, 0, 0, 0), .cbinvAll),
   (0x014, (0, .b32), (4, 0, 4, 6), (1, 0, 7, 0, 0, 0), .cbinvTr)]

theorem decode_XM :
    rowsXM.map (fun (n, (t, _), (d, a, b, c), (sp, x, sc, k, op, dp), _) => decodeWords (words 0x3B n t d a b c
        (sp * 2 ^ 29 + x * 2 ^ 27 + sc * 2 ^ 24 + k * 2 ^ 23 + op * 2 ^ 20 + dp))) =
      rowsXM.map fun (_, (_, t), (d, a, b, c), (sp, x, sc, k, op, dp), i) => .ok (i
        { h := header t d a b c, space := BitVec.ofNat 3 sp, xsel := BitVec.ofNat 2 x, scale := BitVec.ofNat 3 sc
          scalarIndex := k == 1, op := BitVec.ofNat 3 op, rh := false, disp := BitVec.ofNat 19 dp }) := by rfl

/-- The rows of R113; `cpa` has `DIR` in `IMM[28:26]` (R200). -/
def rowsXA : List (Nat × (Nat × Ty) × (Nat × Nat × Nat × Nat) × Nat × (XA → Instr)) :=
  [(0x000, (0, .b32), (6, 4, 2, 8), 0 * 2 ^ 26, .cpaGs), (0x000, (0, .b32), (6, 4, 2, 8), 1 * 2 ^ 26, .cpaSg),
   (0x000, (0, .b32), (6, 4, 2, 8), 2 * 2 ^ 26, .cpaGg), (0x000, (0, .b32), (6, 4, 2, 8), 3 * 2 ^ 26, .cpaSs),
   (0x000, (0, .b32), (6, 4, 2, 8), 4 * 2 ^ 26, .cpaSw), (0x000, (0, .b32), (6, 4, 2, 8), 5 * 2 ^ 26, .cpaWs),
   (0x001, (0, .b32), (0, 0, 0, 0), 0, .bar), (0x002, (0, .b32), (0, 4, 2, 0), 0, .tbinit), (0x003, (0, .b32), (0, 4, 2, 0), 0, .tbarrive),
   (0x004, (0, .b32), (0, 4, 0, 0), 0, .tbwait), (0x005, (0, .b32), (6, 4, 0, 0), 0, .tbpoll), (0x006, (1, .b64), (6, 4, 2, 0), 0, .gath),
   (0x006, (0, .b32), (6, 4, 2, 8), 2 ^ 28 + 4096, .gathRow), (0x007, (6, .f32), (0, 4, 2, 8), 0, .scatadd)]

theorem decode_XA :
    rowsXA.map (fun (n, (t, _), (d, a, b, c), x, _) => decodeWords (words 0x3C n t d a b c x)) =
      rowsXA.map fun (_, (_, t), (d, a, b, c), x, i) =>
        .ok (i { h := header t d a b c, kind := 0, imm := BitVec.ofNat 29 x }) := by rfl

/-- The rows of R114, R242 and R278. -/
def rowsXT : List (Nat × (Nat × Nat × Nat × Nat) × Nat × (XT → Instr)) :=
  [(0x000, (6, 4, 0, 0), 0, .tset), (0x001, (6, 4, 0, 0), 0, .tget), (0x002, (6, 4, 0, 0), 0, .tcb), (0x003, (6, 4, 2, 0), 0, .tld),
   (0x004, (6, 4, 2, 0), 0, .tst), (0x005, (15, 0, 0, 0), 0, .tzero), (0x006, (0, 4, 0, 0), 0, .gang), (0x007, (31, 4, 2, 0), 0x1FFFFFF0, .mma),
   (0x008, (6, 4, 2, 8), 0x3F0, .mmaBs), (0x009, (6, 4, 2, 8), 0x3F0, .mmaVs), (0x00A, (6, 4, 2, 8), 0x019A0000, .mmas),
   (0x00B, (6, 0, 0, 0), 0, .mbatch), (0x00C, (0, 4, 0, 0), 0, .mwait), (0x00D, (6, 4, 0, 0), 0x3E00, .accld),
   (0x00E, (0, 4, 2, 0), 0x1F00, .accst), (0x00F, (6, 4, 0, 0), 0xCDF00, .acccvt), (0x010, (0, 4, 0, 0), 0, .acczero),
   (0x011, (7, 4, 0, 0), 0, .vtset), (0x012, (6, 4, 0, 0), 0x75, .vlook), (0x013, (6, 4, 0, 0), 0x275, .vstencil),
   (0x014, (6, 4, 0, 0), 0x005, .vsampTri), (0x014, (6, 4, 0, 0), 0x105, .vsampNear), (0x015, (16, 4, 0, 0), 7, .vmarch),
   (0x016, (6, 4, 0, 0), 7, .vins), (0x017, (0, 4, 0, 0), 0x075, .vactSet), (0x017, (0, 4, 0, 0), 0x175, .vactClr),
   (0x017, (0, 4, 0, 0), 0x275, .vactTrim), (0x018, (6, 4, 2, 8), 0x150123, .dtrav), (0x019, (0, 6, 4, 2), 7, .halo),
   (0x019, (0, 0, 0, 2), 8, .haloPostOnly), (0x01A, (0, 4, 5, 0), 0, .stepb)]

theorem decode_XT :
    rowsXT.map (fun (n, (d, a, b, c), x, _) => decodeWords (words 0x3D n 0 d a b c x)) =
      rowsXT.map fun (_, (d, a, b, c), x, i) => .ok (i { h := header .b32 d a b c, kind := 0, imm := BitVec.ofNat 29 x }) := by rfl

/-- `SHOP` 1 to 5 (R115), with the shape block of R116 written out: 64 by 3 elements of 4 bytes, `STRIDE` −256, `SOFF` 0x1000,
`SPITCH` 512, and `GOFF` −16 where it may stand. -/
theorem decode_shaped :
    let d (goff : BitVec 18) : Shaped :=
      { src1 := 4, src2 := 5, dim0 := 64, dim1 := 3, stride := 0xFFFFFF00, soff := 0x1000, spitch := 512, esize := 2, sreg := 0
        subst := 0, goff := goff }
    decodeWords [0xFE010405#32, 0x00400003#32, 0xFFFFFF00#32, 0x04000200#32, 0x4003FFF0#32] = .ok (.cpasGs (d 0x3FFF0))
    ∧ decodeWords [0xFE020405#32, 0x00400003#32, 0xFFFFFF00#32, 0x04000200#32, 0x4003FFF0#32] = .ok (.cpasSg (d 0x3FFF0))
    ∧ decodeWords [0xFE030405#32, 0x00400003#32, 0xFFFFFF00#32, 0x04000200#32, 0x4003FFF0#32] = .ok (.cpasGt (d 0x3FFF0))
    ∧ decodeWords [0xFE040405#32, 0x00400003#32, 0xFFFFFF00#32, 0x04000200#32, 0x40000000#32] = .ok (.cpasSt (d 0))
    ∧ decodeWords [0xFE050405#32, 0x00400003#32, 0xFFFFFF00#32, 0x04000200#32, 0x4003FFF0#32] = .ok (.cpasAg (d 0x3FFF0)) :=
  ⟨rfl, rfl, rfl, rfl, rfl⟩

/-- Guard !k2, `EMPTYTRAP` on `SRC1` and `SRC3`, `RND` rna, `SAT`, `NEG` and `ABS`, the kind bits and a literal, bit by bit. -/
theorem decode_modifiers :
    decodeWords [0b10_111000_00000110_00000100_00000010#32, 0b0000000100_1010_101_0100_000_00001000#32, 0#32] = .ok (.smad
      { h := { header .s64 6 4 2 8 with guard := ⟨true, 2⟩, empty := 0b101#3 }, imm := 0 })
    ∧ decodeWords [0b10_111001_00000110_00000100_00000010#32, 0b0000011001_0011_010_0110_100_00001000#32,
        0b100_0_010_101_0000_0000_00000000000000#32] = .ok (.fma
      { h := { header .f32 6 4 2 8 with guard := ⟨false, 3⟩, empty := 0b010#3, rnd := .rna }, kind := 0b100#3, sat := false
        neg := 0b010#3, abs := 0b101#3, cond := 0, src := .b32 })
    ∧ decodeWords [0b11_111001_00000110_00000000_00000000#32, 0b0000101001_0000_000_1000_111_00000000#32,
        0b000_1_000_000_0000_0111_00000000000000#32, 0x54442D18#32, 0x400921FB#32] = .ok (.cvt
      { h := { header .f16 6 0 0 0 with rnd := .dyn, lit := some 0x400921FB54442D18 }, kind := 0, sat := true, neg := 0, abs := 0
        cond := 0, src := .f64 })
    ∧ decodeWords [0b10_111001_00000110_00000100_00000010#32, 0b0000010011_0000_000_0010_000_00000000#32,
        0b010_0_000_000_0101_0000_00000000000000#32] = .ok (.cmp
      { h := header .s32 6 4 2 0, kind := 0b010#3, sat := false, neg := 0, abs := 0, cond := 5, src := .b32 })
    ∧ decodeWords [0b10_111011_00000110_00000100_00000010#32, 0b0000000000_0000_000_0000_000_00001001#32,
        0b001_00_010_1_000_1_1000000000000000000#32] = .ok (.ld
      { h := header .b32 6 4 2 9, space := 1, xsel := 0, scale := 2, scalarIndex := true, op := 0, rh := true, disp := 0x40000 }) :=
  ⟨rfl, rfl, rfl, rfl, rfl⟩

/-- Patterns of R118 that no constructor stands for: reserved majors, `LEN`s that a major does not allow, unassigned codes,
`RND` 101, and reserved bits of word 2 and of the shape block; `SCALE` 101 and 110, and `SRC2` other than 0 beside a literal. -/
theorem decode_refused :
    [[0x00000000#32], [0x23000000#32], [0xBF000000#32, 0, 0], [0x5F000000#32, 0, 0], [0x80000000#32, 0, 0], [0x38000000#32],
      [0x7E000000#32, 0, 0], [0xB8000000#32, 0x0D000000#32, 0], [0xB9000000#32, 0x00000500#32, 0], [0xB9000000#32, 0, 1],
      [0xFE060000#32, 0x00010001#32, 0, 0, 0], [0xFE010000#32, 0x00010001#32, 0, 0, 0x10000000#32],
      [0xB8000000#32, 0], [0xBB050100#32, 0, 0x0D000010#32], [0xBB050100#32, 0, 0x0E000010#32], [0x4F040103#32, 0x10#32, 0]].map
      (fun ws => (decodeWords ws).isOk) = List.replicate 16 false := by rfl

/-! ## Witnesses: for each statement with hypotheses, states and operands that meet them together -/

/-- ScalarIntegerArithmetic: every shape of a scalar instruction, with pairs too. -/
theorem witness_ScalarIntegerArithmetic :
    ∀ e ∈ [(formS2 (xcOf .n64 62 4 2 0) true, 12), (formS3 (xcOf .s32 6 4 2 8), 12), (formS1 (xcOf .b64 6 4 0 0), 12),
        (formSField { xcOf .s32 6 4 0 0 with imm := 0x2000 } true .write, 12), (formSli (xcOf .b32 6 0 0 0), 12),
        (formScmp { xcOf .n32 7 4 2 0 with imm := 5 }, 12), (formS2 { base with dst := 63 }.xc true, 4), (formS1 base.xc, 4)],
      e.1.ok = true ∧ Met e.1 e.2 here := of_reached (by decide)

theorem witness_FieldsAndSelections :
    ∀ e ∈ [(formSField { xcOf .b32 6 4 0 0 with imm := 0x0118 } true .readWrite, 12), (formSsel { xcOf .b32 6 4 2 0 with imm := 7 }, 12),
        (formKop { xcOf .b32 7 6 5 0 with imm := 15 }, 12), (formVField (xvOf .b64 6 4 2 3) true .readWrite, 12),
        (formSel (xvOf .b32 6 4 2 7), 12), (formV1 (xvOf .f32 255 4 0 0) true srcs1 false, 12)],
      e.1.ok = true ∧ Met e.1 e.2 here := of_reached (by decide)

theorem witness_VectorIntegerArithmetic :
    ∀ e ∈ [(formV2 (xvOf .s64 254 4 2 0) true true 0 false, 12), (formV3 (xvOf .s32 6 4 2 8) true true 0 false, 12),
        (formV1 (xvOf .s32 6 4 0 0) true 0 false, 12), (formVField (xvOf .s32 6 4 2 3) true .write, 12),
        (formVCmp { xvOf .n64 7 4 2 0 with cond := 5 } true 0 6, 12), (formBase2 base .b32 false, 4), (formBase2 base .b32 true, 4),
        (formV1 (base.xv .b32 false) true 0 false, 4)],
      e.1.ok = true ∧ Met e.1 e.2 here := of_reached (by decide)

/-- The flags that a list of results raises, where no flag is enabled. -/
theorem none_enabled : ∀ fl : Flags, enabledFlags placedCtx.special.fpctl fl = 0 := by decide

theorem witness_FloatResults :
    (∀ e ∈ [(formV2 (xvOf .f32 6 4 2 0) true false srcs2 true, 12), (formV3 (xvOf .f64 6 4 2 8) true false srcs3 true, 12),
        (formV1 (xvOf .f16 6 4 0 0) true srcs1 false, 12), (formFscal (xvOf .f32 6 4 2 0), 12),
        (formVCmp { xvOf .f32 7 4 2 0 with cond := 7 } true srcs2 8, 12), (formCvt { xvOf .e4m3 6 4 0 0 with src := .f32 }, 12),
        (formPack { xvOf .e4m3 6 4 2 0 with src := .f32 }, 12), (formUnpack { xvOf .f32 6 4 2 0 with src := .f16 }, 12),
        (formBase2 base .f32 true, 4), (formBaseFma { base with dst := 4 } false, 4), (formBaseFma base true, 4)],
      e.1.ok = true ∧ Met e.1 e.2 here)
    ∧ ∀ (is : Issue) (v : Nat → Nat × Flags), is.c = placedCtx → enabledFlags is.c.special.fpctl (raised (results is v)) = 0 :=
  ⟨of_reached (by decide), fun is v h => by rw [h]; exact none_enabled _⟩

/-- A group that enables every flag, and a signalling NaN as the literal. -/
def trapping : State := withCtx fun c => { c with special := { c.special with fpctl := 0x1F0 } }
def signalling (t : Ty) : XV := { xv with h := { header t 6 4 0 0 with lit := some 0x7F800001 } }
def flagsOf (form : Form) (value : Ctx → Nat → Nat × Flags) : Word :=
  let is := issueOf form 20 trapping
  (enabledFlags is.c.special.fpctl (raised (results is (value is.c)))).setWidth 32

theorem witness_FloatTrapsWriteNothing :
    (∀ e ∈ [(formV2 (signalling .f32) true false srcs2 true, 20),
        (formCvt { signalling .f64 with h := { header .f64 6 0 0 0 with lit := some 0x7F800001 }, src := .f32 }, 20)],
      e.1.ok = true ∧ Met e.1 e.2 trapping)
    ∧ (let f := signalling .f32
       let two := formV2 f true false srcs2 true
       flagsOf two (fun c l => f.h.ty.fmt.add (f.env c) (f.fp two c 1 l) (f.fp two c 2 l)) ≠ 0
       ∧ flagsOf two (fun c l => f.h.ty.fmt.div (f.env c) (f.fp two c 1 l) (f.fp two c 2 l)) ≠ 0) :=
  ⟨of_reached (by decide), by decide⟩

theorem witness_LanesCommunicate :
    ∀ e ∈ [(formShfl (xlOf .b32 6 4 2 0) 0, 12), (formShfl { xlOf .b64 6 4 2 0 with mode := 3 } 3, 12),
        (formVote (xlOf .b32 6 7 0 0) 0, 12), (formVote { xlOf .b32 7 0 0 0 with mode := 3 } 3, 12),
        (formMatch { xlOf .b64 6 4 0 0 with imm := 7 }, 12), (formRngc { xlOf .b32 8 4 2 0 with mode := 3, kind := 6 }, 12),
        (formRngc (xlOf .b32 252 4 2 0), 12), (formRedux { xlOf .f64 6 4 0 0 with mode := 2, imm := 1 }, 12),
        (formScan { xlOf .s32 6 4 0 0 with mode := 8 }, 12)],
      e.1.ok = true ∧ Met e.1 e.2 here := of_reached (by decide)

def jumpForm : Form := { (Form.base (header .b32 0 8 0 0)).withSrc1 .q with word2 := true }

theorem witness_BranchesReachTheirTargets :
    (∀ e ∈ [(formBare xc .k true, 12), (formBrk xc, 12), (formBrk (xcOf .b32 0 0 1 0), 12), (jumpForm, 12),
        ((Form.base (header .b32 0 0 0 0)).withDst .s1 .readWrite, 12), ((Form.base (header .b32 8 0 0 0)).withDst .d, 12)],
      e.1.ok = true ∧ Met e.1 e.2 here)
    ∧ Met ((Form.base (header .b32 0 0 0 0)).withDst .s1 .readWrite) 12 (withS0 1) ∧ Met (formBare xc .k true) 12 (atPc 0x40001)
    ∧ (branchTarget (issueOf (formBare xc .k true) 12 here) 0xFFFFFFFF).toNat = 0x3FFFC
    ∧ (branchTarget (issueOf (formBare xc .k true) 12 (atPc 0x40001)) 0).toNat % 4 ≠ 0
    ∧ (jumpForm.arg placedCtx 1 0).toNat % 4 = 0
    ∧ (placedCtx.s 0 ≠ 0 ↔ (0 : BitVec 8) = 1) ∧ ¬ (placedCtx.s 0 ≠ 0 ↔ (1 : BitVec 8) = 1)
    ∧ placedCtx.s 0 - 1 ≠ 0 ∧ (issueOf (formBrk xc) 12 (withS0 1)).c.s 0 - 1 = 0 :=
  ⟨of_reached (by decide), met (by decide), met (by decide), by decide⟩

/-- The split with 32 entries on its stack and a predicate that half of its lanes hold. -/
def deep : State := withCtx fun c =>
  { c with
    p := [(1, 0xFF)]
    splits := c.splits.map fun e => (e.1, { e.2 with stack := List.replicate 32 ⟨0, 0, 0xFFFF, .unset⟩ }) }
def halfGuard : XC := { xc with h := { hdr with guard := ⟨false, 1⟩ } }
def retForm : Form := { (Form.base (header .b32 0 8 0 0)).withSrc1 .d with word2 := true }

theorem witness_SplitsDivergeAndJoin :
    (∀ e ∈ [(formBare xc .p true, 12), (retForm, 12), (formBare xc .none true, 12), (formBare xc .k true, 12)],
      e.1.ok = true ∧ Met e.1 e.2 here)
    ∧ Met (formBare halfGuard .p true) 12 deep ∧ placedCtx.inHandler 0 = false
    ∧ (placedCtx.diverge 0 0xFFFF 0x40010 0x4000C).isSome = true ∧ (placedCtx.diverge 0 0xFFFF 0 0x40000).isSome = true
    ∧ (issueOf (formBare halfGuard .p true) 12 deep).c.diverge 0 0xFF 0x40010 0x4000C = none
    ∧ (retForm.arg placedCtx 1 0).toNat % 4 = 0 :=
  ⟨of_reached (by decide), met (by decide), by decide⟩

theorem witness_SpecialRegisters :
    (∀ e ∈ [(formRdsr { xcOf .b32 8 0 1 0 with imm := 0x0E }, 12), (formRdsr { xcOf .b32 63 0 0 0 with imm := 0x11 }, 12),
        (formWrsr { xcOf .b32 0 9 0 0 with imm := 0x0A }, 12), (formWrsr { xcOf .b32 0 8 0 0 with imm := 0x1F }, 12),
        ({ ((Form.base (header .b32 3 8 0 0)).withDst .x .none).withSrc1 .q with word2 := true }, 12)],
      e.1.ok = true ∧ Met e.1 e.2 here)
    ∧ ∃ t r, here.bindRun 0 0 (here.asroot 0) 0x40000 = (t, .ok r) :=
  ⟨of_reached (by decide), of_isOk (by decide)⟩

/-- A handler that split 0 runs. -/
def plainHandler : Handler :=
  { split := 0, savedPc := 0x40000, cause := 1, saved := [], supervisor := false, record := none, engine := none, wait := .ready
    mark := 2 }
def inside : State := withCtx fun c => { c with handler := some plainHandler }

theorem witness_TrapsAndReturns :
    (∀ e ∈ [(formBare { xc with imm := 0xFFFF } .k true, 12), (formBare xc .k true, 12)], e.1.ok = true ∧ Met e.1 e.2 here)
    ∧ placedCtx.inHandler 0 = false ∧ Met (formBare { xc with imm := 2 } .k true) 12 inside
    ∧ (inside.ctxs.look 0).map (fun c => c.inHandler 0) = some true
    ∧ ∃ t w, inside.fetchWord 0 placedCtx plainHandler.savedPc = (t, .ok w) :=
  ⟨of_reached (by decide), by decide, met (by decide), by decide, of_isOk (by decide)⟩

def theSplit : Split := (placedCtx.splits.look 0).getD ⟨0, 0, 0, [], .ready, 0, 0, [], 0, 0, false, 0, false⟩
def unmapped : Split := { theSplit with pc := 0x10000000000 }

theorem witness_WhatComesBeforeAnInstruction :
    here.issuer = some (0, 0, placedCtx, theSplit) ∧ (∃ t u, here.fetch 0 placedCtx unmapped = (t, .error u))
    ∧ (atPc 0x10000000000).issuer.map (fun e => e.2.2.2) = some unmapped
    ∧ (here.modGraph 0 fun g => { g with ending := true }).ending placedCtx = true := by
  refine ⟨by decide, of_isError (by decide), by decide⟩

/-- An addition of v4 and v2 into v6, and what stands before it: with v4 poison-empty in lane 3, with its `EMPTYTRAP` bit and v4 empty
there, without that bit, with v6 empty, and in a group of four registers. -/
def adding : XV := xvOf .b32 6 4 2 0
def strict : XV := { adding with h := { adding.h with empty := 4 } }
def addForm : Form := formV2 adding true false 0 false
def filledAs (k : Nat) (x : Fill) : State := withCtx fun c => { c with fills := [(k, x)] }
def narrow : State := withCtx fun c => { c with node := { c.node with regs := 4 } }
def stolen : State := withCtx fun c => { c with node := { c.node with steal := true } }
def firstPart (i : Instr) : Form := ((partsOf i).map Prod.fst).getD addForm
/-- A split issues the instruction, as `AtIssue` has it. -/
theorem at_issue (form : Form) (bytes : Nat) (s : State)
    (h : s.issuer = some (0, 0, (issueOf form bytes s).c, (issueOf form bytes s).sp)) : AtIssue form s (issueOf form bytes s) := ⟨h, rfl⟩
def sourcesIn (i : Instr) (s : State) : List (Bool × List Nat) :=
  sourcesOf i (firstPart i) [] s (issueOf (firstPart i) 12 s)

theorem witness_WhatComesBeforeAnInstruction_parts :
    (∀ s ∈ [here, filledAs (locV 4 3) .poisoned, filledAs (locV 4 3) .empty, filledAs (locV 6 3) .empty, narrow],
      ∀ i ∈ [Instr.add adding, .add strict], (partsOf i).isSome = true
        ∧ s.issuer = some (0, 0, (issueOf (firstPart i) 12 s).c, (issueOf (firstPart i) 12 s).sp)
        ∧ checksItself i = false ∧ (issueOf (firstPart i) 12 s).acting ≠ 0)
    ∧ regsExist (firstPart (.add adding)) placedCtx = true
    ∧ (narrow.ctxs.look 0).map (regsExist (firstPart (.add adding))) = some false
    ∧ (let i := Instr.add { adding with h := { adding.h with guard := ⟨false, 1⟩ } }
       (issueOf (firstPart i) 12 here).acting = 0 ∧ (encode i).map List.length = some 3
       ∧ (issueOf (firstPart i) 12 here).next = theSplit.pc + BitVec.ofNat 64 (4 * 3))
    ∧ ((sourcesIn (.add adding) (filledAs (locV 4 3) .poisoned)).head?.map fun e => e.2.contains (locV 4 3)) = some true
    ∧ (((filledAs (locV 4 3) .poisoned).ctxs.look 0).map fun c => c.isPoisoned (locV 4 3)) = some true
    ∧ ((sourcesIn (.add strict) (filledAs (locV 4 3) .empty)).map Prod.fst) = [true, false]
    ∧ ((sourcesIn (.add adding) (filledAs (locV 4 3) .empty)).map Prod.fst) = [false, false]
    ∧ (((filledAs (locV 4 3) .empty).ctxs.look 0).map fun c =>
      (sourcesIn (.add adding) (filledAs (locV 4 3) .empty)).map fun e => e.2.filter c.isEmpty) = some [[locV 4 3], []]
    ∧ (((filledAs (locV 6 3) .empty).ctxs.look 0).map fun c => ((firstPart (.add adding)).dst.locs 0xFFFF).filter c.isEmpty) =
      some [locV 6 3]
    ∧ (firstPart (.add adding)).dst.mode.writes = true
    ∧ (let i := Instr.tzero (xtOf 15 0 0 0 0)
       onTiles i = true ∧ checksItself i = true ∧ (partsOf i).isSome = true
       ∧ (∀ s ∈ [here, stolen], s.issuer = some (0, 0, (issueOf (firstPart i) 12 s).c, (issueOf (firstPart i) 12 s).sp))
       ∧ (stolen.ctxs.look 0).map (fun c => c.node.steal && regsExist (firstPart i) c) = some true) := by and_intros <;> decide

/-! ### Frames and records -/

/-- Nothing is placed in memory from 0x50000 on. -/
theorem far_zero (a : Nat) (h : 0x50000 ≤ a) : here.byteAt a = 0 := by
  have cells : here.mem = [(0x10000, 0x31), (0x10002, 0x02), (0x20000, 0x2F)] := by decide
  simp only [State.byteAt, SMap.at, cells, SMap.look]
  repeat' split
  all_goals first | omega | rfl

theorem witness_FramesAreAllocated :
    (∀ e ∈ [(formFnew (xcOf .b32 9 0 0 0) false, 12), (formFnew { xcOf .b32 9 0 0 0 with imm := 1 } true, 12)],
      e.1.ok = true ∧ Met e.1 e.2 here)
    ∧ placedCtx.perLane = false ∧ ∃ t hs, here.allocFrames placedCtx false [0] = (t, some hs) ∧ hs.length = 1 := by
  refine ⟨of_reached (by decide), by decide, ?_⟩
  have free : ∀ k, (here.frame k).state = .free := fun k => by
    have home : 0x50000 ≤ here.framePa k ∧ here.frames.look k = none := ⟨by simp [State.framePa, Config.frameTable]; omega, rfl⟩
    simp [State.frame, home.2, State.readHome, tabulate, List.range_succ, far_zero _ (Nat.le_add_right_of_le home.1), natOfBytes]
    rfl
  have wraps : ∀ x : Nat, x % 4194304 = 0 → (x + 1) % 4194304 ≠ 0 := by omega
  have good : ∀ k, here.frameBad k = false := fun k => by simp [State.frameBad, State.poisonedAt, here, State.place, State.reset]
  have found : ∀ n x, ∃ j, here.freeFrameFrom 0 (n + 2) x = some j := by
    intro n x
    by_cases h : x % 4194304 = 0
    · exact ⟨1, by simp [State.freeFrameFrom, free, good, h, Config.framePool]⟩
    · exact ⟨x % 4194304, by rw [State.freeFrameFrom]; simp [free, good, h, Config.framePool]⟩
  have some_frame : ∃ j, here.chooseFrame 0 = some j := found 4194302 _
  obtain ⟨j, hj⟩ := some_frame
  rcases r : here.allocFrame placedCtx 0 false with ⟨t, _ | h⟩
  · simp [State.allocFrame, show placedCtx.die = 0 from rfl, hj] at r
  · exact ⟨_, [(0, h)], by simp [State.allocFrames, r]; rfl, rfl⟩

/-- A frame under key 1, whose handle is 0x100, and that handle in s0. -/
def framed (st : FrameState) : State :=
  { withS0 0x100 with
    frames := [(1, { gen := 0, waiters := 0, state := st, owner := 0, pending := if st == .open then 1 else 0 })] }
def doneForm : Form := formFdone xc
def awaitForm : Form := formFawait (xcOf .b32 9 0 0 0)
def pollHandles : List (Nat × Word) := [(64, 0x100)]

theorem witness_PromisesAndAwaits :
    Met doneForm 12 (framed .promise) ∧ frameHandles xc doneForm (issueOf doneForm 12 (framed .promise)) = pollHandles
    ∧ ((framed .promise).handleTrap (issueOf doneForm 12 (framed .promise)) pollHandles
      fun h => !(framed .promise).isPromise h) = none
    ∧ ((framed .open).handleTrap (issueOf doneForm 12 (framed .open)) pollHandles fun h => !(framed .open).isPromise h) ≠ none
    ∧ (∃ t, (framed .promise).promisesDone pollHandles = .ok t) ∧ (framed .open).promisesDone pollHandles = .error 64
    ∧ ({ framed .promise with ops := [(0, opOf (.fdone pollHandles))] } : State).ops.look 0 = some (opOf (.fdone pollHandles))
    ∧ Met awaitForm 12 (framed .done) ∧ ((framed .done).handleTrap (issueOf awaitForm 12 (framed .done)) pollHandles
      fun h => ((framed .done).checkHandle h).isNone) = none
    ∧ (here.handleTrap (issueOf awaitForm 12 here) pollHandles fun h => (here.checkHandle h).isNone) ≠ none
    ∧ (∃ t ws, (framed .done).awaitFrames pollHandles = (t, .ok ws))
    ∧ (∃ t, (framed .open).awaitFrames pollHandles = (t, .error 0x100)) ∧ handleKey 0x100 ∉ (framed .promise).orphans :=
  ⟨met (by decide), by decide, by decide, by decide, ⟨_, rfl⟩, rfl, rfl, met (by decide), by decide, by decide,
    ⟨_, _, rfl⟩, ⟨_, rfl⟩, by decide⟩

/-- Node 0 of die 0: a uniform (0) or reorder (3) node at 0x40000 of one group with 8 registers; and arm 0 of a source: 0 the
host, 1 messages of tag 0, with a ring of two slots, 2 `fire`. -/
def tables (kind source : Nat) (s : State) : State :=
  let n := s.nodePa 0 0
  let a := s.armPa 0 0
  poke s ([(a + 2, BitVec.ofNat 8 (2 * source + 1))] ++ (if source = 1 then [(a + 40, 2)] else []) ++ [(n + 2, 4)]
    ++ (if kind = 0 then [] else [(n + 8, BitVec.ofNat 8 kind)]) ++ [(n + 9, 1), (n + 10, 1), (n + 20, 1), (n + 28, 1)])
def listed : State := tables 0 2 here
def spawnForm : Form := formRecord xc true true true true
def emitForm : Form := formRecord xc false false true true
def fireForm : Form := formRecord xc false false true false
def recordsOf (form : Form) (keyed : Bool) (s : State) : List Made := makeRecords xc form (issueOf form 12 s) keyed

/-- An open frame that a `spawn` names. -/
def parent : State := tables 0 2 (framed .open)
def raised_ : List (Nat × Sent) :=
  (recordsOf spawnForm true parent).map fun m => (m.lane, m.sent xc (issueOf spawnForm 12 parent) m.key)

def noTrap (r : State × Option Trap) : Bool := r.2.isNone
theorem of_noTrap {r : State × Option Trap} (h : noTrap r = true) : ∃ t, r = (t, none) := by
  obtain ⟨t, a⟩ := r
  cases a with
  | none => exact ⟨t, rfl⟩
  | some u => simp [noTrap] at h

theorem witness_RecordsLeave :
    Met spawnForm 12 listed ∧ Met emitForm 12 listed ∧ Met fireForm 12 listed ∧ Met spawnForm 12 parent
    ∧ (∃ t, listed.checkRecords (issueOf spawnForm 12 listed) false true 0 true (recordsOf spawnForm true listed) = (t, none))
    ∧ (∃ t, listed.checkRecords (issueOf emitForm 12 listed) false true 0 false (recordsOf emitForm false listed) = (t, none))
    ∧ (∃ t, listed.checkRecords (issueOf fireForm 12 listed) true true 0 false (recordsOf fireForm false listed) = (t, none))
    ∧ (∃ t, parent.checkRecords (issueOf spawnForm 12 parent) false true 0 true (recordsOf spawnForm true parent) = (t, none))
    ∧ listed.roomFor (recordsOf spawnForm true listed) = true ∧ (∀ m ∈ recordsOf spawnForm true listed, m.key = 0)
    ∧ ¬ (∀ m ∈ recordsOf spawnForm true parent, m.key = 0)
    ∧ (∃ t, parent.raiseFrames raised_ = .ok t) ∧ ∃ l, here.raiseFrames raised_ = .error l :=
  ⟨met (by decide), met (by decide), met (by decide), met (by decide), of_noTrap (by decide), of_noTrap (by decide),
    of_noTrap (by decide), of_noTrap (by decide), by decide, by decide, by decide, ⟨_, rfl⟩, ⟨_, rfl⟩⟩

/-- A die whose records fill its room. -/
def crowded (s : State) : State :=
  { s with sent := List.replicate Config.recordRoom ⟨0, 0, 0, 0, ⟨0, 0, 0, [], 0, none⟩, none⟩ }
theorem crowded_full {t : State} (s : State) (h : t.sent = (crowded s).sent) (m : Made) (ms : List Made) (d : m.die = 0) :
    t.roomFor (m :: ms) = false := by
  simp [State.roomFor, State.recordsFit, State.waitingRecords, h, crowded, d, List.filter_replicate]
  intro hn
  omega


theorem crowded_spawn_sent : ((crowded listed).checkRecords (issueOf spawnForm 12 listed) false true 0 true (recordsOf spawnForm true listed)).1.sent = (crowded listed).sent := rfl
theorem crowded_spawn : ∃ t, (crowded listed).checkRecords (issueOf spawnForm 12 listed) false true 0 true (recordsOf spawnForm true listed)
    = (t, none) ∧ t.roomFor (recordsOf spawnForm true listed) = false :=
  let ⟨t, e⟩ := of_noTrap (by decide)
  ⟨t, e, crowded_full listed (by have h := crowded_spawn_sent; rw [e] at h; exact h) _ _ rfl⟩
theorem crowded_emit_sent : ((crowded listed).checkRecords (issueOf emitForm 12 listed) false true 0 false (recordsOf emitForm false listed)).1.sent = (crowded listed).sent := rfl
theorem crowded_emit : ∃ t, (crowded listed).checkRecords (issueOf emitForm 12 listed) false true 0 false (recordsOf emitForm false listed)
    = (t, none) ∧ t.roomFor (recordsOf emitForm false listed) = false :=
  let ⟨t, e⟩ := of_noTrap (by decide)
  ⟨t, e, crowded_full listed (by have h := crowded_emit_sent; rw [e] at h; exact h) _ _ rfl⟩
theorem crowded_fire_sent : ((crowded listed).checkRecords (issueOf fireForm 12 listed) true true 0 false (recordsOf fireForm false listed)).1.sent = (crowded listed).sent := rfl
theorem crowded_fire : ∃ t, (crowded listed).checkRecords (issueOf fireForm 12 listed) true true 0 false (recordsOf fireForm false listed)
    = (t, none) ∧ t.roomFor (recordsOf fireForm false listed) = false :=
  let ⟨t, e⟩ := of_noTrap (by decide)
  ⟨t, e, crowded_full listed (by have h := crowded_fire_sent; rw [e] at h; exact h) _ _ rfl⟩

theorem witness_RecordsLeave_full :
    Met spawnForm 12 (crowded listed) ∧ Met emitForm 12 (crowded listed) ∧ Met fireForm 12 (crowded listed) :=
  ⟨met (by decide), met (by decide), met (by decide)⟩

def reordForm : Form := formRecord xc true false false true
def pushForm : Form := formRecord xc true false true true
def entry : PqEntry := ⟨0, 5, 0, 0, []⟩

theorem witness_QueuesAndReorderUnit :
    Met reordForm 12 (tables 3 2 here) ∧ isOk ((tables 3 2 here).nodeVia 0 0 0) = true
    ∧ (match ((tables 3 2 here).nodeVia 0 0 0).2 with | .ok d => d.kind == .reorder | .error _ => false) = true
    ∧ placedCtx.perLane = false ∧ (tables 3 2 here).depositCount 0 + (lanesOf 0xFFFF).length ≤ Config.depositRoom
    ∧ Met pushForm 12 here ∧ Met (formPqpop (xcOf .b32 16 0 0 0)) 12 here
    ∧ (∃ t, here.checkRecords (issueOf pushForm 12 here) false false 0 false (recordsOf pushForm true here) = (t, none))
    ∧ (busy (.push 0 [entry])).graphEnding 0 = false
    ∧ (let s : State := { busy (.pop 0 [[]]) with pqueues := [(0, entry)] }
       (∀ e ∈ s.ops, e.1 < 0 → e.2.ctx = 0 → ∀ d es, e.2.kind = .push d es → d ≠ 0)
       ∧ (s.pqueues.zipIdx.filter fun e => e.1.1 == 0).map (fun e => (e.2, e.1.2)) = [(0, entry)]
       ∧ inWindow [entry] entry = true) :=
  ⟨met (by decide), by decide, by decide, by decide, by decide, met (by decide), met (by decide), of_noTrap (by decide), by decide,
    by intro e _ h; omega, by decide⟩

/-- A group whose one task has exited, with frame 1 as its own, and one that has reported. -/
def exitedCtx : Ctx := { placedCtx with exited := 0xFFFF, splits := [] }
def tasked (err : Bool) (frame : Word) (done : LaneMask) : Ctx :=
  { exitedCtx with errTasks := if err then 1 else 0, reported := done, special := { placedCtx.special with frame := frame } }
def ownedFrame : Owned := { task := 0, handle := 0x100, promise := true }

theorem witness_TasksReport :
    (let s : State := { here with ctxs := [(0, exitedCtx)] }
     s.ctxs.look 0 = some exitedCtx ∧ 0 ∈ exitedCtx.tasks ∧ exitedCtx.reported.getLsbD 0 = false ∧ exitedCtx.taskExited 0 = true
     ∧ (∀ e ∈ s.ops, e.2.holds 0 0 = false) ∧ (∃ t, s.awaitOwned 0 0 = (t, true))
     ∧ (∃ t ∈ exitedCtx.tasks, exitedCtx.reported.getLsbD t = false))
    ∧ (tasked false 0x100 0).deposited.getLsbD 0 = false ∧ (tasked false 0x100 0).taskFrame 0 ≠ 0
    ∧ (tasked true 0 0).taskFrame 0 = 0 ∧ (tasked true 0 0).errTasks.getLsbD 0 = true
    ∧ (tasked false 0 0).errTasks.getLsbD 0 = false ∧ here.graphs.look (tasked true 0 0).graph = some placedGraph
    ∧ ({ placedCtx with deposited := 1 } : Ctx).deposited.getLsbD 0 = true
    ∧ ((framed .promise).frame (handleKey ownedFrame.handle)).state.unused = false
    ∧ ((framed .promise).frame (handleKey ownedFrame.handle)).gen.toNat % 256 = bitsOf ownedFrame.handle 7 0
    ∧ ((framed .promise).frame (handleKey ownedFrame.handle)).waiters = 0
    ∧ (({ framed .promise with frames := [(1, ⟨0, 5, .promise, 0, 0⟩)] } : State).frame 1).waiters ≠ 0
    ∧ (∀ t ∈ (tasked false 0 1).tasks, (tasked false 0 1).reported.getLsbD t = true)
    ∧ (here.core (tasked false 0 1).core).latch = [] := by
  refine ⟨⟨by decide, by decide, by decide, by decide, by decide, ⟨_, rfl⟩, by decide⟩, by decide⟩

/-! ### Memory -/

/-- A memory operand in scratch, without an index, and one at a global address in q4. -/
def inScratch : XM := { xm with h := header .b32 6 0 0 0, scale := 7 }
def inGlobal : XM := { xm with h := header .b32 6 0 4 0, space := 1, scale := 7 }
/-- The own core's scratch through the cluster window. -/
def inWindow_ : XM := { xm with h := header .b32 6 0 8 0, space := 3, scale := 7 }
def smallBase : Base := { base with dst := 6, src1 := 4, src2 := 3 }

theorem of_isOk' {α : Type} {r : State × Except Trap α} (h : isOk r = true) : ∃ e : State × α, r = (e.1, .ok e.2) := by
  obtain ⟨t, a, e⟩ := of_isOk h
  exact ⟨(t, a), e⟩

theorem witness_LoadsAndStoresComplete_loads :
    (∀ f ∈ [inScratch, inGlobal, inWindow_], (formLoad f false).ok = true ∧ Met (formLoad f false) 12 here
      ∧ f.badWindow (issueOf (formLoad f false) 12 here) = false ∧ f.handle placedCtx = some 0
      ∧ ∃ t lanes, f.access (issueOf (formLoad f false) 12 here) 0 false false here = (t, .ok lanes))
    ∧ (∀ f ∈ [inScratch, inGlobal, inWindow_], (formLoad f true).ok = true ∧ Met (formLoad f true) 12 here
      ∧ ∃ t lanes, f.access (issueOf (formLoad f true) 12 here) 0 false true here = (t, .ok lanes))
    ∧ Met (formLoad smallBase.xmSc false) 4 here
    ∧ ∃ t lanes, smallBase.xmSc.access (issueOf (formLoad smallBase.xmSc false) 4 here) 0 false false here = (t, .ok lanes) := by
  refine ⟨?_, ?_, met (by decide), of_isOk (by decide)⟩
  · simp only [List.forall_mem_cons, List.not_mem_nil, false_implies, implies_true, and_true]
    refine ⟨⟨?_, met ?_, ?_, ?_, of_isOk ?_⟩, ⟨?_, met ?_, ?_, ?_, of_isOk ?_⟩, ⟨?_, met ?_, ?_, ?_, of_isOk ?_⟩⟩ <;> decide
  · simp only [List.forall_mem_cons, List.not_mem_nil, false_implies, implies_true, and_true]
    refine ⟨⟨?_, met ?_, of_isOk ?_⟩, ⟨?_, met ?_, of_isOk ?_⟩, ⟨?_, met ?_, of_isOk ?_⟩⟩ <;> decide

/-- A base load through x3, whose run covers one page. -/
def withX3 : State :=
  withCtx fun c =>
    { c with
      x := [(3, { vbase := 0x1000, pbase := 0x1000, limit := 0x1000, coh := true, write := true, read := true, stale := false
                  valid := true })] }

theorem witness_LoadsAndStoresComplete_base :
    let form := smallBase.smallX (formLoad smallBase.xmX false)
    form.ok = true ∧ Met form 4 withX3
    ∧ ∃ t lanes, smallBase.xmX.access (issueOf form 4 withX3) 0 false false withX3 = (t, .ok lanes) :=
  ⟨by decide, met (by decide), of_isOk (by decide)⟩

theorem witness_LoadsAndStoresComplete_stores :
    (∀ f ∈ [inScratch, inGlobal, inWindow_], (formStore f true).ok = true ∧ Met (formStore f true) 12 here
      ∧ f.badWindow (issueOf (formStore f true) 12 here) = false ∧ f.handle placedCtx = some 0
      ∧ ∃ t lanes, f.access (issueOf (formStore f true) 12 here) 1 false true here = (t, .ok lanes))
    ∧ (let form := smallBase.smallX (formStore smallBase.xmX false)
       Met form 4 withX3 ∧ ∃ t lanes, smallBase.xmX.access (issueOf form 4 withX3) 1 false false withX3 = (t, .ok lanes))
    ∧ Met (formStore smallBase.xmSc false) 4 here
    ∧ ∃ t lanes, smallBase.xmSc.access (issueOf (formStore smallBase.xmSc false) 4 here) 1 false false here = (t, .ok lanes) := by
  refine ⟨?_, ⟨met (by decide), of_isOk (by decide)⟩, met (by decide), of_isOk (by decide)⟩
  simp only [List.forall_mem_cons, List.not_mem_nil, false_implies, implies_true, and_true]
  refine ⟨⟨?_, met ?_, ?_, ?_, of_isOk ?_⟩, ⟨?_, met ?_, ?_, ?_, of_isOk ?_⟩, ⟨?_, met ?_, ?_, ?_, of_isOk ?_⟩⟩ <;> decide

/-- A core that waits for 2,048 prefetches has no room for a load's request. -/
def backlog : State := { here with merges := [⟨0x9999, List.replicate Config.requestRoom ⟨0, 0, none, []⟩⟩] }
theorem backlog_full {t : State} (h : t.merges = backlog.merges) : Config.requestRoom ≤ t.outstanding 0 := by
  simp [State.outstanding, h, backlog]
  omega

theorem overfull {a b c : Nat} (h : a + b ≤ c) (k : c ≤ a) (n : 0 < b) : False := by omega

set_option maxRecDepth 20000 in
theorem backlog_stays : ((inGlobal.access (issueOf (formLoad inGlobal true) 12 backlog) 0 false true backlog).1.settleReds 0).merges =
    backlog.merges := rfl

theorem witness_LoadsAndStoresComplete_full :
    Met (formLoad inGlobal true) 12 backlog
    ∧ (∃ t lanes, inGlobal.access (issueOf (formLoad inGlobal true) 12 backlog) 0 false true backlog = (t, .ok lanes)
      ∧ ¬ ((t.settleReds 0).outstanding 0 + (lanesLines lanes).length ≤ Config.requestRoom))
    ∧ ∃ t lanes, inGlobal.access (issueOf (formLoad inGlobal true) 12 here) 0 false true here = (t, .ok lanes)
      ∧ (t.settleReds 0).outstanding 0 + (lanesLines lanes).length ≤ Config.requestRoom := by
  refine ⟨met (by decide), ⟨_, [⟨0, .mem 0, 0, some ⟨0x10000, 1, 0, 0x6F, 0x20000⟩⟩], rfl, fun h => ?_⟩,
    ⟨_, [⟨0, .mem 0, 0, some ⟨0x10000, 1, 0, 0x6F, 0x20000⟩⟩], rfl, by decide⟩⟩
  exact overfull h (backlog_full backlog_stays) (by decide)

/-! ### Producers -/

def laneAt (pa : Nat) : LaneAt := { lane := 3, place := .mem pa, va := BitVec.ofNat 64 pa, tlb := none }
/-- The core's L1 holds 32 bytes of line 32. -/
def cached : State := { here with cores := [(0, { here.core 0 with l1 := [(32, ⟨[], 0xFFFFFFFF, 0, 0, 0⟩)] })] }
def loadOf (got : List (Nat × Option Word × BitVec 5)) : OpKind := .load false 6 .b32 [laneAt 0x1000] 0 got
def pairOfLanes : List LaneAt := [laneAt 0x1000, { laneAt 0x1004 with lane := 4 }]
def gatherOf : OpKind := .gather 6 .b32 pairOfLanes 0
def awaitedCtx : Ctx := { placedCtx with fills := [(locV 6 3, .empty)] }

theorem witness_ProducersLand :
    ((laneAt 0x1004).place = .mem 0x1004 ∧ 0x1004 % 32 + Ty.b32.bytes ≤ 32
      ∧ (∀ i < Ty.b32.bytes, ((cached.core 0).l1.at Line.none (0x1004 / 128)).valid.getLsbD ((0x1004 + i) % 128) = true)
      ∧ ¬ (∀ i < Ty.b32.bytes, ((here.core 0).l1.at Line.none (0x1004 / 128)).valid.getLsbD ((0x1004 + i) % 128) = true)
      ∧ here.poisonedAt 0x1004 = false ∧ ({ here with poison := [0x1004 / 32] } : State).poisonedAt 0x1004 = true)
    ∧ ((busy (loadOf [])).ops.look 0 = some (opOf (loadOf [])) ∧ (opOf (loadOf [])).fault = none ∧ 6 + Ty.b32.regs ≤ 256
      ∧ (∀ line, (laneAt 0x1000).line = some line → (busy (loadOf [])).merging 0 line = false)
      ∧ ∃ t x, (busy (loadOf [])).readLane 0 0 .b32 (laneAt 0x1000) = (t, x))
    ∧ (awaitedCtx.fills.look (locV 6 3) = some .empty ∧ locV 6 3 < 16384 ∧ awaitedCtx.exited.getLsbD (locV 6 3 % 64) = false)
    ∧ ((busy gatherOf).ops.look 0 = some (opOf gatherOf)
      ∧ (∀ a ∈ pairOfLanes, (busy gatherOf).poisonedPlace a.place = false)
      ∧ (pairOfLanes.filter fun a =>
        !pairOfLanes.any fun b => (8 : LaneMask).getLsbD b.lane && b.place == a.place) ≠ []
      ∧ (pairOfLanes.filter fun a =>
        !pairOfLanes.any fun b => (24 : LaneMask).getLsbD b.lane && b.place == a.place) = [])
    ∧ (busy (.fpoll [(locV 6 3, 0x100)])).ops.look 0 = some (opOf (.fpoll [(locV 6 3, 0x100)]))
    ∧ (8 : LaneMask).getLsbD (locLane (locV 6 3)) = true := by
  refine ⟨by decide, ⟨rfl, rfl, by decide, fun line _ => rfl, ⟨_, _, rfl⟩⟩,
    by decide, ⟨rfl, by decide⟩, rfl, by decide⟩

/-! ### Translation -/

/-- The page tables of the placed group with another entry at level 1, and with one at the root. -/
def leafed (e : Nat) : State := { here with mem := cellsOf 0x10000 8 0x20031 ++ cellsOf 0x20000 8 e }
def rooted (e : Nat) : State := { here with mem := cellsOf 0x10000 8 e }
/-- An entry stands as a leaf at level 1. -/
def standsAt1 (s : State) (e : DWord) : Prop :=
  (e.extractLsb' 4 2).toNat + 1 = 3 ∧ e.extractLsb' 48 15 = 0 ∧ e.extractLsb' 13 3 = 0 ∧ (e.extractLsb' 9 2).toNat ≠ 3
    ∧ (e.getLsbD 8 = true → (e.extractLsb' 9 2).toNat = 2) ∧ 65536 * (e.extractLsb' 16 32).toNat % 2 ^ levelShift 1 = 0
    ∧ ((e.extractLsb' 9 2).toNat ≠ 1 → (e.extractLsb' 11 2).toNat = 0)
    ∧ s.pageInRegion (e.extractLsb' 9 2).toNat (e.extractLsb' 11 2).toNat (65536 * (e.extractLsb' 16 32).toNat) (2 ^ levelShift 1)
      = true

theorem witness_Translations_walks :
    canonical 0x8000000000000 = false ∧ canonical 0x1000 = true ∧ here.inDevice 0x10000 = true
    ∧ (∀ e, tableAt (leafed e) 0x10000 0x1000 0 = some 0x10000) ∧ tableAt (leafed 0x2F) 0x10000 0x1000 1 = some 0x20000
    ∧ ({ leafed 0x2F with poison := [0x20000 / 32] } : State).poisonedAt (entryPlace 0x20000 0x1000 1) = true
    ∧ (leafed 0x2F).poisonedAt (entryPlace 0x20000 0x1000 1) = false
    ∧ (entryAt (leafed 0x2E) 0x20000 0x1000 1).getLsbD 0 = false
    ∧ (let e := entryAt (rooted 0x20037) 0x10000 0x1000 0
       e.getLsbD 0 = true ∧ e.extractLsb' 4 2 = 3 ∧ pointerStands (rooted 0x20037) e 0 = false)
    ∧ (let e := entryAt (leafed 0x1F) 0x20000 0x1000 1
       e.getLsbD 0 = true ∧ e.extractLsb' 4 2 ≠ 3 ∧ ¬ standsAt1 (leafed 0x1F) e)
    ∧ (let e := entryAt (leafed 0x800000000000002F) 0x20000 0x1000 1
       e.getLsbD 0 = true ∧ standsAt1 (leafed 0x800000000000002F) e ∧ e.getLsbD 63 = true)
    ∧ (let e := entryAt (leafed 0x2F) 0x20000 0x1000 1
       e.getLsbD 0 = true ∧ e.extractLsb' 4 2 ≠ 3 ∧ standsAt1 (leafed 0x2F) e ∧ e.getLsbD 63 = false ∧ permits e 0 = true)
    ∧ permits (entryAt (leafed 0x2B) 0x20000 0x1000 1) 0 = false ∧ standsAt1 (leafed 0x2B) (entryAt (leafed 0x2B) 0x20000 0x1000 1) := by
  refine ⟨by decide, by decide, by decide, fun _ => rfl, by decide, by decide, by decide, by decide, ?_⟩
  unfold standsAt1
  decide

/-- A TLB that holds the leaf at level 1, marked dirty or not; a package of which no boundary works. -/
def held (dirty : Bool) : State :=
  { leafed 0x2F with
    cores := [(0, { here.core 0 with tlb := [⟨0x10000, 1, 0, if dirty then 0xEF else 0x6F, 0x20000⟩] })] }
def cutOff : State := { here with boundaries := (List.range 4).map fun i => (i, { Boundary.fresh with failed := true }) }
/-- x3 with a run of one page of 64 KiB at 0x40000. -/
def xregOf (stale : Bool) : XReg :=
  { vbase := 0x40000, pbase := 0x40000, limit := 1, coh := false, write := false, read := true, stale := stale, valid := true }
def withRun (stale : Bool) : State := withCtx fun c => { c with x := [(3, xregOf stale)] }

theorem witness_Translations_uses :
    (∀ m ∈ here.merges, ∀ i < 8, (0x20000 + i) / 128 ≠ m.line) ∧ (192 : Nat) < 2 ^ 64
    ∧ ((held false).core 0).tlb.find? (fun t => t.covers 0x10000 0x1000 && permits t.leaf 0) = some ⟨0x10000, 1, 0, 0x6F, 0x20000⟩
    ∧ (here.core 0).tlb.find? (fun t => t.covers 0x10000 0x1000 && permits t.leaf 0) = none
    ∧ (∃ u f, (here.countEvent 0 0x30 0 1).walk 0 0x10000 0x1000 0 = (u, .ok f))
    ∧ (∃ u x, (here.countEvent 0 0x30 0 1).walk 0 0x10000 0x10000000000 0 = (u, .error x))
    ∧ ((held false).core 0).tlb.find? (fun t => t.covers 0x10000 0x1000 && permits t.leaf 1 && !t.leaf.getLsbD 7) =
      some ⟨0x10000, 1, 0, 0x6F, 0x20000⟩
    ∧ ((held true).core 0).tlb.find? (fun t => t.covers 0x10000 0x1000 && permits t.leaf 1 && !t.leaf.getLsbD 7) = none
    ∧ (∃ u m, here.tlbOrWalk 0 0 (here.asroot 0) 0x1000 0 = (u, .ok m) ∧ u.reaches 0 m.pa = true)
    ∧ (∃ u m, cutOff.tlbOrWalk 0 0 (cutOff.asroot 0) 0x1000 0 = (u, .ok m) ∧ u.reaches 0 m.pa = false)
    ∧ (∃ x bad, here.descend (BitVec.ofNat 64 0x10000000000) 0 0x10000 [0, 1, 2, 3] = .error (x, bad))
    ∧ (∃ f, here.descend (BitVec.ofNat 64 (2 ^ 30)) 0 0x10000 [0, 1, 2, 3] = .error f)
    ∧ (∃ f, here.descend (BitVec.ofNat 64 0) 0 0x10000 [0, 1, 2, 3] = .ok f)
    ∧ (∃ f, ({ here with mem := cellsOf 0x10000 8 0x20031 ++ cellsOf 0x20000 8 0x2F ++ cellsOf 0x20008 8 0x4000002F } : State).descend
        (BitVec.ofNat 64 (2 ^ 30)) 0 0x10000 [0, 1, 2, 3] = .ok f
      ∧ leafPa f.leaf = 2 ^ 30 ∧ runKey f.leaf = (3, 0) ∧ 16384 + 2 ^ levelShift f.level / 65536 < 2 ^ 22
      ∧ 2 ^ 30 % 2 ^ 51 ≠ 0 ∧ 2 ^ 30 % 2 ^ levelShift f.level = 0)
    ∧ ((withRun false).ctxs.look 0).map (fun c => c.xreg 3) = some (xregOf false)
    ∧ ((xregOf false).valid && (xregOf false).stale) = false ∧ ((xregOf true).valid && (xregOf true).stale) = true
    ∧ (0 : Int) < (65536 * (xregOf false).limit.toNat : Nat) - ((xregOf false).vbase.toNat % 65536 : Nat)
    ∧ ¬ ((65536 : Int) < (65536 * (xregOf false).limit.toNat : Nat) - ((xregOf false).vbase.toNat % 65536 : Nat))
    ∧ (xregOf false).permits 1 = false ∧ (xregOf false).permits 0 = true ∧ (withRun false).reaches 0 0x40000 = true
    ∧ (∃ u x, (withRun true).bindRun 0 0 0x10000 (xregOf true).va = (u, .ok x))
    ∧ ∃ u x, (withRun true).bindRun 0 0 0x10000 0x10000000000 = (u, .error x) := by
  refine ⟨by decide, by decide, by decide, by decide, of_isOk (by decide), of_isError (by decide), by decide, by decide,
    ⟨_, _, rfl, by decide⟩, ⟨_, _, rfl, by decide⟩, ⟨_, _, rfl⟩, ⟨_, rfl⟩, ⟨_, rfl⟩,
    ⟨_, rfl, by decide⟩, by decide, by decide, by decide, by decide, by decide, by decide,
    by decide, by decide, of_isOk (by decide), of_isError (by decide)⟩

/-- The store of one lane at scratch offset 0: what it finds, and that the split has no load in flight. -/
theorem witness_StoresChangeTheirOwnBytes :
    (formStore inScratch true).ok = true ∧ Met (formStore inScratch true) 12 here ∧ inScratch.space.toNat ≠ 3
    ∧ (inScratch.access (issueOf (formStore inScratch true) 12 here) 1 false true here).2 =
      .ok [{ lane := 0, place := .scratch 0 0, va := 0, tlb := none }]
    ∧ noneInFlight here 0
    ∧ (∀ w ∈ here.watch, w.edge = true → ∀ c, here.ctxs.look w.ctx = some c → c.core ≠ 0) := by
  refine ⟨by decide, met (by decide), by decide, by rfl, ?_, ?_⟩ <;> intro e he <;> exact absurd he (by simp [here, State.place, State.reset])

def scatterForm : Form := formScatadd (xaOf .n32 0 4 2 8)
def oneAdd : AtomicLane := { at_ := { lane := 0, place := .mem 0x1000, va := 0x1000, tlb := none }, operand := 5, compare := 0 }
def atPort (off : Nat) : AtomicLane := { oneAdd with at_ := { lane := 0, place := .scratch 0 off, va := BitVec.ofNat 64 off, tlb := none } }

theorem witness_AtomicsCompleteAndPerform :
    (∀ f ∈ [inScratch, inGlobal, inWindow_], let form := formAtomic f true .readWrite false
      form.ok = true ∧ Met form 12 here ∧ ∃ t lanes, f.access (issueOf form 12 here) 2 false false here = (t, .ok lanes))
    ∧ (formRed { inScratch with h := header .b32 0 0 0 8, op := 5 }).ok = true
    ∧ Met (formRed { inScratch with h := header .b32 0 0 0 8, op := 5 }) 12 here
    ∧ scatterForm.ok = true ∧ Met scatterForm 12 here
    ∧ (∃ t lanes, elementAccess scatterForm (issueOf scatterForm 12 here) 4 2 (pcieAtomic .add .n32) here = (t, .ok lanes))
    ∧ (busy (.atomic .add .n32 .rne 0 [oneAdd] none 0 false)).ops.look 0 = some (opOf (.atomic .add .n32 .rne 0 [oneAdd] none 0 false))
    ∧ here.windowTrap 0 4 2 false [(atPort 0).at_] = none ∧ here.windowTrap 0 4 2 false [(atPort 8192).at_] ≠ none := by
  refine ⟨?_, by decide, met (by decide), by decide, met (by decide), of_isOk (by decide), by decide⟩
  simp only [List.forall_mem_cons, List.not_mem_nil, false_implies, implies_true, and_true]
  refine ⟨⟨?_, met ?_, of_isOk ?_⟩, ⟨?_, met ?_, of_isOk ?_⟩, ⟨?_, met ?_, of_isOk ?_⟩⟩ <;> decide

theorem witness_AtomicNewValues :
    Ty.n64.float = false ∧ 2 ^ 64 - 1 < 2 ^ Ty.n64.width ∧ 0 < 2 ^ Ty.n64.width ∧ Ty.n64.signed = false := by decide

def waitForm : Form := formSwait { inScratch with h := header .n32 0 0 0 8 }
/-- `swait` for a word that is 0, as it is, and for one that is not. -/
def waitFor (op : BitVec 3) : XM := { inScratch with h := header .n32 0 0 0 8, op := op }
def waiting : Watch :=
  { die := 0, place := .scratch 0 0, bytes := 4, test := .compare 0 .n32 0, ctx := 0, split := 0, team := some 0, next := 0
    edge := true, poll := true }

theorem witness_WaitingOnAWord :
    (∀ op ∈ [0#3, 1#3], (formSwait (waitFor op)).ok = true ∧ Met (formSwait (waitFor op)) 12 here
      ∧ (waitFor op).badWindow (issueOf waitForm 12 here) = false
      ∧ ((waitFor op).access (issueOf waitForm 12 here) 0 false true here).2 = .ok [⟨0, .scratch 0 0, 0, none⟩]
      ∧ here.poisonedPlace (.scratch 0 0) = false)
    ∧ (WatchTest.compare 0 .n32 0).holds (here.readPlace (.scratch 0 0) 4) = true
    ∧ (WatchTest.compare 1 .n32 0).holds (here.readPlace (.scratch 0 0) 4) = false
    ∧ (let s : State := { here with watch := [waiting] }
       (s.watch.find? fun w => w.poll && w.ctx == 0 && w.split == 0) = some waiting
       ∧ waiting.test.holds (s.readPlace waiting.place waiting.bytes) = true) := by
  refine ⟨?_, by decide⟩
  simp only [List.forall_mem_cons, List.not_mem_nil, false_implies, implies_true, and_true]
  exact ⟨⟨by decide, met (by decide), by decide, by rfl, by decide⟩, ⟨by decide, met (by decide), by decide, by rfl, by decide⟩⟩

def rhForm : Form := formRh { xm with h := header .b32 0 9 8 0, space := 0 } false true
def cbForm (kind : Nat) : Form := formCbinv { inGlobal with h := header .b32 kind 0 4 (if kind = 4 then 6 else 0) } kind
def supervised : State := withCtx fun c => { c with handler := some { plainHandler with supervisor := true } }
/-- s9 names handle 7, which is allocated. -/
def handled : State := { withCtx (fun c => { c with sreg := [(9, 7)] }) with handles := [(7, ⟨2, []⟩)] }

theorem witness_CachesAreDirected :
    Met (formPf { inGlobal with h := header .b32 0 0 4 0 }) 12 here
    ∧ Met (formRh { xm with h := header .b32 6 9 0 0, space := 0 } true false) 12 here ∧ Met rhForm 12 here ∧ Met rhForm 12 handled
    ∧ (rhForm.arg (issueOf rhForm 12 handled).c 1 0).toNat = 7 ∧ handled.handles.look 7 ≠ none
    ∧ Met (formRh { xm with h := header .b32 0 9 0 0, space := 0 } false false) 12 handled
    ∧ (∀ kind ∈ [0, 1, 2, 3, 4], (cbForm kind).ok = true ∧ Met (cbForm kind) 12 here)
    ∧ (∃ t m, here.translate 0 placedCtx 0x1000 0 = (t, .ok m))
    ∧ Met (cbForm 4) 12 supervised
    ∧ (supervised.ctxs.look 0).map (fun c => c.inHandler 0 && (c.handler.map (·.supervisor)).getD false) = some true
    ∧ (busy (.invalidate 0x10000 0 4096 false)).ops.look 0 = some (opOf (.invalidate 0x10000 0 4096 false))
    ∧ (busy (.handle 7 (some 3) none)).ops.look 0 = some (opOf (.handle 7 (some 3) none)) := by
  refine ⟨met (by decide), met (by decide), met (by decide), met (by decide), by decide, by decide, met (by decide), ?_,
    of_isOk (by decide), met (by decide), by decide⟩
  simp only [List.forall_mem_cons, List.not_mem_nil, false_implies, implies_true, and_true]
  refine ⟨?_, ?_, ?_, ?_, ?_⟩ <;> exact ⟨by decide, met (by decide)⟩

/-! ### Barriers and copies -/

/-- A barrier at scratch offset 0 with these bits; a boundary pair whose even side's message is on its way. -/
def barrierAt (b : TBar) : State := here.setTbar 0 0 b
def idle : TBar := { phase := 3, pendArr := 1, arrCnt := 1, overrun := false, poison := false, bytes := 0, next := 0 }
/-- The split waits. -/
def parkedAt (w : Wait) : State := withSplit fun sp => { sp with wait := w }
def boundaryPair : Team := { placedTeam with pair := true, crossing := [0] }

theorem witness_BarriersHold :
    (formBar xa).ok = true ∧ Met (formBar xa) 12 here ∧ theSplit.flat = true ∧ Met (formBar xa) 12 inside
    ∧ (let s : State := { here with teams := [(0, boundaryPair)] }
       s.teams.look 0 = some boundaryPair ∧ 0 ∈ boundaryPair.crossing ∧ s.reachable 0 (s.beside 0) = true)
    ∧ Met (formTb (xaOf .b32 0 9 8 0) false true) 12 here ∧ Met (formTb (xaOf .b32 0 9 0 0) false false) 12 here
    ∧ Met (formTb (xaOf .b32 6 9 0 0) true false) 12 here
    ∧ (∃ b, here.barArg placedCtx 0 = .ok b) ∧ here.lockedScratch 0 0 16 true = false
    ∧ (barrierAt idle).tbar 0 0 = idle ∧ (barrierAt { idle with overrun := true }).tbar 0 0 = { idle with overrun := true }
    ∧ (barrierAt { idle with poison := true }).tbar 0 0 = { idle with poison := true }
    ∧ (BarArg.mk 0 0 3 true).target idle = 3 ∧ (BarArg.mk 0 0 2 true).target idle = 2
    ∧ (busy (.tbarrive 0 0 (some 3) 16)).ops.look 0 = some (opOf (.tbarrive 0 0 (some 3) 16)) ∧ idle.pendArr ≠ 0
    ∧ (let s := parkedAt (.phase 0 0 0)
       (s.ctxs.look 0).bind (fun c => (c.splits.look 0).map (·.wait)) = some (.phase 0 0 0)
       ∧ (s.writeScratch 0 [(0, 1)]).barrierPhase 0 0 ≠ 0) := by
  exact ⟨by decide, met (by decide), by decide, met (by decide), by decide, met (by decide), met (by decide), met (by decide),
    ⟨_, rfl⟩, by decide⟩

/-- q2 holds the length 16, q4 and q6 the addresses, and s8 the barrier at offset 0. -/
def copying : State := withCtx fun c => { c with sreg := [(2, 16), (4, 0x200), (6, 0x100)] }
/-- The hypotheses of `BulkCopies` on that state, with these sides. -/
def BulkMet (dir : Nat) (dstUse srcUse : Use) (srcKind dstKind : Nat) (src dst : Side) : Prop :=
  let f := { xaOf .b32 6 4 2 8 with imm := BitVec.ofNat 29 (dir * 2 ^ 26) }
  let form := formCpa f dir dstUse srcUse
  let is := issueOf form 12 copying
  form.ok = true ∧ Met form 12 copying ∧ (form.arg is.c 2 0).toNat = 16 ∧ (form.arg is.c 1 0).toNat % 16 = 0
  ∧ (form.dstArg is.c 0).toNat % 16 = 0 ∧ copying.barArg is.c ((form.arg is.c 3 0).setWidth 32) = .ok ⟨0, 0, 0, false⟩
  ∧ copying.copySide is.c srcKind (form.arg is.c 1 0) 16 = .ok src ∧ copying.copySide is.c dstKind (form.dstArg is.c 0) 16 = .ok dst
  ∧ sidesOverlap src dst 16 = false ∧ spanCanonical 0x200 16 = true ∧ copying.bindPhase ⟨0, 0, 0, false⟩ = .ok ⟨0, 0, 0⟩

theorem witness_CopiesStart_bulk :
    BulkMet 0 .s1 .q 0 1 (.global 0x200) (.scratch 0 0x100) ∧ BulkMet 1 .q .s1 1 0 (.scratch 0 0x200) (.global 0x100)
    ∧ BulkMet 2 .q .q 0 0 (.global 0x200) (.global 0x100) ∧ BulkMet 3 .s1 .s1 1 1 (.scratch 0 0x200) (.scratch 0 0x100)
    ∧ BulkMet 4 .q .s1 1 2 (.scratch 0 0x200) (.window 0 0x100) ∧ BulkMet 5 .s1 .q 2 1 (.window 0 0x200) (.scratch 0 0x100) := by
  refine ⟨?_, ?_, ?_, ?_, ?_, ?_⟩ <;>
    exact ⟨by decide, met (by decide), by decide, by decide, by decide, by rfl, by rfl, by rfl, by decide, by decide, by rfl⟩

/-- A row of 64 bytes at base q4. -/
def row : Shaped :=
  { src1 := 4, src2 := 8, dim0 := 16, dim1 := 2, stride := 256, soff := 0x800, spitch := 0, esize := 2, sreg := 0, subst := 0
    goff := 0 }
def sidesFound (r : Except Trap ((Nat → Side) × List Range)) : Bool :=
  match r with
  | .ok _ => true
  | .error _ => false
theorem of_sidesFound {r : Except Trap ((Nat → Side) × List Range)} (h : sidesFound r = true) : ∃ a b, r = .ok (a, b) := by
  cases r with
  | ok e => exact ⟨e.1, e.2, rfl⟩
  | error u => simp [sidesFound] at h

theorem witness_CopiesStart_shaped :
    reachesB (row.form .q) 20 row.registers copying (issueOf (row.form .q) 20 copying) = true
    ∧ reachesB (row.form .s1) 20 row.registers copying (issueOf (row.form .s1) 20 copying) = true
    ∧ ∃ d, row.shape placedCtx = some d ∧ d.misaligned 0x200 = false
      ∧ (∃ b, copying.barArg placedCtx 0 = .ok b) ∧ copying.tileBusy 0 placedCtx (d.soff / 2048) = false
      ∧ copying.blockTargeted 0 (d.soff / 4096) = false
      ∧ (let is := issueOf (row.form .q) 20 copying
         (∃ a r, d.scratchSide is copying true = .ok (a, r)) ∧ (∃ a r, d.globalSide is copying 0x200 false = .ok (a, r))
         ∧ (∃ a r, d.storeSide 2048 is.c.node.tiles .tile = .ok (a, r)) ∧ (∃ a r, d.farScratch is copying 0x200 = .ok (a, r))
         ∧ ∃ a r, d.storeSide 4096 is.c.node.accs .acc = .ok (a, r)) :=
  ⟨by decide, by decide, _, rfl, by decide, ⟨_, rfl⟩, by decide, by decide, of_sidesFound (by decide), of_sidesFound (by decide),
    of_sidesFound (by decide), of_sidesFound (by decide), of_sidesFound (by decide)⟩

/-- A gather of rows of 16 bytes into scratch offset 0x100, and one of single elements. -/
def gatherRow : XA := { xaOf .b32 6 4 2 8 with imm := 0x10000001 }

theorem witness_GathersStart :
    (let form := formGath (xaOf .b32 6 4 2 0)
     form.ok = true ∧ Met form 12 copying
     ∧ ∃ t lanes, elementAccess form (issueOf form 12 copying) 4 0 false copying = (t, .ok lanes))
    ∧ (let form := formGathRow gatherRow
       let is := issueOf form 12 copying
       let r := copying.gatherRows is 0 0x100 16 (elementAddress form is 16) (lanesOf is.acting)
       form.ok = true ∧ Met form 12 copying ∧ copying.barArg is.c ((form.arg is.c 3 0).setWidth 32) = .ok ⟨0, 0, 0, false⟩
       ∧ (copying.ownScratch is.c (form.dstArg is.c 0).toNat 256).toOption = some 0x100 ∧ r.2.2 = []
       ∧ (∀ l ∈ lanesOf is.acting, r.1.lockedGlobal 0 (r.1.asroot 0) ((elementAddress form is 16 l).toNat % 2 ^ 52) 16 false = false)
       ∧ r.1.bindPhase ⟨0, 0, 0, false⟩ = .ok ⟨0, 0, 0⟩) :=
  ⟨⟨by decide, met (by decide), of_isOk (by decide)⟩, by decide, met (by decide), by rfl, by decide, by decide, by decide, by rfl⟩

/-! ### Engines -/

def oneRow (src dst : Side) : List Row := [⟨src, dst, 16⟩]
def copyOf (src dst : Side) : OpKind := .copy (oneRow src dst) [] ⟨0, 0x300, 0⟩ false none
/-- A copy from 0x200 to scratch 0x100, and one whose source no table maps. -/
def landing : OpKind := copyOf (.global 0x200) (.scratch 0 0x100)
def lost : OpKind := copyOf (.global 0x10000000000) (.scratch 0 0x100)
def stopped : Op := { opOf landing with fault := some (Trap.atAddr .pageFault 0x200 0) }

def trapOf {α : Type} (r : State × Except Trap α) : Option Trap :=
  match r.2 with
  | .ok _ => none
  | .error u => some u

theorem of_noTrap' {r : State × Option Trap} (h : noTrap r = true) : ∃ t, r = (t, none) := of_noTrap h

def landRow : Row := ⟨.global 0x200, .scratch 0 0x100, 16⟩
def lostRow : Row := ⟨.global 0x10000000000, .scratch 0 0x100, 16⟩

theorem witness_CopiesLand :
    (busy landing).ops.look 0 = some (opOf landing) ∧ (opOf landing).fault = none
    ∧ rowAt (oneRow (.global 0x200) (.scratch 0 0x100)) 0 0 = some (landRow, 0) ∧ mayLand [] landRow 0 0 16 = true
    ∧ landRow.toRead (fun _ => false) 0 16 = (0, 16) ∧ landRow.src.parts 0 16 = [(0, 16)]
    ∧ (∃ t parts, (busy landing).resolveParts 0 (opOf landing) landRow.src 0 [(0, 16)] = (t, .ok parts)
      ∧ ∃ v ds, t.resolveRows 0 (opOf landing) 0 16 [(0, landRow)] = (v, .ok ds))
    ∧ (∃ t u, (busy lost).resolveParts 0 (opOf lost) lostRow.src 0 [(0, 16)] = (t, .error u))
    ∧ (∃ t u, (busy landing).resolveRows 0 (opOf landing) 0 16 [(0, { landRow with dst := .global 0x10000000000 })] = (t, .error u))
    ∧ ((busy lost).copyFault 0 (opOf lost) (oneRow (.global 0x10000000000) (.scratch 0 0x100)) 0).2.map (·.cause.supervisor) = some true
    ∧ ((0 : Nat) ≤ 8 ∧ 8 < 0 + 9 ∧ 12 < landRow.bytes ∧ (landRow.src.address + 12) / 8 = (landRow.src.address + 8) / 8)
    ∧ ((opOf landing).ahead = [] ∧ (8 : Nat) ≤ 9 ∧ 9 + 2 ≤ 8 + (List.replicate 8 (some (7 : Byte))).length)
    ∧ (let c := { placedCtx with entries := [0] }
       let s : State := { withCtx (fun _ => c) with ops := [(0, stopped)] }
       s.ctxs.look 0 = some c ∧ s.ops.look 0 = some stopped ∧ stopped.fault = some (Trap.atAddr .pageFault 0x200 0)
       ∧ (c.entrySplit.orElse fun _ => (c.splits.head?).map Prod.fst) = some 0 ∧ s.ending c = false ∧ c.handler = none ∧ c.isActive = true) := by
  refine ⟨rfl, rfl, rfl, by decide, by decide, by decide, ⟨_, _, rfl, of_isOk (by decide)⟩, of_isError (by decide),
    of_isError (by decide), by decide, by decide, by decide, ?_⟩
  exact ⟨rfl, rfl, rfl, by decide, by decide, rfl, rfl⟩

/-- `vtopk` of the first element that the lanes hold, and the same row in scratch and in memory. -/
def vocabXL (mode k : Nat) : XL := { xlOf .f32 6 4 2 0 with mode := BitVec.ofNat 4 mode, imm := BitVec.ofNat 25 k }
/-- n is 2 (q2), on a part that has the unit. -/
def vocal : State := { withCtx (fun c => { c with sreg := [(2, 2)] }) with variant := .wz2 }
def ranking : Vocab := { Vocab.start 1 6 2 2 0 0 (some [3, 5]) none with n := 2 }

theorem witness_VocabularyOperations :
    (∀ mode ∈ [0, 1, 2], let form := formVocab (vocabXL mode 2) (.v 2 1) true
      form.ok = true ∧ Met form 12 vocal)
    ∧ (formVocab (vocabXL 1 0) .v1 true).ok = true ∧ Met (formVocab (vocabXL 1 0) .v1 true) 12 vocal
    ∧ (formVocab (vocabXL 2 0) .s1 true).ok = true ∧ Met (formVocab (vocabXL 2 0) .s1 true) 12 vocal
    ∧ laneSet (List.range 2) &&& ~~~theSplit.mask = 0 ∧ ({ here with variant := .wz1 } : State).hasVocab = false ∧ vocal.hasVocab = true ∧ vocal.vocabBusy 0 = false
    ∧ (∃ off, vocal.ownScratch placedCtx 0 8 = .ok off) ∧ canonical 0 = true
    ∧ vocal.rangesBlocked 0 [vocal.globalRange (issueOf (formVocab (vocabXL 0 2) (.v 2 1) true) 12 vocal) 0 8 false] = false
    ∧ (let s := busy (.vocab ranking)
       s.ops.look 0 = some (opOf (.vocab ranking)) ∧ s.ctxs.look 0 = some placedCtx
       ∧ (∃ t xs, s.vocabRow 0 (opOf (.vocab ranking)) ranking = (t, .ok xs))
       ∧ { ranking.consume 0 [3, 5] with blocks := 1 }.passOver = true) := by
  refine ⟨?_, by decide, met (by decide), by decide, met (by decide), by decide, by decide, by decide, by decide, ⟨_, rfl⟩, by decide,
    by decide, rfl, rfl, of_isOk (by decide), by decide⟩
  simp only [List.forall_mem_cons, List.not_mem_nil, false_implies, implies_true, and_true]
  exact ⟨⟨by decide, met (by decide)⟩, ⟨by decide, met (by decide)⟩, by decide, met (by decide)⟩

/-! ### Tiles and matrices -/

/-- s4 holds a control word: format 1, 32 rows; s5 the row 31. -/
def tiled : State := withCtx fun c => { c with sreg := [(4, 0x18000000), (5, 32)] }

theorem witness_TilesAreMoved :
    (∀ e ∈ [(formTset (xtOf 15 4 0 0 0), 12), (formTget (xtOf 6 15 0 0 0), 12), (((formTcb (xtOf 6 4 0 0 0)).withDst .t .none).withSrc1 .v1 .none, 12),
        (formTst (xtOf 6 5 4 0 0), 12), (formTld (xtOf 6 4 5 0 0), 12), (formTst (xtOf 6 0 4 0 0), 12), (formTld (xtOf 6 4 0 0 0), 12)],
      e.1.ok = true ∧ Met e.1 e.2 tiled)
    ∧ placedCtx.node.steal = false ∧ tiled.tileBusy 0 placedCtx 15 = false ∧ 0xFFFF#64 &&& ~~~theSplit.mask = 0
    ∧ badTileRow (issueOf (formTld (xtOf 6 4 5 0 0)) 12 tiled) 32 = true
    ∧ badTileRow (issueOf (formTld (xtOf 6 4 0 0 0)) 12 tiled) 31 = false
    ∧ (busy (.copy [] [] ⟨0, 0, 0⟩ false (some 15))).tileBusy 0 { placedCtx with fills := [(locT 15, .empty)] } 15 = true :=
  ⟨of_reached (by decide), by decide⟩

def mmaXT (m k : Nat) : XT := xtOf 6 4 5 m (16 * (k - 1))
/-- A tile of 32 rows of a format; one of metadata keeps the first two of every four elements. -/
def tileOf (fmt : Nat) : Tile :=
  { data := if fmt = 9 then (List.range 64).map fun i => (i, 0x44) else [], control := BitVec.ofNat 32 (fmt * 2 ^ 28 + 2 ^ 27), codebook := []
    badRows := [], badCodebook := false }
def armed : State := withCtx fun c => { c with tiles := [(4, tileOf 3), (5, tileOf 3), (7, tileOf 9)] }
def mmasXT : XT := xtOf 6 2 8 10 (1 * 2 ^ 23 + 3 * 2 ^ 19 + 3 * 2 ^ 15)
/-- A team whose allocation holds a ring of two slots: N is 3 (s10), the ring at 0, the barriers at 0x2000 (s8). -/
def streaming : State :=
  { withCtx (fun c => { c with sreg := [(8, 0x2000), (10, 3)], node := { c.node with scratch := 16384 } }) with
    teams := [(0, { placedTeam with scratch := 16384, allocated := 17408 })] }
/-- Two groups of the team, of which the first names both. -/
def paired : State := { withS0 3 with ctxs := [(0, { placedCtx with sreg := [(0, 3)] }), (1, { placedCtx with group := 1, loc := .active 0 1 })] }

theorem witness_MatrixOperationsCommit :
    (∀ e ∈ [(formMma (mmaXT 0 4) false, 12), (formMma (mmaXT 7 8) true, 12)], e.1.ok = true ∧ Met e.1 e.2 armed)
    ∧ (mmaXT 7 8).gang = false ∧ here.vectorSparse = true ∧ ({ here with variant := .wz2 } : State).vectorSparse = false
    ∧ badWide (issueOf (formMma (mmaXT 7 8) true) 12 armed) 3 3 6 = false
    ∧ shapeOk (matOpOf (mmaXT 0 32) 1 0 3 3) (tileOf 3) (tileOf 3) (tileOf 0) = true
    ∧ shapeOk (matOpOf (mmaXT 0 33) 1 0 3 3) (tileOf 3) (tileOf 3) (tileOf 0) = false
    ∧ shapeOk (matOpOf (mmaXT 7 8) 2 0 3 3) (tileOf 3) (tileOf 3) { tileOf 9 with data := [] } = true
    ∧ shapeOk (matOpOf (mmaXT 7 8) 3 0 3 3) (tileOf 3) (tileOf 3) (tileOf 9) = true
    ∧ armed.matrixWaits 0 (matOpOf (mmaXT 7 8) 3 0 3 3) = false
    ∧ (formMmas mmasXT).ok = true ∧ Met (formMmas mmasXT) 12 streaming
    ∧ ((formMmas mmasXT).arg (issueOf (formMmas mmasXT) 12 streaming).c 3 0).toNat = 3
    ∧ (pairOf mmasXT.fa mmasXT.fb).isSome = true
    ∧ ∃ r b, streaming.ringOf (issueOf (formMmas mmasXT) 12 streaming).c mmasXT.stages 0 0x2000 = .ok (r, b) :=
  ⟨of_reached (by decide), by decide, by decide, by decide, by decide, by decide, by decide, by decide, by decide, by decide,
    by decide, met (by decide), by decide, by decide, ⟨_, _, rfl⟩⟩

/-- Two groups of one team on core 0; s0 of the first names both. -/
def second : Ctx := { placedCtx with group := 1, loc := .active 0 1 }
def duo : State :=
  { here with
    ctxs := [(0, { placedCtx with sreg := [(0, 3)] }), (1, second)]
    teams := [(0, { placedTeam with groups := 2 })] }
/-- Both at the latch with one word, with tiles that make a shape. -/
def atLatch (c : Ctx) : Ctx :=
  { c with tiles := [(4, tileOf 3), (5, tileOf 3)], splits := c.splits.map fun e => (e.1, { e.2 with wait := .latch }) }
def arrival (n k : Nat) : Arrival :=
  { ctx := n, split := 0, words := .mma (mmaXT 0 k), op := { matOpOf (mmaXT 0 k) 1 0 3 3 with leader := 0 }, next := 0x4000C, gang := 3
    fpctl := 0 }
def gathered (k : Nat) : State :=
  { duo with
    ctxs := [(0, atLatch placedCtx), (1, atLatch second)]
    cores := [(0, { (here.core 0) with latch := [arrival 0 4, arrival 1 k] })] }
def arrivals (k : Nat) : List Arrival := [arrival 0 4, arrival 1 k]

theorem witness_GangsCommitTogether :
    (∀ e ∈ [(formSrcS (xtOf 0 0 0 0 0), 12), (formSrcS (xtOf 0 4 0 0 0), 12)], e.1.ok = true ∧ Met e.1 e.2 duo)
    ∧ gangGroups 3 = [0, 1] ∧ (∀ g ∈ [0, 1], ∃ e, duo.groupOf 0 g = some e ∧ duo.ownCore e.2 = duo.ownCore placedCtx)
    ∧ ((gathered 4).ctxs.look 0).isSome = true
    ∧ ([0, 1].map fun g => (gathered 4).arrivalOf 0 0 g) = (arrivals 4).map some
    ∧ ([0, 1].map fun g => (gathered 8).arrivalOf 0 0 g) = (arrivals 8).map some
    ∧ (∀ b ∈ arrivals 4, (gathered 4).arrivalWaits b = false) ∧ (∀ b ∈ arrivals 8, (gathered 8).arrivalWaits b = false)
    ∧ (∀ b ∈ arrivals 4, b.words = (arrival 0 4).words ∧ b.gang = 3 ∧ (gathered 4).arrivalOk b = true)
    ∧ (arrival 1 8).words ≠ (arrival 0 4).words := by
  refine ⟨of_reached (by decide), by decide, ?_, by decide⟩
  simp only [List.forall_mem_cons, List.not_mem_nil, false_implies, implies_true, and_true]
  exact ⟨⟨_, rfl, by decide⟩, ⟨_, rfl, by decide⟩⟩

def dense : MatOp := { matOpOf (mmaXT 0 4) 1 0 3 3 with members := [⟨0, 1, 1, 0, 3⟩] }
/-- A streaming operation of two stages of which `done` are consumed; its full barriers stand at 0x100 and 0x110. -/
def streamed (done : Nat) : MatOp :=
  { dense with kind := 4, ring := 0x1000, bars := 0x100, stages := 2, slots := 2, phases := [0, 0], done := done }
def streamAt (b : TBar) : State := (busy (.matrix (streamed 0))).setTbar 0 0x100 b

theorem witness_MatrixEngineWorks :
    (busy (.matrix dense)).matCurrent 0 = some (0, opOf (.matrix dense), dense) ∧ dense.kind ≠ 4
    ∧ (busy (.matrix (streamed 2))).matCurrent 0 = some (0, opOf (.matrix (streamed 2)), streamed 2) ∧ 2 ≤ (streamed 2).done
    ∧ (streamAt { idle with phase := 1 }).matCurrent 0 = some (0, opOf (.matrix (streamed 0)), streamed 0)
    ∧ (streamAt { idle with phase := 1 }).ops.look 0 = some (opOf (.matrix (streamed 0)))
    ∧ ((streamAt { idle with phase := 1 }).tbar 0 (streamed 0).fullBar).phase ≠ (streamed 0).awaitedPhase
    ∧ ((streamAt { idle with overrun := true }).tbar 0 (streamed 0).fullBar).overrun = true
    ∧ (streamAt idle).rangesBlocked 0 [⟨0, 0, true, 0, (streamed 0).slotAt, (streamed 0).slotAt + 4096, false⟩] = false := by decide

theorem witness_BatchesAreAwaited :
    (formMbatch (xtOf 6 0 0 0 0)).ok = true ∧ Met (formMbatch (xtOf 6 0 0 0 0)) 12 here ∧ (formSrcS (xtOf 0 0 0 0 0)).ok = true
    ∧ Met (formSrcS (xtOf 0 0 0 0 0)) 12 here ∧ Met (formSrcS (xtOf 0 0 0 0 0)) 12 (withS0 0x10000)
    ∧ (let s := withCtx fun c => { c with sreg := [(0, 1)], batchNo := 1, batches := [⟨1, 0⟩] }
       Met (formSrcS (xtOf 0 0 0 0 0)) 12 s ∧ s.batchDone 0 1 = true)
    ∧ (let m := { dense with members := [⟨0, 1, 1, 0, 3⟩] }
       let s := { withCtx (fun c => { c with sreg := [(0, 1)], batchNo := 1, batches := [⟨1, 0⟩] }) with ops := [(0, opOf (.matrix m))] }
       Met (formSrcS (xtOf 0 0 0 0 0)) 12 s ∧ s.batchDone 0 1 = false) :=
  ⟨by decide, met (by decide), by decide, met (by decide), met (by decide), ⟨met (by decide), by decide⟩, met (by decide), by decide⟩

/-- Block 30 as a pair (`W64`), and block 2 in format 7 (s8). -/
def wide : XT := xtOf 6 4 0 0 0x3E00
def stored : XT := xtOf 0 4 8 0 0x3E00
def packed : XT := xtOf 6 4 0 0 (7 * 2 ^ 14 + 2 * 2 ^ 8)
def poisonedBlocks : State := withCtx fun c => { c with accs := [(2, ⟨[], 1⟩), (30, ⟨[], 1⟩)] }

theorem witness_AccumulatorsAreMoved :
    (∀ s ∈ [here, poisonedBlocks], ∀ e ∈ [(formAccld wide, 12), (formAccst stored, 12), (formAcccvt packed, 12)],
      e.1.ok = true ∧ Met e.1 e.2 s)
    ∧ wide.block + 1 < placedCtx.node.accs ∧ badElements (issueOf (formAccld wide) 12 here) 0 1 = false
    ∧ badElements (issueOf (formAcccvt packed) 12 here) 0 4 = false
    ∧ (moveBlocks wide).any (fun b => here.blockTargeted 0 b || here.blockRead 0 b) = false
    ∧ (⟨[], 1⟩ : AccBlock).poisonedWord 0 = true ∧ (placedCtx.acc 2).poisonedWord 0 = false := by
  refine ⟨?_, by decide⟩
  intro s h
  simp only [List.mem_cons, List.not_mem_nil, or_false] at h
  rcases h with rfl | rfl <;> exact of_reached (by decide)

theorem witness_TilesAndBlocksAreZeroed :
    (formTzero (xtOf 15 0 0 0 0)).ok = true ∧ Met (formTzero (xtOf 15 0 0 0 0)) 12 here ∧ here.tileBusy 0 placedCtx 15 = false
    ∧ (formSrcS (xtOf 0 0 0 0 0)).ok = true ∧ Met (formSrcS (xtOf 0 0 0 0 0)) 12 (withS0 0x80000001)
    ∧ (∀ b ∈ [0, 31], (0x80000001#64).getLsbD b = true ∧ b < placedCtx.node.accs ∧ here.blockTargeted 0 b = false)
    ∧ (let s := withCtx fun c => { c with sreg := [(0, 0x80000001)], node := { c.node with accs := 31 } }
       Met (formSrcS (xtOf 0 0 0 0 0)) 12 s ∧ (issueOf (formSrcS (xtOf 0 0 0 0 0)) 12 s).c.node.accs ≤ 31) :=
  ⟨by decide, met (by decide), by decide, by decide, met (by decide), by decide, met (by decide), by decide⟩

/-! ### Trees, pairs and halos -/

/-- A tree descriptor at 0x50000 and a BH4 descriptor, whose root is a leaf of one primitive, at 0x51000; nodes 1
to 3 and leaf 1 at the origin. -/
def planted (s : State) : State :=
  poke s [(0x50002, 6), (0x50008, 4), (0x50012, 7), (0x50018, 4), (0x5001C, 2), (0x50022, 8), (0x51002, 9), (0x5100C, 1),
    (0x5100F, 0x80), (0x51010, 1), (0x60007, 0x80), (0x60008, 1), (0x70A00, 2), (0x71300, 3), (0x71C00, 1)]
def tree : Tree :=
  { addr := 0x50000, root := 0x60000, rootLog2 := 4, fmt := 0, bg := 0, nodePool := 0x70000, nodeCap := 4, leafPool := 0x80000, leafCap := 2 }
/-- Slot 7 binds the tree; q4 holds its address. -/
def bound : State := planted (withCtx fun c => { c with slots := [(7, tree)], sreg := [(4, 0x50000)] })

theorem witness_TreeInstructionsStart :
    (∀ s ∈ [here, bound], ∀ e ∈ [(formWalk (xtOf 6 4 0 0 0x77) 1 3 true, 12), (formVstencil (xtOf 6 4 0 0 0x007), 12),
        (formVsamp (xtOf 6 4 0 0 0x107) 1, 12), (formWalk (xtOf 16 4 0 0 7) 6 8 true, 12), (formWalk (xtOf 6 4 0 0 7) 2 3 true, 12),
        (formVact (xtOf 0 4 0 0 0x277) 2, 12), (formVtset (xtOf 7 4 0 0 0), 12)],
      e.1.ok = true ∧ Met e.1 e.2 s)
    ∧ (∃ t u, here.readTree 0 placedCtx 0x50000 = (t, .error u)) ∧ (bound.readTree 0 placedCtx 0x50000).2 = .ok tree
    ∧ placedCtx.slots.look 7 = none ∧ (bound.ctxs.look 0).bind (fun c => c.slots.look 7) = some tree := by
  refine ⟨?_, of_isError (by decide), by rfl, by decide⟩
  intro s h
  simp only [List.mem_cons, List.not_mem_nil, or_false] at h
  rcases h with rfl | rfl <;> exact of_reached (by decide)

def lookUp : Walk := { kind := 0, pat := 0, dst := 6, apred := 0, tree := tree, fpctl := 0, lanes := [(3, [0x1000, 2, 3])] }
def lostTree : Tree := { tree with root := 0x10000000000 }
/-- Planted memory with one operation in flight. -/
def working (k : OpKind) : State := { planted here with ops := [(0, opOf k)], nextId := 2 }
/-- Memory in which an insertion takes leaf 1, whose node is built. -/
def halfBuilt : State :=
  poke here [(0x50030, 1), (0x60007, 0x80), (0x60008, 1), (0x70A00, 2), (0x71300, 3)]
def outcomeOf (r : State × Except Trap Inserted) : Nat :=
  match r.2 with
  | .ok .busy => 0
  | .ok (.failed _) => 1
  | .ok (.found _ _) => 2
  | .error _ => 3
  | .ok (.holds _) => 4

theorem witness_TreeEnginesWork :
    (lookUp.lanes.filter fun e => (laneBit 3).getLsbD e.1) = [(3, [0x1000, 2, 3])]
    ∧ (∃ t r, (engWalk (opOf (.walk lookUp)) lookUp [0x1000, 2, 3]).go (working (.walk lookUp)) = (t, .ok r))
    ∧ (∃ t u, (engWalk (opOf (.walk lookUp)) { lookUp with tree := lostTree } [0x1000, 2, 3]).go (working (.walk lookUp)) = (t, .error u))
    ∧ (busy (.result [(3, some 5, 0)])).ops.look 0 = some (opOf (.result [(3, some 5, 0)]))
    ∧ outcomeOf ((engInsert (opOf landing) tree none 1 2 3).go (planted here)) = 2
    ∧ outcomeOf ((engInsert (opOf landing) tree none 1 2 3).go here) = 1
    ∧ outcomeOf ((engInsert (opOf landing) tree none 1 2 3).go (poke here [(0x60007, 0xC0)])) = 0
    ∧ outcomeOf ((engInsert (opOf landing) lostTree none 1 2 3).go here) = 3
    ∧ outcomeOf ((engInsert (opOf landing) tree none 1 2 3).go halfBuilt) = 4
    ∧ (∃ u p, (engActivity (opOf landing) tree 0 0x1000 2 3).go (planted here) = (u, .ok p))
    ∧ ∃ u x, (engActivity (opOf landing) lostTree 0 0x1000 2 3).go (planted here) = (u, .error x) :=
  ⟨by decide, of_isOk (by decide +kernel), of_isError (by decide +kernel), by decide, by decide +kernel, by decide +kernel,
    by decide +kernel, by decide +kernel, by decide +kernel, of_isOk (by decide +kernel), of_isError (by decide +kernel)⟩

/-- q4 holds the BH4 descriptor, q10 the resume block, s13 the null handle. -/
def pairing : State := planted (withCtx fun c => { c with sreg := [(4, 0x51000), (10, 0x52000)] })
def pairingAll : State := tables 0 2 pairing
def travXT : XT := xtOf 6 4 0 10 0x80000
def travIs : Issue := issueOf (formDtrav travXT) 12 pairingAll
def boxes : Hierarchy := { addr := 0x51000, tree := none, base := 0x90000, rootRef := 0x80000001, count := 1 }
def octets : Hierarchy := { addr := 0, tree := some tree, base := 0, rootRef := 0, count := 0 }
def traverse : Dtrav :=
  { dst := 6, hierA := boxes, hierB := octets, block := 0x52000, frame := 0, args := [], node := 0, prio := 0, self := false, stack := []
    reload := none, emitted := 0, order := 1 }

theorem witness_PairsAreTraversed :
    (formDtrav travXT).ok = true ∧ Met (formDtrav travXT) 12 pairingAll ∧ pairingAll.hasPairWalker = true
    ∧ ({ pairingAll with variant := .wz1 } : State).hasPairWalker = false
    ∧ Met (formDtrav travXT) 12 here ∧ (travXT.travArgs (formDtrav travXT) travIs).check = none
    ∧ ({ travXT.travArgs (formDtrav travXT) travIs with block := 0x52040 } : TravArgs).check ≠ none
    ∧ (∃ t h, (pairingAll.writeBack 0).travTargets travXT travIs (travXT.travArgs (formDtrav travXT) travIs) = (t, .ok h))
    ∧ pairingAll.refusesSpawn 0 = false
    ∧ (∃ u r, pairingAll.resumeDepth travXT travIs (travXT.travArgs (formDtrav travXT) travIs) = (u, .ok r))
    ∧ (busy (.dtrav traverse)).traversal 0 = some (0, opOf (.dtrav traverse), traverse)
    ∧ traverse.hierA.tree = none ∧ traverse.hierB.tree ≠ none :=
  ⟨by decide, met (by decide), by decide, by decide, met (by decide), by decide, by decide, of_isOk (by decide), by decide,
    of_isOk (by decide), by decide⟩

def haloForm : Form := formHalo (xtOf 0 6 4 2 7)
def postForm : Form := formHaloPost (xtOf 0 0 0 2 8)
def stepForm : Form := formStepb (xtOf 0 4 8 0 0)
def stepping (step : Nat) (poison : Bool) : State :=
  { withCtx (fun c => { c with sreg := if step = 0 then [] else [(8, BitVec.ofNat 32 step)] }) with
    mem := (if poison then [(10, 1)] else []) ++ here.mem }

theorem witness_HalosPostTheirSteps :
    postForm.ok = true ∧ Met postForm 12 here ∧ (∃ t pa, here.stepFrame (issueOf postForm 12 here) 0 2 = (t, .ok pa))
    ∧ haloForm.ok = true ∧ Met haloForm 12 here ∧ Met haloForm 12 bound
    ∧ (∃ t r, bound.readTree 0 placedCtx 0x50000 = (t, .ok r)) ∧ canonical 0x50000 = true
    ∧ stepForm.ok = true ∧ Met stepForm 12 (stepping 0 false) ∧ Met stepForm 12 (stepping 1 false) ∧ Met stepForm 12 (stepping 1 true)
    ∧ (∃ t m, (stepping 0 false).translate 0 placedCtx 0 0 = (t, .ok m)) ∧ (stepping 0 false).poisonedAt 0 = false
    ∧ (stepping 0 false).readHome 0 16 / 2 ^ 64 % 65536 = 0 ∧ (stepping 0 false).readHome 0 16 / 2 ^ 80 % 2 = 0
    ∧ (stepping 1 true).readHome 0 16 / 2 ^ 80 % 2 = 1
    ∧ (busy (.halo none [] 0 none 0 false)).ops.look 0 = some (opOf (.halo none [] 0 none 0 false)) :=
  ⟨by decide, met (by decide), of_isOk (by decide), by decide, met (by decide), met (by decide), of_isOk (by decide), by decide,
    by decide, met (by decide), met (by decide), met (by decide), of_isOk (by decide), by decide⟩

/-- What the search of a halo answers. -/
def foundOf (r : State × Except Trap HaloFound) : Nat :=
  match r.2 with
  | .ok .absent => 0
  | .ok .busy => 1
  | .ok (.holds _) => 2
  | .ok (.leaves _ _) => 3
  | .error _ => 4
/-- A second tree, of the same kind, whose leaf is not there yet; node and leaf pools lie like those of the first. -/
def replica : Tree := { tree with addr := 0x54000, root := 0x68000, nodePool := 0x90000, leafPool := 0xA0000 }
def twoTrees : State := poke (planted here) [(0x54030, 1), (0x68007, 0x80), (0x68008, 1), (0x90A00, 2), (0x91300, 3)]
/-- A halo of the leaf at the origin with both its entries. -/
def haloing (moved : Nat) (active : Bool) : State :=
  { busy (.halo (some (tree, tree)) [0, 0, 0] 0 none moved active) with
    ranges := [⟨0, 0, false, 0x10000, 0x80880, 0x81100, false⟩, ⟨0, 0, false, 0x10000, 0x90880, 0x91100, true⟩] }

theorem witness_HalosPostTheirSteps_parts :
    here.heldLeaf 0 false = none ∧ tree.fmt ≠ { tree with fmt := 1 }.fmt
    ∧ foundOf ((engHaloFind (opOf landing) tree tree [0, 0, 0] none).go here) = 0
    ∧ foundOf ((engHaloFind (opOf landing) tree replica [0, 0, 0] none).go twoTrees) = 2
    ∧ (haloing 0 false).heldLeaf 0 false = some 0x80880 ∧ (haloing 0 false).heldLeaf 0 true = some 0x90880
    ∧ 0 < tree.haloBytes
    ∧ (∃ t k, (engHaloPiece (opOf landing) tree 0x80880 0x90880 0).go (haloing 0 false) = (t, .ok k))
    ∧ ∃ t k, (engHaloMark (opOf landing) tree [0, 0, 0]).go (haloing tree.haloBytes true) = (t, .ok k) :=
  ⟨by decide, by decide, by decide, by decide +kernel, by decide, by decide, by decide, of_isOk (by decide +kernel), of_isOk (by decide +kernel)⟩

/-! ### The memory system, arms and scheduling -/

def flight (core : Nat) : Write := ⟨0, core, [(0x1000, 7)], 0, [0]⟩
def marked : Line := { data := [(3, 7)], valid := 8, marked := 8, marks := 1, handle := 2 }
/-- A fill of line 8 for a request of handle 2, and the lines that the L2 holds of its set. -/
def filling (l2 : SMap Nat) : State :=
  { here with merges := [⟨8, [⟨0, 2, none, []⟩]⟩], l2 := l2, handles := [(2, ⟨1, []⟩), (3, ⟨7, []⟩), (4, ⟨0, []⟩)] }

theorem witness_WritesFillsAndLateProducers :
    (let s : State := { here with writes := [flight 0, flight 1, flight 0] }
     s.writes[0]? = some (flight 0) ∧ s.writes[2]? = some (flight 0)
     ∧ (¬ ∃ e ∈ s.writes.take 1, e.core = 1 ∧ ∃ x ∈ e.bytes, ∃ y ∈ (flight 1).bytes, x.1 = y.1)
     ∧ (∃ e ∈ s.writes.take 2, e.core = 0 ∧ ∃ x ∈ e.bytes, ∃ y ∈ (flight 0).bytes, x.1 = y.1)
     ∧ ∀ m ∈ s.merges, ∀ x ∈ (flight 0).bytes, x.1 / 128 ≠ m.line)
    ∧ (let s : State := { here with cores := [(0, { here.core 0 with l1 := [(32, marked)] })] }
       (s.core 0).l1.look 32 = some marked ∧ marked.marked ≠ 0 ∧ s.requestsFit 0 1 = true)
    ∧ backlog.requestsFit 0 1 = false
    ∧ (let s := busy (.load false 6 .b32 [] 0 [])
       s.ops.look 0 = some (opOf (.load false 6 .b32 [] 0 [])) ∧ s.clock ≤ (opOf landing).born + 2 ^ 24)
    ∧ (opOf landing).born + 2 ^ 24 < ({ here with clock := 2 ^ 24 + 1 } : State).clock
    ∧ (OpKind.load false 6 .b32 [laneAt 0x1000] 0 []).dests ≠ [] := by
  refine ⟨by decide, by decide, ?_, by decide⟩
  exact decide_eq_false fun h => overfull h (backlog_full rfl) Nat.one_pos

/-- An L2 that holds its 384 MiB, all of it lines of a handle of priority 7. -/
def brimful : State :=
  { here with l2 := List.replicate Config.l2Lines (33, 3), handles := [(3, ⟨7, []⟩)], writes := [flight 0] }
theorem brimful_look : brimful.l2.look 32 = none := by
  show SMap.look (List.replicate Config.l2Lines (33, 3)) 32 = none
  induction Config.l2Lines with
  | zero => rfl
  | succ n ih => simpa [List.replicate_succ, SMap.look] using ih
theorem brimful_lines (q : Nat → Bool) (n : Nat) (h : q 33 = true) :
    (((List.replicate n ((33, 3) : Nat × Nat)).filter fun e => q e.1).map Prod.fst) = List.replicate n 33 := by
  simp [h]
theorem brimful_on : brimful.l2On (brimful.homeOf (128 * 32)).1 = List.replicate Config.l2Lines 33 :=
  brimful_lines (fun k => (brimful.homeOf (128 * k)).1 == (brimful.homeOf (128 * 32)).1) _ (by decide)
theorem brimful_full : brimful.setFull 32 = true := by
  have n : brimful.l2.length = Config.l2Lines := List.length_replicate
  simp only [State.setFull, brimful_on, n, List.length_replicate, le_refl, decide_true, Bool.or_true, Bool.and_true]
  decide

theorem weakest_mem {es : List (Nat × Nat)} {e : Nat × Nat} (h : weakest es = some e) : e ∈ es := by
  induction es generalizing e with
  | nil => simp [weakest, leastBy] at h
  | cons a l ih =>
    simp only [weakest, leastBy] at h ih
    split at h
    · simp_all
    · rename_i b hb
      have := ih hb
      split at h <;> simp_all

/-- No room can be made there, whichever set the line has. -/
theorem brimful_no_way : brimful.makeWay (brimful.homeOf (128 * 32)).1 (brimful.setOf 32) = none := by
  have all : ∀ n ∈ brimful.setOf 32, brimful.lineOwner n = some (3, 7) := by
    intro n h
    have : n = 33 := by
      simp only [State.setOf, brimful_on, List.mem_filter] at h
      exact (List.mem_replicate.1 h.1).2
    subst this
    rfl
  have owners : ∀ o ∈ (brimful.setOf 32).map brimful.lineOwner, o = some (3, 7) := by
    intro o h
    obtain ⟨n, hn, rfl⟩ := List.mem_map.1 h
    exact all n hn
  have known : ((brimful.setOf 32).map brimful.lineOwner).any Option.isNone = false := by
    rw [List.any_eq_false]
    intro o h
    simp [owners o h]
  simp only [State.makeWay, known, Bool.false_eq_true, if_false]
  split
  · rfl
  · rename_i h p e
    have m := weakest_mem e
    obtain ⟨o, ho, q⟩ := List.mem_filterMap.1 m
    rw [owners o ho] at q
    simp only [id, Option.some.injEq, Prod.mk.injEq] at q
    simp [← q.2]

theorem witness_WritesFills_brimful :
    brimful.writes[0]? = some (flight 0) ∧ (flight 0).bytes.head? = some (0x1000, 7) ∧ (0x1000 : Nat) / 128 = 32
    ∧ brimful.l2.look 32 = none ∧ brimful.setFull 32 = true
    ∧ brimful.makeWay (brimful.homeOf (128 * 32)).1 (brimful.setOf 32) = none :=
  ⟨rfl, rfl, rfl, brimful_look, brimful_full, brimful_no_way⟩

/-- Sets of which a line belongs to no handle, and all to handles whose weakest has priority 0, 1 and 7. -/
theorem witness_WritesFills_fills :
    (∀ l2 ∈ [[(9, 0), (10, 3)], [(9, 3), (10, 4)], [(9, 2), (10, 3)], [(9, 3), (10, 3)]],
      let s := filling l2
      ((s.merges.find? fun m => m.line == 8).bind fun m => (m.requests.head?).map Request.handle) = some 2
      ∧ ∀ n ∈ [9, 10], n ≠ 8 ∧ s.l2.look n ≠ none ∧ (s.homeOf (128 * n)).1 = (s.homeOf (128 * 8)).1)
    ∧ (filling [(9, 0), (10, 3)]).lineOwner 9 = none
    ∧ ([9, 10].map (filling [(9, 3), (10, 4)]).lineOwner = [(3, 7), (4, 0)].map some ∧ weakest [(3, 7), (4, 0)] = some (4, 0))
    ∧ ([9, 10].map (filling [(9, 2), (10, 3)]).lineOwner = [(2, 1), (3, 7)].map some ∧ weakest [(2, 1), (3, 7)] = some (2, 1))
    ∧ [9, 10].map (filling [(9, 3), (10, 3)]).lineOwner = [(3, 7), (3, 7)].map some ∧ weakest [(3, 7), (3, 7)] = some (3, 7) := by decide

/-- The tables with an arm that the host may fire, and with one for messages (tag 0) with a ring of two slots. -/
def hostArm : State := tables 0 0 here
def linkArm (inUse : Bool) : State :=
  let s := tables 0 1 here
  if inUse then { s with graphs := s.graphs ++ [(5, { placedGraph with linkSlot := some (0, 0) })] } else s

def deliveredAs (d : Delivery) : Nat :=
  match d with
  | .refused => 0
  | .waits => 1
  | .fires _ _ _ => 2

theorem memories_canonical :
    ∀ s ∈ [here, tables 3 2 here, planted here, hostArm, linkArm false, pairingAll, stepping 1 true], Memory.wf s.mem = true := by decide

theorem witness_ArmsFire :
    here.linkUp = true ∧ here.recordsFit 0 1 = true
    ∧ ({ here with poison := [(here.armPa 0 0) / 32] } : State).armHome 0 0 = none
    ∧ (hostArm.armHome 0 0).map (fun a => a.fires 0 (hostArm.kindHome 0 a.node)) = some true
    ∧ (here.armHome 0 0).map (fun a => a.fires 0 (here.kindHome 0 a.node)) = some false
    ∧ 1 < here.links ∧ (here.port 1).up = true ∧ (here.port 1).held = []
    ∧ deliveredAs ((poke here [(here.armPa 0 0 + 2, 3)]).delivery 0 0) = 0 ∧ deliveredAs ((linkArm true).delivery 0 0) = 1
    ∧ deliveredAs ((linkArm false).delivery 0 0) = 2 := by decide

def plainRecord : Record := { node := 0, frame := 0, flags := 0, args := [], graph := 0, resumes := none }
def onWay (arm : Option Nat) : Sent := { number := 0, die := 0, source := 0, issuer := 0, record := plainRecord, arm := arm }
def aBin (n : Nat) : Bin := { die := 0, node := 0, graph := 0, records := List.replicate n plainRecord, timer := 0 }
def aDeposit : Deposit := { die := 0, node := 0, key := 5, record := plainRecord, born := 0 }
def aScan (place : Nat) : Scan :=
  { die := 0, record := { plainRecord with args := [BitVec.ofNat 32 place, 0] }, tree := none, place := [], swept := [] }
/-- A node with a timer of 16 cycles and a count of 1. -/
def timed (records clock : Nat) : State :=
  { poke (tables 0 2 here) [] with
    clock := clock, bins := [aBin records], deposits := [aDeposit]
    mem := ((tables 0 2 here).mem.takeWhile fun e => e.1 ≠ here.nodePa 0 0 + 28) ++ [(here.nodePa 0 0 + 24, 16), (here.nodePa 0 0 + 28, 1)] }
/-- The planted tree, whose leaf is active. -/
def active : State := poke (planted here) [(0x70950, 1), (0x71250, 1), (0x71B50, 1)]
/-- How a scan goes on. -/
def scannedAs (s : State) (place : Nat) : Nat :=
  match ((engScan ((aScan place).op 9) (aScan place)).go s).2 with
  | .error _ => 0
  | .ok (_, none) => 1
  | .ok (_, some _) => 2

theorem witness_BinsAndScans :
    (let s : State := { tables 0 2 here with sent := [onWay none, onWay (some 3)] }
     s.sent[1]? = some (onWay (some 3)) ∧ (∀ e ∈ s.sent.take 1, (onWay (some 3)).arm = none ∨ e.arm ≠ (onWay (some 3)).arm)
     ∧ s.forSweep (onWay none) = false ∧ (tables 2 2 here).forSweep (onWay none) = true)
    ∧ (timed 1 0).binOf 0 0 0 = some (aBin 1) ∧ (timed 0 15).bins = [aBin 0]
    ∧ (((timed 0 16).nodeHome 0 0).toOption.map fun d => (d.timer, d.count)) = some (16, 1)
    ∧ ((timed 0 15).deposits.find? fun d => d.die == 0 && d.node == 0 && d.key.toNat == 5) = some aDeposit
    ∧ ({ here with scans := [(9, aScan 0)] } : State).scans.look 9 = some (aScan 0)
    ∧ scannedAs here 0x50001 = 0 ∧ scannedAs (planted here) 0x50000 = 1 ∧ scannedAs active 0x50000 = 2 := by
  refine ⟨by decide, by decide, by decide, by decide, by decide, by decide, by decide, by decide +kernel, by decide +kernel⟩

/-- Two overdue bins of one graph, of which the first holds a record that ends it. -/
def twoBins : State := { timed 0 527 with bins := [{ aBin 0 with records := [{ plainRecord with flags := 0xFF }] }, { aBin 1 with node := 1 }] }

theorem witness_BinsAndScans_overdue :
    (timed 1 527).bins = [aBin 1] ∧ (aBin 1).timer + 16 + 511 ≤ (timed 1 527).clock
    ∧ ((timed 1 526).clock < (aBin 1).timer + 16 + 511)
    ∧ (twoBins.binOf 0 0 0).map (·.timer) = some 0 ∧ ((twoBins.nodeHome 0 0).toOption.map fun d => d.timer) = some 16
    ∧ twoBins.bins.length = 2
    ∧ { aBin 1 with node := 1 } ∉ (twoBins.launchBin { aBin 0 with records := [{ plainRecord with flags := 0xFF }] } 1).bins := by decide

def waitingTeam : Waiting :=
  { die := 0, nodeIndex := 0, node := placedCtx.node, graph := 0, prio := 0, teamNo := 1, records := [plainRecord], sweep := none
    since := 0, aged := false }
def queued (clock : Nat) : State := { here with placeQ := [waitingTeam], clock := clock }
def overGraph (compl : DWord) : State := { here with ctxs := [], graphs := [(0, { placedGraph with compl := compl })] }

theorem witness_TeamsArePlaced :
    ((queued 0).nextTeam 0).isSome = true ∧ ((queued 65536).nextTeam 0).isSome = true ∧ (waitingTeam.cores 5) = [(5, 1)]
    ∧ (queued 0).scratchFree 5 1024 (waitingTeam.node.allocation 1) = true ∧ ((queued 0).wakeCores [5]).2 = true
    ∧ (0, waitingTeam) ∈ (queued 65536).ranked 0
    ∧ ((({ here with placeQ := [{ waitingTeam with aged := true }] } : State).ranked 0).map fun e => e.2.aged) = [true]
    ∧ ((queued 0).ranked 0).head? = some (0, waitingTeam) ∧ waitingTeam.since + 2 ^ 16 ≤ (queued 65536).clock
    ∧ (here.ctxs.look 0) = some placedCtx ∧ placedCtx.splits.look 0 = some theSplit
    ∧ here.graphOver 0 = false ∧ (overGraph 0).graphOver 0 = true ∧ (overGraph 0x2000).graphOver 0 = true
    ∧ inHost 0x2000 = false ∧ here.inDevice 0x2000 = true ∧ inHost 0x800000002000 = true ∧ placedGraph.hostLost = false := by
  refine ⟨by decide +kernel, by decide +kernel, by decide⟩

/-- Context 1 in the shadow bank, of a higher priority than the one in the active bank. -/
def shadowed (prio clock : Nat) : State :=
  { here with ctxs := [(0, placedCtx), (1, { placedCtx with group := 1, loc := .shadow 0 0, prio := prio })], clock := clock }
def swapping (clock : Nat) : State :=
  { shadowed 1 clock with cores := [(0, { Core.fresh with swap := some ⟨0⟩ })] }
def parkedCtx : Ctx := { placedCtx with splits := [(0, { theSplit with wait := .frame 0x100 })] }
def leavingCtx : Ctx := { placedCtx with loc := .leaving 0 0 false }
def lodgedCtx : Ctx := { placedCtx with loc := .lodged 1 }
def stealable : Ctx :=
  { placedCtx with
    loc := .lodged 1, node := { placedCtx.node with steal := true }, splits := [(0, { theSplit with wait := .released })] }
/-- The record with which that context goes on. -/
def freed : State :=
  { here with ctxs := [(0, stealable)], released := [(0, { plainRecord with flags := 8, resumes := some (.split 0 0) })] }
def spinner : Ctx := { placedCtx with lastSpin := 65536 }

theorem witness_ContextsChangePlaces :
    ((shadowed 1 0).canSwap 0 = true ∧ (shadowed 1 0).readyIn 0 false = [(0, placedCtx)]
      ∧ ((shadowed 1 0).readyIn 0 true).map (fun e => e.2.prio) = [1])
    ∧ (let s : State := { shadowed 0 256 with ctxs := [(0, parkedCtx), (1, { placedCtx with group := 1, loc := .shadow 0 0 })] }
       s.readyIn 0 false = [] ∧ (s.core 0).lastReady + 256 ≤ s.clock ∧ s.readyIn 0 true ≠ [])
    ∧ ((swapping 47).core 0).swap = some ⟨0⟩ ∧ ((swapping 48).core 0).swap = some ⟨0⟩
    ∧ (let s : State := { shadowed 0 65536 with ctxs := [(0, spinner), (1, { placedCtx with group := 1, loc := .shadow 0 0 })] }
       youngest ((s.bank 0 false).filter fun e => e.2.isActive && e.2.spinning s.clock
         && (s.ctxs.filter fun o => o.2.mayRunOn 0 && o.2.agedOut s.clock).any fun o => o.2.prio == e.2.prio) = some 0)
    ∧ ({ here with ctxs := [(0, parkedCtx)] } : State).allParked parkedCtx = true
    ∧ ({ here with ctxs := [(0, leavingCtx)] } : State).ctxs.look 0 = some leavingCtx ∧ leavingCtx.fitsPlace = true
    ∧ (∃ e ∈ (busy (.load false 6 .b32 [laneAt 0x1000] 0 [])).ops, e.2.aims 0 = true) ∧ (∀ e ∈ here.ops, e.2.aims 0 = false)
    ∧ 0 < 288 * here.dies
    ∧ (let s : State := { here with ctxs := [(0, lodgedCtx)] }
       s.wantsReturn lodgedCtx = true ∧ s.open 0 = true ∧ s.teamHere lodgedCtx = true
       ∧ s.bankTakes 0 (s.returnBank 0 lodgedCtx 0) lodgedCtx = true ∧ 0 ∈ s.freeSlots 0 (s.returnBank 0 lodgedCtx 0)
       ∧ (s.wakeCore 0).2 = true)
    ∧ here.nextReleased 0 = none ∧ (freed.nextReleased 0).map Prod.fst = some 0
    ∧ (let u := freed.resumeRecord 0
       stealable.isLodged = true ∧ stealable.home ≠ 3 ∧ dieOfCore 3 = stealable.die ∧ u.open 3 = true ∧ 0 ∈ u.freeSlots 3 false
       ∧ u.bankTakes 3 false stealable = true ∧ (u.ctxs.look 0).map u.wantsReturn = some true
       ∧ ((u.scratchStarts 3).find? fun off => u.scratchFree 3 off 5120) = some 0 ∧ (u.wakeCore 3).2 = true) := by decide

/-- A team out of the banks whose space a retired core wants. -/
def unwanted (ops : SMap Op) : State :=
  { here with ctxs := [(0, lodgedCtx)], cores := [(0, { Core.fresh with retired := true })], ops := ops }
/-- The same, since it asked. -/
def asking (clock : Nat) : State :=
  { unwanted [(0, opOf landing)] with teams := [(0, { placedTeam with evicting := some 0 })], clock := clock }

theorem witness_TeamsAreEvicted :
    ((unwanted []).teams.look 0 = some placedTeam ∧ placedTeam.evicted = none ∧ (unwanted []).teamQuiet 0 = true
      ∧ (unwanted []).wantsSpace placedTeam = true ∧ ∀ e ∈ (unwanted []).ops, (unwanted []).holdsTeam 0 placedTeam e.2 = false)
    ∧ (∃ e ∈ (unwanted [(0, opOf landing)]).ops, (unwanted [(0, opOf landing)]).holdsTeam 0 placedTeam e.2 = true)
    ∧ (let s := asking (2 ^ 22)
       s.teamQuiet 0 = true ∧ s.wantsSpace placedTeam = true
       ∧ s.ops.filter (fun e => s.holdsTeam 0 placedTeam e.2) = [(0, opOf landing)])
    ∧ here.teamQuiet 0 = false
    ∧ (let t := { placedTeam with evicted := some (poolCore 0) }
       let s : State := { here with ctxs := [(0, lodgedCtx)], teams := [(0, t)] }
       ∀ c ∈ t.cores, s.open c = true ∧ s.scratchFree c t.offset t.allocated = true ∧ s.storesTake 0 t c = true) := by
  refine ⟨by decide, by decide⟩

/-! ### The package and the whole machine -/

/-- An invalidation queue at 0x3000 with one entry; a send ring at 0x4000 whose first slot holds a status. -/
def invalidating : State := { here with host := { invqbase := 0x3000, invqsize := 16, invqtail := 1, invqdone := 0 } }
def sending (status : Byte) (pay : List Host.Cell) : State :=
  { here with
    mem := (if status = 0 then [] else [(0x4026, status)]) ++ here.mem ++ pay
    ports := [(0, { Port.fresh with srbase := 0x4000, srsize := 16 })] }
def sentMessage : Message := { slot := 0x4000, tag := 0, header := [], mac := [], payload := [] }
def withPort (p : Port) (clock : Nat) : State := { here with ports := [(0, p)], clock := clock }

theorem witness_TheHostActs :
    here.linkUp = true ∧ 0x1000 + 8 ≤ here.capacity ∧ (∀ i < 8, here.poisonedAt (0x1000 + i) = false)
    ∧ (0x7FFFFFFF#32).getLsbD 31 = false ∧ (0x80000000#32).getLsbD 31 = true ∧ 8191 < 8192 * here.dies
    ∧ inHost 0x800000001000 = true
    ∧ here.invqEntry = none ∧ invalidating.invqEntry = some 0x3000 ∧ invalidating.poisonedAt 0x3000 = false := by decide

theorem witness_PortsSendTheirRings :
    0 < here.links ∧ here.ringSlot 0 = none ∧ (sending 0 []).ringSlot 0 = some 0x4000 ∧ (sending 0 []).readHome (0x4000 + 38) 1 ≠ 3
    ∧ (sending 3 []).readHome (0x4000 + 38) 1 = 3 ∧ (sending 3 []).slotSends 0x4000 = true
    ∧ (let s := sending 3 []
       ({ s with poison := [0x4000 / 32] } : State).ringSlot 0 = some 0x4000
       ∧ ({ s with poison := [0x4000 / 32] } : State).slotSends 0x4000 = false)
    ∧ ((withPort { Port.fresh with unacked := [sentMessage] } 0).port 0).unacked = [sentMessage]
    ∧ ((withPort { Port.fresh with unacked := [sentMessage] } 0).port 0).up = true
    ∧ ((withPort { Port.fresh with up := false, since := 0, restarts := 1 } (2 ^ 24)).port 0).up = false
    ∧ ((withPort { Port.fresh with up := false, since := 0, restarts := 1 } (2 ^ 24)).port 0).restarts ≠ 0
    ∧ (here.port 0).srbase = 0 ∧ ((sending 0 []).port 0).srbase ≠ 0 := by decide

/-- A handle change is on its way to every die. -/
def changing : State := busy (.handle 5 none none)

theorem witness_LinksAndMemoryDegrade :
    ((here.packets.find? fun p => p.source == 0 && p.target == 1 && p.number == 0).isNone = true
      ∧ (changing.packets.find? fun p => p.source == 0 && p.target == 1 && p.number == 0).isSome = true)
    ∧ 0 < here.boundaryCount ∧ (here.boundary 0).failed = false ∧ (here.boundary 0).broken = false
    ∧ ({ Boundary.fresh with off := (List.range 13).map fun k => (0, k) } : Boundary).broken = true
    ∧ ({ Boundary.fresh with replays := [⟨0, 5, 15⟩] } : Boundary).failures 0 5 = 15 ∧ (here.boundary 0).failures 0 5 < 15
    ∧ (here.boundary 0).buffered 0 < 4096
    ∧ (0, 23) ∉ (here.boundary 0).off ∧ (here.boundary 0).recalibrating = none
    ∧ here.inDevice (32 * 100) = true ∧ 3 < 2 * here.dies ∧ 127 ∉ here.channels ∧ 127 ∉ here.copying
    ∧ (∃ m ∈ ({ here with channels := [100] } : State).channels ++ here.copying, m / 32 = 127 / 32)
    ∧ 127 ∈ ({ here with copying := [127] } : State).copying := by decide

theorem witness_LinksAndMemoryDegrade_packets :
    ({ changing with hinge := [(1, 0, [])] } : State).packetSeen 0 1 0 = some (1, 0, [])
    ∧ ({ changing with hinge := [(1, 0, [some 5, none])] } : State).packetSeen 0 1 0 = some (1, 0, [some 5, none])
    ∧ changing.packetSeen 0 1 0 = none := by decide

theorem witness_LinksAndMemoryDegrade_flits :
    ((changing.packets.find? fun p => p.source == 0 && p.target == 1 && p.number == 0).map fun p =>
      (changing.packetSeen p.source p.target p.number).isNone && (changing.way p.source p.target).1.contains 0
        && (changing.way p.source p.target).2.1 == 0) = some true
    ∧ (changing.boundary 0).failed = false ∧ (changing.boundary 0).buffered 0 ≤ 4096
    ∧ (changing.hinge.filter fun e => e.1 == 4 * 0 + 1).length ≤ 65536 := by decide

def emptyCore (clock : Nat) (k : Core) : State := { State.reset with clock := clock, cores := [(5, k)] }

theorem witness_CoresSleepAndFail :
    5 < 288 * State.reset.dies ∧ ((emptyCore 64 Core.fresh).core 5).power = .c0 ∧ (emptyCore 64 Core.fresh).anyReady 5 = false
    ∧ (emptyCore 64 Core.fresh).coreEmpty 5 = true
    ∧ ((emptyCore 200 { Core.fresh with power := .gating 0 true }).core 5).power = .gating 0 true
    ∧ (emptyCore 200 { Core.fresh with power := .gating 0 true }).teamsOn 5 = []
    ∧ (((emptyCore 0 { Core.fresh with power := .c2 }).wakeDie 0).core 5).power = .c2
    ∧ (((emptyCore 0 { Core.fresh with power := .gating 0 false }).wakeDie 0).core 5).power = .gating 0 false
    ∧ here.needsCore 0 = true ∧ (Core.fresh).failed = false ∧ (Core.fresh).retired = false
    ∧ (16 * dieOfCore 5 + 15) ∉ State.reset.spares ∧ ((emptyCore 0 { Core.fresh with retired := true }).core 5).retired = true
    ∧ (emptyCore 0 Core.fresh).residents 5 = [] ∧ (emptyCore 0 Core.fresh).teamsOn 5 = []
    ∧ 3 < State.reset.dies ∧ 3 ∉ State.reset.sleeping ∧ State.reset.engineBusy 3 = false
    ∧ 3 ∈ ({ State.reset with sleeping := [3] } : State).sleeping
    ∧ here.ctxs.look 0 = some placedCtx ∧ placedCtx.home = 0 ∧ here.teamHere placedCtx = true := by decide

/-- Every core of die 0 without power. -/
def gated : State := { State.reset with cores := (List.range 288).map fun i => (i, { Core.fresh with power := .c2 }) }

theorem look_range {α : Type} (k : α) (n : Nat) : ∀ m i, i < n → (SMap.look ((List.range' m n).map fun i => (i, k)) (m + i)) = some k := by
  induction n with
  | zero => intro m i h; omega
  | succ n ih =>
    intro m i h
    rw [List.range'_succ, List.map_cons, SMap.look]
    rcases i with _ | i
    · simp
    · have := ih (m + 1) i (by omega)
      rw [show m + (i + 1) = m + 1 + i by omega, if_neg (by omega), this]

theorem witness_CoresSleepAndFail_die :
    0 < gated.dies ∧ 0 ∉ gated.sleeping ∧ (∀ i < 288, (gated.core (288 * 0 + i)).power = .c2) ∧ gated.engineBusy 0 = false := by
  refine ⟨by decide, by decide, fun i h => ?_, by decide⟩
  have := look_range { Core.fresh with power := .c2 } 288 0 i h
  rw [Nat.zero_add, ← List.range_eq_range'] at this
  simp only [State.core, gated, SMap.at, Nat.mul_zero, Nat.zero_add]
  rw [this]
  rfl

def noFirmware : Firmware := { State.reset.firmware with verified := [false, false] }
def halfSwitched : Firmware := { State.reset.firmware with switched := [0, 1, 2, 3, 4, 5] }

theorem witness_FirmwareStarts :
    noFirmware.started = none ∧ State.reset.firmware.started = some 0
    ∧ ({ State.reset.firmware with verified := [false, true] } : Firmware).started = some 1
    ∧ State.reset.firmware.active < 2 ∧ State.reset.firmware.versions.length = 2 ∧ State.reset.firmware.digests.length = 2
    ∧ State.reset.firmware.verified.length = 2 ∧ 6 < firmwareUnits ∧ noFirmware.verified.getD 1 false = false
    ∧ ({ State.reset.firmware with fuses := 1 } : Firmware).versions.getD 1 0 < 1 ∧ State.reset.copying = []
    ∧ State.reset.firmware.verified.getD 1 false = true ∧ State.reset.firmware.fuses ≤ State.reset.firmware.versions.getD 1 0
    ∧ (insertNat State.reset.firmware.switched 6).length < firmwareUnits ∧ firmwareUnits ≤ (insertNat halfSwitched.switched 6).length := by decide

theorem witness_DecodeUndoesEncode :
    (Instr.sadd xc).wf = true ∧ encode (.sadd xc) = some [0xB8000000#32, 0#32, 0#32] ∧ (Instr.cpasGs shaped).wf = true
    ∧ (encode (.cpasGs shaped)).isSome = true
    ∧ (let i := Instr.sadd { xc with h := { hdr with dst := 64 } }
       i.wf = false ∧ encode i = some [0xB8400000#32, 0#32, 0#32] ∧ i.form ≠ none)
    ∧ decodeWords [0xB8000000#32, 0#32, 0#32] = .ok (.sadd xc) := by
  refine ⟨by decide, by decide, by decide, by decide, by decide, by rfl⟩

/-- `smov` s0, 5 at the program counter: an issue opportunity chooses its split and fetches its words. -/
def movWords : List Word := [0x5E000000#32, 5#32, 0#32]
def moving : State := State.reset.withFetchWord 96 (0x5E000000 + 5 * 2 ^ 32)

def begun : State := { moving with agenda := [], cur := none }
def chosen : State := begun.passOver 0 0 0 0
def woken : State := (chosen.wake 0 0).restartDue 0 0

theorem witness_StepRunsTheDecodedInstruction :
    moving.agenda = [.issue 0 0] ∧ begun.choose 0 0 = some (0, 0)
    ∧ (chosen.ctxs.look 0).map (fun c => chosen.entryFor c 0) = some false ∧ chosen.dueTrap 0 0 = none
    ∧ (woken.ctxs.look 0).map woken.ending = some false
    ∧ ((woken.ctxs.look 0).bind fun c => (c.splits.look 0).map fun sp => (woken.fetch 0 c sp).2.toOption) = some (some movWords)
    ∧ decodeWords movWords = .ok (.smovB32Base { base with lit := some 5 })
    ∧ (∃ r, decodeWords [0#32] = .error r)
    ∧ (∃ t m, here.translate 0 placedCtx 0x40000 3 = (t, .ok m)) ∧ (here.core 0).icache.look (0x40000 / 128) = none
    ∧ (here.bins = [] ∧ here.deposits = [] ∧ here.ports = [] ∧ here.unsettled = []) :=
  ⟨by decide, by decide, by decide, by decide, by decide, by decide, by rfl, ⟨_, rfl⟩, of_isOk (by decide), by decide⟩

theorem witness_NothingStops :
    here.issuer ≠ none ∧ Instr.hostLinkTrained.form = none ∧ (∀ a n w, Instr.hostLinkTrained ≠ .hostBarAccess a n w)
    ∧ Instr.hostLinkTrained ≠ .illegalEncoding ∧ Instr.hostLinkTrained ≠ .fetchTrap := by
  refine ⟨by decide, rfl, ?_, ?_, ?_⟩ <;> intros <;> intro h <;> cases h

/-- A step from memory in canonical form to a next state. -/
theorem witness_MemoryStaysCanonical :
    Memory.wf (State.reset.withFetchWord 96 (0x5E000000 + 5 * 2 ^ 32)).mem = true ∧ ∃ t, step moving = .next t :=
  ⟨by decide, ⟨_, rfl⟩⟩

def handled_ (kernel : DWord) : Ctx := { placedCtx with node := { placedCtx.node with traph := kernel } }

theorem witness_HandlersAreEnteredAndLeft :
    here.ctxs.look 0 = some placedCtx ∧ placedCtx.splits.look 0 = some theSplit ∧ placedCtx.handler = none
    ∧ (Trap.of .illegal).cause.supervisor = false ∧ placedCtx.node.traph = 0 ∧ (handled_ 0x40100).node.traph ≠ 0
    ∧ (inside.ctxs.look 0).bind (fun c => c.handler) = some plainHandler
    ∧ ({ plainHandler with split := 1 } : Handler).split ≠ 0 := by decide

theorem witness_RegisterInstructionsKeepTheRest :
    (Instr.add (xvOf .b32 6 4 2 0)).form = some (formV2 (xvOf .b32 6 4 2 0) true false 0 false)
    ∧ Met (formV2 (xvOf .b32 6 4 2 0) true false 0 false) 12 here ∧ writesOnlyBits (.add (xvOf .b32 6 4 2 0)) = true
    ∧ Met (formV2 (xvOf .f32 6 4 2 0) true false srcs2 true) 12 here
    ∧ ∀ fl, enabledFlags placedCtx.special.fpctl fl = 0 :=
  ⟨rfl, met (by decide), rfl, met (by decide), none_enabled⟩

theorem witness_NumbersAreRoundedOnce :
    Ty.f32.float = true ∧ Stands Ty.f32.fmt.fbits ⟨false, 1, 0, false⟩ 1
    ∧ FVal.rational (Ty.f32.fmt.value false 0x3F800000) = some 1 := by
  refine ⟨rfl, ⟨by decide, one_ne_zero, by simp, by simp, by simp⟩, ?_⟩
  rw [show Ty.f32.fmt.value false 0x3F800000 = .fin false 0x800000 (-23) by decide]
  norm_num [FVal.rational, rational]

theorem witness_NullHandleIsNeverAllocated : ∃ t h, here.allocFrame placedCtx 0 false = (t, some h) := by
  obtain ⟨-, -, t, hs, h, n⟩ := witness_FramesAreAllocated
  rcases r : here.allocFrame placedCtx 0 false with ⟨u, _ | x⟩
  · simp [State.allocFrames, r] at h
  · exact ⟨u, x, rfl⟩

/-! ### Further clauses of the statements above -/

/-- Every flag is enabled, v4 holds a signalling NaN in lane 0, and s8 and v8 an address that is no multiple of 4. -/
def alarmed : State := withCtx fun c =>
  { c with special := { c.special with fpctl := 0x1F0 }, v := [(64 * 2, 0x7F800001), (64 * 4, 0x7F800001), (64 * 8, 0x40002)], sreg := [(8, 0x40002)] }
def alarm (form : Form) : Issue := issueOf form 12 alarmed

theorem witness_FloatTrapsWriteNothing_lanes :
    (let f := xlOf .f32 6 4 0 0
     let lanes := tabulate 16 fun l => some (Ty.f32.low ((formRedux f).arg (alarm (formRedux f)).c 1 l))
     Met (formRedux f) 12 alarmed
     ∧ enabledFlags 0x1F0 (laneTree .f32 (fpEnv 0x1F0 .rne) 0 6 lanes).2 ≠ 0)
    ∧ (let f := xlOf .f32 6 4 0 0
       let x := fun l => Ty.f32.low ((formScan f).arg (alarm (formScan f)).c 1 l)
       Met (formScan f) 12 alarmed
       ∧ enabledFlags 0x1F0 (scanChain .f32 (fpEnv 0x1F0 .rne) 0 x none (List.range 16)).2 ≠ 0)
    ∧ (let one := formV1 (xvOf .f32 6 4 0 0) true srcs1 true
       let f := xvOf .f32 6 4 0 0
       Met one 12 alarmed ∧ (Ty.f32.fmt.rint (f.env (alarm one).c) (f.fp one (alarm one).c 1 0)).2 ≠ 0
       ∧ (Ty.f32.fmt.ex2 false (f.fp one (alarm one).c 1 0)).2 ≠ 0)
    ∧ (let two := formBase2 { base with dst := 6, src1 := 4, src2 := 2 } .f32 false
       let f := xvOf .f32 6 4 2 0
       Met two 4 alarmed ∧ (Ty.f32.fmt.minMax false true (f.fp two (alarm two).c 1 0) (f.fp two (alarm two).c 2 0)).2 ≠ 0) :=
  ⟨⟨met (by decide), by decide⟩, ⟨met (by decide), by decide⟩, ⟨met (by decide), by decide⟩, met (by decide), by decide⟩

/-- `jmp` and `ret` to an address that is no multiple of 4. -/
theorem witness_BranchesReachTheirTargets_misaligned :
    Met jumpForm 12 alarmed ∧ Met retForm 12 alarmed ∧ (jumpForm.arg (alarm jumpForm).c 1 0).toNat % 4 ≠ 0
    ∧ (retForm.arg (alarm retForm).c 1 0).toNat % 4 ≠ 0 := ⟨met (by decide), met (by decide), by decide⟩

/-- The reorder unit of die 0 is full; a task whose frame is open is still awaited. -/
def fullUnit : State := { tables 3 2 here with deposits := List.replicate Config.depositRoom aDeposit }
theorem fullUnit_full : fullUnit.depositCount 0 = Config.depositRoom := by
  simp [State.depositCount, fullUnit, aDeposit]
def awaiting : State :=
  let c := { placedCtx with node := { placedCtx.node with kind := .lanes }, owned := [⟨0, 0x100, false⟩] }
  { framed .open with ctxs := [(0, c)] }

theorem witness_QueuesAndReorderUnit_full :
    Met reordForm 12 fullUnit ∧ Config.depositRoom < fullUnit.depositCount 0 + (lanesOf 0xFFFF).length
    ∧ (awaiting.awaitTasks 0 [0]).2 = false := by
  refine ⟨met (by decide), ?_, by decide⟩
  rw [fullUnit_full]
  decide

theorem witness_AtomicNewValues_signed :
    Ty.s32.float = false ∧ Ty.s32.signed = true ∧ 2 ^ 32 - 1 < 2 ^ Ty.s32.width ∧ 0 < 2 ^ Ty.s32.width := by decide

/-- An engine writes the sector that a prefetch names; a core that has no room for a request. -/
def engineWrites : State := { here with ranges := [⟨0, 0, false, 0x10000, 0, 32, true⟩] }
def pfXM : XM := { inGlobal with h := header .b32 0 0 4 0 }
/-- The lanes of a prefetch that name what an engine writes; an address that is the same within 52 bits and not canonical names nothing. -/
def locksOf (s : State) : List Nat :=
  let is := issueOf (formPf pfXM) 12 s
  match pfXM.prefetched is (lanesOf is.acting) s with
  | (t, pas) => (pas.map Prod.fst).filter (pfXM.prefetchLocked is t)
def astray : State := { engineWrites with ctxs := [(0, { placedCtx with sreg := [(5, 0xFFF00000)] })] }

theorem witness_CachesAreDirected_prefetch :
    Met (formPf pfXM) 12 engineWrites ∧ pfXM.handle placedCtx = some 0
    ∧ (locksOf engineWrites).head? = some 0 ∧ locksOf here = [] ∧ Met (formPf pfXM) 12 astray ∧ locksOf astray = []
    ∧ here.outstanding 0 + 1 ≤ Config.requestRoom ∧ Config.requestRoom < backlog.outstanding 0 + 1
    ∧ (here.freeHandleFrom 4096 (Config.freeChoice here.free)).isSome = true := by
  refine ⟨met (by decide), by decide, by decide, by decide, met (by decide), by decide, by decide,
    (by have := backlog_full (t := backlog) rfl; omega), ?_⟩
  have next : ∀ n x, here.freeHandleFrom (n + 1) x = if x % 4096 != 0 then some (x % 4096) else here.freeHandleFrom n (x % 4096 + 1) := by
    intro n x
    simp only [State.freeHandleFrom, show here.handles = [] from rfl, show here.ops = [] from rfl, SMap.look, Option.isNone_none,
      List.all_nil, Bool.and_true]
  rw [next 4095, next 4094]
  generalize Config.freeChoice here.free % 4096 = x
  by_cases h : x = 0 <;> simp [h]

/-- Every handle is in use. -/
def noHandle : State := { here with handles := (List.range' 1 4095).map fun i => (i, ⟨1, []⟩) }
theorem witness_CachesAreDirected_full : noHandle.freeHandleFrom 4096 (Config.freeChoice noHandle.free) = none := by
  have used : ∀ n x, noHandle.freeHandleFrom n x = none := by
    intro n
    induction n with
    | zero => intro x; rfl
    | succ n ih =>
      intro x
      rw [State.freeHandleFrom, ih]
      by_cases h : x % 4096 = 0
      · simp [h]
      · have look := look_range (⟨1, []⟩ : Handle) 4095 1 (x % 4096 - 1) (by omega)
        rw [show 1 + (x % 4096 - 1) = x % 4096 by omega] at look
        simp [show noHandle.handles.look (x % 4096) = some ⟨1, []⟩ from look]
  exact used _ _

/-- A pair of cores at its barrier. -/
theorem witness_BarriersHold_pair :
    (let s := withCtx fun c => { c with node := { c.node with pair := true } }
     Met (formBar xa) 12 s ∧ (s.ctxs.look 0).map (fun c => c.node.pair) = some true)
    ∧ (let s : State := { cutOff with teams := [(0, boundaryPair)] }
       s.teams.look 0 = some boundaryPair ∧ s.reachable 0 (s.beside 0) = false)
    ∧ (busy (.tbarrive 0 0 (some 2) 16)).ops.look 0 = some (opOf (.tbarrive 0 0 (some 2) 16)) ∧ idle.phase ≠ 2 :=
  ⟨⟨met (by decide), by decide⟩, by decide⟩

/-- A shaped copy whose scratch offset, in s14, is beyond its field. -/
def farRow : Shaped := { row with soff := 0, sreg := 11, subst := 0b0001#4 }
def farOff : State := withCtx fun c => { c with sreg := [(2, 16), (4, 0x200), (14, 0x40001)] }

theorem witness_CopiesStart_bounds :
    reachesB (farRow.form .q) 20 farRow.registers farOff (issueOf (farRow.form .q) 20 farOff) = true
    ∧ ∃ d, farRow.shape (issueOf (farRow.form .q) 20 farOff).c = some d ∧ 2 ^ 18 ≤ d.soff :=
  ⟨by decide, _, rfl, by decide⟩

/-- Two vocabulary operations of one die: after the first has had a block, the second's turn comes. -/
theorem witness_VocabularyOperations_turns :
    (let s : State := { busy (.vocab ranking) with ops := [(0, opOf (.vocab ranking)), (1, opOf (.vocab ranking))] }
     s.vocabNext 0 = some 0 ∧ ({ s with vocabLast := [(0, 1)] } : State).vocabNext 0 = some 1)
    ∧ (∃ t u, (busy (.vocab { ranking with captured := none, row := 0x10000000000 })).vocabRow 0 (opOf landing)
      { ranking with captured := none, row := 0x10000000000 } = (t, .error u))
    ∧ { ranking with n := 600 }.passOver = false
    ∧ ([] : List (Word × Nat)).Pairwise (fun a b => vocabRank b.1 ≤ vocabRank a.1) :=
  ⟨by decide, of_isError (by decide), by decide, List.Pairwise.nil⟩

/-- Ganged forms of two groups whose tiles make a shape; one group has ended, or the leader. -/
def ganged : XT := { mmaXT 0 4 with imm := (mmaXT 0 4).imm ||| 0x10000000#29 }
def member_ (g : Nat) : Ctx :=
  { placedCtx with
    group := g, loc := .active 0 g, tiles := [(4, tileOf 3), (5, tileOf 3)], special := { placedCtx.special with gang := 3 } }
def gangOf (ctxs : SMap Ctx) : State := { duo with ctxs := ctxs }
def gangForm (leads : Bool) : Form := if leads then formMma ganged false else (formMma ganged false).withSrc2 .t .none

theorem witness_GangsCommitTogether_forms :
    ganged.gang = true ∧ (member_ 0).special.gang ≠ 0
    ∧ (let s := gangOf [(0, member_ 0), (1, member_ 1)]
       (s.gangLeader (member_ 0)).map Prod.fst = some 0 ∧ (gangForm true).ok = true ∧ Met (gangForm true) 12 s
       ∧ s.gangBroken (member_ 0) = false ∧ shapeOk (matOpOf ganged 1 0 3 3) (tileOf 3) (tileOf 3) (tileOf 0) = true
       ∧ s.matrixWaits 0 (matOpOf ganged 1 0 3 3) = false
       ∧ badWide (issueOf (gangForm true) 12 s) 3 3 6 = false)
    ∧ (let s := gangOf [(0, member_ 0)]
       s.gangBroken (member_ 0) = true ∧ Met (gangForm true) 12 s)
    ∧ (let s := gangOf [(0, member_ 1)]
       s.gangLeader (member_ 1) = none ∧ Met (gangForm false) 12 s
       ∧ shapeA (matOpOf ganged 1 0 3 0) (tileOf 3) (tileOf 0) = true) :=
  ⟨by decide, by decide, ⟨by decide, by decide, met (by decide), by decide⟩,
    ⟨by decide, met (by decide)⟩, by decide, met (by decide), by decide⟩

/-- An operation of one member, in its context, with its k-groups; without errors in its operands. -/
theorem witness_MatrixEngineWorks_groups :
    (let s : State := { armed with ops := [(0, opOf (.matrix { dense with tileA := 4, tileB := 5 }))] }
     let m := { dense with tileA := 4, tileB := 5 }
     ∃ c, s.ctxs.look 0 = some c ∧ s.ops.look 0 = some (opOf (.matrix m)) ∧ m.members = [⟨0, 1, 1, 0, 3⟩]
       ∧ s.operandTiles 0 m c = (tileOf 3, tileOf 3, Tile.fresh) ∧ (pairOf (tileOf 3).fmt (tileOf 3).fmt).isSome = true
       ∧ m.errorRows (tileOf 3) (tileOf 3) Tile.fresh = [] ∧ (tileOf 3).rows ≤ 32) :=
  ⟨_, rfl, rfl, rfl, by decide⟩

/-- A store through the cluster window at its target's ports; a store in scratch with a load in flight. -/
theorem witness_StoresChangeTheirOwnBytes_window :
    here.poison = [] ∧ here.windowTrap 0 4 1 false [(atPort 0).at_] = none
    ∧ (busy (.window 1 false 0 .b32 .add .rne 0 [atPort 0] false)).ops.look 0 =
      some (opOf (.window 1 false 0 .b32 .add .rne 0 [atPort 0] false))
    ∧ (∀ l ∈ [atPort 0], ∃ core off, l.at_.place = .scratch core off)
    ∧ (∀ e ∈ here.ops, e.2.ctx = 0 → ∀ op ty rnd fpctl ls fl, e.2.kind ≠ .atomic op ty rnd fpctl ls none fl false)
    ∧ Met (formStore inScratch true) 12 (busy (loadOf []))
    ∧ (inScratch.access (issueOf (formStore inScratch true) 12 (busy (loadOf []))) 1 false true (busy (loadOf []))).2 =
      .ok [{ lane := 0, place := .scratch 0 0, va := 0, tlb := none }] := by
  refine ⟨by decide, by decide, rfl, ?_, ?_, met (by decide), by rfl⟩
  · intro l h
    simp only [List.mem_cons, List.not_mem_nil, or_false] at h
    exact h ▸ ⟨0, 0, rfl⟩
  · intro e he
    exact absurd he (by simp [here, State.place, State.reset])

/-! ### The clauses of the second review -/

/-- A graph whose supervisor block is at 0x3000: with a handler at 0x40000 and a ring of sixteen records, without a handler, and where no
block can be read; and a context of it. -/
def supered (super : DWord) (cells : List Host.Cell) : State :=
  { poke here cells with graphs := [(0, { placedGraph with super := super })] }
def superCells : List Host.Cell := [(0x3002, 4), (0x300A, 5), (0x3010, 16)]
def superOf (s : State) (va : DWord) : Super := ((s.superEntry 0 placedCtx va).2.toOption).getD ⟨0, 0, 0, 0⟩

theorem witness_HandlersAreEnteredAndLeft_supervisor :
    (Trap.of .pageFault).cause.supervisor = true ∧ placedCtx.handler = none
    ∧ (∃ u b, (supered 0x3000 superCells).superEntry 0 placedCtx 0x3000 = (u, .ok b))
    ∧ (superOf (supered 0x3000 superCells) 0x3000).handler = 0x40000 ∧ (superOf (supered 0x3000 superCells) 0x3000).fring = 0x50000
    ∧ (superOf (supered 0x3000 [(0x3010, 16)]) 0x3000).handler = 0
    ∧ (∃ u x, (supered 0x3020 superCells).superEntry 0 placedCtx 0x3020 = (u, .error x))
    ∧ (∃ u m, (supered 0x3000 superCells).translate 0 placedCtx 0x50000 1 = (u, .ok m))
    ∧ ((supered 0x3000 superCells).translate 0 placedCtx 0x50000 1).1.poison = []
    ∧ (∃ u x, (supered 0x3000 superCells).translate 0 placedCtx 0x10000000000 1 = (u, .error x))
    ∧ (((supered 0x3000 superCells).writeFault 0 placedCtx (superOf (supered 0x3000 superCells) 0x3000) (Trap.of .pageFault) 0 0 0).1.ctxs.look
      0).isSome = true :=
  ⟨by decide, by decide, of_isOk (by decide), by decide, by decide, by decide, of_isError (by decide),
    of_isOk (by decide), by decide, of_isError (by decide), by decide⟩

/-- Nothing follows a step by itself on that machine; an access beyond its memory, with the link up, and one within. -/
theorem witness_StepRunsTheDecodedInstruction_after :
    here.bins = [] ∧ here.deposits = [] ∧ here.placeQ = [] ∧ here.ports = [] ∧ here.boundaries = [] ∧ here.packets = []
    ∧ here.unsettled = [] ∧ here.conts = [] ∧ (here.ctxs.flatMap fun e => e.2.parkedRecords e.1) = [] ∧ here.sleeping = []
    ∧ here.writes = [] ∧ 0 < Config.depositRoom ∧ here.merges = [] := by decide

theorem witness_NothingStops_host :
    here.linkUp = true ∧ inHost here.capacity = false ∧ here.capacity < here.capacity + 8 ∧ 0x1000 + 8 ≤ here.capacity
    ∧ partsOf .hostLinkTrained = none := by decide

/-- A core without room for one more request: a gather, a scatter-add. -/
theorem witness_RoomForRequests :
    Met (formGath (xaOf .b32 6 4 2 0)) 12 backlog ∧ Met scatterForm 12 backlog ∧ Config.requestRoom < backlog.outstanding 0 + 1 :=
  ⟨met (by decide), met (by decide), by have := backlog_full (t := backlog) rfl; omega⟩

/-- A shaped copy of more than 2^24 bytes; a row gather of which a lane names an address that no table maps, and one of which an engine
writes a row. -/
def hugeRow : Shaped := { row with dim0 := 0xFFFF, dim1 := 0xFFFF }
def lostGather : State := withCtx fun c => { c with sreg := [(4, 0), (5, 0x100), (6, 0x100)] }
def gatherOn (s : State) : State × List Row × List (Nat × Trap) :=
  let form := formGathRow gatherRow
  let is := issueOf form 12 s
  s.gatherRows is 0 0x100 16 (elementAddress form is 16) (lanesOf is.acting)

theorem witness_CopiesStart_limits :
    reachesB (hugeRow.form .q) 20 hugeRow.registers copying (issueOf (hugeRow.form .q) 20 copying) = true
    ∧ ((hugeRow.shape (issueOf (hugeRow.form .q) 20 copying).c).map fun d => decide (d.soff < 2 ^ 18 ∧ 2 ^ 24 < d.row * d.dim1)) = some true
    ∧ Met (formGathRow gatherRow) 12 lostGather ∧ (gatherOn lostGather).2.2 ≠ []
    ∧ (let s : State := { copying with ranges := [⟨0, 9, false, 0x10000, 0x200, 0x210, true⟩] }
       (gatherOn s).2.2 = [] ∧ (gatherOn s).1.lockedGlobal 0 ((gatherOn s).1.asroot 0) 0x200 16 false = true) :=
  ⟨by decide, by decide, met (by decide), by decide⟩

/-- The members of a gang whose tiles have changed since they arrived. -/
theorem witness_GangsCommitTogether_changed :
    (let s : State := { gathered 4 with ctxs := [(0, atLatch placedCtx), (1, { atLatch second with tiles := [] })] }
     ([0, 1].map fun g => s.arrivalOf 0 0 g) = (arrivals 4).map some ∧ (∀ b ∈ arrivals 4, s.arrivalWaits b = false)
     ∧ (∀ b ∈ arrivals 4, b.words = (arrival 0 4).words ∧ b.gang = 3)
     ∧ ((arrivals 4).filter fun b => !s.arrivalOk b) ≠ []) := by decide

/-- A list of two entries with equal values, and one of a single better entry. -/
theorem witness_VocabularyOperations_ranks :
    (let before := fun a b : Word × Nat => vocabRank b.1 < vocabRank a.1 ∨ (vocabRank b.1 = vocabRank a.1 ∧ a.2 < b.2)
     ([(3, 0), (3, 1)] : List (Word × Nat)).Pairwise before ∧ (∀ x ∈ ([(3, 0), (3, 1)] : List (Word × Nat)), x.2 < (3, 2).2)
     ∧ rankInto 2 (3, 2) [(3, 0), (3, 1)] = [(3, 0), (3, 1)]) := by decide

/-- A split parked for a phase of a barrier, for a batch, and for a register. -/
theorem witness_BarriersHold_parked :
    ((parkedAt (.phase 0 0 0)).splitOf 0 0).map (·.wait) = some (.phase 0 0 0)
    ∧ ((parkedAt (.batch 1 0x4000C)).splitOf 0 0).map (·.wait) = some (.batch 1 0x4000C)
    ∧ ((parkedAt (.fill [locV 4 3])).splitOf 0 0).map (·.wait) = some (.fill [locV 4 3]) := by decide

/-- A group with a lane in an active slot belongs to the team, and one that is leaving it. -/
theorem witness_TeamsAreEvicted_held :
    (∃ e ∈ here.members 0, e.2.holdsActive = true) ∧ leavingCtx.holdsActive = true
    ∧ ({ placedCtx with loc := .leaving 0 0 true } : Ctx).holdsActive = false := by decide

/-- A leaf that the core's TLB holds, marked dirty or not. -/
theorem witness_Translations_touched :
    (let t : TlbEntry := ⟨0x10000, 1, 0, 0x6F, 0x20000⟩
     ((held false).heldEntry 0 t).leaf.getLsbD 7 = false ∧ ((held true).heldEntry 0 t).leaf.getLsbD 7 = true
     ∧ ∃ e ∈ ((held false).core 0).tlb, t.same e = true) := by decide

/-- Zeros of both signs, 1 and −1 in FP32. -/
theorem witness_NumbersAreRoundedOnce_signs :
    (let val := fun p : Nat => Ty.f32.fmt.value false p
     let neg := fun p : Nat => match val p with
      | .fin n _ _ => n
      | _ => false
     FVal.rational (val 0) = some 0 ∧ FVal.rational (val 0x80000000) = some 0 ∧ neg 0 ≠ neg 0x80000000
     ∧ FVal.rational (val 0xBF800000) = some (-1) ∧ (1 : ℚ) * 1 + -1 = 0 ∧ neg 0x3F800000 ≠ neg 0xBF800000) := by
  simp only [show Ty.f32.fmt.value false 0 = .fin false 0 (-149) by decide,
    show Ty.f32.fmt.value false 0x80000000 = .fin true 0 (-149) by decide,
    show Ty.f32.fmt.value false 0x3F800000 = .fin false 0x800000 (-23) by decide,
    show Ty.f32.fmt.value false 0xBF800000 = .fin true 0x800000 (-23) by decide]
  norm_num [FVal.rational, rational]

/-- The registers that `wrsr` writes, at the ends of their ranges, other registers, and selections with and without a meaning. -/
theorem witness_SpecialRegisters_written :
    (∀ n ∈ [0x09, 0x0A, 0x11, 0x18, 0x1F], (n ∈ [0x09, 0x0A, 0x11] ∨ 0x18 ≤ n ∧ n ≤ 0x1F)
      ∧ ∃ m, m ≠ n ∧ (m ≤ 0x11 ∨ 0x18 ≤ m ∧ m ≤ 0x1F))
    ∧ (0x70000030#32 : Word).extractLsb' 0 16 ∈ [0x0020#16, 0x0030#16] ∧ (0x70000031#32 : Word).extractLsb' 0 16 = 0x0031#16
    ∧ ((0x70000030#32 : Word).extractLsb' 28 3).toNat = 7
    ∧ ((0x14#32 : Word).extractLsb' 0 3).toNat ≤ 4 ∧ 4 < ((0x15#32 : Word).extractLsb' 0 3).toNat := by
  refine ⟨?_, by decide⟩
  intro n h
  refine ⟨?_, if n = 0 then 1 else 0, ?_, ?_⟩
  · revert n; decide
  · split <;> omega
  · split <;> omega

/-- An atomic whose split waits for it, with a last lane in memory or in scratch, and with another lane behind it. -/
def atomicOf (ret : Option Nat) (lanes : List AtomicLane) : OpKind := .atomic .add .n32 .rne 0 lanes ret 0 false
def awaitsOp (k : OpKind) : State := { busy k with ctxs := [(0, { placedCtx with splits := [(0, { theSplit with wait := .op 0 })] })] }
def inWindowOf : OpKind := .window 2 false 6 .n32 .add .rne 0 [atPort 0] true

theorem witness_AtomicsCompleteAndPerform_lands :
    (∀ ret ∈ [some 6, none], ∀ a ∈ [oneAdd, atPort 8], ∀ rest ∈ [[], [atPort 16]],
      let s := awaitsOp (atomicOf ret (a :: rest))
      s.ops.look 0 = some (opOf (atomicOf ret (a :: rest))) ∧ (opOf (atomicOf ret (a :: rest))).fault = none
      ∧ (s.ctxs.look 0).bind (fun c => (c.splits.look 0).map (·.wait)) = some (.op 0)
      ∧ a.at_.lane < 64 ∧ 6 + Ty.n32.regs ≤ 256 ∧ s.merges = [] ∧ s.writes = [] ∧ (s.core 0).l1 = [])
    ∧ (∀ s : State, s = awaitsOp (atomicOf (some 6) [oneAdd]) ∨ s = awaitsOp (atomicOf none [atPort 8]) → ∀ o, o = opOf inWindowOf →
      atomicReads s o oneAdd ∧ atomicReads s o (atPort 8))
    ∧ oneAdd.at_.place = .mem 0x1000 ∧ 0x1000 % 128 + Ty.n32.width / 8 ≤ 128 ∧ 0x107C % 128 + Ty.n32.width / 8 ≤ 128
    ∧ (atPort 8).at_.place = .scratch 0 8 ∧ (atPort 8).at_.tlb = none
    ∧ (busy inWindowOf).ops.look 0 = some (opOf inWindowOf)
    ∧ (busy inWindowOf).windowTrap (opOf inWindowOf).graph Ty.n32.bytes 2 false [(atPort 0).at_] = none := by
  refine ⟨by decide, ?_, by decide⟩
  rintro s (rfl | rfl) o rfl <;> exact ⟨by rfl, by rfl⟩

/-- A barrier at the ends of its fields, and the arrivals that complete a phase, miss bytes, or find more than they expect. -/
def fullBar : TBar :=
  { phase := 15, pendArr := 2 ^ 20 - 1, arrCnt := 2 ^ 20 - 1, overrun := true, poison := true, bytes := -(2 ^ 47), next := 2 ^ 31 - 1 }
theorem witness_BarriersHold_arrivals :
    TBarFits idle ∧ TBarFits fullBar ∧ 1 < fullBar.pendArr ∧ idle.overrun = false ∧ idle.pendArr = 1
    ∧ 0 < idle.bytes + (16 : Nat) ∧ ({ idle with bytes := -16 } : TBar).bytes + (16 : Nat) = 0
    ∧ ({ idle with bytes := -17 } : TBar).bytes + (16 : Nat) < 0 := by
  simp [TBarFits, idle, fullBar]

/-- Landings in each case of the phase to which the copy is bound, and copies whose last byte has landed or not. -/
theorem witness_CopiesLand_parts :
    (∀ m ∈ here.merges, ∀ i < 16, (0x1000 + i) / 128 ≠ m.line) ∧ (∀ x, Side.scratch 0 0x100 ≠ .global x)
    ∧ here.ctxs.look (opOf landing).ctx = some placedCtx
    ∧ (let b : TBar := { idle with bytes := 16 }
       b.overrun = false ∧ -(2 ^ 47) ≤ b.bytes - 16 ∧ -(2 ^ 31) ≤ b.next - 16 ∧ (16 : Int) ≤ b.bytes ∧ b.pendArr ≠ 0)
    ∧ (let b : TBar := { idle with bytes := 16, pendArr := 0 }
       b.bytes = 16 ∧ b.bytes < 17 ∧ b.phase = 3)
    ∧ landedBytes [(0, 8)] < rowBytes (oneRow (.global 0x200) (.scratch 0 0x100))
    ∧ rowBytes (oneRow (.global 0x200) (.scratch 0 0x100)) ≤ landedBytes [(0, 8), (8, 8)] := by
  refine ⟨by simp [here, State.place, State.reset], by simp, rfl, by decide, by decide, by decide, by decide⟩

/-- Teams of each kind: two groups, of which one launches on the other core of a pair, tasks in lanes, a leaf, and a block. -/
def teamOf (kind : NodeKind) (width : Nat) (pair : Bool) (n : Nat) (sweep : Option (List Word × Tree)) : Waiting :=
  { waitingTeam with
    node := { placedCtx.node with kind := kind, width := width, pair := pair }, records := List.replicate n plainRecord, sweep := sweep }
theorem witness_TeamsArePlaced_records :
    (teamOf .uniform 64 false 2 none).node.width ≤ 64
    ∧ (teamOf .uniform 16 true 2 none).node.groupsFor 2 = 2 ∧ (teamOf .uniform 16 true 2 none).records[1]? = some plainRecord
    ∧ ((teamOf .uniform 16 true 2 none).cores 4).map Prod.fst = [4, 5]
    ∧ (teamOf .lanes 2 false 3 none).node.groupsFor 3 = 2 ∧ (teamOf .lanes 2 false 3 none).records[1 * 2 + 0]? = some plainRecord
    ∧ (teamOf .sweep 16 false 1 (some ([7], tree))).node.kind = .sweep
    ∧ (teamOf .sweep 16 false 1 (some ([7], tree))).records.head? = some plainRecord
    ∧ (teamOf .reorder 64 false 64 none).records.length ≤ 64 ∧ (teamOf .reorder 64 false 64 none).records[63]? = some plainRecord := by
  decide

/-- A report to a frame of its own die and to one of another. -/
theorem witness_TasksReport_dies :
    (0x100#32 : Word).toNat / 2 ^ 30 = placedCtx.die ∧ (0x40000100#32 : Word).toNat / 2 ^ 30 ≠ placedCtx.die
    ∧ (tasked true 0x40000100 0).taskFrame 0 = 0x40000100 := by decide

/-- An arrival, a frame's child count, a queue entry and a copy on their way to another die; a packet that the destination has seen, with
a response and without; a flit that has failed 14 times; and packets that cross boundary 0. -/
def firstPacket (s : State) (b : Nat) : Option Packet := s.packets.find? fun p => p.source == 0 && p.target == b
theorem witness_LinksAndMemoryDegrade_performed :
    (∀ k ∈ [OpKind.tbarrive 288 0x300 none 1, .fdone [(0, 0x40000100)], .push 1 [], copyOf (.global 0x200) (.scratch 0 0x100)],
      ((firstPacket (busy k) 1).map fun p => (p.reply, (busy k).packetOp p)) = some (false, some (0, opOf k)))
    ∧ (({ changing with boundaries := [(0, { Boundary.fresh with replays := [⟨0, 5, 3⟩] })] } : State).boundary 0).failures 0 5 < 15
    ∧ (changing.sendFlits.boundary 0).replays ≠ [] := by
  refine ⟨by decide, by decide, by decide⟩

/-- A lane that the list of `vtopk` does not reach is empty. -/
theorem witness_VocabularyOperations_lanes :
    (let f := vocabXL 0 2
     let form := formVocab f (.v 2 1) true
     let s : State := { withCtx (fun c => { c with sreg := [(2, 2)], fills := [(locV 6 5, .empty)] }) with variant := .wz2 }
     Reaches form 12 [] s (issueOf form 12 s) (vocabLanes f 1 2 (issueOf form 12 s))
     ∧ (s.ctxs.look 0).map (fun c => c.fills) = some [(locV 6 5, .empty)] ∧ locV 6 5 ∈ form.dst.locs (issueOf form 12 s).acting) :=
  ⟨⟨rfl, rfl, rfl, by decide, by decide, by decide, by decide⟩, by decide⟩

/-! ## Single instructions: the expected values are those of the rules -/

/-- The context after an instruction. -/
def after (i : Instr) (s : State) : Option Ctx :=
  match exec i s with
  | .next t => t.ctxs.look 0
  | _ => none
def sAfter (i : Instr) (s : State) (n : Nat) : Option Word := (after i s).map fun c => c.s n
def vAfter (i : Instr) (s : State) (n l : Nat) : Option Word := (after i s).map fun c => c.vreg n l
def causeAfter (i : Instr) (s : State) : Option Nat := (after i s).map fun c => bitsOf c.special.cause 7 0
/-- s4 and s2 hold two values, and v4 and v2 hold them in lane 3. -/
def operands (a b : Word) : State :=
  withCtx fun c => { c with sreg := [(2, b), (4, a)], v := [(64 * 2 + 3, b), (64 * 4 + 3, a)] }
/-- The same with a kernel handler at 0x40100. -/
def watched (a b : Word) : State := withCtx fun _ =>
  { placedCtx with sreg := [(2, b), (4, a)], node := { placedCtx.node with traph := 0x40100 } }

/-- R130: modulo 2^w. -/
theorem test_sadd_wraps : sAfter (.sadd (xcOf .b32 6 4 2 0)) (operands 0xFFFFFFFF 2) 6 = some 1 := by decide
/-- R130: a division by zero gives all ones, its remainder the dividend; toward zero otherwise. -/
theorem test_sdiv_by_zero : sAfter (.sdiv (xcOf .s32 6 4 2 0)) (operands 7 0) 6 = some 0xFFFFFFFF := by decide
theorem test_srem_sign : sAfter (.srem (xcOf .s32 6 4 2 0)) (operands (-7) 2) 6 = some (-1) := by decide
/-- R131: a shift by the width or more. -/
theorem test_ssra_far : sAfter (.ssra (xcOf .b32 6 4 2 0)) (operands 0x80000000 200) 6 = some 0xFFFFFFFF := by decide
theorem test_sshl_far : sAfter (.sshl (xcOf .b32 6 4 2 0)) (operands 1 32) 6 = some 0 := by decide
/-- R160: `SAT` clamps to the range of the type. -/
theorem test_add_saturates :
    vAfter (.add { xvOf .s32 6 4 2 0 with sat := true }) (operands 0x7FFFFFFF 1) 6 3 = some 0x7FFFFFFF := by decide
/-- R97: no lane but those of the guard is written. -/
theorem test_guard_keeps_lanes :
    vAfter (.mov { xvOf .b32 6 0 0 0 with h := { header .b32 6 0 0 0 with guard := ⟨false, 1⟩, lit := some 9 } })
      (withCtx fun c => { c with p := [(1, 4)] }) 6 2 = some 9
    ∧ vAfter (.mov { xvOf .b32 6 0 0 0 with h := { header .b32 6 0 0 0 with guard := ⟨false, 1⟩, lit := some 9 } })
      (withCtx fun c => { c with p := [(1, 4)] }) 6 3 = some 0 := by decide
/-- R163, R76: 1 + 2^−24 is a tie, which RNE gives to 1 and RUP to the next number. -/
theorem test_fadd_rounds :
    vAfter (.fadd (xvOf .f32 6 4 2 0)) (operands 0x3F800000 0x33800000) 6 3 = some 0x3F800000
    ∧ vAfter (.fadd { xvOf .f32 6 4 2 0 with h := { header .f32 6 4 2 0 with rnd := .rup } }) (operands 0x3F800000 0x33800000) 6 3
      = some 0x3F800001 := by decide
/-- R298 to R300: `ILLEGAL` writes `%cause`, saves the program counter in q24 and goes to the handler. -/
theorem test_illegal_is_taken :
    causeAfter .illegalEncoding (watched 0 0) = some 1 ∧ sAfter .illegalEncoding (watched 0 0) 48 = some 0x40000
    ∧ (after .illegalEncoding (watched 0 0)).map (fun c => (c.splits.look 0).map fun sp => sp.pc) = some (some 0x40100) := by decide
/-- R155: the number of a `trap` is `DETAIL`. -/
theorem test_trap_number :
    (after (.trap { xc with imm := 0x1234 }) (watched 0 0)).map (fun c => bitsOf c.special.cause 31 16) = some 0x1234 := by decide
/-- R136: a loop counts down and is left at 0. -/
theorem test_loop :
    (after (.loop { xcOf .b32 4 0 0 0 with imm := 4 }) (operands 2 0)).map (fun c => (c.splits.look 0).map fun sp => sp.pc)
      = some (some 0x40010)
    ∧ (after (.loop { xcOf .b32 4 0 0 0 with imm := 4 }) (operands 1 0)).map (fun c => (c.splits.look 0).map fun sp => sp.pc)
      = some (some 0x4000C) := by decide
/-- R174: `match` writes the lanes of an equal value; lane 3 alone holds its own. -/
theorem test_match : vAfter (.matchLanes (xlOf .b32 6 4 0 0)) (operands 5 0) 6 3 = some 8
    ∧ vAfter (.matchLanes (xlOf .b32 6 4 0 0)) (operands 5 0) 6 0 = some 0xFFF7 := by decide
/-- R187: a scratch word is little-endian; a store and a load of it agree. -/
theorem test_scratch_store :
    (match exec (.sst { inScratch with h := header .b32 4 0 0 0 }) (operands 0x01020304 0) with
      | .next t => [0, 1, 2, 3].map fun i => (t.core 0).scratch.at 0 i
      | _ => []) = [4, 3, 2, 1] := by decide
/-- One step from reset with a word placed runs that word's instruction. -/
theorem test_step_runs :
    (match step (State.reset.withFetchWord 96 (0x5E000000 + 5 * 2 ^ 32)) with
      | .next t => (t.ctxs.look 0).map fun c => c.s 0
      | _ => none) = some 5 := by decide

end Sys2Proof.Tests
end

section
/-! The step (family 00): what a turn runs, and the states in which nothing follows a step by itself. -/

namespace Sys2Proof.Scope

open Machine Laws

/-! ## Folds that change nothing -/

/-- A fold whose operations leave the state at which it starts leaves it. -/
theorem foldState_fixed {α σ : Type} {l : List α} {s : σ} {f : σ → α → σ} (h : ∀ a ∈ l, f s a = s) :
    foldState l s f = s := by
  unfold foldState
  induction l with
  | nil => rfl
  | cons a l ih => rw [List.foldl_cons, h a (by simp), ih fun b hb => h b (by simp [hb])]

/-- Changing the member at a place into itself changes nothing. -/
theorem changeAt_fixed {α : Type} {l : List α} {i : Nat} {a : α} {f : α → α} (h : l[i]? = some a) (hf : f a = a) :
    changeAt l i f = l := by
  induction l generalizing i with
  | nil => rfl
  | cons b l ih =>
    cases i with
    | zero =>
      obtain rfl : b = a := by simpa using h
      simp [changeAt, hf]
    | succ i => simp [changeAt, ih (i := i) (by simpa using h)]

/-! ## The instruction of a turn (R93, R331) -/

section Turn

variable {s : State}

/-- A split whose graph goes on does what its fetched words decode to; words that decode to nothing are illegal (R118). -/
theorem fetched_of_fetch {t : State} {id i : Nat} {c : Ctx} {sp : Split} {ws : List Word} (hc : s.ctxs.look id = some c)
    (hsp : c.splits.look i = some sp) (goesOn : s.ending c = false) (words : s.fetch id c sp = (t, .ok ws)) :
    (∀ x, decodeWords ws = .ok x → s.fetched id i = (t, .instr x))
    ∧ ∀ r, decodeWords ws = .error r → s.fetched id i = (t, .illegal) := by
  constructor <;> intro _ decoded <;> simp [State.fetched, hc, hsp, goesOn, words, decoded]

/-- Without a supervisor entry and a deferred cause the turn of a split is that of what it fetches. -/
theorem runSplit_of_fetched {id i : Nat} (noEntry : ∀ c, s.ctxs.look id = some c → s.entryFor c i = false)
    (noTrap : s.dueTrap id i = none) {t : State} :
    (∀ x, ((s.wake id i).restartDue id i).fetched id i = (t, .instr x) → runSplit s id i = exec x { t with cur := some (id, i) })
    ∧ (((s.wake id i).restartDue id i).fetched id i = (t, .illegal) →
      runSplit s id i = exec .illegalEncoding { t with cur := some (id, i) }) := by
  have entry : ((s.ctxs.look id).map fun c => s.entryFor c i).getD false = false := by
    cases h : s.ctxs.look id with
    | none => rfl
    | some c => exact noEntry c h
  constructor
  · intro x hx
    simp [runSplit, entry, noTrap, hx]
  · intro hx
    simp only [runSplit, entry, noTrap, hx, Bool.false_eq_true, if_false]
    rfl

/-- An issue opportunity is the turn of the split that the scheduler chooses. -/
theorem turn_issue {core sched id i : Nat} {rest : List Turn} (head : s.agenda = .issue core sched :: rest)
    (chosen : ({ s with agenda := rest, cur := none } : State).choose core sched = some (id, i)) :
    turn s = runSplit (({ s with agenda := rest, cur := none } : State).passOver core sched id i) id i := by
  simp [turn, head, chosen]

theorem turn_event {x : Instr} {rest : List Turn} (head : s.agenda = .event x :: rest) :
    turn s = exec x { s with agenda := rest, cur := none } := by
  simp [turn, head]

theorem turn_nil (empty : s.agenda = []) : turn s = .next s.tick := by
  simp [turn, empty]

theorem step_of_next {t : State} (h : turn s = .next t) : step s = .next t.afterStep := by
  simp [step, h]

theorem step_of_stop (h : ∀ t, turn s ≠ .next t) : step s = turn s := by
  cases e : turn s with
  | next t => exact absurd e (h t)
  | fault r => simp [step, e]
  | refused r => simp [step, e]

end Turn

/-! ## A code word at its home (R67) -/

section Fetch

variable {s : State}

/-- Making room for a line leaves the registers of the read misses. -/
@[simp] theorem replaceLine_merges (set : List Nat) : (s.replaceLine set).merges = s.merges := by
  unfold State.replaceLine
  simp only
  split <;> rfl

theorem makeWay_merges {t : State} {die : Nat} {set : List Nat} (h : s.makeWay die set = some t) : t.merges = s.merges := by
  unfold State.makeWay at h
  simp only at h
  repeat' split at h
  · cases h; simp
  · cases h
  · cases h
  · cases h; rfl
  · cases h; simp [State.demote]

@[simp] theorem allocLine_merges (line : Nat) : (s.allocLine line).merges = s.merges := by
  unfold State.allocLine
  split
  · rfl
  · split
    · rfl
    · split
      · rfl
      · rename_i t h
        exact (makeWay_merges h : t.merges = s.merges)

/-- Requests that are no load's leave memory when they are served. -/
theorem serveRequest_mem {line : Nat} {r : Request} (noLoad : r.op = none) : (s.serveRequest line r).mem = s.mem := by
  simp only [State.serveRequest, noLoad]
  rw [foldState_mem _ _ _ fun s x => loadL1_mem s r.core (32 * x) 32, claimLine_mem]

/-- A fetch of a line behind which no request waits leaves memory. -/
theorem fetchLine_mem {core handle line : Nat} (none_open : s.merges = []) :
    (s.fetchLine core handle none line).mem = s.mem := by
  unfold State.fetchLine
  split
  · rfl
  · have opened : (s.joinMerge line ⟨core, handle, none, []⟩).merges = [⟨line, [⟨core, handle, none, []⟩]⟩] := by
      simp [State.joinMerge, none_open, findAt]
    simp [State.serveLine, opened, foldState, serveRequest_mem]

/-- An aligned word lies in one line. -/
theorem linesOf_word {pa : Nat} (aligned : pa % 4 = 0) : linesOf pa 4 = [pa / 128] := by
  have one : (pa + 4 - 1) / 128 + 1 - pa / 128 = 1 := by omega
  rw [linesOf, one]
  rfl

theorem fetchLines_word_mem {core pa : Nat} (aligned : pa % 4 = 0) (none_open : s.merges = []) :
    (s.fetchLines core none pa 4).mem = s.mem := by
  simp [State.fetchLines, linesOf_word aligned, foldState, fetchLine_mem none_open]

/-- A stretch of a tabulated list is tabulated. -/
theorem take_drop_tabulate {α : Type} {n k m : Nat} (f : Nat → α) (h : k + m ≤ n) :
    ((tabulate n f).drop k).take m = tabulate m fun i => f (k + i) := by
  apply List.ext_getElem
  · simp [tabulate]; omega
  · intro i _ _
    simp [tabulate]

/-- An aligned word of a line is the word at its home. -/
theorem natOfBytes_line_word (v : State) {pa : Nat} (aligned : pa % 4 = 0) :
    natOfBytes (((tabulate 128 fun i => v.byteAt (pa / 128 * 128 + i)).drop (pa % 128)).take 4) = v.readHome pa 4 := by
  have place : ∀ i, pa / 128 * 128 + (pa % 128 + i) = pa + i := fun i => by omega
  rw [take_drop_tabulate _ (by omega), State.readHome]
  simp only [place]

/-- A word of a line of which the core has no copy is read from its home, behind the requests that wait there. -/
theorem fetchWord_miss {t : State} {id : Nat} {c : Ctx} {pc : DWord} {m : Mapped} (mapped : s.translate id c pc 3 = (t, .ok m))
    (sound : t.poisonedAt m.pa = false) (aligned : m.pa % 4 = 0) (miss : (t.core c.core).icache.look (m.pa / 128) = none) :
    ∃ u, s.fetchWord id c pc = (u, .ok (BitVec.ofNat 32 ((t.fetchLines c.core none m.pa 4).readHome m.pa 4)))
      ∧ u.mem = (t.fetchLines c.core none m.pa 4).mem := by
  rw [← natOfBytes_line_word _ aligned]
  simp only [State.fetchWord, mapped, sound, miss, Bool.false_eq_true, if_false, Option.isSome_none, Option.getD_none]
  exact ⟨_, rfl, rfl⟩

end Fetch

/-! ## What follows a step by itself: when it is nothing -/

section AfterStep

variable {s : State}

/-- A timer that is off, or has time left, is not overdue. -/
theorem timer_not_overdue {timer start clock : Nat} (h : timer = 0 ∨ clock < start + timer + 511) :
    (timer != 0 && decide (start + timer + 511 ≤ clock)) = false := by
  rcases h with off | left
  · simp [off]
  · simp [left]

/-- No bin's timer is overdue (R324). -/
theorem launchOverdue_idle
    (h : ∀ b ∈ s.bins, ∀ d, s.nodeHome b.die b.node = .ok d → d.timer = 0 ∨ s.clock < b.timer + d.timer + 511) :
    s.launchOverdue = s := by
  refine foldState_fixed fun b hb => ?_
  cases e : s.nodeHome b.die b.node with
  | error c => rfl
  | ok d =>
    simp [timer_not_overdue (h b hb d e)]

/-- No reorder key's timer is overdue (R328). -/
theorem launchOverdueKeys_idle
    (h : ∀ e ∈ s.deposits, ∀ d, s.nodeHome e.die e.node = .ok d → d.timer = 0 ∨ s.clock < e.born + d.timer + 511) :
    s.launchOverdueKeys = s := by
  refine foldState_fixed fun b hb => ?_
  cases e : s.nodeHome b.die b.node with
  | error c => rfl
  | ok d =>
    simp [timer_not_overdue (h b hb d e)]

/-- No reorder unit is full (R328). -/
theorem launchFull_idle (h : ∀ die, s.depositCount die < Config.depositRoom) : s.launchFull = s :=
  foldState_fixed fun die _ => by simp [h die]

/-- A ranked team stands in the placement queue at the place that its rank gives. -/
theorem getElem?_of_mem_ranked {die index : Nat} {w : Waiting} (h : (index, w) ∈ s.ranked die) : s.placeQ[index]? = some w := by
  simp only [State.ranked, List.mem_flatMap, List.mem_filter, List.mem_map] at h
  obtain ⟨_, _, ⟨⟨a, j⟩, ⟨hmem, _⟩, heq⟩, _⟩ := h
  obtain ⟨rfl, rfl⟩ : j = index ∧ a = w := by simpa using heq
  exact List.mem_zipIdx_iff_getElem?.1 hmem

/-- No head that has waited 2^16 cycles is still to be marked as aged (R329). -/
theorem ageHeads_idle (h : ∀ w ∈ s.placeQ, w.aged = true ∨ s.clock < w.since + 2 ^ 16) : s.ageHeads = s := by
  have head : ∀ die, s.ageHead die = s := by
    intro die
    unfold State.ageHead
    split
    · rfl
    · rename_i index w first
      have at_ := getElem?_of_mem_ranked (List.mem_of_head? first)
      split
      · rename_i late
        have aged : w.aged = true := (h w (List.mem_of_getElem? at_)).resolve_right (by omega)
        rw [changeAt_fixed at_ (by rw [← aged])]
      · rfl
  unfold State.ageHeads
  split
  · rfl
  · exact foldState_fixed fun die _ => head die

/-- No message waits in a receive buffer (R321, R326). -/
theorem drainPorts_idle (h : ∀ e ∈ s.ports, e.2.held = []) : s.drainPorts = s :=
  foldState_fixed fun e he => by
    obtain ⟨hmem, hheld⟩ := List.mem_filter.1 he
    simp [h e hmem] at hheld

/-- Every die is reachable while no boundary has been changed (R341). -/
theorem reachable_of_boundaries_nil (h : s.boundaries = []) (a b : Nat) : s.reachable a b = true := by
  have sound : ∀ i, s.boundaryFailed i = false := fun i => by simp [State.boundaryFailed, h]
  unfold State.reachable
  split
  · rfl
  · split <;> simp [sound]

theorem loseNotices_idle (h : s.boundaries = []) : s.loseNotices = s := by
  simp [State.loseNotices, reachable_of_boundaries_nil h, foldState]

/-- Without packets in flight fresh boundaries buffer nothing (R339). -/
theorem bufferFlits_nil (h : s.boundaries = []) (b : Nat) : s.bufferFlits [] b = s := by
  have fresh : s.boundary b = Boundary.fresh := by simp [State.boundary, h]
  have put : SMap.put ([] : SMap Boundary) Boundary.fresh b Boundary.fresh = [] := by simp [SMap.put, SMap.del]
  have keeps : ∀ x : Boundary, x = Boundary.fresh → { s with boundaries := s.boundaries.put Boundary.fresh b x } = s := by
    rintro _ rfl
    rw [h, put, ← h]
  exact keeps _ (by rw [fresh]; simp [Boundary.fresh])

theorem sendFlits_idle (h : s.boundaries = []) (none_sent : s.variant = .wz1 ∨ s.packets = []) : s.sendFlits = s := by
  rcases none_sent with one | none_sent
  · simp [State.sendFlits, State.boundaryCount, one, foldState]
  · unfold State.sendFlits
    rw [none_sent]
    exact foldState_fixed fun b _ => bufferFlits_nil h b

theorem settleWaits_idle (h : s.unsettled = []) : s.settleWaits = s := by
  simp [State.settleWaits, h, foldState]

/-- The continuation records are those of the parked splits (R33). -/
theorem settleConts_idle (h : ∀ r, r ∈ s.conts ↔ r ∈ s.ctxs.flatMap fun e => e.2.parkedRecords e.1) : s.settleConts = s := by
  unfold State.settleConts
  generalize s.ctxs.flatMap (fun e => e.2.parkedRecords e.1) = parked at h
  have kept : s.conts.filter parked.contains = s.conts :=
    List.filter_eq_self.2 fun r hr => by simpa using (h r).1 hr
  have added : parked.filter (fun r => !s.conts.contains r) = [] :=
    List.filter_eq_nil_iff.2 fun r hr => by simpa using (h r).2 hr
  simp only [kept, added, List.append_nil]

/-- No sleeping die has a context that is ready (R352). -/
theorem settleDies_idle (h : ∀ d ∈ s.sleeping, ∀ e ∈ s.ctxs, e.2.die = d → s.ctxReady e.2 = false) : s.settleDies = s := by
  refine foldState_fixed fun d hd => ?_
  obtain ⟨asleep, needed⟩ := List.mem_filter.1 hd
  obtain ⟨e, he, ready⟩ := List.any_eq_true.1 needed
  obtain ⟨on, ready⟩ : e.2.die = d ∧ s.ctxReady e.2 = true := by simpa using ready
  simp [h d asleep e he on] at ready

/-- Every core's requests fit (R4). -/
theorem settleRequests_idle (h : ∀ w ∈ s.writes, s.requestsFit w.core 0 = true) : s.settleRequests = s := by
  refine foldState_fixed fun core hcore => ?_
  obtain ⟨w, hw, rfl⟩ := List.mem_map.1 (List.mem_eraseDups.1 hcore)
  simp [h w hw]

/-- A split that waits for registers is ready when all are full (R43). -/
theorem settleSplit_fill {id i : Nat} {c : Ctx} {sp : Split} {ks : List Nat} (hc : s.ctxs.look id = some c)
    (hsp : c.splits.look i = some sp) (waits : sp.wait = .fill ks) :
    s.settleSplit id i = if ks.any c.isEmpty then s else s.modSplit id i fun sp => { sp with wait := .ready } := by
  simp [State.settleSplit, hc, hsp, waits]

end AfterStep

/-- Settles O52: a turn runs what the words decode to, and each part of what follows by itself is nothing where it has nothing
to do. -/
theorem stepRunsTheDecodedInstruction : Obligations.StepRunsTheDecodedInstruction := by
  unfold Obligations.StepRunsTheDecodedInstruction
  refine ⟨?_, ?_, fun s x rest => turn_event, fun s => turn_nil, fun s => ⟨fun t => step_of_next, step_of_stop, ?_, ?_⟩⟩
  · intro s core sched rest id i head begun chosen u noEntry noTrap v c sp t ws hc hsp goesOn words
    obtain ⟨instr, undecoded⟩ := fetched_of_fetch hc hsp goesOn words
    obtain ⟨runs, illegal⟩ := runSplit_of_fetched noEntry noTrap (t := t)
    rw [turn_issue head chosen]
    exact ⟨fun x decoded => runs x (instr x decoded), fun r decoded => illegal (undecoded r decoded)⟩
  · intro s t id c pc m mapped sound aligned miss v
    obtain ⟨u, word, mem⟩ := fetchWord_miss mapped sound aligned miss
    exact ⟨u, word, mem, fetchLines_word_mem aligned⟩
  · intro id i c sp ks hc hsp waits
    exact settleSplit_fill hc hsp waits
  · intro parked bins deposits room heads ports boundaries packets waits conts dies writes
    simp only [State.afterStep, launchOverdue_idle bins, launchOverdueKeys_idle deposits, launchFull_idle room,
      ageHeads_idle heads, drainPorts_idle ports, loseNotices_idle boundaries, sendFlits_idle boundaries packets,
      settleWaits_idle waits, settleConts_idle conts, settleDies_idle dies, settleRequests_idle writes]

end Sys2Proof.Scope
end

section
/-! What the operations of memory, of waiter lists and of barriers leave of the groups (R26, R29, R301): no context comes or goes, no
group is cancelled and no task put in error, and no split arrives at or leaves a latch. Each lemma adds one operation to a run that
keeps the groups of the state where it began. -/

namespace Sys2Proof.Execution

open Machine Laws

/-! ## States with the same groups -/

/-- How a group stands with its end: whether it is cancelled, and its tasks in error (R301, R306). -/
def fate (c : Ctx) : Bool × LaneMask := (c.killed, c.errTasks)

/-- The second state has the contexts of the first, with the same fate, and every core's latch is the same. -/
structure KeepsGroups (s t : State) : Prop where
  ctxs : ∀ id, (t.ctxs.look id).map fate = (s.ctxs.look id).map fate
  latch : ∀ k, (t.core k).latch = (s.core k).latch

/-- The frame stores hold the same too. -/
structure KeepsFrames (s t : State) : Prop extends KeepsGroups s t where
  frames : t.frames = s.frames

variable {s t u : State} {α : Type}

theorem KeepsFrames.refl : KeepsFrames s s := ⟨⟨fun _ => rfl, fun _ => rfl⟩, rfl⟩

theorem KeepsGroups.refl : KeepsGroups s s := KeepsFrames.refl.toKeepsGroups

theorem KeepsGroups.trans (h : KeepsGroups s t) (g : KeepsGroups t u) : KeepsGroups s u :=
  ⟨fun id => (g.ctxs id).trans (h.ctxs id), fun k => (g.latch k).trans (h.latch k)⟩

theorem KeepsFrames.trans (h : KeepsFrames s t) (g : KeepsFrames t u) : KeepsFrames s u :=
  ⟨h.toKeepsGroups.trans g.toKeepsGroups, g.frames.trans h.frames⟩

/-- An update that leaves the contexts and the cores. -/
theorem KeepsGroups.update (h : KeepsGroups s t) (same : (u.ctxs, u.cores) = (t.ctxs, t.cores)) : KeepsGroups s u := by
  obtain ⟨ctxs, cores⟩ := Prod.mk.inj same
  exact h.trans ⟨fun id => by rw [ctxs], fun k => by rw [State.core, State.core, cores]⟩

/-- An update that leaves the contexts, the cores and the frame stores. -/
theorem KeepsFrames.update (h : KeepsFrames s t) (same : ((u.ctxs, u.cores), u.frames) = ((t.ctxs, t.cores), t.frames)) :
    KeepsFrames s u := by
  obtain ⟨groups, frames⟩ := Prod.mk.inj same
  exact ⟨h.toKeepsGroups.update groups, frames.trans h.frames⟩

/-- An operation that keeps the frame stores too follows. -/
theorem KeepsGroups.andThen (h : KeepsGroups s t) (g : KeepsFrames t u) : KeepsGroups s u := h.trans g.toKeepsGroups

theorem KeepsFrames.ite {c : Prop} [Decidable c] (h : KeepsFrames s t) (g : KeepsFrames s u) : KeepsFrames s (if c then t else u) := by
  split
  · exact h
  · exact g

/-- The state of a pair that is known. -/
theorem KeepsFrames.of_eq {r : State × α} {a : α} (g : KeepsFrames s r.1) (h : r = (t, a)) : KeepsFrames s t := by
  rw [h] at g
  exact g

theorem KeepsFrames.foldState {l : List α} {f : State → α → State} (h : KeepsFrames s t)
    (step : ∀ {t a}, KeepsFrames s t → KeepsFrames s (f t a)) : KeepsFrames s (foldState l t f) := by
  unfold Sys2Proof.foldState
  induction l generalizing t with
  | nil => exact h
  | cons a l ih => exact ih (step h)

theorem KeepsGroups.foldState {l : List α} {f : State → α → State} (h : KeepsGroups s t)
    (step : ∀ {t a}, KeepsGroups s t → KeepsGroups s (f t a)) : KeepsGroups s (foldState l t f) := by
  unfold Sys2Proof.foldState
  induction l generalizing t with
  | nil => exact h
  | cons a l ih => exact ih (step h)

theorem KeepsGroups.look_none (h : KeepsGroups s t) {id : Nat} (gone : s.ctxs.look id = none) : t.ctxs.look id = none := by
  simpa [gone] using h.ctxs id

theorem KeepsGroups.look_some (h : KeepsGroups s t) {id : Nat} {c : Ctx} (hc : s.ctxs.look id = some c) :
    ∃ d, t.ctxs.look id = some d ∧ fate d = fate c := by
  simpa [hc] using h.ctxs id

/-! ## Contexts, cores and watch tables -/

section Memory

variable (h : KeepsFrames s t)
include h

theorem modCtx_keeps {id : Nat} {f : Ctx → Ctx} (same : ∀ c, fate (f c) = fate c) : KeepsFrames s (t.modCtx id f) := by
  refine h.trans ⟨⟨fun j => ?_, fun _ => rfl⟩, rfl⟩
  rw [modCtx_look]
  split
  · subst j
    cases t.ctxs.look id <;> simp [same]
  · rfl

theorem modSplit_keeps {id i : Nat} {f : Split → Split} : KeepsFrames s (t.modSplit id i f) := modCtx_keeps h fun _ => by rfl

theorem countEvent_keeps {id ev handle n : Nat} : KeepsFrames s (t.countEvent id ev handle n) := modCtx_keeps h fun _ => by rfl

theorem setCore_keeps {n : Nat} {k : Core} (same : k.latch = (t.core n).latch) : KeepsFrames s (t.setCore n k) := by
  refine h.trans ⟨⟨fun _ => rfl, fun j => ?_⟩, rfl⟩
  rw [core_setCore]
  split
  · subst j
    exact same
  · rfl

theorem modCore_keeps {n : Nat} {f : Core → Core} (same : ∀ k, (f k).latch = k.latch) : KeepsFrames s (t.modCore n f) :=
  setCore_keeps h (same _)

theorem crossEdge_keeps {id : Nat} : KeepsFrames s (t.crossEdge id) := by
  unfold State.crossEdge
  split
  · exact modCore_keeps h fun _ => by rfl
  · exact h

theorem freeWatch_keeps {w : Watch} : KeepsFrames s (t.freeWatch w) :=
  .ite (crossEdge_keeps (modSplit_keeps h)) (modSplit_keeps h)

theorem release_keeps {w : Watch} : KeepsFrames s (t.release w) := .ite (freeWatch_keeps h) (h.update (by rfl))

theorem testWatches_keeps {touched : Watch → Bool} : KeepsFrames s (t.testWatches touched) := by
  unfold State.testWatches
  exact .foldState (h.update (by rfl)) fun h => release_keeps h

/-! ## Writing bytes -/

theorem writeCells_keeps {cells : List Host.Cell} : KeepsFrames s (t.writeCells cells) := by
  unfold State.writeCells
  exact .ite (h.update (by rfl)) (testWatches_keeps (h.update (by rfl)))

theorem releasePhase_keeps {id i : Nat} : KeepsFrames s (t.releasePhase id i) := crossEdge_keeps (modSplit_keeps h)

theorem releasePhases_keeps {core : Nat} : KeepsFrames s (t.releasePhases core) := by
  unfold State.releasePhases
  exact h.foldState fun h => releasePhase_keeps h

theorem writeScratch_keeps {core : Nat} {cells : List (Nat × Byte)} : KeepsFrames s (t.writeScratch core cells) := by
  simp only [State.writeScratch]
  split
  · exact releasePhases_keeps (modCore_keeps h fun _ => by rfl)
  · exact testWatches_keeps (releasePhases_keeps (modCore_keeps h fun _ => by rfl))

theorem logError_keeps {die kind unit index addr : Nat} {detail : List Byte} :
    KeepsFrames s (t.logError die kind unit index addr detail) :=
  (writeCells_keeps h).update (by rfl)

theorem wakeDie_keeps {die : Nat} : KeepsFrames s (t.wakeDie die) := by
  unfold State.wakeDie State.logPower
  exact .ite (logError_keeps (h.update (by rfl))) h

theorem logUncorrectable_keeps {pa : Nat} : KeepsFrames s (t.logUncorrectable pa) := .ite h (logError_keeps h)

theorem logPlace_keeps {p : Place} : KeepsFrames s (t.logPlace p) := by
  cases p with
  | mem pa => exact logUncorrectable_keeps h
  | scratch core off => exact logError_keeps h

/-! ## The L2 and the L1 -/

theorem claimLine_keeps {pa r : Nat} : KeepsFrames s (t.claimLine pa r) := by
  simp only [State.claimLine]
  split
  · exact .ite h (.ite (h.update (by rfl)) (h.update (by rfl)))
  · exact h

theorem replaceLine_keeps {set : List Nat} : KeepsFrames s (t.replaceLine set) := by
  simp only [State.replaceLine]
  split
  · exact h
  · exact h.update (by rfl)

theorem makeWay_keeps {die : Nat} {set : List Nat} (way : t.makeWay die set = some u) : KeepsFrames s u := by
  simp only [State.makeWay] at way
  split at way
  · cases way
    exact replaceLine_keeps h
  · split at way
    · cases way
    · split at way
      · cases way
      · split at way
        · cases way
          exact h.update (by rfl)
        · cases way
          exact replaceLine_keeps (h.update (by rfl))

theorem allocLine_keeps {line : Nat} : KeepsFrames s (t.allocLine line) := by
  unfold State.allocLine
  refine .ite h (.ite (h.update (by rfl)) ?_)
  split
  · exact h
  · rename_i u way
    exact (makeWay_keeps h way).update (by rfl)

theorem countLine_keeps {id ev line r : Nat} : KeepsFrames s (t.countLine id ev line r) := by
  unfold State.countLine
  split
  · exact h
  · exact countEvent_keeps h

theorem sendLine_keeps {core : Nat} {who : Option Nat} {line : Nat} : KeepsFrames s (t.sendLine core who line) := by
  simp only [State.sendLine]
  split
  · exact h
  · exact .foldState (modCore_keeps (h.update (by rfl)) fun _ => by rfl) fun h => countLine_keeps h

theorem evictLine_keeps {core line : Nat} : KeepsFrames s (t.evictLine core line) := by
  unfold State.evictLine
  split
  · exact h
  · exact modCore_keeps (.ite h (sendLine_keeps h)) fun _ => by rfl

theorem makeRoom_keeps {core line : Nat} : KeepsFrames s (t.makeRoom core line) := by
  unfold State.makeRoom
  refine .ite h ?_
  split
  · exact h
  · exact evictLine_keeps (h.update (by rfl))

theorem loadL1_keeps {core pa n : Nat} : KeepsFrames s (t.loadL1 core pa n).1 := by
  simp only [State.loadL1]
  split
  · exact h
  · split
    · exact h
    · exact setCore_keeps (makeRoom_keeps h) (by rfl)

/-! ## Loads and fills -/

theorem readLane_keeps {core handle : Nat} {ty : Ty} {a : LaneAt} : KeepsFrames s (t.readLane core handle ty a).1 := by
  unfold State.readLane
  split
  · refine .ite (logUncorrectable_keeps ?_) ?_
    all_goals exact .ite (claimLine_keeps (loadL1_keeps h)) (loadL1_keeps h)
  · exact h

theorem readLanes_keeps {core : Nat} {scalar : Bool} {reg : Nat} {ty : Ty} {handle : Nat} {lanes : List LaneAt} :
    KeepsFrames s (t.readLanes core scalar reg ty handle lanes).1 := by
  unfold State.readLanes
  generalize ([] : List (Nat × Option Word × BitVec 5)) = got
  induction lanes generalizing t got with
  | nil => exact h
  | cons a l ih => exact ih (readLane_keeps h) _

theorem notePart_keeps {n : Nat} {link : Nat × Nat} {words : Response} : KeepsFrames s (t.notePart n link words) := by
  unfold State.notePart
  split
  · exact h
  · exact .ite h (h.update (by rfl))

theorem noteLanes_keeps {n : Nat} {o : Op} {lanes : List LaneAt} {words : LaneAt → Response} :
    KeepsFrames s (t.noteLanes n o lanes words) :=
  h.foldState fun h => notePart_keeps h

theorem readOp_keeps {n : Nat} {chosen : LaneAt → Bool} : KeepsFrames s (t.readOp n chosen) := by
  unfold State.readOp
  split
  · exact h
  · split
    · exact (noteLanes_keeps (readLanes_keeps h)).update (by rfl)
    · exact h

theorem serveRequest_keeps {line : Nat} {r : Request} : KeepsFrames s (t.serveRequest line r) := by
  simp only [State.serveRequest]
  split
  · exact readOp_keeps (claimLine_keeps h)
  · exact (claimLine_keeps h).foldState fun h => loadL1_keeps h

theorem serveLine_keeps {line : Nat} : KeepsFrames s (t.serveLine line) := by
  unfold State.serveLine
  exact .foldState (h.update (by rfl)) fun h => serveRequest_keeps h

theorem joinMerge_keeps {line : Nat} {r : Request} : KeepsFrames s (t.joinMerge line r) := by
  unfold State.joinMerge
  split
  · exact h.update (by rfl)
  · exact h.update (by rfl)

theorem fetchLine_keeps {core handle : Nat} {op : Option Nat} {line : Nat} : KeepsFrames s (t.fetchLine core handle op line) :=
  .ite h (serveLine_keeps (allocLine_keeps (joinMerge_keeps h)))

theorem fetchLines_keeps {core : Nat} {op : Option Nat} {pa n : Nat} : KeepsFrames s (t.fetchLines core op pa n) :=
  h.foldState fun h => fetchLine_keeps h

/-! ## Writes at their homes -/

theorem writeHome_keeps {cells : List Host.Cell} : KeepsFrames s (t.writeHome cells) :=
  writeCells_keeps (h.foldState fun h => serveLine_keeps (allocLine_keeps h))

theorem writeNat_keeps {pa n value : Nat} : KeepsFrames s (t.writeNat pa n value) := writeHome_keeps h

theorem writePlace_keeps {p : Place} {n value : Nat} : KeepsFrames s (t.writePlace p n value) := by
  cases p with
  | mem pa => exact writeNat_keeps h
  | scratch core off => exact writeScratch_keeps h

theorem performWrite_keeps {w : Write} : KeepsFrames s (t.performWrite w) := by
  unfold State.performWrite State.noteHinge
  split
  · exact (claimLine_keeps (writeHome_keeps (allocLine_keeps h))).update (by rfl)
  · exact h

theorem drainWrites_keeps {core : Nat} : KeepsFrames s (t.drainWrites core) := by
  unfold State.drainWrites
  exact h.foldState fun h => (performWrite_keeps h).update (by rfl)

theorem writeBackLines_keeps {core : Nat} {who : Option Nat} {chosen : Nat → Line → Bool} :
    KeepsFrames s (t.writeBackLines core who chosen) :=
  drainWrites_keeps (h.foldState fun h => sendLine_keeps h)

theorem settleSector_keeps {core : Nat} {who : Option Nat} {pa : Nat} : KeepsFrames s (t.settleSector core who pa) := by
  unfold State.settleSector
  exact modCore_keeps (writeBackLines_keeps h) fun _ => by rfl

/-! ## Translation -/

theorem touchPage_keeps {core asroot : Nat} {va : DWord} : KeepsFrames s (t.touchPage core asroot va) := by
  unfold State.touchPage
  split
  · exact h
  · exact modCore_keeps (writeNat_keeps h) fun _ => by rfl

theorem touchEntry_keeps {core : Nat} {e : TlbEntry} : KeepsFrames s (t.touchEntry core e) := by
  unfold State.touchEntry
  exact .ite h (modCore_keeps (writeNat_keeps h) fun _ => by rfl)

theorem readEntries_keeps {core asroot : Nat} {va : DWord} : KeepsFrames s (t.readEntries core asroot va) :=
  h.foldState fun h => fetchLines_keeps h

theorem walk_keeps {core asroot : Nat} {va : DWord} {kind : Nat} : KeepsFrames s (t.walk core asroot va kind).1 := by
  have read := readEntries_keeps h (core := core) (asroot := asroot) (va := va)
  simp only [State.walk]
  split
  · exact h
  · split
    · exact h
    · split
      · split
        · exact logUncorrectable_keeps read
        · exact read
      · split
        · exact read
        · exact writeNat_keeps read

theorem tlbOrWalk_keeps {core id asroot : Nat} {va : DWord} {kind : Nat} : KeepsFrames s (t.tlbOrWalk core id asroot va kind).1 := by
  have walked := walk_keeps (countEvent_keeps h (id := id) (ev := 0x30) (handle := 0) (n := 1))
    (core := core) (asroot := asroot) (va := va) (kind := kind)
  simp only [State.tlbOrWalk]
  split
  · exact h
  · split
    · exact h
    · split
      · rename_i failed
        exact walked.of_eq failed
      · rename_i found
        simp only
        exact modCore_keeps (walked.of_eq found) fun _ => by rfl

theorem translate_keeps {id : Nat} {c : Ctx} {va : DWord} {kind : Nat} : KeepsFrames s (t.translate id c va kind).1 := by
  unfold State.translate
  split
  · rename_i mapped
    have mapped := (tlbOrWalk_keeps h).of_eq mapped
    split
    · exact mapped
    · exact mapped
  · exact tlbOrWalk_keeps h

/-! ## The supervisor block and fault records -/

theorem controlBlock_keeps {core pa n : Nat} : KeepsFrames s (t.controlBlock core pa n).1 := by
  simp only [State.controlBlock]
  split
  · exact h
  · split
    · exact logUncorrectable_keeps (fetchLines_keeps (writeBackLines_keeps h))
    · simp only
      exact modCore_keeps (fetchLines_keeps (writeBackLines_keeps h)) fun _ => by rfl

theorem superBlock_keeps {id : Nat} {c : Ctx} {va : DWord} : KeepsFrames s (t.superBlock id c va).1 := by
  unfold State.superBlock
  split
  · exact h
  · split
    · rename_i failed
      exact (translate_keeps h).of_eq failed
    · rename_i mapped
      have mapped := (translate_keeps h).of_eq mapped
      split
      · rename_i unread
        exact (controlBlock_keeps mapped).of_eq unread
      · rename_i block
        have read := (controlBlock_keeps mapped).of_eq block
        simp only
        split
        · exact read
        · exact read

theorem writeFault_keeps {id : Nat} {c : Ctx} {b : Super} {x : Trap} {state : Nat} {pc : DWord} {progress : Nat} :
    KeepsFrames s (t.writeFault id c b x state pc progress).1 := by
  unfold State.writeFault
  extract_lets head v va lost
  have lost_keeps {r : State} (h : KeepsFrames s r) : KeepsFrames s (lost r).1 := logError_keeps h
  have mapped : KeepsFrames s (v.translate id c va 1).1 := translate_keeps (writeNat_keeps h)
  split
  · rename_i failed
    exact lost_keeps (mapped.of_eq failed)
  · rename_i found
    split
    · exact lost_keeps (mapped.of_eq found)
    · exact writeHome_keeps (touchPage_keeps (mapped.of_eq found))

theorem engineRecord_keeps {id : Nat} {x : Trap} {state : Nat} {pc : DWord} {progress : Nat} :
    KeepsFrames s (t.engineRecord id x state pc progress).1 := by
  unfold State.engineRecord
  split
  · exact h
  · split
    · exact h
    · split
      · exact h
      · split
        · rename_i failed
          exact (superBlock_keeps h).of_eq failed
        · rename_i block
          exact writeFault_keeps ((superBlock_keeps h).of_eq block)

/-! ## Write-backs of a group (R236) -/

theorem atomicAt_keeps {o : Op} {op : AtomicOp} {ty : Ty} {env : FpEnv} {a : AtomicLane} :
    KeepsFrames s (t.atomicAt o op ty env a).1 := by
  unfold State.atomicAt
  extract_lets settled touched old r written
  have settled_keeps : KeepsFrames s settled := by
    unfold settled
    split
    · exact settleSector_keeps h
    · exact h
  split
  · exact logPlace_keeps settled_keeps
  · have touched_keeps : KeepsFrames s touched := by
      unfold touched
      split
      · exact touchEntry_keeps settled_keeps
      · exact settled_keeps
    have written_keeps : KeepsFrames s written := writePlace_keeps touched_keeps
    exact .ite written_keeps (modCtx_keeps written_keeps fun _ => by rfl)

theorem performRed_keeps {n : Nat} {o : Op} {op : AtomicOp} {ty : Ty} {env : FpEnv} {lanes : List AtomicLane} :
    KeepsFrames s (t.performRed n o op ty env lanes) :=
  h.foldState fun h => notePart_keeps (.ite (engineRecord_keeps (atomicAt_keeps h)) (atomicAt_keeps h))

theorem settleReads_keeps {id : Nat} : KeepsFrames s (t.settleReads id) := by
  refine h.foldState fun h => ?_
  split
  · exact readOp_keeps h
  · exact (performRed_keeps h).update (by rfl)
  · exact h

theorem writeBack_keeps {id : Nat} : KeepsFrames s (t.writeBack id) := by
  simp only [State.writeBack]
  split
  · exact writeBackLines_keeps (settleReads_keeps h)
  · exact settleReads_keeps h

end Memory

end Sys2Proof.Execution
end

section
/-! The reports of tasks (R26, R29, R30, R137) and the null handle (R23). -/

namespace Sys2Proof.Execution

open Machine Laws

variable {s t u : State}

/-! ## Waiter lists and frames leave the groups -/

theorem linkWaiters_keeps (h : KeepsFrames s t) {k : Nat} (rs : List Record) : KeepsFrames s (t.linkWaiters k rs).1 := by
  induction rs with
  | nil => exact h
  | cons r rs ih => exact ih.update (by rfl)

theorem releaseRecord_keeps (h : KeepsFrames s t) {r : Record} : KeepsFrames s (t.releaseRecord r) := by
  unfold State.releaseRecord
  extract_lets enter
  have enter_keeps {v : State} (g : KeepsFrames s v) (id : Nat) : KeepsFrames s (enter v id) := by
    unfold enter
    split
    · exact wakeDie_keeps (g.update (by rfl))
    · exact g
  split
  · exact enter_keeps (modSplit_keeps h) _
  · exact enter_keeps h _
  · exact h

section Groups

variable (h : KeepsGroups s t)
include h

theorem setFrame_keeps {k : Nat} {f : Frame} : KeepsGroups s (t.setFrame k f) := by
  refine KeepsGroups.update (t := t.frameRoom k) ?_ rfl
  simp only [State.frameRoom]
  split
  · exact h
  · split
    · exact h
    · exact (h.update (by rfl)).andThen (writeHome_keeps .refl)

theorem setWaiting_keeps {k : Nat} {rs : List Record} : KeepsGroups s (t.setWaiting k rs) :=
  setFrame_keeps ((h.update (by rfl)).andThen (linkWaiters_keeps .refl rs))

theorem dropWaiting_keeps {gone : Record → Bool} : KeepsGroups s (t.dropWaiting gone) := by
  unfold State.dropWaiting
  exact .foldState (h.update (by rfl)) fun h => setWaiting_keeps h

theorem releaseFrame_keeps {k : Nat} : KeepsGroups s (t.releaseFrame k) := by
  simp only [State.releaseFrame]
  split
  · exact h
  · exact .foldState (setWaiting_keeps h) fun h => h.andThen (releaseRecord_keeps .refl)

theorem childExit_keeps {handle : Word} {err : Bool} : KeepsGroups s (t.childExit handle err) := by
  simp only [State.childExit]
  split
  · exact h
  · split
    · split
      · exact releaseFrame_keeps (setFrame_keeps h)
      · split
        · exact releaseFrame_keeps (setFrame_keeps h)
        · exact setFrame_keeps h
    · split
      · exact releaseFrame_keeps (setFrame_keeps h)
      · exact setFrame_keeps h
    · exact setFrame_keeps h

theorem reportExit_keeps {die graph : Nat} {handle : Word} {err : Bool} : KeepsGroups s (t.reportExit die graph handle err) := by
  unfold State.reportExit
  split
  · exact childExit_keeps h
  · exact h.update (by rfl)

theorem ownerExit_keeps {o : Owned} : KeepsGroups s (t.ownerExit o) := by
  simp only [State.ownerExit]
  split
  · exact h
  · split
    · exact h.update (by rfl)
    · exact setFrame_keeps h

end Groups

/-! ## Barriers leave the groups -/

theorem fate_foldl {α : Type} {l : List α} {f : Ctx → α → Ctx} (same : ∀ c a, fate (f c a) = fate c) (c : Ctx) :
    fate (l.foldl f c) = fate c := by
  induction l generalizing c with
  | nil => rfl
  | cons a l ih => exact (ih _).trans (same c a)

theorem fate_leaveBarrier (c : Ctx) : fate c.leaveBarrier = fate c := by
  simp only [Ctx.leaveBarrier]
  split
  · rfl
  · refine (fate_foldl ?_ _).trans rfl
    exact fun _ _ => rfl

section Barriers

variable (h : KeepsFrames s t)
include h

theorem releaseBarrier_keeps {pair : Bool} {id : Nat} : KeepsFrames s (t.releaseBarrier pair id) :=
  .ite (crossEdge_keeps (modCtx_keeps h fate_leaveBarrier)) (modCtx_keeps h fate_leaveBarrier)

theorem phaseSide_keeps {tid side : Nat} : KeepsFrames s (t.phaseSide tid side) := by
  unfold State.phaseSide
  split
  · exact h
  · exact .ite h (h.update (by rfl))

theorem releaseSide_keeps {tid side : Nat} : KeepsFrames s (t.releaseSide tid side) := by
  simp only [State.releaseSide]
  split
  · exact h
  · split
    · exact .foldState (h.update (by rfl)) fun h => releaseBarrier_keeps h
    · exact h

theorem shareMarks_keeps {core : Nat} {ms : List (Nat × Ctx)} : KeepsFrames s (t.shareMarks core ms) :=
  .ite (modCore_keeps h fun _ => by rfl) (writeBackLines_keeps h)

theorem settleBarrier_keeps {tid : Nat} : KeepsFrames s (t.settleBarrier tid) := by
  simp only [State.settleBarrier]
  split
  · exact h
  · split
    · exact h
    · split
      · exact releaseSide_keeps (releaseSide_keeps (phaseSide_keeps (phaseSide_keeps h)))
      · split
        · exact .foldState (.ite h (shareMarks_keeps h)) fun h => releaseBarrier_keeps h
        · exact h

theorem dropTeam_keeps {tid : Nat} : KeepsFrames s (t.dropTeam tid) := by
  unfold State.dropTeam
  exact .foldState (h.update (by rfl)) fun h => modSplit_keeps h

end Barriers

/-! ## What becomes of a frame (R29) -/

theorem look_setFrame (s : State) (k : Nat) (f : Frame) : (s.setFrame k f).frames.look k = some f := by simp [State.setFrame]

/-- A frame that its die's store holds stays as it is there. -/
theorem frame_of_keeps (h : KeepsFrames s t) {k : Nat} {f : Frame} (held : s.frames.look k = some f) : t.frame k = f := by
  simp [State.frame, h.frames, held]

/-- A release changes nothing of its frame but the waiter list. -/
theorem releaseFrame_frame (s : State) (k : Nat) : ∃ w, (s.releaseFrame k).frame k = { s.frame k with waiters := w } := by
  simp only [State.releaseFrame]
  split
  · exact ⟨_, rfl⟩
  · exact ⟨0, frame_of_keeps (.foldState .refl fun h => releaseRecord_keeps h) (look_setFrame _ k _)⟩

/-- A frame that is written and then releases its waiters. -/
theorem releaseFrame_setFrame (s : State) (k : Nat) (f : Frame) :
    let g := ((s.setFrame k f).releaseFrame k).frame k
    g.pending = f.pending ∧ g.gen = f.gen ∧ g.state = f.state := by
  obtain ⟨w, e⟩ := releaseFrame_frame (s.setFrame k f) k
  simp [e]

theorem childExit_frame {h : Word} (notNull : h ≠ 0) (err : Bool) (s : State) :
    let f := s.frame (handleKey h)
    let g := (s.childExit h err).frame (handleKey h)
    g.pending = f.pending - 1 ∧ g.gen = f.gen ∧ g.state = (if f.state = .open ∧ err = true then .error else f.state) := by
  simp only [State.childExit, notNull, if_false]
  split
  · rename_i opened
    split
    · rename_i inError
      simp [releaseFrame_setFrame, opened, inError]
    · rename_i fine
      split
      · simp [releaseFrame_setFrame, opened, fine]
      · simp [opened, fine]
  · rename_i failed
    split
    · simp [releaseFrame_setFrame, failed]
    · simp [failed]
  · rename_i notOpen _
    rw [frame_setFrame]
    exact ⟨rfl, rfl, (if_neg fun fails => notOpen fails.1).symm⟩

/-- The owner's exit keeps a promise frame that has waiters, and frees every other (R29). -/
theorem ownerExit_of_used {o : Owned} (used : (s.frame (handleKey o.handle)).state.unused = false)
    (same : (s.frame (handleKey o.handle)).gen.toNat % 256 = bitsOf o.handle 7 0) :
    s.ownerExit o = if o.promise = true ∧ (s.frame (handleKey o.handle)).waiters ≠ 0 then
        { s with orphans := insertNat s.orphans (handleKey o.handle) }
      else s.freeFrame (handleKey o.handle) := by
  simp [State.ownerExit, used, same]

/-! ## The report (R26, R361) -/

/-- The die of a handle stands in its two highest bits (R28). -/
theorem handleDie_eq (h : Word) : handleDie h = h.toNat / 2 ^ 30 := by
  have := h.isLt
  simp only [handleDie, bitsOf, Nat.shiftRight_eq_div_pow]
  omega

theorem getLsbD_laneBit_self {l : Nat} (h : l < 64) : (laneBit l).getLsbD l = true := by
  simp [laneBit, h]

/-- The state in which a task's frames are freed and its group's lines are written back. -/
def reporting (s : State) (id : Nat) (c : Ctx) (task : Nat) : State :=
  (foldState (c.owned.filter fun o => o.task == task) s State.ownerExit).writeBack id

/-- The task's bit is set. -/
def markReported (s : State) (id task : Nat) : State := s.modCtx id fun c => { c with reported := c.reported ||| laneBit task }

theorem reporting_keeps (id : Nat) (c : Ctx) (task : Nat) : KeepsGroups s (reporting s id c task) :=
  (KeepsGroups.refl.foldState fun h => ownerExit_keeps h).andThen (writeBack_keeps .refl)

theorem report_of_carried {id task : Nat} {c : Ctx} (carried : c.deposited.getLsbD task = true) :
    s.report id c task = markReported (reporting s id c task) id task := by
  simp [State.report, Ctx.carriedAway, carried, markReported, reporting]

theorem report_of_frameless {id task : Nat} {c : Ctx} (stays : c.deposited.getLsbD task = false) (noFrame : c.taskFrame task = 0)
    (failed : c.errTasks.getLsbD task = true) :
    s.report id c task = markReported ((reporting s id c task).modGraph c.graph
      fun g => { g with status := if g.status = 0 then 1 else g.status }) id task := by
  simp [State.report, Ctx.carriedAway, stays, noFrame, failed, markReported, reporting]

theorem report_of_child {id task : Nat} {c : Ctx} (stays : c.deposited.getLsbD task = false)
    (told : c.taskFrame task ≠ 0 ∨ c.errTasks.getLsbD task = false) :
    s.report id c task = markReported
      ((reporting s id c task).reportExit c.die c.graph (c.taskFrame task) (c.errTasks.getLsbD task)) id task := by
  have told : (decide (c.taskFrame task = 0) && c.errTasks.getLsbD task) = false := by
    rcases told with frame | fine
    · rw [decide_eq_false frame, Bool.false_and]
    · rw [fine, Bool.and_false]
  simp only [State.report, Ctx.carriedAway, stays, told, Bool.false_eq_true, if_false]
  rfl

/-- However a task reports, its group stands before its bit is set. -/
theorem report_eq_markReported (s : State) (id : Nat) (c : Ctx) (task : Nat) :
    ∃ v, KeepsGroups s v ∧ s.report id c task = markReported v id task := by
  have kept := reporting_keeps (s := s) id c task
  cases carried : c.deposited.getLsbD task with
  | true => exact ⟨_, kept, report_of_carried carried⟩
  | false =>
    by_cases told : c.taskFrame task ≠ 0 ∨ c.errTasks.getLsbD task = false
    · exact ⟨_, reportExit_keeps kept, report_of_child carried told⟩
    · obtain ⟨noFrame, failed⟩ : c.taskFrame task = 0 ∧ c.errTasks.getLsbD task = true := by simpa using told
      exact ⟨_, kept.update (by rfl), report_of_frameless carried noFrame failed⟩

/-- A task that has reported has its bit set. -/
theorem report_reported {id task : Nat} {d : Ctx} (hd : s.ctxs.look id = some d) (lane : task < 64) (c : Ctx) :
    ∃ e, (s.report id c task).ctxs.look id = some e ∧ e.reported.getLsbD task = true := by
  obtain ⟨v, kept, eq⟩ := report_eq_markReported s id c task
  obtain ⟨e, he, -⟩ := kept.look_some hd
  rw [eq, markReported, modCtx_look, if_pos rfl, he]
  exact ⟨_, rfl, by simp [getLsbD_laneBit_self lane]⟩

/-! ## The end of a group (R26, R306) -/

/-- A context whose group is cancelled. -/
def cancelled (c : Ctx) : Ctx :=
  { c with killed := true, errTasks := BitVec.allOnes 64, splits := c.splits.map fun p => (p.1, p.2.cancel) }

/-- In a group that is cancelled every task ends in error. -/
theorem killGroup_fate {id : Nat} {c : Ctx} (hc : s.ctxs.look id = some c) :
    ∃ d, (s.killGroup id).ctxs.look id = some d ∧ fate d = fate (cancelled c) := by
  have kept : KeepsGroups (s.modCtx id cancelled) ((s.modCtx id cancelled).dropWaiting fun r => r.continues id) :=
    dropWaiting_keeps .refl
  exact kept.look_some (by simp [hc])

theorem breakGangs_idle {c : Ctx} (idle : (s.core c.core).latch = []) : s.breakGangs c = s := by
  simp [State.breakGangs, idle]

/-- A context whose core's latch is free leaves the machine. -/
theorem dropCtx_look {id : Nat} {c : Ctx} (idle : (s.core c.core).latch = []) : (s.dropCtx id c).ctxs.look id = none := by
  have dropped : KeepsGroups { s with ctxs := s.ctxs.del id, watch := s.watch.filter fun w => w.ctx != id }
      (({ s with ctxs := s.ctxs.del id, watch := s.watch.filter fun w => w.ctx != id }).dropWaiting fun r => r.continues id) :=
    dropWaiting_keeps .refl
  have gone := dropped.look_none (look_del_same s.ctxs id)
  simp only [State.dropCtx, breakGangs_idle ((dropped.latch _).trans idle)]
  split
  · exact (dropTeam_keeps .refl).look_none gone
  · exact (settleBarrier_keeps .refl).look_none gone

theorem settleGroup_of_look {id : Nat} {c : Ctx} (hc : s.ctxs.look id = some c) :
    s.settleGroup id = if c.tasks.all fun t => c.reported.getLsbD t then s.dropCtx id c else s := by
  simp [State.settleGroup, hc]

/-- R26: an exited task whose operations and implicit await are over reports. -/
theorem taskReport_reports {id task : Nat} {c : Ctx} (hc : s.ctxs.look id = some c) (mine : task ∈ c.tasks)
    (unreported : c.reported.getLsbD task = false) (exited : c.taskExited task = true)
    (free : ∀ e ∈ s.ops, e.2.holds id task = false) (awaited : s.awaitOwned id task = (t, true)) :
    exec (.taskReport id task) s = .next ((t.report id c task).settleGroup id) := by
  have idle : s.ops.any (fun e => e.2.holds id task) = false := by simpa using free
  show execTaskReport id task s = _
  simp [execTaskReport, hc, mine, unreported, exited, idle, awaited]

/-- Settles O17: the report is its three steps, of which every one keeps the groups, and the group's end is a context's leaving, in
which no gang is broken where the latch is free. -/
theorem tasksReport : Obligations.TasksReport := by
  unfold Obligations.TasksReport
  refine ⟨?_, ?_, ?_, ?_, ?_, ?_⟩
  · intro s t id task c hc mine unreported exited free awaited
    exact taskReport_reports hc mine unreported exited free awaited
  · intro s id task c d
    refine ⟨fun carried => report_of_carried carried, fun stays frame => ?_, fun stays noFrame fine => ?_,
      fun stays noFrame failed g hg => ?_, fun hd lane => report_reported hd lane c⟩
    · rw [report_of_child stays (.inl frame), State.reportExit, handleDie_eq]
      exact ⟨fun near => by simp only [near, or_true, if_true]; rfl, fun far => by simp only [frame, far, or_self, if_false]; rfl⟩
    · rw [report_of_child stays (.inr fine), State.reportExit, noFrame]
      rfl
    · rw [report_of_frameless stays noFrame failed]
      exact ⟨_, by simp only [markReported, modCtx_graphs, modGraph_look, if_true]; exact congrArg _ hg, rfl⟩
  · intro s o k f used same
    rw [ownerExit_of_used used same]
    exact ⟨fun kept => by rw [if_pos kept], fun freed => by rw [if_neg freed]; exact frame_setFrame _ _ _⟩
  · intro s h err notNull
    exact childExit_frame notNull err s
  · intro s id c hc
    obtain ⟨d, hd, same⟩ := killGroup_fate hc
    obtain ⟨killed, errTasks⟩ := Prod.mk.inj same
    exact ⟨d, hd, killed, fun task lane => by rw [errTasks, cancelled, BitVec.getLsbD_allOnes, decide_eq_true lane]⟩
  · intro s id c hc
    rw [settleGroup_of_look hc]
    refine ⟨fun ⟨task, mine, unreported⟩ => if_neg ?_, fun all idle => ?_⟩
    · simp only [List.all_eq_true, not_forall]
      exact ⟨task, mine, by simp [unreported]⟩
    · rw [if_pos (List.all_eq_true.2 all)]
      exact dropCtx_look idle

/-! ## The null handle (R23) -/

theorem freeFrameFrom_index {die n i j : Nat} (h : s.freeFrameFrom die n i = some j) : j ≠ 0 ∧ j < Config.framePool := by
  induction n generalizing i with
  | zero => simp [State.freeFrameFrom] at h
  | succ n ih =>
    simp only [State.freeFrameFrom] at h
    split at h
    · rename_i free
      obtain rfl : i % Config.framePool = j := by simpa using h
      exact ⟨by simp at free; exact free.1.1, Nat.mod_lt _ (by decide)⟩
    · exact ih h

/-- The index of a handle reads back (R28). -/
theorem index_handleOf {die j : Nat} (gen : Word) (h : j < Config.framePool) : bitsOf (handleOf die j gen) 29 8 = j := by
  simp only [Config.framePool] at h
  simp only [bitsOf, handleOf, BitVec.toNat_ofNat, Nat.shiftRight_eq_div_pow]
  omega

/-- An allocation answers the handle of a frame that the hardware chose. -/
theorem allocFrame_some {c : Ctx} {lane : Nat} {promise : Bool} {h : Word} (answer : s.allocFrame c lane promise = (t, some h)) :
    ∃ j gen, s.chooseFrame c.die = some j ∧ h = handleOf c.die j gen := by
  unfold State.allocFrame at answer
  split at answer
  · simp at answer
  · rename_i j chosen
    exact ⟨j, _, chosen, (Option.some.inj (Prod.mk.inj answer).2).symm⟩

/-- Settles O60: the search for a free frame passes index 0, and a handle gives back the index of its frame. -/
theorem nullHandleIsNeverAllocated : Obligations.NullHandleIsNeverAllocated := by
  unfold Obligations.NullHandleIsNeverAllocated
  refine ⟨by decide, fun s t c lane promise h answer => ?_⟩
  obtain ⟨j, gen, chosen, rfl⟩ := allocFrame_some answer
  obtain ⟨notZero, inPool⟩ := freeFrameFrom_index chosen
  rwa [index_handleOf gen inPool]

end Sys2Proof.Execution
end

section
/-! O54, the canonical form of the bytes of memory (R59), and the operations on memory that keep it. -/

namespace Sys2Proof.MemoryForm

open Machine Laws

/-- The bytes of memory stand in their canonical form. -/
def Canonical (m : List Host.Cell) : Prop := Memory.wf m = true

/-- An outcome that goes on goes on with memory in its canonical form. -/
def CanonicalOut : Host.Outcome State Fault Refusal → Prop
  | .next t => Canonical t.mem
  | _ => True

variable {s t u : State} {α : Type}

/-- A state with the same memory. -/
theorem Canonical.same (hs : Canonical s.mem) (e : t.mem = s.mem) : Canonical t.mem := by
  rwa [e]

/-- The state of a pair that is known. -/
theorem Canonical.of_eq {r : State × α} {a : α} (e : r = (t, a)) (hs : Canonical r.1.mem) : Canonical t.mem := by
  rw [e] at hs
  exact hs

theorem Canonical.ite {c : Prop} [Decidable c] (hs : Canonical s.mem) (ht : Canonical t.mem) :
    Canonical (if c then s else t).mem := by
  split
  · exact hs
  · exact ht

theorem Canonical.foldState {l : List α} {f : State → α → State} (hs : Canonical s.mem)
    (step : ∀ {t a}, Canonical t.mem → Canonical (f t a).mem) : Canonical (foldState l s f).mem :=
  wf_foldState s l f (fun _ _ => step) hs

theorem crossEdge_canonical {id : Nat} (hs : Canonical s.mem) : Canonical (s.crossEdge id).mem :=
  hs.same (crossEdge_mem ..)

theorem freeWatch_canonical {w : Watch} (hs : Canonical s.mem) : Canonical (s.freeWatch w).mem :=
  hs.same (freeWatch_mem ..)

theorem countLine_canonical {id ev line h : Nat} (hs : Canonical s.mem) : Canonical (s.countLine id ev line h).mem :=
  hs.same (countLine_mem ..)

theorem claimLine_canonical {pa h : Nat} (hs : Canonical s.mem) : Canonical (s.claimLine pa h).mem :=
  hs.same (claimLine_mem ..)

theorem allocLine_canonical {line : Nat} (hs : Canonical s.mem) : Canonical (s.allocLine line).mem :=
  hs.same (allocLine_mem ..)

theorem evictLine_canonical {core line : Nat} (hs : Canonical s.mem) : Canonical (s.evictLine core line).mem :=
  hs.same (evictLine_mem ..)

theorem storeL1_canonical {core id pa n value handle : Nat} (hs : Canonical s.mem) :
    Canonical (s.storeL1 core id pa n value handle).mem :=
  hs.same (storeL1_mem ..)

theorem loadL1_canonical {core pa n : Nat} (hs : Canonical s.mem) : Canonical (s.loadL1 core pa n).1.mem :=
  hs.same (loadL1_mem ..)

theorem requestSectors_canonical {id core handle : Nat} {op : Option Nat} {sectors : List Nat} (hs : Canonical s.mem) :
    Canonical (s.requestSectors id core handle op sectors).mem :=
  hs.same (requestSectors_mem ..)

theorem writeScratch_canonical {core : Nat} {cells : List (Nat × Byte)} (hs : Canonical s.mem) :
    Canonical (s.writeScratch core cells).mem :=
  hs.same (writeScratch_mem ..)

theorem logError_canonical {die kind unit index addr : Nat} {detail : List Byte} (hs : Canonical s.mem) :
    Canonical (s.logError die kind unit index addr detail).mem :=
  wf_logError _ _ _ _ _ _ _ hs

theorem logUncorrectable_canonical {pa : Nat} (hs : Canonical s.mem) : Canonical (s.logUncorrectable pa).mem :=
  wf_logUncorrectable _ _ hs

theorem logPlace_canonical {p : Place} (hs : Canonical s.mem) : Canonical (s.logPlace p).mem :=
  wf_logPlace _ _ hs

theorem notePart_canonical {n : Nat} {link : Nat × Nat} {words : Response} (hs : Canonical s.mem) :
    Canonical (s.notePart n link words).mem :=
  hs.same (notePart_mem ..)

theorem noteLanes_canonical {n : Nat} {o : Op} {lanes : List LaneAt} {words : LaneAt → Response} (hs : Canonical s.mem)
    : Canonical (s.noteLanes n o lanes words).mem :=
  hs.same (noteLanes_mem ..)

theorem noteScratch_canonical {core : Nat} {lanes : List LaneAt} {words : LaneAt → Response} (hs : Canonical s.mem) :
    Canonical (s.noteScratch core lanes words).mem :=
  hs.same (noteScratch_mem ..)

theorem keepOp_canonical {n : Nat} {done : Bool} {kind : OpKind} (hs : Canonical s.mem) :
    Canonical (s.keepOp n done kind).mem :=
  hs.same (keepOp_mem ..)

theorem readOp_canonical {n : Nat} {chosen : LaneAt → Bool} (hs : Canonical s.mem) : Canonical (s.readOp n chosen).mem :=
  wf_readOp _ _ _ hs

theorem serveLine_canonical {line : Nat} (hs : Canonical s.mem) : Canonical (s.serveLine line).mem :=
  wf_serveLine _ _ hs

theorem fetchLine_canonical {core handle : Nat} {op : Option Nat} {line : Nat} (hs : Canonical s.mem) :
    Canonical (s.fetchLine core handle op line).mem :=
  wf_fetchLine _ _ _ _ _ hs

theorem fetchLines_canonical {core : Nat} {op : Option Nat} {pa n : Nat} (hs : Canonical s.mem) :
    Canonical (s.fetchLines core op pa n).mem :=
  wf_fetchLines _ _ _ _ _ hs

theorem writeHome_canonical {cells : List Host.Cell} (hs : Canonical s.mem) : Canonical (s.writeHome cells).mem :=
  wf_writeHome _ _ hs

theorem writeNat_canonical {pa n value : Nat} (hs : Canonical s.mem) : Canonical (s.writeNat pa n value).mem :=
  wf_writeNat _ _ _ _ hs

theorem writePlace_canonical {p : Place} {n value : Nat} (hs : Canonical s.mem) :
    Canonical (s.writePlace p n value).mem :=
  wf_writePlace _ _ _ _ hs

theorem performWrite_canonical {w : Write} (hs : Canonical s.mem) : Canonical (s.performWrite w).mem :=
  wf_performWrite _ _ hs

theorem drainWrites_canonical {core : Nat} (hs : Canonical s.mem) : Canonical (s.drainWrites core).mem :=
  wf_drainWrites _ _ hs

theorem writeBackLines_canonical {core : Nat} {who : Option Nat} {chosen : Nat → Line → Bool} (hs : Canonical s.mem) :
    Canonical (s.writeBackLines core who chosen).mem :=
  wf_writeBackLines _ _ _ _ hs

theorem settleSector_canonical {core : Nat} {who : Option Nat} {pa : Nat} (hs : Canonical s.mem) :
    Canonical (s.settleSector core who pa).mem :=
  wf_settleSector _ _ _ _ hs

theorem setEntryBits_canonical {home bits : Nat} (hs : Canonical s.mem) : Canonical (s.setEntryBits home bits).mem :=
  wf_setEntryBits _ _ _ hs

theorem touchPage_canonical {core asroot : Nat} {va : DWord} (hs : Canonical s.mem) :
    Canonical (s.touchPage core asroot va).mem :=
  wf_touchPage _ _ _ _ hs

theorem touchEntry_canonical {core : Nat} {t : TlbEntry} (hs : Canonical s.mem) : Canonical (s.touchEntry core t).mem :=
  wf_touchEntry _ _ _ hs

theorem readEntries_canonical {core asroot : Nat} {va : DWord} (hs : Canonical s.mem) :
    Canonical (s.readEntries core asroot va).mem :=
  wf_readEntries _ _ _ _ hs

theorem walk_canonical {core asroot : Nat} {va : DWord} {kind : Nat} (hs : Canonical s.mem) :
    Canonical (s.walk core asroot va kind).1.mem :=
  wf_walk _ _ _ _ _ hs

end Sys2Proof.MemoryForm
end

section
/-! O54, traps, fault records and the answers of instructions. -/

namespace Sys2Proof.MemoryForm

open Machine Laws

variable {s t u : State} {α : Type}

theorem setFrame_canonical {k : Nat} {f : Frame} (hs : Canonical s.mem) : Canonical (s.setFrame k f).mem :=
  wf_setFrame _ _ _ hs

variable {β : Type}

theorem Canonical.ite_fst {c : Prop} [Decidable c] {p q : State × α} (hp : Canonical p.1.mem) (hq : Canonical q.1.mem) :
    Canonical (if c then p else q).1.mem := by
  split
  · exact hp
  · exact hq

/-- A fold that carries a state and something else. -/
theorem foldl_canonical {l : List α} {f : State × β → α → State × β} {b : β} (hs : Canonical s.mem)
    (step : ∀ {acc a}, Canonical acc.1.mem → Canonical (f acc a).1.mem) : Canonical (l.foldl f (s, b)).1.mem := by
  suffices ∀ acc : State × β, Canonical acc.1.mem → Canonical (l.foldl f acc).1.mem from this (s, b) hs
  induction l with
  | nil => exact fun _ h => h
  | cons a l ih => exact fun acc h => ih _ (step h)

/-- A part of an engine's work keeps the canonical form of memory, whether it ends or fails. -/
def EngKeeps (x : Eng α) : Prop := ∀ s : State, Canonical s.mem → Canonical (x.go s).1.mem

/-- One part of the work after another: the second runs from the state in which the first ends, if it does not fail. -/
theorem go_bind (x : Eng α) (f : α → Eng β) (s : State) :
    (x >>= f).go s = match x.go s with
      | (t, .ok a) => (f a).go t
      | (t, .error e) => (t, .error e) := by
  show Eng.go (ExceptT.bind x f) s = _
  simp only [Eng.go, ExceptT.bind, ExceptT.run, ExceptT.mk, StateT.run, bind, StateT.bind]
  rcases x s with ⟨_ | _, _⟩ <;> rfl

theorem EngKeeps.pure (a : α) : EngKeeps (Pure.pure a : Eng α) :=
  fun _ hs => hs

theorem EngKeeps.throw (e : Trap) : EngKeeps (throw e : Eng α) :=
  fun _ hs => hs

theorem EngKeeps.of {f : State → State × Except Trap α} (h : ∀ {s}, Canonical s.mem → Canonical (f s).1.mem) :
    EngKeeps (Eng.of f) :=
  fun _ => h

theorem EngKeeps.change {f : State → State} (h : ∀ {s}, Canonical s.mem → Canonical (f s).mem) : EngKeeps (engDo f) :=
  fun _ => h

theorem EngKeeps.get (f : State → α) : EngKeeps (engGet f) :=
  fun _ hs => hs

theorem EngKeeps.bind {x : Eng α} {f : α → Eng β} (hx : EngKeeps x) (hf : ∀ a, EngKeeps (f a)) : EngKeeps (x >>= f) := by
  intro s hs
  rw [go_bind]
  split
  · exact hf _ _ (.of_eq ‹_› (hx _ hs))
  · exact .of_eq ‹_› (hx _ hs)

/-- Work whose failure another part takes up, from the state in which it failed. -/
theorem go_tryCatch (x : Eng α) (f : Trap → Eng α) (s : State) :
    (tryCatch x f : Eng α).go s = match x.go s with
      | (t, .ok a) => (t, .ok a)
      | (t, .error e) => (f e).go t := by
  show Eng.go (ExceptT.tryCatch x f) s = _
  simp only [Eng.go, ExceptT.tryCatch, ExceptT.run, ExceptT.mk, StateT.run]
  show ((StateT.bind x _ s).2, (StateT.bind x _ s).1) = _
  simp only [StateT.bind, bind]
  rcases x s with ⟨_ | _, _⟩ <;> rfl

theorem EngKeeps.handle {x : Eng α} {f : Trap → Eng α} (hx : EngKeeps x) (hf : ∀ e, EngKeeps (f e)) :
    EngKeeps (tryCatch x f) := by
  intro s hs
  rw [go_tryCatch]
  split
  · exact .of_eq ‹_› (hx _ hs)
  · exact hf _ _ (.of_eq ‹_› (hx _ hs))

theorem EngKeeps.mapM {γ : Type} {f : γ → Eng α} (hf : ∀ a, EngKeeps (f a)) (l : List γ) : EngKeeps (l.mapM f) := by
  induction l with
  | nil => exact .pure _
  | cons a l ih =>
    rw [List.mapM_cons]
    exact .bind (hf a) fun b => .bind ih fun _ => .pure _

theorem EngKeeps.foldlM {γ : Type} {f : α → γ → Eng α} (hf : ∀ a c, EngKeeps (f a c)) (l : List γ) (a : α) :
    EngKeeps (l.foldlM f a) := by
  induction l generalizing a with
  | nil => exact .pure _
  | cons c l ih =>
    rw [List.foldlM_cons]
    exact .bind (hf a c) ih

theorem EngKeeps.forM {γ : Type} {f : γ → Eng Unit} (hf : ∀ a, EngKeeps (f a)) (l : List γ) : EngKeeps (l.forM f) := by
  induction l with
  | nil => exact .pure _
  | cons a l ih => exact .bind (hf a) fun _ => ih

theorem EngKeeps.ite {c : Prop} [Decidable c] {x y : Eng α} (hx : EngKeeps x) (hy : EngKeeps y) :
    EngKeeps (if c then x else y) := by
  split
  · exact hx
  · exact hy

theorem logPower_canonical {die unit index : Nat} (hs : Canonical s.mem) : Canonical (s.logPower die unit index).mem :=
  logError_canonical hs

theorem wakeDie_canonical {die : Nat} (hs : Canonical s.mem) : Canonical (s.wakeDie die).mem := by
  unfold State.wakeDie
  exact .ite (logPower_canonical hs) hs

theorem logScratchError_canonical {core : Nat} (hs : Canonical s.mem) : Canonical (s.logScratchError core).mem :=
  logError_canonical hs

theorem makeWay_canonical {die : Nat} {set : List Nat} (way : s.makeWay die set = some t) (hs : Canonical s.mem) :
    Canonical t.mem :=
  hs.same (makeWay_mem s way)

theorem startLoad_canonical {n : Nat} (hs : Canonical s.mem) : Canonical (s.startLoad n).mem := by
  unfold State.startLoad
  split
  · exact hs
  · split
    · exact readOp_canonical (requestSectors_canonical hs)
    · exact hs

theorem askHome_canonical {core id pa n : Nat} (hs : Canonical s.mem) : Canonical (s.askHome core id pa n).mem :=
  .foldState (fetchLines_canonical hs) fun hs => countLine_canonical hs

theorem performNth_canonical {index : Nat} {w : Write} (hs : Canonical s.mem) : Canonical (s.performNth index w).mem := by
  unfold State.performNth
  exact .ite hs (performWrite_canonical hs)

theorem tlbOrWalk_canonical {core id asroot : Nat} {va : DWord} {kind : Nat} (hs : Canonical s.mem) :
    Canonical (s.tlbOrWalk core id asroot va kind).1.mem := by
  simp only [State.tlbOrWalk]
  split
  · exact hs
  · split
    · exact hs
    · split
      · rename_i ran
        exact .of_eq ran (walk_canonical hs)
      · rename_i ran
        have kept := Canonical.of_eq ran (walk_canonical hs)
        exact kept

theorem translate_canonical {id : Nat} {c : Ctx} {va : DWord} {kind : Nat} (hs : Canonical s.mem) :
    Canonical (s.translate id c va kind).1.mem := by
  unfold State.translate
  split
  · exact .ite_fst (.of_eq ‹_› (tlbOrWalk_canonical hs)) (.of_eq ‹_› (tlbOrWalk_canonical hs))
  · exact tlbOrWalk_canonical hs

theorem bindBits_canonical {f : Found} (hs : Canonical s.mem) : Canonical (s.bindBits f).mem :=
  setEntryBits_canonical hs

theorem extendRun_canonical {core asroot : Nat} {key : Nat × Nat} {fuel va pa units : Nat} (hs : Canonical s.mem) :
    Canonical (s.extendRun core asroot key fuel va pa units).1.mem := by
  induction fuel generalizing s va pa units with
  | zero => exact hs
  | succ fuel ih =>
    have read := readEntries_canonical hs (core := core) (asroot := asroot) (va := BitVec.ofNat 64 va)
    simp only [State.extendRun]
    split
    · exact logUncorrectable_canonical read
    · exact read
    · split
      · exact read
      · exact ih (bindBits_canonical read)

theorem bindRun_canonical {id core asroot : Nat} {va : DWord} (hs : Canonical s.mem) :
    Canonical (s.bindRun id core asroot va).1.mem := by
  simp only [State.bindRun]
  split
  · rename_i ran
    exact .of_eq ran (walk_canonical hs)
  · rename_i ran
    exact extendRun_canonical (bindBits_canonical (.of_eq ran (walk_canonical hs)))

theorem rebind_canonical {id n : Nat} (hs : Canonical s.mem) : Canonical (s.rebind id n).1.mem := by
  simp only [State.rebind]
  split
  · exact hs
  · split
    · split
      · exact .of_eq ‹_› (bindRun_canonical hs)
      · have kept := Canonical.of_eq ‹_› (bindRun_canonical hs)
        exact kept
    · exact hs

theorem throughX_canonical {id n : Nat} {o : ℤ} {kind : Nat} (hs : Canonical s.mem) :
    Canonical (s.throughX id n o kind).1.mem := by
  unfold State.throughX
  split
  · exact .of_eq ‹_› (rebind_canonical hs)
  · have kept := Canonical.of_eq ‹_› (rebind_canonical hs)
    split
    · exact kept
    · exact .ite_fst (.ite_fst kept (.ite_fst kept kept)) (translate_canonical kept)

theorem controlBlock_canonical {core pa n : Nat} (hs : Canonical s.mem) : Canonical (s.controlBlock core pa n).1.mem := by
  simp only [State.controlBlock]
  split
  · exact hs
  · split
    · exact logUncorrectable_canonical (fetchLines_canonical (writeBackLines_canonical hs))
    · exact fetchLines_canonical (writeBackLines_canonical hs)

theorem linkWaiters_canonical {k : Nat} {rs : List Record} (hs : Canonical s.mem) :
    Canonical (s.linkWaiters k rs).1.mem := by
  induction rs with
  | nil => exact hs
  | cons r rs ih => exact ih

theorem setWaiting_canonical {k : Nat} {rs : List Record} (hs : Canonical s.mem) : Canonical (s.setWaiting k rs).mem := by
  unfold State.setWaiting
  split
  · rename_i ran
    exact setFrame_canonical (.of_eq ran (linkWaiters_canonical hs))

theorem dropWaiting_canonical {gone : Record → Bool} (hs : Canonical s.mem) : Canonical (s.dropWaiting gone).mem :=
  .foldState hs fun hs => setWaiting_canonical hs

theorem releaseRecord_canonical {r : Record} (hs : Canonical s.mem) : Canonical (s.releaseRecord r).mem := by
  simp only [State.releaseRecord]
  split
  · split
    · exact wakeDie_canonical hs
    · exact hs
  · split
    · exact wakeDie_canonical hs
    · exact hs
  · exact hs

theorem releaseFrame_canonical {k : Nat} (hs : Canonical s.mem) : Canonical (s.releaseFrame k).mem := by
  unfold State.releaseFrame
  exact .ite hs (.foldState (setWaiting_canonical hs) fun hs => releaseRecord_canonical hs)

theorem freeFrame_canonical {k : Nat} (hs : Canonical s.mem) : Canonical (s.freeFrame k).mem :=
  setFrame_canonical hs

theorem childExit_canonical {h : Word} {err : Bool} (hs : Canonical s.mem) : Canonical (s.childExit h err).mem := by
  simp only [State.childExit]
  split
  · exact hs
  · split
    · split
      · exact releaseFrame_canonical (setFrame_canonical hs)
      · exact .ite (releaseFrame_canonical (setFrame_canonical hs)) (setFrame_canonical hs)
    · exact .ite (releaseFrame_canonical (setFrame_canonical hs)) (setFrame_canonical hs)
    · exact setFrame_canonical hs

theorem reportExit_canonical {die graph : Nat} {h : Word} {err : Bool} (hs : Canonical s.mem) :
    Canonical (s.reportExit die graph h err).mem := by
  unfold State.reportExit
  exact .ite (childExit_canonical hs) hs

theorem ownerExit_canonical {o : Owned} (hs : Canonical s.mem) : Canonical (s.ownerExit o).mem := by
  unfold State.ownerExit
  exact .ite hs (.ite hs (freeFrame_canonical hs))

theorem discard_canonical {r : Record} (hs : Canonical s.mem) : Canonical (s.discard r).mem :=
  childExit_canonical hs

theorem releaseGraph_canonical {g : Nat} (hs : Canonical s.mem) : Canonical (s.releaseGraph g).mem :=
  dropWaiting_canonical hs

theorem discardGraph_canonical {g : Nat} (hs : Canonical s.mem) : Canonical (s.discardGraph g).mem :=
  .foldState hs fun hs => discard_canonical hs

theorem endGraph_canonical {g status : Nat} {blame : Option Blame} (hs : Canonical s.mem) :
    Canonical (s.endGraph g status blame).mem := by
  unfold State.endGraph
  split
  · exact hs
  · exact .ite hs (discardGraph_canonical (releaseGraph_canonical hs))

theorem superBlock_canonical {id : Nat} {c : Ctx} {va : DWord} (hs : Canonical s.mem) :
    Canonical (s.superBlock id c va).1.mem := by
  unfold State.superBlock
  split
  · exact hs
  · split
    · exact .of_eq ‹_› (translate_canonical hs)
    · have kept := Canonical.of_eq ‹_› (translate_canonical hs)
      split
      · exact .of_eq ‹_› (controlBlock_canonical kept)
      · exact .ite_fst (.of_eq ‹_› (controlBlock_canonical kept)) (.of_eq ‹_› (controlBlock_canonical kept))

theorem superEntry_canonical {id : Nat} {c : Ctx} {va : DWord} (hs : Canonical s.mem) :
    Canonical (s.superEntry id c va).1.mem := by
  unfold State.superEntry
  split
  · exact .of_eq ‹_› (superBlock_canonical hs)
  · have kept := Canonical.of_eq ‹_› (superBlock_canonical hs)
    split
    · exact kept
    · split <;> exact .of_eq ‹_› (translate_canonical kept)

theorem writeFault_canonical {id : Nat} {c : Ctx} {b : Super} {t : Trap} {state : Nat} {pc : DWord} {progress : Nat}
    (hs : Canonical s.mem) : Canonical (s.writeFault id c b t state pc progress).1.mem := by
  unfold State.writeFault
  extract_lets head v va lost
  have mapped : Canonical (v.translate id c va 1).1.mem := translate_canonical (writeNat_canonical hs)
  split
  · exact logError_canonical (.of_eq ‹_› mapped)
  · have found := Canonical.of_eq ‹_› mapped
    split
    · exact logError_canonical found
    · exact writeHome_canonical (touchPage_canonical found)

theorem engineRecord_canonical {id : Nat} {t : Trap} {state : Nat} {pc : DWord} {progress : Nat} (hs : Canonical s.mem) :
    Canonical (s.engineRecord id t state pc progress).1.mem := by
  unfold State.engineRecord
  split
  · exact hs
  · split
    · exact hs
    · split
      · exact hs
      · split
        · exact .of_eq ‹_› (superBlock_canonical hs)
        · exact writeFault_canonical (.of_eq ‹_› (superBlock_canonical hs))

theorem laneRecord_canonical {id : Nat} {t : Trap} (hs : Canonical s.mem) : Canonical (s.laneRecord id t).mem :=
  engineRecord_canonical hs

theorem takeTrap_canonical {id i : Nat} {t : Trap} {engine : Option Nat} (hs : Canonical s.mem) :
    Canonical (s.takeTrap id i t engine).mem := by
  simp only [State.takeTrap]
  split
  · exact hs
  · split
    · exact hs
    · split
      · exact .ite (endGraph_canonical hs) hs
      · split
        · split
          · exact endGraph_canonical hs
          · split
            · exact endGraph_canonical (.of_eq ‹_› (superEntry_canonical hs))
            · have found := Canonical.of_eq ‹_› (superEntry_canonical hs)
              split
              · exact endGraph_canonical found
              · split
                · have recorded {b : Super} {pc : DWord} := writeFault_canonical found (id := id) (c := ‹_›) (b := b)
                    (t := t) (state := 0) (pc := pc) (progress := 0)
                  simpa using recorded
                · exact found
        · exact .ite (endGraph_canonical hs) hs

theorem finish_canonical {id i : Nat} {next : DWord} {r : Res} (hr : Canonical r.state.mem) :
    Canonical (r.finish id i next).mem := by
  unfold Res.finish
  cases r with
  | trap u x => exact takeTrap_canonical hr
  | done u | commit u | set u | wait u w | commitWait u w | doneWait u w => simpa [Res.state] using hr

theorem closeRecord_canonical {h : Handler} {state : Nat} (hs : Canonical s.mem) :
    Canonical (s.closeRecord h state).mem := by
  unfold State.closeRecord
  split
  · exact writeNat_canonical hs
  · exact hs

theorem issueOn_canonical {f : Form} {bytes : Nat} {more : List Field} {illegal absent : Issue → State → Bool}
    {written : Issue → LaneMask} {act : Issue → State → Res} (hs : Canonical s.mem)
    (acts : ∀ is, Canonical (act is s).state.mem) : CanonicalOut (issueOn f bytes more illegal absent written act s) := by
  unfold issueOn
  split
  · trivial
  · refine finish_canonical ?_
    split
    · exact hs
    · split
      · exact hs
      · split
        · exact hs
        · split
          · exact hs
          · exact hs
          · exact hs
          · split
            · exact acts _
            · exact hs

theorem issueWith_canonical {f : Form} {bytes : Nat} {more : List Field} {illegal absent : Issue → State → Bool}
    {act : Issue → State → Res} (hs : Canonical s.mem) (acts : ∀ is, Canonical (act is s).state.mem) :
    CanonicalOut (issueWith f bytes more illegal absent act s) :=
  issueOn_canonical hs acts

theorem issue_canonical {f : Form} {bytes : Nat} {act : Issue → State → Res} (hs : Canonical s.mem)
    (acts : ∀ is, Canonical (act is s).state.mem) : CanonicalOut (issue f bytes act s) :=
  issueWith_canonical hs acts

end Sys2Proof.MemoryForm
end

section
/-! O54, barriers, what settles before an access, and the operations in flight. -/

namespace Sys2Proof.MemoryForm

open Machine Laws

variable {s t u : State} {α : Type}

theorem setTbar_canonical {core off : Nat} {b : TBar} (hs : Canonical s.mem) : Canonical (s.setTbar core off b).mem :=
  writeScratch_canonical hs

theorem landBytes_canonical {b : Binding} {n : Nat} (hs : Canonical s.mem) : Canonical (s.landBytes b n).mem := by
  unfold State.landBytes
  exact .ite hs (setTbar_canonical hs)

theorem poisonBarrier_canonical {b : Binding} (hs : Canonical s.mem) : Canonical (s.poisonBarrier b).mem :=
  setTbar_canonical hs

theorem releaseBarrier_canonical {pair : Bool} {id : Nat} (hs : Canonical s.mem) :
    Canonical (s.releaseBarrier pair id).mem := by
  unfold State.releaseBarrier
  exact .ite (crossEdge_canonical hs) hs

theorem phaseSide_canonical {tid side : Nat} (hs : Canonical s.mem) : Canonical (s.phaseSide tid side).mem := by
  unfold State.phaseSide
  split
  · exact hs
  · exact .ite hs hs

theorem releaseSide_canonical {tid side : Nat} (hs : Canonical s.mem) : Canonical (s.releaseSide tid side).mem := by
  unfold State.releaseSide
  split
  · exact hs
  · exact .ite (.foldState hs fun hs => releaseBarrier_canonical hs) hs

theorem shareMarks_canonical {core : Nat} {ms : List (Nat × Ctx)} (hs : Canonical s.mem) :
    Canonical (s.shareMarks core ms).mem := by
  unfold State.shareMarks
  exact .ite hs (writeBackLines_canonical hs)

theorem settleBarrier_canonical {tid : Nat} (hs : Canonical s.mem) : Canonical (s.settleBarrier tid).mem := by
  unfold State.settleBarrier
  split
  · exact hs
  · split
    · exact hs
    · split
      · exact releaseSide_canonical (releaseSide_canonical (phaseSide_canonical (phaseSide_canonical hs)))
      · exact .ite (.foldState (.ite hs (shareMarks_canonical hs)) fun hs => releaseBarrier_canonical hs) hs

theorem loseBarrier_canonical {tid : Nat} (hs : Canonical s.mem) : Canonical (s.loseBarrier tid).mem :=
  .foldState hs fun hs => .foldState hs fun hs => takeTrap_canonical hs

theorem atomicAt_canonical {o : Op} {op : AtomicOp} {ty : Ty} {env : FpEnv} {a : AtomicLane} (hs : Canonical s.mem) :
    Canonical (s.atomicAt o op ty env a).1.mem := by
  unfold State.atomicAt
  split
  · split
    · exact .ite_fst (logPlace_canonical (settleSector_canonical hs)) (.ite (writePlace_canonical
        (touchEntry_canonical (settleSector_canonical hs))) (writePlace_canonical (touchEntry_canonical
        (settleSector_canonical hs))))
    · exact .ite_fst (logPlace_canonical (settleSector_canonical hs)) (.ite (writePlace_canonical
        (settleSector_canonical hs)) (writePlace_canonical (settleSector_canonical hs)))
  · split
    · exact .ite_fst (logPlace_canonical hs) (.ite (writePlace_canonical (touchEntry_canonical hs))
        (writePlace_canonical (touchEntry_canonical hs)))
    · exact .ite_fst (logPlace_canonical hs) (.ite (writePlace_canonical hs) (writePlace_canonical hs))

theorem reportLane_canonical {o : Op} {a : LaneAt} (hs : Canonical s.mem) : Canonical (s.reportLane o a).mem :=
  engineRecord_canonical hs

theorem performRed_canonical {n : Nat} {o : Op} {op : AtomicOp} {ty : Ty} {env : FpEnv} {lanes : List AtomicLane}
    (hs : Canonical s.mem) : Canonical (s.performRed n o op ty env lanes).mem := by
  unfold State.performRed
  refine Canonical.foldState hs fun hs => ?_
  split
  · have kept := Canonical.of_eq ‹_› (atomicAt_canonical hs)
    exact notePart_canonical (.ite (reportLane_canonical kept) kept)

theorem settleReads_canonical {id : Nat} (hs : Canonical s.mem) : Canonical (s.settleReads id).mem := by
  unfold State.settleReads
  refine Canonical.foldState hs fun hs => ?_
  split
  · exact readOp_canonical hs
  · exact performRed_canonical hs
  · exact hs

theorem settleReds_canonical {id : Nat} (hs : Canonical s.mem) : Canonical (s.settleReds id).mem := by
  unfold State.settleReds
  refine Canonical.foldState hs fun hs => ?_
  split
  · exact performRed_canonical hs
  · exact hs

theorem writeBack_canonical {id : Nat} (hs : Canonical s.mem) : Canonical (s.writeBack id).mem := by
  simp only [State.writeBack]
  split
  · exact writeBackLines_canonical (settleReads_canonical hs)
  · exact settleReads_canonical hs

theorem abandon_canonical {n : Nat} {cause : Cause} {detail : Nat} (hs : Canonical s.mem) :
    Canonical (s.abandon n cause detail).mem := by
  unfold State.abandon
  split
  · exact hs
  · split <;> exact hs

theorem modHandler_mem {n : Nat} {o : Op} {f : Handler → Handler} : (s.modHandler n o f).mem = s.mem :=
  rfl

theorem commitOp_canonical {n : Nat} {o : Op} (hs : Canonical s.mem) : Canonical (s.commitOp n o).mem := by
  simp only [State.commitOp]
  split_ifs <;> simpa [modHandler_mem] using hs

theorem refuseOp_canonical {n : Nat} {o : Op} {t : Trap} (hs : Canonical s.mem) : Canonical (s.refuseOp n o t).mem := by
  unfold State.refuseOp
  exact .ite hs (.ite hs (takeTrap_canonical hs))

theorem wakeOp_canonical {n : Nat} {o : Op} (hs : Canonical s.mem) : Canonical (s.wakeOp n o).mem := by
  unfold State.wakeOp
  exact .ite hs hs

theorem postStep_canonical {id pa : Nat} {poison : Bool} (hs : Canonical s.mem) :
    Canonical (s.postStep id pa poison).mem := by
  unfold State.postStep
  exact .ite (logUncorrectable_canonical (countLine_canonical hs)) (writeNat_canonical (countLine_canonical hs))

theorem endEngine_canonical {n : Nat} {t : Trap} (hs : Canonical s.mem) : Canonical (s.endEngine n t).mem := by
  simp only [State.endEngine]
  split
  · exact hs
  · split
    · have lands {b : Binding} {k : Nat} : Canonical ((s.landBytes b k).poisonBarrier b).mem :=
        poisonBarrier_canonical (landBytes_canonical hs)
      split
      · simpa using lands
      · simpa using lands
    · exact postStep_canonical hs
    · exact hs

theorem failEngine_canonical {n : Nat} {t : Trap} (hs : Canonical s.mem) : Canonical (s.failEngine n t).mem := by
  unfold State.failEngine
  split
  · exact hs
  · exact endEngine_canonical (engineRecord_canonical hs)

theorem restart_canonical {id i : Nat} (hs : Canonical s.mem) : Canonical (s.restart id i).mem := by
  unfold State.restart
  split
  · exact hs
  · exact .foldState (.foldState (writeBack_canonical hs) fun hs => abandon_canonical hs) fun hs => freeFrame_canonical hs

theorem killGroup_canonical {id : Nat} (hs : Canonical s.mem) : Canonical (s.killGroup id).mem :=
  dropWaiting_canonical hs

theorem exitSupervisor_canonical {id : Nat} {c : Ctx} {h : Handler} (hs : Canonical s.mem) :
    Canonical (s.exitSupervisor id c h).mem := by
  unfold State.exitSupervisor
  split
  · exact .ite (endGraph_canonical (killGroup_canonical (endEngine_canonical (closeRecord_canonical hs))))
      (killGroup_canonical (endEngine_canonical (closeRecord_canonical hs)))
  · exact .ite (endGraph_canonical (killGroup_canonical (closeRecord_canonical hs))) (killGroup_canonical
      (closeRecord_canonical hs))

theorem exitHandler_canonical {id i : Nat} {lanes : LaneMask} (hs : Canonical s.mem) :
    Canonical (s.exitHandler id i lanes).mem := by
  unfold State.exitHandler
  split
  · exact hs
  · split
    · exact .ite hs (.ite (exitSupervisor_canonical hs) (.ite hs hs))
    · exact hs

theorem exitLanes_canonical {id i : Nat} {lanes : LaneMask} {err : Bool} (hs : Canonical s.mem) :
    Canonical (s.exitLanes id i lanes err).mem := by
  simp only [State.exitLanes]
  split
  · exact exitHandler_canonical hs
  · exact settleBarrier_canonical (exitHandler_canonical hs)

end Sys2Proof.MemoryForm
end

section
/-! O54, launches, tasks and frames. -/

namespace Sys2Proof.MemoryForm

open Machine Laws

variable {s t u : State} {α : Type}

theorem nodeVia_canonical {core die n : Nat} (hs : Canonical s.mem) : Canonical (s.nodeVia core die n).1.mem := by
  simp only [State.nodeVia]
  split
  · exact hs
  · split
    · exact .of_eq ‹_› (controlBlock_canonical hs)
    · have kept := Canonical.of_eq ‹_› (controlBlock_canonical hs)
      split <;> exact kept

theorem kindVia_canonical {core die n : Nat} (hs : Canonical s.mem) : Canonical (s.kindVia core die n).1.mem := by
  simp only [State.kindVia]
  split
  · exact hs
  · split <;> exact .of_eq ‹_› (controlBlock_canonical hs)

theorem reportEntry_canonical {pa : Nat} (hs : Canonical s.mem) : Canonical (s.reportEntry pa).mem := by
  unfold State.reportEntry
  split
  · exact logUncorrectable_canonical hs
  · exact hs

theorem send_canonical {r : Sent} (hs : Canonical s.mem) : Canonical (s.send r).mem := by
  unfold State.send
  exact .ite (discard_canonical hs) hs

theorem fireArm_canonical {source : Nat} {issuer : Option Nat} {die arm : Nat} {a : Arm} {args : List Word}
    {host link : Bool} {compl : DWord} {slot : Option (Nat × Nat)} (hs : Canonical s.mem) :
    Canonical (s.fireArm source issuer die arm a args host link compl slot).mem :=
  send_canonical (wakeDie_canonical hs)

theorem failLaunch_canonical {g : Nat} {c : Cause} {records : List Record} (hs : Canonical s.mem) :
    Canonical (s.failLaunch g c records).mem :=
  .foldState (endGraph_canonical hs) fun hs => discard_canonical hs

theorem launchTeam_canonical {die node g : Nat} {records : List Record} {sweep : Option (List Word × Machine.Tree)}
    (hs : Canonical s.mem) : Canonical (s.launchTeam die node g records sweep).mem := by
  unfold State.launchTeam
  split
  · exact failLaunch_canonical (reportEntry_canonical hs)
  · exact .ite (failLaunch_canonical hs) hs

theorem launchKey_canonical {die node : Nat} {key : Word} {g most : Nat} (hs : Canonical s.mem) :
    Canonical (s.launchKey die node key g most).mem := by
  unfold State.launchKey
  exact .ite hs (launchTeam_canonical hs)

theorem launchOldest_canonical {die : Nat} (hs : Canonical s.mem) : Canonical (s.launchOldest die).mem := by
  unfold State.launchOldest
  split
  · exact hs
  · exact launchKey_canonical hs

theorem launchFull_canonical (hs : Canonical s.mem) : Canonical s.launchFull.mem := by
  unfold State.launchFull
  exact .foldState hs fun hs => .ite hs (launchOldest_canonical hs)

theorem deposit_canonical {die node : Nat} {key : Word} {r : Record} (hs : Canonical s.mem) :
    Canonical (s.deposit die node key r).mem := by
  unfold State.deposit
  split
  · exact discard_canonical hs
  · exact .ite (.ite (launchOldest_canonical (.ite (launchOldest_canonical hs) hs)) (.ite (launchOldest_canonical hs)
      hs)) (launchKey_canonical (.ite (launchOldest_canonical (.ite (launchOldest_canonical hs) hs)) (.ite
      (launchOldest_canonical hs) hs)))

theorem launchBin_canonical {b : Bin} {most : Nat} (hs : Canonical s.mem) : Canonical (s.launchBin b most).mem := by
  simp only [State.launchBin]
  split
  · exact failLaunch_canonical (logUncorrectable_canonical (.ite hs hs))
  · exact launchTeam_canonical (.ite hs hs)

theorem coalesce_canonical {die count : Nat} {launch : Bool} {r : Record} (hs : Canonical s.mem) :
    Canonical (s.coalesce die count launch r).mem := by
  unfold State.coalesce
  exact .ite (launchBin_canonical hs) hs

theorem launchOverdue_canonical (hs : Canonical s.mem) : Canonical s.launchOverdue.mem := by
  unfold State.launchOverdue
  refine Canonical.foldState hs fun hs => ?_
  split
  · exact hs
  · exact .ite (launchBin_canonical hs) hs

theorem launchOverdueKeys_canonical (hs : Canonical s.mem) : Canonical s.launchOverdueKeys.mem := by
  unfold State.launchOverdueKeys
  refine Canonical.foldState hs fun hs => ?_
  split
  · exact hs
  · exact .ite (launchKey_canonical hs) hs

theorem enterBin_canonical {die : Nat} {launch : Bool} {r : Record} (hs : Canonical s.mem) :
    Canonical (s.enterBin die launch r).mem := by
  simp only [State.enterBin]
  split
  · exact discard_canonical (wakeDie_canonical hs)
  · split
    · exact failLaunch_canonical (reportEntry_canonical (wakeDie_canonical hs))
    · split
      · exact .ite (failLaunch_canonical (wakeDie_canonical hs)) (wakeDie_canonical hs)
      · exact deposit_canonical (wakeDie_canonical hs)
      · exact coalesce_canonical (wakeDie_canonical hs)

theorem allocFrame_canonical {c : Ctx} {lane : Nat} {promise : Bool} (hs : Canonical s.mem) :
    Canonical (s.allocFrame c lane promise).1.mem := by
  unfold State.allocFrame
  split
  · exact hs
  · extract_lets k f f'
    have taken : Canonical (s.setFrame k f').mem := setFrame_canonical hs
    exact taken

theorem allocFrames_canonical {c : Ctx} {promise : Bool} {ls : List Nat} (hs : Canonical s.mem) :
    Canonical (s.allocFrames c promise ls).1.mem := by
  induction ls generalizing s with
  | nil => exact hs
  | cons l ls ih =>
    unfold State.allocFrames
    split
    · exact .of_eq ‹_› (allocFrame_canonical hs)
    · rename_i allocated
      have rest := ih (.of_eq allocated (allocFrame_canonical hs))
      split <;> exact .of_eq ‹_› rest

theorem newFrames_canonical {f : XC} {promise : Bool} (hs : Canonical s.mem) : CanonicalOut (newFrames f promise s) := by
  simp only [newFrames]
  refine issueWith_canonical hs fun _ => ?_
  split
  · exact hs
  · have kept := Canonical.of_eq ‹_› (allocFrames_canonical hs)
    split <;> exact .ite kept kept

theorem execFnew_canonical {f : XC} (hs : Canonical s.mem) : CanonicalOut (execFnew f s) :=
  newFrames_canonical hs

theorem execFnewP_canonical {f : XC} (hs : Canonical s.mem) : CanonicalOut (execFnewP f s) :=
  newFrames_canonical hs

theorem reportFrames_canonical {l : List Word} (hs : Canonical s.mem) : Canonical (s.reportFrames l).mem := by
  unfold State.reportFrames
  exact .foldState hs fun hs => .ite (logUncorrectable_canonical hs) hs

theorem poisonRecord_canonical {id : Nat} {t : Trap} (hs : Canonical s.mem) : Canonical (s.poisonRecord id t).mem := by
  unfold State.poisonRecord
  exact .ite (laneRecord_canonical hs) hs

theorem refuseFrames_canonical {id : Nat} {l : List Word} {t : Trap} (hs : Canonical s.mem) :
    Canonical (s.refuseFrames id l t).mem :=
  poisonRecord_canonical (reportFrames_canonical hs)

theorem execFdone_canonical {f : XC} (hs : Canonical s.mem) : CanonicalOut (execFdone f s) := by
  simp only [execFdone]
  refine issue_canonical hs fun _ => ?_
  split
  · exact refuseFrames_canonical hs
  · exact writeBack_canonical hs

theorem promiseDone_canonical {h : Word} (hs : Canonical s.mem) : Canonical (s.promiseDone h).mem := by
  unfold State.promiseDone
  exact .ite (freeFrame_canonical (releaseFrame_canonical (setFrame_canonical hs))) (releaseFrame_canonical
      (setFrame_canonical hs))

theorem promisesDone_canonical {l : List (Nat × Word)} (all : s.promisesDone l = .ok t) (hs : Canonical s.mem) :
    Canonical t.mem := by
  induction l generalizing s with
  | nil =>
    cases all
    exact hs
  | cons e l ih =>
    unfold State.promisesDone at all
    split at all
    · exact ih all (promiseDone_canonical hs)
    · cases all

theorem execFdonePerform_canonical {op : Nat} (hs : Canonical s.mem) : CanonicalOut (execFdonePerform op s) := by
  unfold execFdonePerform
  split
  · exact hs
  · split
    · split
      · exact refuseOp_canonical hs
      · exact commitOp_canonical (promisesDone_canonical ‹_› hs)
    · exact hs

theorem awaitFrame_canonical {h : Word} (hs : Canonical s.mem) : Canonical (s.awaitFrame h).1.mem := by
  simp only [State.awaitFrame]
  split
  · exact hs
  · exact hs
  · exact .ite_fst (setFrame_canonical hs) hs
  · exact hs

theorem awaitFrames_canonical {l : List (Nat × Word)} (hs : Canonical s.mem) : Canonical (s.awaitFrames l).1.mem := by
  induction l generalizing s with
  | nil => exact hs
  | cons e l ih =>
    unfold State.awaitFrames
    split
    · exact .of_eq ‹_› (awaitFrame_canonical hs)
    · rename_i awaited
      have rest := ih (.of_eq awaited (awaitFrame_canonical hs))
      split <;> exact .of_eq ‹_› rest

theorem parkOn_canonical {id : Nat} {c : Ctx} {r : Resumes} {h : Word} (hs : Canonical s.mem) :
    Canonical (s.parkOn id c r h).mem := by
  unfold State.parkOn
  exact .ite (writeBack_canonical hs) (setWaiting_canonical (writeBack_canonical hs))

theorem execFawait_canonical {f : XC} (hs : Canonical s.mem) : CanonicalOut (execFawait f s) := by
  simp only [execFawait]
  refine issue_canonical hs fun _ => ?_
  split
  · exact refuseFrames_canonical hs
  · split
    · exact parkOn_canonical (.of_eq ‹_› (awaitFrames_canonical hs))
    · have kept := Canonical.of_eq ‹_› (awaitFrames_canonical hs)
      exact crossEdge_canonical kept

theorem execFpoll_canonical {f : XC} (hs : Canonical s.mem) : CanonicalOut (execFpoll f s) := by
  simp only [execFpoll]
  refine issue_canonical hs fun _ => ?_
  split
  · exact refuseFrames_canonical hs
  · exact hs

theorem armVia_canonical {core die n : Nat} (hs : Canonical s.mem) : Canonical (s.armVia core die n).1.mem := by
  simp only [State.armVia]
  split
  · exact hs
  · split
    · exact .of_eq ‹_› (controlBlock_canonical hs)
    · have kept := Canonical.of_eq ‹_› (controlBlock_canonical hs)
      split
      · exact .of_eq ‹_› (kindVia_canonical kept)
      · exact .ite_fst (.of_eq ‹_› (kindVia_canonical kept)) (.of_eq ‹_› (kindVia_canonical kept))

theorem checkTarget_canonical {core : Nat} {fire : Bool} {n die : Nat} (hs : Canonical s.mem) :
    Canonical (s.checkTarget core fire n die).1.mem := by
  unfold State.checkTarget
  split
  · split <;> exact .of_eq ‹_› (armVia_canonical hs)
  · split <;> exact .of_eq ‹_› (nodeVia_canonical hs)

theorem checkTargets_canonical {core : Nat} {fire : Bool} {n : Nat} {ms l : List Made} (hs : Canonical s.mem) :
    Canonical (s.checkTargets core fire n ms l).1.mem := by
  induction l generalizing s with
  | nil => exact hs
  | cons m rest ih =>
    unfold State.checkTargets
    split
    · exact .of_eq ‹_› (checkTarget_canonical hs)
    · rename_i checked
      exact ih (.of_eq checked (checkTarget_canonical hs))

theorem checkRecords_canonical {is : Issue} {fire table : Bool} {n : Nat} {handles : Bool} {ms : List Made}
    (hs : Canonical s.mem) : Canonical (s.checkRecords is fire table n handles ms).1.mem := by
  unfold State.checkRecords
  split
  · exact hs
  · split
    · exact refuseFrames_canonical hs
    · split
      · exact poisonRecord_canonical (.of_eq ‹_› (.ite_fst (checkTargets_canonical (settleReads_canonical hs)) hs))
      · exact .of_eq ‹_› (.ite_fst (checkTargets_canonical (settleReads_canonical hs)) hs)

theorem execSpawn_canonical {f : XC} (hs : Canonical s.mem) : CanonicalOut (execSpawn f s) := by
  simp only [execSpawn]
  refine issue_canonical hs fun _ => ?_
  split
  · exact .of_eq ‹_› (checkRecords_canonical hs)
  · have kept := Canonical.of_eq ‹_› (checkRecords_canonical hs)
    split
    · exact kept
    · split
      · exact .foldState (writeBack_canonical kept) fun hs => send_canonical hs
      · exact writeBack_canonical kept

theorem raiseFrame_canonical {h : Word} (raised : s.raiseFrame h = some t) (hs : Canonical s.mem) : Canonical t.mem := by
  unfold State.raiseFrame at raised
  split at raised
  · cases raised
    exact hs
  · split at raised
    · cases raised
    · split at raised
      · cases raised
      · cases raised
        exact setFrame_canonical hs

theorem raiseFrames_canonical {l : List (Nat × Sent)} (raised : s.raiseFrames l = .ok t) (hs : Canonical s.mem) :
    Canonical t.mem := by
  induction l generalizing s with
  | nil =>
    cases raised
    exact hs
  | cons r l ih =>
    unfold State.raiseFrames at raised
    split at raised
    · cases raised
    · exact ih raised (raiseFrame_canonical ‹_› hs)

theorem execSpawnFrameRaise_canonical {op : Nat} (hs : Canonical s.mem) : CanonicalOut (execSpawnFrameRaise op s) := by
  unfold execSpawnFrameRaise
  split
  · exact hs
  · split
    · split
      · exact refuseOp_canonical hs
      · exact .foldState (commitOp_canonical (raiseFrames_canonical ‹_› hs)) fun hs => send_canonical hs
    · exact hs

theorem execEmit_canonical {f : XC} (hs : Canonical s.mem) : CanonicalOut (execEmit f s) := by
  simp only [execEmit]
  refine issue_canonical hs fun _ => ?_
  split
  · exact .of_eq ‹_› (checkRecords_canonical hs)
  · have kept := Canonical.of_eq ‹_› (checkRecords_canonical hs)
    split
    · exact kept
    · exact .foldState (writeBack_canonical kept) fun hs => send_canonical hs

theorem execFire_canonical {f : XC} (hs : Canonical s.mem) : CanonicalOut (execFire f s) := by
  simp only [execFire]
  refine issue_canonical hs fun _ => ?_
  split
  · exact .of_eq ‹_› (checkRecords_canonical hs)
  · have kept := Canonical.of_eq ‹_› (checkRecords_canonical hs)
    split
    · exact kept
    · refine Canonical.foldState (writeBack_canonical kept) fun hs => ?_
      split
      · exact .of_eq ‹_› (armVia_canonical hs)
      · exact fireArm_canonical (.of_eq ‹_› (armVia_canonical hs))

theorem passFrame_canonical {h : Word} (passed : s.passFrame h = some t) (hs : Canonical s.mem) : Canonical t.mem := by
  unfold State.passFrame at passed
  split at passed
  · cases passed
    exact hs
  · split at passed
    · split at passed
      · cases passed
        exact setFrame_canonical hs
      · cases passed
    · split at passed
      · cases passed
        exact hs
      · cases passed
    · cases passed
      exact hs

theorem reportAwaited_canonical {id task : Nat} {h : Word} (hs : Canonical s.mem) :
    Canonical (s.reportAwaited id task h).mem :=
  poisonRecord_canonical (reportFrames_canonical hs)

theorem awaitTask_canonical {id task : Nat} {l : List Word} (hs : Canonical s.mem) :
    Canonical (s.awaitTask id task l).1.mem := by
  induction l generalizing s with
  | nil => exact hs
  | cons h l ih =>
    have told := reportAwaited_canonical hs (id := id) (task := task) (h := h)
    unfold State.awaitTask
    split
    · have passed := passFrame_canonical ‹_› told
      exact ih passed
    · split
      · exact parkOn_canonical hs
      · exact hs

theorem awaitOwned_canonical {id task : Nat} (hs : Canonical s.mem) : Canonical (s.awaitOwned id task).1.mem := by
  unfold State.awaitOwned
  split
  · exact hs
  · exact .ite_fst hs (awaitTask_canonical hs)

theorem awaitTasks_canonical {id : Nat} {l : List Nat} (hs : Canonical s.mem) : Canonical (s.awaitTasks id l).1.mem := by
  induction l generalizing s with
  | nil => exact hs
  | cons task l ih => exact ih (awaitOwned_canonical hs)

theorem execReord_canonical {f : XC} (hs : Canonical s.mem) : CanonicalOut (execReord f s) := by
  simp only [execReord]
  refine issue_canonical hs fun _ => ?_
  split
  · exact poisonRecord_canonical (.of_eq ‹_› (nodeVia_canonical (settleReads_canonical hs)))
  · have kept := Canonical.of_eq ‹_› (nodeVia_canonical (settleReads_canonical hs))
    split
    · exact kept
    · split
      · exact .of_eq ‹_› (.ite_fst (awaitTasks_canonical kept) kept)
      · have kept' := Canonical.of_eq ‹_› (.ite_fst (awaitTasks_canonical kept) kept)
        split
        · exact launchOldest_canonical kept'
        · exact exitLanes_canonical (.foldState (writeBack_canonical kept') fun hs => deposit_canonical hs)

theorem execPqpush_canonical {f : XC} (hs : Canonical s.mem) : CanonicalOut (execPqpush f s) := by
  simp only [execPqpush]
  refine issue_canonical hs fun _ => ?_
  split
  · exact .of_eq ‹_› (checkRecords_canonical hs)
  · exact .foldState (writeBack_canonical (.of_eq ‹_› (checkRecords_canonical hs))) fun hs => hs

theorem execPqPushPerform_canonical {op : Nat} (hs : Canonical s.mem) : CanonicalOut (execPqPushPerform op s) := by
  unfold execPqPushPerform
  split
  · exact hs
  · split
    · exact .ite hs hs
    · exact hs

theorem execPqpop_canonical {f : XC} (hs : Canonical s.mem) : CanonicalOut (execPqpop f s) :=
  issue_canonical hs fun _ => hs

theorem popped_canonical {op : Nat} {o : Op} {die : Nat} {regs : List (List Nat)} {e : Option PqEntry}
    (hs : Canonical s.mem) : Canonical (s.popped op o die regs e).mem :=
  keepOp_canonical (crossEdge_canonical hs)

theorem execPqPopPerform_canonical {op pick : Nat} (hs : Canonical s.mem) :
    CanonicalOut (execPqPopPerform op pick s) := by
  simp only [execPqPopPerform]
  split
  · exact hs
  · split
    · split
      · exact hs
      · split
        · exact popped_canonical hs
        · split
          · exact hs
          · split
            · exact popped_canonical hs
            · exact hs
    · exact hs

theorem dropTeam_canonical {tid : Nat} (hs : Canonical s.mem) : Canonical (s.dropTeam tid).mem :=
  .foldState hs fun hs => hs

theorem breakGangs_canonical {c : Ctx} (hs : Canonical s.mem) : Canonical (s.breakGangs c).mem := by
  unfold State.breakGangs
  exact .ite hs (.foldState hs fun hs => takeTrap_canonical hs)

theorem dropCtx_canonical {id : Nat} {c : Ctx} (hs : Canonical s.mem) : Canonical (s.dropCtx id c).mem := by
  unfold State.dropCtx
  exact .ite (dropTeam_canonical (breakGangs_canonical (dropWaiting_canonical hs))) (settleBarrier_canonical
      (breakGangs_canonical (dropWaiting_canonical hs)))

theorem settleGroup_canonical {id : Nat} (hs : Canonical s.mem) : Canonical (s.settleGroup id).mem := by
  unfold State.settleGroup
  split
  · exact hs
  · exact .ite (dropCtx_canonical hs) hs

theorem report_canonical {id : Nat} {c : Ctx} {task : Nat} (hs : Canonical s.mem) :
    Canonical (s.report id c task).mem := by
  unfold State.report
  split
  · exact writeBack_canonical (.foldState hs fun hs => ownerExit_canonical hs)
  · exact .ite (writeBack_canonical (.foldState hs fun hs => ownerExit_canonical hs)) (reportExit_canonical
      (writeBack_canonical (.foldState hs fun hs => ownerExit_canonical hs)))

theorem execTaskReport_canonical {ctx task : Nat} (hs : Canonical s.mem) : CanonicalOut (execTaskReport ctx task s) := by
  simp only [execTaskReport]
  split
  · exact hs
  · split
    · exact hs
    · split
      · exact .of_eq ‹_› (awaitOwned_canonical hs)
      · exact settleGroup_canonical (report_canonical (.of_eq ‹_› (awaitOwned_canonical hs)))

end Sys2Proof.MemoryForm
end

section
/-! O54, loads, stores and atomics. -/

namespace Sys2Proof.MemoryForm

open Machine Laws

variable {s t u : State} {α : Type}

theorem checkGlobal_canonical {is : Issue} {va : DWord} {n kind : Nat} {pcie : Bool}
    {translate : State → State × Except Trap Mapped} {l : Nat} (hs : Canonical s.mem)
    (translates : Canonical (translate s).1.mem) : Canonical (checkGlobal is va n kind pcie translate l s).1.mem := by
  unfold checkGlobal
  split
  · exact hs
  · split
    · exact .of_eq ‹_› translates
    · rename_i mapped
      exact .ite_fst (.of_eq mapped translates) (.ite_fst (.of_eq mapped translates) (.of_eq mapped translates))

theorem locate_canonical {f : XM} {is : Issue} {n kind : Nat} {pcie : Bool} {l : Nat} (hs : Canonical s.mem) :
    Canonical (f.locate is n kind pcie l s).1.mem := by
  simp only [XM.locate]
  split
  · exact checkGlobal_canonical hs (throughX_canonical hs)
  · exact hs
  · exact hs
  · exact .ite_fst hs hs
  · exact checkGlobal_canonical hs (translate_canonical hs)

theorem locateLanes_canonical {check : Nat → State → State × Except Trap LaneAt} {ls : List Nat} (hs : Canonical s.mem)
    (checks : ∀ {l s}, Canonical s.mem → Canonical (check l s).1.mem) : Canonical (locateLanes check ls s).1.mem := by
  induction ls generalizing s with
  | nil => exact hs
  | cons l ls ih =>
    have rest := ih (checks hs (l := l))
    simp only [locateLanes]
    split <;> exact rest

theorem locateAll_canonical {check : Nat → State → State × Except Trap LaneAt} {split : Bool} {ls : List Nat}
    (hs : Canonical s.mem) (checks : ∀ {l s}, Canonical s.mem → Canonical (check l s).1.mem) :
    Canonical (locateAll check split ls s).1.mem := by
  unfold locateAll
  split <;> exact .of_eq ‹_› (locateLanes_canonical hs checks)

theorem access_canonical {f : XM} {is : Issue} {kind : Nat} {pcie scalar : Bool} (hs : Canonical s.mem) :
    Canonical (f.access is kind pcie scalar s).1.mem :=
  locateAll_canonical hs fun hs => locate_canonical hs

theorem readScratchLanes_canonical {scalar : Bool} {reg : Nat} {ty : Ty} {lanes : List LaneAt} (hs : Canonical s.mem) :
    Canonical (readScratchLanes s scalar reg ty lanes).1.mem := by
  refine foldl_canonical hs fun {acc _} h => ?_
  exact .ite_fst (logPlace_canonical h) h

theorem loadMem_canonical {f : XM} {form : Form} {bytes : Nat} {scalar : Bool} (hs : Canonical s.mem) :
    CanonicalOut (loadMem f form bytes scalar s) := by
  simp only [loadMem]
  refine issueWith_canonical hs fun _ => ?_
  split
  · exact hs
  · split
    · exact .of_eq ‹_› (access_canonical hs)
    · have kept := Canonical.of_eq ‹_› (access_canonical hs)
      split
      · split
        · exact settleReds_canonical kept
        · exact startLoad_canonical (settleReds_canonical kept)
      · split
        · exact settleReds_canonical kept
        · exact noteScratch_canonical (readScratchLanes_canonical (settleReds_canonical kept))

theorem execLd_canonical {f : XM} (hs : Canonical s.mem) : CanonicalOut (execLd f s) :=
  loadMem_canonical hs

theorem execSld_canonical {f : XM} (hs : Canonical s.mem) : CanonicalOut (execSld f s) :=
  loadMem_canonical hs

theorem execLdB32XBase_canonical {f : Base} (hs : Canonical s.mem) : CanonicalOut (execLdB32XBase f s) :=
  loadMem_canonical hs

theorem execLdB32ScBase_canonical {f : Base} (hs : Canonical s.mem) : CanonicalOut (execLdB32ScBase f s) :=
  loadMem_canonical hs

theorem storeLane_canonical {core id handle n : Nat} {a : LaneAt} {value : Nat} (hs : Canonical s.mem) :
    Canonical (s.storeLane core id handle n a value).mem := by
  unfold State.storeLane
  split
  · refine storeL1_canonical ?_
    split
    · exact touchEntry_canonical hs
    · exact hs
  · exact writeScratch_canonical hs

theorem storeMem_canonical {f : XM} {form : Form} {bytes : Nat} {scalar : Bool} (hs : Canonical s.mem) :
    CanonicalOut (storeMem f form bytes scalar s) := by
  unfold storeMem
  refine issueWith_canonical hs fun _ => ?_
  split
  · exact hs
  · split
    · exact .of_eq ‹_› (access_canonical hs)
    · have kept := Canonical.of_eq ‹_› (access_canonical hs)
      split
      · exact settleReads_canonical kept
      · exact noteScratch_canonical (.foldState (settleReads_canonical kept) fun hs => storeLane_canonical hs)

theorem execSt_canonical {f : XM} (hs : Canonical s.mem) : CanonicalOut (execSt f s) :=
  storeMem_canonical hs

theorem execSst_canonical {f : XM} (hs : Canonical s.mem) : CanonicalOut (execSst f s) :=
  storeMem_canonical hs

theorem execStB32XBase_canonical {f : Base} (hs : Canonical s.mem) : CanonicalOut (execStB32XBase f s) :=
  storeMem_canonical hs

theorem execStB32ScBase_canonical {f : Base} (hs : Canonical s.mem) : CanonicalOut (execStB32ScBase f s) :=
  storeMem_canonical hs

theorem prefetched_canonical {f : XM} {is : Issue} {ls : List Nat} (hs : Canonical s.mem) :
    Canonical (f.prefetched is ls s).1.mem := by
  induction ls generalizing s with
  | nil => exact hs
  | cons l ls ih =>
    have translated {va : DWord} {o : Int} : Canonical (if f.space.toNat = 0 then s.throughX is.id f.xsel.toNat o 0
        else s.translate is.id is.c va 0).1.mem := .ite_fst (throughX_canonical hs) (translate_canonical hs)
    simp only [XM.prefetched]
    split
    · exact ih (.of_eq ‹_› translated)
    · exact ih (.of_eq ‹_› translated)

theorem execPf_canonical {f : XM} (hs : Canonical s.mem) : CanonicalOut (execPf f s) := by
  simp only [execPf]
  refine issue_canonical hs fun _ => ?_
  split
  · exact hs
  · split
    · exact prefetched_canonical hs
    · split
      · exact prefetched_canonical hs
      · exact .foldState (requestSectors_canonical (prefetched_canonical hs)) fun hs => loadL1_canonical
          (claimLine_canonical hs)

theorem fillLoad_canonical {n : Nat} {lanes : LaneMask} (hs : Canonical s.mem) : Canonical (s.fillLoad n lanes).mem := by
  simp only [State.fillLoad]
  split
  · exact readOp_canonical hs
  · split
    · exact keepOp_canonical (readOp_canonical hs)
    · exact readOp_canonical hs

theorem gatherLanes_canonical {n : Nat} {o : Op} {reg : Nat} {ty : Ty} {lanes : List LaneAt} (hs : Canonical s.mem) :
    Canonical (s.gatherLanes n o reg ty lanes).mem := by
  have fetched : Canonical (foldState (lanesLines lanes) s fun s line => s.fetchLine o.core 0 (some n) line).mem :=
    hs.foldState fetchLine_canonical
  exact noteLanes_canonical (foldl_canonical fetched fun h => .ite_fst (logPlace_canonical h) h)

theorem fillLanes_canonical {n : Nat} {o : Op} {lanes : LaneMask} (hs : Canonical s.mem) :
    Canonical (s.fillLanes n o lanes).mem := by
  simp only [State.fillLanes]
  split
  · exact fillLoad_canonical hs
  · exact keepOp_canonical hs
  · exact keepOp_canonical (gatherLanes_canonical hs)
  · exact keepOp_canonical (hs.foldState fun h => notePart_canonical h)
  · exact hs

theorem execProducerWatchdog_canonical {op : Nat} (hs : Canonical s.mem) : CanonicalOut (execProducerWatchdog op s) := by
  unfold execProducerWatchdog
  split
  · exact hs
  · exact .ite (abandon_canonical hs) hs

theorem countWrites_canonical {id : Nat} {lanes : List LaneAt} (hs : Canonical s.mem) :
    Canonical (s.countWrites id lanes).mem :=
  .foldState hs fun hs => countLine_canonical hs

theorem atomicMem_canonical {f : XM} {form : Form} {op : AtomicOp} {ret : Bool} (hs : Canonical s.mem) :
    CanonicalOut (atomicMem f form op ret s) := by
  simp only [atomicMem]
  refine issueWith_canonical hs fun _ => ?_
  split
  · exact .of_eq ‹_› (access_canonical hs)
  · have kept := Canonical.of_eq ‹_› (access_canonical hs)
    split
    · exact settleReads_canonical kept
    · split
      · exact settleReads_canonical kept
      · split <;> exact countWrites_canonical (settleReads_canonical kept)

theorem execAadd_canonical {f : XM} (hs : Canonical s.mem) : CanonicalOut (execAadd f s) :=
  atomicMem_canonical hs

theorem execAmin_canonical {f : XM} (hs : Canonical s.mem) : CanonicalOut (execAmin f s) :=
  atomicMem_canonical hs

theorem execAmax_canonical {f : XM} (hs : Canonical s.mem) : CanonicalOut (execAmax f s) :=
  atomicMem_canonical hs

theorem execAand_canonical {f : XM} (hs : Canonical s.mem) : CanonicalOut (execAand f s) :=
  atomicMem_canonical hs

theorem execAor_canonical {f : XM} (hs : Canonical s.mem) : CanonicalOut (execAor f s) :=
  atomicMem_canonical hs

theorem execAxor_canonical {f : XM} (hs : Canonical s.mem) : CanonicalOut (execAxor f s) :=
  atomicMem_canonical hs

theorem execAswap_canonical {f : XM} (hs : Canonical s.mem) : CanonicalOut (execAswap f s) :=
  atomicMem_canonical hs

theorem execAcas_canonical {f : XM} (hs : Canonical s.mem) : CanonicalOut (execAcas f s) :=
  atomicMem_canonical hs

theorem execAinc_canonical {f : XM} (hs : Canonical s.mem) : CanonicalOut (execAinc f s) :=
  atomicMem_canonical hs

theorem execAfadd_canonical {f : XM} (hs : Canonical s.mem) : CanonicalOut (execAfadd f s) :=
  atomicMem_canonical hs

theorem execRed_canonical {f : XM} (hs : Canonical s.mem) : CanonicalOut (execRed f s) :=
  atomicMem_canonical hs

theorem atomicStep_canonical {n : Nat} {o : Op} {op : AtomicOp} {ty : Ty} {rnd : Rnd} {fpctl : Word} {ret : Option Nat}
    {flags : Flags} {engine : Bool} {l : List AtomicLane} (hs : Canonical s.mem) :
    Canonical (s.atomicStep n o op ty rnd fpctl ret flags engine l).mem := by
  unfold State.atomicStep
  split
  · exact wakeOp_canonical hs
  · split
    · have kept := Canonical.of_eq ‹_› (atomicAt_canonical hs)
      split
      · split <;> exact .ite (wakeOp_canonical (notePart_canonical kept)) (notePart_canonical kept)
      · split
        · split
          · split
            · exact wakeOp_canonical (notePart_canonical (reportLane_canonical kept))
            · exact notePart_canonical (reportLane_canonical kept)
          · split
            · exact wakeOp_canonical (notePart_canonical (reportLane_canonical kept))
            · exact notePart_canonical (reportLane_canonical kept)
        · split <;> exact .ite (wakeOp_canonical (notePart_canonical kept)) (notePart_canonical kept)

theorem windowPerform_canonical {n : Nat} {o : Op} {kind : Nat} {scalar : Bool} {reg : Nat} {ty : Ty} {op : AtomicOp}
    {rnd : Rnd} {fpctl : Word} {ret : Bool} {lanes : List AtomicLane} (hs : Canonical s.mem) :
    Canonical (s.windowPerform n o kind scalar reg ty op rnd fpctl ret lanes).mem := by
  simp only [State.windowPerform]
  split
  · exact noteLanes_canonical (readScratchLanes_canonical hs)
  · exact noteLanes_canonical (.foldState hs fun hs => writePlace_canonical hs)
  · split
    · refine foldl_canonical hs fun h => ?_
      exact notePart_canonical (atomicAt_canonical h)
    · refine foldl_canonical hs fun h => ?_
      exact .ite (reportLane_canonical (notePart_canonical (atomicAt_canonical h))) (notePart_canonical
          (atomicAt_canonical h))

theorem passOp_canonical {n : Nat} {o : Op} (hs : Canonical s.mem) : Canonical (s.passOp n o).mem := by
  simp only [State.passOp]
  split_ifs <;> simpa [modHandler_mem] using hs

theorem execClusterWindowArrive_canonical {op : Nat} (hs : Canonical s.mem) :
    CanonicalOut (execClusterWindowArrive op s) := by
  unfold execClusterWindowArrive
  split
  · exact hs
  · split
    · split
      · exact refuseOp_canonical hs
      · split
        · exact commitOp_canonical (windowPerform_canonical hs)
        · exact passOp_canonical (windowPerform_canonical hs)
    · exact hs

theorem elementAccess_canonical {form : Form} {is : Issue} {size kind : Nat} {pcie : Bool} (hs : Canonical s.mem) :
    Canonical (elementAccess form is size kind pcie s).1.mem :=
  locateAll_canonical hs fun hs => checkGlobal_canonical hs (translate_canonical hs)

theorem execScatadd_canonical {f : XA} (hs : Canonical s.mem) : CanonicalOut (execScatadd f s) := by
  simp only [execScatadd]
  refine issue_canonical hs fun _ => ?_
  split
  · exact .of_eq ‹_› (elementAccess_canonical hs)
  · have kept := Canonical.of_eq ‹_› (elementAccess_canonical hs)
    split
    · exact writeBack_canonical kept
    · exact countWrites_canonical (writeBack_canonical kept)

theorem watchPlace_canonical {w : Watch} (hs : Canonical s.mem) : Canonical (s.watchPlace w).1.mem :=
  hs

theorem askPlace_canonical {core id : Nat} {p : Place} {n : Nat} (hs : Canonical s.mem) :
    Canonical (s.askPlace core id p n).mem := by
  unfold State.askPlace
  split
  · exact askHome_canonical hs
  · exact hs

theorem performLine_canonical {core who : Nat} {p : Place} (hs : Canonical s.mem) :
    Canonical (s.performLine core who p).mem := by
  unfold State.performLine
  split
  · exact writeBackLines_canonical hs
  · exact hs

theorem execSwait_canonical {f : XM} (hs : Canonical s.mem) : CanonicalOut (execSwait f s) := by
  simp only [execSwait]
  refine issueWith_canonical hs fun _ => ?_
  split
  · exact .of_eq ‹_› (access_canonical hs)
  · have kept := Canonical.of_eq ‹_› (access_canonical hs)
    split
    · exact kept
    · split
      · exact kept
      · split
        · exact logPlace_canonical (askPlace_canonical (performLine_canonical (settleReads_canonical kept)))
        · split
          · exact askPlace_canonical (performLine_canonical (settleReads_canonical kept))
          · split
            · exact writeBack_canonical (askPlace_canonical (performLine_canonical (settleReads_canonical kept)))
            · exact watchPlace_canonical (writeBack_canonical (askPlace_canonical (performLine_canonical
                (settleReads_canonical kept))))

theorem execSwaitPoll_canonical {ctx split : Nat} (hs : Canonical s.mem) : CanonicalOut (execSwaitPoll ctx split s) := by
  simp only [execSwaitPoll]
  split
  · exact hs
  · split
    · exact askPlace_canonical hs
    · exact .ite (crossEdge_canonical (askPlace_canonical hs)) (askPlace_canonical hs)

theorem execRhnew_canonical {f : XM} (hs : Canonical s.mem) : CanonicalOut (execRhnew f s) := by
  simp only [execRhnew]
  refine issue_canonical hs fun _ => ?_
  split
  · exact hs
  · split <;> exact hs

theorem changeHandle_canonical {f : XM} {form : Form} {set : Bool} (hs : Canonical s.mem) :
    CanonicalOut (changeHandle f form set s) := by
  simp only [changeHandle]
  refine issue_canonical hs fun _ => ?_
  split
  · exact hs
  · split <;> exact hs

theorem execRhset_canonical {f : XM} (hs : Canonical s.mem) : CanonicalOut (execRhset f s) :=
  changeHandle_canonical hs

theorem execRhdrop_canonical {f : XM} (hs : Canonical s.mem) : CanonicalOut (execRhdrop f s) :=
  changeHandle_canonical hs

theorem execHandleChangeApplied_canonical {op : Nat} (hs : Canonical s.mem) :
    CanonicalOut (execHandleChangeApplied op s) := by
  unfold execHandleChangeApplied
  split
  · exact hs
  · split
    · split
      · split <;> split <;> exact passOp_canonical (.foldState hs fun hs => hs)
      · split <;> exact passOp_canonical hs
    · exact hs

end Sys2Proof.MemoryForm
end

section
/-! O54, fetching, scheduling and the control instructions. -/

namespace Sys2Proof.MemoryForm

open Machine Laws

variable {s t u : State} {α : Type}

theorem passOver_canonical {core sched id i : Nat} (hs : Canonical s.mem) : Canonical (s.passOver core sched id i).mem :=
  .foldState hs fun hs => hs

theorem meetBadRegs_canonical {id : Nat} {c : Ctx} (hs : Canonical s.mem) : Canonical (s.meetBadRegs id c).mem :=
  .foldState hs fun hs => logError_canonical hs

theorem wake_canonical {id i : Nat} (hs : Canonical s.mem) : Canonical (s.wake id i).mem := by
  unfold State.wake
  split
  · exact .ite hs (meetBadRegs_canonical hs)
  · exact hs

theorem fetchWord_canonical {id : Nat} {c : Ctx} {pc : DWord} (hs : Canonical s.mem) :
    Canonical (s.fetchWord id c pc).1.mem := by
  unfold State.fetchWord
  split
  · exact .of_eq ‹_› (translate_canonical hs)
  · have kept := Canonical.of_eq ‹_› (translate_canonical hs)
    exact .ite_fst (logUncorrectable_canonical kept) (.ite kept (fetchLines_canonical kept))

theorem fetchWords_canonical {id : Nat} {c : Ctx} {pc : DWord} {n : Nat} (hs : Canonical s.mem) :
    Canonical (s.fetchWords id c pc n).1.mem := by
  induction n generalizing s pc with
  | zero => exact hs
  | succ n ih =>
    unfold State.fetchWords
    split
    · exact .of_eq ‹_› (fetchWord_canonical hs)
    · rename_i fetched
      have rest := ih (.of_eq fetched (fetchWord_canonical hs)) (pc := pc + 4)
      split <;> exact .of_eq ‹_› rest

theorem fetch_canonical {id : Nat} {c : Ctx} {sp : Split} (hs : Canonical s.mem) : Canonical (s.fetch id c sp).1.mem := by
  unfold State.fetch
  split
  · exact .of_eq ‹_› (fetchWord_canonical hs)
  · exact fetchWords_canonical (.of_eq ‹_› (fetchWord_canonical hs))

theorem fetched_canonical {id i : Nat} (hs : Canonical s.mem) : Canonical (s.fetched id i).1.mem := by
  unfold State.fetched
  split
  · exact hs
  · split
    · exact hs
    · split
      · exact hs
      · split
        · exact .of_eq ‹_› (fetch_canonical hs)
        · have kept := Canonical.of_eq ‹_› (fetch_canonical hs)
          split <;> exact kept

theorem noteCtx_canonical {clock : Nat} {e : Nat × Ctx} (hs : Canonical s.mem) : Canonical (s.noteCtx clock e).mem := by
  unfold State.noteCtx
  split <;> exact hs

theorem tick_canonical (hs : Canonical s.mem) : Canonical s.tick.mem :=
  .foldState hs fun hs => noteCtx_canonical hs

theorem noteBranch_canonical {is : Issue} {target : DWord} (hs : Canonical s.mem) :
    Canonical (s.noteBranch is target).mem := by
  unfold State.noteBranch
  exact .ite hs hs

theorem goTo_canonical {is : Issue} {after : State} {target : DWord} (hs : Canonical s.mem) (ht : Canonical after.mem) :
    Canonical (goTo is s after target).state.mem := by
  unfold goTo
  split
  · exact hs
  · exact noteBranch_canonical ht

theorem execBra_canonical {f : XC} (hs : Canonical s.mem) : CanonicalOut (execBra f s) :=
  issue_canonical hs fun _ => goTo_canonical hs hs

theorem execBrk_canonical {f : XC} (hs : Canonical s.mem) : CanonicalOut (execBrk f s) := by
  simp only [execBrk]
  refine issue_canonical hs fun _ => ?_
  split
  · exact goTo_canonical hs hs
  · exact hs

theorem execJmp_canonical {f : XC} (hs : Canonical s.mem) : CanonicalOut (execJmp f s) :=
  issue_canonical hs fun _ => goTo_canonical hs hs

theorem execLoop_canonical {f : XC} (hs : Canonical s.mem) : CanonicalOut (execLoop f s) := by
  simp only [execLoop]
  refine issue_canonical hs fun _ => ?_
  split
  · exact hs
  · exact goTo_canonical hs hs

theorem execCall_canonical {f : XC} (hs : Canonical s.mem) : CanonicalOut (execCall f s) :=
  issue_canonical hs fun _ => goTo_canonical hs hs

theorem divergeTo_canonical {is : Issue} {taken : LaneMask} {target fall : DWord} (hs : Canonical s.mem) :
    Canonical (divergeTo is s taken target fall).state.mem := by
  unfold divergeTo
  split
  · exact hs
  · split
    · exact hs
    · exact noteBranch_canonical hs

theorem execBrv_canonical {f : XC} (hs : Canonical s.mem) : CanonicalOut (execBrv f s) :=
  issue_canonical hs fun _ => divergeTo_canonical hs

theorem execRet_canonical {f : XC} (hs : Canonical s.mem) : CanonicalOut (execRet f s) := by
  simp only [execRet]
  refine issue_canonical hs fun _ => ?_
  split
  · exact hs
  · exact divergeTo_canonical hs

theorem execJoin_canonical {f : XC} (hs : Canonical s.mem) : CanonicalOut (execJoin f s) := by
  unfold execJoin
  refine issue_canonical hs fun _ => ?_
  split <;> exact hs

theorem execExitLanes_canonical {f : XC} (hs : Canonical s.mem) : CanonicalOut (execExitLanes f s) :=
  issue_canonical hs fun _ => exitLanes_canonical hs

theorem execNop_canonical {f : XC} (hs : Canonical s.mem) : CanonicalOut (execNop f s) :=
  issue_canonical hs fun _ => hs

theorem execYieldSplit_canonical {f : XC} (hs : Canonical s.mem) : CanonicalOut (execYieldSplit f s) :=
  issue_canonical hs fun _ => hs

theorem execRdsr_canonical {f : XC} (hs : Canonical s.mem) : CanonicalOut (execRdsr f s) :=
  issue_canonical hs fun _ => hs

theorem execWrsr_canonical {f : XC} (hs : Canonical s.mem) : CanonicalOut (execWrsr f s) :=
  issue_canonical hs fun _ => hs

theorem execRegion_canonical {f : XC} (hs : Canonical s.mem) : CanonicalOut (execRegion f s) :=
  issue_canonical hs fun _ => hs

theorem execTrap_canonical {f : XC} (hs : Canonical s.mem) : CanonicalOut (execTrap f s) := by
  unfold execTrap
  refine issue_canonical hs fun _ => ?_
  split <;> exact hs

theorem serviced_canonical {id : Nat} {h : Handler} (hs : Canonical s.mem) : Canonical (s.serviced id h).mem := by
  unfold State.serviced
  split
  · exact hs
  · split <;> exact closeRecord_canonical (writeBack_canonical hs)

theorem returnFrom_canonical {f : XC} {mode : Nat} {resume : Issue → Handler → State → State × Except Trap DWord}
    (hs : Canonical s.mem) (resumes : ∀ is h, Canonical (resume is h s).1.mem) :
    CanonicalOut (returnFrom f mode resume s) := by
  refine issueWith_canonical hs fun _ => ?_
  split
  · exact hs
  · split
    · exact .of_eq ‹_› (resumes _ _)
    · have resumed := Canonical.of_eq ‹_› (resumes _ _)
      exact serviced_canonical resumed

theorem execRfePc_canonical {f : XC} (hs : Canonical s.mem) : CanonicalOut (execRfePc f s) :=
  returnFrom_canonical hs fun _ _ => hs

theorem execRfeNext_canonical {f : XC} (hs : Canonical s.mem) : CanonicalOut (execRfeNext f s) := by
  refine returnFrom_canonical hs fun _ _ => ?_
  split <;> exact .of_eq ‹_› (fetchWord_canonical hs)

theorem execRfeRegion_canonical {f : XC} (hs : Canonical s.mem) : CanonicalOut (execRfeRegion f s) := by
  refine returnFrom_canonical hs fun _ _ => ?_
  split
  · exact hs
  · exact restart_canonical hs

theorem execXbind_canonical {f : XC} (hs : Canonical s.mem) : CanonicalOut (execXbind f s) := by
  simp only [execXbind]
  refine issue_canonical hs fun _ => ?_
  split
  · exact .of_eq ‹_› (bindRun_canonical hs)
  · have kept := Canonical.of_eq ‹_› (bindRun_canonical hs)
    exact kept

theorem execFetchTrap_canonical (hs : Canonical s.mem) : CanonicalOut (execFetchTrap s) := by
  unfold execFetchTrap
  split
  · exact trivial
  · split
    · exact takeTrap_canonical (.of_eq ‹_› (fetch_canonical hs))
    · exact hs

theorem execIllegalEncoding_canonical (hs : Canonical s.mem) : CanonicalOut (execIllegalEncoding s) := by
  unfold execIllegalEncoding
  split
  · exact trivial
  · exact takeTrap_canonical hs

theorem execCancelled_canonical {id i : Nat} (hs : Canonical s.mem) : CanonicalOut (execCancelled id i s) := by
  simp only [execCancelled]
  split
  · exact hs
  · split
    · exact hs
    · split
      · split
        · exact hs
        · exact exitLanes_canonical hs
      · split
        · exact hs
        · exact exitLanes_canonical hs

theorem unpark_canonical {id i : Nat} (hs : Canonical s.mem) : Canonical (s.unpark id i).mem :=
  dropWaiting_canonical hs

theorem enterFor_canonical {id i n : Nat} {o : Op} {t : Trap} (hs : Canonical s.mem) :
    Canonical (s.enterFor id i n o t).mem := by
  unfold State.enterFor
  split
  · exact hs
  · extract_lets kept woken taken entered
    have keeps : Canonical kept.mem := by
      unfold kept
      split
      · exact writeNat_canonical hs
      · exact hs
    have takes : Canonical taken.mem := takeTrap_canonical (unpark_canonical keeps)
    split
    · exact takes
    · exact endEngine_canonical takes

theorem execEngineSupervisorEntry_canonical {id : Nat} (hs : Canonical s.mem) :
    CanonicalOut (execEngineSupervisorEntry id s) := by
  unfold execEngineSupervisorEntry
  split
  · exact hs
  · split
    · exact hs
    · split
      · exact hs
      · split
        · exact hs
        · split
          · exact endEngine_canonical hs
          · split
            · exact endEngine_canonical hs
            · split
              · exact hs
              · exact enterFor_canonical hs

end Sys2Proof.MemoryForm
end

section
/-! O54, copies, gathers and the instructions that start them. -/

namespace Sys2Proof.MemoryForm

open Machine Laws

variable {s t u : State} {α : Type}

theorem forgetBlock_canonical {f : XM} {kind : Nat} (hs : Canonical s.mem) : CanonicalOut (forgetBlock f kind s) := by
  simp only [forgetBlock]
  refine issue_canonical hs fun _ => ?_
  split
  · exact .of_eq ‹_› (translate_canonical hs)
  · have kept := Canonical.of_eq ‹_› (translate_canonical hs)
    exact kept

theorem execCbinvNode_canonical {f : XM} (hs : Canonical s.mem) : CanonicalOut (execCbinvNode f s) :=
  forgetBlock_canonical hs

theorem execCbinvArm_canonical {f : XM} (hs : Canonical s.mem) : CanonicalOut (execCbinvArm f s) :=
  forgetBlock_canonical hs

theorem execCbinvTree_canonical {f : XM} (hs : Canonical s.mem) : CanonicalOut (execCbinvTree f s) :=
  forgetBlock_canonical hs

theorem execCbinvAll_canonical {f : XM} (hs : Canonical s.mem) : CanonicalOut (execCbinvAll f s) :=
  issue_canonical hs fun _ => hs

theorem execCbinvTr_canonical {f : XM} (hs : Canonical s.mem) : CanonicalOut (execCbinvTr f s) := by
  simp only [execCbinvTr]
  refine issue_canonical hs fun _ => ?_
  split <;> exact hs

theorem execTranslationInvalidateDone_canonical {op : Nat} (hs : Canonical s.mem) :
    CanonicalOut (execTranslationInvalidateDone op s) := by
  unfold execTranslationInvalidateDone
  split
  · exact hs
  · split
    · exact passOp_canonical hs
    · exact hs

theorem execBar_canonical {f : XA} (hs : Canonical s.mem) : CanonicalOut (execBar f s) := by
  unfold execBar
  refine issue_canonical hs fun _ => ?_
  split
  · exact hs
  · exact settleBarrier_canonical (.ite (writeBack_canonical hs) (settleReads_canonical hs))

theorem passMessage_canonical {team side : Nat} (hs : Canonical s.mem) : Canonical (s.passMessage team side).mem := by
  simp only [State.passMessage]
  split
  · exact hs
  · exact .ite hs (.ite (loseBarrier_canonical hs) (releaseSide_canonical (.foldState hs fun hs => hs)))

theorem execBoundaryBarrierMessage_canonical {team side : Nat} (hs : Canonical s.mem) :
    CanonicalOut (execBoundaryBarrierMessage team side s) :=
  passMessage_canonical hs

theorem withBarrier_canonical {form : Form} {write : Bool} {act : Issue → State → BarArg → Res} {is : Issue}
    (hs : Canonical s.mem) (acts : ∀ {s b}, Canonical s.mem → Canonical (act is s b).state.mem) :
    Canonical (withBarrier form write act is s).state.mem := by
  unfold withBarrier
  split
  · exact hs
  · split
    · exact hs
    · exact acts (settleReads_canonical hs)

theorem execTbinit_canonical {f : XA} (hs : Canonical s.mem) : CanonicalOut (execTbinit f s) := by
  refine issue_canonical hs fun _ => ?_
  extract_lets n
  split
  · exact hs
  · exact withBarrier_canonical hs fun hs => setTbar_canonical hs

theorem execTbarrive_canonical {f : XA} (hs : Canonical s.mem) : CanonicalOut (execTbarrive f s) :=
  issue_canonical hs fun _ => withBarrier_canonical hs fun hs => writeBack_canonical hs

theorem execTbarrivePerform_canonical {op : Nat} (hs : Canonical s.mem) : CanonicalOut (execTbarrivePerform op s) := by
  simp only [execTbarrivePerform]
  split
  · exact hs
  · split
    · split
      · exact refuseOp_canonical hs
      · exact commitOp_canonical (setTbar_canonical hs)
    · exact hs

theorem execTbwait_canonical {f : XA} (hs : Canonical s.mem) : CanonicalOut (execTbwait f s) := by
  refine issue_canonical hs fun _ => withBarrier_canonical hs fun hs => ?_
  extract_lets b
  split
  · exact hs
  · split
    · exact hs
    · split
      · exact crossEdge_canonical hs
      · exact writeBack_canonical hs

theorem execTbpoll_canonical {f : XA} (hs : Canonical s.mem) : CanonicalOut (execTbpoll f s) := by
  refine issue_canonical hs fun _ => withBarrier_canonical hs fun hs => ?_
  extract_lets b
  split
  · exact hs
  · split <;> exact hs

theorem dropClean_canonical {core lo n : Nat} (hs : Canonical s.mem) : Canonical (s.dropClean core lo n).mem :=
  hs

theorem dropGlobal_canonical {core asroot fuel : Nat} {va : DWord} {n : Nat} (hs : Canonical s.mem) :
    Canonical (s.dropGlobal core asroot fuel va n).mem := by
  induction fuel generalizing s va n with
  | zero => exact hs
  | succ fuel ih =>
    simp only [State.dropGlobal]
    split
    · exact hs
    · split
      · exact ih (dropClean_canonical hs)
      · exact ih hs

theorem commitCopy_canonical {is : Issue} {p : CopyPlan} (hs : Canonical s.mem) :
    Canonical (commitCopy is s p).state.mem := by
  unfold commitCopy
  extract_lets ranges rows drained dropped filled
  have drops : Canonical dropped.mem := by
    refine Canonical.foldState (.ite (writeBack_canonical hs) (settleReads_canonical hs)) fun hs => ?_
    split
    · exact dropGlobal_canonical hs
    · exact hs
  have fills : Canonical filled.mem := by
    unfold filled
    split <;> exact drops
  split
  · exact hs
  · split
    · exact drops
    · exact fills

theorem bindCopy_canonical {is : Issue} {b : BarArg} {plan : Binding → CopyPlan} (hs : Canonical s.mem) :
    Canonical (bindCopy is s b plan).state.mem := by
  simp only [bindCopy]
  split
  · exact settleReads_canonical hs
  · exact commitCopy_canonical (settleReads_canonical hs)

theorem copyBulk_canonical {f : XA} {dir : Nat} {dstUse srcUse : Use} {srcKind dstKind : Nat} (hs : Canonical s.mem) :
    CanonicalOut (copyBulk f dir dstUse srcUse srcKind dstKind s) := by
  simp only [copyBulk]
  refine issue_canonical hs fun _ => ?_
  split
  · exact hs
  · split
    · exact hs
    · split
      · exact hs
      · split
        · exact hs
        · split
          · exact hs
          · split
            · exact hs
            · split
              · exact hs
              · split
                · exact hs
                · split
                  · exact hs
                  · split
                    · exact hs
                    · exact bindCopy_canonical hs

theorem execCpaGs_canonical {f : XA} (hs : Canonical s.mem) : CanonicalOut (execCpaGs f s) :=
  copyBulk_canonical hs

theorem execCpaSg_canonical {f : XA} (hs : Canonical s.mem) : CanonicalOut (execCpaSg f s) :=
  copyBulk_canonical hs

theorem execCpaGg_canonical {f : XA} (hs : Canonical s.mem) : CanonicalOut (execCpaGg f s) :=
  copyBulk_canonical hs

theorem execCpaSs_canonical {f : XA} (hs : Canonical s.mem) : CanonicalOut (execCpaSs f s) :=
  copyBulk_canonical hs

theorem execCpaSw_canonical {f : XA} (hs : Canonical s.mem) : CanonicalOut (execCpaSw f s) :=
  copyBulk_canonical hs

theorem execCpaWs_canonical {f : XA} (hs : Canonical s.mem) : CanonicalOut (execCpaWs f s) :=
  copyBulk_canonical hs

theorem copyShaped_canonical {f : Shaped} {base : Use}
    {near : Shape → Issue → State → Except Trap ((Nat → Side) × List Range)}
    {far : Shape → Issue → State → DWord → Except Trap ((Nat → Side) × List Range)} {into : Bool}
    {busy : Shape → Issue → State → Bool} {late : Shape → Issue → Option Trap} {tile : Shape → Option Nat}
    (hs : Canonical s.mem) : CanonicalOut (copyShaped f base near far into busy late tile s) := by
  simp only [copyShaped]
  refine issueWith_canonical hs fun _ => ?_
  split
  · exact hs
  · split
    · exact hs
    · split
      · exact hs
      · split
        · exact hs
        · split
          · exact hs
          · split
            · exact hs
            · split
              · exact hs
              · split
                · exact hs
                · split
                  · exact hs
                  · exact bindCopy_canonical hs

theorem execCpasGs_canonical {f : Shaped} (hs : Canonical s.mem) : CanonicalOut (execCpasGs f s) :=
  copyShaped_canonical hs

theorem execCpasSg_canonical {f : Shaped} (hs : Canonical s.mem) : CanonicalOut (execCpasSg f s) :=
  copyShaped_canonical hs

theorem execCpasGt_canonical {f : Shaped} (hs : Canonical s.mem) : CanonicalOut (execCpasGt f s) :=
  copyShaped_canonical hs

theorem execCpasSt_canonical {f : Shaped} (hs : Canonical s.mem) : CanonicalOut (execCpasSt f s) :=
  copyShaped_canonical hs

theorem execCpasAg_canonical {f : Shaped} (hs : Canonical s.mem) : CanonicalOut (execCpasAg f s) :=
  copyShaped_canonical hs

theorem execGath_canonical {f : XA} (hs : Canonical s.mem) : CanonicalOut (execGath f s) := by
  simp only [execGath]
  refine issue_canonical hs fun _ => ?_
  split
  · exact hs
  · split
    · exact .of_eq ‹_› (elementAccess_canonical hs)
    · have kept := Canonical.of_eq ‹_› (elementAccess_canonical hs)
      split
      · exact writeBack_canonical kept
      · exact .foldState (writeBack_canonical kept) fun hs => countLine_canonical hs

theorem rowPages_canonical {is : Issue} {va : DWord} {n : Nat} (hs : Canonical s.mem) :
    Canonical (s.rowPages is va n).1.mem := by
  simp only [State.rowPages]
  split
  · exact .of_eq ‹_› (translate_canonical hs)
  · have kept := Canonical.of_eq ‹_› (translate_canonical hs)
    split
    · exact kept
    · split <;> exact .of_eq ‹_› (translate_canonical kept)

theorem gatherRows_canonical {is : Issue} {core off rb : Nat} {va : Nat → DWord} {ls : List Nat} (hs : Canonical s.mem) :
    Canonical (s.gatherRows is core off rb va ls).1.mem := by
  induction ls generalizing s with
  | nil => exact hs
  | cons l ls ih =>
    have rest := ih (rowPages_canonical hs (is := is) (va := va l) (n := rb))
    simp only [State.gatherRows]
    split <;> exact rest

theorem execGathRow_canonical {f : XA} (hs : Canonical s.mem) : CanonicalOut (execGathRow f s) := by
  simp only [execGathRow]
  refine issue_canonical hs fun _ => ?_
  split
  · exact hs
  · split
    · exact hs
    · split
      · exact hs
      · split
        · exact .of_eq ‹_› (gatherRows_canonical hs)
        · have kept := Canonical.of_eq ‹_› (gatherRows_canonical hs)
          split
          · exact kept
          · exact bindCopy_canonical kept

theorem engineTranslate_canonical {o : Op} {va : DWord} {kind : Nat} (hs : Canonical s.mem) :
    Canonical (s.engineTranslate o va kind).1.mem := by
  unfold State.engineTranslate
  split
  · exact .ite_fst (.of_eq ‹_› (tlbOrWalk_canonical hs)) (.of_eq ‹_› (tlbOrWalk_canonical hs))
  · exact tlbOrWalk_canonical hs

theorem hasSupervisor_canonical {o : Op} (hs : Canonical s.mem) : Canonical (s.hasSupervisor o).1.mem := by
  unfold State.hasSupervisor
  split
  · split
    · exact hs
    · split <;> exact .of_eq ‹_› (superBlock_canonical hs)
  · exact hs

theorem endForEngine_canonical {o : Op} {t : Trap} (hs : Canonical s.mem) : Canonical (s.endForEngine o t).mem :=
  endGraph_canonical hs

theorem meetFault_canonical {n : Nat} {t : Trap} (hs : Canonical s.mem) : Canonical (s.meetFault n t).mem := by
  simp only [State.meetFault]
  split
  · exact hs
  · split
    · exact failEngine_canonical hs
    · split
      · exact endForEngine_canonical (failEngine_canonical (.of_eq ‹_› (hasSupervisor_canonical hs)))
      · exact engineRecord_canonical (.of_eq ‹_› (hasSupervisor_canonical hs))

theorem arrive_canonical {o : Op} {va : DWord} {pa kind : Nat} (hs : Canonical s.mem) :
    Canonical (s.arrive o va pa kind).1.mem :=
  hs

theorem resolve_canonical {n : Nat} {o : Op} {d : Side} {j k kind : Nat} (hs : Canonical s.mem) :
    Canonical (s.resolve n o d j k kind).1.mem := by
  unfold State.resolve
  split
  · split <;> exact .of_eq ‹_› (engineTranslate_canonical hs)
  · exact arrive_canonical hs
  · exact arrive_canonical hs
  · exact hs
  · exact .ite_fst hs (.ite_fst hs hs)
  · exact hs
  · exact hs

theorem sideWrite_canonical {o : Op} {d : Side} {bytes : List (Option Byte)} (hs : Canonical s.mem) :
    Canonical (s.sideWrite o d bytes).mem := by
  unfold State.sideWrite
  split
  · exact writeHome_canonical hs
  · exact writeScratch_canonical hs
  · exact hs
  · exact hs

theorem countSide_canonical {o : Op} {d : Side} {k ev : Nat} (hs : Canonical s.mem) :
    Canonical (s.countSide o d k ev).mem := by
  unfold State.countSide
  split <;> exact hs

theorem resolveParts_canonical {n : Nat} {o : Op} {d : Side} {kind : Nat} {l : List (Nat × Nat)} (hs : Canonical s.mem) :
    Canonical (s.resolveParts n o d kind l).1.mem := by
  induction l generalizing s with
  | nil => exact hs
  | cons e l ih =>
    unfold State.resolveParts
    split
    · exact .of_eq ‹_› (resolve_canonical hs)
    · rename_i resolved
      have rest := ih (.of_eq resolved (resolve_canonical hs))
      split <;> exact .of_eq ‹_› rest

theorem reportSide_canonical {d : Side} {x : Nat} (hs : Canonical s.mem) : Canonical (s.reportSide d x).mem := by
  unfold State.reportSide
  split
  · exact logUncorrectable_canonical hs
  · exact logScratchError_canonical hs
  · exact hs

theorem readPart_canonical {n : Nat} {o : Op} {d : Side} {k : Nat} (hs : Canonical s.mem) :
    Canonical (s.readPart n o d k).1.mem := by
  unfold State.readPart
  split
  · exact .foldState (countSide_canonical (fetchLines_canonical hs)) fun hs => reportSide_canonical hs
  · exact .foldState (countSide_canonical hs) fun hs => reportSide_canonical hs

theorem readParts_canonical {n : Nat} {o : Op} {l : List (Side × Nat)} (hs : Canonical s.mem) :
    Canonical (s.readParts n o l).1.mem := by
  induction l generalizing s with
  | nil => exact hs
  | cons e l ih => exact ih (readPart_canonical hs)

theorem resolveRows_canonical {n : Nat} {o : Op} {j k : Nat} {l : List (Nat × Row)} (hs : Canonical s.mem) :
    Canonical (s.resolveRows n o j k l).1.mem := by
  induction l generalizing s with
  | nil => exact hs
  | cons e l ih =>
    unfold State.resolveRows
    split
    · exact .of_eq ‹_› (resolve_canonical hs)
    · rename_i resolved
      have rest := ih (.of_eq resolved (resolve_canonical hs))
      split <;> exact .of_eq ‹_› rest

theorem landRows_canonical {o : Op} {j : Nat} {bytes : List (Option Byte)} {ds : List (Side × Side)}
    (hs : Canonical s.mem) : Canonical (s.landRows o j bytes ds).mem := by
  unfold State.landRows
  refine Canonical.foldState hs fun hs => ?_
  split
  · exact countSide_canonical (sideWrite_canonical (touchPage_canonical hs))
  · exact countSide_canonical (sideWrite_canonical hs)

theorem poisonCopy_canonical {o : Op} {b : Binding} {bad : List Nat} (hs : Canonical s.mem) :
    Canonical (s.poisonCopy o b bad).mem := by
  unfold State.poisonCopy
  exact .ite hs (poisonBarrier_canonical (.foldState hs fun hs => engineRecord_canonical hs))

theorem finishCopy_canonical {n : Nat} {o : Op} {rows : List Row} {landed : List (Nat × Nat)} {b : Binding}
    {gather : Bool} {tile : Option Nat} (hs : Canonical s.mem) :
    Canonical (s.finishCopy n o rows landed b gather tile).mem := by
  unfold State.finishCopy
  split
  · exact hs
  · split <;> exact hs

theorem execCopyLanding_canonical {op first count : Nat} (hs : Canonical s.mem) :
    CanonicalOut (execCopyLanding op first count s) := by
  simp only [execCopyLanding]
  split
  · exact hs
  · split
    · split
      · exact hs
      · split
        · exact hs
        · split
          · exact meetFault_canonical (.of_eq ‹_› (resolveParts_canonical hs))
          · have kept := Canonical.of_eq ‹_› (resolveParts_canonical hs)
            split
            · exact meetFault_canonical (.of_eq ‹_› (resolveRows_canonical kept))
            · exact finishCopy_canonical (.foldState (poisonCopy_canonical (landRows_canonical
                (readParts_canonical (.of_eq ‹_› (resolveRows_canonical kept))))) fun hs =>
                landBytes_canonical hs)
    · exact hs

theorem copyFault_canonical {n : Nat} {o : Op} {rows : List Row} {part : Nat} (hs : Canonical s.mem) :
    Canonical (s.copyFault n o rows part).1.mem := by
  unfold State.copyFault
  split
  · exact hs
  · split
    · exact .of_eq ‹_› (resolve_canonical hs)
    · have kept := Canonical.of_eq ‹_› (resolve_canonical hs)
      split <;> exact .of_eq ‹_› (resolve_canonical kept)

end Sys2Proof.MemoryForm
end

section
/-! O54, the work on trees: descents, insertions, walks and traversals. -/

namespace Sys2Proof.MemoryForm

open Machine Laws

variable {s t u : State} {α : Type}

theorem engAddress_keeps {o : Op} {va : DWord} {kind : Nat} : EngKeeps (engAddress o va kind) :=
  .of fun hs => engineTranslate_canonical hs

theorem engPoison_keeps {va : DWord} {pa kind : Nat} : EngKeeps (engPoison va pa kind : Eng α) :=
  .of fun hs => logUncorrectable_canonical hs

theorem engPiece_keeps {o : Op} {va : DWord} {n : Nat} : EngKeeps (engPiece o va n) := by
  refine .bind engAddress_keeps fun m => .bind (.change fun hs => countSide_canonical (fetchLines_canonical hs)) fun _ =>
    .bind (.get _) fun bad => ?_
  cases bad with
  | some pa => exact engPoison_keeps
  | none => exact .get _

theorem engRead_keeps {o : Op} {va : DWord} {n : Nat} : EngKeeps (engRead o va n) := by
  unfold engRead
  exact .ite engPiece_keeps (.bind engPiece_keeps fun _ => .bind engPiece_keeps fun _ => .pure _)

theorem engTouch_canonical {o : Op} {va : DWord} {m : Mapped} {n : Nat} (hs : Canonical s.mem) :
    Canonical (s.engTouch o va m n).mem :=
  touchPage_canonical hs

theorem engPut_keeps {o : Op} {va : DWord} {bytes : List Byte} : EngKeeps (engPut o va bytes) := by
  unfold engPut
  exact .bind engAddress_keeps fun _ => .change fun hs => countSide_canonical (writeHome_canonical (engTouch_canonical hs))

theorem engWrite_keeps {o : Op} {va : DWord} {bytes : List Byte} : EngKeeps (engWrite o va bytes) := by
  unfold engWrite
  exact .ite engPut_keeps (.bind engPut_keeps fun _ => engPut_keeps)

theorem engAtomic_keeps {o : Op} {va : DWord} {n : Nat} {pcie : Bool} {f : Nat → Nat} :
    EngKeeps (engAtomic o va n pcie f) := by
  have works {m : Mapped} : EngKeeps (do
      engDo fun s => s.countSide o (.phys va m.pa) n 0x12
      match ← engGet fun s => s.poisonIn m.pa n with
      | some pa => engPoison va pa 2
      | none =>
        let old ← engGet fun s => s.readHome m.pa n
        engDo fun s =>
          let s := s.engTouch o va m n
          if f old = old then s else s.writeNat m.pa n (f old)
        return old) := by
    refine .bind (.change countSide_canonical) fun _ => .bind (.get _) fun bad => ?_
    cases bad with
    | some pa => exact engPoison_keeps
    | none =>
      exact .bind (.get _) fun _ => .bind (.change fun hs =>
        .ite (engTouch_canonical hs) (writeNat_canonical (engTouch_canonical hs))) fun _ => .pure _
  exact .bind engAddress_keeps fun m => .bind (.get _) fun enabled => .ite (.bind (.throw _) fun _ => works) works

theorem engCas_keeps {o : Op} {va : DWord} {n expect new : Nat} : EngKeeps (engCas o va n expect new) :=
  engAtomic_keeps

theorem engBit_keeps {o : Op} {va : DWord} {c : Nat} {on : Bool} : EngKeeps (engBit o va c on) :=
  .bind engAtomic_keeps fun _ => .pure _

theorem readTree_canonical {id : Nat} {c : Ctx} {va : DWord} (hs : Canonical s.mem) :
    Canonical (s.readTree id c va).1.mem := by
  unfold State.readTree
  split
  · exact hs
  · split
    · exact hs
    · split
      · exact .of_eq ‹_› (translate_canonical hs)
      · have kept := Canonical.of_eq ‹_› (translate_canonical hs)
        split
        · exact laneRecord_canonical (.of_eq ‹_› (controlBlock_canonical (settleReads_canonical kept)))
        · have kept' := Canonical.of_eq ‹_› (controlBlock_canonical (settleReads_canonical kept))
          split <;> exact kept'

theorem engEntry_keeps {o : Op} {va : DWord} : EngKeeps (engEntry o va) :=
  .bind engRead_keeps fun _ => .pure _

theorem engIndex_keeps {n cap : Nat} : EngKeeps (engIndex n cap) := by
  unfold engIndex
  exact .ite (.throw _) (.pure _)

theorem engRoot_keeps {o : Op} {t : Tree} {x y z : Word} {fuel i : Nat} : EngKeeps (engRoot o t x y z fuel i) := by
  induction fuel generalizing i with
  | zero => exact .pure _
  | succ fuel ih => exact .bind engEntry_keeps fun _ => .ite (.pure _) (.ite (.pure _) ih)

theorem engChild_keeps {o : Op} {t : Machine.Tree} {n c : Nat} : EngKeeps (engChild o t n c) :=
  .bind engIndex_keeps fun _ => engRead_keeps

theorem engPath_keeps {o : Op} {t : Machine.Tree} {x y z : Word} : EngKeeps (engPath o t x y z) := by
  unfold engPath
  exact .bind engRoot_keeps fun _ => .ite (.pure _) (.bind engChild_keeps fun _ => .ite (.pure _) (.bind engChild_keeps
      fun _ => .ite (.pure _) (.bind engChild_keeps fun _ => .ite (.pure _) (.bind engIndex_keeps fun _ => .pure _))))

theorem engLeaf_keeps {o : Op} {t : Machine.Tree} {x y z : Word} : EngKeeps (engLeaf o t x y z) := by
  simp only [engLeaf]
  refine .bind (.get _) fun a => ?_
  refine .bind (.get _) fun a => ?_
  split
  · exact .bind (.change fun hs => hs) fun _ => .pure _
  · refine .bind engPath_keeps fun a => ?_
    split
    · exact .pure _
    · exact .bind (.change fun hs => hs) fun _ => .pure _

theorem engVoxel_keeps {o : Op} {t : Machine.Tree} {x y z : Word} {want : Bool} : EngKeeps (engVoxel o t x y z want) := by
  unfold engVoxel
  exact .bind engLeaf_keeps fun _ => .ite (.pure _) (.bind engRead_keeps fun _ => .ite (.pure _) (.bind engRead_keeps
      fun _ => .pure _))

theorem engTake_keeps {o : Op} {t : Machine.Tree} {leaf : Bool} : EngKeeps (engTake o t leaf) := by
  unfold engTake
  exact .bind engAtomic_keeps fun _ => .ite (.pure _) (.bind engIndex_keeps fun _ => .bind engRead_keeps fun _ => .bind
      engCas_keeps fun _ => .pure _)

theorem engReturn_keeps {o : Op} {t : Machine.Tree} {leaf : Bool} {n : Nat} : EngKeeps (engReturn o t leaf n) :=
  .bind engAtomic_keeps fun _ => .bind engWrite_keeps fun _ => .bind engCas_keeps fun _ => .pure _

theorem engBuildNode_keeps {o : Op} {t : Machine.Tree} {n level : Nat} {x y z : Word} :
    EngKeeps (engBuildNode o t n level x y z) :=
  engWrite_keeps

theorem engBuildLeaf_keeps {o : Op} {t : Machine.Tree} {n : Nat} {x y z : Word} : EngKeeps (engBuildLeaf o t n x y z) :=
  engWrite_keeps

theorem engClaimed_keeps {o : Op} {t : Machine.Tree} {va : DWord} {x y z : Word} :
    EngKeeps (engClaimed o t va x y z) := by
  unfold engClaimed
  exact .bind (.handle (.bind engTake_keeps fun _ => .ite (.bind engBuildNode_keeps fun _ => .bind engWrite_keeps fun _
      => .pure _) (.pure _)) fun _ => .bind (.bind engAtomic_keeps fun _ => .pure _) fun _ => .throw _) fun _ => .bind
      (.bind engAtomic_keeps fun _ => .pure _) fun _ => .pure _

theorem engClaim_keeps {o : Op} {t : Tree} {x y z : Word} {fuel i : Nat} : EngKeeps (engClaim o t x y z fuel i) := by
  have claim {va : DWord} {old new : Nat} : EngKeeps (do
      let found ← engCas o va 8 old new
      if found = old then engClaimed o t va x y z else return .busy) :=
    .bind engCas_keeps fun _ => .ite engClaimed_keeps (.pure _)
  induction fuel generalizing i with
  | zero => exact .pure _
  | succ fuel ih =>
    exact .bind engEntry_keeps fun _ => .ite claim (.ite ih (.ite (.pure _) (.ite claim (.pure _))))

theorem engStep_keeps {o : Op} {t : Machine.Tree} {n level : Nat} {x y z : Word} :
    EngKeeps (engStep o t n level x y z) := by
  unfold engStep
  exact .bind engChild_keeps fun _ => .ite (.pure _) (.bind engTake_keeps fun _ => .ite (.pure _) (.ite (.bind
      engBuildLeaf_keeps fun _ => .pure _) (.bind engBuildNode_keeps fun _ => .pure _)))

theorem engLink_keeps {o : Op} {t : Machine.Tree} {h : Held} {x y z : Word} : EngKeeps (engLink o t h x y z) := by
  unfold engLink
  exact .bind engCas_keeps fun _ => .ite (.bind engBit_keeps fun _ => .pure _) (.bind engReturn_keeps fun _ => .pure _)

theorem engDescend_keeps {o : Op} {t : Tree} {x y z : Word} {levels : List Nat} {n : Nat} {made : Bool} :
    EngKeeps (engDescend o t x y z levels n made) := by
  induction levels generalizing n made with
  | nil => exact .bind engIndex_keeps fun _ => .pure _
  | cons level rest ih =>
    refine .bind engStep_keeps fun a => ?_
    cases a with
    | found ch made => exact ih
    | busy => exact .pure _
    | holds h => exact .pure _
    | failed n => exact .pure _

theorem engInsert_keeps {o : Op} {t : Machine.Tree} {held : Option Held} {x y z : Word} :
    EngKeeps (engInsert o t held x y z) := by
  unfold engInsert
  split
  · refine .bind engLink_keeps fun a => ?_
    split
    · exact engDescend_keeps
    · exact .pure _
  · refine .bind engClaim_keeps fun a => ?_
    split
    · exact engDescend_keeps
    · exact .pure _

theorem engMask_keeps {o : Op} {va : DWord} : EngKeeps (engMask o va) :=
  engRead_keeps

theorem engTrim_keeps {o : Op} {l : List (DWord × DWord × Nat)} : EngKeeps (engTrim o l) := by
  induction l with
  | nil => exact .pure _
  | cons e rest ih =>
    exact .bind engMask_keeps fun _ => .ite (.pure _) (.bind engBit_keeps fun _ => .bind engMask_keeps fun _ =>
      .ite (.bind engBit_keeps fun _ => ih) ih)

theorem engActivity_keeps {o : Op} {t : Machine.Tree} {mode : Nat} {x y z : Word} :
    EngKeeps (engActivity o t mode x y z) := by
  unfold engActivity
  refine .bind engPath_keeps fun a => ?_
  split
  · exact .pure _
  · split
    · exact .bind engBit_keeps fun _ => .bind (.forM (fun _ => engBit_keeps) _) fun _ => .pure _
    · exact .bind engBit_keeps fun _ => .pure _
    · exact .bind engTrim_keeps fun _ => .pure _

theorem engVisit_keeps {o : Op} {t : Tree} {r : Ray} {level n : Nat} {c : Cell} {best : Option Hit} :
    EngKeeps (engVisit o t r level n c best) := by
  induction level generalizing n c best with
  | zero => exact .bind engIndex_keeps fun _ => .bind engMask_keeps fun _ => .pure _
  | succ level ih =>
    exact .bind engIndex_keeps fun _ => .bind engMask_keeps fun _ => .foldlM (fun _ _ =>
      .ite (.pure _) (.bind engChild_keeps fun _ => .ite (.pure _) ih)) _ _

theorem engRegion_keeps {o : Op} {t : Machine.Tree} {r : Ray} {c : Cell} {best : Option Hit} :
    EngKeeps (engRegion o t r c best) := by
  unfold engRegion
  exact .bind engRoot_keeps fun _ => .ite (.pure _) engVisit_keeps

theorem engMarch_keeps {o : Op} {t : Tree} {r : Ray} {fuel : Nat} {s : Sweep} {met : Nat} {edge : Option Nat}
    {best : Option Hit} : EngKeeps (engMarch o t r fuel s met edge best) := by
  induction fuel generalizing s met edge best with
  | zero => exact .pure _
  | succ fuel ih =>
    unfold engMarch
    split
    · split
      · exact .pure _
      · exact ih
    · exact .ite ih (.ite (.pure _) (.ite (.pure _) (.bind engRegion_keeps fun _ => .ite (.pure _) ih)))

theorem engRay_keeps {o : Op} {t : Machine.Tree} {ws : List Word} : EngKeeps (engRay o t ws) := by
  simp only [engRay]
  split
  · exact .pure _
  · split
    · exact .pure _
    · exact engMarch_keeps

theorem engSample_keeps {o : Op} {t : Machine.Tree} {near : Bool} {fpctl : Word} {ws : List Word} :
    EngKeeps (engSample o t near fpctl ws) := by
  simp only [engSample]
  split
  · exact .pure _
  · split
    · exact .bind engVoxel_keeps fun _ => .pure _
    · exact .bind (.mapM (fun _ => engVoxel_keeps) _) fun _ => .pure _

theorem execVtset_canonical {f : XT} (hs : Canonical s.mem) : CanonicalOut (execVtset f s) := by
  simp only [execVtset]
  refine issue_canonical hs fun _ => ?_
  split
  · exact .of_eq ‹_› (readTree_canonical hs)
  · have kept := Canonical.of_eq ‹_› (readTree_canonical hs)
    exact kept

theorem withTree_canonical {f : XT} {form : Form} {act : Issue → Tree → State → Res} (hs : Canonical s.mem)
    (acts : ∀ {is tree s}, Canonical s.mem → Canonical (act is tree s).state.mem) :
    CanonicalOut (withTree f form act s) := by
  refine issue_canonical hs fun is => ?_
  split
  · exact hs
  · exact acts (writeBack_canonical hs)

theorem startWalk_canonical {f : XT} {form : Form} {kind pat n : Nat} (hs : Canonical s.mem) :
    CanonicalOut (startWalk f form kind pat n s) := by
  refine withTree_canonical hs fun hs => ?_
  extract_lets w emptied
  split <;> simpa [Res.state, emptied] using hs

theorem execVlook_canonical {f : XT} (hs : Canonical s.mem) : CanonicalOut (execVlook f s) :=
  startWalk_canonical hs

theorem execVstencil_canonical {f : XT} (hs : Canonical s.mem) : CanonicalOut (execVstencil f s) :=
  startWalk_canonical hs

theorem execVsampTri_canonical {f : XT} (hs : Canonical s.mem) : CanonicalOut (execVsampTri f s) :=
  startWalk_canonical hs

theorem execVsampNear_canonical {f : XT} (hs : Canonical s.mem) : CanonicalOut (execVsampNear f s) :=
  startWalk_canonical hs

theorem execVmarch_canonical {f : XT} (hs : Canonical s.mem) : CanonicalOut (execVmarch f s) :=
  startWalk_canonical hs

theorem engStencil_keeps {o : Op} {t : Machine.Tree} {pat : Nat} {want : Bool} {ws : List Word} :
    EngKeeps (engStencil o t pat want ws) :=
  .bind (.mapM (fun _ => engVoxel_keeps) _) fun _ => .pure _

theorem engWalk_keeps {o : Op} {w : Walk} {ws : List Word} : EngKeeps (engWalk o w ws) := by
  unfold engWalk
  split
  · exact .bind engVoxel_keeps fun _ => .pure _
  · exact .bind engStencil_keeps fun _ => .pure _
  · exact .bind engRay_keeps fun _ => .pure _
  · exact .bind engSample_keeps fun _ => .pure _

theorem tellWalk_canonical {o : Op} {t : Trap} (hs : Canonical s.mem) : Canonical (s.tellWalk o t).mem := by
  unfold State.tellWalk
  exact .ite (engineRecord_canonical hs) hs

theorem walkLane_canonical {n : Nat} {o : Op} {w : Walk} {l : Nat} {ws : List Word} (hs : Canonical s.mem) :
    Canonical (s.walkLane n o w l ws).1.mem := by
  unfold State.walkLane
  split
  · have kept := Canonical.of_eq ‹_› (engWalk_keeps _ hs)
    exact kept
  · have kept := Canonical.of_eq ‹_› (engWalk_keeps _ hs)
    exact .ite_fst (meetFault_canonical kept) (tellWalk_canonical kept)

theorem walkLanes_canonical {n : Nat} {o : Op} {w : Walk} {l : List (Nat × List Word)} (hs : Canonical s.mem) :
    Canonical (s.walkLanes n o w l).mem := by
  induction l generalizing s w with
  | nil => exact hs
  | cons e rest ih =>
    unfold State.walkLanes
    split
    · exact .of_eq ‹_› (walkLane_canonical hs)
    · have walked := Canonical.of_eq ‹_› (walkLane_canonical hs)
      extract_lets left w'
      split
      · exact wakeOp_canonical walked
      · exact ih (.ite walked walked)

theorem execVins_canonical {f : XT} (hs : Canonical s.mem) : CanonicalOut (execVins f s) := by
  unfold execVins
  refine withTree_canonical hs fun hs => ?_
  simpa [Res.state, State.dropCopies] using hs

theorem execAllocatorInsertDone_canonical {op : Nat} (hs : Canonical s.mem) :
    CanonicalOut (execAllocatorInsertDone op s) := by
  unfold execAllocatorInsertDone
  split
  · exact hs
  · split
    · split
      · exact hs
      · split
        · have kept := Canonical.of_eq ‹_› (engInsert_keeps _ hs)
          exact kept
        · have kept := Canonical.of_eq ‹_› (engInsert_keeps _ hs)
          split
          · exact hs
          · exact keepOp_canonical (crossEdge_canonical kept)
        · have kept := Canonical.of_eq ‹_› (engInsert_keeps _ hs)
          split
          · exact meetFault_canonical hs
          · exact keepOp_canonical (crossEdge_canonical (tellWalk_canonical kept))
    · exact hs
    · exact hs

theorem startActivity_canonical {f : XT} {mode : Nat} (hs : Canonical s.mem) : CanonicalOut (startActivity f mode s) := by
  refine withTree_canonical hs fun hs => ?_
  simpa [Res.state, State.dropCopies] using hs

theorem execVactSet_canonical {f : XT} (hs : Canonical s.mem) : CanonicalOut (execVactSet f s) :=
  startActivity_canonical hs

theorem execVactClr_canonical {f : XT} (hs : Canonical s.mem) : CanonicalOut (execVactClr f s) :=
  startActivity_canonical hs

theorem execVactTrim_canonical {f : XT} (hs : Canonical s.mem) : CanonicalOut (execVactTrim f s) :=
  startActivity_canonical hs

theorem activityOver_canonical {n : Nat} {o : Op} {failed : List Trap} (hs : Canonical s.mem) :
    Canonical (s.activityOver n o failed).mem := by
  unfold State.activityOver
  split
  · exact wakeOp_canonical hs
  · exact .ite (refuseOp_canonical hs) hs

/-- A piece of work on a list of lanes: what holds of its end and of every lane's turn holds of it. -/
theorem lanes_canonical {lanes : List (Nat × List Word)} {turn : Nat → List Word → List (Nat × List Word) → State}
    (hs : Canonical s.mem) (turns : ∀ l ws rest, Canonical (turn l ws rest).mem) :
    Canonical (match lanes with
      | [] => s
      | (l, ws) :: rest => turn l ws rest).mem := by
  split
  · exact hs
  · exact turns _ _ _

theorem activityStep_canonical {n : Nat} {o : Op} {mode apred : Nat} {t : Machine.Tree} {failed : List Trap}
    {l : List (Nat × List Word)} (hs : Canonical s.mem) : Canonical (s.activityStep n o mode apred t failed l).mem := by
  unfold State.activityStep
  refine lanes_canonical (activityOver_canonical hs) fun l ws rest => ?_
  have ended : Canonical ((engActivity o t mode (coordOf ws 0) (coordOf ws 1) (coordOf ws 2)).go s).1.mem :=
    engActivity_keeps _ hs
  have goes {u : State} {present : Bool} {failed : List Trap} (hu : Canonical u.mem) :
      Canonical (if rest.isEmpty then (u.modCtx o.ctx fun c => c.setApred apred l present).activityOver n o failed
        else (u.modCtx o.ctx fun c => c.setApred apred l present).goOn n (.activity mode apred t rest failed)).mem :=
    .ite (activityOver_canonical hu) hu
  revert ended
  generalize Eng.go _ s = r
  intro ended
  rcases r with ⟨v, c | present⟩
  · exact .ite (meetFault_canonical ended) (goes (tellWalk_canonical ended))
  · exact goes ended

theorem readIssue_canonical {is : Issue} {va : DWord} {n : Nat} (hs : Canonical s.mem) :
    Canonical (s.readIssue is va n).1.mem := by
  simp only [State.readIssue]
  split
  · exact .of_eq ‹_› (translate_canonical hs)
  · have kept := Canonical.of_eq ‹_› (translate_canonical hs)
    split
    · exact logUncorrectable_canonical (askHome_canonical kept)
    · exact askHome_canonical kept

theorem readHierarchy_canonical {is : Issue} {va : DWord} (hs : Canonical s.mem) :
    Canonical (s.readHierarchy is va).1.mem := by
  simp only [State.readHierarchy]
  split
  · exact .of_eq ‹_› (readIssue_canonical hs)
  · have kept := Canonical.of_eq ‹_› (readIssue_canonical hs)
    split
    · exact kept
    · split
      · exact .ite_fst kept kept
      · split
        · exact kept
        · split <;> exact .of_eq ‹_› (readTree_canonical kept)

theorem resumeDepth_canonical {f : XT} {is : Issue} {a : TravArgs} (hs : Canonical s.mem) :
    Canonical (s.resumeDepth f is a).1.mem := by
  unfold State.resumeDepth
  split
  · exact hs
  · split
    · exact .of_eq ‹_› (readIssue_canonical hs)
    · have kept := Canonical.of_eq ‹_› (readIssue_canonical hs)
      split <;> exact kept

theorem travTargets_canonical {f : XT} {is : Issue} {a : TravArgs} (hs : Canonical s.mem) :
    Canonical (s.travTargets f is a).1.mem := by
  unfold State.travTargets
  split
  · exact .of_eq ‹_› (readHierarchy_canonical hs)
  · have kept := Canonical.of_eq ‹_› (readHierarchy_canonical hs)
    split
    · exact .of_eq ‹_› (.ite_fst kept (readHierarchy_canonical kept))
    · have kept' := Canonical.of_eq ‹_› (.ite_fst kept (readHierarchy_canonical kept))
      split
      · exact .of_eq ‹_› (nodeVia_canonical kept')
      · exact .ite_fst (.of_eq ‹_› (nodeVia_canonical kept')) (.of_eq ‹_› (nodeVia_canonical kept'))

theorem execDtrav_canonical {f : XT} (hs : Canonical s.mem) : CanonicalOut (execDtrav f s) := by
  simp only [execDtrav]
  refine issueWith_canonical hs fun _ => ?_
  split
  · exact hs
  · split
    · exact .of_eq ‹_› (travTargets_canonical (writeBack_canonical hs))
    · have kept := Canonical.of_eq ‹_› (travTargets_canonical (writeBack_canonical hs))
      split
      · exact kept
      · split
        · exact .of_eq ‹_› (resumeDepth_canonical kept)
        · have kept' := Canonical.of_eq ‹_› (resumeDepth_canonical kept)
          exact kept'

theorem engRoots_keeps {o : Op} {t : Tree} {fuel i : Nat} : EngKeeps (engRoots o t fuel i) := by
  induction fuel generalizing i with
  | zero => exact .pure _
  | succ fuel ih => exact .bind engEntry_keeps fun _ => .bind ih fun _ => .ite (.pure _) (.pure _)

theorem engMasked_keeps {o : Op} {t : Tree} {n act : Nat} {l : List Nat} : EngKeeps (engMasked o t n act l) := by
  induction l with
  | nil => exact .pure _
  | cons c rest ih => exact .ite ih (.bind engChild_keeps fun _ => .bind ih fun _ => .pure _)

theorem engActive_keeps {o : Op} {t : Machine.Tree} {n : Nat} : EngKeeps (engActive o t n) :=
  .bind engIndex_keeps fun _ => .bind engMask_keeps fun _ => engMasked_keeps

theorem engBoxes_keeps {o : Op} {h : Hierarchy} {n : Nat} : EngKeeps (engBoxes o h n) :=
  .bind engIndex_keeps fun _ => .bind engRead_keeps fun _ => .pure _

theorem engChildren_keeps {o : Op} {h : Hierarchy} {r : Word} {place : List Word} :
    EngKeeps (engChildren o h r place) := by
  unfold engChildren
  split
  · exact engBoxes_keeps
  · exact .ite engRoots_keeps (.bind engActive_keeps fun _ => .pure _)

theorem engLeafRef_keeps {h : Hierarchy} {r : Word} : EngKeeps (engLeafRef h r) := by
  unfold engLeafRef
  split
  · exact .pure _
  · exact engIndex_keeps

theorem engPop_keeps {o : Op} {d : Dtrav} {p : RefPair} : EngKeeps (engPop o d p) := by
  unfold engPop
  split
  · exact .pure _
  · split
    · exact .bind engChildren_keeps fun _ => .pure _
    · split
      · exact .bind engChildren_keeps fun _ => .pure _
      · split
        · exact .bind engChildren_keeps fun _ => .pure _
        · exact .bind engLeafRef_keeps fun _ => .bind engLeafRef_keeps fun _ => .ite (.pure _) (.ite (.pure _) (.pure _))

theorem engPush_keeps {ps rest : List RefPair} : EngKeeps (engPush ps rest) := by
  unfold engPush
  exact .ite (.throw _) (.pure _)

theorem engReload_keeps {o : Op} {d : Dtrav} {n : Nat} : EngKeeps (engReload o d n) := by
  induction n with
  | zero => exact .pure _
  | succ n ih => exact .bind ih fun _ => .bind engRead_keeps fun _ => .pure _

theorem engSaveStack_keeps {o : Op} {d : Dtrav} {l : List RefPair} {off : Nat} : EngKeeps (engSaveStack o d l off) := by
  induction l generalizing off with
  | nil => exact .pure _
  | cons p rest ih => exact .bind engWrite_keeps fun _ => ih

theorem engSave_keeps {o : Op} {d : Dtrav} : EngKeeps (engSave o d) :=
  .bind engRead_keeps fun _ => .bind engSaveStack_keeps fun _ => .bind engWrite_keeps fun _ => .pure _

/-- What reads the state goes on from the state as it is. -/
theorem go_get_bind {β : Type} (f : State → α) (k : α → Eng β) (s : State) : (engGet f >>= k).go s = (k (f s)).go s :=
  rfl

theorem engEmit_keeps {o : Op} {d : Dtrav} {a b : Word} {rest : List RefPair} : EngKeeps (engEmit o d a b rest) := by
  intro s hs
  unfold engEmit
  rw [go_get_bind]
  split
  · exact hs
  · rw [go_get_bind]
    split
    · exact hs
    · rw [go_get_bind]
      split
      · exact hs
      · exact enterBin_canonical (raiseFrame_canonical ‹_› hs)

theorem engPace_keeps {o : Op} {d : Dtrav} : EngKeeps (engPace o d) := by
  unfold engPace
  split
  · split
    · exact .bind (.throw _) fun _ => .bind engReload_keeps fun _ => .pure _
    · exact .bind engReload_keeps fun _ => .pure _
  · split
    · exact .pure _
    · refine .bind engPop_keeps fun a => ?_
      split
      · exact .pure _
      · exact .bind engPush_keeps fun _ => .pure _
      · exact engEmit_keeps

theorem endTraversal_canonical {n : Nat} {o : Op} {d : Dtrav} {refused : Bool} (hs : Canonical s.mem) :
    Canonical (s.endTraversal n o d refused).mem := by
  unfold State.endTraversal
  split
  · exact meetFault_canonical (.of_eq ‹_› (engSave_keeps _ hs))
  · have kept := Canonical.of_eq ‹_› (engSave_keeps _ hs)
    exact crossEdge_canonical kept

theorem runTraversal_canonical {n : Nat} {o : Op} {ends : Bool} {fuel : Nat} {d : Dtrav} (hs : Canonical s.mem) :
    Canonical (s.runTraversal n o ends fuel d).mem := by
  induction fuel generalizing s d with
  | zero => exact hs
  | succ fuel ih =>
    have paced : Canonical ((engPace o d).go s).1.mem := engPace_keeps _ hs
    unfold State.runTraversal
    revert paced
    generalize Eng.go _ s = r
    intro paced
    split
    · exact meetFault_canonical paced
    · exact .ite (.ite paced paced) (ih (.ite paced paced))
    · exact .ite (endTraversal_canonical paced) paced
    · exact .ite (endTraversal_canonical paced) paced
    · exact paced

theorem walkPairs_canonical {die pops : Nat} {ends : Bool} (hs : Canonical s.mem) :
    Canonical (s.walkPairs die pops ends).mem := by
  unfold State.walkPairs
  split
  · exact hs
  · exact .ite hs (runTraversal_canonical hs)

theorem execPairWalkerEmit_canonical {die pops : Nat} (hs : Canonical s.mem) :
    CanonicalOut (execPairWalkerEmit die pops s) :=
  walkPairs_canonical hs

theorem execPairWalkerEnd_canonical {die pops : Nat} (hs : Canonical s.mem) :
    CanonicalOut (execPairWalkerEnd die pops s) :=
  walkPairs_canonical hs

end Sys2Proof.MemoryForm
end

section
/-! O54, the vector pipe, the vocabulary engine and the halos. -/

namespace Sys2Proof.MemoryForm

open Machine Laws

variable {s t u : State} {α : Type}

theorem vectorOp_canonical {f : Form} {bytes : Nat} {op : Ctx → Nat → DWord} (hs : Canonical s.mem) :
    CanonicalOut (vectorOp f bytes op s) :=
  issue_canonical hs fun _ => hs

theorem vectorTwo_canonical {f : XV} {form : Form} {op : Ty → DWord → DWord → DWord} (hs : Canonical s.mem) :
    CanonicalOut (vectorTwo f form op s) :=
  vectorOp_canonical hs

theorem vectorOne_canonical {f : XV} {op : Ty → DWord → DWord} (hs : Canonical s.mem) : CanonicalOut (vectorOne f op s) :=
  vectorOp_canonical hs

theorem execAdd_canonical {f : XV} (hs : Canonical s.mem) : CanonicalOut (execAdd f s) :=
  vectorTwo_canonical hs

theorem execSub_canonical {f : XV} (hs : Canonical s.mem) : CanonicalOut (execSub f s) :=
  vectorTwo_canonical hs

theorem execMul_canonical {f : XV} (hs : Canonical s.mem) : CanonicalOut (execMul f s) :=
  vectorTwo_canonical hs

theorem execMulh_canonical {f : XV} (hs : Canonical s.mem) : CanonicalOut (execMulh f s) :=
  vectorTwo_canonical hs

theorem execMad_canonical {f : XV} (hs : Canonical s.mem) : CanonicalOut (execMad f s) :=
  vectorOp_canonical hs

theorem execMin_canonical {f : XV} (hs : Canonical s.mem) : CanonicalOut (execMin f s) :=
  vectorTwo_canonical hs

theorem execMax_canonical {f : XV} (hs : Canonical s.mem) : CanonicalOut (execMax f s) :=
  vectorTwo_canonical hs

theorem execAbs_canonical {f : XV} (hs : Canonical s.mem) : CanonicalOut (execAbs f s) :=
  vectorOp_canonical hs

theorem execAnd_canonical {f : XV} (hs : Canonical s.mem) : CanonicalOut (execAnd f s) :=
  vectorTwo_canonical hs

theorem execOr_canonical {f : XV} (hs : Canonical s.mem) : CanonicalOut (execOr f s) :=
  vectorTwo_canonical hs

theorem execXor_canonical {f : XV} (hs : Canonical s.mem) : CanonicalOut (execXor f s) :=
  vectorTwo_canonical hs

theorem execShl_canonical {f : XV} (hs : Canonical s.mem) : CanonicalOut (execShl f s) :=
  vectorTwo_canonical hs

theorem execShr_canonical {f : XV} (hs : Canonical s.mem) : CanonicalOut (execShr f s) :=
  vectorTwo_canonical hs

theorem execSra_canonical {f : XV} (hs : Canonical s.mem) : CanonicalOut (execSra f s) :=
  vectorTwo_canonical hs

theorem execBfx_canonical {f : XV} (hs : Canonical s.mem) : CanonicalOut (execBfx f s) :=
  vectorOp_canonical hs

theorem execBfi_canonical {f : XV} (hs : Canonical s.mem) : CanonicalOut (execBfi f s) :=
  vectorOp_canonical hs

theorem execPopc_canonical {f : XV} (hs : Canonical s.mem) : CanonicalOut (execPopc f s) :=
  vectorOne_canonical hs

theorem execClz_canonical {f : XV} (hs : Canonical s.mem) : CanonicalOut (execClz f s) :=
  vectorOne_canonical hs

theorem execBrev_canonical {f : XV} (hs : Canonical s.mem) : CanonicalOut (execBrev f s) :=
  vectorOne_canonical hs

theorem execMov_canonical {f : XV} (hs : Canonical s.mem) : CanonicalOut (execMov f s) :=
  vectorOne_canonical hs

theorem execCmp_canonical {f : XV} (hs : Canonical s.mem) : CanonicalOut (execCmp f s) :=
  vectorOp_canonical hs

theorem execSel_canonical {f : XV} (hs : Canonical s.mem) : CanonicalOut (execSel f s) :=
  vectorOp_canonical hs

theorem deliver_canonical {is : Issue} {rs : List (Nat × Nat × Flags)} {write : Ctx → Ctx} (hs : Canonical s.mem) :
    Canonical (deliver is s rs write).state.mem := by
  simp only [deliver]
  split <;> exact hs

theorem vectorFp_canonical {f : Form} {bytes : Nat} {op : Ctx → Nat → Nat × Flags} (hs : Canonical s.mem) :
    CanonicalOut (vectorFp f bytes op s) :=
  issue_canonical hs fun _ => deliver_canonical hs

theorem fpTwo_canonical {f : XV} {form : Form} {bytes : Nat} {op : Fmt → FpEnv → Nat → Nat → Nat × Flags}
    (hs : Canonical s.mem) : CanonicalOut (fpTwo f form bytes op s) :=
  vectorFp_canonical hs

theorem fpOne_canonical {f : XV} {form : Form} {op : Fmt → FpEnv → Nat → Nat × Flags} (hs : Canonical s.mem) :
    CanonicalOut (fpOne f form op s) :=
  vectorFp_canonical hs

theorem execFadd_canonical {f : XV} (hs : Canonical s.mem) : CanonicalOut (execFadd f s) :=
  fpTwo_canonical hs

theorem execFsub_canonical {f : XV} (hs : Canonical s.mem) : CanonicalOut (execFsub f s) :=
  fpTwo_canonical hs

theorem execFmul_canonical {f : XV} (hs : Canonical s.mem) : CanonicalOut (execFmul f s) :=
  fpTwo_canonical hs

theorem fpFma_canonical {f : XV} {form : Form} {bytes : Nat} (hs : Canonical s.mem) :
    CanonicalOut (fpFma f form bytes s) :=
  vectorFp_canonical hs

theorem execFma_canonical {f : XV} (hs : Canonical s.mem) : CanonicalOut (execFma f s) :=
  fpFma_canonical hs

theorem execFmin_canonical {f : XV} (hs : Canonical s.mem) : CanonicalOut (execFmin f s) :=
  fpTwo_canonical hs

theorem execFmax_canonical {f : XV} (hs : Canonical s.mem) : CanonicalOut (execFmax f s) :=
  fpTwo_canonical hs

theorem execFcmp_canonical {f : XV} (hs : Canonical s.mem) : CanonicalOut (execFcmp f s) := by
  unfold execFcmp
  exact vectorFp_canonical hs

theorem execFclass_canonical {f : XV} (hs : Canonical s.mem) : CanonicalOut (execFclass f s) :=
  vectorOp_canonical hs

theorem execFdiv_canonical {f : XV} (hs : Canonical s.mem) : CanonicalOut (execFdiv f s) :=
  fpTwo_canonical hs

theorem execFsqrt_canonical {f : XV} (hs : Canonical s.mem) : CanonicalOut (execFsqrt f s) :=
  fpOne_canonical hs

theorem execFrcp_canonical {f : XV} (hs : Canonical s.mem) : CanonicalOut (execFrcp f s) :=
  fpOne_canonical hs

theorem execFrsq_canonical {f : XV} (hs : Canonical s.mem) : CanonicalOut (execFrsq f s) :=
  fpOne_canonical hs

theorem execFex2_canonical {f : XV} (hs : Canonical s.mem) : CanonicalOut (execFex2 f s) :=
  fpOne_canonical hs

theorem execFlg2_canonical {f : XV} (hs : Canonical s.mem) : CanonicalOut (execFlg2 f s) :=
  fpOne_canonical hs

theorem execFsin_canonical {f : XV} (hs : Canonical s.mem) : CanonicalOut (execFsin f s) :=
  fpOne_canonical hs

theorem execFcos_canonical {f : XV} (hs : Canonical s.mem) : CanonicalOut (execFcos f s) :=
  fpOne_canonical hs

theorem execFtanh_canonical {f : XV} (hs : Canonical s.mem) : CanonicalOut (execFtanh f s) :=
  fpOne_canonical hs

theorem execFrint_canonical {f : XV} (hs : Canonical s.mem) : CanonicalOut (execFrint f s) :=
  fpOne_canonical hs

theorem execFscal_canonical {f : XV} (hs : Canonical s.mem) : CanonicalOut (execFscal f s) := by
  unfold execFscal
  exact vectorFp_canonical hs

theorem execCvt_canonical {f : XV} (hs : Canonical s.mem) : CanonicalOut (execCvt f s) := by
  unfold execCvt
  exact vectorFp_canonical hs

theorem execPack_canonical {f : XV} (hs : Canonical s.mem) : CanonicalOut (execPack f s) := by
  unfold execPack
  exact vectorFp_canonical hs

theorem execUnpack_canonical {f : XV} (hs : Canonical s.mem) : CanonicalOut (execUnpack f s) := by
  unfold execUnpack
  exact vectorFp_canonical hs

theorem baseInt_canonical {f : Base} {ty : Ty} {scalar : Bool} {op : Ty → DWord → DWord → DWord} (hs : Canonical s.mem) :
    CanonicalOut (baseInt f ty scalar op s) :=
  vectorOp_canonical hs

theorem baseFp_canonical {f : Base} {scalar : Bool} {op : Fmt → FpEnv → Nat → Nat → Nat × Flags} (hs : Canonical s.mem) :
    CanonicalOut (baseFp f scalar op s) :=
  fpTwo_canonical hs

theorem execAddB32Base_canonical {f : Base} (hs : Canonical s.mem) : CanonicalOut (execAddB32Base f s) :=
  baseInt_canonical hs

theorem execSubB32Base_canonical {f : Base} (hs : Canonical s.mem) : CanonicalOut (execSubB32Base f s) :=
  baseInt_canonical hs

theorem execMulB32Base_canonical {f : Base} (hs : Canonical s.mem) : CanonicalOut (execMulB32Base f s) :=
  baseInt_canonical hs

theorem execAndB32Base_canonical {f : Base} (hs : Canonical s.mem) : CanonicalOut (execAndB32Base f s) :=
  baseInt_canonical hs

theorem execOrB32Base_canonical {f : Base} (hs : Canonical s.mem) : CanonicalOut (execOrB32Base f s) :=
  baseInt_canonical hs

theorem execXorB32Base_canonical {f : Base} (hs : Canonical s.mem) : CanonicalOut (execXorB32Base f s) :=
  baseInt_canonical hs

theorem execShlB32Base_canonical {f : Base} (hs : Canonical s.mem) : CanonicalOut (execShlB32Base f s) :=
  baseInt_canonical hs

theorem execShrB32Base_canonical {f : Base} (hs : Canonical s.mem) : CanonicalOut (execShrB32Base f s) :=
  baseInt_canonical hs

theorem execSraB32Base_canonical {f : Base} (hs : Canonical s.mem) : CanonicalOut (execSraB32Base f s) :=
  baseInt_canonical hs

theorem execMinS32Base_canonical {f : Base} (hs : Canonical s.mem) : CanonicalOut (execMinS32Base f s) :=
  baseInt_canonical hs

theorem execMaxS32Base_canonical {f : Base} (hs : Canonical s.mem) : CanonicalOut (execMaxS32Base f s) :=
  baseInt_canonical hs

theorem execFaddF32Base_canonical {f : Base} (hs : Canonical s.mem) : CanonicalOut (execFaddF32Base f s) :=
  baseFp_canonical hs

theorem execFsubF32Base_canonical {f : Base} (hs : Canonical s.mem) : CanonicalOut (execFsubF32Base f s) :=
  baseFp_canonical hs

theorem execFmulF32Base_canonical {f : Base} (hs : Canonical s.mem) : CanonicalOut (execFmulF32Base f s) :=
  baseFp_canonical hs

theorem execFmaF32Base_canonical {f : Base} (hs : Canonical s.mem) : CanonicalOut (execFmaF32Base f s) :=
  fpFma_canonical hs

theorem execFminF32Base_canonical {f : Base} (hs : Canonical s.mem) : CanonicalOut (execFminF32Base f s) :=
  baseFp_canonical hs

theorem execFmaxF32Base_canonical {f : Base} (hs : Canonical s.mem) : CanonicalOut (execFmaxF32Base f s) :=
  baseFp_canonical hs

theorem execMovB32Base_canonical {f : Base} (hs : Canonical s.mem) : CanonicalOut (execMovB32Base f s) :=
  vectorOp_canonical hs

theorem execAddB32VsBase_canonical {f : Base} (hs : Canonical s.mem) : CanonicalOut (execAddB32VsBase f s) :=
  baseInt_canonical hs

theorem execFmulF32VsBase_canonical {f : Base} (hs : Canonical s.mem) : CanonicalOut (execFmulF32VsBase f s) :=
  baseFp_canonical hs

theorem execFmaF32VsBase_canonical {f : Base} (hs : Canonical s.mem) : CanonicalOut (execFmaF32VsBase f s) :=
  fpFma_canonical hs

theorem shuffle_canonical {f : XL} {mode : Nat} {from_ : Nat → Nat → ℤ} (hs : Canonical s.mem) :
    CanonicalOut (shuffle f mode from_ s) :=
  issue_canonical hs fun _ => hs

theorem execShflIdx_canonical {f : XL} (hs : Canonical s.mem) : CanonicalOut (execShflIdx f s) :=
  shuffle_canonical hs

theorem execShflUp_canonical {f : XL} (hs : Canonical s.mem) : CanonicalOut (execShflUp f s) :=
  shuffle_canonical hs

theorem execShflDown_canonical {f : XL} (hs : Canonical s.mem) : CanonicalOut (execShflDown f s) :=
  shuffle_canonical hs

theorem execShflXor_canonical {f : XL} (hs : Canonical s.mem) : CanonicalOut (execShflXor f s) :=
  shuffle_canonical hs

theorem vote_canonical {f : XL} {mode : Nat} {op : LaneMask → LaneMask → DWord} (hs : Canonical s.mem) :
    CanonicalOut (vote f mode op s) :=
  issue_canonical hs fun _ => hs

theorem execVoteBallot_canonical {f : XL} (hs : Canonical s.mem) : CanonicalOut (execVoteBallot f s) :=
  vote_canonical hs

theorem execVoteAny_canonical {f : XL} (hs : Canonical s.mem) : CanonicalOut (execVoteAny f s) :=
  vote_canonical hs

theorem execVoteAll_canonical {f : XL} (hs : Canonical s.mem) : CanonicalOut (execVoteAll f s) :=
  vote_canonical hs

theorem execVoteUni_canonical {f : XL} (hs : Canonical s.mem) : CanonicalOut (execVoteUni f s) :=
  vote_canonical hs

theorem execMatchLanes_canonical {f : XL} (hs : Canonical s.mem) : CanonicalOut (execMatchLanes f s) :=
  issue_canonical hs fun _ => hs

theorem deliverSplit_canonical {is : Issue} {fl : Flags} {write : Ctx → Ctx} (hs : Canonical s.mem) :
    Canonical (deliverSplit is s fl write).state.mem :=
  deliver_canonical hs

theorem execRedux_canonical {f : XL} (hs : Canonical s.mem) : CanonicalOut (execRedux f s) :=
  issue_canonical hs fun _ => deliverSplit_canonical hs

theorem execScan_canonical {f : XL} (hs : Canonical s.mem) : CanonicalOut (execScan f s) :=
  issue_canonical hs fun _ => deliverSplit_canonical hs

theorem execRngc_canonical {f : XL} (hs : Canonical s.mem) : CanonicalOut (execRngc f s) :=
  issue_canonical hs fun _ => hs

theorem rowBytes_canonical {n : Nat} {o : Op} {side : Side} {j k : Nat} (hs : Canonical s.mem) :
    Canonical (s.rowBytes n o side j k).1.mem := by
  unfold State.rowBytes
  split
  · exact .of_eq ‹_› (resolveParts_canonical hs)
  · have kept := Canonical.of_eq ‹_› (resolveParts_canonical hs)
    split <;> exact .of_eq ‹_› (readParts_canonical kept)

theorem vocabRow_canonical {n : Nat} {o : Op} {v : Vocab} (hs : Canonical s.mem) :
    Canonical (s.vocabRow n o v).1.mem := by
  simp only [State.vocabRow]
  split
  · exact hs
  · split
    · exact .of_eq ‹_› (rowBytes_canonical hs)
    · have kept := Canonical.of_eq ‹_› (rowBytes_canonical hs)
      split <;> exact kept

theorem commitVocab_canonical {is : Issue} {v : Vocab} {range : List Range} (hs : Canonical s.mem) :
    Canonical (commitVocab is s v range).state.mem := by
  unfold commitVocab
  split
  · exact hs
  · have drained : Canonical (if v.captured.isNone && v.scratchRow.isNone then s.writeBack is.id
        else s.settleReads is.id).mem := .ite (writeBack_canonical hs) (settleReads_canonical hs)
    exact drained

theorem issueVocab_canonical {f : XL} {form : Form} {kind k : Nat} (hs : Canonical s.mem) :
    CanonicalOut (issueVocab f form kind k s) := by
  simp only [issueVocab]
  refine issueOn_canonical hs fun _ => ?_
  split
  · exact hs
  · split
    · split
      · exact hs
      · exact commitVocab_canonical hs
    · split
      · exact hs
      · split
        · split
          · exact hs
          · exact commitVocab_canonical hs
        · split
          · exact hs
          · exact commitVocab_canonical hs

theorem execVtopk_canonical {f : XL} (hs : Canonical s.mem) : CanonicalOut (execVtopk f s) :=
  issueVocab_canonical hs

theorem execVsoftmax_canonical {f : XL} (hs : Canonical s.mem) : CanonicalOut (execVsoftmax f s) :=
  issueVocab_canonical hs

theorem execVsample_canonical {f : XL} (hs : Canonical s.mem) : CanonicalOut (execVsample f s) :=
  issueVocab_canonical hs

theorem vocabStep_canonical {n : Nat} {o : Op} {v : Vocab} {xs : List Word} (hs : Canonical s.mem) :
    Canonical (s.vocabStep n o v xs).mem := by
  simp only [State.vocabStep]
  split
  · exact hs
  · split <;> exact hs

theorem execVocabBlock_canonical {op : Nat} (hs : Canonical s.mem) : CanonicalOut (execVocabBlock op s) := by
  simp only [execVocabBlock]
  split
  · exact hs
  · split
    · split
      · exact hs
      · split
        · rename_i ran
          exact meetFault_canonical (.of_eq ran (vocabRow_canonical hs))
        · rename_i ran
          exact vocabStep_canonical (.of_eq ran (vocabRow_canonical hs))
    · exact hs

theorem stepFrame_canonical {is : Issue} {va : DWord} {kind : Nat} (hs : Canonical s.mem) :
    Canonical (s.stepFrame is va kind).1.mem := by
  unfold State.stepFrame
  split
  · exact hs
  · split
    · exact .of_eq ‹_› (translate_canonical hs)
    · exact .ite_fst (.of_eq ‹_› (translate_canonical hs)) (.of_eq ‹_› (translate_canonical hs))

theorem startHalo_canonical {is : Issue} {trees : Option (Machine.Tree × Machine.Tree)} {origin : List Word}
    {step : Nat} (hs : Canonical s.mem) : Canonical (startHalo is trees origin step s).state.mem := by
  unfold startHalo
  exact .ite (writeBack_canonical hs) (writeBack_canonical hs)

theorem execHalo_canonical {f : XT} (hs : Canonical s.mem) : CanonicalOut (execHalo f s) := by
  simp only [execHalo]
  refine issue_canonical hs fun _ => ?_
  split
  · exact hs
  · split
    · exact hs
    · split
      · exact hs
      · split
        · exact hs
        · split
          · exact hs
          · split
            · exact hs
            · split
              · exact .of_eq ‹_› (readTree_canonical hs)
              · have kept := Canonical.of_eq ‹_› (readTree_canonical hs)
                split
                · exact .of_eq ‹_› (stepFrame_canonical kept)
                · exact startHalo_canonical (.of_eq ‹_› (stepFrame_canonical kept))

theorem execHaloPostOnly_canonical {f : XT} (hs : Canonical s.mem) : CanonicalOut (execHaloPostOnly f s) := by
  simp only [execHaloPostOnly]
  refine issue_canonical hs fun _ => ?_
  split
  · exact .of_eq ‹_› (stepFrame_canonical hs)
  · exact startHalo_canonical (.of_eq ‹_› (stepFrame_canonical hs))

theorem engSource_keeps {o : Op} {src : Machine.Tree} {origin : List Word} : EngKeeps (engSource o src origin) := by
  unfold engSource
  refine .bind engPath_keeps fun a => ?_
  split <;> exact .pure _

theorem engHaloFind_keeps {o : Op} {src dst : Machine.Tree} {origin : List Word} {held : Option Held} :
    EngKeeps (engHaloFind o src dst origin held) := by
  simp only [engHaloFind]
  split
  · refine .bind (.throw _) fun a => ?_
    refine .bind engSource_keeps fun a => ?_
    split
    · exact .pure _
    · refine .bind engInsert_keeps fun a => ?_
      split
      · exact .pure _
      · exact .pure _
      · exact .throw _
      · exact .pure _
  · refine .bind engSource_keeps fun a => ?_
    split
    · exact .pure _
    · refine .bind engInsert_keeps fun a => ?_
      split
      · exact .pure _
      · exact .pure _
      · exact .throw _
      · exact .pure _

theorem engHaloPiece_keeps {o : Op} {dst : Machine.Tree} {a b : DWord} {moved : Nat} :
    EngKeeps (engHaloPiece o dst a b moved) :=
  .bind engRead_keeps fun _ => .bind engWrite_keeps fun _ => .pure _

theorem engHaloMark_keeps {o : Op} {dst : Machine.Tree} {origin : List Word} : EngKeeps (engHaloMark o dst origin) := by
  simp only [engHaloMark]
  refine .bind engPath_keeps fun a => ?_
  split
  · exact .pure _
  · exact .forM (fun _ => engBit_keeps) _

theorem haloFault_canonical {after : State} {n : Nat} {t : Trap} (hs : Canonical s.mem) (ht : Canonical after.mem) :
    Canonical (s.haloFault after n t).mem := by
  unfold State.haloFault
  exact .ite (meetFault_canonical hs) (failEngine_canonical ht)

theorem haloStep_canonical {n : Nat} {o : Op} {w : HaloWork} (hs : Canonical s.mem) :
    Canonical (s.haloStep n o w).mem := by
  unfold State.haloStep
  split
  · split
    · split
      · exact haloFault_canonical hs (.of_eq ‹_› (engHaloPiece_keeps _ hs))
      · have moved := Canonical.of_eq ‹_› (engHaloPiece_keeps _ hs)
        exact moved
    · have marks : EngKeeps (if w.active then engHaloMark o w.dst w.origin else pure ()) :=
        .ite engHaloMark_keeps (.pure _)
      split
      · exact haloFault_canonical hs (.of_eq ‹_› (marks _ hs))
      · have marked := Canonical.of_eq ‹_› (marks _ hs)
        exact postStep_canonical marked
  · split
    · exact haloFault_canonical hs (.of_eq ‹_› (engHaloFind_keeps _ hs))
    · have found := Canonical.of_eq ‹_› (engHaloFind_keeps _ hs)
      exact postStep_canonical found
    · exact hs
    · have found := Canonical.of_eq ‹_› (engHaloFind_keeps _ hs)
      exact found
    · have found := Canonical.of_eq ‹_› (engHaloFind_keeps _ hs)
      exact .ite hs found

theorem execHaloPost_canonical {op : Nat} (hs : Canonical s.mem) : CanonicalOut (execHaloPost op s) := by
  unfold execHaloPost
  split
  · exact hs
  · split
    · exact postStep_canonical hs
    · exact .ite hs (haloStep_canonical hs)
    · exact hs

theorem execStepb_canonical {f : XT} (hs : Canonical s.mem) : CanonicalOut (execStepb f s) := by
  simp only [execStepb]
  refine issue_canonical hs fun _ => ?_
  split
  · exact hs
  · split
    · exact hs
    · split
      · exact .of_eq ‹_› (translate_canonical hs)
      · have kept := Canonical.of_eq ‹_› (translate_canonical hs)
        split
        · exact logUncorrectable_canonical (askHome_canonical (writeBack_canonical kept))
        · split
          · exact askHome_canonical (writeBack_canonical kept)
          · split
            · exact crossEdge_canonical (askHome_canonical (writeBack_canonical kept))
            · exact watchPlace_canonical (askHome_canonical (writeBack_canonical kept))

theorem execProducerFill_canonical {op : Nat} {lanes : LaneMask} (hs : Canonical s.mem) :
    CanonicalOut (execProducerFill op lanes s) := by
  unfold execProducerFill
  split
  · exact hs
  · split
    · exact hs
    · split
      · exact walkLanes_canonical hs
      · exact fillLanes_canonical hs

theorem execAtomicPerform_canonical {op : Nat} (hs : Canonical s.mem) : CanonicalOut (execAtomicPerform op s) := by
  unfold execAtomicPerform
  split
  · exact hs
  · split
    · exact hs
    · split
      · exact atomicStep_canonical hs
      · exact activityStep_canonical hs
      · exact hs

theorem stoppedIn_canonical {op : Nat} {r : Host.Outcome State Fault Refusal} (hs : Canonical s.mem)
    (hr : CanonicalOut r) : Canonical ((stoppedIn op r).getD s).mem := by
  unfold stoppedIn
  split
  · split
    · exact hr
    · exact hs
  · exact hs

theorem execEngineFault_canonical {op part : Nat} (hs : Canonical s.mem) : CanonicalOut (execEngineFault op part s) := by
  unfold execEngineFault
  split
  · exact hs
  · split
    · exact hs
    · split
      · split
        · exact .ite (meetFault_canonical (.of_eq ‹_› (copyFault_canonical hs))) hs
        · exact hs
      · exact stoppedIn_canonical hs (execProducerFill_canonical hs)
      · exact stoppedIn_canonical hs (execAtomicPerform_canonical hs)
      · exact stoppedIn_canonical hs (execAllocatorInsertDone_canonical hs)
      · exact stoppedIn_canonical hs (execPairWalkerEnd_canonical hs)
      · exact stoppedIn_canonical hs (execHaloPost_canonical hs)
      · exact stoppedIn_canonical hs (execVocabBlock_canonical hs)
      · exact hs

end Sys2Proof.MemoryForm
end

section
/-! O54, the matrix unit and images. -/

namespace Sys2Proof.MemoryForm

open Machine Laws

variable {s t u : State} {α : Type}

theorem execTset_canonical {f : XT} (hs : Canonical s.mem) : CanonicalOut (execTset f s) := by
  simp only [execTset]
  refine issueWith_canonical hs fun _ => ?_
  split
  · exact hs
  · split <;> exact hs

theorem execTget_canonical {f : XT} (hs : Canonical s.mem) : CanonicalOut (execTget f s) :=
  issueWith_canonical hs fun _ => hs

theorem execTcb_canonical {f : XT} (hs : Canonical s.mem) : CanonicalOut (execTcb f s) := by
  simp only [execTcb]
  refine issueWith_canonical hs fun _ => ?_
  split
  · exact hs
  · exact hs
  · exact hs
  · split <;> exact hs

theorem execTld_canonical {f : XT} (hs : Canonical s.mem) : CanonicalOut (execTld f s) := by
  simp only [execTld]
  refine issueWith_canonical hs fun _ => ?_
  split <;> exact hs

theorem execTst_canonical {f : XT} (hs : Canonical s.mem) : CanonicalOut (execTst f s) := by
  simp only [execTst]
  refine issueWith_canonical hs fun _ => ?_
  split
  · exact hs
  · split <;> exact hs

theorem execTzero_canonical {f : XT} (hs : Canonical s.mem) : CanonicalOut (execTzero f s) := by
  simp only [execTzero]
  refine issueWith_canonical hs fun _ => ?_
  split <;> exact hs

theorem execGang_canonical {f : XT} (hs : Canonical s.mem) : CanonicalOut (execGang f s) := by
  simp only [execGang]
  refine issueWith_canonical hs fun _ => ?_
  split <;> exact hs

theorem showMatrix_canonical {ms : List MatMember} (hs : Canonical s.mem) : Canonical (s.showMatrix ms).mem :=
  .foldState hs fun hs => hs

theorem commitMatrix_canonical {o : Op} {m : MatOp} (hs : Canonical s.mem) : Canonical (s.commitMatrix o m).mem :=
  showMatrix_canonical (.foldState hs fun hs => hs)

theorem issueMma_canonical {i : Instr} {f : XT} {kind : Nat} (hs : Canonical s.mem) :
    CanonicalOut (issueMma i f kind s) := by
  simp only [issueMma]
  refine issueWith_canonical hs fun _ => ?_
  split
  · split <;> exact hs
  · split
    · exact hs
    · split
      · exact hs
      · split
        · exact hs
        · split
          · exact writeBack_canonical hs
          · exact commitMatrix_canonical hs

theorem execMma_canonical {f : XT} (hs : Canonical s.mem) : CanonicalOut (execMma f s) :=
  issueMma_canonical hs

theorem execMmaBs_canonical {f : XT} (hs : Canonical s.mem) : CanonicalOut (execMmaBs f s) :=
  issueMma_canonical hs

theorem execMmaVs_canonical {f : XT} (hs : Canonical s.mem) : CanonicalOut (execMmaVs f s) :=
  issueMma_canonical hs

theorem failLatch_canonical {core : Nat} {as : List Arrival} {cause : Cause} (hs : Canonical s.mem) :
    Canonical (s.failLatch core as cause).mem :=
  .foldState hs fun hs => takeTrap_canonical hs

theorem fireGang_canonical {core : Nat} {a : Arrival} {as : List Arrival} (hs : Canonical s.mem) :
    Canonical (s.fireGang core a as).mem := by
  unfold State.fireGang
  split
  · exact .foldState (commitMatrix_canonical hs) fun hs => hs
  · exact hs

theorem execLatchFire_canonical {ctx : Nat} (hs : Canonical s.mem) : CanonicalOut (execLatchFire ctx s) := by
  simp only [execLatchFire]
  split
  · exact hs
  · split
    · exact hs
    · split
      · exact hs
      · split
        · exact failLatch_canonical hs
        · split
          · exact fireGang_canonical hs
          · exact failLatch_canonical hs

theorem execMmas_canonical {f : XT} (hs : Canonical s.mem) : CanonicalOut (execMmas f s) := by
  simp only [execMmas]
  refine issueWith_canonical hs fun _ => ?_
  split
  · exact hs
  · split
    · exact hs
    · split
      · exact hs
      · split
        · exact hs
        · split
          · exact hs
          · split
            · exact settleReads_canonical hs
            · exact commitMatrix_canonical (settleReads_canonical hs)

theorem endMatrix_canonical {n : Nat} {m : MatOp} (hs : Canonical s.mem) : Canonical (s.endMatrix n m).mem :=
  showMatrix_canonical (.foldState hs fun hs => hs)

theorem addGroups_canonical {core n count : Nat} {b : MatMember × Nat} (hs : Canonical s.mem) :
    Canonical (s.addGroups core n count b).mem := by
  unfold State.addGroups
  split
  · split
    · split
      · exact hs
      · exact .ite hs (.ite (.ite hs (.ite hs hs)) (logScratchError_canonical (.ite hs (.ite hs hs))))
  · exact hs

theorem matAdd_canonical {core n : Nat} {m : MatOp} {count : Nat} (hs : Canonical s.mem) :
    Canonical (s.matAdd core n m count).mem := by
  unfold State.matAdd
  exact .ite hs (showMatrix_canonical (.foldState hs fun hs => addGroups_canonical hs))

theorem matWork_canonical {core n : Nat} {m : MatOp} (hs : Canonical s.mem) : Canonical (s.matWork core n m).mem :=
  endMatrix_canonical (matAdd_canonical hs)

theorem execMatrixOpComplete_canonical {core : Nat} (hs : Canonical s.mem) :
    CanonicalOut (execMatrixOpComplete core s) := by
  unfold execMatrixOpComplete
  split
  · exact hs
  · split
    · exact matWork_canonical hs
    · split
      · exact hs
      · exact endMatrix_canonical hs

theorem consumeStage_canonical {n : Nat} {o : Op} {m : MatOp} (hs : Canonical s.mem) :
    Canonical (s.consumeStage n o m).mem := by
  unfold State.consumeStage
  extract_lets added freed e arrived
  have adds : Canonical added.mem := matAdd_canonical hs
  have frees : Canonical freed.mem := writeBack_canonical adds
  have arrives : Canonical arrived.mem := setTbar_canonical frees
  refine showMatrix_canonical ?_
  rwa [modOp_mem]

theorem lockStage_canonical {n : Nat} {o : Op} {m : MatOp} {range : Range} (hs : Canonical s.mem) :
    Canonical (s.lockStage n o m range).mem := by
  unfold State.lockStage
  exact .ite hs hs

theorem poisonRows_canonical {id : Nat} {m : MatOp} {rows : List Nat} (hs : Canonical s.mem) :
    Canonical (s.poisonRows id m rows).mem :=
  hs

theorem execMmasStage_canonical {op : Nat} (hs : Canonical s.mem) : CanonicalOut (execMmasStage op s) := by
  unfold execMmasStage
  split
  · exact hs
  · split
    · exact hs
    · split
      · exact consumeStage_canonical hs
      · extract_lets b range
        clear_value b
        split
        · exact endMatrix_canonical (poisonRows_canonical hs)
        · split
          · exact hs
          · exact lockStage_canonical hs

theorem stopMatrix_canonical {core : Nat} (hs : Canonical s.mem) : Canonical (s.stopMatrix core).mem := by
  unfold State.stopMatrix
  split
  · exact hs
  · exact .ite hs (matAdd_canonical hs)

theorem execMbatch_canonical {f : XT} (hs : Canonical s.mem) : CanonicalOut (execMbatch f s) :=
  issueWith_canonical hs fun _ => hs

theorem batchReturn_canonical {id i n : Nat} {next : DWord} (hs : Canonical s.mem) :
    Canonical (s.batchReturn id i n next).mem :=
  crossEdge_canonical hs

theorem execMwait_canonical {f : XT} (hs : Canonical s.mem) : CanonicalOut (execMwait f s) := by
  simp only [execMwait]
  refine issueWith_canonical hs fun _ => ?_
  split
  · exact hs
  · split
    · split
      · exact crossEdge_canonical (settleReads_canonical hs)
      · exact writeBack_canonical hs
    · split
      · exact crossEdge_canonical (settleReads_canonical hs)
      · exact writeBack_canonical hs

theorem execAccld_canonical {f : XT} (hs : Canonical s.mem) : CanonicalOut (execAccld f s) := by
  simp only [execAccld]
  refine issueWith_canonical hs fun _ => ?_
  split
  · exact hs
  · split
    · exact hs
    · split <;> exact hs

theorem execAccst_canonical {f : XT} (hs : Canonical s.mem) : CanonicalOut (execAccst f s) := by
  simp only [execAccst]
  refine issueWith_canonical hs fun _ => ?_
  split
  · exact hs
  · split <;> exact hs

theorem execAcccvt_canonical {f : XT} (hs : Canonical s.mem) : CanonicalOut (execAcccvt f s) := by
  simp only [execAcccvt]
  refine issueWith_canonical hs fun _ => ?_
  split
  · exact hs
  · split
    · exact hs
    · split <;> exact hs

theorem execAcczero_canonical {f : XT} (hs : Canonical s.mem) : CanonicalOut (execAcczero f s) := by
  simp only [execAcczero]
  refine issueWith_canonical hs fun _ => ?_
  split
  · exact hs
  · split <;> exact hs

end Sys2Proof.MemoryForm
end

section
/-! O54, the scheduler's events, preemption and swaps. -/

namespace Sys2Proof.MemoryForm

open Machine Laws

variable {s t u : State} {α : Type}

theorem execMemoryWritePerform_canonical {index : Nat} (hs : Canonical s.mem) :
    CanonicalOut (execMemoryWritePerform index s) := by
  unfold execMemoryWritePerform
  split
  · exact hs
  · exact performNth_canonical hs

theorem execL1EvictWriteback_canonical {core line : Nat} (hs : Canonical s.mem) :
    CanonicalOut (execL1EvictWriteback core line s) := by
  unfold execL1EvictWriteback
  exact .ite (evictLine_canonical hs) hs

theorem execL2Fill_canonical {line handle : Nat} {set : List Nat} {full : Bool} (hs : Canonical s.mem) :
    CanonicalOut (execL2Fill line handle set full s) := by
  unfold execL2Fill
  extract_lets die asked held
  split
  · exact hs
  · split
    · exact serveLine_canonical (allocLine_canonical hs)
    · split
      · exact serveLine_canonical hs
      · have made := makeWay_canonical ‹_› hs
        exact serveLine_canonical made

theorem logDiscarded_canonical {die unit index : Nat} (hs : Canonical s.mem) :
    Canonical (s.logDiscarded die unit index).mem :=
  logError_canonical hs

theorem reportKind_canonical {die node : Nat} (hs : Canonical s.mem) : Canonical (s.reportKind die node).mem := by
  unfold State.reportKind
  exact .ite (reportEntry_canonical hs) hs

theorem execHostDoorbell_canonical {die arm bytes : Nat} {value : DWord} (hs : Canonical s.mem) :
    CanonicalOut (execHostDoorbell die arm bytes value s) := by
  unfold execHostDoorbell
  split
  · exact hs
  · split
    · exact logDiscarded_canonical (reportEntry_canonical hs)
    · split
      · exact logDiscarded_canonical (reportKind_canonical hs)
      · exact fireArm_canonical hs

theorem writePayload_canonical {asroot : Nat} {va : DWord} {payload : List Byte} (hs : Canonical s.mem) :
    Canonical (s.writePayload asroot va payload).1.mem := by
  unfold State.writePayload
  split
  · exact hs
  · split
    · exact .of_eq ‹_› (walk_canonical hs)
    · have kept := Canonical.of_eq ‹_› (walk_canonical hs)
      exact writeHome_canonical (.ite kept (setEntryBits_canonical kept))

theorem fireMessage_canonical {port arm slot : Nat} {a : Arm} {header : List Word} {payload : List Byte}
    (hs : Canonical s.mem) : Canonical (s.fireMessage port arm slot a header payload).mem := by
  simp only [State.fireMessage]
  split
  · exact logDiscarded_canonical (.of_eq ‹_› (writePayload_canonical hs))
  · exact fireArm_canonical (writeNat_canonical (.of_eq ‹_› (writePayload_canonical hs)))

theorem reportArms_canonical {die : Nat} {tag : Word} (hs : Canonical s.mem) : Canonical (s.reportArms die tag).mem := by
  simp only [State.reportArms]
  split
  · exact reportKind_canonical (.foldState hs fun hs => logUncorrectable_canonical hs)
  · exact .foldState hs fun hs => logUncorrectable_canonical hs

theorem deliverMessage_canonical {port : Nat} {tag : Word} {header : List Word} {payload : List Byte}
    (taken : s.deliverMessage port tag header payload = some t) (hs : Canonical s.mem) : Canonical t.mem := by
  unfold State.deliverMessage at taken
  split at taken
  · cases taken
    exact logDiscarded_canonical (reportArms_canonical hs)
  · cases taken
  · cases taken
    exact fireMessage_canonical (reportArms_canonical hs)

theorem drainHeld_canonical {port : Nat} (hs : Canonical s.mem) : Canonical (s.drainHeld port).mem := by
  unfold State.drainHeld
  extract_lets held r
  have drained : Canonical r.1.mem := by
    refine foldl_canonical hs fun {acc m} h => ?_
    split
    · exact h
    · split
      · exact deliverMessage_canonical ‹_› h
      · exact h
  exact .ite hs drained

theorem execLinkMessage_canonical {port : Nat} {tag : Word} {header : List Word} {payload : List Byte}
    (hs : Canonical s.mem) : CanonicalOut (execLinkMessage port tag header payload s) := by
  simp only [execLinkMessage]
  split
  · exact hs
  · split
    · exact drainHeld_canonical hs
    · split
      · exact deliverMessage_canonical ‹_› (drainHeld_canonical hs)
      · exact drainHeld_canonical hs

theorem recordEnters_canonical {index : Nat} {r : Sent} (hs : Canonical s.mem) : Canonical (s.recordEnters index r).mem :=
  enterBin_canonical hs

theorem execBinRecordArrive_canonical {index : Nat} (hs : Canonical s.mem) :
    CanonicalOut (execBinRecordArrive index s) := by
  unfold execBinRecordArrive
  split
  · exact hs
  · split
    · exact hs
    · exact recordEnters_canonical hs

theorem execScanRequest_canonical {index : Nat} (hs : Canonical s.mem) : CanonicalOut (execScanRequest index s) := by
  unfold execScanRequest
  split
  · exact hs
  · split
    · exact recordEnters_canonical hs
    · exact hs

theorem execBinTimerExpiry_canonical {die node graph : Nat} (hs : Canonical s.mem) :
    CanonicalOut (execBinTimerExpiry die node graph s) := by
  simp only [execBinTimerExpiry]
  split
  · exact hs
  · split
    · exact failLaunch_canonical (reportEntry_canonical hs)
    · split
      · exact launchBin_canonical hs
      · exact hs

theorem execReorderTimerExpiry_canonical {die node key : Nat} (hs : Canonical s.mem) :
    CanonicalOut (execReorderTimerExpiry die node key s) := by
  unfold execReorderTimerExpiry
  split
  · exact hs
  · split
    · exact endGraph_canonical (reportEntry_canonical hs)
    · split
      · exact launchKey_canonical hs
      · exact hs

theorem engDescriptor_keeps {o : Op} {va : DWord} : EngKeeps (engDescriptor o va) := by
  simp only [engDescriptor]
  split
  · refine .bind (.throw _) fun a => ?_
    refine .bind engRead_keeps fun a => ?_
    split
    · exact .pure _
    · exact .throw _
  · refine .bind engRead_keeps fun a => ?_
    split
    · exact .pure _
    · exact .throw _

theorem engFirst_keeps {o : Op} {t : Tree} {swept : List Nat} {level n : Nat} {org : List Word} {place : List Nat} :
    EngKeeps (engFirst o t swept level n org place) := by
  induction level generalizing n org place with
  | zero => exact .pure _
  | succ level ih =>
    cases level with
    | zero =>
      refine .bind engActive_keeps fun cs => ?_
      split
      · exact .pure _
      · exact .bind engIndex_keeps fun _ => .pure _
    | succ level =>
      refine .bind engActive_keeps fun cs => .foldlM (fun found e => ?_) _ _
      split
      · exact .pure _
      · exact .bind ih fun _ => .pure _

theorem engNext_keeps {o : Op} {t : Tree} {swept : List Nat} {fuel i : Nat} {place : List Nat} :
    EngKeeps (engNext o t swept fuel i place) := by
  induction fuel generalizing i place with
  | zero => exact .pure _
  | succ fuel ih =>
    refine .bind engEntry_keeps fun e => ?_
    extract_lets k goes
    have keeps : ∀ r, EngKeeps (goes r) := by
      intro r
      cases r with
      | none => exact ih
      | some r => exact .pure _
    exact .ite (.bind engFirst_keeps keeps) (.bind (.pure _) keeps)

theorem engScan_keeps {o : Op} {c : Scan} : EngKeeps (engScan o c) := by
  unfold engScan
  split
  · exact .bind (.pure _) fun _ => .bind engNext_keeps fun _ => .pure _
  · exact .bind engDescriptor_keeps fun _ => .bind engNext_keeps fun _ => .pure _

theorem endScan_canonical {n : Nat} {c : Scan} {err : Bool} (hs : Canonical s.mem) :
    Canonical (s.endScan n c err).mem := by
  unfold State.endScan
  exact .ite (reportExit_canonical hs) (reportExit_canonical hs)

theorem failScan_canonical {n : Nat} {c : Scan} {t : Trap} (hs : Canonical s.mem) : Canonical (s.failScan n c t).mem := by
  simp only [State.failScan]
  refine endScan_canonical ?_
  split
  · exact hs
  · split
    · exact .of_eq ‹_› (superBlock_canonical hs)
    · exact writeFault_canonical (.of_eq ‹_› (superBlock_canonical hs))

theorem sweepLeaf_canonical {n : Nat} {c : Scan} {t : Machine.Tree} {r : Reached} (hs : Canonical s.mem) :
    Canonical (s.sweepLeaf n c t r).mem := by
  unfold State.sweepLeaf
  split
  · exact failScan_canonical hs
  · have raised := raiseFrame_canonical ‹_› hs
    exact launchTeam_canonical raised

theorem execScanLeaf_canonical {scan : Nat} (hs : Canonical s.mem) : CanonicalOut (execScanLeaf scan s) := by
  unfold execScanLeaf
  split
  · exact hs
  · split
    · exact failScan_canonical (.of_eq ‹_› (engScan_keeps _ hs))
    · exact endScan_canonical (.of_eq ‹_› (engScan_keeps _ hs))
    · exact sweepLeaf_canonical (.of_eq ‹_› (engScan_keeps _ hs))

theorem setPower_canonical {core : Nat} {p : Power} (hs : Canonical s.mem) : Canonical (s.setPower core p).mem :=
  logPower_canonical hs

theorem wakeCore_canonical {core : Nat} (hs : Canonical s.mem) : Canonical (s.wakeCore core).1.mem := by
  simp only [State.wakeCore]
  split
  · exact wakeDie_canonical hs
  · exact .ite_fst (setPower_canonical (wakeDie_canonical hs)) (wakeDie_canonical hs)
  · exact setPower_canonical (wakeDie_canonical hs)

theorem wakeCores_canonical {l : List Nat} (hs : Canonical s.mem) : Canonical (s.wakeCores l).1.mem := by
  induction l generalizing s with
  | nil => exact hs
  | cons c l ih => exact ih (wakeCore_canonical hs)

theorem placeTeam_canonical {index : Nat} {w : Waiting} {p : Spot} {offset : Nat} (hs : Canonical s.mem) :
    Canonical (s.placeTeam index w p offset).mem :=
  .foldState (.foldState hs fun hs => hs) fun hs => hs

theorem execTeamPlace_canonical {die offset : Nat} (hs : Canonical s.mem) :
    CanonicalOut (execTeamPlace die offset s) := by
  simp only [execTeamPlace]
  split
  · exact hs
  · split
    · exact hs
    · split
      · exact .of_eq ‹_› (wakeCores_canonical hs)
      · exact placeTeam_canonical (.of_eq ‹_› (wakeCores_canonical hs))

theorem ageHead_canonical {die : Nat} (hs : Canonical s.mem) : Canonical (s.ageHead die).mem := by
  unfold State.ageHead
  split
  · exact hs
  · exact .ite hs hs

theorem execPlacementHeadAged_canonical {die : Nat} (hs : Canonical s.mem) : CanonicalOut (execPlacementHeadAged die s) :=
  ageHead_canonical hs

theorem ageHeads_canonical (hs : Canonical s.mem) : Canonical s.ageHeads.mem := by
  unfold State.ageHeads
  exact .ite hs (.foldState hs fun hs => ageHead_canonical hs)

theorem execSplitUrgent_canonical {ctx split : Nat} (hs : Canonical s.mem) : CanonicalOut (execSplitUrgent ctx split s) :=
  hs

theorem execGraphCompletionRecord_canonical {graph : Nat} (hs : Canonical s.mem) :
    CanonicalOut (execGraphCompletionRecord graph s) := by
  unfold execGraphCompletionRecord
  split
  · exact hs
  · split
    · exact hs
    · split
      · exact .ite hs (writeHome_canonical hs)
      · exact drainHeld_canonical (drainHeld_canonical (.ite hs (writeHome_canonical hs)))

theorem decideSwap_canonical {core : Nat} (hs : Canonical s.mem) : Canonical (s.decideSwap core).mem :=
  stopMatrix_canonical hs

theorem execBankSwap_canonical {core : Nat} (hs : Canonical s.mem) : CanonicalOut (execBankSwap core s) := by
  unfold execBankSwap
  exact .ite (decideSwap_canonical hs) hs

theorem execBankSwapIdleTimeout_canonical {core : Nat} (hs : Canonical s.mem) :
    CanonicalOut (execBankSwapIdleTimeout core s) := by
  unfold execBankSwapIdleTimeout
  exact .ite (decideSwap_canonical hs) hs

theorem execBankSwapComplete_canonical {core : Nat} (hs : Canonical s.mem) :
    CanonicalOut (execBankSwapComplete core s) := by
  unfold execBankSwapComplete
  split
  · exact hs
  · split
    · exact hs
    · exact .foldState hs fun hs => hs

theorem stopOf_canonical {id : Nat} (hs : Canonical s.mem) : Canonical (s.stopOf id).mem := by
  unfold State.stopOf
  split
  · exact hs
  · exact .ite (stopMatrix_canonical hs) hs

theorem leave_canonical {id : Nat} (hs : Canonical s.mem) : Canonical (s.leave id).mem :=
  stopOf_canonical hs

theorem execSpinEviction_canonical {core : Nat} (hs : Canonical s.mem) : CanonicalOut (execSpinEviction core s) := by
  simp only [execSpinEviction]
  split
  · exact hs
  · exact leave_canonical hs

theorem execLodgeStart_canonical {ctx : Nat} (hs : Canonical s.mem) : CanonicalOut (execLodgeStart ctx s) := by
  unfold execLodgeStart
  split
  · exact hs
  · exact .ite (leave_canonical hs) hs

theorem execLodgeProducerTimeout_canonical {ctx : Nat} (hs : Canonical s.mem) :
    CanonicalOut (execLodgeProducerTimeout ctx s) := by
  simp only [execLodgeProducerTimeout]
  split
  · exact hs
  · split
    · split
      · exact hs
      · exact .foldState hs fun hs => abandon_canonical hs
    · split
      · exact hs
      · exact .foldState hs fun hs => abandon_canonical hs

theorem lodgeAt_canonical {die : Nat} {l : List Nat} (hs : Canonical s.mem) : Canonical (s.lodgeAt die l).1.mem := by
  induction l generalizing s with
  | nil => exact hs
  | cons n l ih =>
    unfold State.lodgeAt
    split
    · exact .of_eq ‹_› (wakeCore_canonical hs)
    · exact ih (.of_eq ‹_› (wakeCore_canonical hs))

theorem execLodgeTransferDone_canonical {ctx : Nat} (hs : Canonical s.mem) :
    CanonicalOut (execLodgeTransferDone ctx s) := by
  unfold execLodgeTransferDone
  split
  · exact hs
  · split
    · split
      · exact hs
      · split
        · have kept := Canonical.of_eq ‹_› (lodgeAt_canonical (writeBack_canonical hs))
          exact kept
    · exact hs

theorem execLodgingAdvertise_canonical {core : Nat} (hs : Canonical s.mem) :
    CanonicalOut (execLodgingAdvertise core s) := by
  unfold execLodgingAdvertise
  split
  · exact hs
  · exact .foldState hs fun hs => .ite hs hs

theorem restartSplit_canonical {id i : Nat} (hs : Canonical s.mem) : Canonical (s.restartSplit id i).mem := by
  simp only [State.restartSplit]
  split
  · split
    · exact .ite hs hs
    · exact hs
  · split
    · split
      · exact .ite (.ite hs hs) (restart_canonical (unpark_canonical (.ite hs hs)))
      · exact .ite hs (restart_canonical (unpark_canonical hs))
    · split
      · split
        · exact .ite hs hs
        · exact hs
      · split
        · exact restart_canonical (unpark_canonical (.ite hs hs))
        · exact restart_canonical (unpark_canonical hs)

theorem restartDue_canonical {id i : Nat} (hs : Canonical s.mem) : Canonical (s.restartDue id i).mem := by
  unfold State.restartDue
  split
  · exact hs
  · exact .ite (restart_canonical hs) hs

theorem restartMarked_canonical {id : Nat} (hs : Canonical s.mem) : Canonical (s.restartMarked id).mem := by
  unfold State.restartMarked
  split
  · exact hs
  · exact .ite hs (.foldState hs fun hs => restartSplit_canonical hs)

theorem loadInto_canonical {id core slot : Nat} {shadow : Bool} (hs : Canonical s.mem) :
    Canonical (s.loadInto id core slot shadow).mem := by
  unfold State.loadInto
  exact restartMarked_canonical (.ite (crossEdge_canonical (.ite hs (writeBack_canonical hs))) (.ite hs
      (writeBack_canonical hs)))

theorem execContextReturn_canonical {ctx slot : Nat} (hs : Canonical s.mem) :
    CanonicalOut (execContextReturn ctx slot s) := by
  simp only [execContextReturn]
  split
  · exact hs
  · split
    · split
      · exact hs
      · split
        · exact .of_eq ‹_› (wakeCore_canonical hs)
        · exact loadInto_canonical (.of_eq ‹_› (wakeCore_canonical hs))
    · split
      · exact hs
      · split
        · exact .of_eq ‹_› (wakeCore_canonical hs)
        · exact loadInto_canonical (.of_eq ‹_› (wakeCore_canonical hs))

theorem resumeRecord_canonical {id : Nat} (hs : Canonical s.mem) : Canonical (s.resumeRecord id).mem := by
  unfold State.resumeRecord
  split
  · exact hs
  · split <;> exact hs

theorem steal_canonical {id core slot : Nat} {c : Ctx} {offset : Nat} (hs : Canonical s.mem) :
    Canonical (s.steal id core slot c offset).mem :=
  loadInto_canonical hs

theorem execContinuationResume_canonical {ctx core slot : Nat} (hs : Canonical s.mem) :
    CanonicalOut (execContinuationResume ctx core slot s) := by
  simp only [execContinuationResume]
  split
  · exact hs
  · split
    · split
      · exact resumeRecord_canonical hs
      · split
        · exact .of_eq ‹_› (wakeCore_canonical (resumeRecord_canonical hs))
        · exact steal_canonical (.of_eq ‹_› (wakeCore_canonical (resumeRecord_canonical hs)))
    · exact resumeRecord_canonical hs

theorem execTeamEvict_canonical {team : Nat} (hs : Canonical s.mem) : CanonicalOut (execTeamEvict team s) := by
  unfold execTeamEvict
  split
  · exact hs
  · split
    · exact hs
    · split
      · exact hs
      · exact .foldState hs fun hs => hs

theorem cutCopy_canonical {n : Nat} {o : Op} (hs : Canonical s.mem) : Canonical (s.cutCopy n o).mem :=
  endEngine_canonical (engineRecord_canonical hs)

theorem execTeamEvictTimeout_canonical {team : Nat} (hs : Canonical s.mem) :
    CanonicalOut (execTeamEvictTimeout team s) := by
  unfold execTeamEvictTimeout
  split
  · exact hs
  · split
    · exact hs
    · split
      · exact hs
      · split
        · exact hs
        · refine Canonical.foldState hs fun hs => ?_
          split
          · exact cutCopy_canonical hs
          · exact hs

theorem execTeamReturn_canonical {team : Nat} (hs : Canonical s.mem) : CanonicalOut (execTeamReturn team s) := by
  simp only [execTeamReturn]
  split
  · exact hs
  · split
    · exact hs
    · split
      · exact hs
      · exact .foldState hs fun hs => hs

end Sys2Proof.MemoryForm
end

section
/-! O54, the package: host, links, power and bring-up. -/

namespace Sys2Proof.MemoryForm

open Machine Laws

variable {s t u : State} {α : Type}

theorem graphLost_canonical {g : Nat} (hs : Canonical s.mem) : Canonical (s.graphLost g).mem :=
  endGraph_canonical hs

theorem loseOp_canonical {n : Nat} {o : Op} {gone : Place → Bool} {blame : Bool} (hs : Canonical s.mem) :
    Canonical (s.loseOp n o gone blame).mem := by
  unfold State.loseOp
  split
  · split
    exact .ite hs (keepOp_canonical hs)
  · split
    exact .ite hs (keepOp_canonical hs)
  · split
    · split
      · exact hs
      · split
        · exact .ite (wakeOp_canonical (.ite hs hs)) hs
        · split
          · split
            · exact wakeOp_canonical (.ite (graphLost_canonical hs) (graphLost_canonical hs))
            · exact graphLost_canonical hs
          · exact .ite (wakeOp_canonical (.ite hs hs)) hs
  · split
    · exact hs
    · exact refuseOp_canonical hs
  · exact hs

theorem loseControl_canonical {n : Nat} {o : Op} {cut : Nat → Bool} (hs : Canonical s.mem) :
    Canonical (s.loseControl n o cut).mem := by
  unfold State.loseControl
  split
  · exact .ite (wakeOp_canonical (graphLost_canonical hs)) hs
  · exact .ite (wakeOp_canonical (graphLost_canonical hs)) hs
  · exact .ite (wakeOp_canonical (graphLost_canonical hs)) hs
  · split
    exact .ite hs (keepOp_canonical hs)
  · exact .ite hs hs
  · exact .ite hs (refuseOp_canonical hs)
  · exact hs

theorem loseCopy_canonical {n : Nat} {o : Op} {gone : Nat → Bool} (hs : Canonical s.mem) :
    Canonical (s.loseCopy n o gone).mem := by
  simp only [State.loseCopy]
  split
  · split
    · exact failEngine_canonical hs
    · exact hs
  · exact hs

theorem loseWrites_canonical {gone : Nat → Nat → Bool} (hs : Canonical s.mem) : Canonical (s.loseWrites gone).1.mem :=
  .foldState hs fun hs => hs

theorem writeHostRegister_canonical {offset bytes : Nat} {value : DWord} (hs : Canonical s.mem) :
    Canonical (s.writeHostRegister offset bytes value).mem := by
  unfold State.writeHostRegister
  exact .ite hs (.ite hs (.ite hs (.ite hs hs)))

theorem writeWindow_canonical {offset bytes : Nat} {value : DWord} (hs : Canonical s.mem) :
    Canonical (s.writeWindow offset bytes value).mem := by
  unfold State.writeWindow
  exact .ite hs (.ite hs (.ite hs hs))

theorem execHostRegisterWrite_canonical {bar offset bytes : Nat} {value : DWord} (hs : Canonical s.mem) :
    CanonicalOut (execHostRegisterWrite bar offset bytes value s) := by
  unfold execHostRegisterWrite
  split
  · exact hs
  · split
    · exact writeHostRegister_canonical hs
    · exact writeWindow_canonical hs
    · exact hs

theorem execInvqtailWrite_canonical {value : Word} (hs : Canonical s.mem) : CanonicalOut (execInvqtailWrite value s) := by
  unfold execInvqtailWrite
  exact .ite hs hs

theorem execInvqEntryDone_canonical (hs : Canonical s.mem) : CanonicalOut (execInvqEntryDone s) := by
  unfold execInvqEntryDone
  split
  · exact hs
  · split
    · exact logUncorrectable_canonical hs
    · exact hs

theorem execCancelWrite_canonical {value : Word} (hs : Canonical s.mem) : CanonicalOut (execCancelWrite value s) := by
  simp only [execCancelWrite]
  split
  · exact hs
  · exact .foldState hs fun hs => endGraph_canonical hs

theorem execAtomicopRequesterEnable_canonical {enable : Bool} (hs : Canonical s.mem) :
    CanonicalOut (execAtomicopRequesterEnable enable s) :=
  hs

theorem execHostBarAccess_canonical {address length : Nat} {write : Option (List Byte)} (hs : Canonical s.mem) :
    CanonicalOut (execHostBarAccess address length write s) := by
  simp only [execHostBarAccess]
  split
  · split
    · exact writeHome_canonical hs
    · exact hs
  · split
    · exact hs
    · split
      · split
        · exact trivial
        · exact writeHome_canonical hs
      · split
        · exact trivial
        · exact hs

theorem execHostLinkReset_canonical (hs : Canonical s.mem) : CanonicalOut (execHostLinkReset s) := by
  unfold execHostLinkReset
  exact loseWrites_canonical (.foldState (.foldState hs fun hs => endGraph_canonical hs) fun hs => loseCopy_canonical
      (loseOp_canonical hs))

theorem execHostLinkTrained_canonical (hs : Canonical s.mem) : CanonicalOut (execHostLinkTrained s) :=
  hs

theorem execSrbaseWrite_canonical {port : Nat} {value : DWord} (hs : Canonical s.mem) :
    CanonicalOut (execSrbaseWrite port value s) := by
  simp only [execSrbaseWrite]
  split
  · exact hs
  · split
    · exact hs
    · split <;> exact hs

theorem slotDone_canonical {port slot status : Nat} (hs : Canonical s.mem) :
    Canonical (s.slotDone port slot status).mem :=
  writeNat_canonical hs

theorem serveRing_canonical {port : Nat} (hs : Canonical s.mem) : Canonical (s.serveRing port).mem := by
  unfold State.serveRing
  split
  · exact hs
  · exact .ite hs (.ite (slotDone_canonical hs) hs)

theorem execSendRingSlot_canonical {port : Nat} (hs : Canonical s.mem) : CanonicalOut (execSendRingSlot port s) := by
  unfold execSendRingSlot
  exact .ite hs (serveRing_canonical hs)

theorem execSendRingPoll_canonical {port : Nat} (hs : Canonical s.mem) : CanonicalOut (execSendRingPoll port s) := by
  unfold execSendRingPoll
  exact .ite hs (serveRing_canonical hs)

theorem execLinkMessageAck_canonical {port : Nat} {accepted : Bool} (hs : Canonical s.mem) :
    CanonicalOut (execLinkMessageAck port accepted s) := by
  unfold execLinkMessageAck
  extract_lets p
  split
  · exact hs
  · split
    · exact hs
    · extract_lets done
      have acknowledged : Canonical done.mem := slotDone_canonical hs
      exact acknowledged

theorem logPort_canonical {port : Nat} (hs : Canonical s.mem) : Canonical (s.logPort port).mem :=
  logError_canonical hs

theorem execPortDown_canonical {port : Nat} (hs : Canonical s.mem) : CanonicalOut (execPortDown port s) := by
  simp only [execPortDown]
  split
  · exact hs
  · exact logPort_canonical (.foldState hs fun hs => slotDone_canonical hs)

theorem logTransport_canonical {port : Nat} (hs : Canonical s.mem) : Canonical (s.logTransport port).mem :=
  logError_canonical hs

theorem execPortRestartAttempt_canonical {port : Nat} (hs : Canonical s.mem) :
    CanonicalOut (execPortRestartAttempt port s) := by
  simp only [execPortRestartAttempt]
  split
  · exact hs
  · exact logTransport_canonical hs

theorem execPortUp_canonical {port : Nat} (hs : Canonical s.mem) : CanonicalOut (execPortUp port s) := by
  simp only [execPortUp]
  split
  · exact hs
  · exact drainHeld_canonical (logPort_canonical hs)

theorem execTransportRetransmit_canonical {port : Nat} (hs : Canonical s.mem) :
    CanonicalOut (execTransportRetransmit port s) := by
  unfold execTransportRetransmit
  exact .ite hs (logTransport_canonical hs)

theorem scalarOp_canonical {f : Form} {bytes : Nat} {op : DWord → DWord → DWord → DWord} (hs : Canonical s.mem) :
    CanonicalOut (scalarOp f bytes op s) :=
  issue_canonical hs fun _ => hs

theorem scalarTwo_canonical {f : XC} {types : Bool} {op : Ty → DWord → DWord → DWord} (hs : Canonical s.mem) :
    CanonicalOut (scalarTwo f types op s) :=
  scalarOp_canonical hs

theorem scalarOne_canonical {f : XC} {op : Ty → DWord → DWord} (hs : Canonical s.mem) : CanonicalOut (scalarOne f op s) :=
  scalarOp_canonical hs

theorem execSadd_canonical {f : XC} (hs : Canonical s.mem) : CanonicalOut (execSadd f s) :=
  scalarTwo_canonical hs

theorem execSsub_canonical {f : XC} (hs : Canonical s.mem) : CanonicalOut (execSsub f s) :=
  scalarTwo_canonical hs

theorem execSmul_canonical {f : XC} (hs : Canonical s.mem) : CanonicalOut (execSmul f s) :=
  scalarTwo_canonical hs

theorem execSmulh_canonical {f : XC} (hs : Canonical s.mem) : CanonicalOut (execSmulh f s) :=
  scalarTwo_canonical hs

theorem execSmad_canonical {f : XC} (hs : Canonical s.mem) : CanonicalOut (execSmad f s) :=
  scalarOp_canonical hs

theorem execSdiv_canonical {f : XC} (hs : Canonical s.mem) : CanonicalOut (execSdiv f s) :=
  scalarTwo_canonical hs

theorem execSrem_canonical {f : XC} (hs : Canonical s.mem) : CanonicalOut (execSrem f s) :=
  scalarTwo_canonical hs

theorem execSmin_canonical {f : XC} (hs : Canonical s.mem) : CanonicalOut (execSmin f s) :=
  scalarTwo_canonical hs

theorem execSmax_canonical {f : XC} (hs : Canonical s.mem) : CanonicalOut (execSmax f s) :=
  scalarTwo_canonical hs

theorem execSand_canonical {f : XC} (hs : Canonical s.mem) : CanonicalOut (execSand f s) :=
  scalarTwo_canonical hs

theorem execSor_canonical {f : XC} (hs : Canonical s.mem) : CanonicalOut (execSor f s) :=
  scalarTwo_canonical hs

theorem execSxor_canonical {f : XC} (hs : Canonical s.mem) : CanonicalOut (execSxor f s) :=
  scalarTwo_canonical hs

theorem execSshl_canonical {f : XC} (hs : Canonical s.mem) : CanonicalOut (execSshl f s) :=
  scalarTwo_canonical hs

theorem execSshr_canonical {f : XC} (hs : Canonical s.mem) : CanonicalOut (execSshr f s) :=
  scalarTwo_canonical hs

theorem execSsra_canonical {f : XC} (hs : Canonical s.mem) : CanonicalOut (execSsra f s) :=
  scalarTwo_canonical hs

theorem execSbfx_canonical {f : XC} (hs : Canonical s.mem) : CanonicalOut (execSbfx f s) :=
  scalarOp_canonical hs

theorem execSbfi_canonical {f : XC} (hs : Canonical s.mem) : CanonicalOut (execSbfi f s) :=
  issue_canonical hs fun _ => hs

theorem execSpopc_canonical {f : XC} (hs : Canonical s.mem) : CanonicalOut (execSpopc f s) :=
  scalarOne_canonical hs

theorem execSclz_canonical {f : XC} (hs : Canonical s.mem) : CanonicalOut (execSclz f s) :=
  scalarOne_canonical hs

theorem execSctz_canonical {f : XC} (hs : Canonical s.mem) : CanonicalOut (execSctz f s) :=
  scalarOne_canonical hs

theorem execSmov_canonical {f : XC} (hs : Canonical s.mem) : CanonicalOut (execSmov f s) :=
  scalarOne_canonical hs

theorem execSli_canonical {f : XC} (hs : Canonical s.mem) : CanonicalOut (execSli f s) :=
  scalarOp_canonical hs

theorem execScmp_canonical {f : XC} (hs : Canonical s.mem) : CanonicalOut (execScmp f s) :=
  scalarOp_canonical hs

theorem execSsel_canonical {f : XC} (hs : Canonical s.mem) : CanonicalOut (execSsel f s) :=
  issue_canonical hs fun _ => hs

theorem execKop_canonical {f : XC} (hs : Canonical s.mem) : CanonicalOut (execKop f s) :=
  issue_canonical hs fun _ => hs

theorem scalarBase_canonical {f : Base} {op : Ty → DWord → DWord → DWord} (hs : Canonical s.mem) :
    CanonicalOut (scalarBase f op s) :=
  scalarOp_canonical hs

theorem execSaddB32Base_canonical {f : Base} (hs : Canonical s.mem) : CanonicalOut (execSaddB32Base f s) :=
  scalarBase_canonical hs

theorem execSsubB32Base_canonical {f : Base} (hs : Canonical s.mem) : CanonicalOut (execSsubB32Base f s) :=
  scalarBase_canonical hs

theorem execSmulB32Base_canonical {f : Base} (hs : Canonical s.mem) : CanonicalOut (execSmulB32Base f s) :=
  scalarBase_canonical hs

theorem execSandB32Base_canonical {f : Base} (hs : Canonical s.mem) : CanonicalOut (execSandB32Base f s) :=
  scalarBase_canonical hs

theorem execSorB32Base_canonical {f : Base} (hs : Canonical s.mem) : CanonicalOut (execSorB32Base f s) :=
  scalarBase_canonical hs

theorem execSxorB32Base_canonical {f : Base} (hs : Canonical s.mem) : CanonicalOut (execSxorB32Base f s) :=
  scalarBase_canonical hs

theorem execSshlB32Base_canonical {f : Base} (hs : Canonical s.mem) : CanonicalOut (execSshlB32Base f s) :=
  scalarBase_canonical hs

theorem execSshrB32Base_canonical {f : Base} (hs : Canonical s.mem) : CanonicalOut (execSshrB32Base f s) :=
  scalarBase_canonical hs

theorem execSmovB32Base_canonical {f : Base} (hs : Canonical s.mem) : CanonicalOut (execSmovB32Base f s) :=
  scalarOp_canonical hs

theorem logHinge_canonical {die bundle boundary direction : Nat} (hs : Canonical s.mem) :
    Canonical (s.logHinge die bundle boundary direction).mem :=
  logError_canonical hs

theorem sendFlits_canonical (hs : Canonical s.mem) : Canonical s.sendFlits.mem :=
  .foldState hs fun hs => hs

theorem become_canonical {r : Host.Outcome State Fault Refusal} (hs : Canonical s.mem) (hr : CanonicalOut r) :
    Canonical (s.become r).mem := by
  unfold State.become
  split
  · exact hr
  · exact hs

theorem performOp_canonical {n : Nat} {o : Op} {link : Nat × Nat} {x : DWord} (hs : Canonical s.mem) :
    Canonical (s.performOp n o link x).mem := by
  have pair {die k : Nat} : CanonicalOut (if x.getLsbD 0 then execPairWalkerEnd die k s else execPairWalkerEmit die k s)
      := by
    split
    · exact execPairWalkerEnd_canonical hs
    · exact execPairWalkerEmit_canonical hs
  unfold State.performOp
  extract_lets here
  split
  · exact readOp_canonical hs
  · exact keepOp_canonical (gatherLanes_canonical hs)
  · split
    · exact atomicStep_canonical hs
    · exact hs
  · exact fillLanes_canonical hs
  · exact become_canonical hs (execClusterWindowArrive_canonical hs)
  · exact become_canonical hs (execProducerFill_canonical hs)
  · exact become_canonical hs (execAtomicPerform_canonical hs)
  · exact become_canonical hs (execAllocatorInsertDone_canonical hs)
  · exact become_canonical hs pair
  · exact become_canonical hs (execHaloPost_canonical hs)
  · exact become_canonical hs (execVocabBlock_canonical hs)
  · exact become_canonical hs (execCopyLanding_canonical hs)
  · exact become_canonical hs (execSpawnFrameRaise_canonical hs)
  · exact become_canonical hs (execFdonePerform_canonical hs)
  · exact become_canonical hs (execPqPushPerform_canonical hs)
  · exact become_canonical hs (execTbarrivePerform_canonical hs)
  · exact become_canonical hs (execHandleChangeApplied_canonical hs)
  · exact become_canonical hs (execTranslationInvalidateDone_canonical hs)
  · exact hs
  · exact hs
  · exact hs

theorem performNotice_canonical {p : Packet} (hs : Canonical s.mem) : Canonical (s.performNotice p).mem := by
  unfold State.performNotice
  split
  · exact performNth_canonical hs
  · exact recordEnters_canonical hs
  · exact passMessage_canonical hs
  · split
    · exact childExit_canonical hs
    · exact freeWatch_canonical hs
    · exact hs

theorem performPacket_canonical {p : Packet} {x : DWord} (hs : Canonical s.mem) :
    Canonical (s.performPacket p x).mem := by
  unfold State.performPacket
  split
  · exact hs
  · split
    · exact performOp_canonical hs
    · exact performNotice_canonical hs

theorem answer_canonical {source target sequence : Nat} {ack : Bool} (hs : Canonical s.mem) :
    Canonical (s.answer source target sequence ack).mem := by
  unfold State.answer
  split
  · exact .ite hs hs
  · exact hs

theorem execHingePacketReceive_canonical {source target sequence : Nat} {response : DWord} (hs : Canonical s.mem) :
    CanonicalOut (execHingePacketReceive source target sequence response s) := by
  unfold execHingePacketReceive
  split
  · exact answer_canonical hs
  · split
    · exact hs
    · exact .ite (answer_canonical (performPacket_canonical hs)) (performPacket_canonical hs)

theorem loseNotices_canonical (hs : Canonical s.mem) : Canonical s.loseNotices.mem :=
  .foldState hs fun hs => graphLost_canonical hs

theorem losePaths_canonical (hs : Canonical s.mem) : Canonical s.losePaths.mem := by
  simp only [State.losePaths]
  exact loseNotices_canonical (.foldState (.foldState (loseWrites_canonical (.foldState hs fun hs =>
      loseControl_canonical (loseCopy_canonical (loseOp_canonical hs)))) fun hs => graphLost_canonical hs) fun hs =>
      .ite (loseBarrier_canonical hs) hs)

theorem failBoundary_canonical {b : Nat} (hs : Canonical s.mem) : Canonical (s.failBoundary b).mem :=
  logHinge_canonical (logHinge_canonical (losePaths_canonical hs))

theorem execHingeBoundaryFail_canonical {boundary : Nat} (hs : Canonical s.mem) :
    CanonicalOut (execHingeBoundaryFail boundary s) := by
  simp only [execHingeBoundaryFail]
  split
  · exact hs
  · exact failBoundary_canonical hs

theorem execHingeLaneFail_canonical {boundary direction bundle : Nat} (hs : Canonical s.mem) :
    CanonicalOut (execHingeLaneFail boundary direction bundle s) := by
  simp only [execHingeLaneFail]
  split
  · exact hs
  · exact logHinge_canonical hs

theorem execHingeRecalibrate_canonical {boundary bundle : Nat} (hs : Canonical s.mem) :
    CanonicalOut (execHingeRecalibrate boundary bundle s) := by
  simp only [execHingeRecalibrate]
  split <;> split <;> exact hs

theorem execFlitReplay_canonical {boundary direction flit : Nat} (hs : Canonical s.mem) :
    CanonicalOut (execFlitReplay boundary direction flit s) := by
  simp only [execFlitReplay]
  split
  · exact hs
  · split
    · exact failBoundary_canonical hs
    · exact hs

theorem execPatrolScrub_canonical {sector symbols : Nat} (hs : Canonical s.mem) :
    CanonicalOut (execPatrolScrub sector symbols s) := by
  simp only [execPatrolScrub]
  split
  · exact hs
  · split
    · exact logError_canonical hs
    · exact logUncorrectable_canonical hs
    · exact hs

theorem execChannelRetire_canonical {stack channel : Nat} (hs : Canonical s.mem) :
    CanonicalOut (execChannelRetire stack channel s) := by
  simp only [execChannelRetire]
  split
  · exact hs
  · split
    · exact logError_canonical hs
    · exact hs

theorem execChannelCopyDone_canonical {stack channel : Nat} (hs : Canonical s.mem) :
    CanonicalOut (execChannelCopyDone stack channel s) := by
  simp only [execChannelCopyDone]
  split
  · exact hs
  · exact logError_canonical hs

theorem execCoreClockGate_canonical {core : Nat} (hs : Canonical s.mem) : CanonicalOut (execCoreClockGate core s) := by
  simp only [execCoreClockGate]
  split
  · exact hs
  · exact setPower_canonical hs

theorem execCorePowerGate_canonical {core : Nat} (hs : Canonical s.mem) : CanonicalOut (execCorePowerGate core s) := by
  simp only [execCorePowerGate]
  split
  · exact hs
  · exact setPower_canonical hs

theorem execGatingEnd_canonical {core : Nat} (hs : Canonical s.mem) : CanonicalOut (execGatingEnd core s) := by
  unfold execGatingEnd
  split
  · split
    · exact hs
    · exact setPower_canonical (writeBackLines_canonical hs)
  · exact hs

theorem execDieEnterD1_canonical {die : Nat} (hs : Canonical s.mem) : CanonicalOut (execDieEnterD1 die s) := by
  simp only [execDieEnterD1]
  split
  · exact hs
  · exact logPower_canonical hs

theorem execCoreWake_canonical {core : Nat} (hs : Canonical s.mem) : CanonicalOut (execCoreWake core s) := by
  unfold execCoreWake
  exact .ite (wakeCore_canonical hs) hs

theorem execClockStepChange_canonical {mhz : Nat} (hs : Canonical s.mem) : CanonicalOut (execClockStepChange mhz s) := by
  unfold execClockStepChange
  exact .ite hs hs

theorem reset_canonical : Canonical State.reset.mem :=
  rfl

theorem execPackageReset_canonical {variant : Variant} {cxl : Bool} {ilshare : BitVec 7} (hs : Canonical s.mem) :
    CanonicalOut (execPackageReset variant cxl ilshare s) := by
  unfold execPackageReset
  split
  · exact hs
  · exact reset_canonical

theorem execFirmwareUpdate_canonical {version : Nat} {digest : BitVec 256} {signed : Bool} (hs : Canonical s.mem) :
    CanonicalOut (execFirmwareUpdate version digest signed s) :=
  hs

theorem execFirmwareBankSwitch_canonical {unit : Nat} (hs : Canonical s.mem) :
    CanonicalOut (execFirmwareBankSwitch unit s) := by
  simp only [execFirmwareBankSwitch]
  split
  · exact hs
  · split <;> exact hs

theorem execAttestation_canonical (hs : Canonical s.mem) : CanonicalOut (execAttestation s) :=
  hs

theorem execManagementTelemetry_canonical (hs : Canonical s.mem) : CanonicalOut (execManagementTelemetry s) :=
  hs

theorem execCoreRetire_canonical {core spare : Nat} (hs : Canonical s.mem) :
    CanonicalOut (execCoreRetire core spare s) := by
  simp only [execCoreRetire]
  split
  · exact hs
  · split
    · exact hs
    · split
      · exact hs
      · exact logError_canonical (writeBackLines_canonical hs)

theorem loseCtx_canonical {id : Nat} (hs : Canonical s.mem) : Canonical (s.loseCtx id).mem := by
  unfold State.loseCtx
  split
  · exact hs
  · exact dropCtx_canonical (.foldState hs fun hs => report_canonical hs)

theorem execCoreFailure_canonical {core : Nat} (hs : Canonical s.mem) : CanonicalOut (execCoreFailure core s) := by
  unfold execCoreFailure
  split
  · exact hs
  · exact .foldState (.foldState (.foldState hs fun hs => failEngine_canonical hs) fun hs => endGraph_canonical hs) fun
      hs => loseCtx_canonical hs

end Sys2Proof.MemoryForm
end

section
/-! O54, an instruction, a turn and a step. -/

namespace Sys2Proof.MemoryForm

open Machine Laws

variable {s t u : State} {α : Type}

theorem exec_canonical {i : Instr} (hs : Canonical s.mem) : CanonicalOut (exec i s) := by
  unfold exec
  split
  · exact execAddB32Base_canonical hs
  · exact execSubB32Base_canonical hs
  · exact execMulB32Base_canonical hs
  · exact execAndB32Base_canonical hs
  · exact execOrB32Base_canonical hs
  · exact execXorB32Base_canonical hs
  · exact execShlB32Base_canonical hs
  · exact execShrB32Base_canonical hs
  · exact execSraB32Base_canonical hs
  · exact execMinS32Base_canonical hs
  · exact execMaxS32Base_canonical hs
  · exact execFaddF32Base_canonical hs
  · exact execFsubF32Base_canonical hs
  · exact execFmulF32Base_canonical hs
  · exact execFmaF32Base_canonical hs
  · exact execFminF32Base_canonical hs
  · exact execFmaxF32Base_canonical hs
  · exact execMovB32Base_canonical hs
  · exact execAddB32VsBase_canonical hs
  · exact execFmulF32VsBase_canonical hs
  · exact execFmaF32VsBase_canonical hs
  · exact execSaddB32Base_canonical hs
  · exact execSsubB32Base_canonical hs
  · exact execSmulB32Base_canonical hs
  · exact execSandB32Base_canonical hs
  · exact execSorB32Base_canonical hs
  · exact execSxorB32Base_canonical hs
  · exact execSshlB32Base_canonical hs
  · exact execSshrB32Base_canonical hs
  · exact execSmovB32Base_canonical hs
  · exact execLdB32XBase_canonical hs
  · exact execStB32XBase_canonical hs
  · exact execLdB32ScBase_canonical hs
  · exact execStB32ScBase_canonical hs
  · exact execSadd_canonical hs
  · exact execSsub_canonical hs
  · exact execSmul_canonical hs
  · exact execSmulh_canonical hs
  · exact execSmad_canonical hs
  · exact execSdiv_canonical hs
  · exact execSrem_canonical hs
  · exact execSmin_canonical hs
  · exact execSmax_canonical hs
  · exact execSand_canonical hs
  · exact execSor_canonical hs
  · exact execSxor_canonical hs
  · exact execSshl_canonical hs
  · exact execSshr_canonical hs
  · exact execSsra_canonical hs
  · exact execSbfx_canonical hs
  · exact execSbfi_canonical hs
  · exact execSpopc_canonical hs
  · exact execSclz_canonical hs
  · exact execSctz_canonical hs
  · exact execScmp_canonical hs
  · exact execSsel_canonical hs
  · exact execSmov_canonical hs
  · exact execSli_canonical hs
  · exact execKop_canonical hs
  · exact execBra_canonical hs
  · exact execBrk_canonical hs
  · exact execBrv_canonical hs
  · exact execJmp_canonical hs
  · exact execCall_canonical hs
  · exact execRet_canonical hs
  · exact execLoop_canonical hs
  · exact execJoin_canonical hs
  · exact execExitLanes_canonical hs
  · exact execNop_canonical hs
  · exact execYieldSplit_canonical hs
  · exact execRdsr_canonical hs
  · exact execWrsr_canonical hs
  · exact execRegion_canonical hs
  · exact execFnew_canonical hs
  · exact execFnewP_canonical hs
  · exact execFdone_canonical hs
  · exact execFdonePerform_canonical hs
  · exact execFawait_canonical hs
  · exact execFpoll_canonical hs
  · exact execSpawn_canonical hs
  · exact execSpawnFrameRaise_canonical hs
  · exact execEmit_canonical hs
  · exact execFire_canonical hs
  · exact execReord_canonical hs
  · exact execPqpush_canonical hs
  · exact execPqPushPerform_canonical hs
  · exact execPqpop_canonical hs
  · exact execPqPopPerform_canonical hs
  · exact execTrap_canonical hs
  · exact execRfePc_canonical hs
  · exact execRfeNext_canonical hs
  · exact execRfeRegion_canonical hs
  · exact execXbind_canonical hs
  · exact execAdd_canonical hs
  · exact execSub_canonical hs
  · exact execMul_canonical hs
  · exact execMulh_canonical hs
  · exact execMad_canonical hs
  · exact execMin_canonical hs
  · exact execMax_canonical hs
  · exact execAbs_canonical hs
  · exact execAnd_canonical hs
  · exact execOr_canonical hs
  · exact execXor_canonical hs
  · exact execShl_canonical hs
  · exact execShr_canonical hs
  · exact execSra_canonical hs
  · exact execBfx_canonical hs
  · exact execBfi_canonical hs
  · exact execPopc_canonical hs
  · exact execClz_canonical hs
  · exact execBrev_canonical hs
  · exact execCmp_canonical hs
  · exact execSel_canonical hs
  · exact execMov_canonical hs
  · exact execFadd_canonical hs
  · exact execFsub_canonical hs
  · exact execFmul_canonical hs
  · exact execFma_canonical hs
  · exact execFmin_canonical hs
  · exact execFmax_canonical hs
  · exact execFcmp_canonical hs
  · exact execFclass_canonical hs
  · exact execFdiv_canonical hs
  · exact execFsqrt_canonical hs
  · exact execFrcp_canonical hs
  · exact execFrsq_canonical hs
  · exact execFex2_canonical hs
  · exact execFlg2_canonical hs
  · exact execFsin_canonical hs
  · exact execFcos_canonical hs
  · exact execFtanh_canonical hs
  · exact execFrint_canonical hs
  · exact execFscal_canonical hs
  · exact execCvt_canonical hs
  · exact execPack_canonical hs
  · exact execUnpack_canonical hs
  · exact execShflIdx_canonical hs
  · exact execShflUp_canonical hs
  · exact execShflDown_canonical hs
  · exact execShflXor_canonical hs
  · exact execVoteBallot_canonical hs
  · exact execVoteAny_canonical hs
  · exact execVoteAll_canonical hs
  · exact execVoteUni_canonical hs
  · exact execMatchLanes_canonical hs
  · exact execRedux_canonical hs
  · exact execScan_canonical hs
  · exact execRngc_canonical hs
  · exact execVtopk_canonical hs
  · exact execVsoftmax_canonical hs
  · exact execVsample_canonical hs
  · exact execVocabBlock_canonical hs
  · exact execLd_canonical hs
  · exact execSt_canonical hs
  · exact execSld_canonical hs
  · exact execSst_canonical hs
  · exact execAadd_canonical hs
  · exact execAmin_canonical hs
  · exact execAmax_canonical hs
  · exact execAand_canonical hs
  · exact execAor_canonical hs
  · exact execAxor_canonical hs
  · exact execAswap_canonical hs
  · exact execAcas_canonical hs
  · exact execAinc_canonical hs
  · exact execAfadd_canonical hs
  · exact execAtomicPerform_canonical hs
  · exact execRed_canonical hs
  · exact execSwait_canonical hs
  · exact execSwaitPoll_canonical hs
  · exact execPf_canonical hs
  · exact execRhnew_canonical hs
  · exact execRhset_canonical hs
  · exact execRhdrop_canonical hs
  · exact execCbinvNode_canonical hs
  · exact execCbinvArm_canonical hs
  · exact execCbinvTree_canonical hs
  · exact execCbinvAll_canonical hs
  · exact execCbinvTr_canonical hs
  · exact execTranslationInvalidateDone_canonical hs
  · exact execCpaGs_canonical hs
  · exact execCpaSg_canonical hs
  · exact execCpaGg_canonical hs
  · exact execCpaSs_canonical hs
  · exact execCpaSw_canonical hs
  · exact execCpaWs_canonical hs
  · exact execCpasGs_canonical hs
  · exact execCpasSg_canonical hs
  · exact execCpasGt_canonical hs
  · exact execCpasSt_canonical hs
  · exact execCpasAg_canonical hs
  · exact execCopyLanding_canonical hs
  · exact execEngineFault_canonical hs
  · exact execEngineSupervisorEntry_canonical hs
  · exact execBar_canonical hs
  · exact execBoundaryBarrierMessage_canonical hs
  · exact execTbinit_canonical hs
  · exact execTbarrive_canonical hs
  · exact execTbarrivePerform_canonical hs
  · exact execTbwait_canonical hs
  · exact execTbpoll_canonical hs
  · exact execGath_canonical hs
  · exact execGathRow_canonical hs
  · exact execScatadd_canonical hs
  · exact execTset_canonical hs
  · exact execTget_canonical hs
  · exact execTcb_canonical hs
  · exact execTld_canonical hs
  · exact execTst_canonical hs
  · exact execTzero_canonical hs
  · exact execGang_canonical hs
  · exact execMma_canonical hs
  · exact execMmaBs_canonical hs
  · exact execMmaVs_canonical hs
  · exact execLatchFire_canonical hs
  · exact execMmas_canonical hs
  · exact execMmasStage_canonical hs
  · exact execMatrixOpComplete_canonical hs
  · exact execMbatch_canonical hs
  · exact execMwait_canonical hs
  · exact execAccld_canonical hs
  · exact execAccst_canonical hs
  · exact execAcccvt_canonical hs
  · exact execAcczero_canonical hs
  · exact execVtset_canonical hs
  · exact execVlook_canonical hs
  · exact execVstencil_canonical hs
  · exact execVsampTri_canonical hs
  · exact execVsampNear_canonical hs
  · exact execVmarch_canonical hs
  · exact execVins_canonical hs
  · exact execAllocatorInsertDone_canonical hs
  · exact execVactSet_canonical hs
  · exact execVactClr_canonical hs
  · exact execVactTrim_canonical hs
  · exact execDtrav_canonical hs
  · exact execPairWalkerEmit_canonical hs
  · exact execPairWalkerEnd_canonical hs
  · exact execHalo_canonical hs
  · exact execHaloPostOnly_canonical hs
  · exact execHaloPost_canonical hs
  · exact execStepb_canonical hs
  · exact execProducerFill_canonical hs
  · exact execProducerWatchdog_canonical hs
  · exact execClusterWindowArrive_canonical hs
  · exact execMemoryWritePerform_canonical hs
  · exact execL1EvictWriteback_canonical hs
  · exact execL2Fill_canonical hs
  · exact execTaskReport_canonical hs
  · exact execContinuationResume_canonical hs
  · exact execCancelled_canonical hs
  · exact execGraphCompletionRecord_canonical hs
  · exact execHostDoorbell_canonical hs
  · exact execLinkMessage_canonical hs
  · exact execBinRecordArrive_canonical hs
  · exact execBinTimerExpiry_canonical hs
  · exact execReorderTimerExpiry_canonical hs
  · exact execScanRequest_canonical hs
  · exact execScanLeaf_canonical hs
  · exact execTeamPlace_canonical hs
  · exact execPlacementHeadAged_canonical hs
  · exact execSplitUrgent_canonical hs
  · exact execBankSwap_canonical hs
  · exact execBankSwapIdleTimeout_canonical hs
  · exact execBankSwapComplete_canonical hs
  · exact execSpinEviction_canonical hs
  · exact execLodgeStart_canonical hs
  · exact execLodgeProducerTimeout_canonical hs
  · exact execLodgeTransferDone_canonical hs
  · exact execLodgingAdvertise_canonical hs
  · exact execContextReturn_canonical hs
  · exact execTeamEvict_canonical hs
  · exact execTeamEvictTimeout_canonical hs
  · exact execTeamReturn_canonical hs
  · exact execHostBarAccess_canonical hs
  · exact execInvqtailWrite_canonical hs
  · exact execInvqEntryDone_canonical hs
  · exact execCancelWrite_canonical hs
  · exact execSrbaseWrite_canonical hs
  · exact execHostRegisterWrite_canonical hs
  · exact execHostLinkReset_canonical hs
  · exact execHostLinkTrained_canonical hs
  · exact execSendRingSlot_canonical hs
  · exact execSendRingPoll_canonical hs
  · exact execLinkMessageAck_canonical hs
  · exact execPortDown_canonical hs
  · exact execPortRestartAttempt_canonical hs
  · exact execPortUp_canonical hs
  · exact execHingePacketReceive_canonical hs
  · exact execHingeBoundaryFail_canonical hs
  · exact execHingeLaneFail_canonical hs
  · exact execHingeRecalibrate_canonical hs
  · exact execPatrolScrub_canonical hs
  · exact execChannelRetire_canonical hs
  · exact execChannelCopyDone_canonical hs
  · exact execCoreClockGate_canonical hs
  · exact execCorePowerGate_canonical hs
  · exact execGatingEnd_canonical hs
  · exact execDieEnterD1_canonical hs
  · exact execCoreWake_canonical hs
  · exact execClockStepChange_canonical hs
  · exact execPackageReset_canonical hs
  · exact execFirmwareUpdate_canonical hs
  · exact execFirmwareBankSwitch_canonical hs
  · exact execAttestation_canonical hs
  · exact execManagementTelemetry_canonical hs
  · exact execCoreRetire_canonical hs
  · exact execCoreFailure_canonical hs
  · exact execIllegalEncoding_canonical hs
  · exact execFetchTrap_canonical hs
  · exact execHandleChangeApplied_canonical hs
  · exact execFlitReplay_canonical hs
  · exact execTransportRetransmit_canonical hs
  · exact execAtomicopRequesterEnable_canonical hs

theorem runSplit_canonical {id i : Nat} (hs : Canonical s.mem) : CanonicalOut (runSplit s id i) := by
  simp only [runSplit]
  split
  · exact execEngineSupervisorEntry_canonical hs
  · split
    · exact takeTrap_canonical hs
    · split
      · exact execCancelled_canonical (.of_eq ‹_› (fetched_canonical (restartDue_canonical (wake_canonical hs))))
      · exact execFetchTrap_canonical (restartDue_canonical (wake_canonical hs))
      · have kept := Canonical.of_eq ‹_› (fetched_canonical (restartDue_canonical (wake_canonical hs)))
        exact execIllegalEncoding_canonical kept
      · have kept := Canonical.of_eq ‹_› (fetched_canonical (restartDue_canonical (wake_canonical hs)))
        exact exec_canonical kept

/-- What an instruction is tested on goes on with memory in its canonical form. -/
theorem CanonicalOut.of_next {r : Host.Outcome State Fault Refusal} (hr : CanonicalOut r) (e : r = .next t) :
    Canonical t.mem := by
  rwa [e] at hr

theorem retest_canonical {id i : Nat} (hs : Canonical s.mem) : Canonical (s.retest id i).mem := by
  unfold State.retest
  extract_lets ready
  have readies {u : State} (hu : Canonical u.mem) : Canonical (ready u).mem := hu
  split
  · have fetches := Canonical.of_eq ‹_› (fetched_canonical hs)
    split
    · rename_i ran
      have tested := CanonicalOut.of_next (exec_canonical ?_) ran
      · exact .ite tested (readies hs)
      · exact fetches
    · exact readies hs
  · exact readies hs

theorem settleSplit_canonical {id i : Nat} (hs : Canonical s.mem) : Canonical (s.settleSplit id i).mem := by
  unfold State.settleSplit
  split
  · exact hs
  · split
    · exact .ite hs hs
    · exact retest_canonical hs
    · exact .ite (batchReturn_canonical hs) hs
    · exact hs

theorem settleWaits_canonical (hs : Canonical s.mem) : Canonical s.settleWaits.mem :=
  .foldState hs fun hs => settleSplit_canonical hs

theorem drainPorts_canonical (hs : Canonical s.mem) : Canonical s.drainPorts.mem :=
  .foldState hs fun hs => drainHeld_canonical hs

theorem settleDies_canonical (hs : Canonical s.mem) : Canonical s.settleDies.mem :=
  .foldState hs fun hs => wakeDie_canonical hs

theorem settleRequests_canonical (hs : Canonical s.mem) : Canonical s.settleRequests.mem := by
  unfold State.settleRequests
  exact .foldState hs fun hs => .ite hs (drainWrites_canonical hs)

theorem settleConts_canonical (hs : Canonical s.mem) : Canonical s.settleConts.mem :=
  hs

theorem afterStep_canonical (hs : Canonical s.mem) : Canonical s.afterStep.mem := by
  unfold State.afterStep
  extract_lets sent
  have sends : Canonical sent.mem := sendFlits_canonical (loseNotices_canonical (drainPorts_canonical
    (ageHeads_canonical (launchFull_canonical (launchOverdueKeys_canonical (launchOverdue_canonical hs))))))
  clear_value sent
  exact settleRequests_canonical (settleDies_canonical (settleConts_canonical (settleWaits_canonical sends)))

theorem turn_canonical (hs : Canonical s.mem) : CanonicalOut (turn s) := by
  simp only [turn]
  split
  · exact tick_canonical hs
  · split
    · exact tick_canonical hs
    · exact exec_canonical hs
    · split
      · exact hs
      · exact runSplit_canonical (passOver_canonical hs)

theorem step_canonical (hs : Canonical s.mem) : CanonicalOut (step s) := by
  have turned := turn_canonical hs
  unfold step
  split
  · exact afterStep_canonical (turned.of_next ‹_›)
  · exact turned

theorem memoryStaysCanonical : Obligations.MemoryStaysCanonical := by
  intro s t hs stepped
  exact (step_canonical hs).of_next stepped

end Sys2Proof.MemoryForm
end

section
/-! O58, the frame of the stores: a state in which it fails. -/

namespace Sys2Proof.StoreFrame

open Machine Laws Claims

/-! ## Two contexts under one number

The statement speaks of the contexts by their entries in one place (who waits for a phase) and by look-up in another (whose copies a
released split drops), and asks nothing of the state. Where two entries stand under one number, the release of the second drops the
copies of the first one's core. -/

/-- The split of one lane that stores. -/
def loneSplit : Split :=
  { mask := 1, pc := 0x40000, parent := 0, stack := [], wait := .ready, region := 0x40000, regionNo := 0, frames := []
    lastIssue := 0, missed := 0, urgent := false, hold := 0, restart := false }

/-- The placed group of log entry 14, of one lane. -/
def oneLane : Ctx := { placedCtx with splits := [(0, loneSplit)] }

/-- The first context of number 5: on core 1, without a split. -/
def shadowing : Ctx := { placedCtx with loc := .active 1 0, splits := [] }

/-- The second: on core 2, its split waiting for a phase of a barrier of core 0 that is over. -/
def shadowed : Ctx := { placedCtx with loc := .active 2 0, splits := [(0, { loneSplit with wait := .phase 0 0 1 })] }

/-- Core 1 holds a clean copy of byte 0, which its home no longer equals. -/
def copyHolder : Core := { Core.fresh with l1 := [(0, { Line.none with data := [(0, 7)], valid := 1 })] }

/-- The group about to issue, and the two contexts of number 5. -/
def twoUnderOneNumber : State :=
  { State.reset.place [] with
    agenda := []
    cur := some (0, 0)
    ctxs := [(0, oneLane), (5, shadowing), (5, shadowed)]
    cores := SMap.put [] Core.fresh 1 copyHolder }

/-- A store of v0 to the own scratch at v0, its form, and its issue by the group. -/
def store : Base := { dst := 0, src1 := 0, src2 := 0, lit := none }
def storeForm : Form := formStore store.xmSc false
def storing : Issue :=
  ⟨0, 0, oneLane, loneSplit, storeForm.acting oneLane loneSplit, loneSplit.pc + BitVec.ofNat 64 store.bytes⟩

/-- What the checks of the store's lanes answer, and the places of its lanes. -/
def stored : State × Except Trap (List LaneAt) := store.xmSc.access storing 1 false false twoUnderOneNumber
def storedPlaces : List LaneAt :=
  match stored.2 with
  | .ok lanes => lanes
  | .error _ => []

theorem storing_reaches : Reaches storeForm store.bytes [] twoUnderOneNumber storing := reaches_of (by decide)

/-- The state in which the store finds memory, once the split's loads and reductions are settled. -/
def settled : State := stored.1.settleReads storing.id

theorem stored_passes : stored.2.isOk = true := by decide

theorem stored_places : stored = (stored.1, .ok storedPlaces) := by
  have passes := stored_passes
  rcases e : stored with ⟨t, x | lanes⟩
  · simp [e, Except.isOk, Except.toBool] at passes
  · simp [storedPlaces, e]

theorem storedPlaces_untranslated : ∀ l ∈ storedPlaces, l.tlb = none := by decide

theorem settled_dirty (a : Nat) : ¬ marksDirty settled storing.c.core storedPlaces a := by
  rintro ⟨l, hl, e, translated, -⟩
  simp [storedPlaces_untranslated l hl] at translated

theorem settled_merges : settled.merges.isEmpty = true := by decide

theorem settled_watch : settled.watch.isEmpty = true := by decide

theorem copy_before : coreByte settled 1 0 = 7 := by decide

theorem copy_after : (match exec (.stB32ScBase store) twoUnderOneNumber with
    | .next u => some (coreByte u 1 0)
    | _ => none) = some 0 := by decide

theorem no_phase_waits_on_core_1 : ∀ e ∈ settled.ctxs, e.2.core = 1 → ∀ p ∈ e.2.splits, ∀ k off ph,
    p.2.wait ≠ .phase k off ph := by
  intro e he core
  have free : ∀ e ∈ settled.ctxs, e.2.core = 1 → e.2.splits = [] := by decide
  simp [free e he core]

/-- Refutes O58: the store of the placed group to its own scratch ends the phase for which the second context of number 5
waits, and the first one's core, in which no split waits for a phase, loses its clean copy of byte 0. -/
theorem not_storesChangeTheirOwnBytes : ¬ Obligations.StoresChangeTheirOwnBytes := by
  unfold Obligations.StoresChangeTheirOwnBytes
  rintro ⟨-, bases, -⟩
  have no_merge : ∀ m, m ∉ settled.merges := by simp [List.isEmpty_iff.1 settled_merges]
  have no_watch : ∀ w, w ∉ settled.watch := by simp [List.isEmpty_iff.1 settled_watch]
  obtain ⟨-, u, ran, -, copies, -⟩ := (bases store).2 twoUnderOneNumber storing 0 stored.1 storedPlaces storing_reaches
    (by decide) (by decide) (by decide) stored_places (fun m hm => absurd hm (no_merge m))
  have after : coreByte u 1 0 = 0 := by simpa [ran] using copy_after
  have kept := copies 1 0 (settled_dirty 0) (fun l _ q _ => .inl (by decide)) (fun w hw => absurd hw (no_watch w))
    no_phase_waits_on_core_1
  rcases kept with kept | ⟨-, core, -⟩
  · exact absurd (after.symm.trans (kept.trans copy_before)) (by decide)
  · exact absurd core (by decide)

end Sys2Proof.StoreFrame
end

section
/-! The lines of an L1 (R65, R224): the bytes that one holds, what a write-back and an eviction leave. -/

namespace Sys2Proof.MemoryAccess

open Machine Laws Claims

variable {s t : State}

/-- The bytes of a mask. -/
theorem getLsbD_byteMask (off n j : Nat) :
    (byteMask off n).getLsbD j = decide (j < 128 ∧ off ≤ j ∧ j < off + n) := by
  have h : j - off < n ∧ off ≤ j ↔ off ≤ j ∧ j < off + n := by omega
  rw [byteMask, BitVec.getLsbD_ofNat, Nat.testBit_mul_two_pow, Nat.testBit_two_pow_sub_one]
  by_cases h1 : j < 128 <;> by_cases h2 : off ≤ j <;> simp [h1, h2]
  omega

/-- A core holds the bytes of an access in its L1 where every one of them is valid there. -/
theorem hitsL1_iff {core pa n : Nat} (inside : pa % 128 + n ≤ 128) :
    s.hitsL1 core pa n = true ↔
      ∀ i < n, ((s.core core).l1.at Line.none (pa / 128)).valid.getLsbD (pa % 128 + i) = true := by
  unfold State.hitsL1
  generalize ((s.core core).l1.at Line.none (pa / 128)).valid = v
  rw [beq_iff_eq]
  constructor
  · intro h i hi
    have bit := congrArg (fun x => BitVec.getLsbD x (pa % 128 + i)) h
    have inRange : pa % 128 + i < 128 := by omega
    simpa [getLsbD_byteMask, inRange, hi] using bit
  · intro h
    refine BitVec.eq_of_getLsbD_eq fun j hj => ?_
    by_cases covered : pa % 128 ≤ j ∧ j < pa % 128 + n
    · have bit := h (j - pa % 128) (by omega)
      rw [Nat.add_sub_cancel' covered.1] at bit
      simp [getLsbD_byteMask, bit]
    · simp [getLsbD_byteMask, covered]

/-- Counting an event of a line changes the contexts alone. -/
theorem countLine_rest (id ev line h : Nat) : ∃ cs, s.countLine id ev line h = { s with ctxs := cs } := by
  unfold State.countLine
  split
  · exact ⟨_, rfl⟩
  · exact ⟨_, rfl⟩

theorem countLines_rest (ids : List Nat) (ev line h : Nat) :
    ∃ cs, foldState ids s (fun s id => s.countLine id ev line h) = { s with ctxs := cs } := by
  unfold foldState
  induction ids generalizing s with
  | nil => exact ⟨_, rfl⟩
  | cons id ids ih =>
    obtain ⟨cs, counted⟩ := countLine_rest (s := s) id ev line h
    obtain ⟨ds, rest⟩ := ih (s := { s with ctxs := cs })
    exact ⟨ds, by rw [List.foldl_cons, counted, rest]⟩

/-- The state in which a line has been sent to its home: it is clean, and its marked bytes are on their way. -/
def afterSend (s : State) (core line : Nat) (l : Line) (graphs : List Nat) : State :=
  { s with
    writes := s.writes ++ [({ number := s.nextId, core := core, bytes := l.cells line, handle := l.handle, graphs := graphs } : Write)]
    nextId := s.nextId + 1 }.modCore core fun k => { k with l1 := k.l1.ins line l.cleaned }

/-- The write-back of a line changes the counters of contexts besides. -/
theorem sendLine_rest {core line : Nat} {l : Line} (who : Option Nat) (held : (s.core core).l1.look line = some l) :
    ∃ cs graphs, s.sendLine core who line = { afterSend s core line l graphs with ctxs := cs } := by
  simp only [State.sendLine, held]
  obtain ⟨cs, counted⟩ := countLines_rest (s := afterSend s core line l ((s.markers core l.marks).map fun e => e.2.graph).eraseDups)
    (match who with
      | some id => [id]
      | none => (s.markers core l.marks).map Prod.fst) 0x12 line l.handle
  exact ⟨cs, _, counted⟩

/-- The marked bytes of a line that are on their way are those of its own addresses. -/
theorem find_cells {l : Line} {line pa : Nat} (other : pa / 128 ≠ line) : (l.cells line).find? (fun e => e.1 == pa) = none := by
  rw [List.find?_eq_none]
  intro e he
  obtain ⟨i, hi, rfl⟩ := List.mem_map.1 he
  have inLine : i < 128 := List.mem_range.1 (List.mem_filter.1 hi).1
  simp only [beq_iff_eq]
  omega

section Evict

variable {core line : Nat}

/-- The eviction of a line leaves what the core reads from memory in other lines. -/
theorem evictLine_missByte {k pa : Nat} (other : pa / 128 ≠ line) : (s.evictLine core line).missByte k pa = s.missByte k pa := by
  unfold State.evictLine
  split
  · rfl
  · rename_i l held
    split
    · rfl
    · obtain ⟨cs, gs, sent⟩ := sendLine_rest none held
      rw [sent]
      simp [State.missByte, afterSend, State.modCore, State.setCore, State.byteAt, find_cells other]

/-- It leaves the other lines of every core. -/
theorem evictLine_line {k m : Nat} (other : m ≠ line) :
    ((s.evictLine core line).core k).l1.at Line.none m = (s.core k).l1.at Line.none m := by
  unfold State.evictLine
  split
  · rfl
  · rename_i l held
    have dropped {u : State} (same : (u.core k).l1.at Line.none m = (s.core k).l1.at Line.none m) :
        ((u.modCore core fun c => { c with l1 := c.l1.del line }).core k).l1.at Line.none m = (s.core k).l1.at Line.none m := by
      rw [core_modCore]
      split
      · rename_i here
        subst here
        rw [← same]
        simp [SMap.at, look_del_ne _ other]
      · exact same
    refine dropped ?_
    split
    · rfl
    · obtain ⟨cs, gs, sent⟩ := sendLine_rest none held
      rw [sent]
      change ((afterSend s core line l gs).core k).l1.at Line.none m = _
      rw [afterSend, core_modCore]
      split
      · rename_i here
        subst here
        simp only [SMap.at, look_ins_ne _ _ other]
        rfl
      · rfl

end Evict

theorem look_ne_none_of_mem {α : Type} {m : SMap α} {e : Nat × α} (h : e ∈ m) : m.look e.1 ≠ none := by
  induction m with
  | nil => simp at h
  | cons g m ih =>
    rw [SMap.look]
    split
    · simp
    · rename_i other
      rcases List.mem_cons.1 h with rfl | h
      · exact absurd rfl other
      · exact ih h

/-- A line for which room is made: its bytes, and what its core reads from memory in it, are as before. -/
theorem makeRoom_cases (core line : Nat) : s.makeRoom core line = s
    ∨ ∃ gone, gone ≠ line ∧ s.makeRoom core line = { s with free := s.free + 1 }.evictLine core gone := by
  unfold State.makeRoom
  extract_lets l1
  split
  · exact .inl rfl
  · rename_i full
    split
    · exact .inl rfl
    · rename_i e found
      refine .inr ⟨e.1, ?_, rfl⟩
      rintro rfl
      have absent : l1.look e.1 = none := (by simpa using full : l1.look e.1 = none ∧ _).1
      exact look_ne_none_of_mem (List.mem_of_getElem? found) absent

end Sys2Proof.MemoryAccess
end

section
/-! What a lane of a load finds (R65, R188, R315). -/

namespace Sys2Proof.MemoryAccess

open Machine Laws Claims

variable {s t : State}

theorem makeRoom_missByte {core k pa : Nat} : (s.makeRoom core (pa / 128)).missByte k pa = s.missByte k pa := by
  rcases makeRoom_cases (s := s) core (pa / 128) with same | ⟨gone, other, made⟩
  · rw [same]
  · rw [made, evictLine_missByte (Ne.symm other)]
    rfl

theorem makeRoom_line {core k line : Nat} :
    ((s.makeRoom core line).core k).l1.at Line.none line = (s.core k).l1.at Line.none line := by
  rcases makeRoom_cases (s := s) core line with same | ⟨gone, other, made⟩
  · rw [same]
  · rw [made, evictLine_line (Ne.symm other)]
    rfl

/-- The bytes of a sector that a core reads from memory: its own marked ones stand before those. -/
def sectorData (s : State) (core pa : Nat) (line : Line) : SMap Byte :=
  (List.range 32).foldl (fun m i =>
    if line.marked.getLsbD (pa % 128 / 32 * 32 + i) then m
    else m.ins (pa % 128 / 32 * 32 + i) (s.missByte core (pa / 32 * 32 + i))) line.data

/-- A fold that puts values at places of its own: what stands at a place then. -/
theorem foldl_ins_at {skips : Nat → Bool} {value : Nat → Byte} {first j : Nat} {l : List Nat} (fresh : l.Nodup) (m : SMap Byte) :
    (l.foldl (fun m i => if skips i then m else m.ins (first + i) (value i)) m).at 0 (first + j)
      = if j ∈ l ∧ skips j = false then value j else m.at 0 (first + j) := by
  induction l generalizing m with
  | nil => simp
  | cons i l ih =>
    rw [List.foldl_cons, ih (List.nodup_cons.1 fresh).2]
    have apart : i ∉ l := (List.nodup_cons.1 fresh).1
    by_cases here : j = i
    · subst here
      cases skips j <;> simp [apart, SMap.at]
    · cases skips i <;> simp [here, SMap.at, look_ins_ne]

theorem sectorData_at {core pa i n : Nat} {line : Line} (inside : pa % 32 + n ≤ 32) (hi : i < n) :
    (sectorData s core pa line).at 0 (pa % 128 + i)
      = if line.marked.getLsbD ((pa + i) % 128) then line.data.at 0 ((pa + i) % 128) else s.missByte core (pa + i) := by
  have place : pa % 128 + i = pa % 128 / 32 * 32 + (pa % 32 + i) := by omega
  have home : pa / 32 * 32 + (pa % 32 + i) = pa + i := by omega
  have wrap : (pa + i) % 128 = pa % 128 / 32 * 32 + (pa % 32 + i) := by omega
  have listed : pa % 32 + i ∈ List.range 32 := List.mem_range.2 (by omega)
  rw [sectorData, place, wrap,
    foldl_ins_at (skips := fun i => line.marked.getLsbD (pa % 128 / 32 * 32 + i)) List.nodup_range]
  simp only [listed, true_and, home]
  cases line.marked.getLsbD (pa % 128 / 32 * 32 + (pa % 32 + i)) <;> simp

section ReadLane

variable {core handle pa : Nat} {ty : Ty} {a : LaneAt}

/-- A core's L1 that holds every byte of an access gives them. -/
theorem readLane_hit (place : a.place = .mem pa) (hit : s.hitsL1 core pa ty.bytes = true) :
    s.readLane core handle ty a = (s, some (natOfBytes (tabulate ty.bytes fun i =>
      ((s.core core).l1.at Line.none (pa / 128)).data.at 0 (pa % 128 + i)))) := by
  have hit' : s.hitsL1 core pa (ty.width / 8) = true := hit
  simp [State.readLane, place, State.loadL1, hit', Ty.bytes]

/-- One that does not reads the sector where it can be read. -/
theorem readLane_miss (place : a.place = .mem pa) (miss : s.hitsL1 core pa ty.bytes = false) (sound : s.poisonedAt pa = false) :
    (s.readLane core handle ty a).2 = some (natOfBytes (tabulate ty.bytes fun i =>
      (sectorData (s.makeRoom core (pa / 128)) core pa (((s.makeRoom core (pa / 128)).core core).l1.at Line.none (pa / 128))).at
        0 (pa % 128 + i))) := by
  have miss' : s.hitsL1 core pa (ty.width / 8) = false := miss
  simp [State.readLane, place, State.loadL1, miss', sound, sectorData, Ty.bytes]

/-- A sector that cannot be read makes poison. -/
theorem readLane_poisoned (place : a.place = .mem pa) (miss : s.hitsL1 core pa ty.bytes = false)
    (bad : s.poisonedAt pa = true) : (s.readLane core handle ty a).2 = none := by
  have miss' : s.hitsL1 core pa (ty.width / 8) = false := miss
  simp [State.readLane, place, State.loadL1, miss', bad]

end ReadLane

theorem tabulate_congr {β : Type} {n : Nat} {f g : Nat → β} (h : ∀ i < n, f i = g i) : tabulate n f = tabulate n g :=
  List.map_congr_left fun i hi => h i (List.mem_range.1 hi)

/-- The first part of O20: which bytes a lane of a load finds. -/
theorem readLane_bytes {core handle pa : Nat} {ty : Ty} {a : LaneAt} (place : a.place = .mem pa) (inside : pa % 32 + ty.bytes ≤ 32) :
    let line := (s.core core).l1.at Line.none (pa / 128)
    let held := ∀ i < ty.bytes, line.valid.getLsbD ((pa + i) % 128) = true
    (held → s.readLane core handle ty a = (s, some (natOfBytes (tabulate ty.bytes fun i => coreByte s core (pa + i)))))
    ∧ (¬ held → s.poisonedAt pa = false → (s.readLane core handle ty a).2 = some (natOfBytes (tabulate ty.bytes fun i =>
      if line.marked.getLsbD ((pa + i) % 128) then line.data.at 0 ((pa + i) % 128) else s.missByte core (pa + i))))
    ∧ (¬ held → s.poisonedAt pa = true → (s.readLane core handle ty a).2 = none) := by
  intro line held
  have wrap {i : Nat} (hi : i < ty.bytes) : (pa + i) % 128 = pa % 128 + i := by omega
  have same {i : Nat} (hi : i < ty.bytes) : (pa + i) / 128 = pa / 128 := by omega
  have hits : s.hitsL1 core pa ty.bytes = true ↔ held := by
    rw [hitsL1_iff (by omega)]
    exact forall₂_congr fun i hi => by rw [wrap hi]
  have misses (h : ¬ held) : s.hitsL1 core pa ty.bytes = false := by simpa using mt hits.1 h
  refine ⟨fun h => ?_, fun h sound => ?_, fun h => readLane_poisoned place (misses h)⟩
  · rw [readLane_hit place (hits.2 h)]
    refine congrArg (fun bs => (s, some (natOfBytes bs))) (tabulate_congr fun i hi => ?_)
    simp only [coreByte, same hi, wrap hi]
    exact if_pos (by rw [← wrap hi]; exact h i hi) |>.symm
  · rw [readLane_miss place (misses h) sound]
    refine congrArg (fun bs => some (natOfBytes bs)) (tabulate_congr fun i hi => ?_)
    rw [sectorData_at inside hi, makeRoom_line]
    have there : (s.makeRoom core (pa / 128)).missByte core (pa + i) = s.missByte core (pa + i) := by
      rw [← same hi, makeRoom_missByte]
    rw [there]

end Sys2Proof.MemoryAccess
end

section
/-! What a load leaves of the operations in flight, and how one of a single lane ends. -/

namespace Sys2Proof.MemoryAccess

open Machine Laws Claims

variable {s t : State}

section Ops

@[simp] theorem crossEdge_ops (id : Nat) : (s.crossEdge id).ops = s.ops := by
  unfold State.crossEdge
  split <;> rfl

@[simp] theorem freeWatch_ops (w : Watch) : (s.freeWatch w).ops = s.ops := by
  unfold State.freeWatch
  simp only
  split <;> simp

@[simp] theorem release_ops (w : Watch) : (s.release w).ops = s.ops := by
  unfold State.release
  split <;> simp

theorem foldState_ops {α : Type} {l : List α} {f : State → α → State} (h : ∀ s a, (f s a).ops = s.ops) :
    (foldState l s f).ops = s.ops := by
  unfold foldState
  induction l generalizing s with
  | nil => rfl
  | cons a l ih => exact (ih (s := f s a)).trans (h s a)

@[simp] theorem testWatches_ops (touched : Watch → Bool) : (s.testWatches touched).ops = s.ops :=
  foldState_ops fun _ _ => release_ops _

@[simp] theorem writeCells_ops (cells : List Host.Cell) : (s.writeCells cells).ops = s.ops := by
  unfold State.writeCells
  simp only
  split <;> simp

@[simp] theorem logUncorrectable_ops (pa : Nat) : (s.logUncorrectable pa).ops = s.ops := by
  unfold State.logUncorrectable
  simp only
  split
  · rfl
  · exact writeCells_ops _

@[simp] theorem claimLine_ops (pa h : Nat) : (s.claimLine pa h).ops = s.ops := by
  unfold State.claimLine
  simp only
  split
  · split_ifs <;> rfl
  · rfl

@[simp] theorem evictLine_ops (core line : Nat) : (s.evictLine core line).ops = s.ops := by
  unfold State.evictLine
  split
  · rfl
  · rename_i l held
    split
    · rfl
    · obtain ⟨cs, gs, sent⟩ := sendLine_rest none held
      rw [sent]
      rfl

@[simp] theorem makeRoom_ops (core line : Nat) : (s.makeRoom core line).ops = s.ops := by
  rcases makeRoom_cases (s := s) core line with same | ⟨gone, -, made⟩
  · rw [same]
  · rw [made, evictLine_ops]

@[simp] theorem loadL1_ops (core pa n : Nat) : (s.loadL1 core pa n).1.ops = s.ops := by
  unfold State.loadL1
  simp only
  split
  · rfl
  · split
    · rfl
    · simp

/-- A lane's read leaves the operations in flight. -/
@[simp] theorem readLane_ops (core handle : Nat) (ty : Ty) (a : LaneAt) : (s.readLane core handle ty a).1.ops = s.ops := by
  unfold State.readLane
  split
  · simp only
    split <;> split <;> simp
  · rfl

end Ops

/-- Noting a part of an answer leaves every operation but for the numbers of its packets. -/
theorem notePart_op {n : Nat} {link : Nat × Nat} {words : Response} {o : Op} (h : s.ops.look n = some o) :
    ∃ q, (s.notePart n link words).ops.look n = some { o with seqs := q } := by
  unfold State.notePart
  simp only [h]
  split
  · exact ⟨o.seqs, h⟩
  · exact ⟨_, by rw [modify_of_look h, look_ins_same]⟩

theorem noteParts_op {n : Nat} {links : List (Nat × Nat)} {words : Nat × Nat → Response} {o : Op}
    (h : s.ops.look n = some o) :
    ∃ q, (foldState links s fun s e => s.notePart n e (words e)).ops.look n = some { o with seqs := q } := by
  induction links generalizing s o with
  | nil => exact ⟨o.seqs, h⟩
  | cons e links ih =>
    obtain ⟨q, noted⟩ := notePart_op (link := e) (words := words e) h
    obtain ⟨r, rest⟩ := ih (s := s.notePart n e (words e)) (o := { o with seqs := q }) noted
    exact ⟨r, rest⟩

theorem noteLanes_op {n : Nat} {p o : Op} {lanes : List LaneAt} {words : LaneAt → Response} (h : s.ops.look n = some o) :
    ∃ q, (s.noteLanes n p lanes words).ops.look n = some { o with seqs := q } :=
  noteParts_op h

/-- What a lane loads lands in that lane. -/
theorem loadWords_lane {scalar : Bool} {reg l : Nat} {ty : Ty} {x : Option Nat} (fits : reg + ty.regs ≤ 256)
    (scalarLane : scalar = true → l = 0) (inGroup : l < 64) : ∀ w ∈ loadWords scalar reg ty l x, locLane w.1 = l := by
  intro w hw
  obtain ⟨i, hi, rfl⟩ := List.mem_map.1 hw
  have inFile : i < ty.regs := List.mem_range.1 hi
  cases scalar with
  | true => simp [locAt, locS, locLane, scalarLane rfl]
  | false =>
    have low : 64 * (reg + i) + l < 16384 := by omega
    simp only [locAt, locV, locLane, Bool.false_eq_true, if_false, low, if_true]
    omega

section Load

variable {n : Nat} {o : Op} {scalar : Bool} {reg : Nat} {ty : Ty} {a : LaneAt} {h : Nat} {x : Option Nat}

/-- The read of the one lane that a load has left. -/
theorem readOp_one {chosen : LaneAt → Bool} (op : s.ops.look n = some o) (kind : o.kind = .load scalar reg ty [a] h [])
    (due : chosen a = true) (read : s.readLane o.core h ty a = (t, x)) :
    s.readOp n chosen = (t.noteLanes n o (s.farLanes o ty [a]) fun b =>
        ((loadWords scalar reg ty a.lane x).filter fun w => scalar || locLane w.1 == b.lane).map fun w => w.2.1).modOp n
      fun o => { o with kind := .load scalar reg ty [] h (loadWords scalar reg ty a.lane x) } := by
  simp [State.readOp, op, kind, due, State.readLanes, read]

/-- A load that has one lane left ends with its words landed. -/
theorem fillLoad_one (op : s.ops.look n = some o) (kind : o.kind = .load scalar reg ty [a] h []) (fits : reg + ty.regs ≤ 256)
    (scalarLane : scalar = true → a.lane = 0) (inGroup : a.lane < 64)
    (free : ∀ line, a.line = some line → s.merging n line = false) (read : s.readLane o.core h ty a = (t, x)) :
    s.fillLoad n (laneBit a.lane) =
      let words := loadWords scalar reg ty a.lane x
      let noted := t.noteLanes n o (s.farLanes o ty [a]) fun b =>
        (words.filter fun w => scalar || locLane w.1 == b.lane).map fun w => w.2.1
      let read := noted.modOp n fun o => { o with kind := .load scalar reg ty [] h words }
      (read.modCtx o.ctx fun c => c.behind n fun c => c.landValues words).endOp n := by
  have bit : (laneBit a.lane).getLsbD a.lane = true := by simp [laneBit, inGroup]
  have unmerged : (a.line.any fun line => s.merging n line) = false := by
    cases line : a.line with
    | none => rfl
    | some l => exact free l line
  have held : t.ops.look n = some o := by
    have same := readLane_ops (s := s) o.core h ty a
    rw [read] at same
    rwa [same]
  extract_lets words noted final
  have stands : ∃ p, final.ops.look n = some p ∧ p.ctx = o.ctx ∧ p.kind = .load scalar reg ty [] h words := by
    obtain ⟨q, there⟩ : ∃ q, noted.ops.look n = some { o with seqs := q } := noteLanes_op held
    refine ⟨{ o with seqs := q, kind := .load scalar reg ty [] h words }, ?_, rfl, rfl⟩
    exact (look_modify ..).trans (by rw [if_pos rfl, there]; rfl)
  obtain ⟨p, there, ctx, loaded⟩ := stands
  have all : words.partition (fun e => (laneBit a.lane).getLsbD (locLane e.1)) = (words, []) := by
    rw [List.partition_eq_filter_filter, List.filter_eq_self.2, List.filter_eq_nil_iff.2]
    · intro w hw
      simp [loadWords_lane fits scalarLane inGroup w hw, bit]
    · intro w hw
      simp [loadWords_lane fits scalarLane inGroup w hw, bit]
  have done : s.readOp n (fun b => (laneBit a.lane).getLsbD b.lane && !b.line.any fun line => s.merging n line) = final :=
    readOp_one op kind (by simp [bit, unmerged]) read
  unfold State.fillLoad
  extract_lets whole
  rw [show whole = final from done, there]
  simp only [loaded, all, ctx]
  rfl

end Load

end Sys2Proof.MemoryAccess
end

section
/-! O20, what producers land. -/

namespace Sys2Proof.MemoryAccess

open Machine Laws Claims

variable {s t : State}

/-! ## What lands in the registers -/

/-- A word lands in an empty location of a lane that has not exited. -/
theorem landValues_word {c : Ctx} {k : Nat} {x : Word} (empty : c.fills.look k = some .empty) (vector : k < 16384)
    (runs : c.exited.getLsbD (k % 64) = false) :
    (c.landValues [(k, some x, 0)]).v.at 0 k = x ∧ (c.landValues [(k, some x, 0)]).fills.look k = none := by
  simp [Ctx.landValues, Ctx.land, Ctx.isEmpty, empty, vector, runs, Ctx.writeLoc, Ctx.poisonLocs, Ctx.postFlags]

/-- A word that could not be read makes an empty location poisoned. -/
theorem landValues_poison {c : Ctx} {k : Nat} (empty : c.fills.look k = some .empty) :
    (c.landValues [(k, none, 0)]).fills.look k = some .poisoned := by
  simp [Ctx.landValues, Ctx.land, Ctx.isEmpty, empty, Ctx.poisonLocs, Ctx.postFlags]

/-! ## The deliveries of engines -/

/-- An arrival at an operation that is no walk fills its lanes. -/
theorem producerFill_exec {n : Nat} {o : Op} {lanes : LaneMask} (op : s.ops.look n = some o) (runs : o.fault = none)
    (noWalk : ∀ w, o.kind ≠ .walk w) : exec (.producerFill n lanes) s = .next (s.fillLanes n o lanes) := by
  show execProducerFill n lanes s = _
  unfold execProducerFill
  rw [op]
  dsimp only
  rw [if_neg (by simp [runs])]
  split
  · exact absurd ‹_› (noWalk _)
  · rfl

/-- The lanes of a gather that are read with those chosen, of the same addresses. -/
theorem gatherChosen_eq {chosen : LaneMask} {all : List LaneAt} : gatherChosen chosen all =
    (all.filter fun a => all.any fun b => chosen.getLsbD b.lane && b.place == a.place,
      all.filter fun a => !all.any fun b => chosen.getLsbD b.lane && b.place == a.place) := by
  simp [gatherChosen, List.partition_eq_filter_filter, List.any_filter, Function.comp_def]

/-- The lanes of a gather whose homes can all be read. -/
theorem foldl_reads {lanes : List LaneAt} {reg : Nat} {ty : Ty} (sound : ∀ a ∈ lanes, s.poisonedPlace a.place = false)
    (got : List (Nat × Option Word × BitVec 5)) :
    lanes.foldl (fun (acc : State × List (Nat × Option Word × BitVec 5)) a =>
        if acc.1.poisonedPlace a.place then (acc.1.logPlace a.place, acc.2 ++ loadWords false reg ty a.lane none)
        else (acc.1, acc.2 ++ loadWords false reg ty a.lane (some (acc.1.readPlace a.place ty.bytes)))) (s, got)
      = (s, got ++ lanes.flatMap fun a => loadWords false reg ty a.lane (some (s.readPlace a.place ty.bytes))) := by
  induction lanes generalizing got with
  | nil => simp
  | cons a lanes ih =>
    have here := sound a (by simp)
    simp only [List.foldl_cons, here, Bool.false_eq_true, if_false, List.flatMap_cons]
    rw [ih fun b hb => sound b (by simp [hb]), List.append_assoc]

theorem gatherLanes_sound {n : Nat} {o : Op} {reg : Nat} {ty : Ty} {lanes : List LaneAt} :
    let u := foldState (lanesLines lanes) s fun s line => s.fetchLine o.core 0 (some n) line
    (∀ a ∈ lanes, u.poisonedPlace a.place = false) →
    let words := lanes.flatMap fun a => loadWords false reg ty a.lane (some (u.readPlace a.place ty.bytes))
    s.gatherLanes n o reg ty lanes =
      (u.noteLanes n o lanes fun a => (words.filter fun w => locLane w.1 == a.lane).map fun w => w.2.1).modCtx o.ctx
        fun c => c.landValues words := by
  intro u sound words
  have read := foldl_reads (reg := reg) (ty := ty) sound []
  simp only [State.gatherLanes]
  rw [show (foldState (lanesLines lanes) s fun s line => s.fetchLine o.core 0 (some n) line) = u from rfl, read]
  rfl

/-- A note of an answer's part leaves the frames. -/
theorem notePart_frame (n : Nat) (link : Nat × Nat) (words : Response) (k : Nat) :
    (s.notePart n link words).frame k = s.frame k := by
  unfold State.notePart
  split
  · rfl
  · split <;> rfl

/-- Settles O20: each part is the equation of one function of the model, for the lanes that the statement names. -/
theorem producersLand : Obligations.ProducersLand := by
  unfold Obligations.ProducersLand
  refine ⟨fun s core handle ty a pa place inside => readLane_bytes place inside, ?_, ?_, ?_, ?_⟩
  · intro s t n o scalar reg ty a h x op runs kind fits scalarLane inGroup free read
    rw [producerFill_exec op runs (by simp [kind])]
    simp only [State.fillLanes, kind]
    exact congrArg _ (fillLoad_one op kind fits scalarLane inGroup free read)
  · intro c k w empty vector runs
    refine ⟨fun x hx => ?_, fun hw => ?_⟩
    · subst hx
      exact landValues_word empty vector runs
    · subst hw
      exact landValues_poison empty
  · intro s n o reg ty lanes moved chosen op runs kind now later u sound words t
    rw [producerFill_exec op runs (by simp [kind])]
    have filled : s.fillLanes n o chosen = t.keepOp n later.isEmpty (.gather reg ty later (moved + ty.bytes * now.length)) := by
      simp only [State.fillLanes, kind, gatherChosen_eq]
      rw [gatherLanes_sound sound]
    rw [filled]
    refine ⟨fun none => ?_, fun some => ?_⟩
    · simp [State.keepOp, none]
    · simp [State.keepOp, some]
  · intro s n o k h op runs kind chosen here f word
    rw [producerFill_exec op runs (by simp [kind])]
    have told (u : State) : u.pollWord h = BitVec.ofNat 32 ((u.frame (handleKey h)).state.code
      + Nat.min (u.frame (handleKey h)).pending.toNat 0x0FFFFFFF * 16) := rfl
    have once : [handleDie h].eraseDups = [handleDie h] := rfl
    simp [State.fillLanes, kind, here, once, told, notePart_frame, State.keepOp, word, f]

end Sys2Proof.MemoryAccess
end

section
/-! The fields of a page-table entry (R53 to R55), and what a walk makes of each (R56). -/

namespace Sys2Proof.PageTable

open Machine Laws Claims

variable {s t : State}

/-! ## The fields of an entry -/

/-- The bits of a field as a number. -/
theorem bitsOf_eq {w : Nat} (x : BitVec w) (hi lo : Nat) : bitsOf x hi lo = (x.extractLsb' lo (hi + 1 - lo)).toNat := by
  simp [bitsOf, BitVec.extractLsb'_toNat]

/-- A field is 0 where its bits are. -/
theorem bitsOf_eq_zero {w : Nat} {x : BitVec w} {hi lo : Nat} : bitsOf x hi lo = 0 ↔ x.extractLsb' lo (hi + 1 - lo) = 0 := by
  rw [bitsOf_eq, ← BitVec.toNat_inj]
  rfl

theorem entrySize_eq_three {e : DWord} : entrySize e = 3 ↔ e.extractLsb' 4 2 = 3 := by
  rw [entrySize, bitsOf_eq, ← BitVec.toNat_inj]
  rfl

/-- A pointer stands where the walk's check of it passes (R53, R54). -/
theorem pointerStands_iff (s : State) (e : DWord) {lvl : Nat} (inTable : lvl < 4) :
    (lvl = 3 || bitsOf e 63 48 != 0 || bitsOf e 7 6 != 0 || bitsOf e 3 1 != 0
      || (decide (lvl < 2) && bitsOf e 47 8 * 256 % 4096 != 0) || !s.inDevice (bitsOf e 47 8 * 256)) = true
      ↔ pointerStands s e lvl = false := by
  have low : bitsOf e 47 8 * 256 % 4096 = 0 ↔ e.extractLsb' 8 4 = 0 := by
    rw [← BitVec.toNat_inj, BitVec.extractLsb'_toNat, bitsOf]
    simp
    omega
  have table : 256 * (e.extractLsb' 8 40).toNat = bitsOf e 47 8 * 256 := by rw [bitsOf_eq, Nat.mul_comm]
  have last : lvl < 3 ↔ lvl ≠ 3 := by omega
  have upper : 2 ≤ lvl ↔ ¬ lvl < 2 := by omega
  simp only [pointerStands, table, Bool.or_eq_true, Bool.and_eq_false_iff, bne_iff_ne, ne_eq, bitsOf_eq_zero, low,
    decide_eq_true_eq, decide_eq_false_iff_not, beq_eq_false_iff_ne, Bool.and_eq_true, Bool.not_eq_true', last, upper,
    Bool.or_eq_false_iff, not_not]

/-- What the walk checks of a leaf (R56), as the statement says it. -/
def LeafStands (s : State) (e : DWord) (lvl : Nat) : Prop :=
  (e.extractLsb' 4 2).toNat + lvl = 3 ∧ e.extractLsb' 48 15 = 0 ∧ e.extractLsb' 13 3 = 0 ∧ (e.extractLsb' 9 2).toNat ≠ 3
    ∧ (e.getLsbD 8 = true → (e.extractLsb' 9 2).toNat = 2) ∧ 65536 * (e.extractLsb' 16 32).toNat % 2 ^ levelShift lvl = 0
    ∧ ((e.extractLsb' 9 2).toNat ≠ 1 → (e.extractLsb' 11 2).toNat = 0)
    ∧ s.pageInRegion (e.extractLsb' 9 2).toNat (e.extractLsb' 11 2).toNat (65536 * (e.extractLsb' 16 32).toNat)
      (2 ^ levelShift lvl) = true

theorem leafPa_eq (e : DWord) : leafPa e = 65536 * (e.extractLsb' 16 32).toNat := by
  rw [leafPa, bitsOf_eq, Nat.mul_comm]

/-- A leaf's level is what its size says. -/
theorem leafLevel_eq {e : DWord} {lvl : Nat} (leaf : entrySize e ≠ 3) :
    leafLevel (entrySize e) = lvl ↔ (e.extractLsb' 4 2).toNat + lvl = 3 := by
  have size : entrySize e = (e.extractLsb' 4 2).toNat := bitsOf_eq e 5 4
  have few : entrySize e < 4 := size ▸ (e.extractLsb' 4 2).isLt
  rw [← size]
  have cases : entrySize e = 0 ∨ entrySize e = 1 ∨ entrySize e = 2 := by omega
  rcases cases with h | h | h <;> rw [h] <;> simp only [leafLevel] <;> omega

theorem leafStands_iff (s : State) {e : DWord} {lvl : Nat} (leaf : entrySize e ≠ 3) :
    (leafLevel (entrySize e) != lvl || !s.leafOk e lvl) = false ↔ LeafStands s e lvl := by
  have place : leafPlace e = (e.extractLsb' 9 2).toNat := bitsOf_eq e 10 9
  have die : leafDie e = (e.extractLsb' 11 2).toNat := bitsOf_eq e 12 11
  simp only [LeafStands, State.leafOk, Bool.or_eq_false_iff, bne_eq_false_iff_eq, leafLevel_eq leaf, Bool.not_eq_false',
    Bool.and_eq_true, beq_iff_eq, bne_iff_ne, ne_eq, bitsOf_eq_zero, place, die, leafPa_eq, leafCoh, bitOf, Bool.or_eq_true,
    Bool.not_eq_true', and_assoc]
  have coh : (e.getLsbD 8 = false ∨ (e.extractLsb' 9 2).toNat = 2) ↔ (e.getLsbD 8 = true → (e.extractLsb' 9 2).toNat = 2) := by
    cases e.getLsbD 8 <;> simp
  have ofDie : ((e.extractLsb' 9 2).toNat = 1 ∨ (e.extractLsb' 11 2).toNat = 0)
      ↔ (¬ (e.extractLsb' 9 2).toNat = 1 → (e.extractLsb' 11 2).toNat = 0) := by tauto
  rw [coh, ofDie]

/-! ## The entries of a walk -/

section Descend

variable {va : DWord} {kind table lvl : Nat} {lower : List Nat}

/-- The entry of a level decides, or names the next table. -/
theorem descend_eq : s.descend va kind table (lvl :: lower) =
    (let e := entryAt s table va lvl
     let fail := fun c : Cause => (Trap.atAddr c va kind, (none : Option Nat))
     if s.poisonedAt (entryPlace table va lvl) then
       .error ({ Trap.atAddr .poison va kind with kind := 4 }, some (entryPlace table va lvl))
     else if !bitOf e 0 then .error (fail .pageFault)
     else if entrySize e = 3 then
       if lvl = 3 || bitsOf e 63 48 != 0 || bitsOf e 7 6 != 0 || bitsOf e 3 1 != 0
           || (decide (lvl < 2) && bitsOf e 47 8 * 256 % 4096 != 0) || !s.inDevice (bitsOf e 47 8 * 256) then
         .error (fail .mapError)
       else s.descend va kind (bitsOf e 47 8 * 256) lower
     else if leafLevel (entrySize e) != lvl || !s.leafOk e lvl then .error (fail .mapError)
     else if bitOf e 63 then .error (fail .poison)
     else .ok ⟨e, entryPlace table va lvl, lvl⟩) := rfl

theorem descend_poisoned (bad : s.poisonedAt (entryPlace table va lvl) = true) : s.descend va kind table (lvl :: lower) =
    .error ({ Trap.atAddr .poison va kind with kind := 4 }, some (entryPlace table va lvl)) := by
  rw [descend_eq]
  exact if_pos bad

variable (sound : s.poisonedAt (entryPlace table va lvl) = false)
include sound

theorem descend_invalid (invalid : (entryAt s table va lvl).getLsbD 0 = false) :
    s.descend va kind table (lvl :: lower) = .error (Trap.atAddr .pageFault va kind, none) := by
  rw [descend_eq]
  dsimp only
  rw [if_neg (by simp [sound]), bitOf, invalid]
  rfl

variable (valid : (entryAt s table va lvl).getLsbD 0 = true)
include valid

theorem descend_pointer (inTable : lvl < 4) (pointer : (entryAt s table va lvl).extractLsb' 4 2 = 3)
    (stands : pointerStands s (entryAt s table va lvl) lvl = true) :
    s.descend va kind table (lvl :: lower)
      = s.descend va kind (256 * ((entryAt s table va lvl).extractLsb' 8 40).toNat) lower := by
  have checked := mt (pointerStands_iff s (entryAt s table va lvl) inTable).1 (by simp [stands])
  rw [descend_eq]
  simp only [sound, bitOf, valid, Bool.not_true, Bool.false_eq_true, if_false, entrySize_eq_three.2 pointer, if_true]
  rw [if_neg checked, bitsOf_eq, Nat.mul_comm]

theorem descend_badPointer (inTable : lvl < 4) (pointer : (entryAt s table va lvl).extractLsb' 4 2 = 3)
    (stands : pointerStands s (entryAt s table va lvl) lvl = false) :
    s.descend va kind table (lvl :: lower) = .error (Trap.atAddr .mapError va kind, none) := by
  have checked := (pointerStands_iff s (entryAt s table va lvl) inTable).2 stands
  rw [descend_eq]
  simp only [sound, bitOf, valid, Bool.not_true, Bool.false_eq_true, if_false, entrySize_eq_three.2 pointer, if_true]
  rw [if_pos checked]

variable (leaf : (entryAt s table va lvl).extractLsb' 4 2 ≠ 3)
include leaf

theorem descend_leaf : s.descend va kind table (lvl :: lower) =
    if leafLevel (entrySize (entryAt s table va lvl)) != lvl || !s.leafOk (entryAt s table va lvl) lvl then
      .error (Trap.atAddr .mapError va kind, none)
    else if bitOf (entryAt s table va lvl) 63 then .error (Trap.atAddr .poison va kind, none)
    else .ok ⟨entryAt s table va lvl, entryPlace table va lvl, lvl⟩ := by
  rw [descend_eq]
  dsimp only
  rw [if_neg (by simp [sound]), bitOf, valid, if_neg (by simp), if_neg (mt entrySize_eq_three.1 leaf)]

theorem descend_badLeaf (stands : ¬ LeafStands s (entryAt s table va lvl) lvl) :
    s.descend va kind table (lvl :: lower) = .error (Trap.atAddr .mapError va kind, none) := by
  rw [descend_leaf sound valid leaf,
    if_pos (eq_true_of_ne_false (mt (leafStands_iff s (mt entrySize_eq_three.1 leaf)).1 stands))]

variable (stands : LeafStands s (entryAt s table va lvl) lvl)
include stands

theorem descend_poisonLeaf (bad : (entryAt s table va lvl).getLsbD 63 = true) :
    s.descend va kind table (lvl :: lower) = .error (Trap.atAddr .poison va kind, none) := by
  rw [descend_leaf sound valid leaf, (leafStands_iff s (mt entrySize_eq_three.1 leaf)).2 stands, bitOf, bad]
  rfl

theorem descend_found (good : (entryAt s table va lvl).getLsbD 63 = false) :
    s.descend va kind table (lvl :: lower) = .ok ⟨entryAt s table va lvl, entryPlace table va lvl, lvl⟩ := by
  rw [descend_leaf sound valid leaf, (leafStands_iff s (mt entrySize_eq_three.1 leaf)).2 stands, bitOf, good]
  rfl

end Descend

/-- A walk from the root goes down to the table to which the entries above a level lead. -/
theorem descend_to_table {root table lvl kind : Nat} {va : DWord} (leads : tableAt s root va lvl = some table) (inTable : lvl < 4) :
    s.descend va kind root [0, 1, 2, 3] = s.descend va kind table ([0, 1, 2, 3].drop lvl) := by
  induction lvl generalizing table with
  | zero =>
    cases leads
    rfl
  | succ n ih =>
    obtain ⟨above, leadsAbove, next⟩ := Option.bind_eq_some_iff.1 leads
    simp only [Option.ite_none_right_eq_some, Option.some.injEq] at next
    obtain ⟨⟨sound, valid, pointer, stands⟩, rfl⟩ := next
    rw [ih leadsAbove (by omega), List.drop_eq_getElem_cons (by simp; omega)]
    have level : [0, 1, 2, 3][n]'(by simp; omega) = n := by
      have few : n = 0 ∨ n = 1 ∨ n = 2 := by omega
      rcases few with rfl | rfl | rfl <;> rfl
    rw [level, descend_pointer sound valid (by omega) pointer stands]

/-- The level of a leaf that a walk finds is one at which leaves stand. -/
theorem descend_level {va : DWord} {kind table : Nat} {levels : List Nat} {f : Found}
    (found : s.descend va kind table levels = .ok f) : 1 ≤ f.level ∧ f.level ≤ 3 := by
  induction levels generalizing table with
  | nil => cases found
  | cons lvl lower ih =>
    rw [descend_eq] at found
    generalize entryAt s table va lvl = e at found
    generalize entryPlace table va lvl = at_ at found
    dsimp only at found
    split_ifs at found with poisoned invalid pointer badPointer badLeaf poisonLeaf
    · exact ih found
    · cases found
      have level : leafLevel (entrySize e) = lvl := by
        by_contra other
        exact badLeaf (by simp [other])
      rw [← level]
      simp only [leafLevel]
      split <;> omega

end Sys2Proof.PageTable
end

section
/-! Walks, and the reads of their entries. -/

namespace Sys2Proof.PageTable

open Machine Laws Claims

variable {s t : State}

/-! ## Walks (R56) -/

section Walk

variable {core root : Nat} {va : DWord} {kind : Nat}

theorem walk_uncanonical (h : canonical va = false) :
    s.walk core root va kind = (s, .error (Trap.atAddr .protection va kind)) := by
  simp [State.walk, h]

theorem walk_outside (h : canonical va = true) (outside : s.inDevice root = false) :
    s.walk core root va kind = (s, .error (Trap.atAddr .mapError va kind)) := by
  simp [State.walk, h, outside]

variable (inForm : canonical va = true) (inside : s.inDevice root = true)
include inForm inside

theorem walk_unreadable {x : Trap} {bad : Nat}
    (found : (s.readEntries core root va).descend va kind root [0, 1, 2, 3] = .error (x, some bad)) :
    s.walk core root va kind = ((s.readEntries core root va).logUncorrectable bad, .error x) := by
  simp [State.walk, inForm, inside, found]

theorem walk_error {x : Trap} (found : (s.readEntries core root va).descend va kind root [0, 1, 2, 3] = .error (x, none)) :
    s.walk core root va kind = (s.readEntries core root va, .error x) := by
  simp [State.walk, inForm, inside, found]

theorem walk_found {f : Found} (found : (s.readEntries core root va).descend va kind root [0, 1, 2, 3] = .ok f) :
    s.walk core root va kind = if permits f.leaf kind
      then ((s.readEntries core root va).setEntryBits f.home 64, .ok { f with leaf := f.leaf ||| 64#64 })
      else (s.readEntries core root va, .error (Trap.atAddr .protection va kind)) := by
  simp only [State.walk, inForm, inside, found, Bool.not_true, Bool.false_eq_true, if_false]
  cases permits f.leaf kind <;> rfl

end Walk

/-- The leaf that a walk answers stands at a level of leaves. -/
theorem walk_level {core root kind : Nat} {va : DWord} {f : Found} (found : s.walk core root va kind = (t, .ok f)) :
    1 ≤ f.level ∧ f.level ≤ 3 := by
  unfold State.walk at found
  split at found
  · cases found
  · split at found
    · cases found
    · extract_lets read at found
      clear_value read
      split at found
      · cases found
      · rename_i g down
        have levels := descend_level down
        split at found
        · cases found
        · cases found
          exact levels

/-! ## The reads of the entries -/

/-- A claim changes the level-2 lines alone. -/
theorem claimLine_rest (pa h : Nat) : ∃ ls, s.claimLine pa h = { s with l2 := ls } := by
  unfold State.claimLine
  simp only
  split
  · split_ifs <;> exact ⟨_, rfl⟩
  · exact ⟨_, rfl⟩

/-- Making room in level 2 changes its lines, the handles and the free choices alone. -/
theorem makeWay_rest {die : Nat} {set : List Nat} (made : s.makeWay die set = some t) :
    ∃ ls hs fr, t = { s with l2 := ls, handles := hs, free := fr } := by
  have replaced (u : State) : ∃ ls fr, u.replaceLine set = { u with l2 := ls, free := fr } := by
    unfold State.replaceLine
    simp only
    split
    · exact ⟨_, _, rfl⟩
    · exact ⟨_, _, rfl⟩
  unfold State.makeWay at made
  extract_lets owners at made
  split at made
  · cases made
    obtain ⟨ls, fr, e⟩ := replaced s
    exact ⟨ls, _, fr, e⟩
  · split at made
    · cases made
    · split at made
      · cases made
      · split at made
        · cases made
          exact ⟨_, _, _, rfl⟩
        · cases made
          rename_i h p _ _ _
          obtain ⟨ls, fr, e⟩ := replaced (s.demote die h)
          exact ⟨ls, _, fr, e⟩

theorem allocLine_rest (line : Nat) : ∃ ls hs fr, s.allocLine line = { s with l2 := ls, handles := hs, free := fr } := by
  unfold State.allocLine
  split
  · exact ⟨_, _, _, rfl⟩
  · split
    · exact ⟨_, _, _, rfl⟩
    · split
      · exact ⟨_, _, _, rfl⟩
      · rename_i made
        obtain ⟨ls, hs, fr, rfl⟩ := makeWay_rest made
        exact ⟨_, _, _, rfl⟩

/-- Nothing that a translation reads differs: no read miss is open, and memory, its poison and the contexts are the same. -/
def SameHomes (s t : State) : Prop := t.merges = [] ∧ t.mem = s.mem ∧ t.poison = s.poison ∧ t.ctxs = s.ctxs

theorem fetchLine_homes {core handle line : Nat} (closed : s.merges = []) :
    SameHomes s (s.fetchLine core handle none line) := by
  unfold State.fetchLine
  split
  · exact ⟨closed, rfl, rfl, rfl⟩
  · have joined : s.joinMerge line ⟨core, handle, none, []⟩ = { s with merges := [⟨line, [⟨core, handle, none, []⟩]⟩] } := by
      simp [State.joinMerge, closed, findAt]
    obtain ⟨ls, hs, fr, made⟩ := allocLine_rest (s := { s with merges := [⟨line, [⟨core, handle, none, []⟩]⟩] }) line
    rw [joined, made]
    simp only [State.serveLine, foldState, State.serveRequest, List.filter_cons, List.filter_nil, beq_self_eq_true, if_true,
      List.flatMap_cons, List.flatMap_nil, List.append_nil, List.foldl_cons, List.foldl_nil, bne_self_eq_false,
      Bool.false_eq_true, if_false]
    obtain ⟨ls', claimed⟩ := claimLine_rest (s := { s with merges := [], l2 := ls, handles := hs, free := fr }) (128 * line) handle
    rw [claimed]
    exact ⟨rfl, rfl, rfl, rfl⟩

theorem SameHomes.trans {u : State} (h : SameHomes s t) (g : SameHomes t u) : SameHomes s u := by
  obtain ⟨-, mem, poison, ctxs⟩ := h
  obtain ⟨closed, mem', poison', ctxs'⟩ := g
  exact ⟨closed, mem'.trans mem, poison'.trans poison, ctxs'.trans ctxs⟩

theorem foldState_homes {α : Type} {l : List α} {f : State → α → State} (closed : s.merges = [])
    (step : ∀ {s a}, s.merges = [] → SameHomes s (f s a)) : SameHomes s (foldState l s f) := by
  unfold foldState
  induction l generalizing s with
  | nil => exact ⟨closed, rfl, rfl, rfl⟩
  | cons a l ih =>
    have first := step closed (a := a)
    exact first.trans (ih first.1)

/-- The reads of a walk leave memory where no read miss is open. -/
theorem readEntries_homes {core root : Nat} {va : DWord} (closed : s.merges = []) :
    SameHomes s (s.readEntries core root va) :=
  foldState_homes closed fun closed => foldState_homes closed fetchLine_homes

end Sys2Proof.PageTable
end

section
/-! The bits that a walk and a write set at home, and the TLB. -/

namespace Sys2Proof.PageTable

open Machine Laws Claims

variable {s t : State}

/-! ## The bits of an entry at its home -/

/-- The byte at a place of a value that is written there. -/
theorem byteAt_writeNat {pa n value i : Nat} (inside : i < n)
    (closed : ∀ m ∈ s.merges, ∀ e ∈ cellsOf pa n value, e.1 / 128 ≠ m.line) :
    (s.writeNat pa n value).byteAt (pa + i) = BitVec.ofNat 8 (value / 256 ^ i) := by
  rw [State.writeNat, writeHome_closed s _ closed, byteAt_writeCells]
  have one : ∀ e ∈ (cellsOf pa n value).reverse, (e.1 == pa + i) = true → e.2 = BitVec.ofNat 8 (value / 256 ^ i) := by
    intro e he here
    obtain ⟨j, -, rfl⟩ := List.mem_map.1 (List.mem_reverse.1 he)
    rw [show j = i by simpa using here]
  cases found : (cellsOf pa n value).reverse.find? fun e => e.1 == pa + i with
  | some e =>
    have here := List.find?_some found
    simp [one e (List.mem_of_find?_eq_some found) here]
  | none =>
    have absent := List.find?_eq_none.1 found (pa + i, BitVec.ofNat 8 (value / 256 ^ i))
      (List.mem_reverse.2 (List.mem_map.2 ⟨i, List.mem_range.2 inside, rfl⟩))
    simp at absent

/-- The value of the bytes of a number. -/
theorem natOfBytes_tabulate (n value : Nat) :
    natOfBytes (tabulate n fun i => BitVec.ofNat 8 (value / 256 ^ i)) = value % 256 ^ n := by
  induction n generalizing value with
  | zero => simp [tabulate, natOfBytes, Nat.mod_one]
  | succ n ih =>
    have rest : (tabulate (n + 1) fun i => BitVec.ofNat 8 (value / 256 ^ i))
        = BitVec.ofNat 8 value :: tabulate n fun i => BitVec.ofNat 8 (value / 256 / 256 ^ i) := by
      simp [tabulate, List.range_succ_eq_map, Function.comp_def, Nat.pow_succ', Nat.div_div_eq_div_mul]
    rw [rest, natOfBytes, ih, Nat.pow_succ', Nat.mod_mul]
    simp

/-- A byte string of n bytes is below 256 to the n. -/
theorem natOfBytes_lt (bs : List (BitVec 8)) : natOfBytes bs < 256 ^ bs.length := by
  induction bs with
  | nil => simp [natOfBytes]
  | cons b bs ih =>
    have := b.isLt
    rw [natOfBytes, List.length_cons, Nat.pow_succ']
    omega

theorem readHome_lt (pa : Nat) : s.readHome pa 8 < 2 ^ 64 := by
  have bound := natOfBytes_lt (tabulate 8 fun i => s.byteAt (pa + i))
  simpa [State.readHome, tabulate] using bound

section Entry

variable {home bits : Nat} (closed : ∀ m ∈ s.merges, ∀ i < 8, (home + i) / 128 ≠ m.line)
include closed

theorem cells_closed (value : Nat) : ∀ m ∈ s.merges, ∀ e ∈ cellsOf home 8 value, e.1 / 128 ≠ m.line := by
  intro m hm e he
  obtain ⟨i, hi, rfl⟩ := List.mem_map.1 he
  exact closed m hm i (List.mem_range.1 hi)

/-- Setting bits of an entry sets those at its home. -/
theorem readHome_setEntryBits (small : bits < 2 ^ 64) :
    (s.setEntryBits home bits).readHome home 8 = (s.readHome home 8 ||| bits) := by
  have value : s.readHome home 8 ||| bits < 256 ^ 8 := Nat.or_lt_two_pow (readHome_lt home) small
  rw [State.setEntryBits, State.readHome]
  refine (congrArg natOfBytes (List.map_congr_left fun i hi => ?_)).trans
    ((natOfBytes_tabulate 8 (s.readHome home 8 ||| bits)).trans (Nat.mod_eq_of_lt value))
  exact byteAt_writeNat (List.mem_range.1 hi) (cells_closed closed _)

/-- It leaves the bytes of every other address. -/
theorem byteAt_setEntryBits_other {a : Nat} (other : a < home ∨ home + 8 ≤ a) :
    (s.setEntryBits home bits).byteAt a = s.byteAt a :=
  byteAt_writeNat_other s home 8 _ a other (cells_closed closed _)

end Entry

/-! ## The TLB (R57, R58) -/

section Tlb

variable {core id root : Nat} {va : DWord} {kind : Nat}

theorem tlbOrWalk_held {e : TlbEntry} (inForm : canonical va = true)
    (held : ((s.core core).tlb.find? fun t => t.covers root va && permits t.leaf kind) = some e) :
    s.tlbOrWalk core id root va kind = (s, .ok ⟨leafAddress e.leaf e.level va, e.leaf.getLsbD 8, some e⟩) := by
  simp [State.tlbOrWalk, inForm, held, leafCoh, bitOf]

variable (inForm : canonical va = true)
  (missed : ((s.core core).tlb.find? fun t => t.covers root va && permits t.leaf kind) = none)
include inForm missed

theorem tlbOrWalk_error {x : Trap} (walked : (s.countEvent id 0x30 0 1).walk core root va kind = (t, .error x)) :
    s.tlbOrWalk core id root va kind = (t, .error x) := by
  simp [State.tlbOrWalk, inForm, missed, walked]

theorem tlbOrWalk_found {f : Found} (walked : (s.countEvent id 0x30 0 1).walk core root va kind = (t, .ok f)) :
    s.tlbOrWalk core id root va kind =
      let entry : TlbEntry := ⟨root, f.level, pageOf va f.level, f.leaf, f.home⟩
      (t.modCore core fun k => { k with tlb := entry :: k.tlb.filter fun u => !u.covers root va },
        .ok ⟨leafAddress f.leaf f.level va, f.leaf.getLsbD 8, some entry⟩) := by
  simp [State.tlbOrWalk, inForm, missed, walked, leafCoh, bitOf]

end Tlb

/-- The leaf of an entry that a write has marked. -/
theorem getLsbD_or_dirty (x : DWord) : (x ||| 128#64).getLsbD 7 = true := by
  simp

/-- The first write through a clean entry marks its page, and no copy of the entry stays clean. -/
theorem touchPage_clean {core root : Nat} {va : DWord} {e : TlbEntry}
    (clean : ((s.core core).tlb.find? fun t => t.covers root va && permits t.leaf 1 && !t.leaf.getLsbD 7) = some e) :
    (s.touchPage core root va).mem = (s.setEntryBits e.home 128).mem ∧ e ∉ ((s.touchPage core root va).core core).tlb := by
  have unmarked : e.leaf.getLsbD 7 = false := by
    have shown := List.find?_some clean
    simp only [Bool.and_eq_true, Bool.not_eq_true'] at shown
    exact shown.2
  have touched : s.touchPage core root va = (s.setEntryBits e.home 128).modCore core fun k =>
      { k with tlb := k.tlb.map fun u => if u == e then { u with leaf := u.leaf ||| 128#64 } else u } := by
    unfold State.touchPage
    simp only [bitOf]
    rw [clean]
  rw [touched]
  refine ⟨rfl, fun there => ?_⟩
  rw [core_modCore, if_pos rfl] at there
  obtain ⟨u, -, made⟩ := List.mem_map.1 there
  split at made
  · have marked := getLsbD_or_dirty u.leaf
    rw [← made] at unmarked
    exact absurd (marked.symm.trans unmarked) (by simp)
  · exact absurd (beq_iff_eq.2 made) ‹_›

/-- The same of a write through the entry under which it was translated. -/
theorem touchEntry_clean {core : Nat} {e : TlbEntry} (clean : (s.heldEntry core e).leaf.getLsbD 7 = false) :
    (s.touchEntry core e).mem = (s.setEntryBits e.home 128).mem
      ∧ ∀ held ∈ ((s.touchEntry core e).core core).tlb, e.same held = true → held.leaf.getLsbD 7 = true := by
  have touched : s.touchEntry core e = (s.setEntryBits e.home 128).modCore core fun k =>
      { k with tlb := k.tlb.map fun u => if e.same u then { u with leaf := u.leaf ||| 128#64 } else u } := by
    rw [State.touchEntry, bitOf, clean]
    rfl
  rw [touched]
  refine ⟨rfl, fun held there same => ?_⟩
  rw [core_modCore, if_pos rfl] at there
  obtain ⟨u, -, rfl⟩ := List.mem_map.1 there
  split at same
  · rename_i copy
    rw [if_pos copy]
    exact getLsbD_or_dirty _
  · exact absurd same ‹_›

end Sys2Proof.PageTable
end

section
/-! Runs, and accesses through translation registers. -/

namespace Sys2Proof.PageTable

open Machine Laws Claims

variable {s t : State}

/-! ## Translation registers (R62 to R64) -/

section Run

variable {core root va pa units fuel : Nat} {key : Nat × Nat}

/-- A run ends at an entry that cannot be read, or that leads to no leaf. -/
theorem extendRun_error {x : Trap} {bad : Option Nat}
    (failed : (s.readEntries core root (BitVec.ofNat 64 va)).descend (BitVec.ofNat 64 va) 0 root [0, 1, 2, 3] = .error (x, bad)) :
    (s.extendRun core root key (fuel + 1) va pa units).2 = units := by
  unfold State.extendRun
  simp only [failed]
  cases bad <;> rfl

variable {f : Found}
  (found : (s.readEntries core root (BitVec.ofNat 64 va)).descend (BitVec.ofNat 64 va) 0 root [0, 1, 2, 3] = .ok f)
include found

/-- It goes on over a page that continues it, with the same rights and place, and ends before any other. -/
theorem extendRun_found : s.extendRun core root key (fuel + 1) va pa units =
    if va % 2 ^ 51 ≠ 0 ∧ va % 2 ^ levelShift f.level = 0 ∧ leafPa f.leaf = pa ∧ runKey f.leaf = key
        ∧ units + 2 ^ levelShift f.level / 65536 < 2 ^ 22 then
      ((s.readEntries core root (BitVec.ofNat 64 va)).setEntryBits f.home (if f.leaf.getLsbD 1 then 192 else 64)).extendRun core root
        key fuel (va + 2 ^ levelShift f.level) (pa + 2 ^ levelShift f.level) (units + 2 ^ levelShift f.level / 65536)
    else (s.readEntries core root (BitVec.ofNat 64 va), units) := by
  rw [State.extendRun]
  simp only [found]
  have ends : (va % 2 ^ 51 = 0 || va % 2 ^ levelShift f.level != 0 || leafPa f.leaf != pa || runKey f.leaf != key
      || decide (2 ^ 22 ≤ units + 2 ^ levelShift f.level / 65536)) = true
      ↔ ¬ (va % 2 ^ 51 ≠ 0 ∧ va % 2 ^ levelShift f.level = 0 ∧ leafPa f.leaf = pa ∧ runKey f.leaf = key
        ∧ units + 2 ^ levelShift f.level / 65536 < 2 ^ 22) := by
    simp only [Bool.or_eq_true, bne_iff_ne, ne_eq, decide_eq_true_eq, not_and_or, not_not, not_lt, or_assoc]
  by_cases joins : va % 2 ^ 51 ≠ 0 ∧ va % 2 ^ levelShift f.level = 0 ∧ leafPa f.leaf = pa ∧ runKey f.leaf = key
      ∧ units + 2 ^ levelShift f.level / 65536 < 2 ^ 22
  · rw [if_neg (mt ends.1 (not_not.2 joins)), if_pos joins]
    rfl
  · rw [if_pos (ends.2 joins), if_neg joins]

end Run

/-- A run holds no fewer units than it has, and no more than 22 bits give. -/
theorem extendRun_units {core root : Nat} {key : Nat × Nat} {fuel va pa units : Nat} :
    units ≤ (s.extendRun core root key fuel va pa units).2
      ∧ (units < 2 ^ 22 → (s.extendRun core root key fuel va pa units).2 < 2 ^ 22) := by
  induction fuel generalizing s va pa units with
  | zero => exact ⟨Nat.le_refl _, id⟩
  | succ fuel ih =>
    cases found : (s.readEntries core root (BitVec.ofNat 64 va)).descend (BitVec.ofNat 64 va) 0 root [0, 1, 2, 3] with
    | error e =>
      rw [extendRun_error found]
      exact ⟨Nat.le_refl _, id⟩
    | ok f =>
      rw [extendRun_found found]
      split
      · rename_i joins
        obtain ⟨more, fits⟩ := ih (s := (s.readEntries core root (BitVec.ofNat 64 va)).setEntryBits f.home
          (if f.leaf.getLsbD 1 then 192 else 64)) (va := va + 2 ^ levelShift f.level) (pa := pa + 2 ^ levelShift f.level)
          (units := units + 2 ^ levelShift f.level / 65536)
        exact ⟨(Nat.le_add_right ..).trans more, fun _ => fits joins.2.2.2.2⟩
      · exact ⟨Nat.le_refl _, id⟩

section Bind

variable {id core root : Nat} {va : DWord}

theorem bindRun_error {x : Trap} (walked : (s.countEvent id 0x30 0 1).walk core root va 0 = (t, .error x)) :
    s.bindRun id core root va = (t, .error x) := by
  simp [State.bindRun, walked]

/-- The first page of a run takes few units. -/
theorem firstUnits_lt {lvl u : Nat} (leaf : 1 ≤ lvl ∧ lvl ≤ 3) :
    (u / 2 ^ levelShift lvl + 1) * 2 ^ levelShift lvl / 65536 - u / 65536 < 2 ^ 22 := by
  obtain ⟨low, high⟩ := leaf
  have cases : lvl = 1 ∨ lvl = 2 ∨ lvl = 3 := by omega
  rcases cases with rfl | rfl | rfl <;> simp only [levelShift] <;> omega

/-- A walk that succeeds binds the register, with the bits of its leaf and a run that holds at least its page. -/
theorem bindRun_found {f : Found} (walked : (s.countEvent id 0x30 0 1).walk core root va 0 = (t, .ok f)) :
    ∃ v r, s.bindRun id core root va = (v, .ok r)
       ∧ r.vbase = va.setWidth 52 ∧ r.pbase = BitVec.ofNat 48 (leafAddress f.leaf f.level va) ∧ r.read = f.leaf.getLsbD 2
       ∧ r.write = f.leaf.getLsbD 1 ∧ r.coh = f.leaf.getLsbD 8 ∧ r.stale = false ∧ r.valid = true
       ∧ (let size := 2 ^ levelShift f.level
          let base := (va.setWidth 52).toNat
          (base / size + 1) * size / 65536 - base / 65536 ≤ r.limit.toNat) := by
  have low := firstUnits_lt (u := va.toNat % 2 ^ 52) (walk_level walked)
  simp only [State.bindRun, walked]
  refine ⟨_, _, rfl, ?_, rfl, rfl, rfl, rfl, rfl, rfl, ?_⟩
  · exact BitVec.eq_of_toNat_eq (by simp)
  · obtain ⟨more, fits⟩ := extendRun_units (s := t.bindBits f) (core := core) (root := root) (key := runKey f.leaf) (fuel := 64)
      (va := (va.toNat % 2 ^ 52 / 2 ^ levelShift f.level + 1) * 2 ^ levelShift f.level)
      (pa := leafPa f.leaf + 2 ^ levelShift f.level)
      (units := (va.toNat % 2 ^ 52 / 2 ^ levelShift f.level + 1) * 2 ^ levelShift f.level / 65536 - va.toNat % 2 ^ 52 / 65536)
    simp only [BitVec.toNat_setWidth, BitVec.toNat_ofNat]
    rw [Nat.mod_eq_of_lt (fits low)]
    exact more

/-- A register that is bound is not stale. -/
theorem bindRun_fresh {x : XReg} (bound : s.bindRun id core root va = (t, .ok x)) : x.stale = false := by
  cases walked : (s.countEvent id 0x30 0 1).walk core root va 0 with
  | mk u r =>
    cases r with
    | error y =>
      rw [bindRun_error walked] at bound
      cases bound
    | ok f =>
      obtain ⟨v, r, binds, -, -, -, -, -, fresh, -⟩ := bindRun_found walked
      rw [binds] at bound
      cases bound
      exact fresh

end Bind

section Through

variable {id n kind : Nat} {o : Int} {c : Ctx}

/-- A register that is not stale binds nothing. -/
theorem rebind_fresh (present : s.ctxs.look id = some c) (fresh : ((c.xreg n).valid && (c.xreg n).stale) = false) :
    s.rebind id n = (s, .ok ()) := by
  simp only [State.rebind, present, fresh, Bool.false_eq_true, if_false]

/-- An access through a register that is not stale. -/
theorem throughX_fresh (present : s.ctxs.look id = some c) (fresh : ((c.xreg n).valid && (c.xreg n).stale) = false) :
    s.throughX id n o kind =
      (let r := c.xreg n
       let va := r.va + BitVec.ofInt 64 o
       if r.valid && decide (0 ≤ o) && decide (o < (r.limit.toNat * 65536 : Nat) - (r.vbase.toNat % 65536 : Nat)) then
         if !r.permits kind then (s, .error (Trap.atAddr .protection va kind))
         else if s.reaches c.die (r.pbase.toNat + o.toNat) then (s, .ok ⟨r.pbase.toNat + o.toNat, r.coh, none⟩)
         else (s, .error (Trap.atAddr .linkLost va kind))
       else s.translate id c va kind) := by
  simp only [State.throughX, rebind_fresh present fresh, present]

/-- A stale register binds itself first; its trap is the access's. -/
theorem throughX_stale_error {x : Trap} (present : s.ctxs.look id = some c) (stale : ((c.xreg n).valid && (c.xreg n).stale) = true)
    (failed : s.bindRun id c.core (s.asroot c.graph) (c.xreg n).va = (t, .error x)) : s.throughX id n o kind = (t, .error x) := by
  simp only [State.throughX, State.rebind, present, stale, if_true, failed]

theorem throughX_stale_bound {x : XReg} (present : s.ctxs.look id = some c)
    (stale : ((c.xreg n).valid && (c.xreg n).stale) = true)
    (bound : s.bindRun id c.core (s.asroot c.graph) (c.xreg n).va = (t, .ok x)) (now : x.stale = false) :
    s.throughX id n o kind = (t.modCtx id fun c => c.setXreg n x).throughX id n o kind := by
  have again : (t.modCtx id fun c => c.setXreg n x).rebind id n = (t.modCtx id fun c => c.setXreg n x, .ok ()) := by
    unfold State.rebind
    split
    · rfl
    · rename_i d there
      obtain ⟨e, -, rfl⟩ : ∃ e, t.ctxs.look id = some e ∧ e.setXreg n x = d := by
        rw [State.modCtx, look_modify, if_pos rfl, Option.map_eq_some_iff] at there
        exact there
      simp [Ctx.setXreg, Ctx.xreg, now]
  have once : s.rebind id n = (t.modCtx id fun c => c.setXreg n x, .ok ()) := by
    simp only [State.rebind, present, stale, if_true, bound]
  rw [State.throughX, State.throughX, once, again]

end Through

end Sys2Proof.PageTable
end

section
/-! O18, translations. -/

namespace Sys2Proof.PageTable

open Machine Laws Claims

variable {s t : State}

/-- The rights of a leaf. -/
theorem permits_kinds (e : DWord) : permits e 0 = e.getLsbD 2 ∧ permits e 1 = e.getLsbD 1
    ∧ permits e 2 = (e.getLsbD 2 && e.getLsbD 1) ∧ permits e 3 = e.getLsbD 3 :=
  ⟨rfl, rfl, rfl, rfl⟩

/-- The index of a level is a field of the address (R53). -/
theorem levelIndex_field (va : DWord) : levelIndex va 0 = (va.extractLsb' 39 13).toNat
    ∧ levelIndex va 1 = (va.extractLsb' 30 9).toNat ∧ levelIndex va 2 = (va.extractLsb' 21 9).toNat
    ∧ levelIndex va 3 = (va.extractLsb' 16 5).toNat := by
  simp [levelIndex, levelShift, BitVec.extractLsb'_toNat, Nat.shiftRight_eq_div_pow]

section Decide

variable {core root table lvl kind : Nat} {va : DWord} (inForm : canonical va = true) (inside : s.inDevice root = true)
  (inTable : lvl < 4) (leads : tableAt (s.readEntries core root va) root va lvl = some table)
include inForm inside inTable leads

/-- What the entry of the level to which a walk comes makes of it. -/
theorem walk_decides :
    let w := s.readEntries core root va
    let at_ := entryPlace table va lvl
    let e := entryAt w table va lvl
    let traps := fun (u : State) (x : Trap) => s.walk core root va kind = (u, .error x)
    let cause := fun c : Cause => traps w (Trap.atAddr c va kind)
    (w.poisonedAt at_ = true → traps (w.logUncorrectable at_) { Trap.atAddr .poison va kind with kind := 4 })
    ∧ (w.poisonedAt at_ = false →
      (e.getLsbD 0 = false → cause .pageFault)
      ∧ (e.getLsbD 0 = true → e.extractLsb' 4 2 = 3 → pointerStands w e lvl = false → cause .mapError)
      ∧ (e.getLsbD 0 = true → e.extractLsb' 4 2 ≠ 3 → ¬ LeafStands w e lvl → cause .mapError)
      ∧ (e.getLsbD 0 = true → e.extractLsb' 4 2 ≠ 3 → LeafStands w e lvl →
        (e.getLsbD 63 = true → cause .poison)
        ∧ (e.getLsbD 63 = false → permits e kind = false → cause .protection)
        ∧ (e.getLsbD 63 = false → permits e kind = true →
          s.walk core root va kind = (w.setEntryBits at_ 64, .ok ⟨e ||| 64#64, at_, lvl⟩)))) := by
  intro w at_ e traps cause
  have down : w.descend va kind root [0, 1, 2, 3] = w.descend va kind table (lvl :: [0, 1, 2, 3].drop (lvl + 1)) := by
    have few : lvl = 0 ∨ lvl = 1 ∨ lvl = 2 ∨ lvl = 3 := by omega
    rw [descend_to_table leads inTable]
    rcases few with rfl | rfl | rfl | rfl <;> rfl
  have fails {x : Trap} (h : w.descend va kind table (lvl :: [0, 1, 2, 3].drop (lvl + 1)) = .error (x, none)) :
      s.walk core root va kind = (w, .error x) := walk_error inForm inside (down.trans h)
  refine ⟨fun bad => walk_unreadable inForm inside (down.trans (descend_poisoned bad)), fun sound => ⟨?_, ?_, ?_, ?_⟩⟩
  · exact fun invalid => fails (descend_invalid sound invalid)
  · exact fun valid pointer stands => fails (descend_badPointer sound valid inTable pointer stands)
  · exact fun valid leaf stands => fails (descend_badLeaf sound valid leaf stands)
  · intro valid leaf stands
    have found (good : e.getLsbD 63 = false) := walk_found inForm inside
      (down.trans (descend_found sound valid leaf stands good))
    refine ⟨fun bad => fails (descend_poisonLeaf sound valid leaf stands bad), fun good denied => ?_, fun good granted => ?_⟩
    · exact (found good).trans (if_neg (by simpa using denied))
    · exact (found good).trans (if_pos granted)

end Decide

/-- An address is translated where its home can be reached (R341). -/
theorem translate_reached {id kind : Nat} {c : Ctx} {va : DWord} {m : Mapped}
    (mapped : s.tlbOrWalk c.core id (s.asroot c.graph) va kind = (t, .ok m)) :
    s.translate id c va kind =
      if t.reaches c.die m.pa then (t, .ok m) else (t, .error (Trap.atAddr .linkLost va kind)) := by
  simp only [State.translate, mapped]

/-- The registers and what they reach, of an access whose register is not stale. -/
theorem throughX_rules {id n kind : Nat} {o : Int} {c : Ctx} (present : s.ctxs.look id = some c)
    (fresh : ((c.xreg n).valid && (c.xreg n).stale) = false) :
    let r := c.xreg n
    let span : Int := (65536 * r.limit.toNat : Nat) - (r.vbase.toNat % 65536 : Nat)
    let va := r.vbase.signExtend 64 + BitVec.ofInt 64 o
    let inside := r.valid = true ∧ 0 ≤ o ∧ o < span
    (inside → r.permits kind = false → s.throughX id n o kind = (s, .error (Trap.atAddr .protection va kind)))
    ∧ (inside → r.permits kind = true → s.reaches c.die (r.pbase.toNat + o.toNat) = true →
      s.throughX id n o kind = (s, .ok ⟨r.pbase.toNat + o.toNat, r.coh, none⟩))
    ∧ (inside → r.permits kind = true → s.reaches c.die (r.pbase.toNat + o.toNat) = false →
      s.throughX id n o kind = (s, .error (Trap.atAddr .linkLost va kind)))
    ∧ (¬ inside → s.throughX id n o kind = s.translate id c va kind) := by
  intro r span va inside
  have covers : (r.valid && decide (0 ≤ o) && decide (o < (r.limit.toNat * 65536 : Nat) - (r.vbase.toNat % 65536 : Nat))) = true
      ↔ inside := by
    simp only [inside, span, Bool.and_eq_true, decide_eq_true_eq, and_assoc, Nat.mul_comm]
  rw [throughX_fresh present fresh]
  dsimp only
  refine ⟨fun h denied => ?_, fun h granted reached => ?_, fun h granted lost => ?_, fun h => if_neg (mt covers.1 h)⟩
  · rw [if_pos (covers.2 h), if_pos (by simp [r, denied])]
    rfl
  · rw [if_pos (covers.2 h), if_neg (by simp [r, granted]), if_pos reached]
  · rw [if_pos (covers.2 h), if_neg (by simp [r, granted]), if_neg (by simp [r, lost])]
    rfl

/-- Settles O18: the walk by the entry that decides it, its TLB and its registers by the equation of each of their functions. -/
theorem translationsFollowThePageTable : Obligations.TranslationsFollowThePageTable := by
  unfold Obligations.TranslationsFollowThePageTable
  refine ⟨⟨?_, permits_kinds, levelIndex_field, ?_, ?_, ?_, ?_, ?_⟩, ?_, ?_, ?_⟩
  · intro s core root va kind w
    refine ⟨walk_uncanonical, walk_outside, fun closed => (readEntries_homes closed).2, ?_⟩
    exact fun lvl t inTable inForm inside leads => walk_decides inForm inside inTable leads
  · exact fun s home bits small closed => ⟨readHome_setEntryBits closed small, fun a => byteAt_setEntryBits_other closed⟩
  · intro s core id root va kind inForm held w
    refine ⟨fun t there => tlbOrWalk_held inForm there, fun u x missed => tlbOrWalk_error inForm missed, ?_⟩
    intro u f missed walked
    refine ⟨_, tlbOrWalk_found inForm missed walked, rfl, ?_⟩
    rw [core_modCore, if_pos rfl]
  · intro s core root va clean
    refine ⟨fun none => ?_, fun t => touchPage_clean⟩
    unfold State.touchPage
    rw [show ((s.core core).tlb.find? fun t => t.covers root va && permits t.leaf 1 && !bitOf t.leaf 7) = .none from none]
  · intro s core t shown u
    exact ⟨fun marked => if_pos marked, touchEntry_clean⟩
  · intro s u id c va kind m mapped
    rw [translate_reached mapped]
    exact ⟨fun reached => if_pos reached, fun lost => if_neg (by simp [lost])⟩
  · exact fun s id core root va => ⟨fun u x => bindRun_error, fun u f => bindRun_found⟩
  · intro s core root key fuel va pa units w
    refine ⟨fun x bad => extendRun_error, fun f found => ?_⟩
    rw [extendRun_found found]
    exact ⟨fun joins => if_pos joins, fun ends => if_neg ends⟩
  · intro s id n c o kind present
    refine ⟨throughX_rules present, fun stale => ⟨fun u x => throughX_stale_error present stale, ?_⟩⟩
    intro u x bound
    exact throughX_stale_bound present stale bound (bindRun_fresh bound)

end Sys2Proof.PageTable
end

section
/-! Integer results (family 05): each operation of the model as arithmetic modulo 2^w (R73), and what the scalar and vector integer
instructions write. -/

namespace Sys2Proof.Numbers

open Machine Laws Claims

/-! ## Words of a type (R73) -/

theorem width_le (t : Ty) : t.width ≤ 64 := by cases t <;> decide

/-- The modulus of a type divides that of the 64-bit values. -/
theorem two_pow_width_dvd (t : Ty) : (2 : ℤ) ^ t.width ∣ 2 ^ 64 := pow_dvd_pow 2 (width_le t)

theorem low_lt (t : Ty) (x : DWord) : t.low x < 2 ^ t.width := Nat.mod_lt _ (Nat.two_pow_pos _)

/-- A result depends on its value modulo 2^w alone. -/
theorem word_eq_low {t : Ty} {z : ℤ} {n : ℕ} (h : z ≡ n [ZMOD 2 ^ t.width]) : t.word z = low t.width n := by
  have : z % 2 ^ t.width = ((n % 2 ^ t.width : ℕ) : ℤ) := by exact_mod_cast h
  rw [Ty.word, Ty.wrap, this, Int.toNat_natCast, low]

theorem word_natCast (t : Ty) (n : ℕ) : t.word n = low t.width n := word_eq_low rfl

/-- An operand read as its type reads it is congruent to its bits. -/
theorem int_modEq (t : Ty) (a : DWord) : t.int a ≡ a.toNat [ZMOD 2 ^ t.width] := by
  have bits : ((a.toNat % 2 ^ t.width : ℕ) : ℤ) ≡ a.toNat [ZMOD 2 ^ t.width] := by
    push_cast
    exact Int.mod_modEq _ _
  unfold Ty.int Ty.intValue
  dsimp only
  split
  · exact (Int.sub_modulus_modEq_iff).2 bits
  · exact bits

theorem word_int (t : Ty) (a : DWord) : t.word (t.int a) = low t.width a.toNat := word_eq_low (int_modEq t a)

/-- The bits of a 64-bit value that is congruent to a number modulo 2^64 are congruent to it modulo 2^w. -/
theorem toNat_modEq {t : Ty} {x : DWord} {z : ℤ} (h : (x.toNat : ℤ) = z % 2 ^ 64) : z ≡ x.toNat [ZMOD 2 ^ t.width] := by
  rw [h]
  exact ((Int.mod_modEq z _).of_dvd (two_pow_width_dvd t)).symm

theorem word_int_add (t : Ty) (a b : DWord) : t.word (t.int a + t.int b) = low t.width (a + b).toNat :=
  word_eq_low (((int_modEq t a).add (int_modEq t b)).trans (toNat_modEq (by simp)))

theorem word_int_sub (t : Ty) (a b : DWord) : t.word (t.int a - t.int b) = low t.width (a - b).toNat :=
  word_eq_low (((int_modEq t a).sub (int_modEq t b)).trans (toNat_modEq (by rw [BitVec.toNat_sub]; omega)))

theorem word_int_mul (t : Ty) (a b : DWord) : t.word (t.int a * t.int b) = low t.width (a * b).toNat :=
  word_eq_low (((int_modEq t a).mul (int_modEq t b)).trans (toNat_modEq (by simp)))

theorem word_int_mul_add (t : Ty) (a b c : DWord) :
    t.word (t.int a * t.int b + t.int c) = low t.width (a * b + c).toNat :=
  word_eq_low ((((int_modEq t a).mul (int_modEq t b)).add (int_modEq t c)).trans (toNat_modEq (by simp)))

/-! ## The operations (R130, R160) -/

/-- Wrapped, or clamped with `SAT`. -/
theorem intResult_eq {t : Ty} {sat : Bool} {z : ℤ} {x : DWord} (h : t.word z = low t.width x.toNat) :
    intResult t sat z = if sat then BitVec.ofNat 64 (t.clamp z) else low t.width x.toNat := by
  cases sat
  · exact h
  · rfl

theorem intMulHigh_eq (t : Ty) (a b : DWord) :
    intMulHigh t a b = low t.width (t.int a * t.int b / 2 ^ t.width % 2 ^ t.width).toNat := by
  refine word_eq_low ?_
  rw [Int.toNat_of_nonneg (Int.emod_nonneg _ (by positivity))]
  exact (Int.mod_modEq _ _).symm

/-- −1 is all ones. -/
theorem word_neg_one (t : Ty) : t.word (-1) = low t.width (2 ^ t.width - 1) := by
  refine word_eq_low ?_
  rw [Nat.cast_sub Nat.one_le_two_pow]
  exact Int.modEq_iff_dvd.2 ⟨1, by push_cast; ring⟩

theorem intDiv_eq (t : Ty) (a b : DWord) :
    intDiv t a b = if t.low b = 0 then low t.width (2 ^ t.width - 1) else t.word ((t.int a).tdiv (t.int b)) := by
  rw [intDiv, word_neg_one]

theorem intRem_eq (t : Ty) (a b : DWord) :
    intRem t a b = if t.low b = 0 then low t.width a.toNat else t.word ((t.int a).tmod (t.int b)) := by
  rw [intRem, word_int]

theorem intMin_eq (t : Ty) (a b : DWord) :
    intMin t a b = if t.int a ≤ t.int b then low t.width a.toNat else low t.width b.toNat := by
  rw [intMin, apply_ite t.word, word_int, word_int]

theorem intMax_eq (t : Ty) (a b : DWord) :
    intMax t a b = if t.int b ≤ t.int a then low t.width a.toNat else low t.width b.toNat := by
  rw [intMax, apply_ite t.word, word_int, word_int]

/-- A shift by the width or more leaves no bit of the product below the width. -/
theorem shiftLeft_eq (t : Ty) (a b : DWord) : shiftLeft t a b = low t.width (a.toNat * 2 ^ t.low b) := by
  unfold shiftLeft low
  split
  · rename_i wide
    rw [Nat.mod_eq_zero_of_dvd ((pow_dvd_pow 2 wide).mul_left _)]
    rfl
  · rw [Ty.low, BitVec.toNat_shiftLeft, Nat.shiftLeft_eq, Nat.mod_mod_of_dvd _ (pow_dvd_pow 2 (width_le t))]

theorem shiftRight_eq (t : Ty) (a b : DWord) : shiftRight t a b = low t.width (t.low a / 2 ^ t.low b) := by
  have small : t.low a / 2 ^ t.low b < 2 ^ t.width := (Nat.div_le_self _ _).trans_lt (low_lt t a)
  unfold shiftRight low
  rw [Nat.mod_eq_of_lt small]
  split
  · rename_i wide
    rw [Nat.div_eq_of_lt ((low_lt t a).trans_le (Nat.pow_le_pow_right two_pos wide))]
    rfl
  · rw [Nat.shiftRight_eq_div_pow]

/-- A value read as signed lies within its width. -/
theorem signedInt_bounds (t : Ty) (a : DWord) : -(2 ^ t.width : ℤ) ≤ t.signedInt a ∧ t.signedInt a < 2 ^ t.width := by
  have small : (t.low a : ℤ) < 2 ^ t.width := by exact_mod_cast low_lt t a
  unfold Ty.signedInt
  dsimp only
  split <;> omega

/-- A quotient by 2^n, rounded down, is the sign once 2^n exceeds the value. -/
theorem ediv_two_pow_of_bounds {z : ℤ} {w n : ℕ} (h : -(2 ^ w : ℤ) ≤ z ∧ z < 2 ^ w) (wide : w ≤ n) :
    z / 2 ^ n = if z < 0 then -1 else 0 := by
  have grows : (2 : ℤ) ^ w ≤ 2 ^ n := pow_le_pow_right₀ one_le_two wide
  split
  · rw [Int.ediv_eq_iff_of_pos (by positivity)]
    omega
  · exact Int.ediv_eq_zero_of_lt (by omega) (by omega)

/-- Copies of the sign from the width on. -/
theorem shiftArith_eq (t : Ty) (a b : DWord) : shiftArith t a b = t.word (t.signedInt a / 2 ^ t.low b) := by
  unfold shiftArith
  split
  · rename_i wide
    rw [ediv_two_pow_of_bounds (signedInt_bounds t a) le_rfl, ediv_two_pow_of_bounds (signedInt_bounds t a) wide]
  · rfl

/-! ## Instructions (R107, R129 to R131, R158 to R162) -/

/-- What a scalar integer instruction is: its form, its bytes, and what it makes of its sources. -/
def scalarMeaning : Instr → Option (Form × Nat × (DWord → DWord → DWord → DWord))
  | .saddB32Base f => some (formS2 f.xc true, f.bytes, fun a b _ => Ty.b32.word (Ty.b32.int a + Ty.b32.int b))
  | .ssubB32Base f => some (formS2 f.xc true, f.bytes, fun a b _ => Ty.b32.word (Ty.b32.int a - Ty.b32.int b))
  | .smulB32Base f => some (formS2 f.xc true, f.bytes, fun a b _ => Ty.b32.word (Ty.b32.int a * Ty.b32.int b))
  | .sandB32Base f => some (formS2 f.xc true, f.bytes, fun a b _ => bitAnd .b32 a b)
  | .sorB32Base f => some (formS2 f.xc true, f.bytes, fun a b _ => bitOr .b32 a b)
  | .sxorB32Base f => some (formS2 f.xc true, f.bytes, fun a b _ => bitXor .b32 a b)
  | .sshlB32Base f => some (formS2 f.xc true, f.bytes, fun a b _ => shiftLeft .b32 a b)
  | .sshrB32Base f => some (formS2 f.xc true, f.bytes, fun a b _ => shiftRight .b32 a b)
  | .smovB32Base f => some (formS1 f.xc, f.bytes, fun a _ _ => a)
  | .sadd f => some (formS2 f f.h.ty.inI, f.h.bytes, fun a b _ => f.h.ty.word (f.h.ty.int a + f.h.ty.int b))
  | .ssub f => some (formS2 f f.h.ty.inI, f.h.bytes, fun a b _ => f.h.ty.word (f.h.ty.int a - f.h.ty.int b))
  | .smul f => some (formS2 f f.h.ty.inI, f.h.bytes, fun a b _ => f.h.ty.word (f.h.ty.int a * f.h.ty.int b))
  | .smad f => some (formS3 f, f.h.bytes, fun a b c => f.h.ty.word (f.h.ty.int a * f.h.ty.int b + f.h.ty.int c))
  | .smulh f => some (formS2 f f.h.ty.inIS, f.h.bytes, fun a b _ => intMulHigh f.h.ty a b)
  | .sdiv f => some (formS2 f f.h.ty.inIS, f.h.bytes, fun a b _ => intDiv f.h.ty a b)
  | .srem f => some (formS2 f f.h.ty.inIS, f.h.bytes, fun a b _ => intRem f.h.ty a b)
  | .smin f => some (formS2 f f.h.ty.inIS, f.h.bytes, fun a b _ => intMin f.h.ty a b)
  | .smax f => some (formS2 f f.h.ty.inIS, f.h.bytes, fun a b _ => intMax f.h.ty a b)
  | .sand f => some (formS2 f f.h.ty.inW, f.h.bytes, fun a b _ => bitAnd f.h.ty a b)
  | .sor f => some (formS2 f f.h.ty.inW, f.h.bytes, fun a b _ => bitOr f.h.ty a b)
  | .sxor f => some (formS2 f f.h.ty.inW, f.h.bytes, fun a b _ => bitXor f.h.ty a b)
  | .sshl f => some (formS2 f f.h.ty.inW, f.h.bytes, fun a b _ => shiftLeft f.h.ty a b)
  | .sshr f => some (formS2 f f.h.ty.inW, f.h.bytes, fun a b _ => shiftRight f.h.ty a b)
  | .ssra f => some (formS2 f f.h.ty.inW, f.h.bytes, fun a b _ => shiftArith f.h.ty a b)
  | .sbfx f => some (formSField f f.h.ty.inIS .write, f.h.bytes, fun a _ _ => fieldExtract f.h.ty a f.pos f.len)
  | .spopc f => some (formS1 f, f.h.bytes, fun a _ _ => popCount f.h.ty a)
  | .sclz f => some (formS1 f, f.h.bytes, fun a _ _ => leadingZeros f.h.ty a)
  | .sctz f => some (formS1 f, f.h.bytes, fun a _ _ => trailingZeros f.h.ty a)
  | .smov f => some (formS1 f, f.h.bytes, fun a _ _ => a)
  | .sli f => some (formSli f, f.h.bytes, fun _ _ _ => f.imm.signExtend 64)
  | .scmp f => some (formScmp f, f.h.bytes, fun a b _ => truth (intCompare f.h.ty (bitsOf f.imm 3 0) a b))
  | _ => none

/-- What a vector integer instruction is: its form, its bytes, and what it makes of the sources of a lane (source n is `a n`). -/
def laneMeaning : Instr → Option (Form × Nat × ((Nat → DWord) → DWord))
  | .addB32Base f => some (formBase2 f .b32 false, f.bytes, fun a => Ty.b32.word (Ty.b32.int (a 1) + Ty.b32.int (a 2)))
  | .subB32Base f => some (formBase2 f .b32 false, f.bytes, fun a => Ty.b32.word (Ty.b32.int (a 1) - Ty.b32.int (a 2)))
  | .mulB32Base f => some (formBase2 f .b32 false, f.bytes, fun a => Ty.b32.word (Ty.b32.int (a 1) * Ty.b32.int (a 2)))
  | .andB32Base f => some (formBase2 f .b32 false, f.bytes, fun a => bitAnd .b32 (a 1) (a 2))
  | .orB32Base f => some (formBase2 f .b32 false, f.bytes, fun a => bitOr .b32 (a 1) (a 2))
  | .xorB32Base f => some (formBase2 f .b32 false, f.bytes, fun a => bitXor .b32 (a 1) (a 2))
  | .shlB32Base f => some (formBase2 f .b32 false, f.bytes, fun a => shiftLeft .b32 (a 1) (a 2))
  | .shrB32Base f => some (formBase2 f .b32 false, f.bytes, fun a => shiftRight .b32 (a 1) (a 2))
  | .sraB32Base f => some (formBase2 f .b32 false, f.bytes, fun a => shiftArith .b32 (a 1) (a 2))
  | .minS32Base f => some (formBase2 f .s32 false, f.bytes, fun a => intMin .s32 (a 1) (a 2))
  | .maxS32Base f => some (formBase2 f .s32 false, f.bytes, fun a => intMax .s32 (a 1) (a 2))
  | .movB32Base f => some (formV1 (f.xv .b32 false) true 0 false, f.bytes, fun a => a 1)
  | .addB32VsBase f => some (formBase2 f .b32 true, f.bytes, fun a => Ty.b32.word (Ty.b32.int (a 1) + Ty.b32.int (a 2)))
  | .add f => some (formV2 f f.h.ty.inI (satAllowed f.h.ty) 0 false, f.h.bytes,
      fun a => intResult f.h.ty f.sat (f.h.ty.int (a 1) + f.h.ty.int (a 2)))
  | .sub f => some (formV2 f f.h.ty.inI (satAllowed f.h.ty) 0 false, f.h.bytes,
      fun a => intResult f.h.ty f.sat (f.h.ty.int (a 1) - f.h.ty.int (a 2)))
  | .mul f => some (formV2 f f.h.ty.inI (satAllowed f.h.ty) 0 false, f.h.bytes,
      fun a => intResult f.h.ty f.sat (f.h.ty.int (a 1) * f.h.ty.int (a 2)))
  | .mad f => some (formV3 f f.h.ty.inI (satAllowed f.h.ty) 0 false, f.h.bytes,
      fun a => intResult f.h.ty f.sat (f.h.ty.int (a 1) * f.h.ty.int (a 2) + f.h.ty.int (a 3)))
  | .mulh f => some (formV2 f f.h.ty.inIS false 0 false, f.h.bytes, fun a => intMulHigh f.h.ty (a 1) (a 2))
  | .min f => some (formV2 f f.h.ty.inIS false 0 false, f.h.bytes, fun a => intMin f.h.ty (a 1) (a 2))
  | .max f => some (formV2 f f.h.ty.inIS false 0 false, f.h.bytes, fun a => intMax f.h.ty (a 1) (a 2))
  | .abs f => some (formV1 f (f.h.ty == .s32 || f.h.ty == .s64) 0 false, f.h.bytes,
      fun a => f.h.ty.word (f.h.ty.int (a 1)).natAbs)
  | .and f => some (formV2 f f.h.ty.inW false 0 false, f.h.bytes, fun a => bitAnd f.h.ty (a 1) (a 2))
  | .or f => some (formV2 f f.h.ty.inW false 0 false, f.h.bytes, fun a => bitOr f.h.ty (a 1) (a 2))
  | .xor f => some (formV2 f f.h.ty.inW false 0 false, f.h.bytes, fun a => bitXor f.h.ty (a 1) (a 2))
  | .shl f => some (formV2 f f.h.ty.inW false 0 false, f.h.bytes, fun a => shiftLeft f.h.ty (a 1) (a 2))
  | .shr f => some (formV2 f f.h.ty.inW false 0 false, f.h.bytes, fun a => shiftRight f.h.ty (a 1) (a 2))
  | .sra f => some (formV2 f f.h.ty.inW false 0 false, f.h.bytes, fun a => shiftArith f.h.ty (a 1) (a 2))
  | .bfx f => some (formVField f f.h.ty.inIS .write, f.h.bytes,
      fun a => fieldExtract f.h.ty (a 1) ((a 2).toNat % 256) (fieldBits f.h.ty.width (a 2) (a 3)))
  | .popc f => some (formV1 f f.h.ty.inW 0 false, f.h.bytes, fun a => popCount f.h.ty (a 1))
  | .clz f => some (formV1 f f.h.ty.inW 0 false, f.h.bytes, fun a => leadingZeros f.h.ty (a 1))
  | .brev f => some (formV1 f f.h.ty.inW 0 false, f.h.bytes, fun a => bitReverse f.h.ty (a 1))
  | .mov f => some (formV1 f f.h.ty.inW 0 false, f.h.bytes, fun a => a 1)
  | .cmp f => some (formVCmp f f.h.ty.inI 0 (if f.h.ty.inW then 2 else 6), f.h.bytes,
      fun a => truth (intCompare f.h.ty f.cond.toNat (a 1) (a 2)))
  | _ => none

theorem exec_scalarMeaning {i : Instr} {form : Form} {bytes : Nat} {op : DWord → DWord → DWord → DWord}
    (h : scalarMeaning i = some (form, bytes, op)) (s : State) : exec i s = scalarOp form bytes op s := by
  unfold scalarMeaning at h
  split at h <;> cases h <;> rfl

theorem exec_laneMeaning {i : Instr} {form : Form} {bytes : Nat} {op : (Nat → DWord) → DWord}
    (h : laneMeaning i = some (form, bytes, op)) (s : State) :
    exec i s = vectorOp form bytes (fun c l => op fun n => form.arg c n l) s := by
  unfold laneMeaning at h
  split at h <;> cases h <;> rfl

/-- A scalar instruction completes with what its operation makes of its sources. -/
theorem scalarResult_of_meaning {i : Instr} {form : Form} {bytes : Nat} {op : DWord → DWord → DWord → DWord}
    {value : (Nat → DWord) → DWord} (h : scalarMeaning i = some (form, bytes, op))
    (agrees : ∀ a : Nat → DWord, op (a 1) (a 2) (a 3) = value a) : ScalarResult i form bytes value := by
  intro s is reaches
  rw [← agrees]
  exact ⟨rfl, (exec_scalarMeaning h s).trans (issue_reaches reaches)⟩

/-- A vector instruction completes with what its operation makes of the sources of each lane. -/
theorem laneResult_of_meaning {i : Instr} {form : Form} {bytes : Nat} {op value : (Nat → DWord) → DWord}
    (h : laneMeaning i = some (form, bytes, op)) (agrees : ∀ a, op a = value a) : LaneResult i form bytes value := by
  intro s is reaches
  obtain rfl : op = value := funext agrees
  exact ⟨rfl, (exec_laneMeaning h s).trans (issue_reaches reaches)⟩

/-- Settles O1: each scalar instruction runs its operation, which is that of the rules. -/
theorem scalarIntegerArithmetic : Obligations.ScalarIntegerArithmetic := by
  unfold Obligations.ScalarIntegerArithmetic
  refine ⟨⟨fun f => ?_, fun f => ?_⟩, fun f => ?_, fun f => ?_⟩
  · exact
      ⟨scalarResult_of_meaning rfl fun _ => word_int_add _ _ _,
        scalarResult_of_meaning rfl fun _ => word_int_sub _ _ _,
        scalarResult_of_meaning rfl fun _ => word_int_mul _ _ _,
        scalarResult_of_meaning rfl fun _ => word_int_mul_add _ _ _ _,
        scalarResult_of_meaning rfl fun _ => rfl,
        scalarResult_of_meaning rfl fun _ => rfl,
        scalarResult_of_meaning rfl fun _ => rfl⟩
  · exact
      ⟨scalarResult_of_meaning rfl fun _ => word_int_add .b32 _ _,
        scalarResult_of_meaning rfl fun _ => word_int_sub .b32 _ _,
        scalarResult_of_meaning rfl fun _ => word_int_mul .b32 _ _,
        scalarResult_of_meaning rfl fun _ => rfl,
        scalarResult_of_meaning rfl fun _ => rfl,
        scalarResult_of_meaning rfl fun _ => rfl⟩
  · exact
      ⟨scalarResult_of_meaning rfl fun _ => intMulHigh_eq _ _ _,
        scalarResult_of_meaning rfl fun _ => intDiv_eq _ _ _,
        scalarResult_of_meaning rfl fun _ => intRem_eq _ _ _,
        scalarResult_of_meaning rfl fun _ => intMin_eq _ _ _,
        scalarResult_of_meaning rfl fun _ => intMax_eq _ _ _,
        scalarResult_of_meaning rfl fun _ => shiftLeft_eq _ _ _,
        scalarResult_of_meaning rfl fun _ => shiftRight_eq _ _ _,
        scalarResult_of_meaning rfl fun _ => shiftArith_eq _ _ _,
        scalarResult_of_meaning rfl fun _ => rfl,
        scalarResult_of_meaning rfl fun _ => rfl,
        scalarResult_of_meaning rfl fun _ => rfl,
        scalarResult_of_meaning rfl fun _ => rfl,
        scalarResult_of_meaning rfl fun _ => rfl,
        scalarResult_of_meaning rfl fun _ => rfl,
        scalarResult_of_meaning rfl fun _ => rfl⟩
  · exact
      ⟨scalarResult_of_meaning rfl fun _ => shiftLeft_eq .b32 _ _,
        scalarResult_of_meaning rfl fun _ => shiftRight_eq .b32 _ _,
        scalarResult_of_meaning rfl fun _ => rfl⟩

/-- Settles O3: each vector instruction runs its operation in every lane, which is that of the rules. -/
theorem vectorIntegerArithmetic : Obligations.VectorIntegerArithmetic := by
  unfold Obligations.VectorIntegerArithmetic
  refine ⟨⟨fun f => ?_, fun f => ?_⟩, fun f => ?_, fun f => ?_⟩
  · exact
      ⟨laneResult_of_meaning rfl fun _ => intResult_eq (word_int_add _ _ _),
        laneResult_of_meaning rfl fun _ => intResult_eq (word_int_sub _ _ _),
        laneResult_of_meaning rfl fun _ => intResult_eq (word_int_mul _ _ _),
        laneResult_of_meaning rfl fun _ => intResult_eq (word_int_mul_add _ _ _ _),
        laneResult_of_meaning rfl fun _ => rfl,
        laneResult_of_meaning rfl fun _ => rfl,
        laneResult_of_meaning rfl fun _ => rfl⟩
  · exact
      ⟨laneResult_of_meaning rfl fun _ => word_int_add .b32 _ _,
        laneResult_of_meaning rfl fun _ => word_int_sub .b32 _ _,
        laneResult_of_meaning rfl fun _ => word_int_mul .b32 _ _,
        laneResult_of_meaning rfl fun _ => rfl,
        laneResult_of_meaning rfl fun _ => rfl,
        laneResult_of_meaning rfl fun _ => rfl,
        laneResult_of_meaning rfl fun _ => word_int_add .b32 _ _⟩
  · exact
      ⟨laneResult_of_meaning rfl fun _ => intMulHigh_eq _ _ _,
        laneResult_of_meaning rfl fun _ => intMin_eq _ _ _,
        laneResult_of_meaning rfl fun _ => intMax_eq _ _ _,
        laneResult_of_meaning rfl fun _ => word_natCast _ _,
        laneResult_of_meaning rfl fun _ => shiftLeft_eq _ _ _,
        laneResult_of_meaning rfl fun _ => shiftRight_eq _ _ _,
        laneResult_of_meaning rfl fun _ => shiftArith_eq _ _ _,
        laneResult_of_meaning rfl fun _ => rfl,
        laneResult_of_meaning rfl fun _ => rfl,
        laneResult_of_meaning rfl fun _ => rfl,
        laneResult_of_meaning rfl fun _ => rfl,
        laneResult_of_meaning rfl fun _ => rfl,
        laneResult_of_meaning rfl fun _ => rfl⟩
  · exact
      ⟨laneResult_of_meaning rfl fun _ => shiftLeft_eq .b32 _ _,
        laneResult_of_meaning rfl fun _ => shiftRight_eq .b32 _ _,
        laneResult_of_meaning rfl fun _ => shiftArith_eq .b32 _ _,
        laneResult_of_meaning rfl fun _ => intMin_eq .s32 _ _,
        laneResult_of_meaning rfl fun _ => intMax_eq .s32 _ _,
        laneResult_of_meaning rfl fun _ => rfl⟩

end Sys2Proof.Numbers
end

section
/-! Results with flags (family 05): an instruction delivers the results of its lanes with their flags, or takes `FP_TRAP` (R82). -/

namespace Sys2Proof.Numbers

open Machine Laws Claims

/-! ## What delivering answers (R82) -/

theorem deliver_done {is : Issue} {s : State} {rs : List (Nat × Nat × Flags)} {write : Ctx → Ctx}
    (clear : enabledFlags is.c.special.fpctl (raised rs) = 0) :
    deliver is s rs write = .done (s.setCtx is.id ((write is.c).postFlags (raised rs))) :=
  if_neg (by simpa [raised] using clear)

theorem deliver_trap {is : Issue} {s : State} {rs : List (Nat × Nat × Flags)} {write : Ctx → Ctx}
    (enabled : enabledFlags is.c.special.fpctl (raised rs) ≠ 0) :
    deliver is s rs write =
      .trap (s.setCtx is.id (is.c.postFlags (raised rs))) (fpTrapAt (trappingLanes is.c.special.fpctl rs)) :=
  if_pos (by simpa [raised] using enabled)

/-! ## What the instructions with flags run (R163 to R170, R107) -/

/-- A destination that is written in lanes: registers of `v`, or a lane predicate. -/
def laneUse (u : Use) : Prop :=
  match u with
  | .v n _ => 0 < n
  | .pDst => True
  | _ => False

theorem regs_pos (t : Ty) : 0 < t.regs := by cases t <;> decide

/-- Every instruction of `ForFloats` runs a vector operation with flags: what holds of all such operations holds of it. -/
theorem forFloats_of_runs {P : Instr → Form → Nat → (Ctx → Nat → Nat × Flags) → Prop}
    (h : ∀ {i form bytes} (value : Ctx → Nat → Nat × Flags), (∀ s, exec i s = vectorFp form bytes value s) →
      laneUse form.dst.use → P i form bytes value) : ForFloats P := by
  have wide : ∀ {i : Instr} {form : Form} {bytes : Nat} (value : Ctx → Nat → Nat × Flags) {t : Ty},
      (∀ s, exec i s = vectorFp form bytes value s) → form.dst.use = .vOf t → P i form bytes value :=
    fun value t runs use => h value runs (use ▸ regs_pos t)
  refine ⟨⟨fun f => ?_, fun f => ?_⟩, fun f => ?_, fun f => ?_⟩
  · exact ⟨wide _ (fun _ => rfl) rfl, wide _ (fun _ => rfl) rfl, wide _ (fun _ => rfl) rfl, wide _ (fun _ => rfl) rfl,
      wide _ (fun _ => rfl) rfl, wide _ (fun _ => rfl) rfl, wide _ (fun _ => rfl) rfl, wide _ (fun _ => rfl) rfl,
      wide _ (fun _ => rfl) rfl, wide _ (fun _ => rfl) rfl⟩
  · exact ⟨wide _ (fun _ => rfl) rfl, wide _ (fun _ => rfl) rfl, wide _ (fun _ => rfl) rfl, wide _ (fun _ => rfl) rfl,
      wide _ (fun _ => rfl) rfl, wide _ (fun _ => rfl) rfl⟩
  · exact ⟨wide _ (fun _ => rfl) rfl, wide _ (fun _ => rfl) rfl, h _ (fun _ => rfl) trivial, wide _ (fun _ => rfl) rfl,
      wide _ (fun _ => rfl) rfl, wide _ (fun _ => rfl) rfl, wide _ (fun _ => rfl) rfl, wide _ (fun _ => rfl) rfl,
      wide _ (fun _ => rfl) rfl, h _ (fun _ => rfl) Nat.one_pos, wide _ (fun _ => rfl) rfl⟩
  · exact ⟨wide _ (fun _ => rfl) rfl, wide _ (fun _ => rfl) rfl⟩

section Runs

variable {i : Instr} {form : Form} {bytes : Nat} {value : Ctx → Nat → Nat × Flags}
  (runs : ∀ s, exec i s = vectorFp form bytes value s)
include runs

/-- An operation with flags delivers the results of the lanes in which it acts. -/
theorem exec_eq_deliver {s : State} {is : Issue} (reaches : Reaches form bytes [] s is) :
    exec i s = .next (Res.finish is.id is.i is.next (deliver is s (results is (value is.c)) fun c =>
      (results is (value is.c)).foldl (fun c r => form.writeDst c r.1 (BitVec.ofNat 64 r.2.1)) c)) :=
  (runs s).trans (issue_reaches reaches)

theorem fpResult_of_runs : FpResult i form bytes value := by
  intro s is reaches rs clear
  exact ⟨rfl, by rw [exec_eq_deliver runs reaches, deliver_done clear]⟩

theorem fpTraps_of_runs : FpTraps i form bytes value := by
  intro s is reaches rs enabled
  rw [exec_eq_deliver runs reaches, deliver_trap enabled]
  rfl

end Runs

/-! ## A result of the whole split (R362) -/

theorem mem_lanesOf {m : LaneMask} {l : Nat} : l ∈ lanesOf m ↔ m.getLsbD l = true := by
  simp only [lanesOf, List.mem_filter, List.mem_range, and_iff_right_iff_imp]
  exact BitVec.lt_of_getLsbD

theorem getLsbD_laneBit (l j : Nat) : (laneBit l).getLsbD j = (decide (j < 64) && decide (j = l)) := by
  rw [laneBit, BitVec.getLsbD_shiftLeft, BitVec.getLsbD_one]
  grind

/-- A set of listed lanes has the bits of its members. -/
theorem getLsbD_laneSet (ls : List Nat) (j : Nat) : (laneSet ls).getLsbD j = (decide (j < 64) && decide (j ∈ ls)) := by
  have fold : ∀ m : LaneMask, (ls.foldl (fun m l => m ||| laneBit l) m).getLsbD j
      = (m.getLsbD j || (decide (j < 64) && decide (j ∈ ls))) := by
    induction ls with
    | nil => simp
    | cons l ls ih =>
      intro m
      rw [List.foldl_cons, ih, BitVec.getLsbD_or, getLsbD_laneBit]
      grind
  simpa [laneSet] using fold 0

/-- The set of the lanes of a mask is the mask. -/
theorem laneSet_lanesOf (m : LaneMask) : laneSet (lanesOf m) = m := by
  refine BitVec.eq_of_getLsbD_eq fun l hl => ?_
  simp only [getLsbD_laneSet, mem_lanesOf, hl, decide_true, Bool.true_and, Bool.decide_eq_true]

theorem lanesOf_ne_nil {m : LaneMask} (h : m ≠ 0) : lanesOf m ≠ [] := fun none => by
  refine h (BitVec.eq_of_getLsbD_eq fun l _ => ?_)
  have := mem_lanesOf (m := m) (l := l)
  simpa [none] using this

/-- The same flags of each of some lanes are together those flags. -/
theorem raised_same {ls : List Nat} (h : ls ≠ []) (fl : Flags) : raised (ls.map fun l => (l, 0, fl)) = fl := by
  have fold : ∀ (ls : List Nat) (m : Flags), (ls.map fun l => (l, 0, fl)).foldl (fun m (r : Nat × Nat × Flags) => m ||| r.2.2) (m ||| fl)
      = m ||| fl := by
    intro ls
    induction ls with
    | nil => simp
    | cons l ls ih =>
      intro m
      rw [List.map_cons, List.foldl_cons, BitVec.or_assoc, BitVec.or_self]
      exact ih m
  cases ls with
  | nil => exact absurd rfl h
  | cons l ls => simpa [raised] using fold ls 0

/-- An enabled flag of the split's result makes every lane in which it acts a failing one. -/
theorem trappingLanes_same {fpctl : Word} {fl : Flags} (enabled : enabledFlags fpctl fl ≠ 0) (m : LaneMask) :
    trappingLanes fpctl ((lanesOf m).map fun l => (l, 0, fl)) = m := by
  have all : ((lanesOf m).map fun l => (l, 0, fl)).filter (fun r : Nat × Nat × Flags => enabledFlags fpctl r.2.2 != 0)
      = (lanesOf m).map fun l => (l, 0, fl) := by
    simpa [List.filter_eq_self] using fun l _ => enabled
  rw [trappingLanes, all, List.map_map]
  exact (congrArg laneSet (List.map_id _)).trans (laneSet_lanesOf m)

/-- A result of the whole split with an enabled flag is not written. -/
theorem deliverSplit_trap {is : Issue} {s : State} {fl : Flags} {write : Ctx → Ctx} (acts : is.acting ≠ 0)
    (enabled : enabledFlags is.c.special.fpctl fl ≠ 0) :
    deliverSplit is s fl write = .trap (s.setCtx is.id (is.c.postFlags fl)) (fpTrapAt is.acting) := by
  have together := raised_same (lanesOf_ne_nil acts) fl
  rw [deliverSplit, deliver_trap (by rwa [together]), together, trappingLanes_same enabled]

/-- Settles O4: each instruction with flags delivers the results of its lanes. -/
theorem floatResults : Obligations.FloatResults := forFloats_of_runs fun _ runs _ => fpResult_of_runs runs

/-- Settles O5: an enabled flag makes the delivery a trap. -/
theorem floatTrapsWriteNothing : Obligations.FloatTrapsWriteNothing := by
  refine ⟨forFloats_of_runs fun _ runs _ => fpTraps_of_runs runs, fun f s is => ⟨fun reaches => ?_, fun reaches => ?_⟩⟩
  · intro lanes r enabled
    rw [show exec (.redux f) s = execRedux f s from rfl, execRedux]
    dsimp only
    rw [issue_reaches reaches, deliverSplit_trap reaches.acts enabled]
    rfl
  · intro r enabled
    rw [show exec (.scan f) s = execScan f s from rfl, execScan]
    dsimp only
    rw [issue_reaches reaches, deliverSplit_trap reaches.acts enabled]
    rfl

end Sys2Proof.Numbers
end

section
/-! The frame of the instructions with one destination (family 05): what writing a destination field leaves of a context, and what an
instruction that answers with nothing else leaves of the state (R73, R97, R105, R129, R158). -/

namespace Sys2Proof.Numbers

open Machine Laws Claims

/-! ## A destination is written -/

/-- From c to d at most the destination of a form has changed, in the lanes of a mask. -/
structure WritesDst (form : Form) (acting : LaneMask) (c d : Ctx) : Prop where
  vregs : ∀ n l, n < 256 → l < 64 → locV n l ∉ form.dst.locs acting →
    d.vreg n l = c.vreg n l ∧ d.fills.look (locV n l) = c.fills.look (locV n l)
  sregs : ∀ n, n < 64 → locS n ∉ form.dst.locs acting → d.s n = c.s n ∧ d.fills.look (locS n) = c.fills.look (locS n)
  preds : ∀ n, form.dst.use ≠ .pDst ∨ n ≠ form.dst.num → d.pred n = c.pred n
  lanes : ∀ n l, acting.getLsbD l = false → (d.pred n).getLsbD l = (c.pred n).getLsbD l
  kpreds : ∀ n, form.dst.use ≠ .kDst ∨ n ≠ form.dst.num → d.kpred n = c.kpred n
  rest : ∃ v sreg p k fills, d = { c with v := v, sreg := sreg, p := p, k := k, fills := fills }

section Writes

variable {form : Form} {acting : LaneMask} {c d e : Ctx}

theorem WritesDst.refl : WritesDst form acting c c :=
  ⟨fun _ _ _ _ _ => ⟨rfl, rfl⟩, fun _ _ _ => ⟨rfl, rfl⟩, fun _ _ => rfl, fun _ _ _ => rfl, fun _ _ => rfl, _, _, _, _, _, rfl⟩

theorem WritesDst.trans (h : WritesDst form acting c d) (g : WritesDst form acting d e) : WritesDst form acting c e where
  vregs n l hn hl out := ⟨(g.vregs n l hn hl out).1.trans (h.vregs n l hn hl out).1, (g.vregs n l hn hl out).2.trans (h.vregs n l hn hl out).2⟩
  sregs n hn out := ⟨(g.sregs n hn out).1.trans (h.sregs n hn out).1, (g.sregs n hn out).2.trans (h.sregs n hn out).2⟩
  preds n hn := (g.preds n hn).trans (h.preds n hn)
  lanes n l hl := (g.lanes n l hl).trans (h.lanes n l hl)
  kpreds n hn := (g.kpreds n hn).trans (h.kpreds n hn)
  rest := by
    obtain ⟨v, sreg, p, k, fills, rfl⟩ := h.rest
    obtain ⟨v', sreg', p', k', fills', rfl⟩ := g.rest
    exact ⟨v', sreg', p', k', fills', rfl⟩

/-- A word written at a location of `v` or `s` leaves every other one. -/
theorem v_writeLoc_ne (c : Ctx) {k j : Nat} (w : Word) (h : j ≠ k) : (c.writeLoc k w).v.at 0 j = c.v.at 0 j := by
  unfold Ctx.writeLoc
  split
  · exact at_put_ne _ _ _ h
  · rfl

theorem s_writeLoc_ne (c : Ctx) {k n : Nat} (w : Word) (h : locS n ≠ k) : (c.writeLoc k w).s n = c.s n := by
  unfold Ctx.writeLoc locS at *
  split
  · rfl
  · exact (s_setS c (k - 16384) n w).trans (if_neg (by omega))

theorem writesDst_writeLoc {k : Nat} {w : Word} (named : k ∈ form.dst.locs acting) :
    WritesDst form acting c (c.writeLoc k w) where
  vregs n l _ _ out := by
    have other : locV n l ≠ k := fun same => out (same ▸ named)
    exact ⟨v_writeLoc_ne c w other, by simp [other]⟩
  sregs n _ out := by
    have other : locS n ≠ k := fun same => out (same ▸ named)
    exact ⟨s_writeLoc_ne c w other, by simp [other]⟩
  preds _ _ := by rw [writeLoc_rest]; rfl
  lanes _ _ _ := by rw [writeLoc_rest]; rfl
  kpreds _ _ := by rw [writeLoc_rest]; rfl
  rest := ⟨_, _, _, _, _, writeLoc_rest c k w⟩

/-- A scalar predicate is written alone. -/
theorem kpred_setK_ne (c : Ctx) {n m : Nat} (b : Bool) (h : m ≠ n) : (c.setK n b).kpred m = c.kpred m := by
  have far : (1#8 <<< n).getLsbD m = false := by
    rw [BitVec.getLsbD_shiftLeft, BitVec.getLsbD_one]
    grind
  have bit : (c.setK n b).k.getLsbD m = c.k.getLsbD m := by
    by_cases inside : m < 8
    · cases b
      · simp only [Ctx.setK, Bool.false_eq_true, if_false, BitVec.getLsbD_and, BitVec.getLsbD_not, far, inside, decide_true,
          Bool.not_false, Bool.and_true]
      · simp only [Ctx.setK, if_true, BitVec.getLsbD_or, far, Bool.or_false]
    · rw [BitVec.getLsbD_of_ge _ _ (by omega), BitVec.getLsbD_of_ge _ _ (by omega)]
  rw [Ctx.kpred, Ctx.kpred, bit]

theorem writesDst_setK {b : Bool} (use : form.dst.use = .kDst) : WritesDst form acting c (c.setK form.dst.num b) where
  vregs _ _ _ _ _ := ⟨rfl, rfl⟩
  sregs _ _ _ := ⟨rfl, rfl⟩
  preds _ _ := rfl
  lanes _ _ _ := rfl
  kpreds _ other := kpred_setK_ne c b (other.resolve_left (· use))
  rest := ⟨_, _, _, _, _, rfl⟩

theorem pred_setPred_ne (c : Ctx) {n m : Nat} (mask bits : LaneMask) (h : m ≠ n) : (c.setPred n mask bits).pred m = c.pred m := by
  rw [Ctx.pred, Ctx.pred, Ctx.setPred, at_put_ne _ _ _ h]

/-- A lane predicate keeps its bits outside the mask. -/
theorem pred_setPred_outside (c : Ctx) {n m l : Nat} {mask bits : LaneMask} (h : mask.getLsbD l = false) :
    ((c.setPred n mask bits).pred m).getLsbD l = (c.pred m).getLsbD l := by
  by_cases zero : n = 0
  · subst zero
    by_cases same : m = 0
    · rw [same, pred_zero, pred_zero]
    · rw [pred_setPred_ne c mask bits same]
  · rw [pred_setPred c n m mask bits zero]
    split
    · rename_i same
      by_cases inside : l < 64
      · simp only [same, BitVec.getLsbD_or, BitVec.getLsbD_and, BitVec.getLsbD_not, h, inside, decide_true, Bool.not_false,
          Bool.and_true, Bool.and_false, Bool.or_false]
      · rw [BitVec.getLsbD_of_ge _ _ (by omega), BitVec.getLsbD_of_ge _ _ (by omega)]
    · rfl

theorem writesDst_setPred {l : Nat} {bits : LaneMask} (use : form.dst.use = .pDst) (acts : acting.getLsbD l = true) :
    WritesDst form acting c (c.setPred form.dst.num (laneBit l) bits) where
  vregs _ _ _ _ _ := ⟨rfl, rfl⟩
  sregs _ _ _ := ⟨rfl, rfl⟩
  preds _ other := pred_setPred_ne c _ _ (other.resolve_left (· use))
  lanes n j still := by
    have other : j ≠ l := fun same => by simp [same, acts] at still
    exact pred_setPred_outside c (by simp [getLsbD_laneBit, other])
  kpreds _ _ := rfl
  rest := ⟨_, _, _, _, _, rfl⟩

/-- The use names no location outside the lanes of a mask when it is written in a lane: a lane of `v` and of a lane predicate is one
of the mask, and a use of registers names one. -/
def takes (u : Use) (acting : LaneMask) (l : Nat) : Prop :=
  match u with
  | .v n _ => 0 < n ∧ acting.getLsbD l = true
  | .s n _ => 0 < n
  | .pDst => acting.getLsbD l = true
  | _ => True

theorem writesDst_writeAt {scalar wide : Bool} {n l : Nat} {x : DWord} (low : locAt scalar n l ∈ form.dst.locs acting)
    (high : wide = true → locAt scalar (n + 1) l ∈ form.dst.locs acting) :
    WritesDst form acting c (c.writeAt scalar wide n l x) := by
  unfold Ctx.writeAt
  dsimp only
  split
  · exact (writesDst_writeLoc low).trans (writesDst_writeLoc (high ‹_›))
  · exact writesDst_writeLoc low

/-- The destination field is written at its own locations. -/
theorem writesDst_writeDst {l : Nat} {x : DWord} (h : takes form.dst.use acting l) :
    WritesDst form acting c (form.writeDst c l x) := by
  unfold Form.writeDst
  split
  · rename_i n a use
    rw [use] at h
    obtain ⟨pos, acts⟩ := h
    have named : ∀ i < n, locAt false (form.dst.num + i) l ∈ form.dst.locs acting := by
      intro i hi
      simp only [Field.locs, use, locsOf, Bool.false_eq_true, if_false, List.mem_flatMap, List.mem_range, List.mem_map, mem_lanesOf]
      exact ⟨i, hi, l, acts, rfl⟩
    exact writesDst_writeAt (named 0 pos) fun wide => named 1 (by simp at wide; omega)
  · rename_i n a use
    rw [use] at h
    have named : ∀ i < n, locAt true (form.dst.num + i) l ∈ form.dst.locs acting := by
      intro i hi
      simp only [Field.locs, use, locsOf, if_true, tabulate, List.mem_map, List.mem_range]
      exact ⟨i, hi, rfl⟩
    exact writesDst_writeAt (named 0 h) fun wide => named 1 (by simp at wide; omega)
  · exact writesDst_setK ‹_›
  · rename_i use
    rw [use] at h
    exact writesDst_setPred use h
  · exact .refl

theorem takes_of_laneUse {u : Use} {l : Nat} (h : laneUse u) (acts : acting.getLsbD l = true) : takes u acting l := by
  cases u with
  | v n a => exact ⟨h, acts⟩
  | pDst => exact acts
  | _ => exact h.elim

/-- Writing results of lanes of the mask one after another writes the destination alone. -/
theorem writesDst_foldl {α : Type} {ls : List α} {lane : α → Nat} {value : α → DWord} (use : laneUse form.dst.use)
    (acts : ∀ a ∈ ls, acting.getLsbD (lane a) = true) :
    WritesDst form acting c (ls.foldl (fun c a => form.writeDst c (lane a) (value a)) c) := by
  induction ls generalizing c with
  | nil => exact .refl
  | cons a ls ih =>
    exact (writesDst_writeDst (takes_of_laneUse use (acts a (by simp)))).trans (ih fun b hb => acts b (by simp [hb]))

theorem writesDst_writeLanes {value : Nat → DWord} (use : laneUse form.dst.use) :
    WritesDst form acting c (form.writeLanes c acting value) :=
  writesDst_foldl (lane := id) use fun _ hl => mem_lanesOf.1 hl

end Writes

/-! ## What stays of the state -/

theorem issuer_look {s : State} {id i : Nat} {c : Ctx} {sp : Split} (h : s.issuer = some (id, i, c, sp)) :
    s.ctxs.look id = some c ∧ c.splits.look i = some sp := by
  simp only [State.issuer, Option.bind_eq_some_iff, Option.map_eq_some_iff, Prod.mk.injEq] at h
  obtain ⟨_, _, c, look, sp, split, rfl, rfl, rfl, rfl⟩ := h
  exact ⟨look, split⟩

theorem postFlags_zero (c : Ctx) : c.postFlags 0 = c := by simp [Ctx.postFlags]

/-- The issuing context after an answer that has written it: the program counter has advanced and event 2 is counted (R93, R140). -/
theorem finish_setCtx (s : State) (id i : Nat) (next : DWord) (d : Ctx) :
    (Res.finish id i next (.done (s.setCtx id d))).ctxs.look id
      = some (({ d with splits := d.splits.modify i fun sp => { sp with pc := next } } : Ctx).count 2 0 1)
    ∧ ∀ j, j ≠ id → (Res.finish id i next (.done (s.setCtx id d))).ctxs.look j = s.ctxs.look j := by
  constructor
  · simp [Res.finish, State.advance, State.issued, State.countEvent, State.modSplit]
  · intro j other
    simp [Res.finish, State.advance, State.issued, State.countEvent, State.modSplit, other]

/-- An answer that has written the destination and posted flags leaves the rest. -/
theorem keepsTheRest_of_writesDst {form : Form} {s : State} {is : Issue} {d : Ctx} (next : DWord) (fl : Flags)
    (issuer : s.issuer = some (is.id, is.i, is.c, is.sp)) (written : WritesDst form is.acting is.c d) :
    KeepsTheRest form is s (Res.finish is.id is.i next (.done (s.setCtx is.id (d.postFlags fl)))) := by
  obtain ⟨own, others⟩ := finish_setCtx s is.id is.i next (d.postFlags fl)
  obtain ⟨-, split⟩ := issuer_look issuer
  refine ⟨rfl, fun _ => rfl, others, _, own, written.vregs, written.sregs, written.preds, written.lanes, written.kpreds, ?_⟩
  obtain ⟨v, sreg, p, k, fills, rfl⟩ := written.rest
  refine ⟨⟨next, ?_⟩, fun j other => ?_, ⟨fl, rfl⟩, rfl⟩
  · simp [Ctx.count, Ctx.postFlags, look_modify, split]
  · simp [Ctx.count, Ctx.postFlags, look_modify, other]

/-! ## The instructions -/

/-- Where an instruction reaches its own part, it answers with the destination of the form written in its context and nothing else,
whatever number of bytes is assumed of it. -/
def AnswersDst (i : Instr) (form : Form) : Prop :=
  ∀ (s : State) (is : Issue) (bytes : Nat), Reaches form bytes [] s is →
    ∃ next d, exec i s = .next (Res.finish is.id is.i next (.done (s.setCtx is.id d))) ∧ WritesDst form is.acting is.c d

theorem answersDst_of_issue {i : Instr} {form : Form} {own : Nat} {update : Issue → State → Ctx}
    (runs : ∀ s, exec i s = issue form own (fun is s => .done (s.setCtx is.id (update is s))) s)
    (writes : ∀ is s, WritesDst form is.acting is.c (update is s)) : AnswersDst i form := by
  rintro s is bytes ⟨issuer, acting, -, exist, acts, full, free⟩
  let js : Issue := { is with next := is.sp.pc + BitVec.ofNat 64 own }
  have reaches : Reaches form own [] s js := ⟨issuer, acting, rfl, exist, acts, full, free⟩
  exact ⟨js.next, update js s, (runs s).trans (issue_reaches reaches), writes js s⟩

theorem answersDst_of_scalarMeaning {i : Instr} {form : Form} {bytes : Nat} {op : DWord → DWord → DWord → DWord}
    (h : scalarMeaning i = some (form, bytes, op)) (use : ∀ m, takes form.dst.use m 0) : AnswersDst i form :=
  answersDst_of_issue (update := fun is _ => form.writeDst is.c 0 (op (form.arg is.c 1 0) (form.arg is.c 2 0) (form.arg is.c 3 0)))
    (exec_scalarMeaning h) fun _ _ => writesDst_writeDst (use _)

theorem answersDst_of_laneMeaning {i : Instr} {form : Form} {bytes : Nat} {op : (Nat → DWord) → DWord}
    (h : laneMeaning i = some (form, bytes, op)) (use : laneUse form.dst.use) : AnswersDst i form :=
  answersDst_of_issue (update := fun is _ => form.writeLanes is.c is.acting fun l => op fun n => form.arg is.c n l)
    (exec_laneMeaning h) fun _ _ => writesDst_writeLanes use

/-- `rdsr` writes an `s` register once, or a `v` register in every acting lane (R139). -/
theorem answersDst_rdsr (f : XC) : AnswersDst (.rdsr f) (formRdsr f) := by
  refine answersDst_of_issue (fun s => by unfold exec execRdsr; rfl) fun is s => ?_
  have use : (formRdsr f).dst.use = .kind (f.h.src2 == 0) (if wideSpecial f.imm.toNat then 2 else 1) := rfl
  have pos : 0 < if wideSpecial f.imm.toNat then 2 else 1 := by split <;> decide
  dsimp only
  by_cases scalar : f.h.src2 = 0
  · rw [beq_iff_eq.2 scalar] at use
    rw [if_pos scalar]
    exact writesDst_writeDst (by rw [use]; exact pos)
  · rw [beq_eq_false_iff_ne.2 scalar] at use
    rw [if_neg scalar]
    exact writesDst_writeLanes (by rw [use]; exact pos)

/-- The instructions of the list write their destination alone. -/
theorem answersDst_of_writesOnlyBits {i : Instr} {form : Form} (has : i.form = some form) (listed : writesOnlyBits i = true) :
    AnswersDst i form := by
  cases i with
  | saddB32Base f | ssubB32Base f | smulB32Base f | sandB32Base f | sorB32Base f | sxorB32Base f | sshlB32Base f
  | sshrB32Base f | smovB32Base f | sadd f | ssub f | smul f | smulh f | smad f | sdiv f | srem f | smin f | smax f
  | sand f | sor f | sxor f | sshl f | sshr f | ssra f | sbfx f | spopc f | sclz f | sctz f | smov f | sli f =>
    obtain rfl := Option.some.inj has
    exact answersDst_of_scalarMeaning rfl fun _ => regs_pos _
  | scmp f =>
    obtain rfl := Option.some.inj has
    exact answersDst_of_scalarMeaning rfl fun _ => trivial
  | addB32Base f | subB32Base f | mulB32Base f | andB32Base f | orB32Base f | xorB32Base f | shlB32Base f | shrB32Base f
  | sraB32Base f | minS32Base f | maxS32Base f | movB32Base f | addB32VsBase f | add f | sub f | mul f | mulh f | mad f
  | min f | max f | abs f | and f | or f | xor f | shl f | shr f | sra f | bfx f | popc f | clz f | brev f | mov f =>
    obtain rfl := Option.some.inj has
    exact answersDst_of_laneMeaning rfl (regs_pos _)
  | cmp f =>
    obtain rfl := Option.some.inj has
    exact answersDst_of_laneMeaning rfl trivial
  | sbfi f =>
    obtain rfl := Option.some.inj has
    exact answersDst_of_issue (fun s => by unfold exec execSbfi; rfl) fun _ _ => writesDst_writeDst (regs_pos _)
  | ssel f =>
    obtain rfl := Option.some.inj has
    exact answersDst_of_issue (fun s => by unfold exec execSsel; rfl) fun _ _ => writesDst_writeDst (regs_pos _)
  | kop f =>
    obtain rfl := Option.some.inj has
    exact answersDst_of_issue (fun s => by unfold exec execKop; rfl) fun _ _ => writesDst_writeDst trivial
  | rdsr f =>
    obtain rfl := Option.some.inj has
    exact answersDst_rdsr f
  | bfi f =>
    obtain rfl := Option.some.inj has
    exact answersDst_of_issue (fun s => by unfold exec execBfi vectorOp; rfl) fun _ _ => writesDst_writeLanes (regs_pos _)
  | sel f =>
    obtain rfl := Option.some.inj has
    exact answersDst_of_issue (fun s => by unfold exec execSel vectorOp; rfl) fun _ _ => writesDst_writeLanes (regs_pos _)
  | fclass f =>
    obtain rfl := Option.some.inj has
    exact answersDst_of_issue (fun s => by unfold exec execFclass vectorOp; rfl) fun _ _ => writesDst_writeLanes (regs_pos _)
  | shflIdx f =>
    obtain rfl := Option.some.inj has
    exact answersDst_of_issue (fun s => by unfold exec execShflIdx shuffle; rfl) fun _ _ => writesDst_writeLanes (regs_pos _)
  | shflUp f =>
    obtain rfl := Option.some.inj has
    exact answersDst_of_issue (fun s => by unfold exec execShflUp shuffle; rfl) fun _ _ => writesDst_writeLanes (regs_pos _)
  | shflDown f =>
    obtain rfl := Option.some.inj has
    exact answersDst_of_issue (fun s => by unfold exec execShflDown shuffle; rfl) fun _ _ => writesDst_writeLanes (regs_pos _)
  | shflXor f =>
    obtain rfl := Option.some.inj has
    exact answersDst_of_issue (fun s => by unfold exec execShflXor shuffle; rfl) fun _ _ => writesDst_writeLanes (regs_pos _)
  | voteBallot f =>
    obtain rfl := Option.some.inj has
    exact answersDst_of_issue (fun s => by unfold exec execVoteBallot vote; rfl) fun _ _ => writesDst_writeDst Nat.two_pos
  | voteAny f =>
    obtain rfl := Option.some.inj has
    exact answersDst_of_issue (fun s => by unfold exec execVoteAny vote; rfl) fun _ _ => writesDst_writeDst trivial
  | voteAll f =>
    obtain rfl := Option.some.inj has
    exact answersDst_of_issue (fun s => by unfold exec execVoteAll vote; rfl) fun _ _ => writesDst_writeDst trivial
  | voteUni f =>
    obtain rfl := Option.some.inj has
    exact answersDst_of_issue (fun s => by unfold exec execVoteUni vote; rfl) fun _ _ => writesDst_writeDst trivial
  | _ => cases listed

/-- A vector operation with flags, of which none that it raises is enabled, changes its destination and the flags alone. -/
theorem fpKeeps_of_runs {i : Instr} {form : Form} {bytes : Nat} {value : Ctx → Nat → Nat × Flags}
    (runs : ∀ s, exec i s = vectorFp form bytes value s) (use : laneUse form.dst.use) : FpKeeps i form bytes value := by
  intro s is reaches clear
  rw [exec_eq_deliver runs reaches, deliver_done clear]
  refine ⟨_, rfl, keepsTheRest_of_writesDst _ _ reaches.issuer (writesDst_foldl (lane := Prod.fst) use fun r hr => ?_)⟩
  obtain ⟨l, hl, rfl⟩ := List.mem_map.1 hr
  exact mem_lanesOf.1 hl

/-- Settles O57: an instruction answers with its destination written, and the answer's being carried out leaves the rest. -/
theorem registerInstructionsKeepTheRest : Obligations.RegisterInstructionsKeepTheRest := by
  refine ⟨fun i form bytes s is has reaches listed => ?_, forFloats_of_runs fun _ => fpKeeps_of_runs⟩
  obtain ⟨next, d, answer, written⟩ := answersDst_of_writesOnlyBits has listed s is bytes reaches
  have kept := keepsTheRest_of_writesDst next 0 reaches.issuer written
  rw [postFlags_zero] at kept
  refine ⟨_, _, answer, kept, (finish_setCtx s is.id is.i next d).1, ?_⟩
  obtain ⟨v, sreg, p, k, fills, rfl⟩ := written.rest
  rfl

end Sys2Proof.Numbers
end


section
/-! Rounding (family 05): the patterns of a format in the order of their magnitudes, and one rounding step of the model as the choice
between two neighbours (R71, R76). -/

namespace Sys2Proof.Numbers

open Machine Laws Claims

/-! ## Magnitudes (R71) -/

/-- A format has an exponent and a fraction field of at least two bits, as every format of the machine has. -/
def Wide (f : Fmt) : Prop := 2 ≤ f.ebits ∧ 2 ≤ f.fbits

theorem wide_fmt (t : Ty) : Wide t.fmt := by cases t <;> exact ⟨by decide, by decide⟩

/-- The magnitude of a pattern without its sign, as if no exponent were too large: from 2·2^`fbits` on, each 2^`fbits` patterns double
the step. -/
def magnitude (f : Fmt) (p : ℕ) : ℚ :=
  (p - (max (p / 2 ^ f.fbits) 1 - 1) * 2 ^ f.fbits : ℕ) * (2 : ℚ) ^ ((max (p / 2 ^ f.fbits) 1 - 1 : ℕ) + f.emin - f.fbits)

theorem two_zpow_pos (n : ℤ) : (0 : ℚ) < 2 ^ n := by positivity

theorem two_zpow_add (m n : ℤ) : (2 : ℚ) ^ (m + n) = 2 ^ m * 2 ^ n := zpow_add₀ two_ne_zero m n

theorem two_zpow_eq {e d : ℤ} {n : ℕ} (h : e = n + d) : (2 : ℚ) ^ e = (2 ^ n : ℕ) * 2 ^ d := by
  rw [h, two_zpow_add, zpow_natCast]
  norm_num

/-- The magnitude of the q-th pattern of the k-th binade from the subnormal numbers on; the first of the next one is the last of these. -/
theorem magnitude_eq (f : Fmt) {k q : ℕ} (normal : k = 0 ∨ 2 ^ f.fbits ≤ q) (h : q ≤ 2 ^ (f.fbits + 1)) :
    magnitude f (k * 2 ^ f.fbits + q) = q * (2 : ℚ) ^ (k + f.emin - f.fbits) := by
  unfold magnitude
  have pos : 0 < 2 ^ f.fbits := Nat.two_pow_pos _
  rw [pow_succ] at h
  generalize 2 ^ f.fbits = B at *
  have quot : (k * B + q) / B = k + q / B := by rw [add_comm, Nat.add_mul_div_right _ _ pos, add_comm]
  rw [quot]
  rcases Nat.lt_or_ge q B with small | large
  · obtain rfl : k = 0 := normal.resolve_right (by omega)
    simp [Nat.div_eq_of_lt small]
  · rcases Nat.lt_or_ge q (2 * B) with inside | last
    · have one : q / B = 1 := Nat.div_eq_of_lt_le (by omega) (by omega)
      simp [one]
    · obtain rfl : q = 2 * B := by omega
      have two : 2 * B / B = 2 := Nat.mul_div_cancel _ pos
      have left : k * B + 2 * B - (k + 1) * B = B := by rw [← add_mul, ← Nat.sub_mul]; simp
      have twice : ((k + 1 : ℕ) : ℤ) + f.emin - f.fbits = 1 + (k + f.emin - f.fbits) := by push_cast; ring
      rw [two, show max (k + 2) 1 - 1 = k + 1 by omega, left, twice, two_zpow_add]
      push_cast
      ring

/-- Every pattern stands at one place of one binade. -/
theorem exists_binade (f : Fmt) (p : ℕ) :
    ∃ k q, p = k * 2 ^ f.fbits + q ∧ (k = 0 ∨ 2 ^ f.fbits ≤ q) ∧ q < 2 ^ (f.fbits + 1) := by
  have pos : 0 < 2 ^ f.fbits := Nat.two_pow_pos _
  have split := Nat.div_add_mod p (2 ^ f.fbits)
  have rest := Nat.mod_lt p pos
  rw [pow_succ]
  generalize 2 ^ f.fbits = B at *
  rcases Nat.eq_zero_or_pos (p / B) with zero | some
  · exact ⟨0, p, by simp, .inl rfl, by rw [zero] at split; omega⟩
  · refine ⟨p / B - 1, B + p % B, ?_, .inr (by omega), by omega⟩
    obtain ⟨e, he⟩ := Nat.exists_eq_succ_of_ne_zero some.ne'
    rw [he] at split ⊢
    simp only [Nat.succ_eq_add_one, Nat.add_sub_cancel]
    linarith [split, mul_comm B e]

/-- The step from a pattern to the next is that of its binade. -/
theorem magnitude_succ (f : Fmt) {k q : ℕ} (normal : k = 0 ∨ 2 ^ f.fbits ≤ q) (h : q < 2 ^ (f.fbits + 1)) :
    magnitude f (k * 2 ^ f.fbits + q + 1) = (q + 1) * (2 : ℚ) ^ (k + f.emin - f.fbits) := by
  rw [add_assoc, magnitude_eq f (normal.imp_right fun le => by omega) h]
  push_cast
  rfl

theorem magnitude_strictMono (f : Fmt) : StrictMono (magnitude f) := by
  refine strictMono_nat_of_lt_succ fun p => ?_
  obtain ⟨k, q, rfl, normal, h⟩ := exists_binade f p
  rw [magnitude_eq f normal h.le, magnitude_succ f normal h]
  exact mul_lt_mul_of_pos_right (by linarith) (two_zpow_pos _)

@[simp] theorem magnitude_zero (f : Fmt) : magnitude f 0 = 0 := by simp [magnitude]

theorem magnitude_nonneg (f : Fmt) (p : ℕ) : 0 ≤ magnitude f p :=
  (magnitude_zero f).symm.trans_le ((magnitude_strictMono f).monotone p.zero_le)

/-- The smallest normal magnitude. -/
theorem magnitude_two_pow (f : Fmt) : magnitude f (2 ^ f.fbits) = 2 ^ f.emin := by
  have h := magnitude_eq f (k := 0) (q := 2 ^ f.fbits) (.inl rfl) (Nat.pow_le_pow_right two_pos (Nat.le_succ _))
  rw [zero_mul, zero_add] at h
  rw [h, ← two_zpow_eq]
  simp

/-! ## The choice between two neighbours (R76) -/

/-- Between the neighbours `low` and `high`, of which `low` has the number q, a magnitude a rounds to the number r. -/
structure Chooses (mode : Rnd) (neg : Bool) (low high a : ℚ) (q r : ℕ) : Prop where
  le : low ≤ a
  lt : a < high
  up : low < a → RoundsUp mode neg (q % 2 == 1) low high a → r = q + 1
  down : ¬ (low < a ∧ RoundsUp mode neg (q % 2 == 1) low high a) → r = q

theorem Chooses.eq_or {mode : Rnd} {neg : Bool} {low high a : ℚ} {q r : ℕ} (h : Chooses mode neg low high a q r) :
    r = q ∨ r = q + 1 := by
  by_cases c : low < a ∧ RoundsUp mode neg (q % 2 == 1) low high a
  · exact .inr (h.up c.1 c.2)
  · exact .inl (h.down c)

/-- A lower left neighbour leaves the choice of the upper one. -/
theorem roundsUp_of_lower {mode : Rnd} {neg odd odd' : Bool} {low low' high a : ℚ} (h : RoundsUp mode neg odd low high a)
    (lower : low' < low) : RoundsUp mode neg odd' low' high a := by
  cases mode with
  | rtz | rdn | rup => exact h
  | rna =>
    have : low + high ≤ 2 * a := h
    exact show low' + high ≤ 2 * a by linarith
  | rne | dyn =>
    refine .inl ?_
    rcases h with above | ⟨tie, -⟩ <;> linarith

/-- A magnitude stands for a rational: it is m·2^e and a tail below 2^e, which is there with `more`. -/
structure Tail (x : Exact) (a t : ℚ) : Prop where
  eq : a = (x.mag + t) * (2 : ℚ) ^ x.exp
  nonneg : 0 ≤ t
  lt_one : t < 1
  more : x.more = true ↔ 0 < t

theorem exists_tail {x : Exact} {a : ℚ} (exact : x.more = false → a = x.mag * (2 : ℚ) ^ x.exp)
    (between : x.more = true → x.mag * (2 : ℚ) ^ x.exp < a ∧ a < (x.mag + 1) * (2 : ℚ) ^ x.exp) : ∃ t, Tail x a t := by
  have unit := two_zpow_pos x.exp
  cases h : x.more with
  | false => exact ⟨0, by rw [exact h, add_zero], le_rfl, one_pos, by simp [h]⟩
  | true =>
    obtain ⟨above, below⟩ := between h
    have scaled : a / 2 ^ x.exp * 2 ^ x.exp = a := div_mul_cancel₀ a unit.ne'
    have low : (x.mag : ℚ) < a / 2 ^ x.exp := (lt_div_iff₀ unit).2 above
    have high : a / 2 ^ x.exp < x.mag + 1 := (div_lt_iff₀ unit).2 below
    exact ⟨a / 2 ^ x.exp - x.mag, by rw [add_sub_cancel, scaled], by linarith, by linarith, by simp [h, low]⟩

/-- What the rounding rule of a mode asks of the remainder of a shift: `half` is half of the new unit. -/
def upRule (mode : Rnd) (neg inexact more odd : Bool) (half r : ℕ) : Bool :=
  match mode with
  | .rtz => false
  | .rdn => neg && inexact
  | .rup => !neg && inexact
  | .rna => decide (half ≤ r)
  | _ => decide (half < r) || (r == half && (more || odd))

theorem atShift_pos (x : Exact) {shift : ℤ} (mode : Rnd) (h : 0 < shift) :
    let n := shift.toNat
    let inexact := x.mag % 2 ^ n != 0 || x.more
    x.atShift shift mode = (if upRule mode x.neg inexact x.more (x.mag / 2 ^ n % 2 == 1) (2 ^ (n - 1)) (x.mag % 2 ^ n) then
      x.mag / 2 ^ n + 1 else x.mag / 2 ^ n, inexact) := by
  unfold Exact.atShift
  rw [if_neg (by omega)]
  cases mode <;> rfl

/-! ## The tail beside whole numbers -/

section Tails

variable {t : ℚ} (nonneg : 0 ≤ t) (lt_one : t < 1) (n r : ℕ)
include nonneg lt_one

theorem le_add_tail_iff : (n : ℚ) ≤ r + t ↔ n ≤ r := by
  constructor
  · intro h
    have : (n : ℚ) < (r + 1 : ℕ) := by push_cast; linarith
    exact Nat.lt_succ_iff.1 (by exact_mod_cast this)
  · intro h
    have : (n : ℚ) ≤ r := by exact_mod_cast h
    linarith

theorem eq_add_tail_iff : (n : ℚ) = r + t ↔ r = n ∧ t = 0 := by
  constructor
  · intro h
    have le : n ≤ r := (le_add_tail_iff nonneg lt_one n r).1 h.le
    have ge : (r : ℚ) ≤ n := by linarith
    obtain rfl : r = n := le_antisymm (by exact_mod_cast ge) le
    exact ⟨rfl, by linarith⟩
  · rintro ⟨rfl, rfl⟩
    simp

theorem lt_add_tail_iff : (n : ℚ) < r + t ↔ n < r ∨ (r = n ∧ 0 < t) := by
  rw [lt_iff_le_and_ne, le_add_tail_iff nonneg lt_one, Ne, eq_add_tail_iff nonneg lt_one]
  have : 0 < t ↔ ¬ t = 0 := ⟨ne_of_gt, fun h => lt_of_le_of_ne nonneg (Ne.symm h)⟩
  rw [this, le_iff_lt_or_eq]
  grind

end Tails

/-! ## One rounding step -/

theorem inexact_iff {more : Bool} {r : ℕ} {low a t w : ℚ} (pos : 0 < w) (nonneg : 0 ≤ t) (lt_one : t < 1)
    (tail : more = true ↔ 0 < t) (place : a = low + (r + t) * w) : (r != 0 || more) = true ↔ low < a := by
  have some : (0 : ℚ) < r + t ↔ 0 < r ∨ r = 0 ∧ 0 < t := by exact_mod_cast lt_add_tail_iff nonneg lt_one 0 r
  rw [place, lt_add_iff_pos_right, mul_pos_iff_of_pos_right pos, some, Bool.or_eq_true, bne_iff_ne, tail, Nat.pos_iff_ne_zero]
  tauto

/-- The rule of a mode on the remainder and the tail is the choice of the upper neighbour. -/
theorem upRule_iff {mode : Rnd} {neg more odd : Bool} {half r : ℕ} {low high a t w : ℚ} (pos : 0 < w) (half_pos : 0 < half)
    (nonneg : 0 ≤ t) (lt_one : t < 1) (tail : more = true ↔ 0 < t) (place : a = low + (r + t) * w)
    (step : high = low + 2 * half * w) :
    upRule mode neg (r != 0 || more) more odd half r = true ↔ low < a ∧ RoundsUp mode neg odd low high a := by
  have inexact := inexact_iff pos nonneg lt_one tail place
  have middle : low + high = 2 * (low + half * w) := by rw [step]; ring
  have below : low + high ≤ 2 * a ↔ half ≤ r := by
    rw [middle, mul_le_mul_iff_right₀ two_pos, place, add_le_add_iff_left, mul_le_mul_iff_left₀ pos, le_add_tail_iff nonneg lt_one]
  have above : low + high < 2 * a ↔ half < r ∨ (r = half ∧ 0 < t) := by
    rw [middle, mul_lt_mul_iff_right₀ two_pos, place, add_lt_add_iff_left, mul_lt_mul_iff_left₀ pos, lt_add_tail_iff nonneg lt_one]
  have tie : low + high = 2 * a ↔ r = half ∧ t = 0 := by
    rw [middle, mul_right_inj' two_ne_zero, place, add_right_inj, mul_left_inj' pos.ne', eq_add_tail_iff nonneg lt_one]
  have past : half ≤ r → low < a := fun h => inexact.1 (by simp [(half_pos.trans_le h).ne'])
  cases mode with
  | rtz => simp [upRule, RoundsUp]
  | rdn => rw [upRule, Bool.and_eq_true, inexact, and_comm]; rfl
  | rup => rw [upRule, Bool.and_eq_true, inexact, and_comm, Bool.not_eq_true']; rfl
  | rna =>
    rw [upRule, decide_eq_true_iff, RoundsUp, below]
    exact ⟨fun h => ⟨past h, h⟩, And.right⟩
  | rne | dyn =>
    change (decide (half < r) || (r == half && (more || odd))) = true
      ↔ low < a ∧ (low + high < 2 * a ∨ (low + high = 2 * a ∧ odd = true))
    have none : t = 0 ↔ ¬ more = true := by rw [tail, not_lt]; exact ⟨fun h => h.le, fun h => le_antisymm h nonneg⟩
    rw [above, tie, none, ← tail, Bool.or_eq_true, decide_eq_true_iff, Bool.and_eq_true, beq_iff_eq, Bool.or_eq_true]
    constructor
    · rintro (beyond | ⟨rfl, more' | odd'⟩)
      · exact ⟨past beyond.le, .inl (.inl beyond)⟩
      · exact ⟨past le_rfl, .inl (.inr ⟨rfl, more'⟩)⟩
      · by_cases more' : more = true
        · exact ⟨past le_rfl, .inl (.inr ⟨rfl, more'⟩)⟩
        · exact ⟨past le_rfl, .inr ⟨⟨rfl, more'⟩, odd'⟩⟩
    · rintro ⟨-, (beyond | ⟨half', more'⟩) | ⟨⟨half', -⟩, odd'⟩⟩
      · exact .inl beyond
      · exact .inr ⟨half', .inl more'⟩
      · exact .inr ⟨half', .inr odd'⟩

/-- A magnitude of 2^(exp + shift) units is rounded to one of the whole numbers beside it; a magnitude with a tail is shifted. -/
theorem chooses_atShift {x : Exact} {a t : ℚ} (tail : Tail x a t) (shift : ℤ) (mode : Rnd) (down : x.more = true → 0 < shift) :
    ∃ q : ℕ, Chooses mode x.neg (q * (2 : ℚ) ^ (x.exp + shift)) ((q + 1) * (2 : ℚ) ^ (x.exp + shift)) a q (x.atShift shift mode).1
      ∧ ((x.atShift shift mode).2 = true ↔ q * (2 : ℚ) ^ (x.exp + shift) < a) := by
  obtain ⟨place, nonneg, lt_one, more⟩ := tail
  have unit := two_zpow_pos (x.exp + shift)
  rcases le_or_gt shift 0 with exact_ | shifted
  · have whole : x.more = false := by
      by_contra h
      exact absurd (down (by simpa using h)) (by omega)
    have zero : t = 0 := le_antisymm (not_lt.1 fun h => by simp [more.2 h] at whole) nonneg
    have scale : (2 : ℚ) ^ x.exp = (2 ^ (-shift).toNat : ℕ) * 2 ^ (x.exp + shift) := two_zpow_eq (by omega)
    have eq : ((x.mag * 2 ^ (-shift).toNat : ℕ) : ℚ) * 2 ^ (x.exp + shift) = a := by
      rw [place, zero, scale]
      push_cast
      ring
    refine ⟨x.mag * 2 ^ (-shift).toNat, ?_, ?_⟩
    · rw [Exact.atShift, if_pos exact_, add_one_mul, eq]
      exact ⟨le_rfl, by linarith, fun h => absurd h (lt_irrefl _), fun _ => rfl⟩
    · rw [eq, Exact.atShift, if_pos exact_, whole]
      simp
  · rw [atShift_pos x mode shifted]
    dsimp only
    obtain ⟨m, hm⟩ : ∃ m, shift.toNat = m + 1 := ⟨shift.toNat - 1, by omega⟩
    rw [hm, Nat.add_sub_cancel]
    set q := x.mag / 2 ^ (m + 1) with hq
    set r := x.mag % 2 ^ (m + 1) with hr
    have scale : (2 : ℚ) ^ (x.exp + shift) = 2 * (2 ^ m : ℕ) * 2 ^ x.exp := by
      rw [two_zpow_eq (n := m + 1) (d := x.exp) (by omega), pow_succ, mul_comm (2 ^ m) 2, Nat.cast_mul, Nat.cast_two]
    have parts : (x.mag : ℚ) = q * (2 * (2 ^ m : ℕ)) + r := by
      have := Nat.div_add_mod x.mag (2 ^ (m + 1))
      rw [← hq, ← hr, pow_succ] at this
      exact_mod_cast (by linarith : x.mag = q * (2 * 2 ^ m) + r)
    have fits : (r : ℚ) + 1 ≤ 2 * (2 ^ m : ℕ) := by
      have := Nat.mod_lt x.mag (Nat.two_pow_pos (m + 1))
      rw [← hr, pow_succ] at this
      exact_mod_cast (by omega : r + 1 ≤ 2 * 2 ^ m)
    have pos := two_zpow_pos x.exp
    have place' : a = q * 2 ^ (x.exp + shift) + (r + t) * 2 ^ x.exp := by rw [place, parts, scale]; ring
    have step : ((q : ℚ) + 1) * 2 ^ (x.exp + shift) = q * 2 ^ (x.exp + shift) + 2 * (2 ^ m : ℕ) * 2 ^ x.exp := by rw [scale]; ring
    have rule := @upRule_iff mode x.neg x.more (q % 2 == 1) (2 ^ m) r _ _ a t _ pos (Nat.two_pow_pos m) nonneg lt_one more place' step
    refine ⟨q, ⟨?_, ?_, fun h u => if_pos (rule.2 ⟨h, u⟩), fun h => if_neg (mt rule.1 h)⟩, ?_⟩
    · have : (0 : ℚ) ≤ r := r.cast_nonneg
      have := mul_nonneg (by linarith : (0 : ℚ) ≤ r + t) pos.le
      linarith
    · have := mul_lt_mul_of_pos_right (by linarith : (r : ℚ) + t < 2 * (2 ^ m : ℕ)) pos
      linarith
    · exact inexact_iff pos nonneg lt_one more place'

end Sys2Proof.Numbers
end


section
/-! Rounding (family 05): both steps of the model's rounding choose between neighbouring patterns of the format (R76, R80, R81). -/

namespace Sys2Proof.Numbers

open Machine Laws Claims

theorem bitLength_pos {n : ℕ} (h : n ≠ 0) : 0 < bitLength n := by simp [bitLength, h]

theorem two_pow_bitLength_le {n : ℕ} (h : n ≠ 0) : 2 ^ (bitLength n - 1) ≤ n := by
  simpa [bitLength, h] using Nat.log2_self_le h

theorem lt_two_pow_bitLength (n : ℕ) : n < 2 ^ bitLength n := by
  by_cases h : n = 0
  · simp [h]
  · simpa [bitLength, h] using Nat.lt_log2_self

/-- The exponent of the leading bit of an exact magnitude. -/
def leading (x : Exact) : ℤ := x.exp + bitLength x.mag - 1

section Round

variable {f : Fmt} {x : Exact} {a t v : ℚ} {mode : Rnd}

theorem leading_bounds (tail : Tail x a t) (nonzero : x.mag ≠ 0) : (2 : ℚ) ^ leading x ≤ a ∧ a < 2 ^ (leading x + 1) := by
  obtain ⟨place, nonneg, lt_one, -⟩ := tail
  have unit := two_zpow_pos x.exp
  have pos := bitLength_pos nonzero
  have low : ((2 ^ (bitLength x.mag - 1) : ℕ) : ℚ) ≤ x.mag := by exact_mod_cast two_pow_bitLength_le nonzero
  have high : (x.mag : ℚ) + 1 ≤ (2 ^ bitLength x.mag : ℕ) := by exact_mod_cast lt_two_pow_bitLength x.mag
  rw [two_zpow_eq (e := leading x) (n := bitLength x.mag - 1) (d := x.exp) (by unfold leading; omega),
    two_zpow_eq (e := leading x + 1) (n := bitLength x.mag) (d := x.exp) (by unfold leading; omega), place]
  exact ⟨mul_le_mul_of_nonneg_right (by linarith) unit.le, mul_lt_mul_of_pos_right (by linarith) unit⟩

/-- The first step of the model's rounding, as if the exponent were unbounded. -/
def firstStep (f : Fmt) (x : Exact) (mode : Rnd) : ℕ × Bool := x.atShift (leading x - f.fbits - x.exp) mode

/-- The exponent of its result. -/
def leadingAfter (f : Fmt) (x : Exact) (mode : Rnd) : ℤ :=
  if (firstStep f x mode).1 = 2 ^ (f.fbits + 1) then leading x + 1 else leading x

/-- The second step, taken where the result of the first is below the smallest normal. -/
def tinyStep (f : Fmt) (x : Exact) (mode : Rnd) : ℕ × Bool := x.atShift (f.emin - f.fbits - x.exp) mode

/-- The pattern of the result of the first step, whatever its size. -/
def normalPattern (f : Fmt) (x : Exact) (mode : Rnd) : ℕ :=
  (leadingAfter f x mode + f.bias).toNat * 2 ^ f.fbits
    + ((if (firstStep f x mode).1 = 2 ^ (f.fbits + 1) then 2 ^ f.fbits else (firstStep f x mode).1) - 2 ^ f.fbits)

theorem round_eq (f : Fmt) (mode : Rnd) (ftz : Bool) (x : Exact) :
    f.round mode ftz x =
      if leadingAfter f x mode < f.emin then
        if ftz then (f.signed x.neg 0, flagUF ||| flagNX)
        else (f.signed x.neg (tinyStep f x mode).1, flagIf (tinyStep f x mode).2 (flagUF ||| flagNX))
      else if f.maxPattern < normalPattern f x mode then (f.overflow x.neg mode, flagOF ||| flagNX)
      else (f.signed x.neg (normalPattern f x mode), flagIf (firstStep f x mode).2 flagNX) := rfl

/-- The first step chooses between two neighbours of one more bit than the fraction has. -/
theorem firstStep_chooses (tail : Tail x a t) (nonzero : x.mag ≠ 0) (long : x.more = true → f.fbits + 2 ≤ bitLength x.mag)
    (mode : Rnd) :
    ∃ q : ℕ, 2 ^ f.fbits ≤ q ∧ q < 2 ^ (f.fbits + 1)
      ∧ Chooses mode x.neg (q * (2 : ℚ) ^ (leading x - f.fbits)) ((q + 1) * (2 : ℚ) ^ (leading x - f.fbits)) a q
        (firstStep f x mode).1
      ∧ ((firstStep f x mode).2 = true ↔ q * (2 : ℚ) ^ (leading x - f.fbits) < a) := by
  obtain ⟨q, chooses, inexact⟩ := chooses_atShift tail (leading x - f.fbits - x.exp) mode
    (fun more => by have := long more; unfold leading; omega)
  rw [show x.exp + (leading x - f.fbits - x.exp) = leading x - f.fbits by ring] at chooses inexact
  obtain ⟨low, high⟩ := leading_bounds tail nonzero
  have unit := two_zpow_pos (leading x - f.fbits)
  rw [two_zpow_eq (n := f.fbits) (d := leading x - f.fbits) (by ring)] at low
  rw [two_zpow_eq (n := f.fbits + 1) (d := leading x - f.fbits) (by push_cast; ring)] at high
  refine ⟨q, ?_, ?_, chooses, inexact⟩
  · have := lt_of_mul_lt_mul_right (low.trans_lt chooses.lt) unit.le
    exact Nat.lt_succ_iff.1 (by exact_mod_cast this)
  · have := lt_of_mul_lt_mul_right (chooses.le.trans_lt high) unit.le
    exact_mod_cast this

/-- Where the exponent is below the smallest normal, the second step chooses between two subnormal patterns. -/
theorem tinyStep_chooses (tail : Tail x a t) (nonzero : x.mag ≠ 0) (long : x.more = true → f.fbits + 2 ≤ bitLength x.mag)
    (mode : Rnd) (small : leading x < f.emin) :
    ∃ p : ℕ, p < 2 ^ f.fbits
      ∧ Chooses mode x.neg (magnitude f p) (magnitude f (p + 1)) a p (tinyStep f x mode).1
      ∧ ((tinyStep f x mode).2 = true ↔ magnitude f p < a) := by
  obtain ⟨p, chooses, inexact⟩ := chooses_atShift tail (f.emin - f.fbits - x.exp) mode
    (fun more => by have := long more; unfold leading at small; omega)
  rw [show x.exp + (f.emin - f.fbits - x.exp) = f.emin - f.fbits by ring] at chooses inexact
  have unit := two_zpow_pos (f.emin - f.fbits)
  have below : a < 2 ^ f.emin :=
    (leading_bounds tail nonzero).2.trans_le (zpow_le_zpow_right₀ one_le_two (by omega))
  rw [two_zpow_eq (n := f.fbits) (d := f.emin - f.fbits) (by ring)] at below
  have fits : p < 2 ^ f.fbits := by
    have := lt_of_mul_lt_mul_right (chooses.le.trans_lt below) unit.le
    exact_mod_cast this
  have wide : 2 ^ f.fbits ≤ 2 ^ (f.fbits + 1) := Nat.pow_le_pow_right two_pos (Nat.le_succ _)
  have low := magnitude_eq f (k := 0) (q := p) (.inl rfl) (by omega)
  have high := magnitude_succ f (k := 0) (q := p) (.inl rfl) (by omega)
  simp only [zero_mul, zero_add, Nat.cast_zero] at low high
  rw [← low, ← high] at chooses
  rw [← low] at inexact
  exact ⟨p, fits, chooses, inexact⟩

end Round

section Round

variable {f : Fmt} {x : Exact} {a t v : ℚ} {mode : Rnd}

/-- The first step carries into the next binade where the neighbour below is the last of its binade and the upper one is chosen. -/
theorem carries_iff {q r : ℕ} {low high : ℚ} (h : Chooses mode x.neg low high a q r) (below : q < 2 ^ (f.fbits + 1)) :
    r = 2 ^ (f.fbits + 1) ↔ q = 2 ^ (f.fbits + 1) - 1 ∧ low < a ∧ RoundsUp mode x.neg true low high a := by
  have pos : 0 < 2 ^ f.fbits := Nat.two_pow_pos _
  have odd : ∀ q, q = 2 ^ (f.fbits + 1) - 1 → (q % 2 == 1) = true := by
    rintro _ rfl
    rw [beq_iff_eq, pow_succ]
    omega
  constructor
  · intro carried
    have last : q = 2 ^ (f.fbits + 1) - 1 := by rcases h.eq_or with rfl | rfl <;> omega
    by_contra no
    have stays := h.down fun up => no ⟨last, up.1, odd q last ▸ up.2⟩
    omega
  · rintro ⟨last, above, up⟩
    have := h.up above ((odd q last).symm ▸ up)
    omega

/-- The largest magnitude below the smallest normal with one more bit. -/
theorem below_least (f : Fmt) : (2 : ℚ) ^ f.emin - 2 ^ (f.emin - f.fbits - 1)
    = ((2 ^ (f.fbits + 1) - 1 : ℕ) : ℚ) * 2 ^ (f.emin - 1 - f.fbits) := by
  rw [Nat.cast_sub Nat.one_le_two_pow, sub_mul, ← two_zpow_eq (e := f.emin) (by push_cast; ring), Nat.cast_one, one_mul]
  congr 2
  ring

/-- The model's test for a tiny value is that of R80: its result with an unbounded exponent is below the smallest normal. -/
theorem leadingAfter_lt_iff (tail : Tail x a t) (nonzero : x.mag ≠ 0) (long : x.more = true → f.fbits + 2 ≤ bitLength x.mag)
    (size : |v| = a) (sign : decide (v < 0) = x.neg) (mode : Rnd) : leadingAfter f x mode < f.emin ↔ Tiny f mode v := by
  obtain ⟨low, high⟩ := leading_bounds tail nonzero
  obtain ⟨q, -, fits, chooses, -⟩ := firstStep_chooses tail nonzero long mode
  have carries := carries_iff chooses fits
  unfold leadingAfter Tiny
  simp only [size, sign, below_least]
  have unit := two_zpow_pos (f.emin - 1 - f.fbits)
  have pos : 1 ≤ 2 ^ f.fbits := Nat.one_le_two_pow
  rcases lt_trichotomy (leading x) (f.emin - 1) with far | near | normal
  · have half : a < 2 ^ (f.emin - 1) := high.trans_le (zpow_le_zpow_right₀ one_le_two (by omega))
    rw [two_zpow_eq (n := f.fbits) (d := f.emin - 1 - f.fbits) (by ring)] at half
    have most : ((2 ^ f.fbits : ℕ) : ℚ) ≤ (2 ^ (f.fbits + 1) - 1 : ℕ) := by exact_mod_cast (by rw [pow_succ]; omega)
    have small := half.trans_le (mul_le_mul_of_nonneg_right most unit.le)
    have least : a < 2 ^ f.emin := high.trans_le (zpow_le_zpow_right₀ one_le_two (by omega))
    exact iff_of_true (by split <;> omega) ⟨least, fun h => absurd h.1 (not_lt.2 small.le)⟩
  · rw [near] at chooses carries high ⊢
    rw [sub_add_cancel] at high
    have last : ((2 ^ (f.fbits + 1) - 1 : ℕ) : ℚ) * 2 ^ (f.emin - 1 - f.fbits) < a → q = 2 ^ (f.fbits + 1) - 1 := by
      intro above
      have : ((2 ^ (f.fbits + 1) - 1 : ℕ) : ℚ) < (q + 1 : ℕ) := by
        exact_mod_cast lt_of_mul_lt_mul_right (above.trans chooses.lt) unit.le
      have : 2 ^ (f.fbits + 1) - 1 < q + 1 := by exact_mod_cast this
      omega
    have next : q = 2 ^ (f.fbits + 1) - 1 → ((q : ℚ) + 1) * 2 ^ (f.emin - 1 - f.fbits) = 2 ^ f.emin := by
      rintro rfl
      rw [two_zpow_eq (e := f.emin) (n := f.fbits + 1) (d := f.emin - 1 - f.fbits) (by push_cast; ring),
        Nat.cast_sub Nat.one_le_two_pow, Nat.cast_one, sub_add_cancel]
    have same : (firstStep f x mode).1 = 2 ^ (f.fbits + 1) ↔
        ((2 ^ (f.fbits + 1) - 1 : ℕ) : ℚ) * 2 ^ (f.emin - 1 - f.fbits) < a
          ∧ RoundsUp mode x.neg true (((2 ^ (f.fbits + 1) - 1 : ℕ) : ℚ) * 2 ^ (f.emin - 1 - f.fbits)) (2 ^ f.emin) a := by
      rw [carries]
      constructor
      · rintro ⟨is_last, above, up⟩
        rw [next is_last, is_last] at up
        exact ⟨is_last ▸ above, up⟩
      · rintro ⟨above, up⟩
        have is_last := last above
        rw [next is_last, is_last]
        exact ⟨rfl, above, up⟩
    rw [← same, and_iff_right high]
    split
    · rename_i carried
      exact iff_of_false (by omega) (not_not.2 carried)
    · rename_i stays
      exact iff_of_true (by omega) stays
  · have least : (2 : ℚ) ^ f.emin ≤ a := (zpow_le_zpow_right₀ one_le_two (by omega)).trans low
    exact iff_of_false (by split <;> omega) fun h => absurd h.1 (not_lt.2 least)

end Round

section Round

variable {f : Fmt} {x : Exact} {a t v : ℚ} {mode : Rnd}

/-- Among the normal numbers the pattern is that of the first step's result in its binade. -/
theorem normalPattern_eq (normal : f.emin ≤ leading x) (large : 2 ^ f.fbits ≤ (firstStep f x mode).1) :
    normalPattern f x mode = (leading x - f.emin).toNat * 2 ^ f.fbits + (firstStep f x mode).1 := by
  obtain ⟨k, hk⟩ : ∃ k : ℕ, leading x = k + f.emin := ⟨(leading x - f.emin).toNat, by omega⟩
  have bias : f.emin = 1 - (f.bias : ℤ) := rfl
  have binade : (leading x - f.emin).toNat = k := by omega
  have here : (leading x + f.bias).toNat = k + 1 := by omega
  have next : (leading x + 1 + f.bias).toNat = k + 2 := by omega
  unfold normalPattern leadingAfter
  rw [binade]
  split
  · rename_i carried
    rw [next, carried, pow_succ]
    ring_nf
    omega
  · rw [here, add_one_mul]
    omega

/-- A value that the first step carries up to the smallest normal has the pattern of that. -/
theorem normalPattern_carried (near : leading x = f.emin - 1) (carried : (firstStep f x mode).1 = 2 ^ (f.fbits + 1)) :
    normalPattern f x mode = 2 ^ f.fbits := by
  have bias : f.emin = 1 - (f.bias : ℤ) := rfl
  have one : (leading x + 1 + f.bias).toNat = 1 := by omega
  unfold normalPattern leadingAfter
  rw [if_pos carried, if_pos carried, one]
  omega

/-- Where the value is not tiny, the pattern chooses between two neighbours of the format. -/
theorem normalPattern_chooses (wide : Wide f) (tail : Tail x a t) (nonzero : x.mag ≠ 0)
    (long : x.more = true → f.fbits + 2 ≤ bitLength x.mag) (mode : Rnd) (big : f.emin ≤ leadingAfter f x mode) :
    ∃ p, Chooses mode x.neg (magnitude f p) (magnitude f (p + 1)) a p (normalPattern f x mode)
      ∧ ((firstStep f x mode).2 = true ↔ magnitude f p < a) := by
  obtain ⟨q, large, fits, chooses, inexact⟩ := firstStep_chooses tail nonzero long mode
  have even : 2 ∣ 2 ^ f.fbits := dvd_pow_self 2 (by have := wide.2; omega)
  rcases le_or_gt f.emin (leading x) with normal | small
  · have binade : ((leading x - f.emin).toNat : ℤ) + f.emin - f.fbits = leading x - f.fbits := by omega
    have pattern := normalPattern_eq (mode := mode) normal (by rcases chooses.eq_or with h | h <;> omega)
    have low := magnitude_eq f (k := (leading x - f.emin).toNat) (.inr large) fits.le
    have high := magnitude_succ f (k := (leading x - f.emin).toNat) (.inr large) fits
    have parity : ((leading x - f.emin).toNat * 2 ^ f.fbits + q) % 2 = q % 2 := by
      rw [Nat.add_mod, Nat.mod_eq_zero_of_dvd (even.mul_left _), zero_add, Nat.mod_mod]
    rw [binade] at low high
    refine ⟨(leading x - f.emin).toNat * 2 ^ f.fbits + q, ?_, by rw [low]; exact inexact⟩
    rw [low, high, pattern]
    refine ⟨chooses.le, chooses.lt, fun above up => ?_, fun no => ?_⟩
    · rw [chooses.up above (parity ▸ up)]
      ring
    · rw [chooses.down (parity ▸ no)]
  · have carried : (firstStep f x mode).1 = 2 ^ (f.fbits + 1) := by
      by_contra stays
      rw [leadingAfter, if_neg stays] at big
      omega
    have near : leading x = f.emin - 1 := by
      rw [leadingAfter, if_pos carried] at big
      omega
    obtain ⟨last, above, up⟩ := (carries_iff chooses fits).1 carried
    have least : ((q : ℚ) + 1) * 2 ^ (leading x - f.fbits) = 2 ^ f.emin := by
      rw [last, Nat.cast_sub Nat.one_le_two_pow, Nat.cast_one, sub_add_cancel, ← two_zpow_eq (e := f.emin) (by push_cast; omega)]
    have pos : 1 ≤ 2 ^ f.fbits := Nat.one_le_two_pow
    have top : 2 ^ f.fbits - 1 + 1 = 2 ^ f.fbits := by omega
    have lower : magnitude f (2 ^ f.fbits - 1) < q * 2 ^ (leading x - f.fbits) := by
      have twice : 2 * (2 ^ f.fbits - 1) < q := by rw [last, pow_succ]; omega
      have eq := magnitude_eq f (k := 0) (q := 2 ^ f.fbits - 1) (.inl rfl) (by rw [pow_succ]; omega)
      rw [zero_mul, zero_add] at eq
      rw [eq, two_zpow_eq (n := 1) (d := leading x - f.fbits) (by push_cast; omega), ← mul_assoc]
      refine mul_lt_mul_of_pos_right ?_ (two_zpow_pos _)
      rw [mul_comm]
      exact_mod_cast twice
    rw [least] at up
    refine ⟨2 ^ f.fbits - 1, ?_, iff_of_true (inexact.2 above) (lower.trans above)⟩
    rw [top, magnitude_two_pow, normalPattern_carried near carried]
    exact ⟨(lower.trans above).le, least ▸ chooses.lt, fun _ _ => top.symm,
      fun no => absurd ⟨lower.trans above, roundsUp_of_lower up lower⟩ no⟩

/-- A rounded value: between two neighbours a pattern is chosen; a tiny value is flushed with `FTZ`, and one beyond the largest finite
pattern overflows (R76, R77, R80, R81). -/
theorem round_cases (wide : Wide f) (tail : Tail x a t) (nonzero : x.mag ≠ 0)
    (long : x.more = true → f.fbits + 2 ≤ bitLength x.mag) (size : |v| = a) (sign : decide (v < 0) = x.neg) (mode : Rnd)
    (ftz : Bool) :
    ∃ p r inexact, Chooses mode x.neg (magnitude f p) (magnitude f (p + 1)) a p r ∧ (inexact = true ↔ magnitude f p < a)
      ∧ (Tiny f mode v → r ≤ 2 ^ f.fbits ∧ f.round mode ftz x =
        if ftz then (f.signed x.neg 0, flagUF ||| flagNX) else (f.signed x.neg r, flagIf inexact (flagUF ||| flagNX)))
      ∧ (¬ Tiny f mode v → f.round mode ftz x =
        if f.maxPattern < r then (f.overflow x.neg mode, flagOF ||| flagNX) else (f.signed x.neg r, flagIf inexact flagNX)) := by
  have tiny := leadingAfter_lt_iff tail nonzero long size sign mode
  rcases lt_or_ge (leadingAfter f x mode) f.emin with small | big
  · have before : leading x < f.emin := by
      unfold leadingAfter at small
      split at small <;> omega
    obtain ⟨p, fits, chooses, inexact⟩ := tinyStep_chooses tail nonzero long mode before
    refine ⟨p, _, _, chooses, inexact, fun _ => ⟨by rcases chooses.eq_or with h | h <;> omega, ?_⟩, fun no => absurd (tiny.1 small) no⟩
    rw [round_eq, if_pos small]
  · obtain ⟨p, chooses, inexact⟩ := normalPattern_chooses wide tail nonzero long mode big
    refine ⟨p, _, _, chooses, inexact, fun is => absurd (tiny.2 is) (not_lt.2 big), fun _ => ?_⟩
    rw [round_eq, if_neg (not_lt.2 big)]

end Round

end Sys2Proof.Numbers
end


section
/-! Rounding (family 05): what patterns stand for, and the chosen pattern as the value that the mode asks for (R71, R76, R77). -/

namespace Sys2Proof.Numbers

open Machine Laws Claims

/-! ## Patterns and values (R71) -/

section Values

variable {f : Fmt} {q p : ℕ}

theorem signBit_eq (f : Fmt) : f.signBit = 2 ^ f.ebits * 2 ^ f.fbits := pow_add 2 f.ebits f.fbits

/-- A pattern is its sign, its exponent field and its fraction. -/
theorem mod_signBit (f : Fmt) (q : ℕ) : q % f.signBit = q / 2 ^ f.fbits % 2 ^ f.ebits * 2 ^ f.fbits + q % 2 ^ f.fbits := by
  rw [signBit_eq, mul_comm, Nat.mod_mul]
  ring

theorem exponent_le (f : Fmt) (q : ℕ) : q / 2 ^ f.fbits % 2 ^ f.ebits ≤ f.topExp :=
  Nat.le_sub_one_of_lt (Nat.mod_lt _ (Nat.two_pow_pos _))

/-- The patterns of the finite values are those up to the largest. -/
theorem mod_signBit_le_maxPattern_iff (wide : Wide f) (q : ℕ) : q % f.signBit ≤ f.maxPattern ↔
    ¬ (q / 2 ^ f.fbits % 2 ^ f.ebits = f.topExp ∧ (f.inf = true ∨ q % 2 ^ f.fbits = 2 ^ f.fbits - 1)) := by
  obtain ⟨we, wf⟩ := wide
  have low := Nat.mod_lt q (Nat.two_pow_pos f.fbits)
  have high := exponent_le f q
  have four : 2 ^ 2 ≤ 2 ^ f.fbits := Nat.pow_le_pow_right two_pos wf
  have top : 2 ^ 2 - 1 ≤ f.topExp := Nat.sub_le_sub_right (Nat.pow_le_pow_right two_pos we) 1
  rw [mod_signBit, Fmt.maxPattern, Fmt.infPattern]
  generalize q / 2 ^ f.fbits % 2 ^ f.ebits = e at *
  generalize q % 2 ^ f.fbits = r at *
  generalize 2 ^ f.fbits = B at *
  generalize f.topExp = T at *
  have some : 0 < T * B := by positivity
  rcases eq_or_lt_of_le high with rfl | less
  · cases f.inf <;> simp <;> omega
  · have : (e + 1) * B ≤ T * B := Nat.mul_le_mul_right B less
    rw [add_one_mul] at this
    refine iff_of_true ?_ (fun h => absurd h.1 less.ne)
    split <;> omega

/-- What a finite pattern stands for; with `ftz` a subnormal is a zero. -/
theorem value_of_le (wide : Wide f) (ftz : Bool) (h : q % f.signBit ≤ f.maxPattern) :
    f.value ftz q = .fin (q / f.signBit % 2 == 1)
      (if q % f.signBit < 2 ^ f.fbits ∧ ftz = true then 0
        else q % f.signBit - (max (q % f.signBit / 2 ^ f.fbits) 1 - 1) * 2 ^ f.fbits)
      ((max (q % f.signBit / 2 ^ f.fbits) 1 - 1 : ℕ) + f.emin - f.fbits) := by
  have finite := (mod_signBit_le_maxPattern_iff wide q).1 h
  have low := Nat.mod_lt q (Nat.two_pow_pos f.fbits)
  have quot : q % f.signBit / 2 ^ f.fbits = q / 2 ^ f.fbits % 2 ^ f.ebits := by
    rw [mod_signBit, add_comm, Nat.add_mul_div_right _ _ (Nat.two_pow_pos _), Nat.div_eq_of_lt low, zero_add]
  have bias : f.emin = 1 - (f.bias : ℤ) := rfl
  rw [quot, mod_signBit]
  unfold Fmt.value
  generalize q / 2 ^ f.fbits % 2 ^ f.ebits = e at *
  generalize q % 2 ^ f.fbits = r at *
  generalize 2 ^ f.fbits = B at *
  rw [if_neg (by grind), if_neg (by grind)]
  rcases Nat.eq_zero_or_pos e with rfl | pos
  · simp [low]
  · obtain ⟨k, rfl⟩ := Nat.exists_eq_add_of_lt pos
    have normal : ¬ ((0 + k + 1) * B + r < B ∧ ftz = true) := by
      rw [zero_add, add_one_mul]
      omega
    have mag : (0 + k + 1) * B + r - (max (0 + k + 1) 1 - 1) * B = B + r := by
      rw [show max (0 + k + 1) 1 - 1 = k by omega, zero_add, add_one_mul]
      omega
    rw [if_neg (by omega), if_neg normal, mag]
    congr 1
    omega

/-- Only a pattern up to the largest is a finite value. -/
theorem le_of_value_eq_fin (wide : Wide f) {ftz n : Bool} {m : ℕ} {e : ℤ} (h : f.value ftz q = .fin n m e) :
    q % f.signBit ≤ f.maxPattern := by
  rw [mod_signBit_le_maxPattern_iff wide]
  rintro ⟨top, special⟩
  unfold Fmt.value at h
  simp only [top] at h
  cases inf : f.inf with
  | true => simp [inf] at h; split at h <;> cases h
  | false => simp [special.resolve_left (by simp [inf]), inf] at h

end Values

/-- A magnitude with a sign. -/
def signedRat (neg : Bool) (a : ℚ) : ℚ := if neg then -a else a

@[simp] theorem abs_signedRat (neg : Bool) (a : ℚ) : |signedRat neg a| = |a| := by
  cases neg <;> simp [signedRat]

theorem signedRat_sub (neg : Bool) (a b : ℚ) : signedRat neg b - signedRat neg a = signedRat neg (b - a) := by
  cases neg <;> simp [signedRat]
  ring

theorem signedRat_inj (neg : Bool) {a b : ℚ} : signedRat neg a = signedRat neg b ↔ a = b := by
  cases neg <;> simp [signedRat]

theorem signedRat_abs {neg : Bool} {v : ℚ} (sign : decide (v < 0) = neg) : signedRat neg |v| = v := by
  subst sign
  rcases lt_or_ge v 0 with h | h
  · simp [signedRat, h, abs_of_neg h]
  · simp [signedRat, not_lt.2 h, abs_of_nonneg h]

theorem rational_eq (neg : Bool) (m : ℕ) (e : ℤ) : rational neg m e = signedRat neg (m * (2 : ℚ) ^ e) := by
  cases neg <;> simp [rational, signedRat]

/-! ## Signed patterns -/

section Patterns

variable {f : Fmt} {r q : ℕ} {z : ℚ}

theorem two_pow_le_maxPattern (wide : Wide f) : 2 ^ f.fbits ≤ f.maxPattern := by
  have top : 2 ^ 2 - 1 ≤ f.topExp := Nat.sub_le_sub_right (Nat.pow_le_pow_right two_pos wide.1) 1
  have := Nat.mul_le_mul_right (2 ^ f.fbits) top
  have := Nat.one_le_two_pow (n := f.fbits)
  unfold Fmt.maxPattern Fmt.infPattern
  split <;> omega

theorem maxPattern_lt_signBit (f : Fmt) : f.maxPattern < f.signBit := by
  have : f.topExp * 2 ^ f.fbits + 2 ^ f.fbits = f.signBit := by
    rw [signBit_eq, ← add_one_mul, Fmt.topExp, Nat.sub_add_cancel Nat.one_le_two_pow]
  have := Nat.one_le_two_pow (n := f.fbits)
  unfold Fmt.maxPattern Fmt.infPattern
  split <;> omega

theorem signed_eq (f : Fmt) (neg : Bool) (r : ℕ) : f.signed neg r = f.signBit * neg.toNat + r := by
  cases neg <;> simp [Fmt.signed]

theorem signed_mod (neg : Bool) (h : r ≤ f.maxPattern) : f.signed neg r % f.signBit = r := by
  rw [signed_eq, Nat.mul_add_mod, Nat.mod_eq_of_lt (h.trans_lt (maxPattern_lt_signBit f))]

theorem signed_div (neg : Bool) (h : r ≤ f.maxPattern) : f.signed neg r / f.signBit = neg.toNat := by
  have small := h.trans_lt (maxPattern_lt_signBit f)
  rw [signed_eq, Nat.mul_add_div (by omega), Nat.div_eq_of_lt small, add_zero]

theorem signed_parity (wide : Wide f) (neg : Bool) (r : ℕ) : f.signed neg r % 2 = r % 2 := by
  have even : 2 ∣ f.signBit := dvd_pow_self 2 (by have := wide.2; omega)
  rw [signed_eq, Nat.add_mod, Nat.mod_eq_zero_of_dvd (even.mul_right _), zero_add, Nat.mod_mod]

/-- The rational of a finite pattern is its signed magnitude. -/
theorem valueOf_of_le (wide : Wide f) (h : q % f.signBit ≤ f.maxPattern) :
    valueOf f q = some (signedRat (q / f.signBit % 2 == 1) (magnitude f (q % f.signBit))) := by
  rw [valueOf, value_of_le wide false h, FVal.rational, rational_eq, magnitude]
  simp

theorem valueOf_signed (wide : Wide f) (neg : Bool) (h : r ≤ f.maxPattern) :
    valueOf f (f.signed neg r) = some (signedRat neg (magnitude f r)) := by
  rw [valueOf_of_le wide (by rwa [signed_mod neg h]), signed_mod neg h, signed_div neg h]
  cases neg <;> rfl

theorem exists_abs_eq_magnitude (wide : Wide f) (h : valueOf f q = some z) : ∃ p, |z| = magnitude f p := by
  have finite : q % f.signBit ≤ f.maxPattern := by
    rw [valueOf, FVal.rational.eq_def] at h
    split at h
    · rename_i is
      exact le_of_value_eq_fin wide is
    · cases h
  rw [valueOf_of_le wide finite, Option.some_inj] at h
  exact ⟨_, by rw [← h, abs_signedRat, abs_of_nonneg (magnitude_nonneg f _)]⟩

end Patterns

/-! ## The chosen neighbour is the nearest value (R76) -/

section Nearest

variable {neg : Bool} {low high a b z : ℚ}

theorem abs_sub_le_dist (nonneg : 0 ≤ a) : |(|z| - a)| ≤ |z - signedRat neg a| := by
  have := abs_abs_sub_abs_le z (signedRat neg a)
  rwa [abs_signedRat, abs_of_nonneg nonneg] at this

/-- At the same distance of a nonzero number, the value of the same magnitude is the same. -/
theorem eq_signedRat_of_dist (pos : 0 < a) (nonneg : 0 ≤ b) (size : |z| = b)
    (dist : |z - signedRat neg a| = |b - a|) : z = signedRat neg b := by
  have other : ∀ c : ℚ, |c + a| = |c - a| → c = 0 := by
    intro c h
    rcases abs_eq_abs.1 h with h | h <;> linarith
  rcases (abs_eq nonneg).1 size with rfl | rfl <;> cases neg <;> simp only [signedRat, if_true, if_false, Bool.false_eq_true] at *
  · linarith [other z (by rw [← dist]; congr 1; ring)]
  · linarith [other b (by rw [← dist, ← abs_neg]; congr 1; ring)]

section Chosen

variable {f : Fmt} {mode : Rnd} {p r : ℕ}

/-- A mode that never takes the upper neighbour gives the largest magnitude up to a. -/
theorem Chooses.floor (h : Chooses mode neg (magnitude f p) (magnitude f (p + 1)) a p r)
    (apart : |z| ≤ magnitude f p ∨ magnitude f (p + 1) ≤ |z|) (never : ∀ odd low high a, ¬ RoundsUp mode neg odd low high a) :
    magnitude f r ≤ a ∧ (|z| ≤ a → |z| ≤ magnitude f r) := by
  rw [h.down fun up => never _ _ _ _ up.2]
  exact ⟨h.le, fun below => apart.resolve_right fun above => absurd (above.trans below) (not_le.2 h.lt)⟩

/-- A mode that always takes the upper neighbour of an inexact value gives the least magnitude from a on. -/
theorem Chooses.ceil (h : Chooses mode neg (magnitude f p) (magnitude f (p + 1)) a p r)
    (apart : |z| ≤ magnitude f p ∨ magnitude f (p + 1) ≤ |z|) (always : ∀ odd low high a, RoundsUp mode neg odd low high a) :
    a ≤ magnitude f r ∧ (a ≤ |z| → magnitude f r ≤ |z|) := by
  rcases h.le.lt_or_eq with above | exact_
  · rw [h.up above (always _ _ _ _)]
    exact ⟨h.lt.le, fun from_ => apart.resolve_left fun below => absurd (from_.trans below) (not_le.2 above)⟩
  · rw [h.down fun up => absurd exact_ up.1.ne, exact_]
    exact ⟨le_rfl, id⟩

theorem le_of_abs_floor (nonneg : 0 ≤ b) (h : |z| ≤ a → |z| ≤ b) (below : z ≤ a) : z ≤ b := by
  rcases le_total 0 z with is | is
  · rw [abs_of_nonneg is] at h
    exact h below
  · exact is.trans nonneg

theorem le_of_abs_ceil (nonneg : 0 ≤ a) (h : a ≤ |z| → b ≤ |z|) (above : a ≤ z) : b ≤ z := by
  rw [abs_of_nonneg (nonneg.trans above)] at h
  exact h above

/-- Where the mode takes the nearer neighbour, no value is nearer, and another magnitude is as near only if a lies in the middle. -/
theorem Chooses.dist_le (h : Chooses mode neg (magnitude f p) (magnitude f (p + 1)) a p r) (pos : 0 < a)
    (apart : |z| ≤ magnitude f p ∨ magnitude f (p + 1) ≤ |z|)
    (near : ∀ odd low high a, RoundsUp mode neg odd low high a → low + high ≤ 2 * a)
    (far : ∀ odd low high a, low + high < 2 * a → RoundsUp mode neg odd low high a) :
    |magnitude f r - a| ≤ |z - signedRat neg a| ∧ (|magnitude f r - a| = |z - signedRat neg a| →
      |z| = magnitude f r ∨ magnitude f p + magnitude f (p + 1) = 2 * a) := by
  obtain ⟨below, above⟩ := abs_le.1 (@abs_sub_le_dist neg a z pos.le)
  obtain ⟨le, lt, up, down⟩ := h
  by_cases c : magnitude f p < a ∧ RoundsUp mode neg (p % 2 == 1) (magnitude f p) (magnitude f (p + 1)) a
  · have := near _ _ _ _ c.2
    rw [up c.1 c.2, abs_of_nonneg (by linarith)]
    rcases apart with l | g
    · exact ⟨by linarith, fun same => .inr (by linarith)⟩
    · exact ⟨by linarith, fun same => .inl (by linarith)⟩
  · have : 2 * a ≤ magnitude f p + magnitude f (p + 1) := by
      by_contra more
      exact c ⟨by linarith, far _ _ _ _ (not_le.1 more)⟩
    rw [down c, abs_of_nonpos (by linarith)]
    rcases apart with l | g
    · exact ⟨by linarith, fun same => .inl (by linarith)⟩
    · exact ⟨by linarith, fun same => .inr (by linarith)⟩

/-- The chosen neighbour is the nearest finite value that the mode allows. -/
theorem nearest_of_chooses (wide : Wide f) (pos : 0 < a)
    (h : Chooses mode neg (magnitude f p) (magnitude f (p + 1)) a p r) :
    Nearest f mode (signedRat neg a) (signedRat neg (magnitude f r)) (f.signed neg r) := by
  intro q z value
  obtain ⟨p', size⟩ := exists_abs_eq_magnitude wide value
  have mono := (magnitude_strictMono f).monotone
  have apart : |z| ≤ magnitude f p ∨ magnitude f (p + 1) ≤ |z| := by
    rw [size]
    exact (le_or_gt p' p).imp (mono ·) (mono ·)
  have nonneg := magnitude_nonneg f r
  cases mode with
  | rtz =>
    rw [abs_signedRat, abs_signedRat, abs_of_nonneg nonneg, abs_of_pos pos]
    exact h.floor apart fun _ _ _ _ => id
  | rdn =>
    cases neg with
    | false =>
      obtain ⟨le, gap⟩ := h.floor apart fun _ _ _ _ => by simp [RoundsUp]
      exact ⟨le, le_of_abs_floor nonneg gap⟩
    | true =>
      obtain ⟨le, gap⟩ := h.ceil apart fun _ _ _ _ => rfl
      rw [← abs_neg] at gap
      exact ⟨neg_le_neg le, fun below => le_neg.1 (le_of_abs_ceil pos.le gap (le_neg.1 below))⟩
  | rup =>
    cases neg with
    | false =>
      obtain ⟨le, gap⟩ := h.ceil apart fun _ _ _ _ => rfl
      exact ⟨le, le_of_abs_ceil pos.le gap⟩
    | true =>
      obtain ⟨le, gap⟩ := h.floor apart fun _ _ _ _ => by simp [RoundsUp]
      rw [← abs_neg] at gap
      exact ⟨neg_le_neg le, fun above => neg_le.1 (le_of_abs_floor nonneg gap (neg_le.1 above))⟩
  | rna =>
    obtain ⟨dist, tie⟩ := h.dist_le pos apart (fun _ _ _ _ => id) fun _ _ _ _ => le_of_lt
    obtain ⟨-, above⟩ := abs_le.1 (@abs_sub_le_dist neg a z pos.le)
    dsimp only
    rw [signedRat_sub, abs_signedRat, abs_signedRat, abs_of_nonneg nonneg]
    refine ⟨dist, fun same => (tie same).elim le_of_eq fun middle => ?_⟩
    have upper : r = p + 1 := h.up (by linarith [h.lt]) middle.le
    rw [← same, upper, abs_of_nonneg (sub_nonneg.2 h.lt.le)] at above
    rw [upper]
    linarith
  | rne | dyn =>
    obtain ⟨dist, tie⟩ := h.dist_le pos apart (fun _ _ _ _ up => up.elim le_of_lt fun tie => tie.1.le) fun _ _ _ _ => Or.inl
    dsimp only
    rw [signedRat_sub, abs_signedRat, signed_parity wide neg r]
    refine ⟨dist, fun same other => ?_⟩
    rcases tie same with size | middle
    · exact absurd (eq_signedRat_of_dist pos nonneg size same.symm) other
    · by_cases odd : (p % 2 == 1) = true
      · rw [h.up (by linarith [h.lt]) (.inr ⟨middle, odd⟩)]
        rw [beq_iff_eq] at odd
        omega
      · rw [h.down fun up => up.2.elim (fun more => absurd middle more.ne) fun t => odd t.2]
        rw [beq_iff_eq] at odd
        omega

end Chosen

end Nearest

/-! ## A rounded value (R76, R77, R80, R81) -/

section Rounding

variable {f : Fmt} {mode : Rnd} {env : FpEnv} {neg : Bool} {a v : ℚ} {p r : ℕ} {x : Exact}

/-- The test for an overflow speaks of the largest finite pattern and the one after it. -/
theorem over_def (wide : Wide f) (mode : Rnd) (v : ℚ) : Over f mode v ↔ magnitude f (f.maxPattern + 1) ≤ |v| ∨
    (magnitude f f.maxPattern < |v| ∧ RoundsUp mode (decide (v < 0)) (f.maxPattern % 2 == 1)
      (magnitude f f.maxPattern) (magnitude f (f.maxPattern + 1)) |v|) := by
  have pos : 0 < 2 ^ f.fbits := Nat.two_pow_pos _
  have normal := Nat.div_pos (two_pow_le_maxPattern wide) pos
  have binade : f.maxPattern = (f.maxPattern / 2 ^ f.fbits - 1) * 2 ^ f.fbits + (2 ^ f.fbits + f.maxPattern % 2 ^ f.fbits) := by
    rw [← add_assoc, ← add_one_mul, Nat.sub_one_add_one normal.ne', mul_comm, Nat.div_add_mod]
  have fits : 2 ^ f.fbits + f.maxPattern % 2 ^ f.fbits < 2 ^ (f.fbits + 1) := by
    have := Nat.mod_lt f.maxPattern pos
    rw [pow_succ]
    omega
  have exponent : ((f.maxPattern / 2 ^ f.fbits - 1 : ℕ) : ℤ) + f.emin - f.fbits
      = (f.maxPattern / 2 ^ f.fbits : ℕ) - (f.bias : ℤ) - f.fbits := by
    have bias : f.emin = 1 - (f.bias : ℤ) := rfl
    omega
  have most := magnitude_eq f (k := f.maxPattern / 2 ^ f.fbits - 1) (.inr (Nat.le_add_right _ _)) fits.le
  have next := magnitude_succ f (k := f.maxPattern / 2 ^ f.fbits - 1) (.inr (Nat.le_add_right _ _)) fits
  rw [← binade, exponent] at most next
  rw [most, next, add_one_mul]
  rfl

/-- A value overflows where its rounded magnitude has a pattern above the largest finite one. -/
theorem over_iff (wide : Wide f) (sign : decide (v < 0) = neg)
    (h : Chooses mode neg (magnitude f p) (magnitude f (p + 1)) |v| p r) : Over f mode v ↔ f.maxPattern < r := by
  rw [over_def wide, sign]
  have mono := magnitude_strictMono f
  have near := h.eq_or
  rcases lt_trichotomy p f.maxPattern with below | rfl | above
  · have small : |v| < magnitude f f.maxPattern := h.lt.trans_le (mono.monotone below)
    refine iff_of_false (fun beyond => beyond.elim (fun far => ?_) fun up => lt_asymm small up.1) (by omega)
    exact absurd (mono.monotone (Nat.le_succ _)) (not_le.2 (small.trans_le' far))
  · constructor
    · rintro (far | up)
      · exact absurd h.lt (not_lt.2 far)
      · rw [h.up up.1 up.2]
        exact Nat.lt_succ_self _
    · intro upper
      by_contra no
      exact upper.ne' (h.down fun up => no (.inr up))
  · exact iff_of_true (.inl ((mono.monotone above).trans h.le)) (by omega)

/-- The chosen pattern is exact where its lower neighbour is. -/
theorem Chooses.eq_iff (h : Chooses mode neg (magnitude f p) (magnitude f (p + 1)) a p r) :
    magnitude f r = a ↔ ¬ magnitude f p < a := by
  constructor
  · rintro rfl above
    rcases h.eq_or with rfl | rfl
    · exact lt_irrefl _ above
    · exact lt_irrefl _ h.lt
  · intro exact_
    rw [h.down fun up => exact_ up.1]
    exact h.le.antisymm (not_lt.1 exact_)

/-- The pattern of a rounded value stands for the value that the mode chooses, with the value's sign. -/
theorem rounded_signed (wide : Wide f) (nonzero : v ≠ 0) (sign : decide (v < 0) = neg)
    (h : Chooses mode neg (magnitude f p) (magnitude f (p + 1)) |v| p r) (fits : r ≤ f.maxPattern) :
    ∃ y, valueOf f (f.signed neg r) = some y ∧ (f.signed neg r / f.signBit % 2 = 1 ↔ v < 0)
      ∧ Nearest f mode v y (f.signed neg r) ∧ (y = v ↔ ¬ magnitude f p < |v|) := by
  refine ⟨_, valueOf_signed wide neg fits, ?_, ?_, ?_⟩
  · rw [signed_div neg fits, ← sign]
    by_cases h : v < 0 <;> simp [h]
  · have near := nearest_of_chooses wide (abs_pos.2 nonzero) h
    rwa [signedRat_abs sign] at near
  · rw [← h.eq_iff, ← @signedRat_inj neg (magnitude f r) |v|, signedRat_abs sign]

/-- An exact magnitude is rounded once to what it stands for. -/
theorem rounded_round (wide : Wide f) (env : FpEnv) (h : Stands f.fbits x v) : Rounded f env v (f.round env.mode env.ftz x) := by
  obtain ⟨some, nonzero, sign, exact_, between⟩ := h
  obtain ⟨t, tail⟩ := exists_tail exact_ fun more => (between more).2
  have same : decide (v < 0) = x.neg := by rw [Bool.eq_iff_iff, decide_eq_true_iff, sign]
  obtain ⟨p, r, inexact, chooses, loss, tiny, plain⟩ :=
    round_cases wide tail some (fun more => (between more).1) rfl same env.mode env.ftz
  have beyond := over_iff wide same chooses
  have bounded : Tiny f env.mode v → ¬ Over f env.mode v := fun is => by
    rw [beyond, not_lt]
    exact (tiny is).1.trans (two_pow_le_maxPattern wide)
  unfold Rounded
  simp only [same]
  refine ⟨fun is => ?_, fun _ flush is => ?_, fun is kept => ?_⟩
  · rw [plain (fun is' => bounded is' is), if_pos (beyond.1 is)]
  · rw [(tiny is).2, if_pos flush]
  · have fits := not_lt.1 (mt beyond.2 is)
    obtain ⟨y, value, signs, nearest, exactly⟩ := rounded_signed wide nonzero same chooses fits
    have flags : y = v ↔ inexact = false := by rw [exactly, ← loss, Bool.not_eq_true]
    by_cases small : Tiny f env.mode v
    · rw [(tiny small).2, if_neg fun flush => kept ⟨flush, small⟩]
      refine ⟨y, value, signs, nearest, fun e => ?_, fun ne _ => ?_, fun _ no => absurd small no⟩
      · simp [flags.1 e, flagIf]
      · simp [Bool.eq_true_of_not_eq_false (mt flags.2 ne), flagIf]
    · rw [plain small, if_neg (not_lt.2 fits)]
      refine ⟨y, value, signs, nearest, fun e => ?_, fun _ is' => absurd is' small, fun ne _ => ?_⟩
      · simp [flags.1 e, flagIf]
      · simp [Bool.eq_true_of_not_eq_false (mt flags.2 ne), flagIf]

end Rounding

end Sys2Proof.Numbers
end


section
/-! Rounding (family 05): the operations on finite values round the exact results once (R76, R77, R90). -/

namespace Sys2Proof.Numbers

open Machine Laws Claims

/-! ## Signed rationals and integers at a common exponent -/

section Signs

variable {n n' : Bool} {a b : ℚ}

theorem signedRat_mul (n n' : Bool) (a b : ℚ) : signedRat n a * signedRat n' b = signedRat (n != n') (a * b) := by
  cases n <;> cases n' <;> simp [signedRat]

theorem signedRat_div (n n' : Bool) (a b : ℚ) : signedRat n a / signedRat n' b = signedRat (n != n') (a / b) := by
  cases n <;> cases n' <;> simp [signedRat, neg_div, div_neg]

theorem signedRat_lt_zero_iff (h : 0 < a) : signedRat n a < 0 ↔ n = true := by
  cases n <;> simp [signedRat, h, h.le]

theorem signedRat_eq_zero_iff : signedRat n a = 0 ↔ a = 0 := by
  cases n <;> simp [signedRat]

/-- Magnitudes whose signed sum is 0 have opposite signs, unless they are 0. -/
theorem ne_of_signedRat_add_eq_zero (ha : 0 ≤ a) (hb : 0 ≤ b) (nonzero : signedRat n a ≠ 0)
    (h : signedRat n a + signedRat n' b = 0) : n ≠ n' := by
  rintro rfl
  have zero : a + b = 0 := by cases n <;> simp [signedRat] at h <;> linarith
  exact nonzero (signedRat_eq_zero_iff.2 (by linarith))

end Signs

theorem scaled_mul (n : Bool) (m : ℕ) {e low : ℤ} (h : low ≤ e) : (scaled n m e low : ℚ) * 2 ^ low = rational n m e := by
  rw [rational_eq, two_zpow_eq (e := e) (n := (e - low).toNat) (d := low) (by omega)]
  cases n <;> simp [scaled, signedRat] <;> ring

section Operations

variable {f : Fmt} {env : FpEnv} {n n' zeroNeg : Bool} {m m' : ℕ} {e e' : ℤ} {v : ℚ}

/-- A signed integer at an exponent is rounded once; 0 takes the sign given. -/
theorem rounded_roundInt (wide : Wide f) (env : FpEnv) (i : ℤ) (zeroNeg : Bool) (value : (i : ℚ) * 2 ^ e = v) :
    (v ≠ 0 → Rounded f env v (f.roundInt env i e zeroNeg)) ∧ (v = 0 → f.roundInt env i e zeroNeg = (f.signed zeroNeg 0, 0)) := by
  have unit := two_zpow_pos e
  subst value
  have zero : (i : ℚ) * 2 ^ e = 0 ↔ i = 0 := by simp [unit.ne']
  refine ⟨fun nonzero => ?_, fun is => if_pos (zero.1 is)⟩
  rw [Fmt.roundInt, if_neg (mt zero.2 nonzero)]
  refine rounded_round wide env ⟨Int.natAbs_ne_zero.2 (mt zero.2 nonzero), nonzero, ?_, fun _ => ?_, fun more => by cases more⟩
  · rw [decide_eq_true_iff, mul_neg_iff]
    simp [unit, unit.le]
  · rw [abs_mul, abs_of_pos unit, Nat.cast_natAbs, Int.cast_abs]

theorem rounded_sum (wide : Wide f) (env : FpEnv) (value : rational n m e + rational n' m' e' = v) :
    (v ≠ 0 → Rounded f env v (f.sum env (.fin n m e) (.fin n' m' e')))
    ∧ (v = 0 → f.sum env (.fin n m e) (.fin n' m' e') = (f.signed (if n = n' then n else env.mode == .rdn) 0, 0)) := by
  refine rounded_roundInt wide env _ _ ?_
  rw [Int.cast_add, add_mul, scaled_mul n m (min_le_left e e'), scaled_mul n' m' (min_le_right e e'), value]

/-- A sum of 0 of operands of opposite signs takes the sign of the mode. -/
theorem sum_eq_zero (wide : Wide f) (env : FpEnv) (zero : rational n m e + rational n' m' e' = 0) (opposite : n ≠ n') :
    f.sum env (.fin n m e) (.fin n' m' e') = (f.signed (env.mode == .rdn) 0, 0) := by
  rw [(rounded_sum wide env zero).2 rfl, if_neg opposite]

theorem mag_ne_zero (h : rational n m e ≠ 0) : m ≠ 0 := by
  rintro rfl
  exact h (by simp [rational])

/-- A positive value has no sign. -/
theorem sign_of_pos (h : 0 < rational n m e) : n = false := by
  rw [rational_eq] at h
  cases n with
  | false => rfl
  | true => exact absurd h (not_lt.2 (neg_nonpos.2 (by positivity)))

theorem rational_negated : rational (!n) m e = -rational n m e := by
  cases n <;> simp [rational]

theorem rational_mul : rational (n != n') (m * m') (e + e') = rational n m e * rational n' m' e' := by
  rw [rational_eq, rational_eq, rational_eq, signedRat_mul, two_zpow_add]
  push_cast
  congr 1
  ring

theorem ne_of_rational_add_eq_zero (nonzero : rational n m e ≠ 0) (h : rational n m e + rational n' m' e' = 0) : n ≠ n' := by
  rw [rational_eq] at nonzero h
  rw [rational_eq] at h
  exact ne_of_signedRat_add_eq_zero (by positivity) (by positivity) nonzero h

end Operations

/-! ## Operations on finite values -/

section Finite

variable {f : Fmt} {env : FpEnv} {ftz : Bool} {a b c : ℕ} {na nb nc : Bool} {ma mb mc : ℕ} {ea eb ec : ℤ} {x : ℚ}

theorem exists_fin {v : FVal} (h : FVal.rational v = some x) : ∃ n m e, v = .fin n m e ∧ x = rational n m e := by
  cases v with
  | fin n m e => exact ⟨n, m, e, rfl, (Option.some.inj h).symm⟩
  | nan | inf => cases h

theorem isNan_eq_false (wide : Wide f) (h : f.value ftz a = .fin na ma ea) : f.isNan a = false := by
  rw [Fmt.isNan, value_of_le wide false (le_of_value_eq_fin wide h)]

theorem nanOf_eq_none {xs : List ℕ} (h : ∀ x ∈ xs, f.isNan x = false) : f.nanOf xs = none := by
  rw [Fmt.nanOf, Option.map_eq_none_iff, List.find?_eq_none]
  exact fun x mem => by simp [h x mem]

variable (wide : Wide f) (ha : f.value env.ftz a = .fin na ma ea) (hb : f.value env.ftz b = .fin nb mb eb)
include wide ha hb

theorem nanOf_pair : f.nanOf [a, b] = none :=
  nanOf_eq_none (by simp [isNan_eq_false wide ha, isNan_eq_false wide hb])

theorem add_eq : f.add env a b = f.sum env (.fin na ma ea) (.fin nb mb eb) := by
  rw [Fmt.add, Fmt.orNan, nanOf_pair wide ha hb, ha, hb]
  rfl

theorem sub_eq : f.sub env a b = f.sum env (.fin na ma ea) (.fin (!nb) mb eb) := by
  rw [Fmt.sub, Fmt.orNan, nanOf_pair wide ha hb, ha, hb]
  rfl

theorem mul_eq : f.mul env a b = f.roundInt env (scaled (na != nb) (ma * mb) 0 0) (ea + eb) (na != nb) := by
  rw [Fmt.mul, Fmt.orNan, nanOf_pair wide ha hb, ha, hb]
  rfl

theorem fma_eq (hc : f.value env.ftz c = .fin nc mc ec) :
    f.fma env a b c = f.sum env (.fin (na != nb) (ma * mb) (ea + eb)) (.fin nc mc ec) := by
  have none : f.nanOf [a, b, c] = none :=
    nanOf_eq_none (by simp [isNan_eq_false wide ha, isNan_eq_false wide hb, isNan_eq_false wide hc])
  rw [Fmt.fma, none, ha, hb, hc]
  rfl

theorem div_eq (some : ma ≠ 0) (some' : mb ≠ 0) :
    f.div env a b = f.round env.mode env.ftz (quotient (na != nb) ma ea mb eb) := by
  rw [Fmt.div, Fmt.orNan, nanOf_pair wide ha hb, ha, hb]
  exact (if_neg some').trans (if_neg some)

theorem rounded_mul (nonzero : rational na ma ea * rational nb mb eb ≠ 0) :
    Rounded f env (rational na ma ea * rational nb mb eb) (f.mul env a b) := by
  rw [mul_eq wide ha hb]
  refine (rounded_roundInt wide env _ _ ?_).1 nonzero
  rw [← rational_mul]
  cases na <;> cases nb <;> simp [scaled, rational]

end Finite

/-! ## Quotients and roots -/

theorem lt_bitLength {k n : ℕ} (h : 2 ^ k ≤ n) : k < bitLength n := by
  by_contra short
  exact absurd (h.trans_lt (lt_two_pow_bitLength n)) (not_lt.2 (Nat.pow_le_pow_right two_pos (not_lt.1 short)))

/-- The magnitude of a finite value has at most one bit more than the fraction. -/
theorem mag_lt {f : Fmt} (wide : Wide f) {ftz n : Bool} {q m : ℕ} {e : ℤ} (h : f.value ftz q = .fin n m e) :
    m < 2 ^ (f.fbits + 1) := by
  rw [value_of_le wide ftz (le_of_value_eq_fin wide h)] at h
  obtain ⟨-, rfl, -⟩ := FVal.fin.inj h
  have pos : 0 < 2 ^ f.fbits := Nat.two_pow_pos _
  split
  · exact Nat.two_pow_pos _
  · have split := Nat.div_add_mod (q % f.signBit) (2 ^ f.fbits)
    have rest := Nat.mod_lt (q % f.signBit) pos
    rw [pow_succ]
    generalize q % f.signBit = p at *
    generalize 2 ^ f.fbits = B at *
    rcases Nat.eq_zero_or_pos (p / B) with zero | some
    · rw [zero] at split
      omega
    · rw [max_eq_left some, Nat.sub_mul, one_mul, mul_comm (p / B)]
      have := Nat.le_mul_of_pos_right B some
      omega

/-- A quotient stands for the exact one: its remainder is the tail. -/
theorem stands_quotient {fbits : ℕ} {n n' : Bool} {m m' : ℕ} {e e' : ℤ} (some : m ≠ 0) (some' : m' ≠ 0)
    (short : m' < 2 ^ (fbits + 1)) (fits : fbits ≤ 62) :
    Stands fbits (quotient (n != n') m e m' e') (rational n m e / rational n' m' e') := by
  have pos : (0 : ℚ) < m := by exact_mod_cast Nat.pos_of_ne_zero some
  have pos' : (0 : ℚ) < m' := by exact_mod_cast Nat.pos_of_ne_zero some'
  have unit := two_zpow_pos e
  have unit' := two_zpow_pos e'
  have unitq := two_zpow_pos (e - 128 - e')
  have long : 2 ^ (fbits + 1) ≤ m * 2 ^ 128 / m' := by
    rw [Nat.le_div_iff_mul_le (Nat.pos_of_ne_zero some')]
    calc 2 ^ (fbits + 1) * m' ≤ 2 ^ (fbits + 1) * 2 ^ (fbits + 1) := Nat.mul_le_mul_left _ short.le
      _ = 2 ^ (fbits + 1 + (fbits + 1)) := (pow_add _ _ _).symm
      _ ≤ 2 ^ 128 := Nat.pow_le_pow_right two_pos (by omega)
      _ ≤ m * 2 ^ 128 := Nat.le_mul_of_pos_left _ (Nat.pos_of_ne_zero some)
  have parts : ((m * 2 ^ 128 : ℕ) : ℚ) = m' * (m * 2 ^ 128 / m' : ℕ) + (m * 2 ^ 128 % m' : ℕ) := by
    exact_mod_cast (Nat.div_add_mod (m * 2 ^ 128) m').symm
  have scale : (2 : ℚ) ^ e = (2 ^ 128 : ℕ) * 2 ^ (e - 128 - e') * 2 ^ e' := by
    rw [mul_assoc, ← two_zpow_add, two_zpow_eq (e := e) (n := 128) (d := e - 128 - e' + e') (by push_cast; ring)]
  have size : (m * (2 : ℚ) ^ e) / (m' * 2 ^ e')
      = ((m * 2 ^ 128 / m' : ℕ) + (m * 2 ^ 128 % m' : ℕ) / m') * (2 : ℚ) ^ (e - 128 - e') := by
    have whole : (m : ℚ) * (2 ^ 128 : ℕ) = m' * (m * 2 ^ 128 / m' : ℕ) + (m * 2 ^ 128 % m' : ℕ) := by rw [← parts]; push_cast; rfl
    rw [div_eq_iff (mul_pos pos' unit').ne', scale, ← mul_assoc, ← mul_assoc, whole]
    field_simp
  have positive : 0 < (m * (2 : ℚ) ^ e) / (m' * 2 ^ e') := div_pos (mul_pos pos unit) (mul_pos pos' unit')
  have rest : ((m * 2 ^ 128 % m' : ℕ) : ℚ) / m' < 1 := by
    rw [div_lt_one pos']
    exact_mod_cast Nat.mod_lt _ (Nat.pos_of_ne_zero some')
  rw [rational_eq, rational_eq, signedRat_div]
  refine ⟨fun zero => ?_, signedRat_eq_zero_iff.not.2 positive.ne', (signedRat_lt_zero_iff positive).symm, fun exact_ => ?_,
    fun more => ?_⟩
  · have zero : m * 2 ^ 128 / m' = 0 := zero
    have := Nat.two_pow_pos (fbits + 1)
    omega
  · have none : m * 2 ^ 128 % m' = 0 := by simpa [quotient] using exact_
    rw [abs_signedRat, abs_of_pos positive, size, none, Nat.cast_zero, zero_div, add_zero]
    rfl
  · have left : 0 < m * 2 ^ 128 % m' := Nat.pos_of_ne_zero (by simpa [quotient] using more)
    have tail : 0 < ((m * 2 ^ 128 % m' : ℕ) : ℚ) / m' := div_pos (by exact_mod_cast left) pos'
    rw [abs_signedRat, abs_of_pos positive, size]
    exact ⟨lt_bitLength long, mul_lt_mul_of_pos_right (lt_add_of_pos_right _ tail) unitq,
      mul_lt_mul_of_pos_right (add_lt_add_right rest _) unitq⟩

theorem isqrtFrom_spec (n : ℕ) : ∀ k r, r * r ≤ n → n < (r + 2 ^ (k + 1)) * (r + 2 ^ (k + 1)) →
    isqrtFrom n k r * isqrtFrom n k r ≤ n ∧ n < (isqrtFrom n k r + 1) * (isqrtFrom n k r + 1)
  | 0, r, low, high => by
    unfold isqrtFrom
    split
    · exact ⟨by assumption, by simpa using high⟩
    · exact ⟨low, by omega⟩
  | k + 1, r, low, high => by
    unfold isqrtFrom
    refine isqrtFrom_spec n k _ ?_ ?_
    · split <;> assumption
    · split
      · rwa [add_assoc, ← two_mul, ← pow_succ']
      · omega

/-- The integer square root is the largest number whose square is not above. -/
theorem isqrt_spec (n : ℕ) : isqrt n * isqrt n ≤ n ∧ n < (isqrt n + 1) * (isqrt n + 1) := by
  refine isqrtFrom_spec n _ 0 (Nat.zero_le _) ?_
  rw [zero_add, ← pow_add]
  exact (lt_two_pow_bitLength n).trans_le (Nat.pow_le_pow_right two_pos (by omega))

/-! ## Roots -/

/-- The root of a value is the integer root of a large multiple of it by an even power of two. -/
theorem rootOf_eq {m : ℕ} (some : m ≠ 0) (e : ℤ) : ∃ (n : ℕ) (k : ℤ), 2 ^ 256 ≤ n ∧ m * (2 : ℚ) ^ e = n * (2 ^ k * 2 ^ k)
    ∧ rootOf m e = ⟨false, isqrt n, k, isqrt n * isqrt n != n⟩ := by
  have pos := Nat.pos_of_ne_zero some
  unfold rootOf
  by_cases even : e % 2 = 0
  · refine ⟨m * 2 ^ 256, e / 2 - 128, Nat.le_mul_of_pos_left _ pos, ?_, ?_⟩
    · rw [← two_zpow_add, two_zpow_eq (e := e) (n := 256) (d := e / 2 - 128 + (e / 2 - 128)) (by push_cast; omega), Nat.cast_mul,
        mul_assoc]
    · rw [if_pos even]
  · refine ⟨2 * m * 2 ^ 256, (e - 1) / 2 - 128, Nat.le_mul_of_pos_left _ (by omega), ?_, ?_⟩
    · rw [← two_zpow_add, two_zpow_eq (e := e) (n := 256 + 1) (d := (e - 1) / 2 - 128 + ((e - 1) / 2 - 128)) (by push_cast; omega),
        ← mul_assoc, ← Nat.cast_mul, pow_succ, mul_comm (2 ^ 256) 2, mul_left_comm, mul_assoc]
    · rw [if_neg even]

/-- A root stands for the exact one, be that rational or not. -/
theorem rootOf_spec {fbits m : ℕ} (fits : fbits ≤ 62) (some : m ≠ 0) {e : ℤ} {x : ℚ} (value : m * (2 : ℚ) ^ e = x) :
    (rootOf m e).neg = false ∧ (rootOf m e).mag ≠ 0
    ∧ ((rootOf m e).more = false → ((rootOf m e).mag * (2 : ℚ) ^ (rootOf m e).exp) ^ 2 = x)
    ∧ (∀ v, 0 < v → v * v = x → Stands fbits (rootOf m e) v)
    ∧ ((rootOf m e).more = true → fbits + 2 ≤ bitLength (rootOf m e).mag ∧ ((rootOf m e).mag * (2 : ℚ) ^ (rootOf m e).exp) ^ 2 < x
      ∧ x < (((rootOf m e).mag + 1) * (2 : ℚ) ^ (rootOf m e).exp) ^ 2) := by
  obtain ⟨n, k, large, scale, root⟩ := rootOf_eq some e
  obtain ⟨low, high⟩ := isqrt_spec n
  rw [root]
  dsimp only
  rw [value] at scale
  have unit := two_zpow_pos k
  have square := mul_pos unit unit
  have long : 2 ^ (fbits + 1) ≤ isqrt n := by
    by_contra short
    have : isqrt n + 1 ≤ 2 ^ 128 := (not_le.1 short).trans_le (Nat.pow_le_pow_right two_pos (by omega))
    have := Nat.mul_le_mul this this
    rw [← pow_add] at this
    omega
  have bits := lt_bitLength long
  have nonzero : isqrt n ≠ 0 := ((Nat.two_pow_pos _).trans_le long).ne'
  have exact_ : (isqrt n * isqrt n != n) = false → (isqrt n * (2 : ℚ) ^ k) * (isqrt n * (2 : ℚ) ^ k) = x := by
    intro same
    have same : isqrt n * isqrt n = n := by simpa using same
    rw [scale, mul_mul_mul_comm, ← Nat.cast_mul, same]
  have below : (isqrt n * isqrt n != n) = true → (isqrt n * (2 : ℚ) ^ k) * (isqrt n * (2 : ℚ) ^ k) < x := by
    intro more
    have less : isqrt n * isqrt n < n := low.lt_of_ne (by simpa using more)
    rw [scale, mul_mul_mul_comm]
    exact mul_lt_mul_of_pos_right (by exact_mod_cast less) square
  have above : x < ((isqrt n + 1) * (2 : ℚ) ^ k) * ((isqrt n + 1) * (2 : ℚ) ^ k) := by
    rw [scale, mul_mul_mul_comm]
    exact mul_lt_mul_of_pos_right (by exact_mod_cast high) square
  have nonneg : 0 ≤ isqrt n * (2 : ℚ) ^ k := by positivity
  refine ⟨rfl, nonzero, fun same => (sq _).trans (exact_ same), fun v pos is => ?_, fun more => ⟨bits, ?_, ?_⟩⟩
  · refine ⟨nonzero, pos.ne', by simp [pos.le], fun same => ?_, fun more => ⟨bits, ?_, ?_⟩⟩
    · rw [abs_of_pos pos]
      exact (mul_self_inj pos.le nonneg).1 (is.trans (exact_ same).symm)
    · rw [abs_of_pos pos]
      exact lt_of_mul_self_lt_mul_self₀ pos.le (is ▸ below more)
    · rw [abs_of_pos pos]
      exact lt_of_mul_self_lt_mul_self₀ (by positivity) (is ▸ above)
  · rw [sq]
    exact below more
  · rw [sq]
    exact above

theorem sqrt_eq {f : Fmt} (wide : Wide f) {env : FpEnv} {a m : ℕ} {e : ℤ} (h : f.value env.ftz a = .fin false m e) (some : m ≠ 0) :
    f.sqrt env a = f.round env.mode env.ftz (rootOf m e) := by
  rw [Fmt.sqrt, Fmt.orNan, nanOf_eq_none (by simp [isNan_eq_false wide h]), h]
  exact if_neg some

/-! ## uniform_f32 (R90) -/

/-- The magnitude of a finite pattern is rounded to that pattern. -/
theorem round_magnitude {f : Fmt} (wide : Wide f) (mode : Rnd) {p m : ℕ} {e : ℤ} (fits : p ≤ f.maxPattern) (nonzero : m ≠ 0)
    (value : m * (2 : ℚ) ^ e = magnitude f p) : f.round mode false ⟨false, m, e, false⟩ = (p, 0) := by
  have pos : 0 < m * (2 : ℚ) ^ e := mul_pos (by exact_mod_cast Nat.pos_of_ne_zero nonzero) (two_zpow_pos e)
  have tail : Tail ⟨false, m, e, false⟩ (m * (2 : ℚ) ^ e) 0 := ⟨by simp, le_rfl, one_pos, by simp⟩
  obtain ⟨q, r, inexact, chooses, loss, tiny, plain⟩ :=
    round_cases wide tail nonzero (fun more => by cases more) (abs_of_pos pos) (by simp [pos.le]) mode false
  have mono := magnitude_strictMono f
  have le := mono.le_iff_le.1 (chooses.le.trans_eq value)
  have lt := mono.lt_iff_lt.1 (value.symm.trans_lt chooses.lt)
  obtain rfl : q = p := by omega
  obtain rfl : r = q := mono.injective ((chooses.eq_iff.2 value.le.not_gt).trans value)
  have exact_ : inexact = false := by rw [← Bool.not_eq_true, loss, not_lt]; exact value.le
  by_cases small : Tiny f mode (m * (2 : ℚ) ^ e)
  · rw [(tiny small).2, exact_]
    rfl
  · rw [plain small, if_neg (not_lt.2 fits), exact_]
    rfl

/-- A fraction of 24 bits is an FP32 magnitude. -/
theorem exists_magnitude_f32 {n : ℕ} (nonzero : n ≠ 0) (fits : n < 2 ^ 24) :
    ∃ p ≤ Ty.f32.fmt.maxPattern, n * (2 : ℚ) ^ (-24 : ℤ) = magnitude Ty.f32.fmt p := by
  have pos := bitLength_pos nonzero
  have low := two_pow_bitLength_le nonzero
  have high := lt_two_pow_bitLength n
  have short : bitLength n ≤ 24 := by
    by_contra long
    exact absurd (low.trans_lt fits) (not_lt.2 (Nat.pow_le_pow_right two_pos (by omega)))
  obtain ⟨s, hs⟩ : ∃ s, 24 = bitLength n + s := ⟨24 - bitLength n, by omega⟩
  have large : 2 ^ 23 ≤ n * 2 ^ s := by
    rw [show 23 = bitLength n - 1 + s by omega, pow_add]
    exact Nat.mul_le_mul_right _ low
  have small : n * 2 ^ s < 2 ^ 24 := by
    rw [hs, pow_add]
    exact Nat.mul_lt_mul_of_pos_right high (Nat.two_pow_pos _)
  refine ⟨(125 - s) * 2 ^ 23 + n * 2 ^ s, ?_, ?_⟩
  · have : Ty.f32.fmt.maxPattern = 254 * 2 ^ 23 + (2 ^ 23 - 1) := rfl
    omega
  · refine .trans ?_ (magnitude_eq Ty.f32.fmt (k := 125 - s) (q := n * 2 ^ s) (.inr large) small.le).symm
    have emin : Ty.f32.fmt.emin = -126 := rfl
    rw [two_zpow_eq (e := -24) (n := s) (d := (125 - s : ℕ) + Ty.f32.fmt.emin - Ty.f32.fmt.fbits)
      (by rw [emin, show Ty.f32.fmt.fbits = 23 from rfl]; omega), ← mul_assoc, ← Nat.cast_mul]

/-- The four and twenty high bits of a word, as a fraction, are an FP32 value. -/
theorem uniform_spec (w : Word) : let n := w.toNat / 256
    valueOf Ty.f32.fmt (uniformF32 w).toNat = some (n * (2 : ℚ) ^ (-24 : ℤ))
    ∧ (n ≠ 0 → (Fmt.round Ty.f32.fmt .rne false ⟨false, n, -24, false⟩).2 = 0) := by
  have fits : w.toNat / 256 < 2 ^ 24 := by have := w.isLt; omega
  have bits : bitsOf w 31 8 = w.toNat / 256 := by
    rw [bitsOf, Nat.shiftRight_eq_div_pow]
    exact Nat.mod_eq_of_lt fits
  dsimp only
  rcases Nat.eq_zero_or_pos (w.toNat / 256) with zero | some
  · rw [uniformF32, bits, zero]
    refine ⟨?_, fun h => absurd rfl h⟩
    refine (valueOf_signed (wide_fmt .f32) false (r := 0) (Nat.zero_le _)).trans ?_
    simp [signedRat]
  · obtain ⟨p, le, value⟩ := exists_magnitude_f32 some.ne' fits
    have rounded := round_magnitude (wide_fmt .f32) .rne le some.ne' value
    have small : p < 2 ^ 32 := le.trans_lt (by decide)
    refine ⟨?_, fun _ => by rw [rounded]⟩
    rw [uniformF32, bits, if_neg some.ne', rounded, BitVec.toNat_ofNat, Nat.mod_eq_of_lt small, value]
    exact valueOf_signed (wide_fmt .f32) false le

/-! ## The statement -/

theorem fbits_fmt_le (t : Ty) : t.fmt.fbits ≤ 62 := by cases t <;> decide

/-- Settles O6: each operation on finite values rounds an exact integer at an exponent (`rounded_roundInt`), a quotient or a root, which
stand for the exact values (`stands_quotient`, `rootOf_spec`), and what stands for a value is rounded once (`rounded_round`). -/
theorem numbersAreRoundedOnce : Obligations.NumbersAreRoundedOnce := by
  refine ⟨fun ty env x v _ stands => rounded_round (wide_fmt ty) env stands, ?_, uniform_spec⟩
  intro ty env a b c x y z _ hx hy hz
  obtain ⟨na, ma, ea, ha, rfl⟩ := exists_fin hx
  obtain ⟨nb, mb, eb, hb, rfl⟩ := exists_fin hy
  obtain ⟨nc, mc, ec, hc, rfl⟩ := exists_fin hz
  have wide := wide_fmt ty
  simp only [ha, hb, hc, add_eq wide ha hb, sub_eq wide ha hb, fma_eq wide ha hb hc, sub_eq_add_neg, ← rational_negated,
    ← rational_mul]
  refine ⟨(rounded_sum wide env rfl).1, fun some zero => sum_eq_zero wide env zero (ne_of_rational_add_eq_zero some zero),
    sum_eq_zero wide env, (rounded_sum wide env rfl).1,
    fun some zero => sum_eq_zero wide env zero (ne_of_rational_add_eq_zero some zero),
    fun zero same => sum_eq_zero wide env zero (by simp [same]), ?_, (rounded_sum wide env rfl).1, sum_eq_zero wide env, ?_, ?_⟩
  · rw [rational_mul]
    exact rounded_mul wide ha hb
  · intro some some'
    rw [div_eq wide ha hb (mag_ne_zero some) (mag_ne_zero some')]
    exact rounded_round wide env (stands_quotient (mag_ne_zero some) (mag_ne_zero some') (mag_lt wide hb) (fbits_fmt_le ty))
  · intro pos
    obtain rfl := sign_of_pos pos
    have some := mag_ne_zero pos.ne'
    have value : ma * (2 : ℚ) ^ ea = rational false ma ea := by simp [rational]
    obtain ⟨sign, large, spec⟩ := rootOf_spec (fbits_fmt_le ty) some value
    exact ⟨_, sqrt_eq wide ha some, sign, large, spec⟩

end Sys2Proof.Numbers
end

section
/-! Encoding (family 07): every instruction has words, and the decoder undoes the encoder (R93 to R118). -/

namespace Sys2Proof.Encoding

open Laws

/-! ## Shaped copies (R115, R116) -/

/-- Word 0 of a shaped copy. -/
theorem shaped_word0 (f : Shaped) (shop : BitVec 8) :
    let w : Word := 3#2 ++ 0x3E#6 ++ shop ++ f.src1 ++ f.src2
    w.field 30 2 = 3#2 ∧ w.field 24 6 = 0x3E#6 ∧ w.field 16 8 = shop ∧ w.field 8 8 = f.src1 ∧ w.field 0 8 = f.src2 := by
  unfold Word.field
  refine ⟨?_, ?_, ?_, ?_, ?_⟩ <;>
    (repeat (first
        | refine (extract_append_low _ _ _ _ (by decide)).trans ?_
        | refine (extract_append_high _ _ _ _ (by decide)).trans ?_)
      <;> simp)

/-- The shape block holds every field, and its reserved bit is 0. -/
theorem shaped_block (f : Shaped) :
    Word.field (f.dim0 ++ f.dim1) 16 16 = f.dim0 ∧ Word.field (f.dim0 ++ f.dim1) 0 16 = f.dim1
      ∧ Word.field (f.soff ++ f.spitch) 14 18 = f.soff ∧ Word.field (f.soff ++ f.spitch) 0 14 = f.spitch
      ∧ let d : Word := f.esize ++ 0#1 ++ f.sreg ++ f.subst ++ f.goff
        d.getLsbD 28 = false ∧ d.field 29 3 = f.esize ∧ d.field 22 6 = f.sreg ∧ d.field 18 4 = f.subst
        ∧ d.field 0 18 = f.goff := by
  unfold Word.field
  refine ⟨?_, ?_, ?_, ?_, ?_, ?_, ?_, ?_, ?_⟩ <;>
    (repeat (first
        | refine (extract_append_low _ _ _ _ (by decide)).trans ?_
        | refine (extract_append_high _ _ _ _ (by decide)).trans ?_
        | refine (bit_append_low _ _ _ (by decide)).trans ?_
        | refine (bit_append_high _ _ _ (by decide)).trans ?_)
      <;> simp)

/-- The shaped copies parse back. -/
theorem parse_shaped (f : Shaped) (shop : BitVec 8) :
    parseWords (f.words shop) = orReject (Instr.ofShop shop.toNat f) .badSubop := by
  obtain ⟨len, major, op, a, b⟩ := shaped_word0 f shop
  obtain ⟨d0, d1, so, sp, reserved, es, sr, su, go⟩ := shaped_block f
  have parsed : Shaped.ofWords (3#2 ++ 0x3E#6 ++ shop ++ f.src1 ++ f.src2) (f.dim0 ++ f.dim1) f.stride (f.soff ++ f.spitch)
      (f.esize ++ 0#1 ++ f.sreg ++ f.subst ++ f.goff) = some f := by
    unfold Shaped.ofWords
    rw [a, b, d0, d1, so, sp, reserved, es, sr, su, go]
    rfl
  unfold Shaped.words
  generalize (3#2 ++ 0x3E#6 ++ shop ++ f.src1 ++ f.src2 : BitVec 32) = w at len major op parsed ⊢
  simp [parseWords, len, major, op, parsed]

/-! ## The encoder's words parse to the instruction -/

/-- A well-formed instruction's word 2 holds only what the instruction defines (R118). -/
theorem word2_of_wf {i : Instr} {form : Form} (here : i.form = some form) (wf : i.wf = true) : form.word2 = true := by
  have ok : form.ok = true := by
    unfold Instr.wf Instr.staticOk at wf
    split at wf
    · cases here
    · cases here
    · cases here
    · cases here
    · cases here
    · simpa [here] using wf
  simp only [Form.ok, Bool.and_eq_true] at ok
  exact ok.2

/-- A bit of a run of bits that is 0. -/
theorem bit_of_bitsOf_eq_zero {w hi lo n : Nat} {x : BitVec w} (zero : bitsOf x hi lo = 0) (above : lo ≤ n) (below : n ≤ hi) :
    bitOf x n = false := by
  have bit : (bitsOf x hi lo).testBit (n - lo) = bitOf x n := by
    simp [bitsOf, bitOf, Nat.testBit_mod_two_pow, BitVec.getLsbD, show lo + (n - lo) = n by omega,
      show n - lo < hi + 1 - lo by omega]
  rw [← bit, zero, Nat.zero_testBit]

/-- The words of a well-formed instruction parse to it: where instructions share a sub-operation, the bits of word 2, or `DST`, that
a well-formed one has set choose it. -/
theorem parse_encode {i : Instr} {ws : List Word} (h : encode i = some ws) (wf : i.wf = true) : parseWords ws = .ok i := by
  cases i with
  | addB32Base f | subB32Base f | mulB32Base f | andB32Base f | orB32Base f | xorB32Base f | shlB32Base f | shrB32Base f
  | sraB32Base f | minS32Base f | maxS32Base f | faddF32Base f | fsubF32Base f | fmulF32Base f | fmaF32Base f | fminF32Base f
  | fmaxF32Base f | movB32Base f | addB32VsBase f | fmulF32VsBase f | fmaF32VsBase f | saddB32Base f | ssubB32Base f
  | smulB32Base f | sandB32Base f | sorB32Base f | sxorB32Base f | sshlB32Base f | sshrB32Base f | smovB32Base f
  | ldB32XBase f | stB32XBase f | ldB32ScBase f | stB32ScBase f => cases h; exact parse_base f _
  | sadd f | ssub f | smul f | smulh f | smad f | sdiv f | srem f | smin f | smax f | sand f | sor f | sxor f | sshl f
  | sshr f | ssra f | sbfx f | sbfi f | spopc f | sclz f | sctz f | scmp f | ssel f | smov f | sli f | kop f | bra f | brk f
  | brv f | jmp f | call f | ret f | loop f | join f | exitLanes f | nop f | yieldSplit f | rdsr f | wrsr f | region f
  | fdone f | fawait f | fpoll f | spawn f | emit f | fire f | reord f | pqpush f | pqpop f | trap f | xbind f =>
    cases h; exact parse_xc f _
  | add f | sub f | mul f | mulh f | mad f | min f | max f | abs f | and f | or f | xor f | shl f | shr f | sra f | bfx f
  | bfi f | popc f | clz f | brev f | cmp f | sel f | mov f | fadd f | fsub f | fmul f | fma f | fmin f | fmax f | fcmp f
  | fclass f | fdiv f | fsqrt f | frcp f | frsq f | fex2 f | flg2 f | fsin f | fcos f | ftanh f | frint f | fscal f | cvt f
  | pack f | unpack f => cases h; exact parse_xv f _
  | matchLanes f | redux f | scan f | rngc f | vtopk f | vsoftmax f | vsample f => cases h; exact parse_xl f _
  | ld f | st f | sld f | sst f | aadd f | amin f | amax f | aand f | aor f | axor f | aswap f | acas f | ainc f | afadd f
  | red f | swait f | pf f | rhnew f | rhset f | rhdrop f => cases h; exact parse_xm f _
  | bar f | tbinit f | tbarrive f | tbwait f | tbpoll f | scatadd f => cases h; exact parse_xa f _
  | tset f | tget f | tcb f | tld f | tst f | tzero f | gang f | mma f | mmaBs f | mmaVs f | mmas f | mbatch f | mwait f
  | accld f | accst f | acccvt f | acczero f | vtset f | vlook f | vstencil f | vmarch f | vins f | dtrav f | stepb f =>
    cases h; exact parse_xt f _
  | cpasGs f | cpasSg f | cpasGt f | cpasSt f | cpasAg f => cases h; exact parse_shaped f _
  | fnew f | fnewP f | rfePc f | rfeNext f | rfeRegion f =>
    have chosen := word2_of_wf rfl wf
    simp [formFnew, formBare] at chosen
    cases h
    exact (parse_xc f _).trans (by simp [Instr.ofXC, chosen, orReject])
  | shflIdx f | shflUp f | shflDown f | shflXor f | voteBallot f | voteAny f | voteAll f | voteUni f =>
    have chosen := word2_of_wf rfl wf
    simp [formShfl, formVote] at chosen
    cases h
    exact (parse_xl f _).trans (by simp [Instr.ofXL, ← BitVec.toNat_inj, chosen, orReject])
  | cbinvNode f | cbinvArm f | cbinvTree f | cbinvAll f | cbinvTr f =>
    have chosen := word2_of_wf rfl wf
    simp [formCbinv] at chosen
    cases h
    exact (parse_xm f _).trans (by simp [Instr.ofXM, ← BitVec.toNat_inj, chosen, orReject])
  | cpaGs f | cpaSg f | cpaGg f | cpaSs f | cpaSw f | cpaWs f | gath f | gathRow f =>
    have chosen := word2_of_wf rfl wf
    simp [formCpa, formGath, formGathRow, bitOf] at chosen
    cases h
    exact (parse_xa f _).trans (by simp [Instr.ofXA, chosen, bitOf, orReject])
  | vsampTri f | vsampNear f | vactSet f | vactClr f | vactTrim f | haloPostOnly f =>
    have chosen := word2_of_wf rfl wf
    simp [formVsamp, formWalk, formVact, formHaloPost, formXT, Form.withDst, Form.withSrc1, Form.withSrc3] at chosen
    cases h
    exact (parse_xt f _).trans (by simp [Instr.ofXT, chosen, bitOf, orReject])
  | halo f =>
    have chosen := word2_of_wf rfl wf
    simp [formHalo, formXT, Form.withSrc1, Form.withSrc2, Form.withSrc3] at chosen
    have posts := bit_of_bitsOf_eq_zero (n := 3) chosen.2 (by omega) (by omega)
    cases h
    exact (parse_xt f _).trans (by simp [Instr.ofXT, posts, orReject])
  | _ => cases h

/-! ## What words parse to has words -/

/-- The instruction that an opcode map answers, if any, has words. -/
def Encoded (x : Option Instr) : Prop := ∀ i, x = some i → ∃ ws, encode i = some ws

theorem Encoded.of_words {i : Instr} {ws : List Word} (h : encode i = some ws) : Encoded (some i) := by
  rintro _ ⟨⟩
  exact ⟨ws, h⟩

theorem Encoded.ite {p : Prop} [Decidable p] {x y : Option Instr} (hx : Encoded x) (hy : Encoded y) :
    Encoded (if p then x else y) := by
  split
  · exact hx
  · exact hy

theorem Encoded.none : Encoded none := by
  intro i h
  cases h

theorem ofBase_encoded (n : Nat) (f : Base) : Encoded (Instr.ofBase n f) := by
  unfold Instr.ofBase
  split
  case h_35 => exact .none
  all_goals exact .of_words rfl

theorem ofXC_encoded (n : Nat) (f : XC) : Encoded (Instr.ofXC n f) := by
  unfold Instr.ofXC
  split
  case h_53 => exact .none
  all_goals repeat' apply Encoded.ite
  all_goals exact .of_words rfl

theorem ofXV_encoded (n : Nat) (f : XV) : Encoded (Instr.ofXV n f) := by
  unfold Instr.ofXV
  split
  case h_45 => exact .none
  all_goals exact .of_words rfl

theorem ofXL_encoded (n : Nat) (f : XL) : Encoded (Instr.ofXL n f) := by
  unfold Instr.ofXL
  split
  case h_10 => exact .none
  all_goals repeat' apply Encoded.ite
  all_goals exact .of_words rfl

theorem ofXM_encoded (n : Nat) (f : XM) : Encoded (Instr.ofXM n f) := by
  unfold Instr.ofXM
  split
  case h_22 => exact .none
  all_goals repeat' apply Encoded.ite
  all_goals exact .of_words rfl

theorem ofXA_encoded (n : Nat) (f : XA) : Encoded (Instr.ofXA n f) := by
  unfold Instr.ofXA
  split
  case h_9 => exact .none
  all_goals repeat' apply Encoded.ite
  all_goals exact .of_words rfl

theorem ofXT_encoded (n : Nat) (f : XT) : Encoded (Instr.ofXT n f) := by
  unfold Instr.ofXT
  split
  case h_28 => exact .none
  all_goals repeat' apply Encoded.ite
  all_goals exact .of_words rfl

theorem ofShop_encoded (n : Nat) (f : Shaped) : Encoded (Instr.ofShop n f) := by
  unfold Instr.ofShop
  split
  case h_6 => exact .none
  all_goals exact .of_words rfl

/-- What an opcode map answers has words, whatever the reason for which it might have answered none. -/
theorem Encoded.orReject {x : Option Instr} {r : Reject} {i : Instr} (hx : Encoded x) (h : orReject x r = .ok i) :
    ∃ ws, encode i = some ws := by
  cases x with
  | none => cases h
  | some j =>
    cases h
    exact hx i rfl

theorem decodeExtended_encoded {w0 w1 w2 : Word} {lit : Option DWord} {i : Instr} (h : decodeExtended w0 w1 w2 lit = .ok i) :
    ∃ ws, encode i = some ws := by
  simp only [decodeExtended] at h
  split at h
  · cases h
  · split at h
    · exact (ofXC_encoded _ _).orReject h
    · split at h
      · exact (ofXV_encoded _ _).orReject h
      · cases h
    · exact (ofXL_encoded _ _).orReject h
    · exact (ofXM_encoded _ _).orReject h
    · exact (ofXA_encoded _ _).orReject h
    · exact (ofXT_encoded _ _).orReject h
    · cases h

/-- What words parse to has words, and word 0 says how many they are (R94). -/
theorem encoded_of_parse {ws : List Word} {i : Instr} (h : parseWords ws = .ok i) :
    (∃ us, encode i = some us) ∧ ∃ w0 rest, ws = w0 :: rest ∧ lengthOf w0 = ws.length := by
  unfold parseWords at h
  split at h
  · cases h
  · rename_i w0 rest
    dsimp only at h
    split at h
    · exact ⟨(ofBase_encoded _ _).orReject h, w0, _, rfl, by simp [lengthOf, *]⟩
    · exact ⟨(ofBase_encoded _ _).orReject h, w0, _, rfl, by simp [lengthOf, *]⟩
    · exact ⟨decodeExtended_encoded h, w0, _, rfl, by simp [lengthOf, *]⟩
    · refine ⟨?_, w0, _, rfl, by simp [lengthOf, *]⟩
      split at h
      · split at h
        · exact (ofShop_encoded _ _).orReject h
        · cases h
      · exact decodeExtended_encoded h
    · cases h

/-! ## Words and bytes decode -/

/-- Words decode to what they parse to, where that passes the static checks (R118). -/
theorem decodeWords_eq_ok {ws : List Word} {i : Instr} : decodeWords ws = .ok i ↔ parseWords ws = .ok i ∧ i.wf = true := by
  unfold decodeWords
  split
  · simp [*]
  · rename_i j parsed
    rw [parsed]
    constructor
    · intro h
      split at h
      · cases h
        exact ⟨rfl, ‹_›⟩
      · cases h
    · rintro ⟨⟨⟩, wf⟩
      rw [if_pos wf]

/-- Words that decode do so from the front of bytes, and the bytes behind them stay. -/
theorem decode_bytes {ws : List Word} {i : Instr} (h : decodeWords ws = .ok i) (rest : List Byte) :
    decode (ws.flatMap bytesOfWord ++ rest) = .ok (i, rest) := by
  obtain ⟨-, w0, more, rfl, len⟩ := encoded_of_parse (decodeWords_eq_ok.1 h).1
  have taken := takeWords_bytes (w0 :: more) rest
  rw [← len] at taken
  simp only [List.flatMap_cons, bytesOfWord, List.cons_append, List.nil_append] at taken ⊢
  simp only [decode, word_bytes, taken, h]

/-! ## The statement -/

/-- Every instruction of a form has words. -/
theorem encode_of_form {i : Instr} (h : i.form ≠ none) : ∃ ws, encode i = some ws := by
  cases i with
  | fdonePerform | spawnFrameRaise | pqPushPerform | pqPopPerform | vocabBlock | atomicPerform | swaitPoll
  | translationInvalidateDone | copyLanding | engineFault | engineSupervisorEntry | boundaryBarrierMessage | tbarrivePerform
  | latchFire | mmasStage | matrixOpComplete | allocatorInsertDone | pairWalkerEmit | pairWalkerEnd | haloPost | producerFill
  | producerWatchdog | clusterWindowArrive | memoryWritePerform | l1EvictWriteback | l2Fill | taskReport | continuationResume
  | cancelled | graphCompletionRecord | hostDoorbell | linkMessage | binRecordArrive | binTimerExpiry | reorderTimerExpiry
  | scanRequest | scanLeaf | teamPlace | placementHeadAged | splitUrgent | bankSwap | bankSwapIdleTimeout | bankSwapComplete
  | spinEviction | lodgeStart | lodgeProducerTimeout | lodgeTransferDone | lodgingAdvertise | contextReturn | teamEvict
  | teamEvictTimeout | teamReturn | hostBarAccess | invqtailWrite | invqEntryDone | cancelWrite | srbaseWrite
  | hostRegisterWrite | hostLinkReset | hostLinkTrained | sendRingSlot | sendRingPoll | linkMessageAck | portDown
  | portRestartAttempt | portUp | hingePacketReceive | hingeBoundaryFail | hingeLaneFail | hingeRecalibrate | patrolScrub
  | channelRetire | channelCopyDone | coreClockGate | corePowerGate | gatingEnd | dieEnterD1 | coreWake | clockStepChange
  | packageReset | firmwareUpdate | firmwareBankSwitch | attestation | managementTelemetry | coreRetire | coreFailure
  | illegalEncoding | fetchTrap | handleChangeApplied | flitReplay | transportRetransmit | atomicopRequesterEnable =>
    exact absurd rfl h
  | cpasGs f | cpasSg f | cpasGt f | cpasSt f | cpasAg f => exact absurd rfl h
  | _ => exact ⟨_, rfl⟩

/-- Settles O50: a well-formed instruction's words parse to it (`parse_encode`), what parses has words whose number word 0 gives
(`encoded_of_parse`), and bytes decode as their words do (`decode_bytes`). -/
theorem decodeUndoesEncode : Obligations.DecodeUndoesEncode := by
  refine ⟨fun i formed => ?_, fun i ws rest h => ⟨fun wf => ?_, fun illFormed decoded => ?_⟩, fun ws i decoded => ?_⟩
  · rcases formed with formed | ⟨f, rfl | rfl | rfl | rfl | rfl⟩
    · exact encode_of_form formed
    all_goals exact ⟨_, rfl⟩
  · exact decode_bytes (decodeWords_eq_ok.2 ⟨parse_encode h wf, wf⟩) rest
  · have wf := (decodeWords_eq_ok.1 decoded).2
    simp [illFormed] at wf
  · obtain ⟨parsed, wf⟩ := decodeWords_eq_ok.1 decoded
    exact ⟨wf, (encoded_of_parse parsed).1⟩

end Sys2Proof.Encoding
end

section
/-! The lanes of the tree engines (family 07): walker operations, insertions and `vact` (R105, R276, R284, R286). -/

namespace Sys2Proof.Engines

open Machine Laws Claims

variable {s t : State} {n l : Nat} {o : Op} {ws : List Word}

/-! ## Walker operations (R276) -/

/-- An arrival at a walker operation performs the lanes that it names. -/
theorem producerFill_walk {w : Walk} {lanes : LaneMask} (op : s.ops.look n = some o) (runs : o.fault = none)
    (kind : o.kind = .walk w) :
    exec (.producerFill n lanes) s = .next (s.walkLanes n o w (w.lanes.filter fun e => lanes.getLsbD e.1)) := by
  show execProducerFill n lanes s = _
  simp [execProducerFill, op, runs, kind]

/-- The state of a walker operation of which a lane is over: it goes on with the other lanes, or ends. -/
def walkOver (w : Walk) (n l : Nat) (o : Op) (t : State) : State :=
  let left := w.lanes.filter fun e => e.1 != l
  if left.isEmpty then t.wakeOp n o else t.goOn n (.walk { w with lanes := left })

/-- A lane that is performed alone is over, or stops the operation. -/
theorem walkLanes_one {w : Walk} : s.walkLanes n o w [(l, ws)] =
    if (s.walkLane n o w l ws).2 then walkOver w n l o (s.walkLane n o w l ws).1 else (s.walkLane n o w l ws).1 := by
  unfold State.walkLanes
  split
  next stopped => simp [stopped]
  next performed =>
    simp only [performed, walkOver, if_true, List.isEmpty_nil]
    rfl

theorem walkLane_ok {w : Walk} {r : List Word × Bool × Flags} (work : (engWalk o w ws).go s = (t, .ok r)) :
    s.walkLane n o w l ws = (t.modCtx o.ctx fun c => c.walked w l r, true) := by
  simp [State.walkLane, work]

theorem walkLane_error {w : Walk} {u : Trap} (work : (engWalk o w ws).go s = (t, .error u)) :
    s.walkLane n o w l ws = if u.cause.supervisor then (t.meetFault n (u.inLane l), false)
      else ((t.tellWalk o (u.inLane l)).modCtx o.ctx fun c => c.walkFailed w l u, true) := by
  simp [State.walkLane, work]

/-! ## Insertions (R284) -/

section Insert

variable {reg : Option Nat} {tree : Tree} {rest : List (Nat × List Word)} {held : Option Held}

/-- The state of an insertion of which a lane is over with its registers' words or a cause: an edge (R216). -/
def insertOver (n l : Nat) (o : Op) (reg : Option Nat) (tree : Tree) (rest : List (Nat × List Word)) (u : State)
    (r : Except Trap (Word × Word)) : State :=
  ((u.modCtx o.ctx fun c => c.inserted reg l r).crossEdge o.ctx).keepOp n rest.isEmpty (.insert reg tree rest none)

/-- What an insertion does with the answer of its next part, of the lane l. -/
def insertStep (s : State) (n l : Nat) (ws : List Word) (o : Op) (reg : Option Nat) (tree : Tree)
    (rest : List (Nat × List Word)) : State × Except Trap Inserted → State
  | (_, .ok .busy) => s
  | (u, .ok (.holds h)) => u.goOn n (.insert reg tree ((l, ws) :: rest) (some h))
  | (u, .ok (.failed st)) => insertOver n l o reg tree rest u (.ok (0, BitVec.ofNat 32 st))
  | (u, .ok (.found k made)) => insertOver n l o reg tree rest u (.ok (BitVec.ofNat 32 k, if made then 1 else 0))
  | (u, .error x) => if x.cause.supervisor then s.meetFault n (x.inLane l)
    else insertOver n l o reg tree rest (u.tellWalk o (x.inLane l)) (.error x)

theorem allocatorInsertDone_exec {r : State × Except Trap Inserted} (op : s.ops.look n = some o) (runs : o.fault = none)
    (kind : o.kind = .insert reg tree ((l, ws) :: rest) held)
    (work : (engInsert o tree held (coordOf ws 0) (coordOf ws 1) (coordOf ws 2)).go s = r) :
    exec (.allocatorInsertDone n) s = .next (insertStep s n l ws o reg tree rest r) := by
  show execAllocatorInsertDone n s = _
  simp only [execAllocatorInsertDone, op, kind, runs, work, Option.isSome_none, Bool.false_eq_true, if_false]
  rcases r with ⟨u, x | (_ | _ | _ | _)⟩
  · dsimp only [insertStep]
    split <;> rfl
  all_goals rfl

end Insert

/-! ## Activity (R286) -/

section Activity

variable {mode apred : Nat} {tree : Tree} {rest : List (Nat × List Word)} {failed : List Trap}

/-- The state of a `vact` of which a lane is over: its bit of `APRED` is written, and behind the last lane it ends. -/
def activityLane (n l : Nat) (o : Op) (mode apred : Nat) (tree : Tree) (rest : List (Nat × List Word)) (u : State)
    (present : Bool) (failed : List Trap) : State :=
  let v := u.modCtx o.ctx fun c => c.setApred apred l present
  if rest.isEmpty then v.activityOver n o failed else v.goOn n (.activity mode apred tree rest failed)

/-- What a `vact` does with what it finds in the lane l. -/
def activityAnswer (n l : Nat) (o : Op) (mode apred : Nat) (tree : Tree) (rest : List (Nat × List Word)) (failed : List Trap) :
    State × Except Trap Bool → State
  | (u, .ok present) => activityLane n l o mode apred tree rest u present failed
  | (u, .error x) => if x.cause.supervisor then u.meetFault n (x.inLane l)
    else activityLane n l o mode apred tree rest (u.tellWalk o (x.inLane l)) false (failed ++ [x.inLane l])

/-- Work on a list of lanes takes the turn of the first. The turn stands for any function here, so that nothing runs it. -/
theorem lanes_first {lanes : List (Nat × List Word)} {turn : Nat → List Word → List (Nat × List Word) → State} :
    lanes = (l, ws) :: rest → (match lanes with
      | [] => t
      | (l, ws) :: rest => turn l ws rest) = turn l ws rest := by
  rintro rfl
  rfl

theorem activityStep_first {lanes : List (Nat × List Word)} {r : State × Except Trap Bool} (first : lanes = (l, ws) :: rest)
    (work : (engActivity o tree mode (coordOf ws 0) (coordOf ws 1) (coordOf ws 2)).go s = r) :
    s.activityStep n o mode apred tree failed lanes = activityAnswer n l o mode apred tree rest failed r := by
  unfold State.activityStep
  refine (lanes_first first).trans ?_
  rw [work]
  rcases r with ⟨u, x | present⟩ <;> rfl

theorem atomicPerform_activity {r : State × Except Trap Bool} (op : s.ops.look n = some o) (runs : o.fault = none)
    (kind : o.kind = .activity mode apred tree ((l, ws) :: rest) failed)
    (work : (engActivity o tree mode (coordOf ws 0) (coordOf ws 1) (coordOf ws 2)).go s = r) :
    exec (.atomicPerform n) s = .next (activityAnswer n l o mode apred tree rest failed r) := by
  show execAtomicPerform n s = _
  simp only [execAtomicPerform, op, runs, kind, Option.isSome_none, Bool.false_eq_true, if_false]
  rw [activityStep_first rfl work]

end Activity

/-! ## The statement -/

/-- Settles O36: each part is the equation of one engine's step, for what its work answers. -/
theorem treeEnginesWork : Obligations.TreeEnginesWork := by
  intro s n o op runs
  refine ⟨?_, ?_, ?_, ?_⟩
  · intro w l ws kind chosen left finish
    rw [producerFill_walk op runs kind, chosen, walkLanes_one]
    refine ⟨fun t r work => ?_, fun t u work => ?_⟩
    · rw [walkLane_ok work]
      rfl
    · rw [walkLane_error work]
      cases u.cause.supervisor <;> rfl
  · intro values lanes kind parts
    rw [MemoryAccess.producerFill_exec op runs (by simp [kind])]
    simp only [State.fillLanes, kind]
    rfl
  · intro reg t l ws rest held kind work finish
    exact ⟨fun _ e => allocatorInsertDone_exec op runs kind e, fun _ _ e => allocatorInsertDone_exec op runs kind e,
      fun _ _ e => allocatorInsertDone_exec op runs kind e, fun _ _ _ e => allocatorInsertDone_exec op runs kind e,
      fun _ _ e => allocatorInsertDone_exec op runs kind e⟩
  · intro mode apred t l ws rest failed kind finish work
    exact ⟨fun _ _ e => atomicPerform_activity op runs kind e, fun _ _ e => atomicPerform_activity op runs kind e⟩

end Sys2Proof.Engines
end

section
/-! How instructions are issued (family 07): every instruction of a form goes through the same checks (R118). -/

namespace Sys2Proof.Encoding

open Machine Laws Claims Numbers

variable {s : State}

/-! ## The lengths of instructions (R94) -/

theorem hdr_size {i : Instr} {h : Hdr} {major : BitVec 6} {subop : BitVec 10} {w2 : Word}
    (words : encode i = some (h.words major subop w2)) (ws : List Word) (e : encode i = some ws) : h.bytes = 4 * ws.length := by
  obtain rfl := Option.some.inj (words.symm.trans e)
  unfold Hdr.words Hdr.bytes
  cases h.lit <;> rfl

theorem base_size {i : Instr} {f : Base} {major : BitVec 6} (words : encode i = some (f.words major)) (ws : List Word)
    (e : encode i = some ws) : f.bytes = 4 * ws.length := by
  obtain rfl := Option.some.inj (words.symm.trans e)
  unfold Base.words Base.bytes
  cases f.lit <;> rfl

theorem shaped_size {i : Instr} {f : Shaped} {shop : BitVec 8} (words : encode i = some (f.words shop)) (ws : List Word)
    (e : encode i = some ws) : 20 = 4 * ws.length := by
  obtain rfl := Option.some.inj (words.symm.trans e)
  rfl

theorem toNat_beq_ofNat {x : Word} {n : Nat} (h : n < 2 ^ 32) : (x.toNat == n) = (x == BitVec.ofNat 32 n) := by
  rw [Bool.eq_iff_iff, beq_iff_eq, beq_iff_eq, ← BitVec.toNat_inj, BitVec.toNat_ofNat, Nat.mod_eq_of_lt h]

/-! ## What runs through `issueOn` (R118) -/

/-- An outcome is that of issuing an instruction, whatever its own part. -/
def Runs (form : Form) (bytes : Nat) (more : List Field) (illegal absent : Issue → State → Bool) (written : Issue → LaneMask)
    (s : State) (o : Host.Outcome State Fault Refusal) : Prop :=
  ∃ act, o = issueOn form bytes more illegal absent written act s

/-- An outcome is that of issuing an instruction without checks of its own. -/
abbrev RunsPlain (form : Form) (bytes : Nat) (s : State) (o : Host.Outcome State Fault Refusal) : Prop :=
  Runs form bytes [] never never (fun is => is.acting) s o

section Runs

variable {form : Form} {bytes : Nat}

theorem Runs.issueWith {more : List Field} {illegal absent : Issue → State → Bool} {act : Issue → State → Res} :
    Runs form bytes more illegal absent (fun is => is.acting) s (issueWith form bytes more illegal absent act s) :=
  ⟨act, rfl⟩

theorem Runs.issue {act : Issue → State → Res} : RunsPlain form bytes s (issue form bytes act s) := ⟨act, rfl⟩

theorem Runs.scalarMeaning {i : Instr} {op : DWord → DWord → DWord → DWord} (h : scalarMeaning i = some (form, bytes, op)) :
    RunsPlain form bytes s (exec i s) := by
  rw [exec_scalarMeaning h]
  exact .issue

theorem Runs.laneMeaning {i : Instr} {op : (Nat → DWord) → DWord} (h : laneMeaning i = some (form, bytes, op)) :
    RunsPlain form bytes s (exec i s) := by
  rw [exec_laneMeaning h]
  exact .issue

theorem Runs.vectorOp {op : Ctx → Nat → DWord} : RunsPlain form bytes s (vectorOp form bytes op s) := .issue

theorem Runs.vectorFp {op : Ctx → Nat → Nat × Flags} : RunsPlain form bytes s (vectorFp form bytes op s) := .issue

theorem Runs.fpTwo {f : XV} {op : Fmt → FpEnv → Nat → Nat → Nat × Flags} : RunsPlain form bytes s (fpTwo f form bytes op s) :=
  .vectorFp

theorem Runs.fpOne {f : XV} {op : Fmt → FpEnv → Nat → Nat × Flags} : RunsPlain form f.h.bytes s (fpOne f form op s) := .vectorFp

theorem Runs.fpFma {f : XV} : RunsPlain form bytes s (fpFma f form bytes s) := .vectorFp

theorem Runs.baseFp {f : Base} {scalar : Bool} {op : Fmt → FpEnv → Nat → Nat → Nat × Flags} :
    RunsPlain (formBase2 f .f32 scalar) f.bytes s (baseFp f scalar op s) := .fpTwo

theorem Runs.shuffle {f : XL} {mode : Nat} {source : Nat → Nat → Int} :
    RunsPlain (formShfl f mode) f.h.bytes s (shuffle f mode source s) := .issue

theorem Runs.vote {f : XL} {mode : Nat} {op : LaneMask → LaneMask → DWord} :
    RunsPlain (formVote f mode) f.h.bytes s (vote f mode op s) := .issue

theorem Runs.changeHandle {f : XM} {set : Bool} : RunsPlain form f.h.bytes s (changeHandle f form set s) := .issue

theorem Runs.forgetBlock {f : XM} {kind : Nat} : RunsPlain (formCbinv f kind) f.h.bytes s (forgetBlock f kind s) := .issue

theorem Runs.copyBulk {f : XA} {dir srcKind dstKind : Nat} {dst src : Use} :
    RunsPlain (formCpa f dir dst src) f.h.bytes s (copyBulk f dir dst src srcKind dstKind s) := .issue

theorem Runs.withTree {f : XT} {act : Issue → Tree → State → Res} : RunsPlain form f.h.bytes s (withTree f form act s) := .issue

theorem Runs.startWalk {f : XT} {kind pat n : Nat} : RunsPlain form f.h.bytes s (startWalk f form kind pat n s) := .withTree

theorem Runs.startActivity {f : XT} {mode : Nat} : RunsPlain (formVact f mode) f.h.bytes s (startActivity f mode s) := .withTree

theorem Runs.loadMem {f : XM} {scalar : Bool} :
    Runs form bytes [] (fun is _ => f.badWindow is) never (fun is => is.acting) s (loadMem f form bytes scalar s) := .issueWith

theorem Runs.atomicMem {f : XM} {op : AtomicOp} {ret : Bool} :
    Runs form f.h.bytes [] (fun is _ => f.badWindow is) never (fun is => is.acting) s (atomicMem f form op ret s) := .issueWith

theorem Runs.newFrames {f : XC} {promise : Bool} :
    Runs (formFnew f promise) f.h.bytes [] (fun is _ => f.frameK != is.c.perLane) never (fun is => is.acting) s
      (newFrames f promise s) := .issueWith

theorem Runs.returnFrom {f : XC} {mode : Nat} {resume : Issue → Handler → State → State × Except Trap DWord}
    (h : mode < 2 ^ 32) :
    Runs (formBare f .k (f.imm == BitVec.ofNat 32 mode)) f.h.bytes [] (fun is _ => !is.inHandler) never (fun is => is.acting) s
      (returnFrom f mode resume s) := by
  rw [← toNat_beq_ofNat h]
  exact .issueWith

theorem Runs.copyShaped {f : Shaped} {base : Use} {near : Shape → Issue → State → Except Trap ((Nat → Side) × List Range)}
    {far : Shape → Issue → State → DWord → Except Trap ((Nat → Side) × List Range)} {into : Bool}
    {busy : Shape → Issue → State → Bool} {late : Shape → Issue → Option Trap} {tile : Shape → Option Nat} :
    Runs (f.form base) 20 f.registers never never (fun is => is.acting) s (copyShaped f base near far into busy late tile s) :=
  .issueWith

theorem Runs.issueVocab {f : XL} {kind k : Nat} :
    Runs form f.h.bytes [] (fun is _ => kind == 1 && (k == 0 || decide (is.c.node.width < k)
      || laneSet (List.range k) &&& ~~~is.sp.mask != 0)) (fun _ s => !s.hasVocab) (vocabLanes f kind k) s
      (issueVocab f form kind k s) := ⟨_, rfl⟩

theorem Runs.storeMem {f : XM} {scalar : Bool} :
    Runs form bytes [] (fun is _ => f.badWindow is) never (fun is => is.acting) s (storeMem f form bytes scalar s) := .issueWith

end Runs

/-- How an instruction of a form is issued: its lengths, its sources and its own checks are those that the statement names. -/
inductive Issued (i : Instr) (form : Form) (more : List Field) : Prop
  | intro {bytes : Nat} {illegal absent : Issue → State → Bool}
    (runs : ∀ s, Runs form bytes more illegal absent (writtenLanes i) s (exec i s))
    (size : ∀ ws, encode i = some ws → bytes = 4 * ws.length)
    (reads : ∀ s is, sourcesOf i form more s is = form.sources more is.acting is.sp.mask)
    (free : checksItself i = false → ∀ is s, illegal is s = false ∧ absent is s = false)
    (steal : onTiles i = true → ∀ is s, is.c.node.steal = true → illegal is s = true)

section Issued

variable {i : Instr} {form : Form} {more : List Field} {bytes : Nat}

/-- An instruction without checks of its own. -/
theorem Issued.plain (size : ∀ ws, encode i = some ws → bytes = 4 * ws.length)
    (runs : ∀ s, Runs form bytes more never never (writtenLanes i) s (exec i s))
    (reads : ∀ s is, sourcesOf i form more s is = form.sources more is.acting is.sp.mask) (tiles : onTiles i = false) :
    Issued i form more :=
  .intro runs size reads (fun _ _ _ => ⟨rfl, rfl⟩) fun on => absurd on (by simp [tiles])

/-- An instruction with checks of its own, that a stealable group may issue. -/
theorem Issued.checked {illegal absent : Issue → State → Bool} (size : ∀ ws, encode i = some ws → bytes = 4 * ws.length)
    (runs : ∀ s, Runs form bytes more illegal absent (writtenLanes i) s (exec i s))
    (reads : ∀ s is, sourcesOf i form more s is = form.sources more is.acting is.sp.mask) (checks : checksItself i = true)
    (tiles : onTiles i = false) : Issued i form more :=
  .intro runs size reads (fun free => absurd free (by simp [checks])) fun on => absurd on (by simp [tiles])

/-- An instruction of the tiles or the matrix engine (R243). -/
theorem Issued.tiles {illegal absent : Issue → State → Bool} (size : ∀ ws, encode i = some ws → bytes = 4 * ws.length)
    (runs : ∀ s, Runs form bytes more illegal absent (writtenLanes i) s (exec i s))
    (reads : ∀ s is, sourcesOf i form more s is = form.sources more is.acting is.sp.mask) (checks : checksItself i = true)
    (steal : ∀ is s, is.c.node.steal = true → illegal is s = true) : Issued i form more :=
  .intro runs size reads (fun free => absurd free (by simp [checks])) fun _ => steal

/-- The instructions whose sources depend on the state: `tcb` reads sixteen lanes whatever its split (R245), and a ganged matrix
operation may take its B tile from another group (R252). -/
def readsByState : Instr → Bool
  | .tcb _ | .mma _ | .mmaBs _ | .mmaVs _ => true
  | _ => false

theorem issued (h : partsOf i = some (form, more)) (fixed : readsByState i = false) : Issued i form more := by
  cases i with
  | addB32Base f | subB32Base f | mulB32Base f | andB32Base f | orB32Base f | xorB32Base f | shlB32Base f | shrB32Base f
  | sraB32Base f | minS32Base f | maxS32Base f | addB32VsBase f | movB32Base f =>
    cases h
    exact .plain (base_size rfl) (fun _ => .laneMeaning rfl) (fun _ _ => rfl) rfl
  | add f | sub f | mul f | mulh f | min f | max f | and f | or f | xor f | shl f | shr f | sra f | mad f | abs f | bfx f
  | cmp f | popc f | clz f | brev f | mov f =>
    cases h
    exact .plain (hdr_size rfl) (fun _ => .laneMeaning rfl) (fun _ _ => rfl) rfl
  | saddB32Base f | ssubB32Base f | smulB32Base f | sandB32Base f | sorB32Base f | sxorB32Base f | sshlB32Base f
  | sshrB32Base f | smovB32Base f =>
    cases h
    exact .plain (base_size rfl) (fun _ => .scalarMeaning rfl) (fun _ _ => rfl) rfl
  | sadd f | ssub f | smul f | smulh f | sdiv f | srem f | smin f | smax f | sand f | sor f | sxor f | sshl f | sshr f
  | ssra f | smad f | sbfx f | scmp f | sli f | spopc f | sclz f | sctz f | smov f =>
    cases h
    exact .plain (hdr_size rfl) (fun _ => .scalarMeaning rfl) (fun _ _ => rfl) rfl
  | faddF32Base f | fsubF32Base f | fmulF32Base f | fminF32Base f | fmaxF32Base f | fmulF32VsBase f =>
    cases h
    exact .plain (base_size rfl) (fun _ => by unfold exec; exact .baseFp) (fun _ _ => rfl) rfl
  | fmaF32Base f | fmaF32VsBase f =>
    cases h
    exact .plain (base_size rfl) (fun _ => by unfold exec; exact .fpFma) (fun _ _ => rfl) rfl
  | bfi f | sel f | fclass f =>
    cases h
    exact .plain (hdr_size rfl) (fun _ => by unfold exec; exact .vectorOp) (fun _ _ => rfl) rfl
  | fcmp f | fscal f | cvt f | pack f | unpack f =>
    cases h
    refine .plain (hdr_size rfl) (fun _ => ?_) (fun _ _ => rfl) rfl
    unfold exec
    dsimp only [execFcmp, execFscal, execCvt, execPack, execUnpack]
    exact .vectorFp
  | fadd f | fsub f | fmul f | fmin f | fmax f | fdiv f =>
    cases h
    exact .plain (hdr_size rfl) (fun _ => by unfold exec; exact .fpTwo) (fun _ _ => rfl) rfl
  | fsqrt f | frcp f | frsq f | fex2 f | flg2 f | fsin f | fcos f | ftanh f | frint f =>
    cases h
    exact .plain (hdr_size rfl) (fun _ => by unfold exec; exact .fpOne) (fun _ _ => rfl) rfl
  | fma f =>
    cases h
    exact .plain (hdr_size rfl) (fun _ => by unfold exec; exact .fpFma) (fun _ _ => rfl) rfl
  | sbfi f | ssel f | kop f | bra f | brk f | brv f | jmp f | call f | ret f | loop f | join f | exitLanes f | nop f
  | yieldSplit f | rdsr f | wrsr f | region f | fdone f | fawait f | fpoll f | spawn f | emit f | fire f | reord f | pqpush f
  | pqpop f | trap f | xbind f | matchLanes f | redux f | scan f | rngc f | pf f | rhnew f | cbinvAll f | cbinvTr f | bar f
  | tbinit f | tbarrive f | tbwait f | tbpoll f | gath f | gathRow f | scatadd f | vtset f | halo f | haloPostOnly f
  | stepb f =>
    cases h
    exact .plain (hdr_size rfl) (fun _ => by unfold exec; exact .issue) (fun _ _ => rfl) rfl
  | shflIdx f | shflUp f | shflDown f | shflXor f =>
    cases h
    exact .plain (hdr_size rfl) (fun _ => by unfold exec; exact .shuffle) (fun _ _ => rfl) rfl
  | voteBallot f | voteAny f | voteAll f | voteUni f =>
    cases h
    exact .plain (hdr_size rfl) (fun _ => by unfold exec; exact .vote) (fun _ _ => rfl) rfl
  | rhset f | rhdrop f =>
    cases h
    exact .plain (hdr_size rfl) (fun _ => by unfold exec; exact .changeHandle) (fun _ _ => rfl) rfl
  | cbinvNode f | cbinvArm f | cbinvTree f =>
    cases h
    exact .plain (hdr_size rfl) (fun _ => by unfold exec; exact .forgetBlock) (fun _ _ => rfl) rfl
  | cpaGs f | cpaSg f | cpaGg f | cpaSs f | cpaSw f | cpaWs f =>
    cases h
    exact .plain (hdr_size rfl) (fun _ => by unfold exec; exact .copyBulk) (fun _ _ => rfl) rfl
  | cpasGs f | cpasSg f | cpasGt f | cpasSt f | cpasAg f =>
    cases h
    exact .plain (shaped_size rfl) (fun _ => by unfold exec; exact .copyShaped) (fun _ _ => rfl) rfl
  | vlook f | vstencil f | vsampTri f | vsampNear f | vmarch f =>
    cases h
    exact .plain (hdr_size rfl) (fun _ => by unfold exec; exact .startWalk) (fun _ _ => rfl) rfl
  | vins f =>
    cases h
    exact .plain (hdr_size rfl) (fun _ => by unfold exec execVins; exact .withTree) (fun _ _ => rfl) rfl
  | vactSet f | vactClr f | vactTrim f =>
    cases h
    exact .plain (hdr_size rfl) (fun _ => by unfold exec; exact .startActivity) (fun _ _ => rfl) rfl
  | ldB32XBase f | ldB32ScBase f =>
    cases h
    exact .intro (fun _ => by unfold exec; exact .loadMem) (base_size rfl) (fun _ _ => rfl) (fun _ _ _ => ⟨rfl, rfl⟩) nofun
  | stB32XBase f | stB32ScBase f =>
    cases h
    exact .intro (fun _ => by unfold exec; exact .storeMem) (base_size rfl) (fun _ _ => rfl) (fun _ _ _ => ⟨rfl, rfl⟩) nofun
  | fnew f | fnewP f =>
    cases h
    exact .checked (hdr_size rfl) (fun _ => by unfold exec; exact .newFrames) (fun _ _ => rfl) rfl rfl
  | rfePc f | rfeNext f | rfeRegion f =>
    cases h
    exact .checked (hdr_size rfl) (fun _ => by unfold exec; exact .returnFrom (by decide)) (fun _ _ => rfl) rfl rfl
  | vtopk f | vsoftmax f | vsample f =>
    cases h
    exact .checked (hdr_size rfl) (fun _ => by unfold exec; exact .issueVocab) (fun _ _ => rfl) rfl rfl
  | ld f | sld f =>
    cases h
    exact .checked (hdr_size rfl) (fun _ => by unfold exec; exact .loadMem) (fun _ _ => rfl) rfl rfl
  | st f | sst f =>
    cases h
    exact .checked (hdr_size rfl) (fun _ => by unfold exec; exact .storeMem) (fun _ _ => rfl) rfl rfl
  | aadd f | amin f | amax f | aand f | aor f | axor f | aswap f | acas f | ainc f | afadd f | red f =>
    cases h
    exact .checked (hdr_size rfl) (fun _ => by unfold exec; exact .atomicMem) (fun _ _ => rfl) rfl rfl
  | swait f | dtrav f =>
    cases h
    exact .checked (hdr_size rfl) (fun _ => by unfold exec; exact .issueWith) (fun _ _ => rfl) rfl rfl
  | tset f | tget f | tld f | tst f | tzero f | gang f | mbatch f | mwait f | acczero f =>
    cases h
    exact .tiles (hdr_size rfl) (fun _ => by unfold exec; exact .issueWith) (fun _ _ => rfl) rfl fun _ _ steal => steal
  | mmas f | accld f | accst f | acccvt f =>
    cases h
    refine .tiles (hdr_size rfl) (fun _ => by unfold exec; exact .issueWith) (fun _ _ => rfl) rfl fun _ _ steal => ?_
    simp [badBlock, inStealable, steal]
  | tcb f | mma f | mmaBs f | mmaVs f => cases fixed
  | _ => cases h

end Issued

end Sys2Proof.Encoding
end

section
/-! What comes before an instruction (family 07, O12): the checks of the form, its lanes and its sources, in their order. -/

namespace Sys2Proof.Encoding

open Machine Laws Claims Numbers

/-! ## What the sources together make an instruction do (R106, R304) -/

/-- A source makes the instruction take a deferred cause. -/
def givesCause : SourceState → Bool
  | .poisoned _ => true
  | _ => false

/-- A source makes the instruction take `EMPTY_READ`. -/
def givesEmptyRead : SourceState → Bool
  | .emptyTrap _ => true
  | _ => false

section Sources

variable {c : Ctx} {sources before after : List (Bool × List Nat)} {e : Bool × List Nat}

theorem sourcesState_eq : c.sourcesState sources =
    match (sources.map fun e => c.sourceState e.1 e.2).find? givesCause with
    | some r => r
    | none =>
      match (sources.map fun e => c.sourceState e.1 e.2).find? givesEmptyRead with
      | some r => r
      | none =>
        match sources.flatMap fun e => e.2.filter c.isEmpty with
        | [] => .full
        | ks => .emptyWait ks := rfl

theorem sourceState_of_poisoned {first rest : List Nat} {trapping : Bool} {k : Nat}
    (clean : ∀ j ∈ first, c.isPoisoned j = false) (poison : c.isPoisoned k = true) :
    c.sourceState trapping (first ++ k :: rest) = .poisoned (Trap.atLocs (c.carriedAt k).cause (c.carriedAt k).detail true
      ((first ++ k :: rest).filter fun j => c.isPoisoned j && regOfLoc j == regOfLoc k)) := by
  have found : (first ++ k :: rest).find? c.isPoisoned = some k := by
    rw [List.find?_append, List.find?_eq_none.2 (by simpa using clean), List.find?_cons_of_pos poison]
    rfl
  rw [Ctx.sourceState, found]

/-- Without poison a source is full, or empty. -/
theorem sourceState_of_clean {ks : List Nat} {trapping : Bool} (clean : ks.any c.isPoisoned = false) :
    c.sourceState trapping ks =
      if ks.filter c.isEmpty = [] then .full
      else if trapping then .emptyTrap (Trap.atLocs .emptyRead 0 false (ks.filter c.isEmpty))
      else .emptyWait (ks.filter c.isEmpty) := by
  have found : ks.find? c.isPoisoned = none := List.find?_eq_none.2 (by simpa using clean)
  rw [Ctx.sourceState, found]
  cases ks.filter c.isEmpty <;> rfl

theorem not_givesCause_of_clean (clean : e.2.any c.isPoisoned = false) : ¬ givesCause (c.sourceState e.1 e.2) := by
  rw [sourceState_of_clean clean]
  split
  · nofun
  · split <;> nofun

theorem not_givesEmptyRead_of_clean (clean : e.2.any c.isPoisoned = false)
    (quiet : e.1 = false ∨ e.2.filter c.isEmpty = []) : ¬ givesEmptyRead (c.sourceState e.1 e.2) := by
  rw [sourceState_of_clean clean]
  obtain waits | full := quiet
  · rw [if_neg (by simp [waits] : ¬ e.1 = true)]
    split <;> nofun
  · rw [if_pos full]
    nofun

/-- The first of some sources that makes the instruction take a cause, if it stands behind others that do not. -/
theorem find_sourceState {p : SourceState → Bool} (shape : sources = before ++ e :: after)
    (others : ∀ b ∈ before, ¬ p (c.sourceState b.1 b.2)) (this : p (c.sourceState e.1 e.2)) :
    (sources.map fun e => c.sourceState e.1 e.2).find? p = some (c.sourceState e.1 e.2) := by
  rw [shape, List.map_append, List.map_cons, List.find?_append, List.find?_eq_none.2 (List.forall_mem_map.2 others),
    List.find?_cons_of_pos this]
  rfl

theorem find_sourceState_none {p : SourceState → Bool} (others : ∀ b ∈ sources, ¬ p (c.sourceState b.1 b.2)) :
    (sources.map fun e => c.sourceState e.1 e.2).find? p = none :=
  List.find?_eq_none.2 (List.forall_mem_map.2 others)

/-- The first poison-empty location of the first source that holds one gives the cause (R304). -/
theorem sourcesState_of_poisoned {first rest : List Nat} {k : Nat} (shape : sources = before ++ e :: after)
    (others : ∀ b ∈ before, b.2.any c.isPoisoned = false) (locs : e.2 = first ++ k :: rest)
    (clean : ∀ j ∈ first, c.isPoisoned j = false) (poison : c.isPoisoned k = true) :
    c.sourcesState sources = .poisoned (Trap.atLocs (c.carriedAt k).cause (c.carriedAt k).detail true
      (e.2.filter fun j => c.isPoisoned j && regOfLoc j == regOfLoc k)) := by
  have this := sourceState_of_poisoned (trapping := e.1) (rest := rest) clean poison
  rw [← locs] at this
  rw [sourcesState_eq, find_sourceState shape (fun b hb => not_givesCause_of_clean (others b hb)) (by rw [this]; rfl), this]

/-- Without poison the first empty source whose `EMPTYTRAP` bit is set gives `EMPTY_READ` (R106). -/
theorem sourcesState_of_emptyRead (clean : ∀ b ∈ sources, b.2.any c.isPoisoned = false) (shape : sources = before ++ e :: after)
    (others : ∀ b ∈ before, b.1 = false ∨ b.2.filter c.isEmpty = []) (traps : e.1 = true) (empty : e.2.filter c.isEmpty ≠ []) :
    c.sourcesState sources = .emptyTrap (Trap.atLocs .emptyRead 0 false (e.2.filter c.isEmpty)) := by
  have this : c.sourceState e.1 e.2 = .emptyTrap (Trap.atLocs .emptyRead 0 false (e.2.filter c.isEmpty)) := by
    rw [sourceState_of_clean (clean e (by simp [shape])), if_neg empty, if_pos traps]
  have quiet : ∀ b ∈ before, ¬ givesEmptyRead (c.sourceState b.1 b.2) := fun b hb =>
    not_givesEmptyRead_of_clean (clean b (by simp [shape, hb])) (others b hb)
  rw [sourcesState_eq, find_sourceState_none fun b hb => not_givesCause_of_clean (clean b hb)]
  dsimp only
  rw [find_sourceState shape quiet (by rw [this]; rfl), this]

/-- Without poison and `EMPTY_READ` the instruction waits for the empty locations of its sources, if there are any (R106). -/
theorem sourcesState_of_quiet (clean : ∀ b ∈ sources, b.2.any c.isPoisoned = false)
    (quiet : ∀ b ∈ sources, b.1 = false ∨ b.2.filter c.isEmpty = []) :
    c.sourcesState sources = if (sources.flatMap fun e => e.2.filter c.isEmpty) = [] then .full
      else .emptyWait (sources.flatMap fun e => e.2.filter c.isEmpty) := by
  rw [sourcesState_eq, find_sourceState_none fun b hb => not_givesCause_of_clean (clean b hb)]
  dsimp only
  rw [find_sourceState_none fun b hb => not_givesEmptyRead_of_clean (clean b hb) (quiet b hb)]
  cases sources.flatMap fun e => e.2.filter c.isEmpty <;> rfl

end Sources

/-! ## The gate before an instruction's own part (R118) -/

/-- Its sources decide whether an instruction goes on. -/
def sourcesGate (c : Ctx) (sources : List (Bool × List Nat)) (s : State) (act : Res) : Res :=
  match c.sourcesState sources with
  | .poisoned t => .trap s t
  | .emptyTrap t => .trap s t
  | .emptyWait ks => .wait s (.fill ks)
  | .full => act

/-- The locations of its destination for which an instruction waits (R105). -/
def heldLocs (form : Form) (c : Ctx) (written : LaneMask) : List Nat :=
  if form.dst.mode.writes then (form.dst.locs written).filter c.isEmpty else []

/-- Its destination decides whether an instruction goes on. -/
def heldGate (held : List Nat) (s : State) (act : Res) : Res :=
  match held with
  | [] => act
  | ks => .wait s (.fill ks)

theorem heldGate_of_held {held : List Nat} {s : State} {act : Res} (h : held ≠ []) :
    heldGate held s act = .wait s (.fill held) := by
  cases held with
  | nil => exact absurd rfl h
  | cons k ks => rfl

/-- What stands before an instruction's own part, once its registers exist and no check of its own forbids it. -/
def laneGate (c : Ctx) (acting : LaneMask) (sources : List (Bool × List Nat)) (held : List Nat) (s : State) (act : Res) : Res :=
  if acting = 0 then .done s else sourcesGate c sources s (heldGate held s act)

/-- What stands before an instruction's own part. -/
def gate (exist illegal absent : Bool) (s : State) (rest : Res) : Res :=
  if !exist || illegal then .trap s (Trap.of .illegal) else if absent then .trap s (Trap.of .unitAbsent) else rest

/-- Issuing an instruction goes through the gate. -/
theorem issueOn_gate {form : Form} {bytes : Nat} {more : List Field} {illegal absent : Issue → State → Bool}
    {written : Issue → LaneMask} {act : Issue → State → Res} {s : State} {is : Issue} (at_issue : AtIssue form s is)
    (next : is.next = is.sp.pc + BitVec.ofNat 64 bytes) :
    issueOn form bytes more illegal absent written act s = .next ((gate (regsExist form is.c) (illegal is s) (absent is s) s
      (laneGate is.c is.acting (form.sources more is.acting is.sp.mask) (heldLocs form is.c (written is)) s
        (act is s))).finish is.id is.i is.next) := by
  obtain ⟨id, i, c, sp, acting, next'⟩ := is
  obtain ⟨issuer, acting'⟩ := at_issue
  dsimp only at issuer acting' next
  subst acting' next
  rw [issueOn, issuer]
  rfl

/-- The instruction goes through the gate, with its own sources, its own length and its own checks. -/
inductive Gated (i : Instr) (form : Form) (more : List Field) (s : State) (is : Issue) : Prop
  | intro {bytes : Nat} {illegal absent : Bool} {act : Res}
    (runs : exec i s = .next ((gate (regsExist form is.c) illegal absent s
      (laneGate is.c is.acting (sourcesOf i form more s is) (heldLocs form is.c (writtenLanes i is)) s act)).finish is.id is.i
        (is.sp.pc + BitVec.ofNat 64 bytes)))
    (size : ∀ ws, encode i = some ws → bytes = 4 * ws.length)
    (free : checksItself i = false → illegal = false ∧ absent = false)
    (steal : onTiles i = true → is.c.node.steal = true → illegal = true)

section Gated

variable {i : Instr} {form : Form} {more : List Field} {s : State} {is : Issue}

theorem Gated.of_runs {bytes : Nat} {illegal absent : Bool} {act : Res} {sources : List (Bool × List Nat)} {written : LaneMask}
    (runs : exec i s = .next ((gate (regsExist form is.c) illegal absent s
      (laneGate is.c is.acting sources (heldLocs form is.c written) s act)).finish is.id is.i
        (is.sp.pc + BitVec.ofNat 64 bytes)))
    (reads : sourcesOf i form more s is = sources) (writes : writtenLanes i is = written)
    (size : ∀ ws, encode i = some ws → bytes = 4 * ws.length)
    (free : checksItself i = false → illegal = false ∧ absent = false)
    (steal : onTiles i = true → is.c.node.steal = true → illegal = true) : Gated i form more s is := by
  subst reads writes
  exact .intro runs size free steal

theorem writtenLanes_next (n : DWord) : writtenLanes i { is with next := n } = writtenLanes i is := by
  unfold writtenLanes
  split <;> rfl

theorem atIssue_next (h : AtIssue form s is) (n : DWord) : AtIssue form s { is with next := n } := ⟨h.issuer, h.acting⟩

theorem Issued.gated (h : Issued i form more) (at_issue : AtIssue form s is) : Gated i form more s is := by
  obtain @⟨bytes, illegal, absent, runs, size, reads, free, steal⟩ := h
  obtain ⟨act, run⟩ := runs s
  rw [issueOn_gate (atIssue_next at_issue (is.sp.pc + BitVec.ofNat 64 bytes)) rfl] at run
  exact .of_runs run (reads s is) (writtenLanes_next _).symm size (fun h => free h _ s) fun on steals => steal on _ s steals

/-- The own part of `tcb`, behind its sixteen lanes (R245). -/
def tcbPart (f : XT) (is : Issue) (s : State) : Res :=
  if s.tileBusy is.id is.c f.h.dst.toNat then .wait s .retry
  else .done (is.onCtx s fun c => c.setTile f.h.dst.toNat { c.tile f.h.dst.toNat with
    codebook := (List.range 16).foldl (fun m l => SMap.put m 0 l ((c.vreg f.h.src1.toNat l).setWidth 16))
      (c.tile f.h.dst.toNat).codebook
    badCodebook := false })

theorem exec_tcb (f : XT) (s : State) : exec (.tcb f) s =
    issueWith (((formTcb f).withDst .t .none).withSrc1 .v1 .none) f.h.bytes []
      (fun is s => inStealable is s || 0xFFFF#64 &&& ~~~is.sp.mask != 0) never
      (fun is s => sourcesGate is.c [(kindBit f.h.empty 1, locsOf false f.h.src1.toNat 1 0xFFFF#64)] s (tcbPart f is s)) s := rfl

/-- `tcb` reads sixteen lanes whatever its split, in its own part (R245). -/
theorem gated_tcb {f : XT} (at_issue : AtIssue ((formTcb f).withDst .t .none) s is) :
    Gated (.tcb f) ((formTcb f).withDst .t .none) [] s is := by
  have at_part : AtIssue (((formTcb f).withDst .t .none).withSrc1 .v1 .none) s
    { is with next := is.sp.pc + BitVec.ofNat 64 f.h.bytes } := ⟨at_issue.issuer, at_issue.acting⟩
  have run := exec_tcb f s
  rw [issueWith, issueOn_gate at_part rfl] at run
  refine .intro (act := tcbPart f _ s) run (hdr_size rfl) nofun fun _ steal => ?_
  simp [inStealable, steal]

theorem regsExist_withSrc2 {c : Ctx} (h : form.src2.use = .t) : regsExist (form.withSrc2 .t .none) c = regsExist form c := by
  have same : (form.withSrc2 .t .none).src2.existsFor c = form.src2.existsFor c := by
    simp only [Field.existsFor, Form.withSrc2, h]
    rfl
  simp only [regsExist, same]
  rfl

theorem formMma_src2 (f : XT) (sparse : Bool) : (formMma f sparse).src2.use = .t := by
  cases sparse <;> rfl

/-- A matrix operation reads its B tile where that is its own (R252). -/
theorem gated_mma {f : XT} {kind : Nat} (at_issue : AtIssue (formMma f (kind != 1)) s is)
    (run : exec i s = issueMma i f kind s)
    (sources : sourcesOf i (formMma f (kind != 1)) more s is =
      (if !f.gang || ((s.holderOf f is.id is.c).map Prod.fst) == some is.id then formMma f (kind != 1)
        else (formMma f (kind != 1)).withSrc2 .t .none).sources [] is.acting is.sp.mask)
    (written : writtenLanes i is = is.acting) (size : ∀ ws, encode i = some ws → f.h.bytes = 4 * ws.length)
    (checks : checksItself i = true) : Gated i (formMma f (kind != 1)) more s is := by
  have at_own := atIssue_next at_issue (is.sp.pc + BitVec.ofNat 64 f.h.bytes)
  rw [issueMma, at_issue.issuer] at run
  dsimp only at run
  have swap : (f.gang && Option.map Prod.fst (s.holderOf f is.id is.c) != some is.id)
      = !(!f.gang || Option.map Prod.fst (s.holderOf f is.id is.c) == some is.id) := by
    cases f.gang <;> rfl
  rw [swap] at run
  cases own : !f.gang || Option.map Prod.fst (s.holderOf f is.id is.c) == some is.id
  case true =>
    rw [own, if_pos rfl] at sources
    rw [own, Bool.not_true, if_neg Bool.false_ne_true, issueWith, issueOn_gate at_own rfl] at run
    exact .of_runs run sources written size (fun free => absurd free (by simp [checks])) fun _ steal => by simp [inStealable, steal]
  case false =>
    have at_follower : AtIssue ((formMma f (kind != 1)).withSrc2 .t .none) s
      { is with next := is.sp.pc + BitVec.ofNat 64 f.h.bytes } := ⟨at_issue.issuer, at_issue.acting⟩
    rw [own, if_neg Bool.false_ne_true] at sources
    rw [own, Bool.not_false, if_pos rfl, issueWith, issueOn_gate at_follower rfl, regsExist_withSrc2 (formMma_src2 ..)] at run
    exact .of_runs run sources written size (fun free => absurd free (by simp [checks])) fun _ steal => by simp [inStealable, steal]

theorem gated (h : partsOf i = some (form, more)) (at_issue : AtIssue form s is) : Gated i form more s is := by
  cases fixed : readsByState i with
  | false => exact (issued h fixed).gated at_issue
  | true =>
    cases i with
    | tcb f =>
      cases h
      exact gated_tcb at_issue
    | mma f =>
      cases h
      exact gated_mma (kind := 1) at_issue rfl rfl rfl (hdr_size rfl) rfl
    | mmaBs f =>
      cases h
      exact gated_mma (kind := 2) at_issue rfl rfl rfl (hdr_size rfl) rfl
    | mmaVs f =>
      cases h
      exact gated_mma (kind := 3) at_issue rfl rfl rfl (hdr_size rfl) rfl
    | _ => cases fixed

end Gated

/-! ## What the gate answers -/

section Answers

variable {i : Instr} {form : Form} {more : List Field} {s : State} {is : Issue}

/-- What the gate answers where its checks pass: SourcesFirst, piece by piece in the order of the statement. -/
theorem sourcesFirst_of_runs {act : Res} {bytes : Nat} (size : ∀ ws, encode i = some ws → bytes = 4 * ws.length)
    (runs : exec i s = .next ((laneGate is.c is.acting (sourcesOf i form more s is)
      (heldLocs form is.c (writtenLanes i is)) s act).finish is.id is.i (is.sp.pc + BitVec.ofNat 64 bytes))) :
    SourcesFirst i form more s is := by
  refine ⟨fun idle ws words next => ⟨rfl, ?_⟩, fun acts => ?_⟩
  · rw [runs, laneGate, if_pos idle, next, size ws words]
  rw [laneGate, if_neg acts, sourcesGate] at runs
  refine ⟨fun before e after first k rest shape others locs clean poison => ?_, fun clean => ⟨?_, fun quiet => ?_⟩⟩
  · rw [sourcesState_of_poisoned shape others locs clean poison] at runs
    exact runs
  · intro before e after shape others traps empty
    rw [sourcesState_of_emptyRead clean shape others traps empty] at runs
    exact runs
  rw [sourcesState_of_quiet clean quiet] at runs
  refine ⟨fun empty => ?_, fun full held => ?_⟩
  · rw [if_neg empty] at runs
    exact runs
  · rw [if_pos full] at runs
    dsimp only at runs
    rw [heldGate_of_held (held := heldLocs form is.c (writtenLanes i is)) held] at runs
    exact runs

theorem Gated.illegal (h : Gated i form more s is) (missing : regsExist form is.c = false) : Traps i s is s (Trap.of .illegal) := by
  obtain ⟨runs, size, free, steal⟩ := h
  rw [missing] at runs
  exact runs

theorem Gated.stealable (h : Gated i form more s is) (tiles : onTiles i = true) (steals : is.c.node.steal = true) :
    Traps i s is s (Trap.of .illegal) := by
  obtain ⟨runs, size, free, steal⟩ := h
  rw [steal tiles steals, gate, if_pos (Bool.or_true _)] at runs
  exact runs

theorem Gated.sourcesFirst (h : Gated i form more s is) (exist : regsExist form is.c = true) (plain : checksItself i = false) :
    SourcesFirst i form more s is := by
  obtain ⟨runs, size, free, steal⟩ := h
  obtain ⟨rfl, rfl⟩ := free plain
  rw [exist] at runs
  exact sourcesFirst_of_runs size runs

theorem Gated.checked (h : Gated i form more s is) (exist : regsExist form is.c = true) :
    Traps i s is s (Trap.of .illegal) ∨ Traps i s is s (Trap.of .unitAbsent) ∨ SourcesFirst i form more s is := by
  obtain @⟨bytes, illegal, absent, act, runs, size, free, steal⟩ := h
  rw [exist] at runs
  cases illegal
  case true => exact .inl runs
  case false =>
    cases absent
    case true => exact .inr (.inl runs)
    case false => exact .inr (.inr (sourcesFirst_of_runs size runs))

end Answers

/-! ## The statement -/

theorem exec_illegalEncoding {s : State} {id i : Nat} {c : Ctx} {sp : Split} (issuer : s.issuer = some (id, i, c, sp)) :
    exec .illegalEncoding s = .next (s.takeTrap id i (Trap.of .illegal) none) := by
  unfold exec execIllegalEncoding
  rw [issuer]

theorem exec_fetchTrap {s t : State} {id i : Nat} {c : Ctx} {sp : Split} {u : Trap} (issuer : s.issuer = some (id, i, c, sp))
    (fetch : s.fetch id c sp = (t, .error u)) : exec .fetchTrap s = .next (t.takeTrap id i u none) := by
  unfold exec execFetchTrap
  rw [issuer]
  dsimp only
  rw [fetch]

theorem exec_cancelled {s : State} {id i : Nat} {c : Ctx} {sp : Split} (ctx : s.ctxs.look id = some c)
    (split : c.splits.look i = some sp) (ending : s.ending c = true) (free : ∀ n, sp.wait ≠ .op n) :
    exec (.cancelled id i) s = .next (s.exitLanes id i (sp.allLanes &&& ~~~c.exited) true) := by
  unfold exec execCancelled
  simp only [ctx, split, ending]
  rfl

theorem waitOver_fill {s : State} {c : Ctx} {sp : Split} {ks : List Nat} (wait : sp.wait = .fill ks) :
    s.waitOver c sp = true ↔ ∀ k ∈ ks, c.isEmpty k = false := by
  simp [State.waitOver, wait]

/-- Settles O12: every instruction goes through the gate of `issueOn`, whose branches are the statement's cases. -/
theorem whatComesBeforeAnInstruction : Obligations.WhatComesBeforeAnInstruction := by
  refine ⟨fun s id i c sp => ⟨exec_illegalEncoding, fun issuer t u => exec_fetchTrap issuer, exec_cancelled⟩,
    fun i form more s is parts at_issue => ?_, fun s c sp ks => waitOver_fill⟩
  have goes := gated parts at_issue
  exact ⟨goes.illegal, fun exist => ⟨goes.sourcesFirst exist, fun _ => goes.checked exist, goes.stealable⟩⟩
end Sys2Proof.Encoding
end

section
/-! No instruction and no event stops (family 07, O53): every branch of a meaning ends in a next state. -/

namespace Sys2Proof.Encoding

open Machine Laws Claims

/-- An outcome is a next state. -/
def Answers (o : Host.Outcome State Fault Refusal) : Prop := ∃ t, o = .next t

section Answers

variable {i : Instr} {s : State}

/-- An instruction that a split issues goes through the gate, which answers a next state. -/
theorem instruction_answers {form : Form} {more : List Field} (parts : partsOf i = some (form, more)) (issues : s.issuer ≠ none) :
    Answers (exec i s) := by
  obtain ⟨⟨id, j, c, sp⟩, issuer⟩ := Option.ne_none_iff_exists'.1 issues
  obtain ⟨runs, size, free, steal⟩ := gated (is := ⟨id, j, c, sp, form.acting c sp, sp.pc⟩) parts ⟨issuer, rfl⟩
  exact ⟨_, runs⟩

theorem illegalEncoding_answers (issues : s.issuer ≠ none) : Answers (exec .illegalEncoding s) := by
  obtain ⟨⟨id, j, c, sp⟩, issuer⟩ := Option.ne_none_iff_exists'.1 issues
  exact ⟨_, exec_illegalEncoding issuer⟩

theorem fetchTrap_answers (issues : s.issuer ≠ none) : Answers (exec .fetchTrap s) := by
  obtain ⟨⟨id, j, c, sp⟩, issuer⟩ := Option.ne_none_iff_exists'.1 issues
  unfold exec execFetchTrap
  rw [issuer]
  dsimp only
  split <;> exact ⟨_, rfl⟩

theorem hostBarAccess_answers {a n : Nat} {w : Option (List Byte)}
    (there : s.linkUp = false ∨ inHost a = true ∨ a + (w.map List.length).getD n ≤ s.capacity) :
    Answers (exec (.hostBarAccess a n w) s) := by
  unfold exec execHostBarAccess
  cases w
  all_goals
    dsimp only
    split
    · exact ⟨_, rfl⟩
    split
    · exact ⟨_, rfl⟩
    rw [if_neg]
    · exact ⟨_, rfl⟩
    · simp_all

theorem hostBarAccess_beyond {a n : Nat} {w : Option (List Byte)} (up : s.linkUp = true) (device : inHost a = false)
    (beyond : s.capacity < a + (w.map List.length).getD n) : exec (.hostBarAccess a n w) s = .fault (.noSuchMemory a) := by
  unfold exec execHostBarAccess
  cases w <;> simp_all

/-- Every event: without a branch, of one branch, of an operation in progress, of a context, and of the package. -/
theorem event_answers (event : partsOf i = none) (encodes : i = .illegalEncoding → s.issuer ≠ none)
    (fetches : i = .fetchTrap → s.issuer ≠ none) (there : ∀ a n w, i = .hostBarAccess a n w →
      s.linkUp = false ∨ inHost a = true ∨ a + (w.map List.length).getD n ≤ s.capacity) : Answers (exec i s) := by
  cases i with
  | boundaryBarrierMessage | pairWalkerEmit | pairWalkerEnd | l1EvictWriteback | placementHeadAged | splitUrgent | bankSwap
  | bankSwapIdleTimeout | invqtailWrite | hostLinkReset | hostLinkTrained | sendRingSlot | sendRingPoll | coreWake
  | clockStepChange | firmwareUpdate | attestation | managementTelemetry | transportRetransmit | atomicopRequesterEnable =>
    exact ⟨_, rfl⟩
  | producerWatchdog | memoryWritePerform | spinEviction | lodgeStart | lodgingAdvertise | cancelWrite | portDown
  | portRestartAttempt | portUp | hingeBoundaryFail | hingeLaneFail | channelCopyDone | coreClockGate | corePowerGate
  | dieEnterD1 | packageReset | coreFailure =>
    unfold exec
    dsimp only [execProducerWatchdog, execMemoryWritePerform, execSpinEviction, execLodgeStart, execLodgingAdvertise,
      execCancelWrite, execPortDown, execPortRestartAttempt, execPortUp, execHingeBoundaryFail, execHingeLaneFail,
      execChannelCopyDone, execCoreClockGate, execCorePowerGate, execDieEnterD1, execPackageReset, execCoreFailure]
    split <;> exact ⟨_, rfl⟩
  | fdonePerform | spawnFrameRaise | pqPushPerform | pqPopPerform | vocabBlock | atomicPerform | translationInvalidateDone
  | copyLanding | engineFault | tbarrivePerform | mmasStage | matrixOpComplete | allocatorInsertDone | haloPost
  | producerFill | clusterWindowArrive | handleChangeApplied =>
    unfold exec
    dsimp only [execFdonePerform, execSpawnFrameRaise, execPqPushPerform, execPqPopPerform, execVocabBlock,
      execAtomicPerform, execTranslationInvalidateDone, execCopyLanding, execEngineFault, execTbarrivePerform,
      execMmasStage, execMatrixOpComplete, execAllocatorInsertDone, execHaloPost, execProducerFill, execClusterWindowArrive,
      execHandleChangeApplied]
    repeat' split
    all_goals exact ⟨_, rfl⟩
  | swaitPoll | engineSupervisorEntry | latchFire | l2Fill | taskReport | continuationResume | cancelled | binRecordArrive
  | binTimerExpiry | reorderTimerExpiry | scanRequest | scanLeaf | teamPlace | bankSwapComplete | lodgeProducerTimeout
  | lodgeTransferDone | contextReturn | teamEvict | teamEvictTimeout | teamReturn =>
    unfold exec
    dsimp only [execSwaitPoll, execEngineSupervisorEntry, execLatchFire, execL2Fill, execTaskReport, execContinuationResume,
      execCancelled, execBinRecordArrive, execBinTimerExpiry, execReorderTimerExpiry, execScanRequest, execScanLeaf,
      execTeamPlace, execBankSwapComplete, execLodgeProducerTimeout, execLodgeTransferDone, execContextReturn,
      execTeamEvict, execTeamEvictTimeout, execTeamReturn]
    repeat' split
    all_goals exact ⟨_, rfl⟩
  | graphCompletionRecord | hostDoorbell | linkMessage | invqEntryDone | srbaseWrite | hostRegisterWrite | linkMessageAck
  | hingePacketReceive | hingeRecalibrate | patrolScrub | channelRetire | gatingEnd | firmwareBankSwitch | coreRetire
  | flitReplay =>
    unfold exec
    dsimp only [execGraphCompletionRecord, execHostDoorbell, execLinkMessage, execInvqEntryDone, execSrbaseWrite,
      execHostRegisterWrite, execLinkMessageAck, execHingePacketReceive, execHingeRecalibrate, execPatrolScrub,
      execChannelRetire, execGatingEnd, execFirmwareBankSwitch, execCoreRetire, execFlitReplay]
    repeat' split
    all_goals exact ⟨_, rfl⟩
  | hostBarAccess a n w => exact hostBarAccess_answers (there a n w rfl)
  | illegalEncoding => exact illegalEncoding_answers (encodes rfl)
  | fetchTrap => exact fetchTrap_answers (fetches rfl)
  | _ => cases event

end Answers

/-- Settles O53: an instruction goes through the gate, and every branch of an event's meaning ends in a next state. -/
theorem nothingStops : Obligations.NothingStops := by
  refine ⟨fun i s there meant => ?_, fun s a n w => hostBarAccess_beyond⟩
  cases parts : partsOf i with
  | some form => exact instruction_answers parts (meant.resolve_right fun h => by simp [parts] at h)
  | none =>
    exact event_answers parts (fun e => meant.resolve_right fun h => h.2.1 e) (fun e => meant.resolve_right fun h => h.2.2 e) there

end Sys2Proof.Encoding
end

section
/-! What an instruction's own part answers (family 09): the outcome of an issued instruction is the state in which that
answer has been carried out, and the three ways in which the statements speak of it. -/

namespace Sys2Proof.Control

open Machine Laws Claims

/-! ## Answers (R118) -/

/-- An instruction is carried out with an answer. -/
def Answers (i : Instr) (s : State) (is : Issue) (r : Res) : Prop := exec i s = .next (r.finish is.id is.i is.next)

variable {i : Instr} {form : Form} {bytes : Nat} {s t : State} {is : Issue} {r : Res}

/-- An instruction that passes its own checks and reaches its own part is carried out with what that part answers. -/
theorem answers_of_legal {meaning : State → Host.Outcome State Fault Refusal} {illegal absent : Issue → State → Bool}
    {act : Issue → State → Res} (reaches : Reaches form bytes [] s is) (legal : illegal is s = false)
    (present : absent is s = false) (runs : exec i s = meaning s := by rfl)
    (issues : meaning s = issueWith form bytes [] illegal absent act s := by rfl) (part : act is s = r := by rfl) :
    Answers i s is r := by
  rw [← part]
  exact runs.trans (issues.trans (issueWith_reaches reaches legal present))

/-- An instruction without checks of its own, whose meaning is that of issuing it, is carried out with what its own part answers. -/
theorem answers_of_reaches (meaning : State → Host.Outcome State Fault Refusal) {act : Issue → State → Res}
    (reaches : Reaches form bytes [] s is) (runs : exec i s = meaning s := by rfl)
    (issues : meaning s = issue form bytes act s := by rfl) (part : act is s = r := by rfl) : Answers i s is r :=
  answers_of_legal reaches rfl rfl runs issues part

/-- A vector operation is carried out with its results in the lanes in which it acts, read before any is written (R158). -/
theorem answers_of_vectorOp (meaning : State → Host.Outcome State Fault Refusal) {op : Ctx → Nat → DWord}
    (reaches : Reaches form bytes [] s is) (runs : exec i s = meaning s := by rfl)
    (vector : meaning s = vectorOp form bytes op s := by rfl) :
    Answers i s is (.done (s.setCtx is.id (form.writeLanes is.c is.acting (op is.c)))) :=
  answers_of_reaches (vectorOp form bytes op) reaches (runs.trans vector)

theorem Answers.congr {r' : Res} (h : Answers i s is r) (same : r = r') : Answers i s is r' := same ▸ h

theorem completes_of_answers (h : Answers i s is r) (on : goesOn r = true := by rfl) : Completes i s is r := ⟨on, h⟩

theorem asks_of_answers {w : Wait} (h : Answers i s is (.wait t w)) : Asks i s is t w := h

theorem traps_of_answers {u : Trap} (h : Answers i s is (.trap t u)) : Traps i s is t u := h

/-! ## Fields and selections (R131 to R133, R161, R162, R166) -/

/-- A truth value that is written into a predicate is read back from it. -/
theorem truth_ne_zero (b : Bool) : (truth b != 0) = b := by cases b <;> rfl

/-- A result for a scalar predicate is written there. -/
theorem writeDst_truth {c : Ctx} {l : Nat} (k : form.dst.use = .kDst) (b : Bool) :
    form.writeDst c l (truth b) = c.setK form.dst.num b := by
  simp only [Form.writeDst, k, truth_ne_zero]

/-- Settles O2: each of them runs its operation on its own context. -/
theorem fieldsAndSelections : Obligations.FieldsAndSelections := by
  refine ⟨fun f s is => ⟨fun reaches => ?_, fun reaches => ?_, fun reaches => ?_⟩,
    fun f s is => ⟨fun reaches => ?_, fun reaches => ?_, fun reaches => ?_⟩⟩
  · exact completes_of_answers (answers_of_reaches (execSbfi f) reaches)
  · exact completes_of_answers (answers_of_reaches (execSsel f) reaches)
  · rw [show f.h.dst.toNat = (formKop f).dst.num from rfl, ← writeDst_truth (l := 0) rfl]
    exact completes_of_answers (answers_of_reaches (execKop f) reaches)
  · exact (completes_of_answers (answers_of_vectorOp (i := .bfi f) (execBfi f) reaches) :)
  · exact (completes_of_answers (answers_of_vectorOp (i := .sel f) (execSel f) reaches) :)
  · exact (completes_of_answers (answers_of_vectorOp (i := .fclass f) (execFclass f) reaches) :)

end Sys2Proof.Control
end

section
/-! Branches and splits (family 09): a whole split goes to a target, and a divided one diverges (R134 to R138). -/

namespace Sys2Proof.Control

open Machine Laws Claims

variable {i : Instr} {s t : State} {is : Issue}

/-! ## Branches (R134, R136, R93) -/

/-- The answer with which a whole split has gone to a target, from the state that its branch leaves. -/
def wentTo (is : Issue) (after : State) (target : DWord) : Res :=
  .set ((after.noteBranch is target).modCtx is.id fun c => c.branch is.i target)

/-- A branch goes to an aligned target and takes `MISALIGNED` at any other. -/
def Branches (i : Instr) (s : State) (is : Issue) (after : State) (target : DWord) : Prop :=
  (target.toNat % 4 = 0 → Completes i s is (wentTo is after target))
  ∧ (¬ target.toNat % 4 = 0 → Traps i s is s { Trap.of .misaligned with va := target })

theorem branches_of_goTo {after : State} {target : DWord} (h : Answers i s is (goTo is s after target)) :
    Branches i s is after target := by
  unfold goTo at h
  constructor <;> intro aligned
  · rw [if_neg (by simpa using aligned)] at h
    exact completes_of_answers h
  · rw [if_pos (by simpa using aligned)] at h
    exact traps_of_answers h

/-- The operand of `brk` is its register, zero-extended. -/
theorem arg_formBrk (f : XC) (c : Ctx) : (formBrk f).arg c 1 0 = (c.s f.h.src1.toNat).setWidth 64 := by
  have : (formBrk f).isLit 1 = false := by simp [Form.isLit, formBrk, Form.base, Form.withSrc1, Form.withSrc2]
  simp only [Form.arg, this]
  rfl

theorem setWidth_eq_zero_iff (w : Word) : w.setWidth 64 = 0 ↔ w = 0 := by
  constructor <;> intro h
  · bv_omega
  · simp [h]

/-- `brk` tests its register for the sense that its second source names (R134). -/
theorem brk_condition (f : XC) (c : Ctx) :
    (((formBrk f).arg c 1 0 != 0) == (f.h.src2 == 1)) = true ↔ (c.s f.h.src1.toNat ≠ 0 ↔ f.h.src2 = 1) := by
  rw [arg_formBrk, beq_iff_eq, Bool.eq_iff_iff, bne_iff_ne, beq_iff_eq, ne_eq, setWidth_eq_zero_iff]

/-- Settles O8: each branch goes to its target, or does nothing but take `MISALIGNED`. -/
theorem branchesReachTheirTargets : Obligations.BranchesReachTheirTargets := by
  intro f s is target to_ aligned count counted called jump reaches
  refine ⟨fun reached => ?_, fun reached => ⟨fun taken => ?_, fun untaken => ?_⟩, fun reached => ?_,
    fun reached => ⟨fun last => ?_, fun more => ?_⟩, fun reached => ?_⟩
  · exact branches_of_goTo (answers_of_reaches (execBra f) reached)
  · exact branches_of_goTo (answers_of_reaches (execBrk f) reached (part := if_pos ((brk_condition f is.c).2 taken)))
  · exact completes_of_answers (answers_of_reaches (execBrk f) reached (part := if_neg (untaken ∘ (brk_condition f is.c).1)))
  · exact branches_of_goTo (answers_of_reaches (execJmp f) reached)
  · exact completes_of_answers (answers_of_reaches (execLoop f) reached (part := if_pos last))
  · exact branches_of_goTo (answers_of_reaches (execLoop f) reached (part := if_neg more))
  · exact branches_of_goTo (answers_of_reaches (execCall f) reached)

/-! ## Divergence (R17, R20, R135, R136) -/

section Diverge

variable {taken : LaneMask} {target fall : DWord}

/-- In a handler only a uniform branch is allowed (R301). -/
theorem divergeTo_illegal (handler : is.inHandler = true) (parts : taken ≠ is.sp.mask) :
    divergeTo is s taken target fall = .trap s (Trap.of .illegal) :=
  if_pos (by simp [handler, parts])

/-- Outside a handler any branch is allowed, and in one a uniform one. -/
theorem not_barred (allowed : is.inHandler = false ∨ taken = is.sp.mask) :
    ¬ (is.inHandler && taken != is.sp.mask) = true := by
  rcases allowed with outside | uniform
  · simp [outside]
  · simp [uniform]

theorem divergeTo_some (allowed : is.inHandler = false ∨ taken = is.sp.mask) {c : Ctx}
    (room : is.c.diverge is.i taken target fall = some c) : divergeTo is s taken target fall =
      .set ((s.noteBranch is target).modCtx is.id fun d => { c with lastSpin := d.lastSpin }) := by
  rw [divergeTo, if_neg (not_barred allowed), room]

/-- A stack that would hold a 33rd entry takes `SCRATCH_BOUNDS` (R20). -/
theorem divergeTo_none (allowed : is.inHandler = false ∨ taken = is.sp.mask)
    (full : is.c.diverge is.i taken target fall = none) :
    divergeTo is s taken target fall = .trap s (Trap.of .scratchBounds) := by
  rw [divergeTo, if_neg (not_barred allowed), full]

end Diverge

/-- Settles O9: each of them answers as its own part says, and `brv` and `ret` as the split diverges. -/
theorem splitsDivergeAndJoin : Obligations.SplitsDivergeAndJoin := by
  refine ⟨fun f s is => ?_, fun f s is => ⟨fun reaches outside => ?_, fun reaches => ?_, fun reaches => ⟨?_, ?_, ?_⟩⟩⟩
  · intro went back pc same
    have onward (reaches : Reaches back f.h.bytes [] s is) (aligned : pc.toNat % 4 = 0) :
        Answers (.ret f) s is (divergeTo is s same pc is.sp.pc) :=
      answers_of_reaches (execRet f) reaches (part := if_neg fun odd => bne_iff_ne.1 odd aligned)
    refine ⟨fun reaches allowed => ⟨fun c room => ?_, fun full => ?_⟩, fun reaches handler parts => ?_,
      fun reaches => ⟨fun odd => ?_, fun aligned handler parts => ?_,
        fun aligned allowed => ⟨fun c room => ?_, fun full => ?_⟩⟩⟩
    · exact completes_of_answers (answers_of_reaches (execBrv f) reaches (part := divergeTo_some allowed room))
    · exact traps_of_answers (answers_of_reaches (execBrv f) reaches (part := divergeTo_none allowed full))
    · exact traps_of_answers (answers_of_reaches (execBrv f) reaches (part := divergeTo_illegal handler parts))
    · exact traps_of_answers (answers_of_reaches (execRet f) reaches (part := if_pos (bne_iff_ne.2 odd)))
    · exact traps_of_answers ((onward reaches aligned).congr (divergeTo_illegal handler parts))
    · exact completes_of_answers ((onward reaches aligned).congr (divergeTo_some allowed room))
    · exact traps_of_answers ((onward reaches aligned).congr (divergeTo_none allowed full))
  · exact completes_of_answers (answers_of_reaches (execJoin f) reaches (part := if_neg (Bool.eq_false_iff.1 outside)))
  · exact completes_of_answers (answers_of_reaches (execExitLanes f) reaches)
  · exact completes_of_answers (answers_of_reaches (execNop f) reaches)
  · exact completes_of_answers (answers_of_reaches (execRegion f) reaches)
  · exact completes_of_answers (answers_of_reaches (execYieldSplit f) reaches)

end Sys2Proof.Control
end

section
/-! Traps and returns (family 09): how a split leaves its handler (R155, R156, R301, R308). -/

namespace Sys2Proof.Control

open Machine Laws Claims

variable {i : Instr} {s t : State} {is : Issue}

/-! ## Traps and returns (R155, R156, R301, R308) -/

/-- The answer with which a split leaves its handler and goes on at an address. -/
def leftTo (is : Issue) (h : Handler) (s : State) (mode : Nat) (pc : DWord) : Res :=
  let s := (s.serviced is.id h).modCtx is.id fun c => c.leaveHandler h s.nextId
  .set (s.modSplit is.id is.i fun sp => { sp with pc := pc, wait := s.waitAfter h mode })

section Return

variable {f : XC} {mode : Nat} {h : Handler} {resume : Issue → Handler → State → State × Except Trap DWord}
  (reaches : Reaches (formBare f .k (f.imm.toNat == mode)) f.h.bytes [] s is)
  (runs : exec i s = returnFrom f mode resume s)
include reaches runs

/-- `rfe` outside a handler is illegal (R156). -/
theorem returnFrom_outside (outside : is.inHandler = false) : Traps i s is s (Trap.of .illegal) :=
  runs.trans (issueWith_illegal reaches (by simp [outside]))

/-- In a handler it leaves, for the place where the form resumes (R156). -/
theorem returnFrom_leaves (handler : is.c.handler = some h) (inside : is.inHandler = true) {pc : DWord}
    (resumes : resume is h s = (t, .ok pc)) : Completes i s is (leftTo is h t mode pc) :=
  completes_of_answers (answers_of_legal (meaning := returnFrom f mode resume) (illegal := fun is _ => !is.inHandler) reaches
    (by simp [inside]) rfl runs (part := by simp only [handler, resumes]; rfl))

end Return

/-- An operation that the entry interrupted, and that is still being performed (log entry 17). -/
def Pending (s : State) (h : Handler) : Prop := ∃ n, h.wait = .op n ∧ s.ops.look n ≠ none

theorem waitAfter_pending {h : Handler} (pending : Pending s h) (mode : Nat) : ∃ n, s.waitAfter h mode = .op n := by
  obtain ⟨n, waits, present⟩ := pending
  exact ⟨n, by simp [State.waitAfter, waits, Option.isSome_iff_ne_none.2 present]⟩

/-- A region that is restarted leaves no cause behind: nothing is waited for but such an operation. -/
theorem waitAfter_restarted {h : Handler} (clear : ¬ Pending s h) : s.waitAfter h 2 = .ready := by
  unfold State.waitAfter
  split
  · rename_i n waits
    rw [if_neg fun present => clear ⟨n, waits, Option.isSome_iff_ne_none.1 present⟩]
  · rfl
  · rfl

/-- Without an operation and without a cause left behind the split is ready. -/
theorem waitAfter_ready {h : Handler} (noOp : ∀ n, h.wait ≠ .op n) (noCause : ∀ u, h.wait ≠ .due u) (mode : Nat) :
    s.waitAfter h mode = .ready := by
  unfold State.waitAfter
  split
  · exact absurd ‹_› (noOp _)
  · exact absurd ‹_› (noCause _)
  · rfl

/-- Settles O11: `trap` takes its cause, and each form of `rfe` leaves the handler for its own place. -/
theorem trapsAndReturns : Obligations.TrapsAndReturns := by
  intro f s is left pending
  refine ⟨fun reaches outside => ?_, fun mode i form reaches outside => ?_, fun h handler inside =>
    ⟨fun reaches => ?_, fun reaches t w word => ?_, fun reaches => ⟨fun clear => ?_, fun waits => ?_⟩, ?_⟩⟩
  · exact traps_of_answers (answers_of_reaches (execTrap f) reaches (part := if_neg (Bool.eq_false_iff.1 outside)))
  · simp only [List.mem_cons, Prod.mk.injEq, List.not_mem_nil, or_false] at form
    rcases form with ⟨rfl, rfl⟩ | ⟨rfl, rfl⟩ | ⟨rfl, rfl⟩
    · exact returnFrom_outside reaches (by unfold exec; rfl) outside
    · exact returnFrom_outside reaches (by unfold exec; rfl) outside
    · exact returnFrom_outside reaches (by unfold exec; rfl) outside
  · exact returnFrom_leaves reaches (by unfold exec; rfl) handler inside rfl
  · exact returnFrom_leaves reaches (by unfold exec; rfl) handler inside (by simp only [word])
  · exact returnFrom_leaves reaches (by unfold exec; rfl) handler inside (by simp only [waitAfter_restarted clear])
  · obtain ⟨n, op⟩ := waitAfter_pending waits 2
    exact returnFrom_leaves reaches (by unfold exec; rfl) handler inside (by simp only [op])
  · exact fun t h noOp noCause mode => waitAfter_ready noOp noCause mode

end Sys2Proof.Control
end

section
/-! Special registers (R78, R79, R102, R139, R140, R157): what `wrsr` writes and what `rdsr` then reads. -/

namespace Sys2Proof.Control

open Machine Laws Claims PageTable

/-! ## What a special register is read from -/

section Reads

variable {s : State} {c : Ctx} {m l : Nat}

/-- The registers above `%perfsel` are the counters. -/
theorem special_counter (above : 0x18 ≤ m) : s.special c m l = c.special.perf.at 0 (m - 0x18) := by
  unfold State.special
  split
  case h_19 => rfl
  all_goals omega

/-- No register below the counters reads one. -/
theorem special_perf (p : SMap DWord) (below : m ≤ 0x11) :
    s.special { c with special := { c.special with perf := p } } m l = s.special c m l := by
  unfold State.special
  dsimp only
  split
  case h_19 =>
    simp only [imp_false] at *
    omega
  all_goals rfl

/-- `%fpst` alone reads the flags. -/
theorem special_fpst (w : Word) (other : m ≠ 0x09) :
    s.special { c with special := { c.special with fpst := w } } m l = s.special c m l := by
  unfold State.special
  dsimp only
  split
  case h_10 => exact absurd rfl other
  all_goals rfl

/-- `%fpctl` alone reads the modes. -/
theorem special_fpctl (w : Word) (other : m ≠ 0x0A) :
    s.special { c with special := { c.special with fpctl := w } } m l = s.special c m l := by
  unfold State.special
  dsimp only
  split
  case h_11 => exact absurd rfl other
  all_goals rfl

/-- `%perfsel` alone reads the configurations. -/
theorem special_perfConfig (configs : SMap PerfConfig) (last : Nat) (other : m ≠ 0x11) :
    s.special { c with special := { c.special with perfConfig := configs, perfLast := last } } m l = s.special c m l := by
  unfold State.special
  dsimp only
  split
  case h_18 => exact absurd rfl other
  all_goals rfl

end Reads

/-! ## What `wrsr` writes -/

section Writes

variable (p : Specials) (x : DWord)

@[simp] theorem write_fpst : p.write 0x09 x = { p with fpst := writeFpst p.fpst (x.setWidth 32) } := rfl
@[simp] theorem write_fpctl : p.write 0x0A x = { p with fpctl := writeFpctl p.fpctl (x.setWidth 32) } := rfl
@[simp] theorem write_perfsel : p.write 0x11 x = p.writePerfsel (x.setWidth 32) := rfl

theorem write_counter {n : Nat} (above : 0x18 ≤ n) : p.write n x = { p with perf := p.perf.put 0 (n - 0x18) x } := by
  unfold Specials.write
  split
  case h_4 => rfl
  all_goals omega

end Writes

/-! ## `%fpst` and `%fpctl` (R78, R79) -/

/-- Each of the five flags that is not written as 1 stays (R79). -/
theorem getLsbD_writeFpst (old new : Word) (i : Nat) :
    (writeFpst old new).getLsbD i = (decide (i < 5) && old.getLsbD i && !new.getLsbD i) := by
  have mask : (0x1F#32).getLsbD i = decide (i < 5) := Nat.testBit_two_pow_sub_one 5 i
  rw [writeFpst, BitVec.getLsbD_and, BitVec.getLsbD_and, BitVec.getLsbD_not, mask]
  by_cases inside : i < 32
  · simp only [inside, decide_true, Bool.true_and]
    ac_rfl
  · simp [inside, show ¬ i < 5 by omega]

/-- The mode that `%fpctl` holds after a write (R78). -/
def writtenMode (old new : Word) : BitVec 3 :=
  if (new.extractLsb' 0 3).toNat ≤ 4 then new.extractLsb' 0 3 else old.extractLsb' 0 3

theorem writeFpctl_eq (old new : Word) :
    writeFpctl old new = BitVec.ofNat 32 (2 ^ 3 * (new.extractLsb' 3 6).toNat + (writtenMode old new).toNat) := by
  rw [writeFpctl, bitsOf_eq, bitsOf_eq, bitsOf_eq, writtenMode, apply_ite BitVec.toNat, mul_comm]
  rfl

theorem toNat_writeFpctl (old new : Word) :
    (writeFpctl old new).toNat = 2 ^ 3 * (new.extractLsb' 3 6).toNat + (writtenMode old new).toNat := by
  rw [writeFpctl_eq, BitVec.toNat_ofNat, Nat.mod_eq_of_lt (by omega)]

/-- The fields above the mode are those written (R78). -/
theorem getLsbD_writeFpctl (old new : Word) {i : Nat} (above : 3 ≤ i) :
    (writeFpctl old new).getLsbD i = (decide (i < 9) && new.getLsbD i) := by
  rw [BitVec.getLsbD, toNat_writeFpctl, Nat.testBit_two_pow_mul_add _ (BitVec.isLt _), if_neg (by omega),
    BitVec.testBit_toNat, BitVec.getLsbD_extractLsb', show 3 + (i - 3) = i by omega]
  congr 1
  rw [decide_eq_decide]
  omega

theorem extractLsb'_writeFpctl (old new : Word) : (writeFpctl old new).extractLsb' 0 3 = writtenMode old new := by
  apply BitVec.eq_of_toNat_eq
  rw [BitVec.extractLsb'_toNat, toNat_writeFpctl, Nat.shiftRight_zero, Nat.mul_add_mod, Nat.mod_eq_of_lt (BitVec.isLt _)]

/-! ## `%perfsel` (R140) -/

/-- The number whose bits are those of a configuration and of the counter that it is for. -/
def perfselNumber (e : PerfConfig) (k : BitVec 3) : Nat :=
  (if e.enable then 2 ^ 31 else 0) + k.toNat * 2 ^ 28 + e.handle.toNat * 2 ^ 16 + e.event.toNat

section Perfsel

variable (e : PerfConfig) (k : BitVec 3)

theorem perfselNumber_lt : perfselNumber e k < 2 ^ 32 := by
  unfold perfselNumber
  split <;> omega

theorem perfselNumber_enable : (BitVec.ofNat 32 (perfselNumber e k)).getLsbD 31 = e.enable := by
  rw [BitVec.getLsbD, BitVec.toNat_ofNat, Nat.mod_eq_of_lt (perfselNumber_lt e k), Nat.testBit_eq_decide_div_mod_eq, perfselNumber]
  cases e.enable
  · simp
    omega
  · simp
    omega

/-- The number in a field of such a word. -/
theorem toNat_perfselField (lo n : Nat) :
    ((BitVec.ofNat 32 (perfselNumber e k)).extractLsb' lo n).toNat = perfselNumber e k / 2 ^ lo % 2 ^ n := by
  rw [BitVec.extractLsb'_toNat, BitVec.toNat_ofNat, Nat.mod_eq_of_lt (perfselNumber_lt e k), Nat.shiftRight_eq_div_pow]

theorem perfselNumber_counter : (BitVec.ofNat 32 (perfselNumber e k)).extractLsb' 28 3 = k := by
  apply BitVec.eq_of_toNat_eq
  rw [toNat_perfselField, perfselNumber]
  split <;> omega

theorem perfselNumber_handle : (BitVec.ofNat 32 (perfselNumber e k)).extractLsb' 16 12 = e.handle := by
  apply BitVec.eq_of_toNat_eq
  rw [toNat_perfselField, perfselNumber]
  split <;> omega

theorem perfselNumber_event : (BitVec.ofNat 32 (perfselNumber e k)).extractLsb' 0 16 = e.event := by
  apply BitVec.eq_of_toNat_eq
  rw [toNat_perfselField, perfselNumber]
  split <;> omega

end Perfsel

/-- The configuration that a written word names. -/
def writtenConfig (w : Word) : PerfConfig := ⟨w.getLsbD 31, w.extractLsb' 16 12, w.extractLsb' 0 16⟩

theorem perfselNumber_written (w : Word) : BitVec.ofNat 32 (perfselNumber (writtenConfig w) (w.extractLsb' 28 3)) = w := by
  apply BitVec.eq_of_toNat_eq
  rw [BitVec.toNat_ofNat, Nat.mod_eq_of_lt (perfselNumber_lt _ _), perfselNumber, writtenConfig]
  simp only [BitVec.getLsbD, Nat.testBit_eq_decide_div_mod_eq, BitVec.extractLsb'_toNat, Nat.shiftRight_eq_div_pow]
  have := w.isLt
  split <;> simp_all <;> omega

/-- The codes of the events that R140 defines. -/
def definedEvents : List (BitVec 16) :=
  [0x0000, 0x0001, 0x0002, 0x0003, 0x0010, 0x0011, 0x0012, 0x0013, 0x0020, 0x0030]

theorem perfEvents_contains (w : Word) :
    perfEvents.contains (bitsOf w 15 0) = true ↔ w.extractLsb' 0 16 ∈ definedEvents := by
  rw [bitsOf_eq, List.contains_iff_mem, ← List.mem_map_of_injective BitVec.toNat_injective]
  rfl


/-- The configuration of a counter. -/
def configOf (p : Specials) (j : Nat) : PerfConfig := p.perfConfig.at PerfConfig.none j

/-- `%perfsel` reads the configuration of the counter that its last write named. -/
theorem perfsel_eq (p : Specials) {k : BitVec 3} (last : p.perfLast = k.toNat) :
    p.perfsel = BitVec.ofNat 32 (perfselNumber (configOf p k.toNat) k) := by
  rw [Specials.perfsel, last]
  rfl

section WritePerfsel

variable (p : Specials) (w : Word)

theorem writePerfsel_last : (p.writePerfsel w).perfLast = (w.extractLsb' 28 3).toNat := bitsOf_eq w 30 28

/-- A defined event replaces the configuration of the named counter, and an undefined one leaves it (R140). -/
theorem configOf_writePerfsel (j : Nat) : configOf (p.writePerfsel w) j =
    if perfEvents.contains (bitsOf w 15 0) = true ∧ j = (w.extractLsb' 28 3).toNat then writtenConfig w else configOf p j := by
  have written : (⟨bitOf w 31, BitVec.ofNat 12 (bitsOf w 27 16), w.setWidth 16⟩ : PerfConfig) = writtenConfig w := by
    rw [bitsOf_eq, BitVec.ofNat_toNat, BitVec.setWidth_eq, BitVec.setWidth_eq_extractLsb' (by decide)]
    rfl
  rw [configOf, Specials.writePerfsel]
  simp only [written]
  by_cases defined : perfEvents.contains (bitsOf w 15 0) = true
  · simp only [defined, if_true, true_and, at_put, bitsOf_eq w 30 28]
    rfl
  · rw [if_neg defined, if_neg fun named => defined named.1]
    rfl

theorem perfsel_writePerfsel : (p.writePerfsel w).perfsel =
    BitVec.ofNat 32 (perfselNumber (configOf (p.writePerfsel w) (w.extractLsb' 28 3).toNat) (w.extractLsb' 28 3)) :=
  perfsel_eq _ (writePerfsel_last p w)

end WritePerfsel

/-! ## What is read after a write -/

/-- The registers that `wrsr` writes (R139). -/
def Writable (n : Nat) : Prop := n ∈ [0x09, 0x0A, 0x11] ∨ 0x18 ≤ n ∧ n ≤ 0x1F

theorem Writable.cases {n : Nat} (h : Writable n) : n = 0x09 ∨ n = 0x0A ∨ n = 0x11 ∨ 0x18 ≤ n := by
  rcases h with listed | ⟨counter, -⟩
  · simp only [List.mem_cons, List.not_mem_nil, or_false] at listed
    tauto
  · exact .inr (.inr (.inr counter))

/-- A context whose split has written a special register. -/
def afterWrsr (c : Ctx) (n : Nat) (x : DWord) : Ctx := { c with special := c.special.write n x }

section After

variable {s : State} {c : Ctx} {n m l : Nat} {x : DWord}

/-- Every other register reads as before. -/
theorem special_write_other (writable : Writable n) (other : m ≠ n) (named : m ≤ 0x11 ∨ 0x18 ≤ m ∧ m ≤ 0x1F) :
    s.special (afterWrsr c n x) m l = s.special c m l := by
  rcases writable.cases with rfl | rfl | rfl | counter
  · exact special_fpst _ other
  · exact special_fpctl _ other
  · exact special_perfConfig _ _ other
  · rw [afterWrsr, write_counter _ _ counter]
    rcases named with low | ⟨high, -⟩
    · exact special_perf _ low
    · rw [special_counter high, special_counter high]
      exact at_put_ne _ _ _ (by omega)

/-- The configuration of every counter stays that `%perfsel` was not written for. -/
theorem configOf_write_other (writable : Writable n) {j : Nat}
    (other : n ≠ 0x11 ∨ j ≠ ((x.setWidth 32 : Word).extractLsb' 28 3).toNat) :
    configOf (c.special.write n x) j = configOf c.special j := by
  rcases writable.cases with rfl | rfl | rfl | counter
  · rfl
  · rfl
  · rw [write_perfsel, configOf_writePerfsel]
    exact if_neg fun named => other.resolve_left (absurd rfl) named.2
  · rw [write_counter _ _ counter]
    rfl

/-- A counter reads the value written. -/
theorem special_write_counter (counter : 0x18 ≤ n) : s.special (afterWrsr c n x) n l = x := by
  rw [special_counter counter, afterWrsr, write_counter _ _ counter]
  exact at_put_same _ _ _ _

/-- `%fpst` reads the flags that were not written as 1 (R79). -/
theorem getLsbD_special_fpst (i : Nat) : (s.special (afterWrsr c 0x09 x) 0x09 l).getLsbD i =
    (decide (i < 5) && (s.special c 0x09 l).getLsbD i && !(x.setWidth 32 : Word).getLsbD i) := by
  change ((writeFpst c.special.fpst (x.setWidth 32)).setWidth 64).getLsbD i
    = (decide (i < 5) && (c.special.fpst.setWidth 64).getLsbD i && _)
  rw [BitVec.getLsbD_setWidth, BitVec.getLsbD_setWidth, getLsbD_writeFpst]
  by_cases flag : i < 5
  · simp [flag, show i < 64 by omega]
  · simp [flag]

/-- What `%fpctl` reads after a write (R78). -/
theorem special_write_fpctl : s.special (afterWrsr c 0x0A x) 0x0A l =
    (writeFpctl c.special.fpctl (x.setWidth 32)).setWidth 64 := rfl

theorem getLsbD_special_fpctl {i : Nat} (above : 3 ≤ i) :
    (s.special (afterWrsr c 0x0A x) 0x0A l).getLsbD i
      = (decide (i < 9) && (x.setWidth 32 : Word).getLsbD i) := by
  rw [special_write_fpctl, BitVec.getLsbD_setWidth, getLsbD_writeFpctl _ _ above]
  by_cases field : i < 9
  · simp [field, show i < 64 by omega]
  · simp [field]

theorem extractLsb'_special_fpctl : (s.special (afterWrsr c 0x0A x) 0x0A l).extractLsb' 0 3 =
    if ((x.setWidth 32 : Word).extractLsb' 0 3).toNat ≤ 4 then (x.setWidth 32 : Word).extractLsb' 0 3
    else (s.special c 0x0A l).extractLsb' 0 3 := by
  rw [special_write_fpctl, BitVec.extractLsb'_setWidth_of_le (by decide), extractLsb'_writeFpctl, writtenMode,
    show s.special c 0x0A l = c.special.fpctl.setWidth 64 from rfl,
    BitVec.extractLsb'_setWidth_of_le (b := c.special.fpctl) (by decide)]

/-- What `%perfsel` reads after a write (R140). -/
theorem special_write_perfsel : s.special (afterWrsr c 0x11 x) 0x11 l =
    (BitVec.ofNat 32 (perfselNumber
      (configOf (c.special.write 0x11 x) ((x.setWidth 32 : Word).extractLsb' 28 3).toNat)
      ((x.setWidth 32 : Word).extractLsb' 28 3))).setWidth 64 :=
  congrArg (BitVec.setWidth 64) (perfsel_writePerfsel _ _)

theorem special_perfsel_defined (defined : (x.setWidth 32 : Word).extractLsb' 0 16 ∈ definedEvents) :
    s.special (afterWrsr c 0x11 x) 0x11 l = (x.setWidth 32 : Word).setWidth 64 := by
  rw [special_write_perfsel, write_perfsel, configOf_writePerfsel, if_pos ⟨(perfEvents_contains _).2 defined, rfl⟩,
    perfselNumber_written]

theorem configOf_undefined (undefined : (x.setWidth 32 : Word).extractLsb' 0 16 ∉ definedEvents) {j : Nat} :
    configOf (c.special.write 0x11 x) j = configOf c.special j := by
  rw [write_perfsel, configOf_writePerfsel, if_neg fun named => undefined ((perfEvents_contains _).1 named.1)]

theorem special_perfsel_undefined (undefined : (x.setWidth 32 : Word).extractLsb' 0 16 ∉ definedEvents) :
    let r := s.special (afterWrsr c 0x11 x) 0x11 l
    let k := (x.setWidth 32 : Word).extractLsb' 28 3
    r.extractLsb' 28 3 = k ∧ r.getLsbD 31 = (configOf c.special k.toNat).enable
      ∧ r.extractLsb' 16 12 = (configOf c.special k.toNat).handle
      ∧ r.extractLsb' 0 16 = (configOf c.special k.toNat).event := by
  intro r k
  have read : r = (BitVec.ofNat 32 (perfselNumber (configOf c.special k.toNat) k)).setWidth 64 := by
    rw [← configOf_undefined undefined]
    exact special_write_perfsel
  rw [read, BitVec.extractLsb'_setWidth_of_le (by decide), BitVec.extractLsb'_setWidth_of_le (by decide),
    BitVec.extractLsb'_setWidth_of_le (by decide), BitVec.getLsbD_setWidth]
  exact ⟨perfselNumber_counter _ _, (Bool.true_and _).trans (perfselNumber_enable _ _), perfselNumber_handle _ _,
    perfselNumber_event _ _⟩

end After

/-- Settles O10: each of them runs its operation, and a written register reads as its own rule says. -/
theorem specialRegisters : Obligations.SpecialRegisters := by
  refine ⟨fun f s is => ?_, fun s c n l x writable => ?_⟩
  · intro n bind
    refine ⟨fun reaches => ?_, fun reaches => ?_, fun reaches t r bound => ?_⟩
    · exact completes_of_answers (answers_of_reaches (execRdsr f) reaches)
    · exact completes_of_answers (answers_of_reaches (execWrsr f) reaches)
    · dsimp only [bind] at bound
      exact completes_of_answers (answers_of_reaches (execXbind f) reaches (part := by simp only [bound]))
  · intro d w k r config
    refine ⟨fun m other named => special_write_other writable other named, fun j other => configOf_write_other writable other,
      ?_, ?_, ?_, ?_⟩
    · rintro rfl i
      exact getLsbD_special_fpst _
    · rintro rfl
      exact ⟨fun i above => getLsbD_special_fpctl above, extractLsb'_special_fpctl⟩
    · rintro rfl
      exact ⟨special_perfsel_defined, fun undefined =>
        ⟨configOf_undefined undefined, special_perfsel_undefined undefined⟩⟩
    · exact special_write_counter

end Sys2Proof.Control
end

section
/-! The frames whose owners have exited (R29, R30): which they are is left by everything that a frame store does to write a frame
and to release its waiters. -/

namespace Sys2Proof.Orphans

open Machine Laws

variable {s t : State}

/-- A fold of operations that leave the orphans leaves them. -/
theorem foldState_orphans {α : Type} {l : List α} {f : State → α → State} (h : ∀ s a, (f s a).orphans = s.orphans) :
    (foldState l s f).orphans = s.orphans := by
  unfold foldState
  induction l generalizing s with
  | nil => rfl
  | cons a l ih => exact (ih (s := f s a)).trans (h s a)

/-! ## Watches and cells -/

@[simp] theorem crossEdge_orphans (id : Nat) : (s.crossEdge id).orphans = s.orphans := by
  unfold State.crossEdge
  split <;> rfl

@[simp] theorem freeWatch_orphans (w : Watch) : (s.freeWatch w).orphans = s.orphans := by
  unfold State.freeWatch
  simp only
  split <;> simp

@[simp] theorem release_orphans (w : Watch) : (s.release w).orphans = s.orphans := by
  unfold State.release
  split <;> simp

@[simp] theorem testWatches_orphans (touched : Watch → Bool) : (s.testWatches touched).orphans = s.orphans :=
  foldState_orphans fun _ _ => release_orphans _

@[simp] theorem writeCells_orphans (cells : List Host.Cell) : (s.writeCells cells).orphans = s.orphans := by
  unfold State.writeCells
  simp only
  split <;> simp

@[simp] theorem logError_orphans (die kind unit index addr : Nat) (detail : List Byte) :
    (s.logError die kind unit index addr detail).orphans = s.orphans :=
  writeCells_orphans _

@[simp] theorem logUncorrectable_orphans (pa : Nat) : (s.logUncorrectable pa).orphans = s.orphans := by
  unfold State.logUncorrectable
  simp only
  split <;> simp

@[simp] theorem wakeDie_orphans (die : Nat) : (s.wakeDie die).orphans = s.orphans := by
  unfold State.wakeDie State.logPower
  split <;> simp

/-! ## The L2 and the L1 -/

@[simp] theorem claimLine_orphans (pa r : Nat) : (s.claimLine pa r).orphans = s.orphans := by
  unfold State.claimLine
  simp only
  split
  · split_ifs <;> rfl
  · rfl

@[simp] theorem replaceLine_orphans (set : List Nat) : (s.replaceLine set).orphans = s.orphans := by
  unfold State.replaceLine
  simp only
  split <;> rfl

theorem makeWay_orphans {die : Nat} {set : List Nat} (way : s.makeWay die set = some t) : t.orphans = s.orphans := by
  unfold State.makeWay at way
  simp only at way
  repeat' split at way
  all_goals cases way
  · simp
  · rfl
  · simp [State.demote]

@[simp] theorem allocLine_orphans (line : Nat) : (s.allocLine line).orphans = s.orphans := by
  unfold State.allocLine
  split
  · rfl
  · split
    · rfl
    · split
      · rfl
      · rename_i t way
        exact (makeWay_orphans way : t.orphans = s.orphans)

@[simp] theorem countLine_orphans (id ev line r : Nat) : (s.countLine id ev line r).orphans = s.orphans := by
  unfold State.countLine
  split <;> rfl

@[simp] theorem sendLine_orphans (core : Nat) (who : Option Nat) (line : Nat) :
    (s.sendLine core who line).orphans = s.orphans := by
  unfold State.sendLine
  simp only
  split
  · rfl
  · exact foldState_orphans fun _ _ => countLine_orphans _ _ _ _

@[simp] theorem evictLine_orphans (core line : Nat) : (s.evictLine core line).orphans = s.orphans := by
  unfold State.evictLine
  split
  · rfl
  · split <;> simp

@[simp] theorem makeRoom_orphans (core line : Nat) : (s.makeRoom core line).orphans = s.orphans := by
  unfold State.makeRoom
  simp only
  split
  · rfl
  · split <;> simp

@[simp] theorem loadL1_orphans (core pa n : Nat) : (s.loadL1 core pa n).1.orphans = s.orphans := by
  unfold State.loadL1
  simp only
  split
  · rfl
  · split <;> simp

/-! ## Fills -/

@[simp] theorem readLane_orphans (core handle : Nat) (ty : Ty) (a : LaneAt) :
    (s.readLane core handle ty a).1.orphans = s.orphans := by
  unfold State.readLane
  split
  · simp only
    split <;> split <;> simp
  · rfl

@[simp] theorem readLanes_orphans (core : Nat) (scalar : Bool) (reg : Nat) (ty : Ty) (handle : Nat) (lanes : List LaneAt) :
    (s.readLanes core scalar reg ty handle lanes).1.orphans = s.orphans := by
  unfold State.readLanes
  generalize ([] : List (Nat × Option Word × BitVec 5)) = got
  induction lanes generalizing s got with
  | nil => rfl
  | cons a l ih => exact (ih _).trans (readLane_orphans _ _ _ _)

@[simp] theorem notePart_orphans (n : Nat) (link : Nat × Nat) (words : Response) :
    (s.notePart n link words).orphans = s.orphans := by
  unfold State.notePart
  split
  · rfl
  · split <;> rfl

@[simp] theorem readOp_orphans (n : Nat) (chosen : LaneAt → Bool) : (s.readOp n chosen).orphans = s.orphans := by
  unfold State.readOp
  split
  · rfl
  · split
    · exact (foldState_orphans fun _ _ => notePart_orphans _ _ _).trans (readLanes_orphans _ _ _ _ _ _)
    · rfl

@[simp] theorem serveRequest_orphans (line : Nat) (r : Request) : (s.serveRequest line r).orphans = s.orphans := by
  unfold State.serveRequest
  simp only
  split
  · simp
  · exact (foldState_orphans fun _ _ => loadL1_orphans _ _ _).trans (claimLine_orphans _ _)

@[simp] theorem serveLine_orphans (line : Nat) : (s.serveLine line).orphans = s.orphans :=
  foldState_orphans fun _ _ => serveRequest_orphans _ _

@[simp] theorem writeHome_orphans (cells : List Host.Cell) : (s.writeHome cells).orphans = s.orphans :=
  (writeCells_orphans _).trans (foldState_orphans fun _ _ => by simp)

/-! ## Frames and waiter lists -/

@[simp] theorem setFrame_orphans (k : Nat) (f : Frame) : (s.setFrame k f).orphans = s.orphans := by
  change (s.frameRoom k).orphans = s.orphans
  unfold State.frameRoom
  simp only
  split
  · rfl
  · split <;> simp

theorem linkWaiters_orphans (k : Nat) (rs : List Record) : (s.linkWaiters k rs).1.orphans = s.orphans := by
  induction rs with
  | nil => rfl
  | cons r rs ih => exact ih

@[simp] theorem setWaiting_orphans (k : Nat) (rs : List Record) : (s.setWaiting k rs).orphans = s.orphans :=
  (setFrame_orphans _ _).trans (linkWaiters_orphans k rs)

@[simp] theorem releaseRecord_orphans (r : Record) : (s.releaseRecord r).orphans = s.orphans := by
  unfold State.releaseRecord
  simp only
  split
  · split <;> simp
  · split <;> simp
  · rfl

@[simp] theorem releaseFrame_orphans (k : Nat) : (s.releaseFrame k).orphans = s.orphans := by
  unfold State.releaseFrame
  simp only
  split
  · rfl
  · exact (foldState_orphans fun _ _ => releaseRecord_orphans _).trans (setWaiting_orphans _ _)

end Sys2Proof.Orphans
end

section
/-! Frames (R29, R143 to R147): `fnew`, `fdone`, `fawait` and `fpoll`, and the event in which a promise becomes done. -/

namespace Sys2Proof.Control

open Machine Laws Claims Orphans

variable {s t : State} {is : Issue} {f : XC}

/-! ## fnew (R143, R144) -/

/-- Settles O13: the frames are allocated one and all, or none is and the instruction takes `FRAME_ERROR`. -/
theorem framesAreAllocated : Obligations.FramesAreAllocated := by
  intro f s is promise form i reaches fits t r alloc
  dsimp only
  have runs : exec i s = newFrames f promise s := by cases promise <;> unfold exec <;> rfl
  have legal : (f.frameK != is.c.perLane) = false := by simp [fits]
  refine ⟨fun none => ?_, fun hs frames => ⟨fun many => ?_, fun few => ?_⟩⟩
  · subst none
    exact traps_of_answers (answers_of_legal (illegal := fun is _ => f.frameK != is.c.perLane) reaches legal rfl runs
      (part := by simp only [alloc]))
  · subst frames
    exact completes_of_answers (answers_of_legal (illegal := fun is _ => f.frameK != is.c.perLane) reaches legal rfl runs
      (part := by simp only [alloc]; exact if_pos many))
  · subst frames
    exact completes_of_answers (answers_of_legal (illegal := fun is _ => f.frameK != is.c.perLane) reaches legal rfl runs
      (part := by simp only [alloc]; exact if_neg (by omega)))

/-! ## A promise that is done (R29) -/

/-- The waiter list that begins nowhere is empty. -/
theorem waiting_of_none {k : Nat} (none : (s.frame k).waiters = 0) : s.waiting k = [] := by
  rw [State.waiting, none]
  cases s.waiters.length <;> rfl

/-- A frame that releases its waiters has none left. -/
theorem waiting_releaseFrame (s : State) (k : Nat) : (s.releaseFrame k).waiting k = [] := by
  simp only [State.releaseFrame]
  split
  · rename_i empty
    exact List.isEmpty_iff.1 empty
  · refine waiting_of_none ?_
    have written := Execution.frame_of_keeps (t := foldState (s.waiting k) (s.setWaiting k []) State.releaseRecord)
      (.foldState .refl fun h => Execution.releaseRecord_keeps h) (Execution.look_setFrame _ k _)
    rw [written]

/-- A promise that becomes done writes its frame and releases its waiters, where its owner has not exited. -/
theorem promiseDone_of_owned {h : Word} (owned : handleKey h ∉ s.orphans) : s.promiseDone h =
    (s.setFrame (handleKey h) { s.frame (handleKey h) with state := .done }).releaseFrame (handleKey h) := by
  rw [State.promiseDone, if_neg (by simpa using owned)]

/-! ## fdone, fawait and fpoll (R145 to R147) -/

/-- Settles O14: a frame instruction traps, asks or reads as the checks of its handles and the states of its frames say, and a
promise that becomes done keeps no waiter. -/
theorem promisesAndAwaits : Obligations.PromisesAndAwaits := by
  refine ⟨⟨fun f s is reaches => ⟨fun fine => ?_, fun u trap => ?_⟩,
      fun s n o hs present kind => ⟨fun t done => ?_, fun l refused => ?_⟩⟩,
    fun f s is reaches => ⟨fun u trap => ⟨?_, ?_⟩, fun fine => ⟨fun t ws found => ?_, fun t h waits => ?_, ?_⟩⟩,
    fun s h owned => ?_⟩
  · exact asks_of_answers (answers_of_reaches (execFdone f) reaches (part := by simp only [fine]))
  · exact traps_of_answers (answers_of_reaches (execFdone f) reaches (part := by simp only [trap]))
  · unfold exec
    simp only [execFdonePerform, present, kind, done]
  · unfold exec
    simp only [execFdonePerform, present, kind, refused]
  · exact traps_of_answers (answers_of_reaches (execFawait f) reaches (part := by simp only [trap]))
  · exact traps_of_answers (answers_of_reaches (execFpoll f) reaches (part := by simp only [trap]))
  · exact completes_of_answers (answers_of_reaches (execFawait f) reaches (part := by simp only [fine, found]))
  · exact asks_of_answers (answers_of_reaches (execFawait f) reaches (part := by simp only [fine, waits]))
  · exact completes_of_answers (answers_of_reaches (execFpoll f) reaches (part := by simp only [fine]))
  · rw [promiseDone_of_owned owned]
    exact ⟨(Execution.releaseFrame_setFrame s _ _).2.2, waiting_releaseFrame _ _⟩

end Sys2Proof.Control
end

section
/-! Records (R148 to R154, R326, R328, R330): `spawn`, `emit`, `fire` and `reord`, and the priority queue. -/

namespace Sys2Proof.Control

open Machine Laws Claims

variable {s t : State} {is : Issue} {f : XC}

/-! ## Records leave (R148 to R150, R326) -/

/-- Settles O15: once the checks have passed, room decides whether the records leave, and a handle whether a frame is raised
first. -/
theorem recordsLeave : Obligations.RecordsLeave := by
  refine ⟨fun f s is => ?_, fun s n o rs present kind => ⟨fun t raised => ?_, fun l refused => ?_⟩⟩
  · dsimp only
    refine ⟨fun reaches t passed => ⟨fun full => ?_, fun room null => ?_, fun room handle => ?_⟩,
      fun reaches t passed => ⟨fun full => ?_, fun room => ?_⟩, fun reaches t passed => ⟨fun full => ?_, fun room => ?_⟩⟩
    · exact asks_of_answers (answers_of_reaches (execSpawn f) reaches (part := by simp only [passed, full]; rfl))
    · have all : (makeRecords f (formRecord f true true true true) is true).all (fun m => m.key == 0) = true := by
        simpa using null
      exact completes_of_answers (answers_of_reaches (execSpawn f) reaches (part := by simp only [passed, room, all]; rfl))
    · have some_ : (makeRecords f (formRecord f true true true true) is true).all (fun m => m.key == 0) = false := by
        simpa using handle
      exact asks_of_answers (answers_of_reaches (execSpawn f) reaches (part := by simp only [passed, room, some_]; rfl))
    · exact asks_of_answers (answers_of_reaches (execEmit f) reaches (part := by simp only [passed, full]; rfl))
    · exact completes_of_answers (answers_of_reaches (execEmit f) reaches (part := by simp only [passed, room]; rfl))
    · exact asks_of_answers (answers_of_reaches (execFire f) reaches (part := by simp only [passed, full]; rfl))
    · exact completes_of_answers (answers_of_reaches (execFire f) reaches (part := by simp only [passed, room]; rfl))
  · unfold exec
    simp only [execSpawnFrameRaise, present, kind, raised]
  · unfold exec
    simp only [execSpawnFrameRaise, present, kind, refused]

/-! ## The reorder unit and the priority queue (R152 to R154, R328, R330) -/

/-- The entries of a die's queue, each with its place in the list of all. -/
def queueOf (s : State) (die : Nat) : List (Nat × PqEntry) :=
  (s.pqueues.zipIdx.filter fun e => e.1.1 == die).map fun e => (e.2, e.1.2)

section Pop

variable {n die pick : Nat} {o : Op} {regs : List (List Nat)} (present : s.ops.look n = some o) (kind : o.kind = .pop die regs)
  (arrived : ∀ e ∈ s.ops, e.1 < n → e.2.ctx = o.ctx → ∀ d es, e.2.kind = .push d es → d ≠ die)
include present kind arrived

/-- Once the earlier pushes of its group to the die have arrived, a pop takes the picked entry that lies in the window (R330). -/
theorem pqPop_arrived : exec (.pqPopPerform n pick) s = .next (
    if queueOf s die = [] then s.popped n o die regs none
    else ((queueOf s die)[pick]?.filter fun e => inWindow ((queueOf s die).map Prod.snd) e.2).elim s fun e =>
      ({ s with pqueues := dropAt s.pqueues e.1 }).popped n o die regs (some e.2)) := by
  unfold exec
  simp only [execPqPopPerform, present, kind]
  split
  · rename_i pushes
    obtain ⟨e, listed, push⟩ := List.any_eq_true.1 pushes
    simp only [Bool.and_eq_true, decide_eq_true_eq, beq_iff_eq] at push
    obtain ⟨⟨before, own⟩, push⟩ := push
    split at push
    · rename_i d es pushKind
      exact absurd (beq_iff_eq.1 push) (arrived e listed before own d es pushKind)
    · cases push
  · rw [← queueOf]
    split
    · rename_i empty
      rw [if_pos (List.isEmpty_iff.1 empty)]
    · rename_i held
      rw [if_neg (mt List.isEmpty_iff.2 held)]
      split
      · rename_i beyond
        simp [beyond]
      · rename_i at_ e entry
        split <;> rename_i near <;> simp [entry, near, Option.filter]

end Pop

/-- Settles O16: `reord` deposits once its awaits have returned and there is room, and the events of the priority queue move its
entries. -/
theorem queuesAndReorderUnit : Obligations.QueuesAndReorderUnit := by
  refine ⟨fun f s is reaches => ?_, fun f s is => ?_,
    fun s n o present => ⟨fun die es kind going => ?_, fun die regs pick kind arrived => ?_⟩⟩
  · dsimp only
    intro q t d awaited found reorder await
    have kind : (d.kind != .reorder) = false := by simp [reorder]
    refine ⟨fun waits => ?_, fun returned full => ?_, fun returned room => ?_⟩
    · subst waits
      exact asks_of_answers (answers_of_reaches (execReord f) reaches (part := by
        simp only [found, kind, await, Bool.false_eq_true, if_false]))
    · subst returned
      exact asks_of_answers (answers_of_reaches (execReord f) reaches (part := by
        simp only [found, kind, await, Bool.false_eq_true, if_false, full, if_true]))
    · subst returned
      exact completes_of_answers (answers_of_reaches (execReord f) reaches (part := by
        simp only [found, kind, await, Bool.false_eq_true, if_false, Nat.not_lt.2 room]))
  · dsimp only
    refine ⟨fun reaches t passed => ?_, fun reaches => ?_⟩
    · exact completes_of_answers (answers_of_reaches (execPqpush f) reaches (part := by simp only [passed]))
    · exact completes_of_answers (answers_of_reaches (execPqpop f) reaches)
  · unfold exec
    simp only [execPqPushPerform, present, kind, going]
    rfl
  · rw [pqPop_arrived present kind arrived, ← queueOf]
    refine ⟨fun empty => by rw [if_pos empty], fun at_ e entry near => ?_⟩
    have held : queueOf s die ≠ [] := fun empty => by simp [empty] at entry
    rw [if_neg held, entry, Option.filter_some, if_pos near]
    rfl

end Sys2Proof.Control
end

section
/-! Lane operations (family 11): shuffles, votes, matches, `redux`, `scan` and the generator (R172 to R177, R362). -/

namespace Sys2Proof.Lanes

open Machine Laws Claims Numbers Control

variable {i : Instr} {f : XL} {s : State} {is : Issue}

/-! ## Shuffles and votes (R172, R173) -/

theorem exec_shflIdx (f : XL) (s : State) : exec (.shflIdx f) s = shuffle f 0 (fun _ b => b) s := rfl

theorem exec_shflUp (f : XL) (s : State) : exec (.shflUp f) s = shuffle f 1 (fun l b => (l : Int) - b) s := rfl

theorem exec_shflDown (f : XL) (s : State) : exec (.shflDown f) s = shuffle f 2 (fun l b => (l : Int) + b) s := rfl

theorem exec_shflXor (f : XL) (s : State) : exec (.shflXor f) s = shuffle f 3 (fun l b => (l ^^^ b : Nat)) s := rfl

theorem exec_voteBallot (f : XL) (s : State) : exec (.voteBallot f) s = vote f 0 (fun _ bits => bits) s := rfl

theorem exec_voteAny (f : XL) (s : State) : exec (.voteAny f) s = vote f 1 (fun _ bits => truth (bits != 0)) s := rfl

theorem exec_voteAll (f : XL) (s : State) : exec (.voteAll f) s = vote f 2 (fun m bits => truth (bits == m)) s := rfl

theorem exec_voteUni (f : XL) (s : State) :
    exec (.voteUni f) s = vote f 3 (fun m bits => truth (bits == 0 || bits == m)) s := rfl

/-- A shuffle completes with the value of the lane that is named, or of the own one where that lane is not in the split's mask. -/
theorem completes_shuffle {mode : Nat} {source : Nat → Nat → Int} (runs : exec i s = shuffle f mode source s)
    (reaches : Reaches (formShfl f mode) f.h.bytes [] s is) :
    Completes i s is (.done (s.setCtx is.id ((formShfl f mode).writeLanes is.c is.acting fun l =>
      let j := source l (((formShfl f mode).arg is.c 2 l).toNat % 2 ^ 32)
      if 0 ≤ j ∧ j < is.c.node.width ∧ is.sp.mask.getLsbD j.toNat then (formShfl f mode).arg is.c 1 j.toNat
      else (formShfl f mode).arg is.c 1 l))) := by
  refine completes_of_answers ((answers_of_reaches (shuffle f mode source) reaches runs).congr ?_)
  simp only [Issue.onCtx, Bool.and_eq_true, decide_eq_true_eq, and_assoc]

/-- A vote completes with its result from the participating lanes and their predicate bits. -/
theorem completes_vote {mode : Nat} {op : LaneMask → LaneMask → DWord} {x : DWord}
    (runs : exec i s = vote f mode op s) (result : op is.acting (is.c.pred f.h.src1.toNat &&& is.acting) = x)
    (reaches : Reaches (formVote f mode) f.h.bytes [] s is) :
    Completes i s is (.done (s.setCtx is.id ((formVote f mode).writeDst is.c 0 x))) := by
  subst result
  exact completes_of_answers (answers_of_reaches (vote f mode op) reaches runs)

theorem truth_eq_ite {b : Bool} {p : Prop} [Decidable p] (same : b = true ↔ p) : truth b = if p then 1 else 0 :=
  if_congr same rfl rfl

/-! ## The generator (R89, R90, R177) -/

/-- The word at a location of `v` or `s`. -/
def wordAt (c : Ctx) (k : Nat) : Word := if k < 16384 then c.v.at 0 k else c.s (k - 16384)

theorem wordAt_locS (c : Ctx) (n : Nat) : wordAt c (locS n) = c.s n := by simp [wordAt, locS]

theorem wordAt_locV (c : Ctx) {n l : Nat} (hn : n < 256) (hl : l < 64) : wordAt c (locV n l) = c.vreg n l :=
  if_pos (by unfold locV; omega)

/-- A word written at a location is read there. -/
theorem wordAt_writeLoc_same (c : Ctx) (k : Nat) (w : Word) : wordAt (c.writeLoc k w) k = w := by
  unfold wordAt
  split
  · rename_i vector
    rw [v_writeLoc c k k w vector, if_pos rfl]
  · rename_i scalar
    simp [Ctx.writeLoc, scalar, Ctx.s, Ctx.setS]

/-- A word written at a location leaves every other one. -/
theorem wordAt_writeLoc_ne (c : Ctx) {k j : Nat} (w : Word) (other : j ≠ k) : wordAt (c.writeLoc k w) j = wordAt c j := by
  unfold wordAt
  split
  · exact v_writeLoc_ne c w other
  · exact s_writeLoc_ne c w (by unfold locS; omega)

/-- After some writes a location that they name holds the one word that they write there. -/
theorem wordAt_foldl_writeLoc {α : Type} {ls : List α} {loc : α → Nat} {word : α → Word} {a : α} (listed : a ∈ ls)
    (same : ∀ b ∈ ls, loc b = loc a → word b = word a) (c : Ctx) :
    wordAt (ls.foldl (fun c a => c.writeLoc (loc a) (word a)) c) (loc a) = word a := by
  induction ls using List.reverseRecOn with
  | nil => cases listed
  | append_singleton ls b ih =>
    rw [List.foldl_concat]
    by_cases last : loc b = loc a
    · rw [← last, wordAt_writeLoc_same]
      exact same b (by simp) last
    · have earlier : a ∈ ls := by
        rcases List.mem_append.1 listed with h | h
        · exact h
        · exact absurd (congrArg loc (List.mem_singleton.1 h)).symm last
      rw [wordAt_writeLoc_ne _ _ (Ne.symm last)]
      exact ih earlier fun b hb => same b (List.mem_append_left _ hb)

theorem length_rngBlock (ctr : BitVec 128) (key : DWord) : (rngBlock ctr key).length = 4 := rfl

/-- An output word is made of the word of the block at its place. -/
theorem getD_map_rngBlock (g : Word → Word) (ctr : BitVec 128) (key : DWord) {i : Nat} (hi : i < 4) :
    ((rngBlock ctr key).map g).getD i 0 = g ((rngBlock ctr key).getD i 0) := by
  have inside : i < (rngBlock ctr key).length := by rw [length_rngBlock]; exact hi
  rw [List.getD_eq_getElem _ _ ((List.length_map g).symm ▸ inside), List.getD_eq_getElem _ _ inside, List.getElem_map]

/-- Each of four registers gets its word. -/
theorem s_foldl_four {d i : Nat} {word : Nat → Word} (hi : i < 4) (c : Ctx) :
    ((List.range 4).foldl (fun c i => c.writeLoc (locS (d + i)) (word i)) c).s (d + i) = word i := by
  rw [← wordAt_locS]
  refine wordAt_foldl_writeLoc (loc := fun i => locS (d + i)) (List.mem_range.2 hi) (fun j _ same => congrArg word ?_) c
  unfold locS at same
  omega

/-- Each of four registers of a lane gets its word, whatever the other lanes get. -/
theorem vreg_foldl_lanes {d l i : Nat} {m : LaneMask} {word : Nat → Nat → Word} (hl : l ∈ lanesOf m) (hi : i < 4)
    (fits : d + i < 256) (c : Ctx) :
    ((lanesOf m).foldl (fun c l => (List.range 4).foldl (fun c i => c.writeLoc (locV (d + i) l) (word l i)) c) c).vreg (d + i) l
      = word l i := by
  have small : ∀ {l}, l ∈ lanesOf m → l < 64 := fun h => BitVec.lt_of_getLsbD (mem_lanesOf.1 h)
  have writes := wordAt_foldl_writeLoc (ls := (lanesOf m).product (List.range 4)) (loc := fun e => locV (d + e.2) e.1)
    (word := fun e => word e.1 e.2) (a := (l, i)) (by simp [hl, hi]) (fun e he same => by
      obtain ⟨lane, -⟩ := List.mem_product.1 he
      have := small lane
      have := small hl
      unfold locV at same
      rw [show e.1 = l by omega, show e.2 = i by omega]) c
  rw [wordAt_locV _ fits (small hl)] at writes
  rw [← writes]
  simp only [List.product, List.foldl_flatMap, List.foldl_map]

/-! ## `redux` and `scan` (R175, R176, R362) -/

/-- A result of the whole split with no enabled flag is written, and its flags are posted. -/
theorem deliverSplit_done {fl : Flags} {write : Ctx → Ctx} (acts : is.acting ≠ 0)
    (clear : enabledFlags is.c.special.fpctl fl = 0) :
    deliverSplit is s fl write = .done (s.setCtx is.id ((write is.c).postFlags fl)) := by
  have together := raised_same (lanesOf_ne_nil acts) fl
  rw [deliverSplit, deliver_done (by rwa [together]), together]

/-- Settles O7: each of them runs its rule on its own context, the generator's words land each in its own register, and what
`redux` and `scan` make is delivered where no flag of it is enabled. -/
theorem lanesCommunicate : Obligations.LanesCommunicate := by
  unfold Obligations.LanesCommunicate
  refine ⟨fun f s is => ?_, fun f s is reaches => ?_, fun f s is => ?_⟩
  · dsimp only
    refine ⟨(completes_shuffle (exec_shflIdx f s) :), (completes_shuffle (exec_shflUp f s) :),
      (completes_shuffle (exec_shflDown f s) :), (completes_shuffle (exec_shflXor f s) :), completes_vote (exec_voteBallot f s) rfl,
      completes_vote (exec_voteAny f s) (truth_eq_ite (by simp)), completes_vote (exec_voteAll f s) (truth_eq_ite (by simp)),
      completes_vote (exec_voteUni f s) (truth_eq_ite (by simp)), fun reaches => ?_⟩
    exact completes_of_answers (answers_of_reaches (execMatchLanes f) reaches)
  · dsimp only
    refine ⟨_, completes_of_answers (answers_of_reaches (execRngc f) reaches),
      fun scalar j hj fits => ?_, fun lanes l hl j hj fits => ?_⟩
    · simp only [scalar, if_true]
      exact (s_foldl_four hj is.c).trans (getD_map_rngBlock _ _ _ hj)
    · simp only [lanes, Bool.false_eq_true, if_false]
      exact (vreg_foldl_lanes hl hj fits is.c).trans (getD_map_rngBlock _ _ _ hj)
  · refine ⟨fun reaches => ?_, fun reaches => ?_⟩
    · intro lanes r value clear
      exact completes_of_answers (answers_of_reaches (execRedux f) reaches (part := deliverSplit_done reaches.acts clear))
    · intro r clear
      exact completes_of_answers (answers_of_reaches (execScan f) reaches (part := deliverSplit_done reaches.acts clear))

end Sys2Proof.Lanes
end

section
/-! The vocabulary unit (family 11, R178 to R184): its instructions start, it does a block of the operation whose turn it is, and it
ranks the best elements. -/

namespace Sys2Proof.Vocabulary

open Machine Laws Claims Control

variable {i : Instr} {f : XL} {s : State} {is : Issue}

/-! ## Issue (R178, R179) -/

/-- An instruction that passes its own checks, waits in the lanes that it writes, and reaches its own part is carried out with what that
part answers. -/
theorem answers_of_issueOn {form : Form} {bytes : Nat} {illegal absent : Issue → State → Bool} {written : Issue → LaneMask}
    {act : Issue → State → Res} {r : Res} (reaches : Reaches form bytes [] s is (written is)) (legal : illegal is s = false)
    (present : absent is s = false) (runs : exec i s = issueOn form bytes [] illegal absent written act s)
    (part : act is s = r) : Answers i s is r := by
  subst part
  exact runs.trans (issueOn_reaches reaches legal present)

/-- A checked operation whose group's unit and whose row are free commits (R179). -/
theorem commitVocab_of_free {v : Vocab} {ranges : List Range} (idle : s.vocabBusy is.id = false)
    (free : s.rangesBlocked is.c.core ranges = false) :
    commitVocab is s v ranges = .commit (vocabStarted is s v ranges) := by
  rw [commitVocab, idle, free]
  rfl

/-- What runs as a vocabulary instruction starts as one. -/
theorem vocabStarts_of_runs {form : Form} {kind k : Nat} (runs : ∀ s, exec i s = issueVocab f form kind k s) :
    VocabStarts i f form kind k := by
  intro s is reaches lanes
  have legal : (kind == 1 && (k == 0 || decide (is.c.node.width < k)
      || laneSet (List.range k) &&& ~~~is.sp.mask != 0)) = false := by
    by_cases top : kind = 1
    · obtain ⟨some_, fits, held⟩ := lanes top
      simp [some_, fits, held]
    · simp [top]
  dsimp only
  refine ⟨fun absent => (runs s).trans (issueOn_absent reaches legal (by simp [absent])), fun present idle pos small => ?_⟩
  have count : ((is.c.s f.h.src2.toNat).toNat = 0 || decide (2 ^ 24 < (is.c.s f.h.src2.toNat).toNat)) = false := by
    simp only [Bool.or_eq_false_iff, decide_eq_false_iff_not]
    omega
  refine ⟨fun row fits held free => ?_, fun row aligned off own free => ?_, fun notLanes notScratch aligned inside free => ?_⟩
  · refine completes_of_answers (answers_of_issueOn reaches legal (by simp [present]) (runs s) ?_)
    simp only [count, row, held, Nat.not_lt.2 fits]
    exact commitVocab_of_free idle free
  · refine completes_of_answers (answers_of_issueOn reaches legal (by simp [present]) (runs s) ?_)
    simp only [count, row, aligned, own]
    exact commitVocab_of_free idle free
  · refine completes_of_answers (answers_of_issueOn reaches legal (by simp [present]) (runs s) ?_)
    simp only [count, notLanes, notScratch, aligned, inside]
    exact commitVocab_of_free idle free

/-! ## The ranking of `vtopk` (R182) -/

/-- The first element is better: its value ranks higher, or as high at a lower index. -/
def Before (a b : Word × Nat) : Prop := vocabRank b.1 < vocabRank a.1 ∨ (vocabRank b.1 = vocabRank a.1 ∧ a.2 < b.2)

/-- The first element's value ranks higher than the second's. -/
abbrev Above (a b : Word × Nat) : Prop := vocabRank b.1 < vocabRank a.1

theorem Above.trans_before {a b c : Word × Nat} (h : Above a b) (g : Before b c) : Above a c := by
  unfold Above Before at *
  omega

/-- Filing an element keeps the first k of the list in which it stands above the first lower one. -/
theorem rankInto_eq_take (k : Nat) (e : Word × Nat) (l : List (Word × Nat)) :
    rankInto k e l = (l.orderedInsert Above e).take k := by
  induction l generalizing k with
  | nil => rw [rankInto, List.orderedInsert_nil]
  | cons d ds ih =>
    rw [List.orderedInsert_cons]
    by_cases above : Above e d
    · rw [if_pos above]
      cases k <;> exact if_pos above
    · rw [if_neg above]
      cases k with
      | zero => exact if_neg above
      | succ k => exact (if_neg above).trans (congrArg (d :: ·) (ih k))

/-- The next element, inserted above the first lower one, leaves the list ranked. -/
theorem pairwise_orderedInsert {e : Word × Nat} {l : List (Word × Nat)} (ranked : l.Pairwise Before)
    (next : ∀ x ∈ l, x.2 < e.2) : (l.orderedInsert Above e).Pairwise Before := by
  induction l with
  | nil => simp
  | cons d ds ih =>
    obtain ⟨best, rest⟩ := List.pairwise_cons.1 ranked
    rw [List.orderedInsert_cons]
    split
    · rename_i above
      refine List.pairwise_cons.2 ⟨fun x hx => .inl ?_, ranked⟩
      rcases List.mem_cons.1 hx with rfl | hx
      · exact above
      · exact above.trans_before (best x hx)
    · rename_i notAbove
      refine List.pairwise_cons.2 ⟨fun x hx => ?_, ih rest fun x hx => next x (List.mem_cons_of_mem _ hx)⟩
      rcases (List.mem_orderedInsert Above).1 hx with rfl | hx
      · have := next d List.mem_cons_self
        unfold Above at notAbove
        unfold Before
        omega
      · exact best x hx

/-- Filing the next element in a ranked list keeps the k best of both. -/
theorem rankInto_keeps_best {k : Nat} {e : Word × Nat} {l : List (Word × Nat)} (ranked : l.Pairwise Before)
    (next : ∀ x ∈ l, x.2 < e.2) :
    (rankInto k e l).Pairwise Before ∧ (rankInto k e l).length = min k (l.length + 1) ∧ (∀ x ∈ rankInto k e l, x = e ∨ x ∈ l)
      ∧ ∀ y, y = e ∨ y ∈ l → y ∉ rankInto k e l → ∀ x ∈ rankInto k e l, Before x y := by
  have all := pairwise_orderedInsert ranked next
  rw [rankInto_eq_take]
  refine ⟨all.sublist (List.take_sublist _ _), by rw [List.length_take, List.orderedInsert_length],
    fun x hx => (List.mem_orderedInsert Above).1 (List.mem_of_mem_take hx), fun y hy dropped x hx => ?_⟩
  rw [← List.take_append_drop k (l.orderedInsert Above e)] at all
  have listed := (List.mem_orderedInsert Above).2 hy
  rw [← List.take_append_drop k (l.orderedInsert Above e)] at listed
  exact (List.pairwise_append.1 all).2.2 x hx y ((List.mem_append.1 listed).resolve_left dropped)

/-! ## The unit at work (R179, R181) -/

section Block

variable {n : Nat} {o : Op} {v : Vocab} (present : s.ops.look n = some o) (kind : o.kind = .vocab v)
include present kind

/-- A block out of its operation's turn leaves the state. -/
theorem vocabBlock_waiting (waits : s.vocabNext o.die ≠ some n) : exec (.vocabBlock n) s = .next s := by
  unfold exec
  simp only [execVocabBlock, present, kind, bne_iff_ne.2 waits, if_true]

/-- A cause at the row of a block in its operation's turn stops the engine. -/
theorem vocabBlock_of_cause {t : State} {u : Trap} (turn : s.vocabNext o.die = some n)
    (row : ({ s with vocabLast := s.vocabLast.put 0 o.die (n + 1) } : State).vocabRow n o v = (t, .error u)) :
    exec (.vocabBlock n) s = .next (t.meetFault n u) := by
  unfold exec
  simp only [execVocabBlock, present, kind, turn, bne_self_eq_false, Bool.false_eq_true, if_false, row]

/-- The elements of a block in its operation's turn are worked in. -/
theorem vocabBlock_of_row {t : State} {xs : List Word} (turn : s.vocabNext o.die = some n)
    (row : ({ s with vocabLast := s.vocabLast.put 0 o.die (n + 1) } : State).vocabRow n o v = (t, .ok xs)) :
    exec (.vocabBlock n) s = .next (t.vocabStep n o v xs) := by
  unfold exec
  simp only [execVocabBlock, present, kind, turn, bne_self_eq_false, Bool.false_eq_true, if_false, row]

end Block

/-- Settles O28: each of the three instructions starts as one of the unit, filing keeps the best, and the unit serves the block whose
turn it is. -/
theorem vocabularyOperations : Obligations.VocabularyOperations := by
  unfold Obligations.VocabularyOperations
  refine ⟨fun f => ⟨vocabStarts_of_runs fun _ => rfl, vocabStarts_of_runs fun _ => rfl, vocabStarts_of_runs fun _ => rfl⟩,
    fun k e l ranked _ next => rankInto_keeps_best ranked next,
    fun s n o v present kind => ⟨vocabBlock_waiting present kind, fun turn => ⟨fun t u cause => ?_, fun t xs row => ?_⟩⟩⟩
  · exact vocabBlock_of_cause present kind turn cause
  · dsimp only
    rw [vocabBlock_of_row present kind turn row]
    refine ⟨fun going => ?_, fun ended => ⟨fun x again => ?_, fun values flags results => ?_⟩⟩
    · simp only [State.vocabStep, going, Bool.not_false, if_true]
    · simp only [State.vocabStep, ended, again, Bool.not_true, Bool.false_eq_true, if_false]
    · simp only [State.vocabStep, ended, results, Bool.not_true, Bool.false_eq_true, if_false, State.finishVocab]

end Sys2Proof.Vocabulary
end

section
/-! What a fill leaves of the registers of the read misses, and what a write of bytes leaves of the L2s (R67, R70). -/

namespace Sys2Proof.Ordering

open Machine Laws MemoryAccess PageTable

variable {s t : State}

/-- What the slices of the L2 hold: their lines, and the registers of their read misses. -/
def slices (s : State) : SMap Nat × List Merge := (s.l2, s.merges)

/-- A fold of operations that leave a part of the state leaves that part. -/
theorem foldState_leaves {α β : Type} (part : State → β) {l : List α} {f : State → α → State}
    (h : ∀ s a, part (f s a) = part s) : part (foldState l s f) = part s := by
  unfold foldState
  induction l generalizing s with
  | nil => rfl
  | cons a l ih => exact (ih (s := f s a)).trans (h s a)

/-! ## Writes of bytes, and the L1 -/

@[simp] theorem crossEdge_slices (id : Nat) : slices (s.crossEdge id) = slices s := by
  unfold State.crossEdge
  split <;> rfl

@[simp] theorem freeWatch_slices (w : Watch) : slices (s.freeWatch w) = slices s := by
  unfold State.freeWatch
  extract_lets u
  split
  · exact crossEdge_slices (s := u) w.ctx
  · rfl

@[simp] theorem release_slices (w : Watch) : slices (s.release w) = slices s := by
  unfold State.release
  split
  · exact freeWatch_slices w
  · rfl

@[simp] theorem testWatches_slices (touched : Watch → Bool) : slices (s.testWatches touched) = slices s :=
  foldState_leaves slices fun _ _ => release_slices _

@[simp] theorem writeCells_slices (cells : List Host.Cell) : slices (s.writeCells cells) = slices s := by
  unfold State.writeCells
  extract_lets mem cured u
  split
  · rfl
  · exact testWatches_slices (s := u) _

theorem writeCells_l2 (cells : List Host.Cell) : (s.writeCells cells).l2 = s.l2 := congrArg Prod.fst (writeCells_slices cells)

@[simp] theorem logUncorrectable_slices (pa : Nat) : slices (s.logUncorrectable pa) = slices s := by
  unfold State.logUncorrectable
  extract_lets c
  split
  · rfl
  · exact writeCells_slices _

@[simp] theorem evictLine_slices (core line : Nat) : slices (s.evictLine core line) = slices s := by
  unfold State.evictLine
  split
  · rfl
  · rename_i l held
    split
    · rfl
    · obtain ⟨cs, graphs, sent⟩ := sendLine_rest none held
      rw [sent]
      rfl

@[simp] theorem makeRoom_slices (core line : Nat) : slices (s.makeRoom core line) = slices s := by
  rcases makeRoom_cases (s := s) core line with same | ⟨gone, -, made⟩
  · rw [same]
  · rw [made, evictLine_slices]
    rfl

@[simp] theorem loadL1_slices (core pa n : Nat) : slices (s.loadL1 core pa n).1 = slices s := by
  unfold State.loadL1
  extract_lets off value u k line data filled
  split
  · rfl
  · split
    · rfl
    · exact makeRoom_slices core (pa / 128)

/-! ## The requests of a line -/

theorem merges_of_slices (h : slices t = slices s) : t.merges = s.merges := congrArg Prod.snd h

@[simp] theorem claimLine_merges (pa h : Nat) : (s.claimLine pa h).merges = s.merges := by
  obtain ⟨lines, claimed⟩ := claimLine_rest (s := s) pa h
  rw [claimed]

@[simp] theorem readLane_merges (core handle : Nat) (ty : Ty) (a : LaneAt) :
    (s.readLane core handle ty a).1.merges = s.merges := by
  unfold State.readLane
  split
  · rename_i pa _
    have loaded := merges_of_slices (loadL1_slices (s := s) core pa (ty.width / 8))
    have logged (u : State) : (u.logUncorrectable pa).merges = u.merges := merges_of_slices (logUncorrectable_slices pa)
    dsimp only
    split <;> split <;> simp only [logged, claimLine_merges, loaded]
  · rfl

@[simp] theorem readLanes_merges (core : Nat) (scalar : Bool) (reg : Nat) (ty : Ty) (handle : Nat) (lanes : List LaneAt) :
    (s.readLanes core scalar reg ty handle lanes).1.merges = s.merges := by
  unfold State.readLanes
  generalize ([] : List (Nat × Option Word × BitVec 5)) = got
  induction lanes generalizing s got with
  | nil => rfl
  | cons a l ih => exact (ih _).trans (readLane_merges core handle ty a)

@[simp] theorem notePart_merges (n : Nat) (link : Nat × Nat) (words : Response) :
    (s.notePart n link words).merges = s.merges := by
  unfold State.notePart
  split
  · rfl
  · split <;> rfl

@[simp] theorem readOp_merges (n : Nat) (chosen : LaneAt → Bool) : (s.readOp n chosen).merges = s.merges := by
  unfold State.readOp
  split
  · rfl
  · split
    · exact (foldState_leaves State.merges fun _ _ => notePart_merges _ _ _).trans (readLanes_merges _ _ _ _ _ _)
    · rfl

@[simp] theorem serveRequest_merges (line : Nat) (r : Request) : (s.serveRequest line r).merges = s.merges := by
  unfold State.serveRequest
  extract_lets u
  have claimed : u.merges = s.merges := claimLine_merges _ _
  split
  · exact (readOp_merges _ _).trans claimed
  · exact (foldState_leaves State.merges fun _ _ => merges_of_slices (loadL1_slices _ _ _)).trans claimed

/-- The fill of a line closes its registers and leaves the others. -/
theorem serveLine_merges (line : Nat) : (s.serveLine line).merges = s.merges.filter fun m => m.line != line :=
  foldState_leaves State.merges fun _ _ => serveRequest_merges _ _

end Sys2Proof.Ordering
end

section
/-! Writes on their way, evicted lines, fills of the L2 and late producers (family 15; R224, R236, R67, R70, R316). -/

namespace Sys2Proof.Ordering

open Machine Laws MemoryAccess Scope

variable {s t : State}

/-! ## Writes at their homes (R224, R70) -/

section Write

variable {w : Write}

/-- A write stands behind an earlier one of its core that has a byte of it. -/
theorem behind_iff {before : List Write} :
    w.behind before = true ↔ ∃ e ∈ before, e.core = w.core ∧ ∃ x ∈ e.bytes, ∃ y ∈ w.bytes, x.1 = y.1 := by
  simp [Write.behind, Write.meets]

/-- The event of a write on its way leaves the state where the write stands behind another, and performs it otherwise. -/
theorem memoryWritePerform_of_write {n : Nat} (onWay : s.writes[n]? = some w) :
    (w.behind (s.writes.take n) = true → exec (.memoryWritePerform n) s = .next s)
    ∧ (w.behind (s.writes.take n) = false → exec (.memoryWritePerform n) s =
      .next { s.performWrite w with writes := dropAt (s.performWrite w).writes n }) := by
  have run : exec (.memoryWritePerform n) s = .next (s.performNth n w) := by
    show execMemoryWritePerform n s = _
    rw [execMemoryWritePerform, onWay]
  constructor <;> intro turn <;> simp [run, State.performNth, turn]

/-- A line for which no room can be made is not allocated. -/
theorem allocLine_noRoom {line : Nat} (full : s.setFull line = true)
    (noWay : s.makeWay (s.homeOf (128 * line)).1 (s.setOf line) = none) : s.allocLine line = s := by
  simp [State.allocLine, full, noWay]

/-- A line that the L2 does not hold comes to belong to no handle. -/
theorem claimLine_absent {pa h : Nat} (absent : s.l2.look (pa / 128) = none) : s.claimLine pa h = s := by
  simp [State.claimLine, absent]

/-- A write in whose lines no fill is open puts its bytes into memory. -/
theorem performWrite_mem (closed : ∀ m ∈ s.merges, ∀ x ∈ w.bytes, x.1 / 128 ≠ m.line) :
    (s.performWrite w).mem = (s.writeCells w.bytes).mem := by
  unfold State.performWrite
  split
  · rename_i e _
    have closed' : ∀ m ∈ (s.allocLine (e.1 / 128)).merges, ∀ x ∈ w.bytes, x.1 / 128 ≠ m.line := by rwa [allocLine_merges]
    simp only [noteHinge_mem, claimLine_mem, writeHome_closed _ _ closed', writeCells_mem, allocLine_mem]
  · rename_i empty
    rw [writeCells_mem, List.head?_eq_none_iff.1 empty]
    rfl

/-- Such a write leaves the L2 where no room can be made for its line. -/
theorem performWrite_l2 {e : Host.Cell} (closed : ∀ m ∈ s.merges, ∀ x ∈ w.bytes, x.1 / 128 ≠ m.line)
    (first : w.bytes.head? = some e) (absent : s.l2.look (e.1 / 128) = none) (full : s.setFull (e.1 / 128) = true)
    (noWay : s.makeWay (s.homeOf (128 * (e.1 / 128))).1 (s.setOf (e.1 / 128)) = none) : (s.performWrite w).l2 = s.l2 := by
  have still : (s.writeCells w.bytes).l2.look (e.1 / 128) = none := by rwa [writeCells_l2]
  simp only [State.performWrite, first, allocLine_noRoom full noWay, writeHome_closed _ _ closed, claimLine_absent still,
    noteHinge_l2, writeCells_l2]

end Write

/-! ## Eviction (R236) -/

/-- The eviction of a line with marked bytes sends them on their way, and the L1 holds the line no more. -/
theorem evictLine_marked {core line : Nat} {l : Line} (held : (s.core core).l1.look line = some l) (dirty : l.marked ≠ 0) :
    (∃ graphs, (s.evictLine core line).writes = s.writes ++ [⟨s.nextId, core, l.cells line, l.handle, graphs⟩])
      ∧ ((s.evictLine core line).core core).l1.look line = none := by
  obtain ⟨cs, graphs, sent⟩ := sendLine_rest none held
  simp only [State.evictLine, held, dirty, if_false, sent]
  exact ⟨⟨graphs, rfl⟩, by simp⟩

/-! ## Room in a full set (R70) -/

section Room

variable {die : Nat} {set : List Nat}

/-- Of the lines of a set that belong to no handle one is replaced. -/
theorem replaceLine_spare (spare : ∃ n ∈ set, s.lineOwner n = none) :
    ∃ n ∈ set, s.lineOwner n = none ∧ (s.replaceLine set).l2 = s.l2.del n := by
  obtain ⟨m, hm, unowned⟩ := spare
  unfold State.replaceLine
  extract_lets spares
  have some_ : 0 < spares.length := List.length_pos_of_mem (List.mem_filter.2 ⟨hm, by simp [unowned]⟩)
  have inside : Config.freeChoice s.free % spares.length < spares.length := Nat.mod_lt _ some_
  rw [List.getElem?_eq_getElem inside]
  obtain ⟨member, free⟩ := List.mem_filter.1 (List.getElem_mem inside)
  exact ⟨_, member, Option.isNone_iff_eq_none.1 free, rfl⟩

/-- A full set with a line that belongs to no handle has such a line replaced. -/
theorem makeWay_spare (spare : ∃ n ∈ set, s.lineOwner n = none) : s.makeWay die set = some (s.replaceLine set) := by
  have unowned : (set.map s.lineOwner).any Option.isNone = true := by simpa using spare
  simp only [State.makeWay, unowned, if_true]

/-- A full set whose lines all belong to handles acts on the weakest of them. -/
theorem makeWay_owned {owners : List (Nat × Nat)} {h p : Nat} (owned : set.map s.lineOwner = owners.map some)
    (least : weakest owners = some (h, p)) :
    s.makeWay die set =
      if 7 ≤ p then none
      else if p = 0 then some { s with l2 := s.l2.filter fun e => !s.ownedOn die h e }
      else some ((s.demote die h).replaceLine set) := by
  have known : (owners.map some).any Option.isNone = false := by simp
  have all : (owners.map some).filterMap id = owners := by simp [List.filterMap_map]
  simp only [State.makeWay, owned, known, all, least, Bool.false_eq_true, if_false]

end Room

/-! ## Fills (R67, R70) -/

section Fill

variable {line handle : Nat} {set : List Nat} {full : Bool}

/-- The lines that a fill names as those of its set are others, which its die's L2 holds. -/
theorem all_held (held : ∀ n ∈ set, n ≠ line ∧ s.l2.look n ≠ none ∧ (s.homeOf (128 * n)).1 = (s.homeOf (128 * line)).1) :
    (set.all fun n => n != line && (s.l2.look n).isSome && (s.homeOf (128 * n)).1 == (s.homeOf (128 * line)).1) = true := by
  refine List.all_eq_true.2 fun n hn => ?_
  obtain ⟨other, present, home⟩ := held n hn
  simp [other, Option.isSome_iff_ne_none.2 present, home]

variable
  (asked : ((s.merges.find? fun m => m.line == line).bind fun m => (m.requests.head?).map Request.handle) = some handle)
  (held : ∀ n ∈ set, n ≠ line ∧ s.l2.look n ≠ none ∧ (s.homeOf (128 * n)).1 = (s.homeOf (128 * line)).1)
include asked held

/-- Where a way is free the line is allocated and its requests are served. -/
theorem l2Fill_free (free : full = false ∨ set = []) :
    exec (.l2Fill line handle set full) s = .next ((s.allocLine line).serveLine line) := by
  have way : (!full || set.isEmpty) = true := by simpa using free
  show execL2Fill line handle set full s = _
  simp [execL2Fill, asked, all_held held, way]

variable (isFull : full = true) (some_ : set ≠ [])
include isFull some_

/-- Where no room can be made the requests are served, and the line is not allocated. -/
theorem l2Fill_noRoom (noWay : s.makeWay (s.homeOf (128 * line)).1 set = none) :
    exec (.l2Fill line handle set full) s = .next (s.serveLine line) := by
  show execL2Fill line handle set full s = _
  simp [execL2Fill, asked, all_held held, isFull, some_, noWay]

/-- Where room can be made the line is allocated in its place. -/
theorem l2Fill_room (way : s.makeWay (s.homeOf (128 * line)).1 set = some t) :
    exec (.l2Fill line handle set full) s = .next ({ t with l2 := t.l2.ins line 0 }.serveLine line) := by
  show execL2Fill line handle set full s = _
  simp [execL2Fill, asked, all_held held, isFull, some_, way]

end Fill

/-! ## Late producers (R316) -/

/-- The watchdog of a producer abandons it when its time is over and destinations are left. -/
theorem producerWatchdog_of_op {n : Nat} {o : Op} (inFlight : s.ops.look n = some o) : exec (.producerWatchdog n) s =
    .next (if o.born + 2 ^ 24 < s.clock ∧ o.kind.dests ≠ [] then s.abandon n .watchdog 0 else s) := by
  show execProducerWatchdog n s = _
  simp [execProducerWatchdog, inFlight]

/-- Settles O39: a write is performed in its turn, an evicted line is sent, a fill acts as the room in its set allows, and a producer
whose time is over is abandoned. -/
theorem writesFillsAndLateProducers : Obligations.WritesFillsAndLateProducers := by
  unfold Obligations.WritesFillsAndLateProducers
  refine ⟨?_, ?_, ?_, ?_, ?_⟩
  · intro s n w onWay behind t
    obtain ⟨waits, performed⟩ := memoryWritePerform_of_write onWay
    exact ⟨fun later => waits (behind_iff.2 later),
      fun first => performed (Bool.eq_false_iff.2 fun later => first (behind_iff.1 later)),
      fun closed => ⟨performWrite_mem closed, fun _ => performWrite_l2 closed⟩⟩
  · intro s core line l held dirty
    have run : exec (.l1EvictWriteback core line) s = .next (if s.requestsFit core 1 then s.evictLine core line else s) := rfl
    refine ⟨fun noRoom => by rw [run, noRoom]; rfl, fun room => ⟨s.evictLine core line, by rw [run, room]; rfl, ?_⟩⟩
    obtain ⟨sent, gone⟩ := evictLine_marked held dirty
    exact ⟨sent, gone, evictLine_mem s core line⟩
  · intro s line handle set full die asked held fill filled
    refine ⟨l2Fill_free asked held, fun isFull spare => ⟨?_, replaceLine_spare spare⟩,
      fun owners h p isFull some_ owned least => ?_⟩
    · have way := makeWay_spare (die := die) spare
      obtain ⟨n, hn, -⟩ := spare
      exact l2Fill_room asked held isFull (List.ne_nil_of_mem hn) way
    · have way := makeWay_owned (die := die) owned least
      refine ⟨fun top => ?_, fun bottom => ?_, fun above below => ?_⟩
      · exact l2Fill_noRoom asked held isFull some_ (way.trans (if_pos top))
      · subst bottom
        exact l2Fill_room asked held isFull some_ way
      · rw [if_neg (Nat.not_le.2 below), if_neg (Nat.pos_iff_ne_zero.1 above)] at way
        exact l2Fill_room asked held isFull some_ way
  · intro s line m open_
    rw [serveLine_merges] at open_
    simpa using (List.mem_filter.1 open_).2
  · intro s n o inFlight
    rw [producerWatchdog_of_op inFlight]
    exact ⟨fun early => by rw [if_neg fun late => Nat.not_lt.2 early late.1], fun late left => by rw [if_pos ⟨late, left⟩]⟩

end Sys2Proof.Ordering
end

section
/-! Matrix operations at issue (family 17): `mma` and `mmas` commit, wait or trap, alone and in a gang (R251 to R257). -/

namespace Sys2Proof.MatrixUnit

open Machine Laws Claims Control

variable {s : State} {is : Issue} {f : XT}

/-! ## Checks in their order -/

/-- A check that does not hold is passed. -/
theorem if_of_false {α : Type} {b : Bool} {x y : α} (h : b = false) : (if b = true then x else y) = y :=
  if_neg (Bool.eq_false_iff.1 h)

theorem if_not_of_true {α : Type} {b : Bool} {x y : α} (h : b = true) : (if (!b) = true then x else y) = y :=
  if_of_false (congrArg not h)

theorem if_not_of_false {α : Type} {b : Bool} {x y : α} (h : b = false) : (if (!b) = true then x else y) = x :=
  if_pos (congrArg not h)

/-! ## `mmas` (R256, R257) -/

/-- The checks of an `mmas` hold, and it finds its ring and its barriers at r and b, to consume n stages (R256). -/
structure MmasChecked (f : XT) (s : State) (is : Issue) (n r b : Nat) : Prop where
  fits : badWide is f.fa f.fb f.h.dst.toNat = false
  count : ((formMmas f).arg is.c 3 0).toNat = n
  pos : 0 < n
  small : n < 65536
  ring : (((formMmas f).arg is.c 1 0).setWidth 32 : Word).toNat % 64 = 0
  bars : (((formMmas f).arg is.c 2 0).setWidth 32 : Word).toNat % 16 = 0
  pair : (pairOf f.fa f.fb).isSome = true
  found : s.ringOf is.c f.stages (((formMmas f).arg is.c 1 0).setWidth 32) (((formMmas f).arg is.c 2 0).setWidth 32) = .ok (r, b)

/-- The operation of an `mmas` that finds its ring and its barriers, with the phases of its full barriers (R256, R257). -/
def mmasOp (f : XT) (is : Issue) (core n r b : Nat) (t : State) : MatOp :=
  { matOpOf f 4 is.id f.fa f.fb with
    aoff := 0, boff := 0, k := n * Nat.min (tileLength f.fa) (tileLength f.fb)
    members := [is.c.member is.id is.sp.mask is.c.special.fpctl f.fa], ring := r, bars := b, stages := n, slots := f.stages
    phases := tabulate f.stages fun i => t.barrierPhase core (b + 16 * i) }

/-- An `mmas` past the checks of its operands: its split's earlier loads and reductions are performed, and it waits for room or
commits (R215, R257). -/
theorem answers_of_mmas (reaches : Reaches (formMmas f) f.h.bytes [] s is) (kept : is.c.node.steal = false) {n r b : Nat}
    (checked : MmasChecked f s is n r b) :
    let t := s.settleReads is.id
    let op := mmasOp f is (s.ownCore is.c) n r b t
    Answers (.mmas f) s is
      (if t.matrixWaits is.id op then .wait t .retry else .commit (t.commitMatrix (is.op t (.matrix op)) op)) := by
  obtain ⟨fits, rfl, pos, small, ring, bars, pair, found⟩ := checked
  refine answers_of_legal (meaning := execMmas f) reaches ?_ rfl (part := ?_)
  · simp [inStealable, kept, fits]
  have inRange : (((formMmas f).arg is.c 3 0).toNat = 0 || 65535 < ((formMmas f).arg is.c 3 0).toNat : Bool) = false := by
    simp only [Bool.or_eq_false_iff, decide_eq_false_iff_not]
    omega
  simp only [inRange, ring, bars, Option.isNone_eq_false_iff.2 pair, found, bne_self_eq_false, Bool.false_eq_true, if_false]
  rfl

/-! ## `mma` (R252 to R255) -/

section Mma

variable {kind : Nat} {i : Instr}

/-- The group that holds the B tile is the issuing one, where its tile is a source like the others (R252). -/
def holdsB (f : XT) (s : State) (is : Issue) : Bool := !f.gang || ((s.holderOf f is.id is.c).map Prod.fst) == some is.id

/-- The form that an `mma` is issued with: a member does not wait for the leader's B tile at issue (R252). -/
def mmaForm (f : XT) (kind : Nat) (s : State) (is : Issue) : Form :=
  if holdsB f s is then formMma f (kind != 1) else (formMma f (kind != 1)).withSrc2 .t .none

/-- The format of the B tile, wherever it is. -/
def formatB (f : XT) (s : State) (is : Issue) : Nat :=
  ((s.holderOf f is.id is.c).map fun h => (h.2.tile f.h.src2.toNat).fmt).getD 0

theorem formatB_of_some {holder : Nat × Ctx} (held : s.holderOf f is.id is.c = some holder) :
    formatB f s is = (holder.2.tile f.h.src2.toNat).fmt := by
  rw [formatB, held]
  rfl

theorem formatB_of_none (held : s.holderOf f is.id is.c = none) : formatB f s is = 0 := by
  rw [formatB, held]
  rfl

/-- What a split that parks at the latch leaves there (R252). -/
def arrival (i : Instr) (is : Issue) (op : MatOp) : Arrival :=
  { ctx := is.id, split := is.i, words := i, op := op, next := is.next, gang := is.c.special.gang
    fpctl := is.c.special.fpctl }

/-- A split arrives at its core's latch, an edge source (R236, R252). -/
def arrive (i : Instr) (is : Issue) (op : MatOp) (s : State) : State :=
  (s.writeBack is.id).modCore is.c.core fun k =>
    { k with latch := (k.latch.filter fun b => b.ctx != is.id || b.split != is.i) ++ [arrival i is op] }

/-- The operation that an `mma` asks for, by the formats of its own A tile and of the B tile of a group (R253). -/
def mmaOp (f : XT) (kind : Nat) (is : Issue) (holder : Nat × Ctx) : MatOp :=
  matOpOf f kind holder.1 (is.c.tile f.h.src1.toNat).fmt (holder.2.tile f.h.src2.toNat).fmt

/-- Its tiles form a shape (R253, R255). -/
def mmaShape (f : XT) (kind : Nat) (is : Issue) (holder : Nat × Ctx) : Bool :=
  shapeOk (mmaOp f kind is holder) (is.c.tile f.h.src1.toNat) (holder.2.tile f.h.src2.toNat) (is.c.tile f.h.src3.toNat)

/-- What an `mma` whose B tile is held by a group answers, by the checks of R252 to R254 in their order. -/
def mmaWith (i : Instr) (f : XT) (kind : Nat) (is : Issue) (s : State) (holder : Nat × Ctx) : Res :=
  let op := mmaOp f kind is holder
  if !mmaShape f kind is holder then .trap s (Trap.of .tileShape)
  else if f.gang && s.gangBroken is.c then .trap s (Trap.of .gangMismatch)
  else if s.matrixWaits is.id op then .wait s .retry
  else if f.gang then .wait (arrive i is op s) .latch
  else .commit (s.commitMatrix (is.op s (.matrix op))
    { op with members := [is.c.member is.id is.sp.mask is.c.special.fpctl op.fa] })

/-- An `mma` of whose gang the leader has ended answers by its own tiles (R252, log entry 70). -/
def mmaAlone (f : XT) (kind : Nat) (is : Issue) (s : State) : Res :=
  let a := is.c.tile f.h.src1.toNat
  if shapeA (matOpOf f kind is.id a.fmt 0) a (is.c.tile f.h.src3.toNat) then .trap s (Trap.of .gangMismatch)
  else .trap s (Trap.of .tileShape)

/-- An `mma` is issued with its form, its checks and its own part. -/
theorem issueMma_eq (issuer : s.issuer = some (is.id, is.i, is.c, is.sp)) :
    issueMma i f kind s = issueWith (mmaForm f kind s is) f.h.bytes []
      (fun is s => inStealable is s || (f.gang && is.c.special.gang == 0)
        || badWide is (is.c.tile f.h.src1.toNat).fmt (formatB f s is) f.h.dst.toNat)
      (fun _ s => (kind == 2 && s.vectorSparse) || (kind == 3 && !s.vectorSparse))
      (fun is s => (s.holderOf f is.id is.c).elim (mmaAlone f kind is s) (mmaWith i f kind is s)) s := by
  have form : mmaForm f kind s is = if f.gang && (s.holderOf f is.id is.c).map Prod.fst != some is.id then
      (formMma f (kind != 1)).withSrc2 .t .none else formMma f (kind != 1) := by
    unfold mmaForm holdsB
    cases f.gang <;> cases h : (s.holderOf f is.id is.c).map Prod.fst == some is.id <;> simp [bne, h]
  rw [form, issueMma, issuer]
  dsimp only
  congr 1
  funext is s
  cases s.holderOf f is.id is.c <;> rfl

/-- An `mma` that reaches its own part, past the checks of its block and of its gang, answers by its B tile's group. -/
theorem answers_of_mma (runs : exec i s = issueMma i f kind s) (reaches : Reaches (mmaForm f kind s is) f.h.bytes [] s is)
    (kept : is.c.node.steal = false) (named : f.gang = true → is.c.special.gang ≠ 0)
    (fits : badWide is (is.c.tile f.h.src1.toNat).fmt (formatB f s is) f.h.dst.toNat = false)
    (present : ((kind == 2 && s.vectorSparse) || (kind == 3 && !s.vectorSparse)) = false) :
    Answers i s is ((s.holderOf f is.id is.c).elim (mmaAlone f kind is s) (mmaWith i f kind is s)) := by
  refine answers_of_legal reaches ?_ present (runs := runs) (issues := issueMma_eq reaches.issuer)
  simpa [inStealable, kept, fits] using named

section Checks

variable {holder : Nat × Ctx}

/-- An `mma` whose tiles form no shape takes `TILE_SHAPE` (R253, R255). -/
theorem mmaWith_of_noShape (bad : mmaShape f kind is holder = false) :
    mmaWith i f kind is s holder = .trap s (Trap.of .tileShape) :=
  if_pos (by simp [bad])

variable (shape : mmaShape f kind is holder = true)
include shape

theorem mmaWith_of_shape : mmaWith i f kind is s holder =
    if f.gang && s.gangBroken is.c then .trap s (Trap.of .gangMismatch)
    else if s.matrixWaits is.id (mmaOp f kind is holder) then .wait s .retry
    else if f.gang then .wait (arrive i is (mmaOp f kind is holder) s) .latch
    else .commit (s.commitMatrix (is.op s (.matrix (mmaOp f kind is holder)))
      { mmaOp f kind is holder with
        members := [is.c.member is.id is.sp.mask is.c.special.fpctl (mmaOp f kind is holder).fa] }) :=
  if_neg (by simp [shape])

/-- An `mma` of a gang of which a group has ended takes `GANG_MISMATCH` (R252). -/
theorem mmaWith_of_broken (broken : (f.gang && s.gangBroken is.c) = true) :
    mmaWith i f kind is s holder = .trap s (Trap.of .gangMismatch) :=
  (mmaWith_of_shape shape).trans (if_pos broken)

variable (whole : (f.gang && s.gangBroken is.c) = false)
include whole

/-- An `mma` waits for room (R254, R203). -/
theorem mmaWith_of_full (full : s.matrixWaits is.id (mmaOp f kind is holder) = true) :
    mmaWith i f kind is s holder = .wait s .retry :=
  (mmaWith_of_shape shape).trans ((if_of_false whole).trans (if_pos full))

variable (room : s.matrixWaits is.id (mmaOp f kind is holder) = false)
include room

/-- A ganged `mma` waits at the latch (R252). -/
theorem mmaWith_of_gang (gang : f.gang = true) :
    mmaWith i f kind is s holder = .wait (arrive i is (mmaOp f kind is holder) s) .latch :=
  (mmaWith_of_shape shape).trans ((if_of_false whole).trans ((if_of_false room).trans (if_pos gang)))

/-- An `mma` of no gang commits (R254). -/
theorem mmaWith_of_alone (alone : f.gang = false) : mmaWith i f kind is s holder =
    .commit (s.commitMatrix (is.op s (.matrix (mmaOp f kind is holder)))
      { mmaOp f kind is holder with
        members := [is.c.member is.id is.sp.mask is.c.special.fpctl (mmaOp f kind is holder).fa] }) :=
  (mmaWith_of_shape shape).trans ((if_of_false whole).trans ((if_of_false room).trans (if_of_false alone)))

end Checks

/-! ## `mma` alone (R253 to R255) -/

section Plain

variable (kept : is.c.node.steal = false) (alone : f.gang = false)
include alone

/-- An `mma` of no gang reads its own B tile, as its form says. -/
theorem mmaForm_of_alone : mmaForm f kind s is = formMma f (kind != 1) := by simp [mmaForm, holdsB, alone]

theorem holderOf_of_alone : s.holderOf f is.id is.c = some (is.id, is.c) := by simp [State.holderOf, alone]

include kept

theorem answers_of_plain (runs : exec i s = issueMma i f kind s) (reaches : Reaches (formMma f (kind != 1)) f.h.bytes [] s is)
    (fits : badWide is (is.c.tile f.h.src1.toNat).fmt (is.c.tile f.h.src2.toNat).fmt f.h.dst.toNat = false)
    (present : ((kind == 2 && s.vectorSparse) || (kind == 3 && !s.vectorSparse)) = false) :
    Answers i s is (mmaWith i f kind is s (is.id, is.c)) := by
  have holder : s.holderOf f is.id is.c = some (is.id, is.c) := holderOf_of_alone alone
  have := answers_of_mma runs ((mmaForm_of_alone alone).symm ▸ reaches) kept (fun gang => by simp [alone] at gang)
    (by rwa [formatB_of_some holder]) present
  rwa [holder] at this

/-- The sparse form that a part lacks takes `UNIT_ABSENT` (R255, R267). -/
theorem traps_of_absent (runs : exec i s = issueMma i f kind s) (reaches : Reaches (formMma f (kind != 1)) f.h.bytes [] s is)
    (fits : badWide is (is.c.tile f.h.src1.toNat).fmt (is.c.tile f.h.src2.toNat).fmt f.h.dst.toNat = false)
    (absent : ((kind == 2 && s.vectorSparse) || (kind == 3 && !s.vectorSparse)) = true) :
    Traps i s is s (Trap.of .unitAbsent) := by
  have holder : s.holderOf f is.id is.c = some (is.id, is.c) := holderOf_of_alone alone
  rw [← mmaForm_of_alone (s := s) (is := is) alone] at reaches
  refine (runs.trans (issueMma_eq reaches.issuer)).trans (issueOn_absent reaches ?_ absent)
  simp [inStealable, kept, alone, formatB_of_some holder, fits]

end Plain

end Mma

/-- Settles O30: an `mma` of no gang answers by its own tiles, and `mmas` once its checks have passed. -/
theorem matrixOperationsCommit : Obligations.MatrixOperationsCommit := by
  intro f s is kept own member plain
  have forms {i : Instr} {kind : Nat} (runs : exec i s = issueMma i f kind s)
      (present : ((kind == 2 && s.vectorSparse) || (kind == 3 && !s.vectorSparse)) = false) : plain i kind := by
    intro reaches alone fits shape
    have answers := answers_of_plain kept alone runs reaches fits present
    have whole : (f.gang && s.gangBroken is.c) = false := by rw [alone]; rfl
    refine ⟨fun bad => ?_, fun good full => ?_, fun good room => ?_⟩
    · exact traps_of_answers (answers.congr (mmaWith_of_noShape bad))
    · exact asks_of_answers (answers.congr (mmaWith_of_full good whole full))
    · exact completes_of_answers (answers.congr (mmaWith_of_alone good whole room alone))
  refine ⟨forms rfl rfl, fun block => forms rfl (by simp [block]), fun vector => forms rfl (by simp [vector]),
    fun vector reaches alone fits => ?_, fun reaches fits pos small ring bars pair r b found => ?_⟩
  · exact traps_of_absent (kind := 2) kept alone rfl reaches fits (by simp [vector])
  · have answers := answers_of_mmas reaches kept ⟨fits, rfl, pos, small, ring, bars, pair, found⟩
    exact ⟨fun full => asks_of_answers (answers.congr (if_pos full)),
      fun room => completes_of_answers (answers.congr (if_of_false room))⟩

end Sys2Proof.MatrixUnit
end

section
/-! Gangs and the latch (family 17): `gang` names its groups, ganged forms wait, and a gang that is all there commits (R251, R252). -/

namespace Sys2Proof.MatrixUnit

open Machine Laws Claims Control

variable {s : State} {is : Issue} {f : XT} {kind : Nat} {i : Instr}

/-! ## `gang` (R251) -/

/-- A gang that `gang` may name: two to six groups of the team on the issuing core, the issuing one among them (R251). -/
def MayName (s : State) (c : Ctx) (w : Word) : Prop :=
  2 ≤ (gangGroups w).length ∧ (gangGroups w).length ≤ 6 ∧ c.group ∈ gangGroups w
    ∧ ∀ g ∈ gangGroups w, ∃ e, s.groupOf c.team g = some e ∧ s.ownCore e.2 = s.ownCore c

/-- The check of `gang`. -/
def gangOk (s : State) (c : Ctx) (w : Word) : Bool :=
  w == 0 || (decide (2 ≤ (gangGroups w).length ∧ (gangGroups w).length ≤ 6) && (gangGroups w).contains c.group
    && (gangGroups w).all fun g => ((s.groupOf c.team g).map fun e => s.ownCore e.2 == s.ownCore c).getD false)

theorem gangOk_iff {c : Ctx} {w : Word} : gangOk s c w = true ↔ w = 0 ∨ MayName s c w := by
  have here (g : Nat) : ((s.groupOf c.team g).map fun e => s.ownCore e.2 == s.ownCore c).getD false = true ↔
      ∃ e, s.groupOf c.team g = some e ∧ s.ownCore e.2 = s.ownCore c := by
    cases s.groupOf c.team g <;> simp
  simp only [gangOk, MayName, Bool.or_eq_true, Bool.and_eq_true, beq_iff_eq, decide_eq_true_eq, List.contains_iff_mem,
    List.all_eq_true, here, and_assoc]

/-! ## Ganged forms (R252) -/

section Ganged

variable (gang : f.gang = true)
include gang

theorem holderOf_of_gang : s.holderOf f is.id is.c = s.gangLeader is.c := if_pos gang

theorem mmaForm_of_gang : mmaForm f kind s is =
    if (s.gangLeader is.c).map Prod.fst = some is.id then formMma f (kind != 1)
    else (formMma f (kind != 1)).withSrc2 .t .none := by
  simp only [mmaForm, holdsB, holderOf_of_gang gang, gang, Bool.not_true, Bool.false_or, beq_iff_eq]

end Ganged

/-- The forms of `mma` that a part has (R255, R267). -/
theorem form_present (form : (kind, i) ∈ [(1, Instr.mma f), (if s.vectorSparse then (3, .mmaVs f) else (2, .mmaBs f))]) :
    exec i s = issueMma i f kind s ∧ ((kind == 2 && s.vectorSparse) || (kind == 3 && !s.vectorSparse)) = false := by
  simp only [List.mem_cons, List.not_mem_nil, or_false] at form
  rcases form with dense | sparse
  · obtain ⟨rfl, rfl⟩ := Prod.mk.inj dense
    exact ⟨rfl, rfl⟩
  · cases vector : s.vectorSparse
    all_goals
      rw [vector] at sparse
      obtain ⟨rfl, rfl⟩ := Prod.mk.inj sparse
      exact ⟨rfl, rfl⟩

/-! ## The latch (R252) -/

/-- The arrivals of a gang are alike (R252). -/
theorem differ_eq_false_iff {all : List Arrival} {a : Arrival} :
    (all.any fun b => b.words != a.words || b.gang != a.gang) = false ↔ ∀ b ∈ all, b.words = a.words ∧ b.gang = a.gang := by
  simp

section Latch

variable {n : Nat} {c : Ctx} {a : Arrival} {found : List (Option Arrival)} (look : s.ctxs.look n = some c)
  (arrived : s.arrivalOf c.core c.team c.group = some a)
  (found_eq : (gangGroups a.gang).map (fun g => s.arrivalOf c.core c.team g) = found)
  (present : ∀ x ∈ found, x.isSome = true)
  (ready : ∀ b ∈ found.filterMap id, s.arrivalWaits b = false)
include look arrived found_eq present ready

/-- A gang that is all there, with its tiles and room for its operation, commits, or its members take their causes. -/
theorem latchFire_of_present : exec (.latchFire n) s = .next (
    if (found.filterMap id).any fun b => b.words != a.words || b.gang != a.gang then
      s.failLatch c.core (found.filterMap id) .gangMismatch
    else if (found.filterMap id).filter (fun b => !s.arrivalOk b) = [] then
      s.fireGang c.core ((found.filterMap id).headD a) (found.filterMap id)
    else s.failLatch c.core ((found.filterMap id).filter fun b => !s.arrivalOk b) .tileShape) := by
  subst found_eq
  have complete : ((gangGroups a.gang).map fun g => s.arrivalOf c.core c.team g).any Option.isNone = false :=
    List.any_eq_false.2 fun x mem => by simpa [Option.isSome_iff_ne_none] using present x mem
  have waits : (((gangGroups a.gang).map fun g => s.arrivalOf c.core c.team g).filterMap id).any s.arrivalWaits = false :=
    List.any_eq_false.2 fun b mem => by simp [ready b mem]
  unfold exec execLatchFire
  simp only [look, arrived, complete, waits, Bool.or_self, Bool.false_eq_true, if_false]
  split
  · rfl
  · cases (((gangGroups a.gang).map fun g => s.arrivalOf c.core c.team g).filterMap id).filter fun b => !s.arrivalOk b <;> rfl

end Latch

/-- Settles O31: `gang` by its check, a ganged form by its leader's tile and its gang, and the latch by what its arrivals ask for. -/
theorem gangsCommitTogether : Obligations.GangsCommitTogether := by
  refine ⟨fun f s is kept reaches => ?_, fun f s is kind i form kept gang some_ => ?_,
    fun s n c a look arrived => fun present ready => ?_⟩
  · refine ⟨fun may => ?_, fun gang bad => ?_⟩
    · exact completes_of_answers (answers_of_legal (meaning := execGang f) reaches kept rfl
        (part := if_not_of_true (gangOk_iff.2 may)))
    · exact traps_of_answers (answers_of_legal (meaning := execGang f) reaches kept rfl
        (part := if_not_of_false (Bool.eq_false_iff.2 fun ok => (gangOk_iff.1 ok).elim gang bad)))
  · have leader := holderOf_of_gang (s := s) (is := is) gang
    obtain ⟨runs, present⟩ := form_present form
    dsimp only
    intro reaches
    have reached : Reaches (mmaForm f kind s is) f.h.bytes [] s is := (mmaForm_of_gang gang).symm ▸ reaches
    refine ⟨fun ended fits => ?_, fun l leads fits => ⟨fun bad => ?_, fun good broken => ?_, fun good whole =>
      ⟨fun full => ?_, fun room => ?_⟩⟩⟩
    · have answers := answers_of_mma runs reached kept (fun _ => some_)
        (by rwa [formatB_of_none (leader.trans ended)]) present
      rw [leader, ended] at answers
      refine traps_of_answers (answers.congr ?_)
      dsimp only [Option.elim, mmaAlone]
      split <;> rfl
    all_goals
      have answers := answers_of_mma runs reached kept (fun _ => some_)
        (by rwa [formatB_of_some (leader.trans leads)]) present
      rw [leader, leads] at answers
    · exact traps_of_answers (answers.congr (mmaWith_of_noShape bad))
    · exact traps_of_answers (answers.congr (mmaWith_of_broken good (by rw [gang, broken]; rfl)))
    · exact asks_of_answers (answers.congr (mmaWith_of_full good (by rw [gang, whole]; rfl) full))
    · exact asks_of_answers (answers.congr (mmaWith_of_gang good (by rw [gang, whole]; rfl) room gang))
  · have fired := latchFire_of_present look arrived rfl present ready
    refine ⟨fun differ => ?_, fun alike bad => ?_, fun alike bad => ?_⟩
    · rw [fired, if_pos (eq_true_of_ne_false (differ ∘ differ_eq_false_iff.1))]
    · rw [fired, if_of_false (differ_eq_false_iff.2 alike), if_pos bad]
    · rw [fired, if_of_false (differ_eq_false_iff.2 alike), if_neg bad]
end Sys2Proof.MatrixUnit
end

section
/-! Tiles and accumulator blocks at issue (family 17): the moves, the zeroing, and the checks before them (R244 to R247, R263 to
R265). -/

namespace Sys2Proof.MatrixUnit

open Machine Laws Claims Control

variable {s : State} {is : Issue} {f : XT}

/-! ## Tile moves (R244 to R246) -/

/-- `tcb` comes to its own part once the sixteen lanes that it reads are in the split and full (R245). -/
theorem answers_of_tcb (reaches : Reaches (((formTcb f).withDst .t .none).withSrc1 .v1 .none) f.h.bytes [] s is)
    (kept : is.c.node.steal = false) (lanes : 0xFFFF#64 &&& ~~~is.sp.mask = 0)
    (full : ∀ k ∈ locsOf false f.h.src1.toNat 1 0xFFFF#64, is.c.fills.look k = none) :
    Answers (.tcb f) s is (Encoding.tcbPart f is s) := by
  have sources := sourcesState_full is.c [(kindBit f.h.empty 1, locsOf false f.h.src1.toNat 1 0xFFFF#64)]
    (by simpa using full)
  refine answers_of_legal reaches ?_ rfl (issues := Encoding.exec_tcb f s) (part := ?_)
  · simp [inStealable, kept, lanes]
  · simp only [Encoding.sourcesGate, sources]

/-- Settles O29: each of them does its own part once its checks have passed, in their order. -/
theorem tilesAreMoved : Obligations.TilesAreMoved := by
  intro f s is kept d control shape written tcb
  refine ⟨fun reaches => ⟨fun bad => ?_, fun good busy => ?_, fun good free => ?_⟩, fun reaches => ?_,
    fun reaches lanes free full => ?_, fun reaches => ⟨fun bad => ?_, fun good free => ?_⟩,
    fun reaches => ⟨fun bad => ?_, fun good => ?_⟩⟩
  · exact traps_of_answers (answers_of_legal (meaning := execTset f) reaches kept rfl (part := if_pos bad))
  · exact asks_of_answers (answers_of_legal (meaning := execTset f) reaches kept rfl
      (part := (if_of_false good).trans (if_pos busy)))
  · exact completes_of_answers (answers_of_legal (meaning := execTset f) reaches kept rfl
      (part := (if_of_false good).trans (if_of_false free)))
  · exact completes_of_answers (answers_of_legal (meaning := execTget f) reaches kept rfl)
  · exact completes_of_answers ((answers_of_tcb reaches kept lanes full).congr (if_of_false free))
  · exact traps_of_answers (answers_of_legal (meaning := execTst f) reaches kept rfl (part := if_pos bad))
  · exact completes_of_answers (answers_of_legal (meaning := execTst f) reaches kept rfl
      (part := (if_of_false good).trans (if_of_false free)))
  · exact traps_of_answers (answers_of_legal (meaning := execTld f) reaches kept rfl (part := if_pos bad))
  · exact completes_of_answers (answers_of_legal (meaning := execTld f) reaches kept rfl (part := if_of_false good))

/-! ## Zeroing (R247, R265) -/

/-- An instruction that has written its own context leaves it there, with the tiles and the accumulator blocks that were written. -/
theorem look_of_answers_setCtx {i : Instr} {d : Ctx} (answers : Answers i s is (.done (s.setCtx is.id d))) :
    ∃ t c, exec i s = .next t ∧ t.ctxs.look is.id = some c ∧ c.tile = d.tile ∧ c.acc = d.acc :=
  ⟨_, _, answers, (Numbers.finish_setCtx s is.id is.i is.next d).1, rfl, rfl⟩

/-- The blocks that `acczero` names (R265). -/
theorem mem_namedBlocks {w : DWord} {b : Nat} :
    b ∈ (List.range 32).filter (fun b => w.getLsbD b) ↔ b < 32 ∧ w.getLsbD b = true := by
  rw [List.mem_filter, List.mem_range]

theorem acc_foldl_setAcc_fresh (bs : List Nat) (c : Ctx) (b : Nat) :
    (bs.foldl (fun c b => c.setAcc b AccBlock.fresh) c).acc b = if b ∈ bs then AccBlock.fresh else c.acc b := by
  induction bs generalizing c with
  | nil => rfl
  | cons x xs ih =>
    rw [List.foldl_cons, ih, acc_setAcc]
    by_cases later : b ∈ xs
    · simp [later]
    · simp [later]

/-- Settles O59: a zeroed tile keeps its control register and codebook, and a zeroed block is that of a placement. -/
theorem tilesAndBlocksAreZeroed : Obligations.TilesAndBlocksAreZeroed := by
  intro f s is kept
  refine ⟨fun reaches free => ?_, fun reaches => ⟨fun beyond => ?_, fun held free => ?_⟩⟩
  · obtain ⟨t, c, runs, look, tiles, -⟩ := look_of_answers_setCtx
      (answers_of_legal (meaning := execTzero f) (i := .tzero f) reaches kept rfl (part := if_of_false free))
    refine ⟨t, c, runs, look, ?_⟩
    rw [tiles]
    refine ⟨fun i _ => ?_, ?_, ?_, fun n other => ?_⟩
    · rw [tile_setTile, if_pos rfl, at_nil]
    · rw [tile_setTile, if_pos rfl]
    · rw [tile_setTile, if_pos rfl]
    · rw [tile_setTile, if_neg other]
  · obtain ⟨b, named, outside⟩ := beyond
    exact traps_of_answers (answers_of_legal (meaning := execAcczero f) reaches kept rfl
      (part := if_pos (List.any_eq_true.2 ⟨b, mem_namedBlocks.2 named, decide_eq_true outside⟩)))
  · have inside : ((List.range 32).filter fun b => ((formSrcS f).arg is.c 1 0).getLsbD b).any
        (fun b => decide (is.c.node.accs ≤ b)) = false :=
      List.any_eq_false.2 fun b mem => by simpa using held b (mem_namedBlocks.1 mem)
    have idle : ((List.range 32).filter fun b => ((formSrcS f).arg is.c 1 0).getLsbD b).any
        (fun b => s.blockTargeted is.id b || s.blockRead is.id b) = false :=
      List.any_eq_false.2 fun b mem => by simpa using free b (mem_namedBlocks.1 mem)
    obtain ⟨t, c, runs, look, -, blocks⟩ := look_of_answers_setCtx
      (answers_of_legal (meaning := execAcczero f) (i := .acczero f) reaches kept rfl
        (part := (if_of_false inside).trans (if_of_false idle)))
    refine ⟨t, c, runs, look, fun b named => ?_, fun b unnamed => ?_⟩
    · rw [blocks, acc_foldl_setAcc_fresh, if_pos (mem_namedBlocks.2 named)]
      exact ⟨fun _ _ => rfl, rfl⟩
    · rw [blocks, acc_foldl_setAcc_fresh, if_neg (unnamed ∘ mem_namedBlocks.1)]

/-! ## Accumulator moves (R263 to R265) -/

/-- Settles O34: each move does its own part once its checks have passed, in their order. -/
theorem accumulatorsAreMoved : Obligations.AccumulatorsAreMoved := by
  intro f s is kept blocks lanes per parts first produced targeted used
  have legal {wide : Bool} (inside : (if wide then f.block + 1 else f.block) < is.c.node.accs) :
      badBlock f wide is s = false := by
    simp [badBlock, inStealable, kept, inside]
  refine ⟨fun inside => ⟨fun reaches good free => ⟨fun poisoned => ?_, fun clean => ?_⟩, fun reaches good free => ?_⟩,
    fun inside reaches => fun good free => ⟨fun poisoned => ?_, fun clean => ?_⟩⟩
  · exact traps_of_answers (answers_of_legal (meaning := execAccld f) reaches (legal inside) rfl
      (part := (if_of_false good).trans ((if_of_false free).trans (if_not_of_false (List.isEmpty_eq_false_iff.2 poisoned)))))
  · exact completes_of_answers (answers_of_legal (meaning := execAccld f) reaches (legal inside) rfl
      (part := (if_of_false good).trans ((if_of_false free).trans (if_not_of_true (List.isEmpty_iff.2 clean)))))
  · exact completes_of_answers (answers_of_legal (meaning := execAccst f) reaches (legal inside) rfl
      (part := (if_of_false good).trans (if_of_false free)))
  · exact traps_of_answers (answers_of_legal (meaning := execAcccvt f) reaches (legal (wide := false) inside) rfl
      (part := (if_of_false good).trans ((if_of_false free).trans (if_not_of_false (List.isEmpty_eq_false_iff.2 poisoned)))))
  · exact completes_of_answers (answers_of_legal (meaning := execAcccvt f) reaches (legal (wide := false) inside) rfl
      (part := (if_of_false good).trans ((if_of_false free).trans (if_not_of_true (List.isEmpty_iff.2 clean)))))

end Sys2Proof.MatrixUnit
end

section
/-! Batches (family 17): `mbatch` and `mwait`, the numbers of batches, and what a split parked at its `mwait` does (R258, R259). -/

namespace Sys2Proof.MatrixUnit

open Machine Laws Claims Control

variable {s : State} {is : Issue} {f : XT}

/-! ## The numbers of batches (R258) -/

/-- Among any 65,535 consecutive batches programs see each number once: the one that a number names is the latest closed. -/
theorem batchNamed_shown {last b : Nat} (pos : 0 < b) (small : b < 65536) :
    (batchNamed last b ≠ 0 → batchShown (batchNamed last b) = b) ∧ batchNamed last b ≤ last
      ∧ last < batchNamed last b + 65535 := by
  unfold batchNamed
  have before : (batchShown last + 65535 - b) % 65535 < 65535 := Nat.mod_lt _ (by decide)
  refine ⟨fun closed => ?_, Nat.sub_le _ _, by omega⟩
  unfold batchShown at *
  split at closed <;> split <;> omega

/-! ## `mwait` (R259) -/

theorem crossEdge_ctxs (s : State) (id : Nat) : (s.crossEdge id).ctxs = s.ctxs := by
  unfold State.crossEdge
  split <;> rfl

/-- A split that returns from its `mwait` goes on behind it. -/
theorem batchReturn_look {id i n : Nat} {next : DWord} {c : Ctx} {sp : Split} (look : s.ctxs.look id = some c)
    (split : c.splits.look i = some sp) :
    ∃ d, (s.batchReturn id i n next).ctxs.look id = some d
      ∧ d.splits.look i = some { sp with wait := .ready, pc := next } := by
  have returned : (s.batchReturn id i n next).ctxs.look id =
      (((s.ctxs.look id).map fun c => c.postBatches n).map fun c =>
        { c with splits := c.splits.modify i fun sp => { sp with wait := .ready, pc := next } }).map fun c => c.count 2 0 1 := by
    simp only [State.batchReturn, State.issued, State.countEvent, State.modSplit, modCtx_look, crossEdge_ctxs, if_true]
  rw [look] at returned
  exact ⟨_, returned, (look_modify ..).trans ((if_pos rfl).trans (congrArg (Option.map _) split))⟩

section Settle

variable {id i n : Nat} {next : DWord} {c : Ctx} {sp : Split} (look : s.ctxs.look id = some c)
  (split : c.splits.look i = some sp) (wait : sp.wait = .batch n next)
include look split wait

/-- A split parked for a batch returns when the operations up to it are over. -/
theorem settleSplit_of_batch :
    s.settleSplit id i = if s.batchDone id n then s.batchReturn id i n next else s := by
  simp only [State.settleSplit, look, split, Option.map_some, wait]

end Settle

/-- The check of `mwait`: its operand has 16 bits and lies in the window of the last 32,768 batches (R259). -/
theorem mwait_window {last b : Nat} :
    (decide (65536 ≤ b) || decide (32768 ≤ (last + 65536 - b) % 65536)) = false ↔
      b < 65536 ∧ (last + 65536 - b) % 65536 < 32768 := by
  simp

/-- Settles O33: `mbatch` counts, `mwait` answers by its window and its batch, and a parked split returns when its batch is over. -/
theorem batchesAreAwaited : Obligations.BatchesAreAwaited := by
  refine ⟨fun f s is kept => ⟨fun reaches => ?_,
      fun reaches => ⟨fun outside => ?_, fun named ended => ?_, fun named parks => ?_⟩⟩,
    fun s id i n next c sp look split wait => ⟨fun parks => ?_, fun ended => ⟨?_, batchReturn_look look split⟩⟩,
    fun last b pos small => batchNamed_shown pos small⟩
  · exact completes_of_answers (answers_of_legal (meaning := execMbatch f) reaches kept rfl)
  · exact traps_of_answers (answers_of_legal (meaning := execMwait f) reaches kept rfl
      (part := if_pos (eq_true_of_ne_false (outside ∘ mwait_window.1))))
  · exact completes_of_answers (answers_of_legal (meaning := execMwait f) reaches kept rfl
      (part := (if_of_false (mwait_window.2 named)).trans (if_pos ended)))
  · exact asks_of_answers (answers_of_legal (meaning := execMwait f) reaches kept rfl
      (part := (if_of_false (mwait_window.2 named)).trans (if_of_false parks)))
  · rw [settleSplit_of_batch look split wait, if_of_false parks]
  · rw [settleSplit_of_batch look split wait, if_pos ended]

end Sys2Proof.MatrixUnit
end

section
/-! Accumulator elements (family 17): what writing one leaves of the others, and what a stretch of k adds to a block (R249, R253). -/

namespace Sys2Proof.MatrixUnit

open Machine Laws

variable {c d : Ctx} {wide : Bool} {acc : Nat}

/-! ## Elements (R249) -/

/-- The bits of an element (R249). -/
def accBits (wide : Bool) : Nat := if wide then 64 else 32

theorem accElement_lt (row col : Nat) : c.accElement wide acc row col < 2 ^ accBits wide := by
  unfold Ctx.accElement accBits
  cases wide
  · exact BitVec.isLt _
  · have low := ((c.acc (accPlace true acc row col).1).data.at 0 (accPlace true acc row col).2.1).isLt
    have high := ((c.acc (accPlace true acc row col).1).data.at 0 ((accPlace true acc row col).2.1 + 1)).isLt
    simp only [if_true]
    omega

/-- An element is determined by the words of the blocks, whatever their poison. -/
theorem accElement_congr (same : ∀ n, (d.acc n).data = (c.acc n).data) (row col : Nat) :
    d.accElement wide acc row col = c.accElement wide acc row col := by
  simp only [Ctx.accElement, same]

/-- Rows marked poisoned, or cleared, keep their words. -/
theorem data_setRowPoison (row : Nat) (bad : Bool) (n : Nat) :
    ((c.setRowPoison wide acc row bad).acc n).data = (c.acc n).data := by
  rw [Ctx.setRowPoison, acc_setAcc]
  split
  · subst n
    rfl
  · rfl

theorem data_foldl_setRowPoison (rows : List Nat) (bad : Bool) (n : Nat) :
    ((rows.foldl (fun c r => c.setRowPoison wide acc r bad) c).acc n).data = (c.acc n).data := by
  induction rows generalizing c with
  | nil => rfl
  | cons r rs ih => exact ih.trans (data_setRowPoison r bad n)

/-- A written element reads back modulo its size, and the other elements of the result stay. -/
theorem accElement_setAccElement {row col : Nat} (x : Nat) (small : col < 32) {r k : Nat} (hk : k < 32) :
    (c.setAccElement wide acc row col x).accElement wide acc r k =
      if r = row ∧ k = col then x % 2 ^ accBits wide else c.accElement wide acc r k := by
  cases wide
  · simp only [Ctx.setAccElement, Ctx.accElement, accPlace, accBits, acc_setAcc, if_true, Bool.false_eq_true, if_false, at_put]
    by_cases here : r = row ∧ k = col
    · obtain ⟨rfl, rfl⟩ := here
      simp
    · rw [if_neg here, if_neg (by omega)]
  · simp only [Ctx.setAccElement, Ctx.accElement, accPlace, accBits, acc_setAcc, if_true]
    by_cases block : acc + r / 16 = acc + row / 16
    · by_cases here : r = row ∧ k = col
      · obtain ⟨rfl, rfl⟩ := here
        simp [at_put]
        omega
      · have apart : 64 * (r % 16) + 2 * k ≠ 64 * (row % 16) + 2 * col := by omega
        simp only [block, if_true, at_put]
        rw [if_neg here, if_neg (by omega), if_neg (by omega), if_neg (by omega), if_neg (by omega)]
    · have other : ¬ (r = row ∧ k = col) := by
        rintro ⟨rfl, -⟩
        exact block rfl
      rw [if_neg block, if_neg other]

/-! ## A stretch (R253) -/

/-- What a stretch makes of an element that a context holds. -/
def stretched (a : Stretch) (c : Ctx) (acc row col : Nat) : Nat :=
  (a.operands.element a.fmt a.g row col (if a.zero then 0 else c.accElement (a.fmt == .fp64) acc row col)).1

/-- One element of a row of a stretch: the row so far, and its flags. -/
def addElement (acc : Nat) (a : Stretch) (row : Nat) (w : Ctx × Flags) (n : Nat) : Ctx × Flags :=
  let x := a.operands.element a.fmt a.g row n (if a.zero then 0 else w.1.accElement (a.fmt == .fp64) acc row n)
  (w.1.setAccElement (a.fmt == .fp64) acc row n x.1, w.2 ||| x.2)

theorem accumulateRow_eq (a : Stretch) (row : Nat) :
    c.accumulateRow acc a row = (List.range a.cols).foldl (addElement acc a row) (c, 0) := rfl

/-- The first n elements of a row are each made anew from what they were, and the other elements stay. -/
theorem accElement_addElements {a : Stretch} {row n : Nat} (narrow : n ≤ 32) {r k : Nat} (hk : k < 32) :
    ((List.range n).foldl (addElement acc a row) (c, 0)).1.accElement (a.fmt == .fp64) acc r k =
      if r = row ∧ k < n then stretched a c acc r k % 2 ^ accBits (a.fmt == .fp64)
      else c.accElement (a.fmt == .fp64) acc r k := by
  induction n generalizing r k with
  | zero => exact (if_neg fun h => Nat.not_lt_zero _ h.2).symm
  | succ n ih =>
    have before := @ih (by omega)
    rw [List.range_succ, List.foldl_append, List.foldl_cons, List.foldl_nil]
    generalize (List.range n).foldl (addElement acc a row) (c, 0) = w at before
    have untouched : w.1.accElement (a.fmt == .fp64) acc row n = c.accElement (a.fmt == .fp64) acc row n :=
      (before (by omega)).trans (if_neg fun h => Nat.lt_irrefl _ h.2)
    dsimp only [addElement]
    rw [accElement_setAccElement _ (by omega) hk, untouched]
    by_cases here : r = row ∧ k = n
    · rw [if_pos here]
      obtain ⟨rfl, rfl⟩ := here
      exact (if_pos ⟨rfl, Nat.lt_succ_self _⟩).symm
    · rw [if_neg here, before hk]
      exact if_congr (by omega) rfl rfl

/-- One row of a stretch: the block so far, and the flags of its rows. -/
def addRow (acc : Nat) (a : Stretch) (base : Nat) (w : Ctx × SMap Flags) (m : Nat) : Ctx × SMap Flags :=
  let x := w.1.accumulateRow acc a m
  (if a.zero && a.cols == 32 then x.1.setRowPoison (a.fmt == .fp64) acc m false else x.1,
    w.2.put 0 (base + m) (w.2.at 0 (base + m) ||| x.2))

theorem accumulate_eq (a : Stretch) (base : Nat) (flags : SMap Flags) :
    c.accumulate acc a base flags = (List.range a.rows).foldl (addRow acc a base) (c, flags) := rfl

theorem accElement_addRow {a : Stretch} (narrow : a.cols ≤ 32) {base m : Nat} (w : Ctx × SMap Flags) {r k : Nat} (hk : k < 32) :
    (addRow acc a base w m).1.accElement (a.fmt == .fp64) acc r k =
      if r = m ∧ k < a.cols then stretched a w.1 acc r k % 2 ^ accBits (a.fmt == .fp64)
      else w.1.accElement (a.fmt == .fp64) acc r k := by
  rw [← accElement_addElements narrow hk, ← accumulateRow_eq, addRow]
  dsimp only
  split
  · exact accElement_congr (data_setRowPoison m false) r k
  · rfl

/-- A stretch makes the elements of its rows and columns anew, each from what it was, and leaves the others. -/
theorem accElement_accumulate {a : Stretch} (narrow : a.cols ≤ 32) {base : Nat} {flags : SMap Flags} {r k : Nat} (hk : k < 32) :
    (c.accumulate acc a base flags).1.accElement (a.fmt == .fp64) acc r k =
      if r < a.rows ∧ k < a.cols then stretched a c acc r k % 2 ^ accBits (a.fmt == .fp64)
      else c.accElement (a.fmt == .fp64) acc r k := by
  rw [accumulate_eq]
  induction a.rows generalizing r k with
  | zero => exact (if_neg fun h => Nat.not_lt_zero _ h.1).symm
  | succ n ih =>
    rw [List.range_succ, List.foldl_append, List.foldl_cons, List.foldl_nil, accElement_addRow narrow _ hk]
    generalize (List.range n).foldl (addRow acc a base) (c, flags) = w at ih
    by_cases here : r = n ∧ k < a.cols
    · obtain ⟨rfl, inside⟩ := here
      have untouched : w.1.accElement (a.fmt == .fp64) acc r k = c.accElement (a.fmt == .fp64) acc r k :=
        (ih hk).trans (if_neg fun h => Nat.lt_irrefl _ h.1)
      rw [if_pos ⟨rfl, inside⟩, if_pos ⟨Nat.lt_succ_self _, inside⟩, stretched, untouched]
      rfl
    · rw [if_neg here, ih hk]
      exact if_congr (by omega) rfl rfl

end Sys2Proof.MatrixUnit
end

section
/-! The matrix engine at work (family 17): its current operation, its stages, and the k-groups that it adds (R253 to R261). -/

namespace Sys2Proof.MatrixUnit

open Machine Laws

variable {s : State} {m : MatOp}

/-! ## What leaves the accumulator blocks -/

/-- A change to some contexts that leaves their accumulator blocks. -/
theorem accs_foldState {α : Type} {l : List α} {who : α → Nat} {change : State → α → Ctx → Ctx}
    (same : ∀ s a c, (change s a c).accs = c.accs) {id : Nat} {c : Ctx} (look : s.ctxs.look id = some c) :
    ∃ d, (foldState l s fun s a => s.modCtx (who a) (change s a)).ctxs.look id = some d ∧ d.accs = c.accs := by
  unfold foldState
  induction l generalizing s c with
  | nil => exact ⟨c, look, rfl⟩
  | cons a l ih =>
    rw [List.foldl_cons]
    by_cases own : id = who a
    · subst own
      have changed : (s.modCtx (who a) (change s a)).ctxs.look (who a) = some (change s a c) := by simp [look]
      obtain ⟨d, found, accs⟩ := ih changed
      exact ⟨d, found, accs.trans (same s a c)⟩
    · exact ih (by simpa [own] using look)

theorem showMatrix_accs (ms : List MatMember) {id : Nat} {c : Ctx} (look : s.ctxs.look id = some c) :
    ∃ d, (s.showMatrix ms).ctxs.look id = some d ∧ d.accs = c.accs :=
  accs_foldState (change := fun s (b : MatMember) c => { c with special := { c.special with mprog := s.matProgress b.ctx } })
    (fun _ _ _ => rfl) look

/-- The end of an operation leaves the accumulator blocks. -/
theorem endMatrix_accs (n : Nat) {id : Nat} {c : Ctx} (look : s.ctxs.look id = some c) :
    ∃ d, (s.endMatrix n m).ctxs.look id = some d ∧ d.accs = c.accs := by
  obtain ⟨d, found, accs⟩ := accs_foldState (l := m.members.zipIdx) (who := fun b => b.1.ctx)
    (change := fun _ b c => c.batchFlags b.1.batch (c.cleanFlags m.wide m.acc (32 * b.2) m.flags)) (fun _ _ _ => rfl) look
  obtain ⟨e, shown, kept⟩ := showMatrix_accs m.members (s := State.endOp _ n) found
  exact ⟨e, shown, kept.trans accs⟩

/-! ## The current operation and its stages (R254, R257) -/

section Current

variable {core n : Nat} {o : Op} (current : s.matCurrent core = some (n, o, m))
include current

theorem matrixOpComplete_eq : exec (.matrixOpComplete core) s = .next (
    if m.kind ≠ 4 then s.matWork core n m else if m.done < m.stages then s else s.endMatrix n m) := by
  unfold exec
  simp only [execMatrixOpComplete, current, bne_iff_ne]
  split
  · rfl
  · split <;> rfl

/-- The next stage of the current operation, a streaming one (R257). -/
theorem mmasStage_eq (streaming : m.kind = 4) (unread : m.done < m.stages) (inFlight : s.ops.look n = some o) (here : o.core = core) :
    let range : Range :=
      { core := core, op := n, scratch := true, owner := core, lo := m.slotAt, hi := m.slotAt + 4096, write := false }
    exec (.mmasStage n) s = .next (
      if s.readsStage n then s.consumeStage n o m
      else if (s.tbar core m.fullBar).overrun then (s.poisonRows o.ctx m (List.range 32)).endMatrix n m
      else if (s.tbar core m.fullBar).phase = m.awaitedPhase || s.rangesBlocked core [range] then s
      else s.lockStage n o m range) := by
  subst here
  unfold exec
  simp only [execMmasStage, inFlight, Option.bind_some, current, streaming, bne_self_eq_false, Bool.or_self, Bool.false_or,
    decide_eq_true_eq, Nat.not_le.2 unread, if_false]
  split
  · rfl
  · split
    · rfl
    · split <;> rfl

end Current

/-! ## The k-groups (R86, R253, R255, R261) -/

theorem present_kind (m : MatOp) : m.present.kind = m.kind := by
  unfold MatOp.present
  split <;> rfl

theorem pairOf_pos {fa fb g : Nat} {fmt : AccFmt} (pair : pairOf fa fb = some (fmt, g)) : 0 < g := by
  unfold pairOf at pair
  split_ifs at pair <;> cases pair <;> decide

/-- Once all its k-groups are added nothing is left of a stretch (R86, R261). -/
theorem piece_k_of_groups_le {a : Stretch} (pos : 0 < a.g) {start count : Nat} (none_ : a.groups ≤ start) :
    (a.piece start count).operands.k = 0 := by
  have whole : a.operands.k + a.g - 1 ≤ a.g * start + (a.g - 1) := (Nat.div_le_iff_le_mul_add_pred pos).1 none_
  have passed : a.operands.k ≤ start * a.g := by
    rw [Nat.mul_comm start]
    omega
  exact (congrArg (Nat.min _) (Nat.sub_eq_zero_of_le passed)).trans (Nat.min_zero _)

/-- No k leave an element as it was. -/
theorem element_of_empty {a : Operands} (empty : a.k = 0) {f : AccFmt} {g row col old : Nat}
    (small : old < 2 ^ accBits (f == .fp64)) : (a.element f g row col old).1 = old := by
  have none_ {α : Type} (h : Nat → α) : tabulate a.k h = [] := by
    rw [empty]
    rfl
  cases f with
  | s32 =>
    simp only [Operands.element, none_, List.map_nil, ksumInt, List.filterMap_nil, List.foldl_nil]
    have : old < 2 ^ 32 := small
    omega
  | fp32 | fp64 =>
    simp only [Operands.element, none_, List.map_nil]
    rfl

/-- A stretch of no k leaves the elements that it does not start anew. -/
theorem stretched_of_empty {a : Stretch} (empty : a.operands.k = 0) (old : a.zero = false) {c : Ctx} {acc row col : Nat} :
    stretched a c acc row col = c.accElement (a.fmt == .fp64) acc row col := by
  rw [stretched, old, if_of_false rfl]
  exact element_of_empty empty (accElement_lt row col)

section Groups

variable {core n count : Nat} {o : Op} {x : MatMember} {c : Ctx} {a b t : Tile} {fmt : AccFmt} {g : Nat}

/-- The stretch that an operation's present tiles give in a member (R253). -/
def presentStretch (m : MatOp) (fpctl : Word) (a b t : Tile) (fmt : AccFmt) (g : Nat) : Stretch :=
  { operands :=
      { kind := m.present.kind, fa := a.fmt, fb := b.fmt, dataA := a.data, dataB := b.data, bookA := a.codebook
        bookB := b.codebook, meta_ := t.data, aoff := m.present.aoff, boff := m.present.boff, k := m.present.k
        ftz := bitOf fpctl 3 }
    fmt := fmt, g := g, rows := a.rows, cols := b.rows, zero := m.present.zero }

theorem stretch_eq (pair : pairOf a.fmt b.fmt = some (fmt, g)) (fpctl : Word) :
    m.present.stretch fpctl a b t = some (presentStretch m fpctl a b t fmt g) := by
  rw [MatOp.stretch, pair]
  rfl

/-- What the k-groups that are left of a stretch make of a context, number i of an operation's members (R261). -/
def added (m : MatOp) (a : Stretch) (count i : Nat) (c : Ctx) : Ctx :=
  if m.kstep != 0 && decide (a.groups ≤ m.kstep) then c
  else (c.accumulate m.acc (a.piece m.kstep count) (32 * i) m.flags).1

theorem accElement_added {a : Stretch} (narrow : a.cols ≤ 32) (pos : 0 < a.g) (i : Nat) {row col : Nat} (inside : col < 32) :
    (added m a count i c).accElement (a.fmt == .fp64) m.acc row col =
      if row < a.rows ∧ col < a.cols then
        stretched (a.piece m.kstep count) c m.acc row col % 2 ^ accBits (a.fmt == .fp64)
      else c.accElement (a.fmt == .fp64) m.acc row col := by
  unfold added
  split
  · rename_i finished
    obtain ⟨begun, done⟩ : m.kstep ≠ 0 ∧ a.groups ≤ m.kstep := by simpa using finished
    have kept : stretched (a.piece m.kstep count) c m.acc row col = c.accElement (a.fmt == .fp64) m.acc row col :=
      stretched_of_empty (piece_k_of_groups_le pos done) (by simp [Stretch.piece, begun])
    rw [kept, Nat.mod_eq_of_lt (accElement_lt row col), ite_self]
  · exact accElement_accumulate (a := a.piece m.kstep count) narrow inside

variable (inFlight : s.ops.look n = some o) (kind : o.kind = .matrix m) (look : s.ctxs.look x.ctx = some c)
  (tiles : s.operandTiles core m c = (a, b, t)) (pair : pairOf a.fmt b.fmt = some (fmt, g)) (clean : m.errorRows a b t = [])
include inFlight kind look tiles pair clean

/-- Without errors in the operands the k-groups that are left of a stretch are added, where some are left (R261). -/
theorem addGroups_eq (i : Nat) : s.addGroups core n count (x, i) =
    let whole := presentStretch m x.fpctl a b t fmt g
    if m.kstep != 0 && decide (whole.groups ≤ m.kstep) then s
    else
      let r := c.accumulate m.acc (whole.piece m.kstep count) (32 * i) m.flags
      let u := (s.setCtx x.ctx r.1).modOp n fun o => { o with kind := .matrix { m with flags := r.2 } }
      if m.spoiled then u.poisonRows x.ctx m (List.range 32) else u := by
  unfold State.addGroups
  simp only [inFlight, Option.map_some, kind, look, tiles, stretch_eq pair, clean, List.isEmpty_nil, Bool.true_or, if_true]

/-- What the k-groups that are left make of a member's block, poison apart. -/
theorem addGroups_accs (i : Nat) : ∃ d, (s.addGroups core n count (x, i)).ctxs.look x.ctx = some d ∧
    ∀ k, (d.acc k).data = ((added m (presentStretch m x.fpctl a b t fmt g) count i c).acc k).data := by
  rw [addGroups_eq inFlight kind look tiles pair clean, added]
  dsimp only
  split
  · exact ⟨c, look, fun _ => rfl⟩
  · split
    · exact ⟨_, (modCtx_look ..).trans ((if_pos rfl).trans (congrArg (Option.map _) ((setCtx_look ..).trans (if_pos rfl)))),
        fun k => data_foldl_setRowPoison _ true k⟩
    · exact ⟨_, (setCtx_look ..).trans (if_pos rfl), fun _ => rfl⟩

/-- The same of the whole operation, where it has one member (R252, R261). -/
theorem matAdd_accs (single : m.members = [x]) (some_ : 0 < count) :
    ∃ d, (s.matAdd core n m count).ctxs.look x.ctx = some d ∧
    ∀ k, (d.acc k).data = ((added m (presentStretch m x.fpctl a b t fmt g) count 0 c).acc k).data := by
  obtain ⟨d, found, words⟩ := addGroups_accs (count := count) inFlight kind look tiles pair clean 0
  rw [State.matAdd, if_neg some_.ne', single]
  obtain ⟨e, shown, accs⟩ := showMatrix_accs [x] (s := State.modOp _ n _) found
  exact ⟨e, shown, fun k => (congrArg (fun m : SMap AccBlock => (m.at AccBlock.fresh k).data) accs).trans (words k)⟩

/-- Some k-groups make of each element of the block what their piece of the stretch makes of it, and leave the elements beyond the rows
of A and of B. -/
theorem matAdd_elements (single : m.members = [x]) (some_ : 0 < count) (narrow : b.rows ≤ 32) :
    ∃ d, (s.matAdd core n m count).ctxs.look x.ctx = some d ∧ ∀ row, ∀ col < 32,
      d.accElement (fmt == .fp64) m.acc row col =
        if row < a.rows ∧ col < b.rows then
          stretched ((presentStretch m x.fpctl a b t fmt g).piece m.kstep count) c m.acc row col % 2 ^ accBits (fmt == .fp64)
        else c.accElement (fmt == .fp64) m.acc row col := by
  obtain ⟨d, found, words⟩ := matAdd_accs inFlight kind look tiles pair clean single some_
  exact ⟨d, found, fun row col inside => (accElement_congr words row col).trans
    (accElement_added (a := presentStretch m x.fpctl a b t fmt g) narrow (pairOf_pos pair) 0 inside)⟩

end Groups

/-- A stage that the engine begins to read is locked, and poisons the rows where its barrier's `POISON` is 1 (R257). -/
theorem lockStage_eq (s : State) (n : Nat) (o : Op) (m : MatOp) (range : Range) : s.lockStage n o m range =
    { (if (s.tbar o.core m.fullBar).poison then s.poisonRows o.ctx m (List.range 32) else s) with
      ranges := s.ranges ++ [range] }.modOp n
        fun p => { p with kind := .matrix { m with spoiled := (s.tbar o.core m.fullBar).poison } } := by
  unfold State.lockStage
  cases (s.tbar o.core m.fullBar).poison <;> rfl

/-- The k that a piece of a stretch takes, from the end that the piece reaches (R86). -/
theorem piece_k (start count g k : Nat) :
    Nat.min (start * g + count * g) k - start * g = Nat.min (count * g) (k - start * g) := by
  have : min (start * g + count * g) k - start * g = min (count * g) (k - start * g) := by omega
  exact this

/-- Settles O32: the engine's step by its current operation, the elements by what a piece of a stretch makes of them, and the end by
the contexts that it changes. -/
theorem matrixEngineWorks : Obligations.MatrixEngineWorks := by
  unfold Obligations.MatrixEngineWorks
  refine ⟨fun s core n o m current => ⟨fun tiled => ?_, fun streaming all => ?_, fun streaming unread inFlight here => ?_⟩,
    fun s core n count o m x c a b t f g inFlight kind single look tiles pair clean _ narrow some_ => ?_,
    fun s n id m c look => endMatrix_accs n look⟩
  · rw [matrixOpComplete_eq current, if_pos tiled]
    rfl
  · rw [matrixOpComplete_eq current, if_neg (not_not.2 streaming), if_neg (Nat.not_lt.2 all)]
  · have stage := mmasStage_eq current streaming unread inFlight here
    refine ⟨fun locked => ?_, fun unlocked overrun => ?_, fun unlocked going moved free => ?_⟩
    · exact stage.trans (congrArg _ (if_pos locked))
    · exact stage.trans (congrArg _ ((if_of_false unlocked).trans (if_pos overrun)))
    · refine stage.trans (congrArg _ ((if_of_false unlocked).trans ((if_of_false going).trans ((if_of_false ?_).trans ?_))))
      · rw [free, Bool.or_false, decide_eq_false moved]
      · rw [lockStage_eq, here]
  · obtain ⟨d, found, elements⟩ := matAdd_elements inFlight kind look tiles pair clean single some_ narrow
    refine ⟨d, found, fun row _ col inside => (elements row col inside).trans (if_congr Iff.rfl (congrArg (· % _) ?_) rfl)⟩
    have anew : (if (m.present.zero && m.kstep == 0) = true then 0 else c.accElement (f == .fp64) m.acc row col)
        = if m.present.zero = true ∧ m.kstep = 0 then 0 else c.accElement (f == .fp64) m.acc row col :=
      if_congr (by simp) rfl rfl
    dsimp only
    rw [piece_k, ← anew, ← present_kind m]
    cases f <;> rfl

end Sys2Proof.MatrixUnit
end
